-- ==== Sys2Proof/Word.lean ====
section
/-! DEFINITION. The word and byte types of the module. -/

namespace Sys2Proof

/-- A byte of a memory, descriptor, image or message. -/
abbrev Byte := BitVec 8

/-- A 64-bit word: a register, a result word, a request name. -/
abbrev W64 := BitVec 64

end Sys2Proof
end

