-- ==== Sys2Proof/Syntax.lean ====
section
/-! DEFINITION. The commands of the module: one constructor of `Instr` per row of spec/opcode_table.json.
What arrives from outside a command (a value written, bytes stored, a sensor reading, the finding of a check,
an instant of the site timebase) is an operand of the command (log entries 5, 10 and 11). -/

namespace Sys2Proof

/-- A host port (13 R353). -/
inductive Port where
  | a
  | b
  deriving DecidableEq, Repr

/-- A half of the module (07 R175). -/
inductive Half where
  | west
  | east
  deriving DecidableEq, Repr

/-- A direction of a fabric link: from its first end (the lower column or row, or West) to its second, or back. -/
inductive Dir where
  | fwd
  | back
  deriving DecidableEq, Repr

/-- An entry of the request table: a request name (10 R269), and 0 for the ring descriptor itself or k for the
k-th descriptor of the chain it began (10 R280). -/
structure ReqKey where
  name : W64
  link : Nat
  deriving DecidableEq, Repr

/-- What the checks of Table 3.10 find in one flip (03 R79-R83). -/
inductive FlipFind where
  | clean
  | sramCorrected
  | storeBad (addr : Nat)
  | scratchBad (addr : Nat)
  | vscaleBad (addr : Nat)
  | operandParity
  | residueOnce (lane : Nat)
  | residueTwice (lane : Nat)
  | treesOnce
  | treesTwice
  | selectOnce
  | selectTwice
  | expanderBad
  deriving DecidableEq, Repr

/-- What a 32-byte unit of a package holds, since the hub places what it gives out (12 R336): nothing, 32 bytes of a context's
data space from an offset, a part of an entry of a history store by slot, the hem directory of a model, or the mirror and pending
copies of one of its replica-blocks on the package's engine (03 R65). Models and stores are named by their entry of the model
table. -/
inductive UnitPlace where
  | free
  | page (ctx off : Nat)
  | entry (model slot : Nat)
  | directory (model : Nat)
  | hem (model rblk : Nat)
  deriving DecidableEq, Repr

/-- A burst of a package as SECDED leaves it (12 R330): its unit and what that holds, whether two bits are in error, and its address
tag as it was stored. -/
structure Burst where
  pkg    : Nat
  unit   : Nat
  place  : UnitPlace
  double : Bool
  atag   : BitVec 16
  deriving DecidableEq, Repr

/-- What the checks find at a turn boundary (03 R79-R83, R89; 12 R330): with the column of the last flip and the hem changes of a
replica-block as in a flip, with its audit, and with the reads of its hem copies. -/
inductive BoundaryFind where
  | clean
  | sramCorrected (le : Nat)
  | residueOnce (le rblk : Nat)
  | residueTwice (le rblk lane : Nat)
  | auditMismatch (le rblk lane : Nat)
  | storeBad (le su addr : Nat)
  | vscaleBad (le addr : Nat)
  | scratchBad (le rblk addr : Nat)
  | lpddrCorrected (pkg : Nat)
  | lpddrBad (b : Burst)
  deriving DecidableEq, Repr

/-- What a read of an engine's SRAM finds (03 R83). -/
inductive ReadFind where
  | clean
  | corrected
  | uncorrectable
  deriving DecidableEq, Repr

/-- What an access finds in the words of common SRAM that it touches (12 R348): one corrected, or one uncorrectable. -/
inductive WordFind where
  | clean
  | corrected
  | bad (word : Nat)
  deriving DecidableEq, Repr

/-- What a retrieval pass meets, on which engine and unit (03 Table 3.10; 05 R142, R143, R151; 12 R330). -/
inductive RetrieveFind where
  | clean
  | sramCorrected (le : Nat)
  | treesOnce (le : Nat)
  | treesTwice (le su : Nat)
  | passesDiffer (le su : Nat)
  | storeBad (le su addr : Nat)
  | lpddrCorrected (pkg : Nat)
  | lpddrBad (b : Burst)
  deriving DecidableEq, Repr

/-- What the transfer of a request meets in the memory that it reads (12 R330, R348; 03 R83): in LPDDR6, in common SRAM, or at a
scratchpad word of chain memory. -/
inductive SourceFind where
  | clean
  | burstCorrected (pkg : Nat)
  | burstBad (b : Burst)
  | wordCorrected
  | wordBad (word : Nat)
  | chainCorrected (le : Nat)
  | chainBad (le addr : Nat)
  deriving DecidableEq, Repr

/-- What an engine controller meets when it reads a chained descriptor (03 R83). -/
inductive ChainFind where
  | clean
  | sramCorrected
  | scratchBad (addr : Nat)
  deriving DecidableEq, Repr

/-- What a hub's patrol read of a unit delivers (12 R330, R332): whether a bit was corrected, whether two are in error, and the
stored address tag. -/
structure ScrubRead where
  place     : UnitPlace
  corrected : Bool
  double    : Bool
  atag      : BitVec 16
  deriving DecidableEq, Repr

/-- Where a word of an engine's memories lies (03 R83, R86): the coupling store of a unit; VSCALE; and in the scratchpad, whose
addresses firmware gives out, what holds the word: nothing, a replica-block's footprint, a context's chain memory, the
accumulators or turn buffer of a request, a controller record of a context, an engine-wide record, or the counts of a history
store (by entry of the model table). Of the last two, `both` says that the second copy is uncorrectable as well. -/
inductive ScrubPlace where
  | store (su : Nat)
  | vscale
  | scratch
  | footprint (rblk : Nat)
  | chain (ctx : Nat)
  | accumulator (r : ReqKey)
  | ctxRecord (ctx : Nat)
  | engineRecord (both : Bool)
  | storeCount (model : Nat) (both : Bool)
  deriving DecidableEq, Repr

/-- A word of a stitch-fabric lane as it arrived (07 R188): link, direction of travel, lane, data and sideband. -/
structure LaneWord where
  link : Nat
  dir  : Dir
  lane : Nat
  data : W64
  side : Byte
  deriving DecidableEq, Repr

/-- A hardware unit with a progress counter (11 R307). -/
inductive HwUnit where
  | sweep (le su : Nat)
  | controller (le : Nat)
  | slot (s : Nat)
  | peer (p : Nat)
  | spoke (site : Nat)
  deriving DecidableEq, Repr

/-- Who supplies the sample that a home engine converts (06 R158): a stream record, or a request. -/
inductive SampleSource where
  | stream (rec : Nat)
  | request (r : ReqKey)
  deriving DecidableEq, Repr

/-- What appends to a RING slot: a request, or a stream record (05 R138, R139). -/
inductive Appender where
  | request (r : ReqKey)
  | stream (rec : Nat)
  deriving DecidableEq, Repr

/-- The telemetry of one engine site at a tick (18 R480): mV, mW, and its highest junction reading in half degrees Celsius. -/
structure SiteTele where
  volt  : Nat
  power : Nat
  tj    : Int
  deriving DecidableEq, Repr

/-- What a peer port or spoke did since the last tick, and what it holds at the tick (11 Table 11.2): the flits or bursts that crossed,
and the contexts with a job's word queued, or a transfer issued and not completed. -/
structure UnitWork where
  count : Nat
  ctxs  : List Nat
  deriving DecidableEq, Repr

/-- The telemetry of one tick (18 R480): sites by index, powers in mW, temperatures in half
degrees Celsius, VIN_ENG_W and VIN_ENG_E in mV; and the work of the four peer ports and of the spokes of the 40 sites. -/
structure Telemetry where
  sites    : List SiteTele
  input    : Nat
  engines  : Nat
  base     : List Int
  hubMgr   : List Int
  vinWest  : Nat
  vinEast  : Nat
  ports    : List UnitWork
  spokes   : List UnitWork
  deriving DecidableEq, Repr

/-- What the management plane finds of itself (11 R324): nothing, its four cores in disagreement, or a word of its memories that
SECDED cannot correct. -/
inductive PlaneFind where
  | clean
  | coresDiffer
  | memoryBad
  deriving DecidableEq, Repr

/-- A sensor that trips (18 R476): an engine junction of a site, or a hub or manager junction. -/
inductive TripSensor where
  | engine (site : Nat)
  | hubOrManager
  deriving DecidableEq, Repr

/-- An atomic operation on common SRAM (12 R345). -/
inductive AtomicOp where
  | fetchAdd
  | swap
  | compareSwap
  deriving DecidableEq, Repr

/-- The three windows of common SRAM (12 R344). -/
inductive CsWindow where
  | plain
  | setBits
  | clearBits
  deriving DecidableEq, Repr

/-- How a training of a link ends (13 R354, 14 R379): the far end's widest width, its highest version and its
nonce, or no success. -/
inductive Training where
  | trained (width version base : Nat) (farNonce : BitVec 128)
  | failed
  deriving DecidableEq, Repr

/-- A link that flits cross: a host port or a peer link (13 R355, 14 R379). -/
inductive LinkName where
  | host (p : Port)
  | peer (l : Nat)
  deriving DecidableEq, Repr

/-- A node of an enumeration reply, in depth-first order (14 R382, R383): its hint, its depth, and the link of its parent that
leads to it. -/
structure EnumNode where
  hint  : Nat
  depth : Nat
  link  : Nat
  deriving DecidableEq, Repr

/-- An entry of a ROUTE message (14 R384): an admitted node and, for a descendant, the child link toward it. -/
structure RouteItem where
  node  : Nat
  child : Option Nat
  deriving DecidableEq, Repr

/-- What the modules of a job know of one of its parts (14 R391-R396): its node, its replicas, n and q of its blocks, its number of
moment pairs, and the sources in other parts that its SPDIR lists, by the block number it gives them and the variable. -/
structure PartShape where
  node   : Nat
  reps   : Nat
  blocks : List (Nat × Nat)
  pairs  : Nat
  hems   : List (Nat × Nat)
  deriving DecidableEq, Repr

/-- A frame that the site port received (15 R406, R411, R412): VLAN tag and ID, UDP destination port, the UDP
payload, the PRP sequence and whether it came with a trailer, and the arrival instant of its first byte. -/
structure SiteFrame where
  tagged  : Bool
  vlan    : Nat
  port    : Nat
  ipv6    : Bool
  prpSeq  : Option Nat
  payload : List Byte
  now     : Nat
  deriving DecidableEq, Repr

/-- The responders of the site port (15 R406). -/
inductive Responder where
  | arp
  | nd
  | icmp
  | icmpv6
  deriving DecidableEq, Repr

/-- The monitored rails (17 R443), in the bit order of MG_RSTCAUSE.MONRAIL. -/
inductive Rail where
  | vaon
  | vmgr
  | vhub
  | vser
  | vio12
  | vio18
  | vm
  deriving DecidableEq, Repr

/-- What a start meets outside its own state (17 R454-R456, 12 R327, 21 R511): whether TCXO_AON runs, the flash
offers a fit read, the NOR read succeeds, the highest rate index at which each channel of each package trains
(3 when none does), the engine supplies are good, and the self-test passes. -/
structure StartSeen where
  flashOk   : Bool
  norReadOk : Bool
  hubOk     : List Bool
  rates     : List (List Nat)
  vinWest   : Bool
  vinEast   : Bool
  selfTest  : Bool
  deriving DecidableEq, Repr

/-- The reference clocks (21 R513). -/
inductive RefClock where
  | link
  | site
  | tcxo
  deriving DecidableEq, Repr

/-- A boundary word of a job (04 Table 4.2 order 7; 14 R386). -/
structure BoundaryMsg where
  turn    : Nat
  stop    : Bool
  rungOf  : List Nat
  betas   : List Nat
  newBest : List Bool
  deriving DecidableEq, Repr

/-- The commands of the module, one for each row of the opcode table. -/
inductive Instr where
  -- descriptor opcodes (10 R267): the request whose descriptor stands in the request table
  | nop (r : ReqKey)
  | solve (r : ReqKey) (source : SourceFind)
  | sample (r : ReqKey) (source : SourceFind)
  | score (r : ReqKey) (source : SourceFind)
  | retrieve (r : ReqKey) (source : SourceFind) (find : RetrieveFind)
  | append (r : ReqKey) (source : SourceFind)
  | modelLoad (r : ReqKey) (source : SourceFind)
  | modelUpdateRows (r : ReqKey) (source : SourceFind)
  | modelUnload (r : ReqKey)
  | copy (r : ReqKey) (source : SourceFind)
  | fill (r : ReqKey)
  | patch (r : ReqKey)
  | join (r : ReqKey)
  | signal (r : ReqKey)
  | cancel (r : ReqKey)
  | ctxCreate (r : ReqKey)
  | ctxDestroy (r : ReqKey)
  | ctxGrant (r : ReqKey)
  | ctxReset (r : ReqKey)
  | ctxDump (r : ReqKey)
  | queueCreate (r : ReqKey)
  | queueDestroy (r : ReqKey)
  | powerSetModuleState (r : ReqKey)
  | powerSetEngineHalf (r : ReqKey)
  | powerSetPowerLimit (r : ReqKey)
  | siteBind (r : ReqKey) (source : SourceFind)
  | siteUnbind (r : ReqKey)
  | engineRetire (r : ReqKey)
  | engineRepair (r : ReqKey)
  | counterReadAll (r : ReqKey)
  | scalePolicy (r : ReqKey) (areaOk : Bool)
  -- front end (09)
  | feKqcmdGo (p : Port)
  | snoop (p : Port) (addr : Nat) (data : List Byte)
  | doorbellRead (slot : Nat)
  | descriptorFetch (slot : Nat)
  | sliceEnd
  | requestComplete (r : ReqKey) (now formed : Nat) (areaOk : Bool)
  | chainNext (name : W64) (find : ChainFind)
  | queueDestroyEnd (queue : Nat)
  | cacheableRequest (p : Port)
  -- data plane (03, 04, 05, 06, 07)
  | flip (le rblk : Nat) (find : FlipFind)
  | hemFlip (w : LaneWord)
  | turnEndStitch (w : LaneWord)
  | drainMarker (w : LaneWord)
  | serviceTransfer (link : Nat) (dir : Dir) (words : List (W64 × Byte))
  | laneFault (link lane : Nat) (byRate : Bool)
  | turnBoundary (r : ReqKey) (find : BoundaryFind)
  | ringAppendWrite (who : Appender)
  | patrolScrub (site : Nat) (place : ScrubPlace) (addr : Nat) (find : ReadFind)
  | siteFailure (site : Nat)
  | spareShiftPause (hrow : Nat) (unreadable : List Nat)
  | spareShiftResume (hrow pause10us : Nat)
  | engineClearEnd (site : Nat)
  | wakeScrubEnd (site : Nat) (bad : List (ScrubPlace × Nat))
  | sampleConversion (src : SampleSource) (areaOk : Bool)
  | scalePolicyDecision (le gbase : Nat) (areaOk : Bool)
  -- management and recovery (11, 18)
  | managementTick (t : Telemetry)
  | hangDetected (ctx : Nat) (u : HwUnit)
  | contextResetEnd (ctx : Nat)
  | resetAckTimeout (ctx site : Nat)
  | dumpAckTimeout (ctx : Nat) (u : HwUnit)
  | dumpWrite (ctx : Nat)
  | watchdogExpiry
  | coreCrossCheck (find : PlaneFind)
  -- memory (12)
  | hubPatrolScrub (pkg unit : Nat) (read : ScrubRead)
  | channelFailure (pkg ch rate : Nat) (parity : Bool)
  | packageFailure (pkg : Nat) (wholeGroup : Bool)
  | hubFailure (h : Half)
  | csramPlainWrite (p : Port) (addr : Nat) (data : List Byte)
  | csramAliasWrite (p : Port) (addr : Nat) (data : List Byte) (find : WordFind)
  | csramAtomic (p : Port) (op : AtomicOp) (addr size : Nat) (value compare : W64) (find : WordFind)
  | csramRead (p : Port) (addr len : Nat) (find : WordFind)
  | csramClearEnd
  -- host ports and registers (13, 20)
  | hostLinkTraining (p : Port) (t : Training)
  | hostLinkDown (p : Port) (tagFail : Bool) (unacked : Nat)
  | flitReplayRequest (l : LinkName) (seq newest : BitVec 10)
  | linkRetrain (l : LinkName) (t : Training) (unacked : Nat)
  | linkRekey (l : LinkName) (farNonce : BitVec 128)
  | hpHaspRead (p : Port) (n : Nat)
  | hpHaspWrite (p : Port) (n : Nat) (v : W64)
  | haspBreak (p : Port) (v : W64)
  | registerWrite (p : Port) (off size : Nat) (v : W64)
  | rcRead (p : Port) (off size : Nat)
  -- peers and jobs (14)
  | peerLinkTraining (l : Nat) (t : Training) (peer : Nat)
  | peerLinkDown (l : Nat) (tagFail : Bool)
  | enum (l depth : Nat)
  | enumReply (l : Nat) (nodes : List EnumNode)
  | enumReplyTimeout (l : Nat)
  | route (l dst : Nat) (items : List RouteItem)
  | image (dst job gen : Nat) (bytes : List Byte) (table : List PartShape)
  | loaded (node job gen : Nat) (status : Nat) (word0 word1 : W64) (shape : Option PartShape)
  | run (dst job gen : Nat) (opcode : Nat) (runBlock : List Byte) (seed model : W64) (ladder sched : List Byte)
      (init : List Byte) (hems : List (Nat × Nat × Nat))
  | credit (l job gen turn : Nat)
  | cuffSend (job : Nat)
  | cuff (l job gen : Nat) (words : List W64)
  | partialEnergy (node job gen turn : Nat) (values : List Int) (moved : Bool)
  | boundary (l job gen : Nat) (msg : BoundaryMsg)
  | result (node job gen : Nat) (offset : Nat) (bytes : List Byte)
  | fault (node job gen : Nat) (status : Nat) (locator : W64)
  | abort (l origin job gen : Nat)
  | abortDone (node job gen : Nat)
  | unload (dst job gen : Nat)
  | unloaded (node job gen : Nat)
  -- site port (15)
  | sampleSegment (lane : Nat) (f : SiteFrame)
  | scaleRecords (lane : Nat) (f : SiteFrame)
  | responderFrame (lane : Nat) (k : Responder) (request : List Byte)
  | frameDiscard (lane : Nat)
  | ptpMessage (lane : Nat) (slave : Bool) (time : Nat)
  | prpSupervision
  | setpointSend (lane : Nat) (now : Nat)
  | gateListEntry (lane : Nat) (now : Nat)
  | siteDiEdge (bit : Nat) (level : Bool) (now : Nat)
  -- entropy (16)
  | conditionerBlock (raw : BitVec 1024)
  | healthTestFailure (proportion : Bool)
  | startupTestPass
  | rnDataRead (p : Port) (w : Nat)
  | rnDrbgRead (p : Port) (w : Nat)
  | release (p : Port)
  -- reset and start (17)
  | nrstAssert
  | nrstEscalation
  | nrstRelease (us : Nat)
  | railFail (r : Rail)
  | pRelease (dbgOpen : Bool) (strap : BitVec 2)
  | startSequence (seen : StartSeen)
  | commit (p : Port) (mramOk : Bool)
  | loadRun (p : Port) (hostOk : Bool) (seen : StartSeen)
  | rcvWriteNor (p : Port) (hostOk norOk : Bool)
  | clearCnt (p : Port)
  -- power, thermal and firmware update (18)
  | engineThrottle (site : Nat)
  | powerOvershoot (site : Nat)
  | thermalTrip (sensor : TripSensor)
  | vinEngLoss (h : Half)
  | standbyEntry
  | autowake
  | verify (p : Port) (hostOk : Bool)
  | fwWriteNor (p : Port) (norOk : Bool)
  | activate (p : Port) (recordsOk : Bool)
  -- Ward, key store and JTAG (19)
  | chal (p : Port)
  | openWard (p : Port) (seen : StartSeen)
  | challengeLapse
  | provision (p : Port) (hostOk mramOk : Bool)
  | attest (p : Port)
  | bypass
  | idcode
  | samplePreload (pins : Byte)
  | extest (cells : Byte)
  | wardstat
  | internalDebug (code : Byte)
  -- clocks and sideband (21, 20)
  | refclkLinkLoss
  | refclkSiteLoss
  | tcxoAonLoss
  | clockReturn (c : RefClock)
  | sidebandWrite (off : Nat) (v : W64) (pecOk : Bool)
  | sidebandRead (off : Nat) (pecOk : Bool)
  -- memory zeroing and site lanes (12, 15)
  | lpddr6ZeroingEnd (pkg : Nat)
  | siteLaneDown (lane : Nat)
  | siteLaneUp (lane : Nat)
  deriving DecidableEq, Repr

end Sys2Proof
end

