-- ==== Sys2Proof/Decode.lean ====
section
/-! DEFINITION. The command that a word spells. No row of spec/opcode_table.json gives a command any bits, so no
word spells a command (log entry 2). -/

namespace Sys2Proof

/-- The command that `nbits` bits `w` of the opcode table spell: none, since no row gives bits. -/
def decodeTableWord (_nbits _w : Nat) : Option Instr := none

end Sys2Proof
end

