-- ==== Sys2Proof/Config.lean ====
section
/-! DEFINITION. What an implementation fixes and the free values: constants without a body, so that no proof can see
them (log entry 13). Where the argument is a plain number it is the state's own counter of free values. -/

namespace Sys2Proof

/-- The status of a predecessor whose queue generation has gone (10 R271: word 1 holds "that predecessor's status";
no rule says what it is when nothing holds the predecessor any more). -/
opaque Config.lostStatus : Nat → BitVec 8

/-- CLASS of the locator of an operand-parity fault (03 R79 detects it; Table 3.16 gives it no class). -/
opaque Config.operandParityClass : Nat → BitVec 4

/-- The locator of a hem-lane word that passes parity with a reserved KIND or reserved bits (07 R188: a logic fault; no
rule gives its class or place). -/
opaque Config.hemFaultLocator : Nat → W64

/-- The SECDED check bits of a burst over its 256 data bits, its address tag and six zero bits (12 R329 names the code and its width,
and no rule gives its matrix). -/
opaque Config.checkBits : BitVec 256 → BitVec 16 → BitVec 10

/-- The scale d_j of a hem source in another part before a Cuff word has carried it, by model word and source (03 R65 has
RUN carry start states only). -/
opaque Config.remoteScale : W64 → Nat → BitVec 8

/-- The start state of a hem source in another part of a job that node 0 has from that part, by job, generation, node,
block, variable and replica (03 R65: node 0 sends each part the start states of its hem sources in other parts; no rule
says how node 0 learns the states that another part has kept). -/
opaque Config.farState : Nat → Nat → Nat → Nat → Nat → Nat → Nat

/-- What a part of a job adds to the sum of a moment pair with an end in another part whose state it does not have (04 R118, R120: a pair
of a part may name variables of other parts; no rule says how their states reach it), by free-value counter. -/
opaque Config.farPair : Nat → Nat → Nat → Nat → Nat

/-- The share of a tick, in 1/256, that an engine spent at its upper operating point in a tick that an overshoot ended (18 R475
holds it at the lower one for the rest of the tick; no rule says how much was spent before). -/
opaque Config.overshootFrac : Nat → BitVec 8

/-- The 256-byte record of a replica-block (04 R91: it holds the energy change, the counts of flips, frozen turns and audits, and the
draw index; no rule lays it out). -/
opaque Config.recordImage : Int → Nat → Nat → Nat → Nat → List Byte

/-- What a write of MRAM that failed has left in the bytes it was to write (17 R453, 19 R495: both report the failure; no rule says
what the cells hold after it). -/
opaque Config.mramLeft : Nat → List Byte

/-- Whether the signature of a firmware image verifies (17 R454 order 5, 18 R481: neither the image's layout nor the key is
given). -/
opaque Config.fwVerifies : List Byte → Bool

/-- The version of a firmware image (18 Table 18.15; its place in the image is not given). -/
opaque Config.fwVersion : List Byte → BitVec 16

/-- The microcode interface number of a firmware image (18 R482; its place in the image is not given). -/
opaque Config.fwUcif : List Byte → Byte

/-- The random number that an ECDSA signature takes (19 R496 names the algorithm; no rule says how the number is drawn). -/
opaque Config.signNonce : Nat → BitVec 384

/-- How a direction of an encrypted link is spelt as the info string of HKDF, 0 from the first end and 1 to it (13 R365: "the direction as
info"; no rule gives its bytes). -/
opaque Config.directionInfo : Nat → List Byte

/-- What CLIP and TOTAL of EN_QST show of a count that their 17 bits cannot hold (06 Table 6.7; R163 gives the whole count in
EN_QCNT and no rule says what the narrow field reads; log entry 107). -/
opaque Config.wideCount : Nat → BitVec 17

/-- The fixed public key of the conditioner (16 R423: in ROM; its value is not given). -/
opaque Config.conditionerKey : BitVec 256

end Sys2Proof
end

