-- ==== Sys2Proof/Machine/State.lean ====
section
/-! DEFINITION. The state of the module as plain data, its reset, and the reasons a step can stop.
Registers are held field by field; Machine/RegRead.lean composes the 64-bit value that a read returns. -/

namespace Sys2Proof.Machine

/-- A byte string. -/
abbrev Bytes := List Byte

/-- Sparse data by number: pairs of key and value, keys strictly rising. -/
abbrev Tbl (α : Type) := List (Nat × α)

/-- A memory: pairs of address and byte, addresses strictly rising, none of them 0: an unlisted byte reads 0
(12 R337, R343; log entry 4 for host memory). -/
abbrev Mem := List Host.Cell

/-- Why the machine stops. No rule of the spec stops the module, so no meaning raises one of these; the type has
one constructor because a closed inductive without any could not be compared. -/
inductive Fault where
  /-- Raised by no meaning. Safe: nothing reaches it. -/
  | unreachable
  deriving DecidableEq, Repr

/-- Why the model gives no meaning to a command. -/
inductive Refusal where
  /-- Raised by `exec` for a command that has no meaning yet. Safe: the machine stops. -/
  | notModelled (mnemonic : String)
  /-- Raised by INTERNAL_DEBUG for a code outside Table 19.1 while the Ward is OPEN: no rule says what internal debug does
  then (19 R484). Safe: the machine stops. -/
  | internalDebugUnstated
  deriving DecidableEq, Repr

/-! ### Management block -/

/-- MG registers and firmware images (00 R2, 17 Table 17.4, 18 Tables 18.15-18.18, 20 R503). -/
structure Mg where
  grade   : BitVec 4
  tick    : W64
  por     : Bool
  mon     : Bool
  nrstc   : Bool
  nrsts   : Bool
  wake    : Bool
  wakem   : Bool
  recov   : Bool
  monrail : Byte
  pulse   : BitVec 24
  fwRun   : BitVec 16
  fwNor   : BitVec 16
  ucif    : Byte
  nordiff : Bool
  fwOp    : BitVec 4
  fwStatus : Byte
  fwSver  : BitVec 16
  fwAddr  : BitVec 52
  fwLen   : BitVec 25
  staged  : Option Bytes
  nor     : Option Bytes
  running : Option Bytes
  deriving DecidableEq, Repr

/-! ### Links and host ports -/

/-- State of a host or peer link (13 Table 13.8, 14 Table 14.8). -/
inductive LinkState where
  | disabled
  | training
  | up
  | down
  | failed
  | keyless
  | lowPower
  deriving DecidableEq, Repr

/-- Session keys of an encrypted link (13 R365): sent and received direction, and flits since the last exchange. -/
structure LinkSec where
  txKey  : BitVec 256
  txSalt : BitVec 32
  rxKey  : BitVec 256
  rxSalt : BitVec 32
  epoch  : Nat
  deriving DecidableEq, Repr

/-- A host port (13 Tables 13.8, 13.9, R354-R357, R365). `asked` is the flit that the last replay request named, `again`
how often in a row it was. -/
structure HostPort where
  state    : LinkState
  width    : Nat
  ver      : Nat
  base     : Nat
  attempts : Nat
  sec      : Option LinkSec
  asked    : BitVec 10
  again    : Nat
  replay   : Nat
  retrain  : Nat
  downs    : Nat
  tagfail  : Nat
  deriving DecidableEq, Repr

/-- What an agent was last answered (the model's own output field, log entry 9). -/
inductive Answer where
  | silent
  | value (v : W64)
  | data (b : Bytes)
  | done
  | error
  | resetting
  | nocache
  | invalidAck
  | status (code : Nat) (v : W64)
  deriving DecidableEq, Repr

/-- HP registers, the Hasp bank and the answers at both ports (13). -/
structure Hp where
  portA    : HostPort
  portB    : HostPort
  rwldrop  : Bool
  rwlPort  : Option Port
  rwlOff   : Nat
  hasperr  : Nat
  badacc   : Nat
  cachereq : Nat
  hasps    : List (Option Port)
  downA    : Bool
  downB    : Bool
  freedA   : Bool
  freedB   : Bool
  broke    : Bool
  lastbrk  : Nat
  evicts   : List (Port × Nat)
  ansA     : Answer
  ansB     : Answer
  deriving DecidableEq, Repr

/-! ### Front end -/

/-- State of a queue (09 Table 9.3). -/
inductive QState where
  | active
  | error
  | destroying
  deriving DecidableEq, Repr

/-- A queue: its record (09 Table 9.4) and the module's own counts (R230-R263). `destroys` holds the
QUEUE_DESTROY requests that wait on it, oldest first. -/
structure Queue where
  ring     : Nat
  comp     : Nat
  door     : Nat
  line     : Nat
  ringN    : Nat
  compN    : Nat
  tag      : BitVec 24
  cls      : Nat
  kernel   : Bool
  sigerr   : Bool
  homeb    : Bool
  vector   : Nat
  gen      : Nat
  state    : QState
  cause    : Nat
  fhead    : Nat
  ctail    : Nat
  tail     : Nat
  chead    : Nat
  watch    : Bool
  fired    : Bool
  unserved : Nat
  readyRun : Nat
  destroys : List ReqKey
  deriving DecidableEq, Repr

/-- A fetch slot (09 Table 9.17, R246; 11 R307). -/
structure Slot where
  queue   : Option Nat
  eclass  : Nat
  idle    : Bool
  cwait   : Bool
  pending : Bool
  fetched : Nat
  deriving DecidableEq, Repr

/-- Why a dispatched request holds (11 Table 11.3 KIND 0x6 and others). -/
inductive Hold where
  | rowUpdate
  | spareShift
  | standby
  | scalePolicy
  | ringAppend
  | halfRet
  | unload
  | destroy
  | dump
  | peer
  | powerOn
  deriving DecidableEq, Repr

/-- State of a request in the table (10 R270-R277, 11 Table 11.8). -/
inductive ReqState where
  | heldPatch
  | waiting
  | dispatched
  | ended
  | heldFailed
  deriving DecidableEq, Repr

/-- The entries an APPEND still has to write (05 R136, R139, R525). -/
structure AppendWork where
  store : Nat
  first : Nat
  count : Nat
  done  : Nat
  elems : List (List Int)
  deriving DecidableEq, Repr

/-- An entry of a queue's patch overlay (10 R273-R277): its source and target by sequence number, the word it hits,
the value once the source has given it, the status of a source that failed, and whether the entry was beyond the table when
its source was fetched (10 R276). -/
structure Overlay where
  queue  : Nat
  source : Nat
  target : Nat
  word   : Nat
  value  : Option W64
  failed : Option Nat
  rw1    : Bool
  beyond : Bool
  deriving DecidableEq, Repr

/-- What an edge has come to (10 R270). -/
inductive EdgeOut where
  | waiting
  | satisfied
  | failed (status : Nat)
  deriving DecidableEq, Repr

/-- A nonzero edge of a request (10 R270). -/
structure Edge where
  name : W64
  out  : EdgeOut
  deriving DecidableEq, Repr

/-- An entry of the request table: the descriptor as patched, its owner, its edges and patches, and what has become
of it. `place` is where a chained descriptor lies (engine, index); `reads` what a RETRIEVE reads (store, range); `best` the model of an ended run and the
best state of its best replica. -/
structure Request where
  key     : ReqKey
  queue   : Nat
  tag     : BitVec 24
  kernel  : Bool
  desc    : Bytes
  edges   : List Edge
  patches : List Overlay
  state   : ReqState
  hold    : Option Hold
  status  : Nat
  stop    : Nat
  faultLe : Nat
  word0   : W64
  word1   : W64
  turns   : Nat
  append  : Option AppendWork
  samples : List (Nat × Bytes)
  reads   : Option (Nat × Nat × Nat)
  place   : Option (Nat × Nat)
  best    : Option (Nat × List (List Nat))
  deriving DecidableEq, Repr

/-- A chain that has not ended (10 R279, R280): the head's name and owner, the number of the next link, and where the
next descriptor lies, or none while a link is in the table. `holder` is the descriptor that holds the pointer. -/
structure Chain where
  name   : W64
  queue  : Nat
  tag    : BitVec 24
  kernel : Bool
  next   : Nat
  ptr    : Option (Nat × Nat)
  holder : Bytes
  deriving DecidableEq, Repr

/-- FE registers, queues, slots and the request table (09, 10). -/
structure Fe where
  kqAddr   : BitVec 58
  kqStatus : Byte
  kqQueue  : Nat
  kqGen    : Nat
  slice    : Nat
  age      : Nat
  qselA    : Nat
  qselB    : Nat
  qerrValid : Bool
  qerrQueue : Nat
  qerrCause : Nat
  qerrLost  : Nat
  qerrStale : Nat
  evVector : Nat
  evPortB  : Bool
  evEn     : Bool
  slots    : List Slot
  qgens    : Tbl Nat
  queues   : Tbl Queue
  requests : List Request
  chains   : List Chain
  overlay  : List Overlay
  fenced   : Bool
  deriving DecidableEq, Repr

/-! ### Contexts -/

/-- State of a context ID (11 Table 11.1). -/
inductive CtxState where
  | free
  | live
  | resetting
  deriving DecidableEq, Repr

/-- A grant (11 R306). -/
structure Grant where
  mask    : Nat
  slices  : Nat
  lanes   : Nat
  scratch : Nat
  lpddr   : Nat
  history : Nat
  streams : Nat
  chain   : Nat
  deriving DecidableEq, Repr

/-- A reset in progress (11 R313): the kernel requests that complete with it, whether the ID is freed, whether it has begun or waits
for the end of a spare shift (07 R202), and the
sites that did not acknowledge and are to be repaired first (R317). -/
structure ResetInfo where
  waiters : List ReqKey
  freeing : Bool
  begun   : Bool
  noAck   : List Nat
  tagBefore : BitVec 24
  deriving DecidableEq, Repr

/-- A crash dump in progress (11 R321). -/
structure DumpInfo where
  req         : ReqKey
  tick        : W64
  faultCtx    : W64
  unreachable : List HwUnit
  deriving DecidableEq, Repr

/-- A context ID (11 R303-R306, Table 11.16), its chain memory by engine and its data space by engine; `isolated` are the units whose
fence stayed up after a crash dump, as they did not acknowledge it (R321). -/
structure Ctx where
  state   : CtxState
  gen     : Nat
  hung    : Bool
  fenced  : Bool
  isolated : List HwUnit
  resets  : Nat
  job     : Nat
  grant   : Grant
  chain   : Tbl Mem
  space   : Tbl Mem
  pages   : Tbl (List Nat)
  resetting : Option ResetInfo
  dump    : Option DumpInfo
  deriving DecidableEq, Repr

/-- A progress counter of a unit, for a context or of its own (11 R307-R309): its count, the count at the last tick, the tick of
its last rise, t_r, and as at the last tick SINCE, the fields of the blocking record (Table 11.3), and whether the context has
runnable work. -/
structure Progress where
  unit     : HwUnit
  ctx      : Option Nat
  count    : Nat
  mirrored : Nat
  lastRise : Nat
  tr       : Nat
  since    : Nat
  kind     : Nat
  tag      : BitVec 24
  link     : Nat
  runnable : Bool
  deriving DecidableEq, Repr

/-- CX registers and the contexts (11). -/
structure Cx where
  window  : Nat
  k       : Nat
  auto    : Bool
  fTag    : BitVec 24
  fCause  : Nat
  fValid  : Bool
  fMore   : Bool
  fLe     : Nat
  fSu     : Nat
  fIdx    : Nat
  fTick   : BitVec 16
  mpfault : Bool
  mpcause : Nat
  autorst : Nat
  stale   : Nat
  hungSet : BitVec 256
  selA    : Nat
  selB    : Nat
  pselA   : BitVec 30
  pselB   : BitVec 30
  ctxs    : Tbl Ctx
  progress : List Progress
  deriving DecidableEq, Repr

/-! ### Engine sites and quantisation groups -/

/-- Domain state of a site (03 Table 3.13). -/
inductive DState where
  | off
  | ret
  | on
  deriving DecidableEq, Repr

/-- An engine site: EN registers (03, 20 Table 20.6) and its PW_ENG fields (18 Table 18.13), PW_VCAP, and the
records of R83 and R85: words found uncorrectable, by place and word address, and whether each has been rewritten. -/
structure Site where
  dstate   : DState
  retired  : Bool
  sufault  : Byte
  target   : DState
  clearing : Bool
  scrub    : Bool
  ucode    : Bool
  tripped  : Bool
  point    : Nat
  trans    : Nat
  audlog   : Nat
  audeff   : Nat
  sramcorr : Nat
  logcorr  : Nat
  detected : Nat
  audmism  : Nat
  faultloc : W64
  qselA    : BitVec 32
  qselB    : BitVec 32
  volt     : Nat
  budget   : Nat
  power    : Nat
  tj       : Byte
  frac     : Nat
  throt    : Nat
  vcap     : Nat
  throttled : Bool
  overshoot : Bool
  failed   : Bool
  logic    : List Nat
  badWords : List (ScrubPlace × Nat × Bool)
  deriving DecidableEq, Repr

/-- Owner of a channel group (06 R156). -/
inductive GroupOwner where
  | model (index group : Nat)
  | stream (rec : Nat)
  deriving DecidableEq, Repr

/-- A pending scale update (06 R168). -/
structure ScaleUpd where
  tblk   : Nat
  ch     : Nat
  qscale : BitVec 16
  deriving DecidableEq, Repr

/-- One channel of a group (06 R163, Tables 6.6, 6.7). `move` is the scale that the policy has decided for the next
block (R171). -/
structure Chan where
  qscale : BitVec 16
  clip   : Nat
  total  : Nat
  share  : Nat
  zrun   : Nat
  move   : Option (BitVec 16)
  deriving DecidableEq, Repr

/-- The firmware scale policy of a group (06 R171). -/
structure Policy where
  n     : Nat
  floor : BitVec 16
  ceil  : BitVec 16
  deriving DecidableEq, Repr

/-- A channel group (06 R156-R173). `seen` is the number of samples converted in the running block, `started`
says whether a block is running, `awaiting` whether the next block waits for the policy's decision; `homeb` is the home port of the owner's queue. -/
structure Group where
  owner    : GroupOwner
  tag      : BitVec 24
  homeb    : Bool
  le       : Nat
  gbase    : Nat
  outbound : Bool
  raw      : Nat
  mfmt     : Nat
  len      : Nat
  high     : Nat
  area     : W64
  vector   : Nat
  block    : Nat
  started  : Bool
  seen     : Nat
  completed : Nat
  events   : Nat
  dropped  : Nat
  chans    : List Chan
  pending  : List ScaleUpd
  policy   : Option Policy
  awaiting : Bool
  stopped  : Bool
  areaErr  : Bool
  deriving DecidableEq, Repr

/-! ### Models, stores and runs -/

/-- A sparse entry (02 Table 2.4). -/
structure Sparse where
  lidx : Nat
  last : Bool
  code : Int
  deriving DecidableEq, Repr

/-- A directory entry of SPDIR (08 R209): source variable, source block, first entry. -/
structure SpDir where
  var   : Nat
  blk   : Nat
  first : Nat
  deriving DecidableEq, Repr

/-- A block of a model: its entry (08 Table 8.3) and its sections. `codes` is the code matrix by row, `scales`
the d_i of every variable (of a scaled block its whole vector of 64·⌈n/64⌉ entries), `bias` the values of every variable (one for a spin, q for a Potts variable). -/
structure Block where
  n      : Nat
  q      : Nat
  fmt    : Nat
  sb     : Nat
  scaled : Bool
  colour : Nat
  codes  : List (List Int)
  scales : List Nat
  bias   : List (List Int)
  sparse : List Sparse
  spdir  : List SpDir
  deriving DecidableEq, Repr

/-- A placement (08 Table 8.4) with the engine of its PLACE section. -/
structure Place where
  le    : Nat
  block : Nat
  su    : Nat
  pair  : Bool
  odd   : Bool
  first : Nat
  count : Nat
  deriving DecidableEq, Repr

/-- A stitch list (08 R211): link, virtual lane, and its positions: a unit's hem output, or a word forwarded from
a link and virtual lane. -/
structure Stitch where
  le        : Nat
  link      : Nat
  vlane     : Nat
  positions : List (Sum Nat (Nat × Nat))
  deriving DecidableEq, Repr

/-- A replica-block (04 R91): its placement, state words, fields by variable and state, record, and hem copies. -/
structure RBlock where
  le      : Nat
  rblk    : Nat
  su      : Nat
  replica : Nat
  block   : Nat
  state   : List Nat
  fields  : List (List Int)
  dE      : Int
  flips   : Nat
  frozenTurns : Nat
  frozen  : Bool
  audit   : Nat
  draw    : Nat
  key     : BitVec 128
  col     : Option (Nat × Nat × Nat)
  dwell   : Nat
  mirror  : List Nat
  pend    : List Nat
  deriving DecidableEq, Repr

/-- A row update that waits for its boundary, or a converted BIAS sample (04 R124, 15 R416). -/
structure RowUpdate where
  req    : Option ReqKey
  stream : Option Nat
  rows   : List (Nat × Nat × List Int)
  biases : List (Nat × Nat × List Int)
  scales : List (Nat × Nat × Nat)
  release : Bool
  deriving DecidableEq, Repr

/-- A turn-end stitch held by a receiving unit (07 R187): engine, link, virtual lane, direction, source block. -/
structure TurnEnd where
  le    : Nat
  link  : Nat
  vlane : Nat
  blk   : Nat
  turn  : Nat
  deriving DecidableEq, Repr

/-- The sums of a SAMPLE (04 R119-R121): Z by block, M1 by block, variable and state, M2 by pair, Z_t, and the frozen
turns left out. -/
structure Sums where
  z  : List Nat
  m1 : List (List (List Int))
  m2 : List Int
  zt : Nat
  frozenOut : Nat
  deriving DecidableEq, Repr

/-- A model's own data (02, 04, 08). `remoteD` holds the scales of hem sources in other parts of a job, as the last
Cuff word of each carried it (14 R397). -/
structure Net where
  relaxed  : Bool
  heatbath : Bool
  replicas : Nat
  colours  : Nat
  sx       : Nat
  ladder   : Nat
  banks    : Nat
  const    : Int
  quantum  : BitVec 16
  blocks   : List Block
  places   : List Place
  offsets  : List Nat
  stitches : List Stitch
  pairs    : List (Nat × Nat × Nat × Nat × Nat)
  rblocks  : List RBlock
  kept     : List (List (List Nat))
  valid    : List Bool
  sums     : Sums
  sampled  : Bool
  updates  : List RowUpdate
  biasHeld : List RowUpdate
  turnEnds : List TurnEnd
  modelWord : W64
  remoteD  : Tbl Nat
  deriving DecidableEq, Repr

/-- An append that waits for its slot (05 R139). -/
structure WaitingEntry where
  who      : Appender
  position : Nat
  elems    : List Int
  deriving DecidableEq, Repr

/-- A history store (05). Entries stand by slot as element lists; `visible` is N_v, `ready` the positions at or
above it that are written. -/
structure Store where
  fmt      : Nat
  ring     : Bool
  lpddr    : Bool
  whole    : Bool
  width    : Nat
  capacity : Nat
  region   : Nat
  n        : Nat
  visible  : Nat
  ready    : List Nat
  slots    : Tbl (List Int)
  waiting  : List WaitingEntry
  deriving DecidableEq, Repr

/-- What a model table entry holds. -/
inductive Body where
  | net (m : Net)
  | store (h : Store)
  deriving DecidableEq, Repr

/-- Bytes of a slice, or VSCALE entries of an engine, that a block's copy holds: `item` is the block number, or for a
history store 0. -/
structure Alloc where
  le   : Nat
  su   : Nat
  base : Nat
  len  : Nat
  item : Nat
  deriving DecidableEq, Repr

/-- A taken entry of the model table (08 R214, R228, R229): generation, owner, engines, needs that are released
with it (`moments` its moment banks by engine and bank), and whether it is loading, unloading, or an unloaded model that keeps only its entry. -/
structure Model where
  gen       : Nat
  tag       : BitVec 24
  queue     : Nat
  mask      : Nat
  loading   : Bool
  unloading : Option (List ReqKey)
  gone      : Bool
  encrypted : Option Nat
  job       : Nat
  links     : List Nat
  dense     : List Alloc
  sparse    : List Alloc
  vscale    : List Alloc
  scratch   : List (Nat × Nat)
  lpddr     : List (Nat × Nat)
  pairsN    : List (Nat × Nat)
  moments   : List (Nat × Nat)
  history   : Nat
  body      : Body
  deriving DecidableEq, Repr

/-- Best record of a replica (04 R114). -/
structure Best where
  energy : Int
  turn   : Nat
  rung   : Nat
  deriving DecidableEq, Repr

/-- A SOLVE, SAMPLE or SCORE that has passed its dispatch (04, 10 R282). `opcode` is 2, 3 or 4. Lists are by
replica, `betas` and `ladder` by rung. `barrier` says that the parts of this module have ended the turn and wait for
the boundary word, `due` the new-best flags of a boundary word that goes to the other parts of a job when the run is no longer held,
`pause` that the part on a worker is held at its boundary, `farOut` the frozen turns that the other parts left out, `ended` which units have presented their turn-end stitch; `landing` says that the run has been cancelled, with the end of its
request, and waits for the results of the other parts; `sums` are those of the last boundary. -/
structure Run where
  key       : ReqKey
  model     : Nat
  opcode    : Nat
  output    : W64
  stats     : W64
  turns     : Nat
  target    : Option Int
  f         : Nat
  stall     : Nat
  x         : Nat
  m         : Nat
  cap       : Nat
  reps      : Nat
  h         : Nat
  klo       : Nat
  khi       : Nat
  ladder    : List Nat
  sched     : List (Nat × Nat)
  seed      : W64
  turn      : Nat
  rungOf    : List Nat
  lastRung  : List Nat
  betas     : List Nat
  exchKey   : BitVec 128
  exchDraw  : Nat
  rounds    : Nat
  exch      : List (Nat × Nat)
  energies  : List Int
  best      : List Best
  modelBest : Int
  bestAt    : Nat × Nat
  sinceBest : Nat
  quiet     : Nat
  accepted  : Bool
  moved     : Bool
  frozen    : List Nat
  bestState : List (List (List Nat))
  lastState : List (List (List Nat))
  traced    : Nat
  truncated : Bool
  updated   : Bool
  stopped   : Nat
  partials  : List (Nat × List Int × Bool)
  barrier   : Bool
  due       : Option (List Bool)
  pause     : Bool
  farOut    : Nat
  ended     : List (Nat × Nat)
  landing   : Option (Nat × Nat × W64 × W64)
  sums      : Sums
  deriving DecidableEq, Repr

/-! ### Hubs and fabric -/

/-- A package (12 Tables 12.11, 12.12, R331, R337, R338). State is 0 normal, 1 degraded, 2 failed, 3 training. `bad` holds the
units whose last read was uncorrectable, as they were read, `rewritten` those that have been written since, `bursts` the channel and
tick of the uncorrectable bursts of the last 1,000 ticks, and `recurred` the channels on which a rewritten unit has failed again. -/
structure Package where
  state    : Nat
  failch   : BitVec 4
  rate     : Nat
  unclean  : Bool
  zeroing  : Nat
  corr     : Nat
  uncorr   : Nat
  tagerr   : Nat
  passes   : Nat
  bad      : List Burst
  rewritten : List Nat
  bursts   : List (Nat × Nat)
  recurred : List Nat
  deriving DecidableEq, Repr

/-- HB registers and the packages (12). Hub state is 0 off, 1 training, 2 ready, 3 failed. -/
structure Hb where
  pselA    : Nat
  pselB    : Nat
  logUnit  : Nat
  logPkg   : Nat
  logCh    : Nat
  logSub   : Nat
  logKind  : Bool
  logValid : Bool
  logCtx   : Nat
  hubW     : Nat
  hubE     : Nat
  pkgs     : List Package
  deriving DecidableEq, Repr

/-- A model entry of a link (07 R181, R183): the owning model, its tag, and while it drains the directions whose
marker has not been seen. -/
structure LinkEntry where
  model : Nat
  tag   : BitVec 24
  drain : Bool
  fwdOpen : Bool
  backOpen : Bool
  deriving DecidableEq, Repr

/-- One direction of a lane (07 R180, R184, R188, R191): the words under way, oldest first, each with the entry of its sideband;
the words that its sources still hold for it, oldest first, each with its source (a hem output of a unit, a word forwarded from a
link and virtual lane, or none for the drain marker, which is last); the position of its stitch list that comes next; and how often
in a row the oldest word under way has been asked for again. -/
structure Way where
  words  : List (Nat × W64)
  held   : List (Option (Sum Nat (Nat × Nat)) × Nat × W64)
  pos    : Nat
  consec : Nat
  deriving DecidableEq, Repr

/-- A lane of a link (07 R180-R192): its owner (entry and virtual lane, for a hem lane), whether it is disabled,
its replay counts, whether it has been found faulty by the replays of one word or of one tick, and its two directions. -/
structure Lane where
  owner    : Option (Nat × Nat)
  disabled : Bool
  replay   : Nat
  inTick   : Nat
  stuck    : Bool
  rated    : Bool
  fwd      : Way
  back     : Way
  deriving DecidableEq, Repr

/-- A link (07 R178): four entries and four lanes. -/
structure Link where
  entries : List (Option LinkEntry)
  lanes   : List Lane
  deriving DecidableEq, Repr

/-- A transfer in the service queue of a link and direction (07 R190): the tag of its owner, or 0 for migration control, and the
words that have still to arrive, its head word first. -/
structure Transfer where
  link  : Nat
  dir   : Dir
  tag   : BitVec 24
  words : List W64
  begun : Bool
  deriving DecidableEq, Repr

/-- A spare shift in progress (07 R199-R202): failed position, whether the copy is done, words found unreadable
(by owning context), and the ENGINE_REPAIR that waits for it. -/
structure Shift where
  pos        : Nat
  paused     : Bool
  unreadable : List Nat
  req        : Option ReqKey
  deriving DecidableEq, Repr

/-- A half-row (07 Table 7.14). -/
structure HalfRow where
  failpos   : Nat
  spareok   : Bool
  pauses    : Nat
  lastpause : Nat
  lostCol   : Bool
  shift     : Option Shift
  deriving DecidableEq, Repr

/-- A Hinge (07 Table 7.16). -/
structure Hinge where
  parked : Bool
  fillwe : Nat
  fillew : Nat
  deriving DecidableEq, Repr

/-- FB registers, links, half-rows and Hinges (07). `lost` marks the logical engines lost. -/
structure Fb where
  lselA    : Nat
  laneA    : Nat
  lselB    : Nat
  laneB    : Nat
  fltLink  : Nat
  fltLane  : Nat
  fltValid : Bool
  fltCause : Bool
  fltHpwr  : Bool
  fltCount : Nat
  auto     : Bool
  links    : List Link
  service  : List Transfer
  hrows    : List HalfRow
  hinges   : List Hinge
  lost     : List Bool
  deriving DecidableEq, Repr

/-! ### Peers and jobs -/

/-- A peer link (14 Table 14.8). Kind is 0 unused, 1 parent, 2 child, 3 redundant. -/
structure PeerLink where
  state    : LinkState
  kind     : Nat
  x4       : Bool
  peer     : Nat
  replay   : Nat
  attempts : Nat
  sec      : Option LinkSec
  asked    : BitVec 10
  again    : Nat
  deriving DecidableEq, Repr

/-- A route (14 Table 14.9). -/
structure Route where
  link    : Nat
  valid   : Bool
  here    : Bool
  unreach : Bool
  deriving DecidableEq, Repr

/-- State of a job (14 Table 14.11). -/
inductive JobState where
  | none
  | loading
  | loaded
  | aborting
  deriving DecidableEq, Repr

/-- Words of one job in one half of a link's Cuff (14 R396-R399). -/
structure CuffHalf where
  link  : Nat
  job   : Nat
  turn  : Nat
  words : List W64
  deriving DecidableEq, Repr

/-- The header fields that every part of a job must share (14 R391). -/
structure JobCommon where
  modules  : Nat
  replicas : Nat
  colours  : Nat
  sx       : Nat
  quantum  : Nat
  relaxed  : Bool
  heatbath : Bool
  deriving DecidableEq, Repr

/-- The last load of a job while its Cuff regions are being reserved (14 R396): the node of its part, its two result words, and the
modules that have still to answer. -/
structure Reserving where
  node  : Nat
  word0 : W64
  word1 : W64
  left  : List Nat
  deriving DecidableEq, Repr

/-- A job on this module (14 R388-R402): generation comes from `jobGens`. `parts` are the parts that are loaded, ascending in their
nodes; `sent` the header fields of the parts that have been submitted, by node; `reserving` the last load while its Cuff regions are being reserved; `cuff` the bytes reserved by peer link, per half; `credits`
and `granted` the credit held and given, by link and turn; `unloadSent` says that UNLOAD has gone out. A module on the way between
two parts, without one of its own, has a job without model and context. -/
structure Job where
  state    : JobState
  modules  : Nat
  parts    : List PartShape
  sent     : List (Nat × JobCommon)
  reserving : Option Reserving
  jctx     : Nat
  owner    : BitVec 24
  lastNode : Nat
  model    : Option Nat
  common   : Option JobCommon
  credits  : List (Nat × Nat)
  sentTurn : Nat
  doneFrom : List Nat
  unloadFrom : List Nat
  waiters  : List ReqKey
  cuff     : List (Nat × Nat)
  granted  : List (Nat × Nat)
  unloadSent : Bool
  deriving DecidableEq, Repr

/-- An outgoing peer message (14 R386): class, the link it leaves by, source node, destination node (0x3F for a flood), job,
generation, and contents as words and bytes. -/
structure PeerMsg where
  cls   : Nat
  link  : Nat
  src   : Nat
  node  : Nat
  job   : Nat
  gen   : Nat
  words : List Nat
  bytes : Bytes
  deriving DecidableEq, Repr

/-- PR registers, routes, jobs and Cuffs (14). -/
structure Pr where
  role     : Nat
  nodeid   : Nat
  depth    : Nat
  parent   : Nat
  state    : Nat
  nodes    : Nat
  links    : List PeerLink
  routes   : List Route
  jselA    : Nat
  jselB    : Nat
  stale    : Nat
  aborts   : Nat
  enumerr  : Nat
  peermask : BitVec 32
  jobGens  : Tbl Nat
  jobs     : Tbl Job
  cuffs    : List CuffHalf
  awaiting : List (Nat × Nat)
  replies  : List (Nat × List EnumNode)
  out      : List PeerMsg
  deriving DecidableEq, Repr

/-! ### Site port -/

/-- A site lane (15 Table 15.8). State is 0 disabled, 1 down, 2 up. `gclAt` is the gate-list entry in force, until
`gclNext`; the lane is busy until `busyTill`, in hundredths of a nanosecond. -/
structure SiteLane where
  state    : Nat
  slave    : Bool
  prp      : Bool
  disc     : Nat
  dup      : Nat
  gcl      : List (Byte × Bool × BitVec 32)
  gclAt    : Nat
  gclNext  : Nat
  busyTill : Nat
  deriving DecidableEq, Repr

/-- A sample being assembled or buffered (15 R413). -/
structure Sample where
  seq   : Nat
  block : Nat
  elems : List (Option Bytes)
  stamp : Nat
  deriving DecidableEq, Repr

/-- A pending setpoint (15 R418-R420): its raw values, the lanes that it is still to leave on, and its PRP sequence number. -/
structure Setpoint where
  recNo  : Nat
  seq    : Nat
  launch : Nat
  block  : Nat
  late   : Bool
  raws   : Bytes
  lanes  : List Nat
  rct    : Option Nat
  deriving DecidableEq, Repr

/-- A stream record (15 R409-R419, Tables 15.13, 15.14). State is 0 free, 1 bound, 2 stopped. `lastOut` holds the raw
element 0 of the last setpoint that it sent (R421), `vars` its variable list (R418: block, variable). -/
structure Stream where
  state   : Nat
  kind    : Nat
  gen     : Nat
  tag     : BitVec 24
  queue   : Nat
  params  : Bytes
  target  : Nat
  home    : Nat
  pages   : Nat
  partialS : Option Sample
  buffer  : List Sample
  lastSeq : Option Nat
  logNext : Nat
  nextSeq : Nat
  stale   : Nat
  malform : Nat
  oldseq  : Nat
  incompl : Nat
  full    : Nat
  superseded : Nat
  txfull  : Nat
  lateC   : Nat
  lastOut : Option Nat
  vars    : List (Nat × Nat)
  deriving DecidableEq, Repr

/-- A frame that the site port has sent: its lane, what it is (0 setpoint, 1 PRP supervision, 2 to 5 the responders), its
instant, the PRP sequence number of its trailer, and what it carries. -/
structure SiteOut where
  lane    : Nat
  kind    : Nat
  instant : Nat
  rct     : Option Nat
  bytes   : Bytes
  deriving DecidableEq, Repr

/-- ST registers, timebase, streams, setpoints and discrete I/O (15). -/
structure St where
  lane0    : SiteLane
  lane1    : SiteLane
  tstate   : Nat
  time     : Nat
  doVal    : Byte
  doSrc    : BitVec 16
  doStrm   : BitVec 16
  doExtest : Option Byte
  diLevel  : Byte
  diEdgeEn : Byte
  diLast   : Nat
  diEdge   : Bool
  diTs     : BitVec 44
  sselA    : Nat
  sselB    : Nat
  streams  : Tbl Stream
  setpoints : List Setpoint
  prpSeen  : List Nat
  prpSeq   : Nat
  out      : List SiteOut
  deriving DecidableEq, Repr

/-! ### Entropy, power, Ward, reset, common SRAM -/

/-- State of the entropy source (16 R426). -/
inductive EntState where
  | off
  | startup
  | ok
  | failed
  deriving DecidableEq, Repr

/-- A CTR_DRBG instance (16 R434): key, counter block and generate calls since the last reseed. -/
structure Drbg where
  key   : BitVec 256
  v     : BitVec 128
  calls : Nat
  deriving DecidableEq, Repr

/-- RN registers, the queue and the DRBG instances (16). -/
structure Rn where
  state   : EntState
  queue   : List W64
  seedBlocks : List (BitVec 128)
  fw      : Option Drbg
  win0    : Option Drbg
  win1    : Option Drbg
  err0    : Bool
  err1    : Bool
  latch   : Bool
  testOk  : Bool
  fallen  : Bool
  runBit  : Bool
  run     : Nat
  rctFail : Nat
  aptFail : Nat
  startFail : Nat
  returns : Nat
  deriving DecidableEq, Repr

/-- Module power state (18 R465). -/
inductive MState where
  | active
  | standby
  | entering
  | hibernate
  | hibernateM
  deriving DecidableEq, Repr

/-- State of an engine half (18 Table 18.10). -/
inductive HalfState where
  | on
  | ret
  | off
  | tripped
  deriving DecidableEq, Repr

/-- PW registers and the power state (18). `entry` is the POWER_SET whose change of the module state is under way, `halfReq` the
halves that change and their requests; `stbyW` and `stbyE` say which halves were ON when STANDBY began. -/
structure Pw where
  stbyoff  : Bool
  autowake : Bool
  mstate   : MState
  halfW    : HalfState
  halfE    : HalfState
  enW      : Bool
  enE      : Bool
  limit    : Nat
  efflim   : Nat
  cphot    : Bool
  modpwr   : Nat
  cptemp   : Byte
  evTripW  : Bool
  evTripE  : Bool
  evVinW   : Bool
  evVinE   : Bool
  evHotHub : Bool
  evRange  : Bool
  selA     : Nat
  selB     : Nat
  selS     : Nat
  hotHub   : Bool
  tripLine : Bool
  tripSensors : List TripSensor
  tjHub    : Int
  vinW     : Bool
  vinE     : Bool
  entry    : Option ReqKey
  stbyW    : Bool
  stbyE    : Bool
  halfReq  : List (Half × HalfState × Option ReqKey)
  deriving DecidableEq, Repr

/-- State of the Ward (19 R486). -/
inductive WardState where
  | open
  | closed
  | challenged
  | erasing
  deriving DecidableEq, Repr

/-- DW registers and JTAG (19). -/
structure Dw where
  state    : WardState
  fails    : Nat
  unzero   : BitVec 32
  denied   : Nat
  op       : BitVec 4
  close    : Bool
  status   : Byte
  addr     : BitVec 58
  chal     : Option (BitVec 256)
  chalTick : Nat
  chalPort : Option Port
  resp     : List W64
  dbgOpen  : Bool
  jtagIr   : Byte
  jtagOut  : Answer
  deriving DecidableEq, Repr

/-- RS registers, the option store and the reset controller (17). `phase` is RS_STAT.PHASE. `reach` is the widest
reach of the reset in progress: 0 none, 1 C, 2 S, 3 P. `wakeFrom` says that the start is a wake, and whether from HIBERNATE-M;
`safeKnown` that SITE_DO has its safe levels, `rcvPorts` that the host ports keep the settings of recovery mode (R462). -/
structure Rs where
  phase    : Nat
  halt     : Nat
  recovery : Bool
  optsel   : Bool
  optAok   : Bool
  optBok   : Bool
  optdef   : Bool
  optStatus : Nat
  optCopy  : Bool
  rcvAddr  : BitVec 52
  rcvLen   : BitVec 25
  rcvOp    : BitVec 4
  rcvStatus : Byte
  mirror   : Bytes
  stage    : Bytes
  copyA    : Bytes
  copyB    : Bytes
  counter  : Nat
  retired  : BitVec 40
  keys     : Mem
  option   : Bytes
  reach    : Nat
  wakeFrom : Option Bool
  nrstLow  : Bool
  escalated : Bool
  rails    : List Rail
  core     : Bool
  strap    : BitVec 2
  ready    : Bool
  alert    : Bool
  safeKnown : Bool
  rcvPorts : Bool
  clkLink  : Bool
  clkSite  : Bool
  clkTcxo  : Bool
  deriving DecidableEq, Repr

/-- Mode of a common SRAM region or scratchpad bank (12 Table 12.7). -/
inductive MemMode where
  | plain
  | bitalias
  | atomic
  deriving DecidableEq, Repr

/-- An access held at its bank while common SRAM is cleared (12 R352), with the mode that its region had when it reached the bank
(R347). -/
structure HeldAccess where
  cmd  : Instr
  mode : MemMode
  deriving DecidableEq, Repr

/-- CS registers and common SRAM (12). -/
structure Cs where
  modes     : List MemMode
  clearing  : Bool
  corr      : Nat
  uncorr    : Nat
  aliasdrop : Nat
  atomrej   : Nat
  errWord   : Nat
  errValid  : Bool
  errPort   : Bool
  errRmw    : Bool
  mem       : Mem
  bad       : List Nat
  held      : List HeldAccess
  deriving DecidableEq, Repr

/-- A signal write (13 R364): port and vector. -/
structure Signal where
  port   : Port
  vector : Nat
  deriving DecidableEq, Repr

/-- The module. `host` is host memory as the module reads and writes it, `signals` the signal writes sent (oldest
first), `sideband` the last sideband answer, `free` the model's own counter of free values (log entries 4, 9, 13). -/
structure State where
  mg       : Mg
  hp       : Hp
  fe       : Fe
  cx       : Cx
  sites    : List Site
  groups   : List Group
  mgens    : Tbl Nat
  models   : Tbl Model
  runs     : List Run
  hb       : Hb
  fb       : Fb
  pr       : Pr
  st       : St
  rn       : Rn
  pw       : Pw
  dw       : Dw
  rs       : Rs
  cs       : Cs
  host     : Mem
  signals  : List Signal
  sideband : Answer
  free     : Nat
  pending  : List Instr
  deriving DecidableEq, Repr

/-! ### Reset -/

/-- Sums of nothing. -/
def Sums.none : Sums := { z := [], m1 := [], m2 := [], zt := 0, frozenOut := 0 }

def Mg.reset : Mg :=
  { grade := 1, tick := 0, por := true, mon := false, nrstc := false, nrsts := false, wake := false,
    wakem := false, recov := false, monrail := 0, pulse := 0, fwRun := 0, fwNor := 0, ucif := 0,
    nordiff := false, fwOp := 0, fwStatus := 0, fwSver := 0, fwAddr := 0, fwLen := 0, staged := none,
    nor := none, running := none }

def HostPort.reset : HostPort :=
  { state := .disabled, width := 0, ver := 0, base := 0, attempts := 0, sec := none, asked := 0, again := 0,
    replay := 0, retrain := 0, downs := 0, tagfail := 0 }

def Hp.reset : Hp :=
  { portA := HostPort.reset, portB := HostPort.reset, rwldrop := false, rwlPort := none, rwlOff := 0,
    hasperr := 0, badacc := 0, cachereq := 0, hasps := List.replicate 64 none, downA := false,
    downB := false, freedA := false, freedB := false, broke := false, lastbrk := 0, evicts := [],
    ansA := .silent, ansB := .silent }

def Slot.reset : Slot :=
  { queue := none, eclass := 0, idle := false, cwait := false, pending := false, fetched := 0 }

def Fe.reset : Fe :=
  { kqAddr := 0, kqStatus := 0, kqQueue := 0, kqGen := 0, slice := 0x64, age := 0x40, qselA := 0,
    qselB := 0, qerrValid := false, qerrQueue := 0, qerrCause := 0, qerrLost := 0, qerrStale := 0,
    evVector := 0, evPortB := false, evEn := false, slots := List.replicate 16 Slot.reset, qgens := [],
    queues := [], requests := [], chains := [], overlay := [], fenced := false }

def Grant.empty : Grant :=
  { mask := 0, slices := 0, lanes := 0, scratch := 0, lpddr := 0, history := 0, streams := 0, chain := 0 }

/-- A context ID that is FREE at generation 1 (11 R304, R305). -/
def Ctx.reset : Ctx :=
  { state := .free, gen := 1, hung := false, fenced := false, isolated := [], resets := 0, job := 0,
    grant := Grant.empty, chain := [], space := [], pages := [], resetting := none, dump := none }

def Cx.reset : Cx :=
  { window := 4, k := 2, auto := false, fTag := 0, fCause := 0, fValid := false, fMore := false,
    fLe := 0, fSu := 0, fIdx := 0, fTick := 0, mpfault := false, mpcause := 0, autorst := 0,
    stale := 0, hungSet := 0, selA := 0, selB := 0, pselA := 0, pselB := 0, ctxs := [], progress := [] }

def Site.reset : Site :=
  { dstate := .off, retired := false, sufault := 0, target := .off, clearing := false,
    scrub := false, ucode := false, tripped := false, point := 0, trans := 0, audlog := 20,
    audeff := 20, sramcorr := 0, logcorr := 0, detected := 0, audmism := 0, faultloc := 0, qselA := 0,
    qselB := 0, volt := 0, budget := 0, power := 0, tj := 0, frac := 0, throt := 0, vcap := 7,
    throttled := false, overshoot := false, failed := false, logic := [], badWords := [] }

def Package.reset : Package :=
  { state := 3, failch := 0, rate := 0, unclean := false, zeroing := 0, corr := 0, uncorr := 0,
    tagerr := 0, passes := 0, bad := [], rewritten := [], bursts := [], recurred := [] }

def Hb.reset : Hb :=
  { pselA := 0, pselB := 0, logUnit := 0, logPkg := 0, logCh := 0, logSub := 0, logKind := false,
    logValid := false, logCtx := 0, hubW := 0, hubE := 0, pkgs := List.replicate 32 Package.reset }

def Way.reset : Way := { words := [], held := [], pos := 0, consec := 0 }

def Lane.reset : Lane :=
  { owner := none, disabled := false, replay := 0, inTick := 0, stuck := false, rated := false, fwd := Way.reset, back := Way.reset }

def Link.reset : Link :=
  { entries := List.replicate 4 none, lanes := List.replicate 4 Lane.reset }

def HalfRow.reset : HalfRow :=
  { failpos := 7, spareok := true, pauses := 0, lastpause := 0, lostCol := false, shift := none }

def Hinge.reset : Hinge := { parked := true, fillwe := 0, fillew := 0 }

def Fb.reset : Fb :=
  { lselA := 0, laneA := 0, lselB := 0, laneB := 0, fltLink := 0, fltLane := 0, fltValid := false,
    fltCause := false, fltHpwr := false, fltCount := 0, auto := true,
    links := List.replicate 56 Link.reset, service := [], hrows := List.replicate 8 HalfRow.reset,
    hinges := List.replicate 4 Hinge.reset, lost := List.replicate 32 false }

def PeerLink.reset : PeerLink :=
  { state := .disabled, kind := 0, x4 := false, peer := 0, replay := 0, attempts := 0,
    sec := none, asked := 0, again := 0 }

def Route.reset : Route := { link := 0, valid := false, here := false, unreach := false }

def Pr.reset : Pr :=
  { role := 0, nodeid := 0, depth := 0, parent := 15, state := 0, nodes := 0,
    links := List.replicate 8 PeerLink.reset, routes := List.replicate 64 Route.reset, jselA := 0,
    jselB := 0, stale := 0, aborts := 0, enumerr := 0, peermask := 0xFFFFFFFF, jobGens := [],
    jobs := [], cuffs := [], awaiting := [], replies := [], out := [] }

def SiteLane.reset : SiteLane :=
  { state := 0, slave := false, prp := false, disc := 0, dup := 0,
    gcl := List.replicate 256 (0xFF, true, 0x000F4240), gclAt := 0, gclNext := 0, busyTill := 0 }

def St.reset : St :=
  { lane0 := SiteLane.reset, lane1 := SiteLane.reset, tstate := 0, time := 0, doVal := 0, doSrc := 0,
    doStrm := 0, doExtest := none, diLevel := 0, diEdgeEn := 0,
    diLast := 0, diEdge := false, diTs := 0, sselA := 0, sselB := 0, streams := [], setpoints := [],
    prpSeen := [], prpSeq := 0, out := [] }

def Rn.reset : Rn :=
  { state := .off, queue := [], seedBlocks := [], fw := none, win0 := none, win1 := none,
    err0 := false, err1 := false, latch := false, testOk := false, fallen := false, runBit := false, run := 0,
    rctFail := 0, aptFail := 0,
    startFail := 0, returns := 0 }

def Pw.reset : Pw :=
  { stbyoff := false, autowake := true, mstate := .active, halfW := .off, halfE := .off, enW := true,
    enE := true, limit := 200, efflim := 200, cphot := false, modpwr := 0, cptemp := 0,
    evTripW := false, evTripE := false, evVinW := false, evVinE := false, evHotHub := false,
    evRange := false, selA := 0, selB := 0, selS := 0, hotHub := false, tripLine := false,
    tripSensors := [], tjHub := 0, vinW := true, vinE := true, entry := none,
    stbyW := false, stbyE := false, halfReq := [] }

def Dw.reset : Dw :=
  { state := .closed, fails := 0, unzero := 0, denied := 0, op := 0, close := false, status := 0,
    addr := 0, chal := none, chalTick := 0, chalPort := none, resp := List.replicate 12 0,
    dbgOpen := false, jtagIr := 0xFF, jtagOut := .silent }

def Rs.reset : Rs :=
  { phase := 1, halt := 0, recovery := false, optsel := false, optAok := false, optBok := false,
    optdef := false, optStatus := 0, optCopy := false, rcvAddr := 0, rcvLen := 0, rcvOp := 0,
    rcvStatus := 0, mirror := List.replicate 256 0, stage := List.replicate 256 0, copyA := List.replicate 256 0, copyB := List.replicate 256 0, counter := 0, retired := 0,
    keys := [], option := List.replicate 256 0, reach := 3, wakeFrom := none, nrstLow := false, escalated := false,
    rails := [], core := false, strap := 0, ready := false, alert := true, safeKnown := false,
    rcvPorts := false, clkLink := true, clkSite := true, clkTcxo := true }

def Cs.reset : Cs :=
  { modes := List.replicate 128 .plain, clearing := true, corr := 0, uncorr := 0, aliasdrop := 0,
    atomrej := 0, errWord := 0, errValid := false, errPort := false, errRmw := false, mem := [],
    bad := [], held := [] }

/-- The module when P has just been released and no start order has run (17 R443, R454; log entries 6, 7, 8):
every register at its Init value, no context, no queue, no model, and nothing waiting in the command queue. -/
def State.reset : State :=
  { mg := Mg.reset, hp := Hp.reset, fe := Fe.reset, cx := Cx.reset,
    sites := List.replicate 40 Site.reset, groups := [], mgens := [], models := [], runs := [],
    hb := Hb.reset, fb := Fb.reset, pr := Pr.reset, st := St.reset, rn := Rn.reset, pw := Pw.reset,
    dw := Dw.reset, rs := Rs.reset, cs := Cs.reset, host := [], signals := [], sideband := .silent,
    free := 0, pending := [] }

end Sys2Proof.Machine
end

