-- ==== Sys2Proof/Machine/Ops.lean ====
section
/-! DEFINITION. Shared operations: tables, memories, byte strings, bit fields, and the outputs every family uses
(signal writes, answers, counters). -/

namespace Sys2Proof.Machine

/-! ### Tables by number -/

/-- The value at a key. -/
def Tbl.get? {α : Type} : Tbl α → Nat → Option α
  | [], _ => none
  | (k, v) :: t, i => if k = i then some v else Tbl.get? t i

/-- The value at a key, or a default. -/
def Tbl.getD {α : Type} (t : Tbl α) (i : Nat) (d : α) : α := (Tbl.get? t i).getD d

/-- Sets a key; keys stay in rising order. -/
def Tbl.put {α : Type} : Tbl α → Nat → α → Tbl α
  | [], i, v => [(i, v)]
  | (k, w) :: t, i, v =>
    if i < k then (i, v) :: (k, w) :: t
    else if i = k then (i, v) :: t
    else (k, w) :: Tbl.put t i v

/-- Removes a key. -/
def Tbl.erase {α : Type} : Tbl α → Nat → Tbl α
  | [], _ => []
  | (k, w) :: t, i => if k = i then t else (k, w) :: Tbl.erase t i

/-- Applies a function to the value at a key, if there is one. -/
def Tbl.upd {α : Type} (t : Tbl α) (i : Nat) (f : α → α) : Tbl α :=
  t.map fun p => if p.1 = i then (p.1, f p.2) else p

/-- Applies a function to every value. -/
def Tbl.mapVals {α : Type} (t : Tbl α) (f : Nat → α → α) : Tbl α := t.map fun p => (p.1, f p.1 p.2)

/-- The lowest number from `i` on that is not a key, looked for among `fuel` numbers. -/
def Tbl.lowestFree {α : Type} (t : Tbl α) : Nat → Nat → Option Nat
  | _, 0 => none
  | i, fuel + 1 => if (Tbl.get? t i).isNone then some i else Tbl.lowestFree t (i + 1) fuel

/-- Applies a function at one index of a list. -/
def updAt {α : Type} (l : List α) (i : Nat) (f : α → α) : List α := l.modify i f

/-- An element put before the first one that does not come ahead of it. -/
def insertBy {α : Type} (le : α → α → Bool) (x : α) : List α → List α
  | [] => [x]
  | y :: ys => if le x y then x :: y :: ys else y :: insertBy le x ys

/-- A list in an order; elements that are equal in it keep their places. -/
def sortBy {α : Type} (le : α → α → Bool) (l : List α) : List α := l.foldr (insertBy le) []

/-! ### Memories -/

/-- The byte at an address; an unlisted byte is 0. -/
def Mem.read : Mem → Nat → Byte
  | [], _ => 0
  | (b, w) :: m, a => if b = a then w else Mem.read m a

/-- Stores one byte and keeps the canonical form. -/
def Mem.put : Mem → Nat → Byte → Mem
  | [], a, v => if v = 0 then [] else [(a, v)]
  | (b, w) :: m, a, v =>
    if a < b then (if v = 0 then (b, w) :: m else (a, v) :: (b, w) :: m)
    else if a = b then (if v = 0 then m else (a, v) :: m)
    else (b, w) :: Mem.put m a v

/-- The canonical form, from a lower bound on the addresses: rising, and no byte 0. -/
def Mem.wfFrom : Nat → Mem → Bool
  | _, [] => true
  | lo, (a, v) :: m => decide (lo ≤ a) && (v != 0) && Mem.wfFrom (a + 1) m

/-- The canonical form of a memory. -/
def Mem.wf (m : Mem) : Bool := Mem.wfFrom 0 m

/-- The bytes of a range. -/
def Mem.bytes (m : Mem) (a : Nat) : Nat → Bytes
  | 0 => []
  | n + 1 => Mem.read m a :: Mem.bytes m (a + 1) n

/-- Stores a byte string at an address. -/
def Mem.store : Mem → Nat → Bytes → Mem
  | m, _, [] => m
  | m, a, v :: bs => Mem.store (Mem.put m a v) (a + 1) bs

/-- Zeroes every byte of a range. -/
def Mem.clear (m : Mem) (a n : Nat) : Mem := m.filter fun c => decide (c.1 < a) || decide (a + n ≤ c.1)

/-! ### Byte strings and bit fields (00 R5: little-endian, bit 0 least significant) -/

/-- The unsigned value of a little-endian byte string. -/
def leNat : Bytes → Nat
  | [] => 0
  | b :: bs => b.toNat + 256 * leNat bs

/-- The `n` little-endian bytes of a value. -/
def leBytes : Nat → Nat → Bytes
  | 0, _ => []
  | n + 1, v => BitVec.ofNat 8 v :: leBytes n (v / 256)

/-- `n` bytes of a byte string from an offset; bytes beyond its end read 0. -/
def slice (bs : Bytes) (off n : Nat) : Bytes :=
  let part := (bs.drop off).take n
  part ++ List.replicate (n - part.length) 0

/-- The unsigned little-endian field of `n` bytes at an offset. -/
def field (bs : Bytes) (off n : Nat) : Nat := leNat (slice bs off n)

/-- Bits `lo` to `lo + w - 1` of a number. -/
def bits (v lo w : Nat) : Nat := (v >>> lo) % 2 ^ w

/-- One bit of a number. -/
def bitAt (v i : Nat) : Bool := v.testBit i

/-- A two's complement value of `w` bits. -/
def toSigned (w v : Nat) : Int := if v % 2 ^ w < 2 ^ (w - 1) then (v % 2 ^ w : Nat) else ((v % 2 ^ w : Nat) : Int) - 2 ^ w

/-- The `w`-bit two's complement pattern of an integer. -/
def ofSigned (w : Nat) (i : Int) : Nat := (i % (2 ^ w : Nat)).toNat

/-- A number from a truth value. -/
def b2n (b : Bool) : Nat := if b then 1 else 0

/-- The 64-bit value composed of fields (lowest bit, width, value); each value is cut to its width. -/
def pack : List (Nat × Nat × Nat) → W64
  | [] => 0
  | (lo, w, v) :: fs => BitVec.ofNat 64 ((v % 2 ^ w) <<< lo) ||| pack fs

/-- Adds to a count that saturates at the greatest value of `w` bits. -/
def satAdd (w n k : Nat) : Nat := min (n + k) (2 ^ w - 1)

/-- Counts one event in a saturating count of `w` bits. -/
def satInc (w n : Nat) : Nat := satAdd w n 1

/-- Rounds up to a multiple. -/
def roundUp (n m : Nat) : Nat := ((n + m - 1) / m) * m

/-- Division rounded up. -/
def ceilDiv (n m : Nat) : Nat := (n + m - 1) / m

/-- Applies a function to the items of a list with their index. -/
def mapIdxFrom {α β : Type} (f : Nat → α → β) : Nat → List α → List β
  | _, [] => []
  | i, x :: xs => f i x :: mapIdxFrom f (i + 1) xs

/-- The indices at which a test holds. -/
def indicesFrom {α : Type} (p : α → Bool) : Nat → List α → List Nat
  | _, [] => []
  | i, x :: xs => if p x then i :: indicesFrom p (i + 1) xs else indicesFrom p (i + 1) xs

/-- The first index in a list of items at which a test on index and item holds. -/
def firstIdx {α : Type} (p : Nat → α → Bool) : Nat → List α → Option Nat
  | _, [] => none
  | i, x :: xs => if p i x then some i else firstIdx p (i + 1) xs

/-! ### Host ports, signal writes and answers -/

namespace State

/-- The registers of a host port. -/
def port (s : State) : Port → HostPort
  | .a => s.hp.portA
  | .b => s.hp.portB

/-- Changes a host port. -/
def setPort (s : State) (p : Port) (h : HostPort) : State :=
  match p with
  | .a => { s with hp := { s.hp with portA := h } }
  | .b => { s with hp := { s.hp with portB := h } }

/-- A host port carries transactions while its link is up or in its low-power substate, which any transaction
leaves (13 R375). -/
def linkUp (s : State) (p : Port) : Bool := (s.port p).state == .up || (s.port p).state == .lowPower

/-- The port that carries traffic meant for `p`: `p` itself while its link is up, the other one while that is up
(09 R253, 13 R364). -/
def viaPort (s : State) (p : Port) : Option Port :=
  let other := match p with
    | .a => Port.b
    | .b => Port.a
  if s.linkUp p then some p else if s.linkUp other then some other else none

/-- A transaction on a link that sleeps in the low-power substate wakes it (13 R375). -/
def wakeLink (s : State) (p : Port) : State :=
  if (s.port p).state = .lowPower then s.setPort p { s.port p with state := .up } else s

/-- A transaction meant for a port passes the link that carries it. -/
def touchHost (s : State) (p : Port) : State :=
  match s.viaPort p with
  | some q => s.wakeLink q
  | none => s

/-- A signal write of a vector, addressed to a port (13 R364). With both links down none is sent. -/
def sendSignal (s : State) (p : Port) (vector : Nat) : State :=
  match s.viaPort p with
  | some q => { s.wakeLink q with signals := s.signals ++ [{ port := q, vector := vector }] }
  | none => s

/-- A signal write to the driver's event vector, FE_EVVEC (09 Table 9.16). -/
def eventSignal (s : State) : State :=
  if s.fe.evEn then s.sendSignal (if s.fe.evPortB then .b else .a) s.fe.evVector else s

/-- Records what a port was last answered (log entry 9). -/
def answer (s : State) (p : Port) (r : Answer) : State :=
  match p with
  | .a => { s with hp := { s.hp with ansA := r } }
  | .b => { s with hp := { s.hp with ansB := r } }

/-- A write refused under R367 is dropped and counted. -/
def dropAccess (s : State) : State := { s with hp := { s.hp with badacc := satInc 8 s.hp.badacc } }

/-- A read refused under R367 gets an error response and is counted. -/
def badAccess (s : State) (p : Port) : State := s.dropAccess.answer p .error

/-- The tick count as a number. -/
def now (s : State) : Nat := s.mg.tick.toNat

/-- Takes one free value: the counter it is read at, and the state that has used it (log entry 13). -/
def takeFree (s : State) : Nat × State := (s.free, { s with free := s.free + 1 })

/-! ### Contexts -/

/-- A context ID; an ID never used is FREE at generation 1, and ID 0 is always LIVE at generation 1 (11 R303,
20 R500). -/
def ctx (s : State) (id : Nat) : Ctx :=
  if id = 0 then { Ctx.reset with state := .live } else Tbl.getD s.cx.ctxs id Ctx.reset

/-- Changes a user context; ID 0 is never changed (11 R303). -/
def updCtx (s : State) (id : Nat) (f : Ctx → Ctx) : State :=
  if id = 0 then s else { s with cx := { s.cx with ctxs := Tbl.put s.cx.ctxs id (f (s.ctx id)) } }

/-- The tag of an ID at its current generation (11 R303). -/
def tagOf (s : State) (id : Nat) : BitVec 24 := BitVec.ofNat 24 ((s.ctx id).gen * 256 + id)

/-- The ID of a tag. -/
def idOf (tag : BitVec 24) : Nat := tag.toNat % 256

/-- A tag is current when its ID is LIVE at its generation (11 R305). -/
def tagLive (s : State) (tag : BitVec 24) : Bool :=
  idOf tag != 0 && (s.ctx (idOf tag)).state == .live && decide ((s.ctx (idOf tag)).gen = tag.toNat / 256)

/-- A context's memory on a logical engine, by number: context times 32 plus engine. -/
def memKey (le : Nat) : Nat := le % 32

/-! ### Sites and logical engines (07 R175, R176) -/

/-- The half-row of a logical engine. -/
def hrowOf (le : Nat) : Nat := le / 4

/-- The half of a logical engine. -/
def halfOf (le : Nat) : Half := if le < 16 then .west else .east

/-- The half of a site. -/
def siteHalf (site : Nat) : Half := if site < 20 then .west else .east

/-- The position that holds a column in a half-row shifted at `failpos` (7 for no shift). -/
def posOf (failpos col : Nat) : Nat := if failpos ≤ 3 ∧ failpos ≤ col then col + 1 else col

/-- The site index of a half-row and position: 20h + 5r + p. -/
def siteAt (hrow pos : Nat) : Nat := 5 * hrow + pos

/-- The site that holds a logical engine. -/
def siteOf (s : State) (le : Nat) : Nat :=
  siteAt (hrowOf le) (posOf ((s.fb.hrows[hrowOf le]?).getD HalfRow.reset).failpos (le % 4))

/-- Whether a logical engine is lost (07 R203). -/
def isLost (s : State) (le : Nat) : Bool := (s.fb.lost[le]?).getD false

/-- The logical engine that a site holds: none for a spare, a retired site, or a lost engine. -/
def leOf (s : State) (site : Nat) : Option Nat :=
  let hrow := site / 5
  (List.range 4).findSome? fun c =>
    let le := 4 * hrow + c
    if s.siteOf le = site ∧ s.isLost le = false ∧ ((s.sites[site]?).getD Site.reset).retired = false then some le else none

/-- A site's registers. -/
def site (s : State) (i : Nat) : Site := (s.sites[i]?).getD Site.reset

/-- Changes a site. -/
def updSite (s : State) (i : Nat) (f : Site → Site) : State := { s with sites := updAt s.sites i f }

/-- The site registers of a logical engine. -/
def siteLe (s : State) (le : Nat) : Site := s.site (s.siteOf le)

/-- A logical engine accepts dispatch: ON, not clearing or scrubbing, microcode loaded (20 R504), not lost, and
its site not declared failed (07 R198). -/
def accepts (s : State) (le : Nat) : Bool :=
  let t := s.siteLe le
  t.dstate == .on && !t.clearing && !t.scrub && t.ucode && !s.isLost le && !t.failed

end State

end Sys2Proof.Machine
end

