-- ==== Sys2Proof/Machine/Crypto.lean ====
section
/-! DEFINITION. The standard algorithms that the spec names: AES-128 and AES-256 (16 R435), AES-256-GCM (08 R219),
CTR_DRBG without derivation function (16 R434), SHA-384 (16 R437), HMAC and HKDF (13 R365), CRC-32 of IEEE 802.3
(17 Table 17.6), ECDSA P-384 (19 R488). The spec names them and does not restate them (log entry 12). Every function
recurses on a list or on a fixed count. -/

namespace Sys2Proof.Machine

/-- The unsigned value of a big-endian byte string. -/
def beNat (bs : Bytes) : Nat := bs.foldl (fun n b => 256 * n + b.toNat) 0

/-- The `n` big-endian bytes of a value. -/
def beBytes (n v : Nat) : Bytes := (leBytes n v).reverse

/-! ### AES -/

/-- The S-box, entry i in bits 8i to 8i + 7. -/
def aesSboxTable : Nat :=
  0x16bb54b00f2d99416842e6bf0d89a18cdf2855cee9871e9b948ed9691198f8e19e1dc186b95735610ef6034866b53e708a8bbd4b1f74dde8c6b4a61c2e2578ba08ae7a65eaf4566ca94ed58d6d37c8e779e4959162acd3c25c2406490a3a32e0db0b5ede14b8ee4688902a22dc4f816073195d643d7ea7c41744975fec130ccdd2f3ff1021dab6bcf5389d928f40a351a89f3c507f02f94585334d43fbaaefd0cf584c4a39becb6a5bb1fc20ed00d153842fe329b3d63b52a05a6e1b1a2c830975b227ebe28012079a059618c323c7041531d871f1e5a534ccf73f362693fdb7c072a49cafa2d4adf04759fa7dc982ca76abd7fe2b670130c56f6bf27b777c63

/-- The S-box. -/
def aesSbox (x : Nat) : Nat := (aesSboxTable >>> (8 * x)) % 256

/-- Doubling in the field of AES. -/
def aesDouble (x : Nat) : Nat := ((2 * x) % 256) ^^^ (if 128 ≤ x then 27 else 0)

/-- Bytewise exclusive or. -/
def xorBytes (a b : List Nat) : List Nat := List.zipWith (· ^^^ ·) a b

/-- The round constants of the key schedule. -/
def aesRcon (i : Nat) : Nat := [0, 1, 2, 4, 8, 16, 32, 64, 128, 27, 54].getD i 0

/-- Extends a key schedule, newest word first, by `n` words, the next of which has index `i`. -/
def aesExpand (nk : Nat) : Nat → Nat → List (List Nat) → List (List Nat)
  | 0, _, ws => ws
  | n + 1, i, ws =>
    let t := ws.headD []
    let t' :=
      if i % nk = 0 then xorBytes ((t.drop 1 ++ t.take 1).map aesSbox) [aesRcon (i / nk), 0, 0, 0]
      else if 6 < nk ∧ i % nk = 4 then t.map aesSbox else t
    aesExpand nk n (i + 1) (xorBytes (ws.getD (nk - 1) []) t' :: ws)

/-- Cuts a list into parts of a length, at most `n` of them. -/
def chunks {α : Type} (len : Nat) : Nat → List α → List (List α)
  | 0, _ => []
  | n + 1, l => if l.isEmpty then [] else l.take len :: chunks len n (l.drop len)

/-- The round keys of a key of 16 or 32 bytes. -/
def aesRoundKeys (key : List Nat) : List (List Nat) :=
  let nk := key.length / 4
  let words := aesExpand nk (4 * (nk + 7) - nk) nk (chunks 4 nk key).reverse
  chunks 16 (nk + 7) (words.reverse.flatten)

/-- One column of MixColumns. -/
def aesMixColumn : List Nat → List Nat
  | [a, b, c, d] =>
    [aesDouble a ^^^ aesDouble b ^^^ b ^^^ c ^^^ d, a ^^^ aesDouble b ^^^ aesDouble c ^^^ c ^^^ d,
     a ^^^ b ^^^ aesDouble c ^^^ aesDouble d ^^^ d, aesDouble a ^^^ a ^^^ b ^^^ c ^^^ aesDouble d]
  | l => l

/-- ShiftRows of a state held by columns. -/
def aesShiftRows (st : List Nat) : List Nat :=
  [0, 5, 10, 15, 4, 9, 14, 3, 8, 13, 2, 7, 12, 1, 6, 11].map fun i => st.getD i 0

/-- The rounds after the first key addition; the last one mixes no columns. -/
def aesRounds : List (List Nat) → List Nat → List Nat
  | [], st => st
  | [k], st => xorBytes (aesShiftRows (st.map aesSbox)) k
  | k :: ks, st => aesRounds ks (xorBytes ((chunks 4 4 (aesShiftRows (st.map aesSbox))).flatMap aesMixColumn) k)

/-- AES of one block of 16 bytes under a key of 16 or 32 bytes. -/
def aesNat (key block : List Nat) : List Nat :=
  match aesRoundKeys key with
  | [] => block
  | k :: ks => aesRounds ks (xorBytes block k)

/-- AES of one block. -/
def aes (key block : Bytes) : Bytes := (aesNat (key.map (·.toNat)) (block.map (·.toNat))).map (BitVec.ofNat 8)

/-! ### AES-GCM -/

/-- Multiplication in the field of GHASH, over the bits of the first factor that are left. -/
def ghashMulLoop (x : Nat) : Nat → Nat → Nat → Nat
  | 0, z, _ => z
  | i + 1, z, v =>
    ghashMulLoop x i (if x.testBit i then z ^^^ v else z)
      (if v.testBit 0 then (v >>> 1) ^^^ (0xE1 <<< 120) else v >>> 1)

/-- Multiplication in the field of GHASH. -/
def ghashMul (x y : Nat) : Nat := ghashMulLoop x 128 0 y

/-- A byte string with zero bytes up to a multiple of 16. -/
def padBlock (bs : Bytes) : Bytes := bs ++ List.replicate (roundUp bs.length 16 - bs.length) 0

/-- GHASH of a byte string of whole blocks. -/
def ghash (h : Nat) (bs : Bytes) : Nat :=
  (chunks 16 (bs.length / 16) bs).foldl (fun y b => ghashMul (y ^^^ beNat b) h) 0

/-- The counter-mode key stream applied to data, from a counter value on. -/
def gcmCtr (key iv : Bytes) : Nat → Nat → Bytes → Bytes
  | 0, _, _ => []
  | n + 1, ctr, data =>
    List.zipWith (· ^^^ ·) (data.take 16) (aes key (iv ++ beBytes 4 ctr)) ++ gcmCtr key iv n (ctr + 1) (data.drop 16)

/-- AES-256-GCM of a 96-bit nonce: applies the key stream to data. -/
def gcmCrypt (key iv data : Bytes) : Bytes := gcmCtr key iv (data.length / 16 + 1) 2 data

/-- The tag of a ciphertext and additional data. -/
def gcmTag (key iv aad ct : Bytes) : Bytes :=
  let h := beNat (aes key (List.replicate 16 0))
  let y := ghash h (padBlock aad ++ padBlock ct ++ beBytes 8 (8 * aad.length) ++ beBytes 8 (8 * ct.length))
  List.zipWith (· ^^^ ·) (beBytes 16 y) (aes key (iv ++ beBytes 4 1))

/-! ### CTR_DRBG, AES-256, without derivation function (SP 800-90A) -/

/-- Output blocks of the counter: `n` blocks, and the counter after them. -/
def drbgBlocks (key : Bytes) : Nat → BitVec 128 → Bytes × BitVec 128
  | 0, v => ([], v)
  | n + 1, v =>
    let v' := v + 1
    let r := drbgBlocks key n v'
    (aes key (beBytes 16 v'.toNat) ++ r.1, r.2)

/-- The update step with 48 bytes of provided data. -/
def Drbg.update (d : Drbg) (provided : Bytes) : Drbg :=
  let t := List.zipWith (· ^^^ ·) (drbgBlocks (beBytes 32 d.key.toNat) 3 d.v).1 provided
  { d with key := BitVec.ofNat 256 (beNat (t.take 32)), v := BitVec.ofNat 128 (beNat (t.drop 32)) }

/-- Instantiation from 48 bytes of seed material. -/
def Drbg.ofSeed (seed : Bytes) : Drbg := Drbg.update { key := 0, v := 0, calls := 0 } seed

/-- Reseeding from 48 bytes of seed material. -/
def Drbg.reseed (d : Drbg) (seed : Bytes) : Drbg := { Drbg.update d seed with calls := 0 }

/-- One generate call of `n` bytes. -/
def Drbg.generate (d : Drbg) (n : Nat) : Bytes × Drbg :=
  let r := drbgBlocks (beBytes 32 d.key.toNat) (ceilDiv n 16) d.v
  (r.1.take n, { Drbg.update { d with v := r.2 } (List.replicate 48 0) with calls := d.calls + 1 })

/-! ### SHA-384, HMAC and HKDF -/

/-- Rotation of a 64-bit word to the right. -/
def ror64 (x n : Nat) : Nat := ((x >>> n) ||| (x <<< (64 - n))) % 2 ^ 64

/-- Extends a message schedule, newest word first, by `n` words. -/
def shaSchedule : Nat → List Nat → List Nat
  | 0, w => w
  | n + 1, w =>
    let x := w.getD 1 0
    let y := w.getD 14 0
    let s1 := ror64 x 19 ^^^ ror64 x 61 ^^^ (x >>> 6)
    let s0 := ror64 y 1 ^^^ ror64 y 8 ^^^ (y >>> 7)
    shaSchedule n ((s1 + w.getD 6 0 + s0 + w.getD 15 0) % 2 ^ 64 :: w)

/-- One round. -/
def shaRound (h : List Nat) (kw : Nat) : List Nat :=
  match h with
  | [a, b, c, d, e, f, g, hh] =>
    let t1 := hh + (ror64 e 14 ^^^ ror64 e 18 ^^^ ror64 e 41) + ((e &&& f) ^^^ ((2 ^ 64 - 1 - e) &&& g)) + kw
    let t2 := (ror64 a 28 ^^^ ror64 a 34 ^^^ ror64 a 39) + ((a &&& b) ^^^ (a &&& c) ^^^ (b &&& c))
    [(t1 + t2) % 2 ^ 64, a, b, c, (d + t1) % 2 ^ 64, e, f, g]
  | l => l

/-- A word of a table that holds 64 bits a word, the first word lowest. -/
def shaWord (table i : Nat) : Nat := (table >>> (64 * i)) % 2 ^ 64

/-- The words that the 80 rounds add. -/
def shaAddends : Nat :=
  0x6c44198c4a4758175fcb6fab3ad6faec597f299cfc657e2a4cc5d4becb3e42b6431d67c49c100d4c3c9ebe0a15c9bebc32caab7b40c7249328db77f523047d841b710b35131c471b113f9804bef90dae0a637dc5a2c898a606f067aa72176fbaf57d4f7fee6ed178eada7dd6cde0eb1ed186b8c721c0c207ca273eceea26619cc67178f2e372532bbef9a3f7b2c67915a4506cebde82bde990befffa23631e288cc702081a6439ec84c87814a1f0ab7278a5636f43172f60748f82ee5defb2fc682e6ff3d6b2b8a35b9cca4f7763e3734ed8aa4ae3418acb391c0cb3c5c95a6334b0bcb5e19b48a82748774cdf8eeb991e376c085141ab5319a4c116b8d2d0c8106aa07032bbd1b8f40e35855771202ad69906245565a910d192e819d6ef5218c76c51a30654be30c24b8b70d0f89791a81a664bbc423001a2bfe8a14cf1036492722c851482353b81c2c92e47edaee6766a0abb3c77b2a8650a73548baf63de53380d139d95b3df4d2c6dfc5ac42aed2e1b21385c26c92627b70a8546d22ffc142929670a0e6e7006ca6351e003826fd5a79147930aa725c6e00bf33da88fc2bf597fc7beef0ee4b00327c898fb213fa831c66d2db43210983e5152ee66dfab76f988da831153b55cb0a9dcbd41fbd44a7484aa6ea6e4832de92c6f592b0275240ca1cc77ac9c650fc19dc68b8cd5b5efbe4786384f25e3e49b69c19ef14ad2c19bf174cf6926949bdc06a725c7123580deb1fe3b1696b172be5d74f27b896f550c7dc3d5ffb4e2243185be4ee4b28c12835b0145706fbed807aa98a3030242ab1c5ed5da6d8118923f82a4af194f9b59f111f1b605d0193956c25bf348b538e9b5dba58189dbbcb5c0fbcfec4d3b2f7137449123ef65cd428a2f98d728ae22

/-- The hash value that SHA-384 begins with. -/
def shaStart : Nat :=
  0x47b5481dbefa4fa4db0c2e0d64f98fa78eb44a876858151167332667ffc00b31152fecd8f70e59399159015a3070dd17629a292a367cd507cbbb9d5dc1059ed8

/-- One block of 128 bytes. -/
def shaBlock (h : List Nat) (block : Bytes) : List Nat :=
  let w := (shaSchedule 64 ((chunks 8 16 block).map beNat).reverse).reverse
  let out := (mapIdxFrom (fun t x => shaWord shaAddends t + x) 0 w).foldl shaRound h
  List.zipWith (fun x y => (x + y) % 2 ^ 64) h out

/-- SHA-384: 48 bytes. -/
def sha384 (m : Bytes) : Bytes :=
  let padded := m ++ [0x80] ++ List.replicate ((239 - m.length % 128) % 128) 0 ++ beBytes 16 (8 * m.length)
  (((chunks 128 (padded.length / 128) padded).foldl shaBlock ((List.range 8).map (shaWord shaStart))).flatMap (beBytes 8)).take 48

/-- HMAC-SHA-384. -/
def hmac384 (key m : Bytes) : Bytes :=
  let k := slice (if 128 < key.length then sha384 key else key) 0 128
  sha384 (k.map (· ^^^ 0x5C) ++ sha384 (k.map (· ^^^ 0x36) ++ m))

/-- HKDF-SHA-384 with at most 48 bytes of output (one expansion block). -/
def hkdf384 (ikm salt info : Bytes) (n : Nat) : Bytes := (hmac384 (hmac384 salt ikm) (info ++ [1])).take n

/-! ### CRC-32 of IEEE 802.3 -/

/-- Shifts a remainder by `n` bits. -/
def crcShift : Nat → Nat → Nat
  | 0, c => c
  | n + 1, c => crcShift n (if c.testBit 0 then (c >>> 1) ^^^ 0xEDB88320 else c >>> 1)

/-- CRC-32 of IEEE 802.3. -/
def crc32 (bs : Bytes) : Nat := (bs.foldl (fun c b => crcShift 8 (c ^^^ b.toNat)) 0xFFFFFFFF) ^^^ 0xFFFFFFFF

/-! ### ECDSA P-384 -/

/-- The field prime. -/
def p384P : Nat := 0xfffffffffffffffffffffffffffffffffffffffffffffffffffffffffffffffeffffffff0000000000000000ffffffff

/-- The group order. -/
def p384N : Nat := 0xffffffffffffffffffffffffffffffffffffffffffffffffc7634d81f4372ddf581a0db248b0a77aecec196accc52973

/-- The curve's constant term. -/
def p384B : Nat := 0xb3312fa7e23ee7e4988e056be3f82d19181d9c6efe8141120314088f5013875ac656398d8a2ed19d2a85c8edd3ec2aef

/-- The base point. -/
def p384G : Nat × Nat :=
  (0xaa87ca22be8b05378eb1c71ef320ad746e1d3b628ba79b9859f741e082542a385502f25dbf55296c3a545e3872760ab7,
   0x3617de4a96262c6f5d9e98bf9292dc29f8f41dbd289a147ce9da3113b5f0b8c00a60b1ce1d7e819d7a431d7c90ea0e5f)

/-- x to the power of the lowest `n` bits of e, modulo m. -/
def powMod (m : Nat) : Nat → Nat → Nat → Nat
  | 0, _, _ => 1
  | n + 1, x, e => (if e.testBit 0 then x else 1) * powMod m n (x * x % m) (e / 2) % m

/-- The inverse modulo a prime of 384 bits. -/
def invMod (m x : Nat) : Nat := powMod m 384 (x % m) (m - 2)

/-- The sum of two points; none is the point at infinity. -/
def p384Add : Option (Nat × Nat) → Option (Nat × Nat) → Option (Nat × Nat)
  | none, q => q
  | p, none => p
  | some (x1, y1), some (x2, y2) =>
    if x1 = x2 ∧ (y1 + y2) % p384P = 0 then none
    else
      let l :=
        if x1 = x2 then (3 * x1 * x1 + (p384P - 3)) * invMod p384P (2 * y1) % p384P
        else (y2 + (p384P - y1)) * invMod p384P (x2 + (p384P - x1)) % p384P
      let x3 := (l * l + (p384P - x1) + (p384P - x2)) % p384P
      some (x3, (l * (x1 + (p384P - x3)) + (p384P - y1)) % p384P)

/-- A multiple of a point, over `n` bits of the factor. -/
def p384Mul : Nat → Nat → Option (Nat × Nat) → Option (Nat × Nat)
  | 0, _, _ => none
  | n + 1, k, q =>
    p384Add (if k.testBit 0 then q else none) (p384Mul n (k / 2) (p384Add q q))

/-- Whether a point lies on the curve. -/
def p384On (q : Nat × Nat) : Bool :=
  decide (q.1 < p384P) && decide (q.2 < p384P) &&
    decide ((q.2 * q.2) % p384P = (q.1 * q.1 * q.1 + (p384P - 3) * q.1 + p384B) % p384P)

/-- ECDSA verification of a 48-byte digest under an uncompressed public key of 97 bytes; r and s big-endian. -/
def ecdsaVerify (pub digest r s : Bytes) : Bool :=
  let q := (beNat ((pub.drop 1).take 48), beNat ((pub.drop 49).take 48))
  let rn := beNat r
  let sn := beNat s
  let w := invMod p384N sn
  decide ((pub.headD 0) = 4) && p384On q && decide (0 < rn) && decide (rn < p384N) && decide (0 < sn) &&
    decide (sn < p384N) &&
    match p384Add (p384Mul 384 (beNat digest * w % p384N) (some p384G)) (p384Mul 384 (rn * w % p384N) (some q)) with
    | none => false
    | some (x, _) => decide (x % p384N = rn)

/-- ECDSA signature of a digest under a private scalar with a nonce: r and s, 48 big-endian bytes each. -/
def ecdsaSign (d : Nat) (digest : Bytes) (k : Nat) : Bytes :=
  let r := ((p384Mul 384 k (some p384G)).getD (0, 0)).1 % p384N
  beBytes 48 r ++ beBytes 48 (invMod p384N k * (beNat digest + r * d) % p384N)

end Sys2Proof.Machine
end

