-- ==== Sys2Proof/Machine/Arith.lean ====
section
/-! DEFINITION. The arithmetic of energies, fields, weights and draws (02 R20-R48, 03 R56-R76, R88; 04 R101-R108).
Values are integers and every check of a range is explicit; nothing is rounded but where Table 2.6 says so. -/

namespace Sys2Proof.Machine

/-! ### Ranges (02 Tables 2.3, 2.5) -/

/-- A value fits a signed accumulator of 32 bits (R42). -/
def fits32 (a : Int) : Bool := decide (-(2 ^ 31 : Int) ≤ a) && decide (a < (2 ^ 31 : Int))

/-- A value fits a signed energy of 64 bits (R46). -/
def fits64 (a : Int) : Bool := decide (-(2 ^ 63 : Int) ≤ a) && decide (a < (2 ^ 63 : Int))

/-- An SC16 value is valid when its mantissa is not 0 (R36). -/
def sc16Valid (v : Nat) : Bool := decide (v % 256 ≠ 0)

/-! ### Variables and couplings -/

/-- A block of spin variables; a Potts block has q from 2 to 16 (R20, R21). -/
def Block.spin (b : Block) : Bool := b.q == 0

/-- The spin value of a stored bit (R20). -/
def spinOf (bit : Nat) : Int := 1 - 2 * (bit : Int)

/-- The scale of a variable (R33). -/
def Block.scale (b : Block) (i : Nat) : Int := (b.scales.getD i 0 : Nat)

/-- The bias of a variable in a state (R35). -/
def Block.biasOf (b : Block) (i a : Nat) : Int := (b.bias.getD i []).getD (if b.spin then 0 else a) 0

/-- A dense code shifted by the block shift (R32). -/
def Block.dense (b : Block) (i j : Nat) : Int := (b.codes.getD i []).getD j 0 * 2 ^ b.sb

/-- Fields by variable and state: one accumulator for a spin, q for a Potts variable (R40). -/
abbrev Fields := List (List Int)

/-- One accumulator. -/
def Fields.at (f : Fields) (i a : Nat) : Int := (f.getD i []).getD a 0

/-- Fields of zeros (R88). -/
def Block.zeroFields (b : Block) : Fields := List.replicate b.n (List.replicate (if b.spin then 1 else b.q) 0)

/-! ### Checked additions (R42)
A result is the new fields, or the lane whose addition overflowed first. -/

/-- The lowest variable with an accumulator out of range. -/
def overflowLane (f : Fields) : Option Nat := firstIdx (fun _ l => l.any fun a => !fits32 a) 0 f

/-- The fields when every accumulator fits, else the lane. -/
def checked (f : Fields) : Except Nat Fields :=
  match overflowLane f with
  | none => .ok f
  | some lane => .error lane

/-- Adds `g i` to accumulator `a` of every lane i but lane `j` (one update step, R62, R63). -/
def addColumn (f : Fields) (j a : Nat) (g : Nat → Int) : Except Nat Fields :=
  checked (mapIdxFrom (fun i l => if i = j then l else l.modify a (· + g i)) 0 f)

/-- The field update when variable j of the block goes from one state to another (R41, R62, R63): for a Potts move
the subtraction is the earlier of the two update steps; with more variables than lanes every subtraction precedes every
addition (DESIGN CHOICE, log entry 126). -/
def Block.denseUpdate (b : Block) (f : Fields) (j old new : Nat) : Except Nat Fields :=
  if b.spin then addColumn f j 0 fun i => b.dense i j * (2 * b.scale j * spinOf new)
  else
    match addColumn f j old fun i => -(b.dense i j * b.scale j) with
    | .error lane => .error lane
    | .ok f' => addColumn f' j new fun i => b.dense i j * b.scale j

/-- Adds a value to one accumulator. -/
def addLane (f : Fields) (i a : Nat) (v : Int) : Except Nat Fields :=
  if fits32 (f.at i a + v) then .ok (f.modify i fun l => l.modify a (· + v)) else .error i

/-- The entries of a hem source's list: from its first entry through the one that carries END (Table 2.4). -/
def entriesFrom : List Sparse → List Sparse
  | [] => []
  | e :: es => if e.last then [e] else e :: entriesFrom es

/-- The entry list of a directory entry. -/
def Block.listOf (b : Block) (d : SpDir) : List Sparse := entriesFrom (b.sparse.drop d.first)

/-- Applies a source's list for a change of the source from one state to another (R64). `dj` is the source's scale. -/
def sparseUpdate (spin : Bool) (sx : Nat) (dj : Int) (old new : Nat) : List Sparse → Fields → Except Nat Fields
  | [], f => .ok f
  | e :: es, f =>
    let c := e.code * 2 ^ sx * dj
    let r :=
      if spin then addLane f e.lidx 0 (c * (2 * spinOf new))
      else
        match addLane f e.lidx old (-c) with
        | .error lane => .error lane
        | .ok f' => addLane f' e.lidx new c
    match r with
    | .error lane => .error lane
    | .ok f' => sparseUpdate spin sx dj old new es f'

/-- Adds a source's list to cleared fields (R88). -/
def sparseFull (spin : Bool) (sx : Nat) (dj : Int) (st : Nat) : List Sparse → Fields → Except Nat Fields
  | [], f => .ok f
  | e :: es, f =>
    let c := e.code * 2 ^ sx * dj
    match addLane f e.lidx (if spin then 0 else st) (if spin then c * spinOf st else c) with
    | .error lane => .error lane
    | .ok f' => sparseFull spin sx dj st es f'

/-- Dense columns of the full-audit form, from column j on (R88). -/
def Block.denseFull (b : Block) : Nat → List Nat → Fields → Except Nat Fields
  | _, [], f => .ok f
  | j, st :: sts, f =>
    match addColumn f j (if b.spin then 0 else st)
        (fun i => if b.spin then b.dense i j * (b.scale j * spinOf st) else b.dense i j * b.scale j) with
    | .error lane => .error lane
    | .ok f' => Block.denseFull b (j + 1) sts f'

/-- Sparse lists of the full-audit form: directory entries with the mirror state and scale of each source. -/
def Block.sparseAll (b : Block) (sx : Nat) : List (SpDir × Nat × Int) → Fields → Except Nat Fields
  | [], f => .ok f
  | (d, st, dj) :: rest, f =>
    match sparseFull b.spin sx dj st (b.listOf d) f with
    | .error lane => .error lane
    | .ok f' => Block.sparseAll b sx rest f'

/-- The fields of a state, from nothing (R40, R88). -/
def Block.fullFields (b : Block) (sx : Nat) (state : List Nat) (sources : List (SpDir × Nat × Int)) :
    Except Nat Fields :=
  match b.denseFull 0 state b.zeroFields with
  | .error lane => .error lane
  | .ok f => b.sparseAll sx sources f

/-! ### Energies (R44-R46, 04 R100) -/

/-- Σ s_i·d_i·A_i or Σ d_i·A_i(σ_i) of a replica-block, which counts each pair twice (R46). -/
def Block.pairSum (b : Block) (state : List Nat) (f : Fields) : Int :=
  (mapIdxFrom (fun i st =>
    if b.spin then spinOf st * b.scale i * f.at i 0 else b.scale i * f.at i st) 0 state).sum

/-- Σ b_i·s_i or Σ b_i(σ_i). -/
def Block.biasSum (b : Block) (state : List Nat) : Int :=
  (mapIdxFrom (fun i st => if b.spin then b.biasOf i 0 * spinOf st else b.biasOf i st) 0 state).sum

/-- E from the sums over a replica's blocks (R46): the halving is exact. -/
def energyOf (pairs bias const : Int) : Int := -(pairs / 2) - bias + const

/-- The energy change of moving a variable to a state (R44, R45). -/
def Block.deltaE (b : Block) (state : List Nat) (f : Fields) (i new : Nat) : Int :=
  let old := state.getD i 0
  if b.spin then 2 * spinOf old * (b.scale i * f.at i 0 + b.biasOf i 0)
  else b.scale i * (f.at i old - f.at i new) + b.biasOf i old - b.biasOf i new

/-! ### Weights (03 R66-R69) -/

/-- The greatest number below 2^n that meets a test which, once false, stays false. -/
def greatest (p : Nat → Bool) : Nat → Nat → Nat
  | 0, acc => acc
  | n + 1, acc => greatest p n (if p (acc + 2 ^ n) then acc + 2 ^ n else acc)

/-- T(xf): 2^23·2^(−xf/65,536) to the nearest integer. t is the greatest integer with t − 1/2 below the value,
which says (2t − 1)^65536 < 2^(24·65536 − xf); both exponents are divided by their common factor. -/
def tableT (xf : Nat) : Nat :=
  if xf = 0 then 2 ^ 23
  else
    let g := Nat.gcd xf 65536
    let m := 65536 / g
    greatest (fun t => decide ((2 * t - 1) ^ m < 2 ^ (24 * m - xf / g))) 24 0

/-- The Metropolis weight of an argument with 16 fraction bits (R67). -/
def metropolis (x : Int) : Nat :=
  if x ≤ 0 then 2 ^ 23
  else if 23 * 65536 < x then 0
  else
    let xi := x.toNat / 65536
    let t := tableT (x.toNat % 65536)
    if xi = 0 then t else (t + 2 ^ (xi - 1)) / 2 ^ xi

/-- The heat-bath weight (R68): w is the greatest integer with w − 1/2 below 2^23/(1 + 2^x), which says
(2w − 1)^65536·2^x' < (2^24 − 2w + 1)^65536 with x' the argument in its 16 fraction bits. -/
def heatBath (x : Int) : Nat :=
  if x < -(24 * 65536) then 2 ^ 23
  else if 23 * 65536 < x then 0
  else
    let g := Nat.gcd x.natAbs 65536
    let m := 65536 / g
    let e := x.natAbs / g
    greatest (fun w =>
      if w = 0 then true
      else if 0 ≤ x then decide ((2 * w - 1) ^ m * 2 ^ e < (2 ^ 24 + 1 - 2 * w) ^ m)
      else decide ((2 * w - 1) ^ m < (2 ^ 24 + 1 - 2 * w) ^ m * 2 ^ e)) 24 0

/-- The weight of a candidate at β₂ (raw 16.16) and ΔE (R66-R68). -/
def weight (heat : Bool) (beta : Nat) (dE : Int) : Nat :=
  if heat then heatBath (beta * dE) else metropolis (beta * dE)

/-! ### The Tumbler (R70-R76) -/

/-- Candidates in candidate order: variable and new state (R73). -/
def Block.candidates (b : Block) (state : List Nat) : List (Nat × Nat) :=
  (mapIdxFrom (fun i st =>
    if b.spin then [(i, 1 - st)]
    else ((List.range b.q).filter (fun a => a != st)).map fun a => (i, a)) 0 state).flatten

/-- The candidates with their weights (S3, S4). -/
def Block.weights (b : Block) (heat : Bool) (beta : Nat) (state : List Nat) (f : Fields) : List (Nat × Nat × Nat) :=
  (b.candidates state).map fun c => (c.1, c.2, weight heat beta (b.deltaE state f c.1 c.2))

/-- The total weight W (S5). -/
def totalWeight (ws : List (Nat × Nat × Nat)) : Nat := (ws.map (·.2.2)).sum

/-- The candidate k with P_k ≤ r < P_k + w_k (R71). -/
def selectAt : List (Nat × Nat × Nat) → Nat → Option (Nat × Nat)
  | [], _ => none
  | (i, a, w) :: rest, r => if r < w then some (i, a) else selectAt rest (r - w)

/-- r = ⌊u·W / 2^64⌋ (R71). -/
def drawOffset (u w : Nat) : Nat := u * w / 2 ^ 64

/-- The dwell of a selection among N candidates (R74), or of a frozen turn (R75). -/
def dwellOf (n w : Nat) : Nat := if w = 0 then 0xFFFFFFFF else min (n * 2 ^ 35 / w) (2 ^ 32 - 1)

/-- Draw t of an AES-128 counter stream (16 R439). -/
def drawAt (key : BitVec 128) (t : Nat) : Nat :=
  field (aes (leBytes 16 key.toNat) (leBytes 16 (t / 2))) (8 * (t % 2)) 8

/-- The root key of a seed and a model word (16 R438). -/
def rootKey (seed model : W64) : Bytes := leBytes 8 seed.toNat ++ leBytes 8 model.toNat

/-- The stream key of a replica and a global block number (16 R438). -/
def streamKey (seed model : W64) (replica block : Nat) : BitVec 128 :=
  BitVec.ofNat 128 (leNat (aes (rootKey seed model)
    ([1, 0, 0, 0] ++ leBytes 2 replica ++ leBytes 2 block ++ List.replicate 8 0)))

/-- The exchange key (16 R438). -/
def exchangeKey (seed model : W64) : BitVec 128 :=
  BitVec.ofNat 128 (leNat (aes (rootKey seed model) (2 :: List.replicate 15 0)))

/-! ### Schedules and exchanges (04 R101-R108) -/

/-- S(t) between two points and beyond the last one (R108). -/
def scheduleFrom (t : Nat) : Nat × Nat → List (Nat × Nat) → Nat
  | (_, s0), [] => s0
  | (t0, s0), (t1, s1) :: rest =>
    if t ≤ t0 then s0
    else if t < t1 then ((s0 : Int) + ((s1 : Int) - s0) * ((t : Int) - t0) / ((t1 : Int) - t0)).toNat
    else scheduleFrom t (t1, s1) rest

/-- S(t); no point means 1.0 (R107). -/
def scheduleAt (points : List (Nat × Nat)) (t : Nat) : Nat :=
  match points with
  | [] => 65536
  | p :: rest => scheduleFrom t p rest

/-- β₂ of a rung at a schedule value (R101). -/
def rungBeta (g s : Nat) : Nat := min (s * g / 2 ^ 16) 0xFFFFFFFF

/-- Whether an exchange is accepted (R105), from the rungs' β₂, the replicas' energies and the draw. -/
def exchangeAccepts (bk bk1 : Nat) (ea eb : Int) (u : Nat) : Bool :=
  let y := ((bk : Int) - bk1) * (ea - eb)
  if 0 ≤ y then true
  else
    let x := (-y).toNat
    if 32 * 65536 ≤ x then false
    else decide (u / 2 ^ 32 < tableT (x % 65536) * 2 ^ 9 / 2 ^ (x / 65536))

/-! ### Field-audit interval (03 R90) and footprints (04 R91) -/

/-- log2 of A_eff from AUDLOG and the largest number of runnable replica-blocks on a unit. -/
def auditLog (audlog m : Nat) : Nat := max (Nat.log2 (6 * 2 ^ audlog / max m 6)) (min audlog 15)

/-- The bytes of a block's state (Table 4.1). -/
def Block.stateBytes (b : Block) : Nat := (if b.spin then 8 else 32) * ceilDiv b.n 64

/-- The scratchpad footprint of a replica-block (R91). -/
def footprint (spin : Bool) (n q : Nat) : Nat :=
  let c := ceilDiv n 64
  if spin then roundUp (8 * c + 256 * c + 256) 256 else roundUp (32 * c + 256 * q * c + 256) 256

/-- Issue interval I of a replica-block (03 R57). -/
def issueInterval (fmt n q : Nat) (spin : Bool) : Nat :=
  let l := if fmt = 1 then 16384 else if fmt = 4 then 4096 else 2048
  let u := if spin then ceilDiv n l else 2 * ceilDiv n l
  let p := if spin then 1 else ceilDiv ((q - 1) * n) 8192
  max (max u p) 1

/-! ### Number formats at the quantisation stage (02 Table 2.6) -/

/-- Rounds a fraction to the nearest integer, ties to even. -/
def roundEven (num : Int) (den : Nat) : Int :=
  let q := num / den
  let r := num % den
  if 2 * r < den then q else if (den : Int) < 2 * r then q + 1 else if q % 2 = 0 then q else q + 1

/-- Cuts a value to a range. -/
def clamp (lo hi v : Int) : Int := max lo (min hi v)

end Sys2Proof.Machine
end

