-- ==== Sys2Proof/Machine/Flags.lean ====
section
/-! DEFINITION. Status codes, stop reasons, refusal reports, fault locators and the error counters and cause registers
that faults set (10 Tables 10.19, 10.20; 08 Table 8.11; 03 Tables 3.15, 3.16; 11 Table 11.12). -/

namespace Sys2Proof.Machine

/-! ### Status codes (10 Table 10.19) and stop reasons (Table 10.20) -/

namespace Status
def ok : Nat := 0x00
def invalidOpcode : Nat := 0x10
def invalidVersion : Nat := 0x11
def reservedNonzero : Nat := 0x12
def invalidField : Nat := 0x13
def privilege : Nat := 0x14
def refusedCapacity : Nat := 0x20
def refusedPlacement : Nat := 0x21
def refusedGrant : Nat := 0x22
def cancelled : Nat := 0x30
def contextReset : Nat := 0x31
def jobAborted : Nat := 0x32
def faultData : Nat := 0x40
def faultQuantTag : Nat := 0x41
def entropyFailed : Nat := 0x42
def dependencyFailed : Nat := 0x43
end Status

namespace Stop
def none : Nat := 0
def turns : Nat := 1
def target : Nat := 2
def stall : Nat := 3
def frozen : Nat := 4
def cancel : Nat := 5
end Stop

/-- A refusal or failure of a request: its status and both result words. -/
structure Refuse where
  status : Nat
  w0     : W64
  w1     : W64
  deriving DecidableEq, Repr

namespace Refuse

/-- INVALID_FIELD at a byte offset of a structure (R299). -/
def field (off struct : Nat) : Refuse := ⟨Status.invalidField, BitVec.ofNat 64 off, BitVec.ofNat 64 struct⟩

/-- RESERVED_NONZERO at a byte offset of a structure. -/
def reserved (off struct : Nat) : Refuse := ⟨Status.reservedNonzero, BitVec.ofNat 64 off, BitVec.ofNat 64 struct⟩

/-- INVALID_VERSION with the version found. -/
def version (v : Nat) : Refuse := ⟨Status.invalidVersion, BitVec.ofNat 64 v, 0⟩

/-- PRIVILEGE with the opcode byte. -/
def privilege (op : Nat) : Refuse := ⟨Status.privilege, BitVec.ofNat 64 op, 0⟩

/-- The refusal report of Table 8.11. -/
def report (res : Nat) (more entry : Bool) (le su link : Nat) : W64 :=
  pack [(0, 8, res), (8, 1, b2n more), (9, 1, b2n entry), (16, 5, le), (21, 3, su), (24, 6, link)]

/-- REFUSED_CAPACITY with a report and a shortfall. -/
def capacity (rep : W64) (short : Nat) : Refuse := ⟨Status.refusedCapacity, rep, BitVec.ofNat 64 short⟩

/-- REFUSED_GRANT with a report and a shortfall. -/
def grant (rep : W64) (short : Nat) : Refuse := ⟨Status.refusedGrant, rep, BitVec.ofNat 64 short⟩

/-- REFUSED_PLACEMENT with a report. -/
def placement (rep : W64) : Refuse := ⟨Status.refusedPlacement, rep, 0⟩

end Refuse

/-! ### Fault locators (03 Table 3.16, 07 Table 7.13) -/

/-- The layout of EN_FAULTLOC. -/
def locator (cls su addr lane rblk : Nat) : W64 :=
  pack [(0, 4, cls), (4, 3, su), (8, 24, addr), (32, 13, lane), (45, 10, rblk)]

/-- The layout of FB_LANEFLT. -/
def laneLocator (link lane : Nat) (valid rate hpwr : Bool) (count : Nat) : W64 :=
  pack [(0, 6, link), (6, 2, lane), (8, 1, b2n valid), (9, 1, b2n rate), (10, 1, b2n hpwr), (16, 16, count)]

/-- Classes of logic faults (03 R85). -/
def logicClass (cls : Nat) : Bool := cls == 4 || cls == 5 || cls == 6 || cls == 10

/-- Classes that are errors of the image and count toward nothing (03 R84). -/
def overflowClass (cls : Nat) : Bool := cls == 7 || cls == 8

namespace State

/-- Records an event in CX_FAULTCTX: the first one whole, a later one in MORE (11 R311). -/
def noteContext (s : State) (tag : BitVec 24) (cause le su idx : Nat) : State :=
  if s.cx.fValid then { s with cx := { s.cx with fMore := true } }
  else
    { s with cx := { s.cx with
        fTag := tag, fCause := cause, fValid := true, fMore := false, fLe := le, fSu := su, fIdx := idx,
        fTick := BitVec.ofNat 16 s.now } }

/-- Counts single-bit SRAM errors corrected. -/
def countSramCorr (s : State) (site : Nat) : State :=
  s.updSite site fun t => { t with sramcorr := satInc 16 t.sramcorr }

/-- Counts a recompute, repeated sum or repeated selection that succeeded. -/
def countLogCorr (s : State) (site : Nat) : State :=
  s.updSite site fun t => { t with logcorr := satInc 16 t.logcorr }

/-- Records a fault of a site: locator, DETECTED unless an overflow, AUDMISM for an audit, and for a logic class
SUFAULT and the tick of the fault (03 Tables 3.13, 3.15, 3.16, R85). -/
def noteSiteFault (s : State) (site cls su : Nat) (loc : W64) : State :=
  s.updSite site fun t =>
    { t with
      faultloc := loc
      detected := if overflowClass cls then t.detected else satInc 16 t.detected
      audmism := if cls = 9 then satInc 16 t.audmism else t.audmism
      sufault := if logicClass cls then t.sufault ||| BitVec.ofNat 8 (2 ^ (su % 8)) else t.sufault
      logic := if logicClass cls then t.logic ++ [s.now] else t.logic }

end State

end Sys2Proof.Machine
end

