-- ==== Sys2Proof/Machine/Operands.lean ====
section
/-! DEFINITION. The operand forms: descriptor header and payloads (10 R264-R297), request names (09 R231), module
addresses (10 R268) and the checks of R265 on a descriptor as patched. -/

namespace Sys2Proof.Machine

/-! ### Request names -/

/-- A request name from queue generation, queue number and sequence number (10 R269). -/
def mkName (gen queue seq : Nat) : W64 := pack [(0, 40, seq), (40, 10, queue), (50, 14, gen)]

/-- The sequence number of a name. -/
def nameSeq (n : W64) : Nat := n.toNat % 2 ^ 40

/-- The queue number of a name. -/
def nameQueue (n : W64) : Nat := bits n.toNat 40 10

/-- The queue generation of a name. -/
def nameGen (n : W64) : Nat := n.toNat / 2 ^ 50

/-! ### Module addresses (10 Table 10.4) -/

/-- The space of a module address. -/
def addrSpace (a : Nat) : Nat := bits a 61 3

/-- The logical engine of a module address. -/
def addrLe (a : Nat) : Nat := bits a 56 5

/-- The offset of a module address. -/
def addrOff (a : Nat) : Nat := a % 2 ^ 56

/-! ### Opcodes (10 Table 10.2) -/

namespace Op
def nop : Nat := 0x01
def solve : Nat := 0x02
def sample : Nat := 0x03
def score : Nat := 0x04
def retrieve : Nat := 0x05
def append : Nat := 0x06
def modelLoad : Nat := 0x07
def modelUpdateRows : Nat := 0x08
def modelUnload : Nat := 0x09
def copy : Nat := 0x0A
def fill : Nat := 0x0B
def patch : Nat := 0x0C
def join : Nat := 0x0D
def signal : Nat := 0x0E
def cancel : Nat := 0x0F
def ctxCreate : Nat := 0x40
def ctxDestroy : Nat := 0x41
def ctxGrant : Nat := 0x42
def ctxReset : Nat := 0x43
def ctxDump : Nat := 0x44
def queueCreate : Nat := 0x45
def queueDestroy : Nat := 0x46
def powerSet : Nat := 0x47
def siteBind : Nat := 0x48
def engineRetire : Nat := 0x49
def engineRepair : Nat := 0x4A
def counterReadAll : Nat := 0x4B
def scalePolicy : Nat := 0x4C
end Op

/-- The opcode byte. -/
def dOp (d : Bytes) : Nat := field d 0 1

/-- A listed opcode. -/
def listed (op : Nat) : Bool := (decide (1 ≤ op) && decide (op ≤ 0x0F)) || (decide (0x40 ≤ op) && decide (op ≤ 0x4C))

/-- A kernel-only opcode. -/
def kernelOnly (op : Nat) : Bool := decide (0x40 ≤ op) && decide (op ≤ 0x4C)

/-- The opcodes a chained descriptor may carry (R279). -/
def chainable (op : Nat) : Bool :=
  [Op.solve, Op.sample, Op.score, Op.retrieve, Op.append, Op.modelUpdateRows, Op.copy, Op.fill, Op.signal,
    Op.nop].contains op

/-- The opcodes that reach the allocator in sequence order (09 R243). -/
def allocating (op : Nat) : Bool :=
  [Op.modelLoad, Op.modelUnload, Op.append, Op.siteBind, Op.ctxGrant, Op.queueCreate].contains op

/-! ### Header flags (10 Table 10.3) -/

def dFlags (d : Bytes) : Nat := field d 2 2
def dChain (d : Bytes) : Bool := bitAt (dFlags d) 0
def dSignal (d : Bytes) : Bool := bitAt (dFlags d) 1
def dFence (d : Bytes) : Bool := bitAt (dFlags d) 2
def dResultPatch (d : Bytes) : Bool := bitAt (dFlags d) 3

/-- PATCH and JOIN use bytes 48-127 in layouts of their own (R264). -/
def ownLayout (op : Nat) : Bool := op == Op.patch || op == Op.join

/-- The byte offsets of the edges (R264, R292). -/
def edgeOffsets (op : Nat) : List Nat :=
  [16, 24, 32, 40] ++ (if op = Op.join then (List.range 10).map fun i => 48 + 8 * i else [])

/-- The nonzero edges in index order. -/
def dEdges (d : Bytes) : List W64 :=
  ((edgeOffsets (dOp d)).map fun o => BitVec.ofNat 64 (field d o 8)).filter fun e => e != 0

/-! ### Payload fields -/

/-- A payload field: offset, bytes, least and greatest value, the bits that are not reserved, and the number that an
address or length must be a multiple of. -/
structure Fld where
  off   : Nat
  bytes : Nat
  lo    : Nat
  hi    : Nat
  mask  : Nat
  unit  : Nat
  deriving DecidableEq, Repr

/-- A field that takes every value. -/
def Fld.any (off bytes : Nat) : Fld := ⟨off, bytes, 0, 2 ^ (8 * bytes) - 1, 2 ^ (8 * bytes) - 1, 1⟩

/-- A field with a range. -/
def Fld.range (off bytes lo hi : Nat) : Fld := ⟨off, bytes, lo, hi, 2 ^ (8 * bytes) - 1, 1⟩

/-- A field whose higher bits are reserved. -/
def Fld.bits (off bytes w : Nat) : Fld := ⟨off, bytes, 0, 2 ^ w - 1, 2 ^ w - 1, 1⟩

/-- An address or length that is a multiple of 64 bytes (R268). -/
def Fld.line (off : Nat) : Fld := ⟨off, 8, 0, 2 ^ 64 - 1, 2 ^ 64 - 1, 64⟩

/-- A context tag, which is never 0 (R302). -/
def Fld.tag : Fld := Fld.range 56 3 1 0xFFFFFF

/-- The payload fields of an opcode (R273, R281-R296). -/
def layout (op : Nat) : List Fld :=
  if op = Op.nop then Fld.bits 56 1 1 :: (List.range 7).map fun i => Fld.any (64 + 8 * i) 8
  else if op = Op.solve ∨ op = Op.sample then
    [Fld.any 56 8, Fld.line 64, Fld.line 72, Fld.any 80 8, Fld.range 88 1 0 1]
  else if op = Op.score then [Fld.any 56 8, Fld.line 64, Fld.line 72, Fld.range 80 2 1 65535]
  else if op = Op.retrieve then
    [Fld.any 56 8, Fld.line 64, Fld.line 72, Fld.any 80 8, Fld.any 88 8, Fld.any 96 4, Fld.range 100 2 1 256,
     Fld.range 102 2 1 256, Fld.bits 104 1 3, Fld.any 106 2]
  else if op = Op.append then [Fld.any 56 8, Fld.line 64, Fld.any 72 8, Fld.bits 80 1 1, Fld.any 82 2]
  else if op = Op.modelLoad then [Fld.line 56, Fld.line 64, Fld.any 72 4]
  else if op = Op.modelUpdateRows then
    [Fld.any 56 8, Fld.line 64, Fld.any 72 8, Fld.any 80 4, Fld.any 84 4, Fld.any 88 4, Fld.any 92 4, Fld.bits 96 1 1]
  else if op = Op.modelUnload then [Fld.any 56 8, Fld.bits 64 1 1]
  else if op = Op.copy then [Fld.line 56, Fld.line 64, Fld.line 72]
  else if op = Op.fill then [Fld.line 56, Fld.line 64, Fld.any 72 8]
  else if op = Op.patch then
    (List.range 8).map (fun i => Fld.any (48 + 2 * i) 2) ++ (List.range 8).map fun i => Fld.any (64 + 8 * i) 8
  else if op = Op.join then (List.range 10).map fun i => Fld.any (48 + 8 * i) 8
  else if op = Op.signal then [Fld.range 56 2 0 2047, Fld.bits 58 1 2, Fld.any 64 8, Fld.any 72 8]
  else if op = Op.cancel then [Fld.any 56 8]
  else if op = Op.ctxDestroy ∨ op = Op.ctxReset then [Fld.tag]
  else if op = Op.ctxGrant then
    [Fld.tag, Fld.any 60 4, Fld.any 64 2, Fld.any 66 2, Fld.any 68 4, Fld.any 72 8, Fld.any 80 8, Fld.any 88 4,
     Fld.range 92 1 0 64]
  else if op = Op.ctxDump then [Fld.tag, Fld.line 64, Fld.any 72 8]
  else if op = Op.queueCreate then [Fld.line 56]
  else if op = Op.queueDestroy then [Fld.bits 56 2 10, Fld.bits 58 2 14, Fld.bits 60 1 1]
  else if op = Op.powerSet then [Fld.range 56 1 0 2, Fld.any 57 1, Fld.range 58 1 0 1, Fld.any 60 2]
  else if op = Op.siteBind then
    [Fld.tag, Fld.bits 59 1 1, Fld.range 60 4 0 65535, Fld.any 64 8, Fld.line 72, Fld.range 80 1 0 31]
  else if op = Op.engineRetire then [Fld.range 56 1 0 39]
  else if op = Op.engineRepair then [Fld.range 56 1 0 7]
  else if op = Op.counterReadAll then [Fld.line 56, Fld.any 64 8]
  else if op = Op.scalePolicy then
    [Fld.range 56 1 0 1, Fld.bits 57 1 1, Fld.any 58 1, Fld.any 60 2, Fld.any 62 2, Fld.any 64 8, Fld.any 72 2]
  else []

/-! ### Step 4 of R265: reserved fields -/

/-- The least of a list of offsets. -/
def leastOf : List Nat → Option Nat
  | [] => none
  | x :: xs =>
    match leastOf xs with
    | none => some x
    | some y => some (min x y)

/-- The offsets of nonzero bytes of a range that no field covers. -/
def uncovered (d : Bytes) (fs : List Fld) (lo n : Nat) : List Nat :=
  ((List.range n).map (· + lo)).filter fun i =>
    decide (field d i 1 ≠ 0) && fs.all fun f => !(decide (f.off ≤ i) && decide (i < f.off + f.bytes))

/-- The offset of the first nonzero reserved field (R264, R265, R266, R274): the field's own offset, or the byte. -/
def reservedAt (d : Bytes) : Option Nat :=
  let op := dOp d
  let fs := layout op
  leastOf (
    (if field d 1 1 / 16 ≠ 0 then [1] else []) ++
    (if dFlags d / 16 ≠ 0 then [2] else []) ++
    uncovered d [] 4 12 ++
    (if !ownLayout op && dChain d && decide (field d 48 8 / 2 ^ 21 ≠ 0) then [48] else []) ++
    (if ownLayout op then uncovered d fs 48 80 else uncovered d fs 56 64) ++
    ((fs.filter fun f => decide ((field d f.off f.bytes) &&& f.mask ≠ field d f.off f.bytes)).map (·.off)) ++
    (if ownLayout op then []
     else if dResultPatch d then (if field d 120 8 / 2 ^ 21 ≠ 0 then [120] else [])
     else uncovered d [] 120 8))

/-! ### Step 5 of R265: ranges and combinations -/

/-- Conditions of single opcodes beyond the range of one field (R171, R273, R286-R293, R296). -/
def opcodeInvalid (d : Bytes) : List Nat :=
  let op := dOp d
  let f := field d
  if op = Op.patch then
    ((List.range 8).filter fun i => decide (f (48 + 2 * i) 2 % 4096 ≠ 0) && decide (f (48 + 2 * i) 2 / 4096 < 2)).map
      fun i => 48 + 2 * i
  else if op = Op.retrieve then (if !bitAt (f 104 1) 2 && decide (f 106 2 ≠ 0) then [106] else [])
  else if op = Op.append then (if !bitAt (f 80 1) 0 && decide (f 82 2 ≠ 0) then [82] else [])
  else if op = Op.modelLoad then (if 1 < addrSpace (f 56 8) ∧ addrSpace (f 56 8) ≠ 3 then [56] else [])
  else if op = Op.copy then
    (if f 56 8 / 2 ^ 56 = f 64 8 / 2 ^ 56 ∧ addrOff (f 56 8) < addrOff (f 64 8) + f 72 8 ∧
        addrOff (f 64 8) < addrOff (f 56 8) + f 72 8 then [64] else [])
  else if op = Op.signal then
    (if bitAt (f 58 1) 1 && ((decide (addrSpace (f 64 8) ≠ 0) && decide (addrSpace (f 64 8) ≠ 3)) || decide (f 64 8 % 8 ≠ 0)) then [64]
     else [])
  else if op = Op.ctxDump then (if addrSpace (f 64 8) ≠ 0 then [64] else [])
  else if op = Op.counterReadAll then (if addrSpace (f 56 8) ≠ 0 then [56] else [])
  else if op = Op.queueCreate then (if addrSpace (f 56 8) ≠ 0 then [56] else [])
  else if op = Op.powerSet then
    (if f 56 1 = 0 ∧ 3 < f 57 1 then [57]
     else if f 56 1 = 1 ∧ 2 < f 57 1 then [57]
     else if f 56 1 = 2 ∧ (f 60 2 < 200 ∨ 650 < f 60 2) then [60] else [])
  else if op = Op.scalePolicy then
    (if bitAt (f 57 1) 0 then
      (if f 58 1 = 0 then [58] else []) ++ (if sc16Valid (f 60 2) then [] else [60]) ++
      (if sc16Valid (f 62 2) then [] else [62]) ++
      (if sc16Valid (f 60 2) && sc16Valid (f 62 2) &&
          decide (f 62 2 % 256 * 2 ^ (toSigned 8 (f 62 2 / 256) + 128).toNat <
            f 60 2 % 256 * 2 ^ (toSigned 8 (f 60 2 / 256) + 128).toNat) then [62] else [])
     else [])
  else []

/-- The offsets of everything out of range in a descriptor but its edges' queues (R265 step 5, R266, R274, R279). -/
def invalidAt (d : Bytes) (chained : Bool) : Option Nat :=
  let op := dOp d
  leastOf (
    (if chained && !chainable op then [0] else []) ++
    (if chained && (dFence d || dResultPatch d) then [2] else []) ++
    (if chained then [16, 24, 32, 40].filter fun o => decide (field d o 8 ≠ 0) else []) ++
    (if ownLayout op && (dChain d || dResultPatch d) then [2] else []) ++
    (if !ownLayout op && !dChain d && decide (field d 48 8 ≠ 0) then [48] else []) ++
    (if !ownLayout op && dResultPatch d && (decide (field d 120 2 = 0) || decide (bits (field d 120 8) 16 4 < 2)) then [120]
     else []) ++
    (((layout op).filter fun g =>
        decide (field d g.off g.bytes < g.lo) || decide (g.hi < field d g.off g.bytes) ||
        decide (field d g.off g.bytes % g.unit ≠ 0)).map (·.off)) ++
    opcodeInvalid d)

/-- The checks of R265 on a descriptor of a queue or chain; `badEdge` is the offset of an edge that R270 refuses. -/
def checkDescriptor (d : Bytes) (kernel chained : Bool) (badEdge : Option Nat) : Option Refuse :=
  let op := dOp d
  if listed op = false then some ⟨Status.invalidOpcode, BitVec.ofNat 64 op, 0⟩
  else if field d 1 1 % 16 ≠ 1 then some (Refuse.version (field d 1 1 % 16))
  else if kernelOnly op && (chained || !kernel) then some (Refuse.privilege op)
  else
    match reservedAt d with
    | some o => some (Refuse.reserved o 0)
    | none =>
      match leastOf ((invalidAt d chained).toList ++ badEdge.toList) with
      | some o => some (Refuse.field o 0)
      | none => none

/-! ### Patches (10 R273-R277) -/

/-- The overlay entries of a source: those of a PATCH, or the one of a RESULT_PATCH. A target word that no patch can name,
below word 2 or at no distance, makes no entry (R273, R274, R277). -/
def dPatches (queue seq : Nat) (d : Bytes) : List Overlay :=
  if dOp d = Op.patch then
    ((List.range 8).filter fun i =>
        decide (field d (48 + 2 * i) 2 % 4096 ≠ 0) && decide (2 ≤ field d (48 + 2 * i) 2 / 4096)).map fun i =>
      { queue := queue, source := seq, target := (seq + field d (48 + 2 * i) 2 % 4096) % 2 ^ 40,
        word := field d (48 + 2 * i) 2 / 4096, value := none, failed := none, rw1 := false, beyond := false }
  else if dResultPatch d && decide (field d 120 2 ≠ 0) && decide (2 ≤ bits (field d 120 8) 16 4) then
    [{ queue := queue, source := seq, target := (seq + field d 120 2) % 2 ^ 40, word := bits (field d 120 8) 16 4,
       value := none, failed := none, rw1 := bitAt (field d 120 8) 20, beyond := false }]
  else []

/-- Writes a 64-bit word of a descriptor. -/
def putWord (d : Bytes) (word : Nat) (v : W64) : Bytes :=
  d.take (8 * word) ++ leBytes 8 v.toNat ++ d.drop (8 * word + 8)

/-- Applies entries whose values are known, in the order given. -/
def applyPatches (d : Bytes) : List Overlay → Bytes
  | [] => d
  | o :: os => applyPatches (match o.value with
      | some v => putWord d o.word v
      | none => d) os

/-! ### Accessors of a request -/

namespace Request

/-- The opcode of a request. -/
def op (r : Request) : Nat := dOp r.desc

/-- A payload field of a request. -/
def fld (r : Request) (off n : Nat) : Nat := field r.desc off n

/-- The sequence number of a request. -/
def seq (r : Request) : Nat := nameSeq r.key.name

/-- A request whose record is still to be written. -/
def open? (r : Request) : Bool := r.state != .heldFailed

/-- A request that holds an engine: dispatched and not ended. -/
def running (r : Request) : Bool := r.state == .dispatched

end Request

end Sys2Proof.Machine
end

