-- ==== Sys2Proof/Machine/Requests.lean ====
section
/-! DEFINITION. The request table, queues and memory as every opcode uses them: finding and ending requests, module
addresses, host writes through a home port, state lines and queue errors (09, 10). -/

namespace Sys2Proof.Machine

/-! ### Queues -/

/-- The port that a queue's areas lie behind (09 R253). -/
def Queue.home (q : Queue) : Port := if q.homeb then .b else .a

/-- The code of a queue's state in its state line and its registers (09 Table 9.3). -/
def QState.code : QState → Nat
  | .active => 1
  | .error => 2
  | .destroying => 3

/-- The state line of a queue (09 Table 9.3). -/
def Queue.line64 (q : Queue) : Bytes :=
  leBytes 8 q.fhead ++ leBytes 8 q.ctail ++ leBytes 1 q.state.code ++
  (if q.state = .error then leBytes 1 q.cause else [0]) ++ leBytes 2 q.gen ++ List.replicate 44 0

/-- The name and status of an edge that failed. -/
def Edge.failure (e : Edge) : Option (W64 × Nat) :=
  match e.out with
  | .failed st => some (e.name, st)
  | _ => none

/-! ### The check code of LPDDR6 (12 R329, R330) -/

/-- The address tag of a 32-byte unit: x[15:0] XOR x[29:16] of its index x in the package. -/
def addressTag (unit : Nat) : BitVec 16 := BitVec.ofNat 16 unit ^^^ BitVec.ofNat 16 (bits unit 16 14)

/-- The 32 metadata bits that a write gives a unit: address tag, check bits, and six zero bits (Table 12.3). -/
def burstMetadata (unit : Nat) (data : BitVec 256) : BitVec 32 :=
  BitVec.ofNat 32 ((addressTag unit).toNat + 65536 * (Config.checkBits data (addressTag unit)).toNat)

/-- A stored tag is that of another address than the unit's. -/
def strayTag (unit : Nat) (tag : BitVec 16) : Bool := tag != addressTag unit

/-- A burst is uncorrectable: two bits in error, or the tag of another address (R330). -/
def burstBad (b : Burst) : Bool := b.double || strayTag b.unit b.atag

namespace Package

/-- An uncorrectable burst on a channel is counted and kept (R330, R331, R338). -/
def note (b : Burst) (ch now : Nat) (p : Package) : Package :=
  { p with
    uncorr := if b.double then satInc 16 p.uncorr else p.uncorr, tagerr := if b.double then p.tagerr else satInc 16 p.tagerr
    bad := (p.bad.filter fun x => decide (x.unit ≠ b.unit)) ++ [b]
    bursts := (p.bursts.filter fun x => decide (now ≤ x.2 + 1000)) ++ [(ch, now)]
    recurred := if p.rewritten.contains b.unit && !p.recurred.contains ch then p.recurred ++ [ch] else p.recurred }

/-- The units of certain places are written: they are no longer bad. -/
def rewrite (f : UnitPlace → Bool) (p : Package) : Package :=
  { p with
    bad := p.bad.filter fun b => !f b.place
    rewritten := p.rewritten ++ (p.bad.filter fun b => f b.place && !p.rewritten.contains b.unit).map (·.unit) }

/-- A unit has been written: it is no longer bad. -/
def rewriteUnit (unit : Nat) (p : Package) : Package :=
  if p.bad.any fun b => decide (b.unit = unit) then
    { p with
      bad := p.bad.filter fun b => decide (b.unit ≠ unit)
      rewritten := if p.rewritten.contains unit then p.rewritten else p.rewritten ++ [unit] }
  else p

/-- What certain places hold is given back: the units are free, and bad as before. -/
def release (f : UnitPlace → Bool) (p : Package) : Package :=
  { p with bad := p.bad.map fun b => if f b.place then { b with place := .free } else b }

end Package

namespace State

/-- A queue by number. -/
def queue? (s : State) (n : Nat) : Option Queue := Tbl.get? s.fe.queues n

/-- Changes a queue. -/
def updQueue (s : State) (n : Nat) (f : Queue → Queue) : State :=
  { s with fe := { s.fe with queues := Tbl.upd s.fe.queues n f } }

/-- The queue that a name belongs to, while its generation is current (10 Table 10.5). -/
def queueOf (s : State) (name : W64) : Option Queue :=
  match s.queue? (nameQueue name) with
  | some q => if q.gen = nameGen name then some q else none
  | none => none

/-! ### Host memory (13 R358-R360) -/

/-- Some host port is up, so that host memory can be reached. -/
def hostUp (s : State) : Bool := s.linkUp .a || s.linkUp .b

/-- A write to host memory by a port, dropped while both links are down. -/
def writeHost (s : State) (p : Port) (addr : Nat) (bs : Bytes) : State :=
  if s.hostUp then { s.touchHost p with host := Mem.store s.host addr bs } else s

/-- Enters the last queue error in FE_QERR (09 Table 9.15) and signals it. -/
def noteQueueError (s : State) (n cause : Nat) : State :=
  ({ s with fe := { s.fe with qerrValid := true, qerrQueue := n, qerrCause := cause } }).eventSignal

/-- Writes the state line of a queue (R233). With both links down it is lost, and an ACTIVE queue enters ERROR with cause 0x5 (09 Table
9.7; 13 R359). -/
def writeLine (s : State) (n : Nat) : State :=
  match s.queue? n with
  | some q =>
    if s.hostUp then s.writeHost q.home q.line q.line64
    else if q.state = .active then
      (s.updQueue n fun q => { q with state := .error, cause := 0x5 }).noteQueueError n 0x5
    else s
  | none => s

/-- A queue that is ACTIVE enters ERROR with a cause: its state line is written, then the event signal sent
(R233, R252, R254). -/
def queueError (s : State) (n cause : Nat) : State :=
  match s.queue? n with
  | some q =>
    if q.state = .active then
      ((s.updQueue n fun q => { q with state := .error, cause := cause }).writeLine n).noteQueueError n cause
    else s
  | none => s

/-- The home port of a queue's areas, port A for a number without a queue. -/
def homeOf (s : State) (n : Nat) : Port := ((s.queue? n).map Queue.home).getD .a

/-- A write for a queue's work. With both links down it is lost and the queue enters ERROR with cause 0x5 (13 R359). -/
def writeFor (s : State) (n addr : Nat) (bs : Bytes) : State :=
  if s.hostUp then s.writeHost (s.homeOf n) addr bs else s.queueError n 0x5

/-! ### The request table -/

/-- A request by key. -/
def req? (s : State) (k : ReqKey) : Option Request := s.fe.requests.find? fun r => decide (r.key = k)

/-- Changes a request. -/
def updReq (s : State) (k : ReqKey) (f : Request → Request) : State :=
  { s with fe := { s.fe with requests := s.fe.requests.map fun r => if r.key = k then f r else r } }

/-- Removes a request. -/
def dropReq (s : State) (k : ReqKey) : State :=
  { s with fe := { s.fe with requests := s.fe.requests.filter fun r => decide (r.key ≠ k) } }

/-- The descriptors fetched from a queue whose record is still to be written (R247); a chained one is not fetched from it. -/
def outstanding (s : State) (n : Nat) : Nat :=
  (s.fe.requests.filter fun r => decide (r.queue = n) && decide (r.key.link = 0) && r.open?).length

/-- The completion ring has room for one more record (R247, R248). -/
def recordRoom (s : State) (n : Nat) : Bool :=
  match s.queue? n with
  | some q => decide (q.ctail + s.outstanding n < q.chead + q.compN)
  | none => false

/-- A request waits on nothing but its own dispatch (10 R270, R266; 09 R243). Every edge is satisfied; FENCE orders it
against the earlier and later requests of its queue; an allocating request follows the earlier ones. -/
def mayDispatch (s : State) (r : Request) : Bool :=
  r.state == .waiting && r.edges.all (fun e => e.out == .satisfied) &&
  (r.key.link != 0 ||
    s.fe.requests.all fun o =>
      !(decide (o.queue = r.queue) && decide (o.key.link = 0) && decide (o.seq < r.seq) && o.open?) ||
      (!dFence r.desc &&
        !((o.state == .waiting || o.state == .heldPatch) &&
          (dFence o.desc || (allocating r.op && allocating o.op)))))

/-- A request that needs an engine or LPDDR6, and so waits in STANDBY (18 R466). A change of an engine half waits for ACTIVE
as well. -/
def needsEngine (r : Request) : Bool :=
  [Op.solve, Op.sample, Op.score, Op.retrieve, Op.append, Op.modelLoad, Op.modelUpdateRows, Op.modelUnload, Op.ctxReset,
    Op.ctxDestroy, Op.ctxDump, Op.siteBind, Op.engineRepair, Op.scalePolicy].contains r.op ||
  (r.op == Op.copy && ([1, 2].contains (addrSpace (r.fld 56 8)) || [1, 2].contains (addrSpace (r.fld 64 8)))) ||
  (r.op == Op.fill && [1, 2].contains (addrSpace (r.fld 56 8))) ||
  (r.op == Op.powerSet && r.fld 56 1 == 1)

/-- The module state lets a request dispatch: ACTIVE, or STANDBY where the request needs no engine (18 R466). -/
def powerOpen (s : State) (r : Request) : Bool :=
  match s.pw.mstate with
  | .active => true
  | .standby | .entering => !needsEngine r
  | .hibernate | .hibernateM => false

/-- A model belongs to a context: it stands under its tag, or for a job context in its job (14 R390). -/
def ownsModel (s : State) (id : Nat) (m : Model) : Bool :=
  m.tag == s.tagOf id || (decide (m.job ≠ 0) && decide (m.job = (s.ctx id).job))

/-- The models of a context. -/
def modelsOfCtx (s : State) (id : Nat) : List Nat := (s.models.filter fun p => s.ownsModel id p.2).map (·.1)

/-- A context has an allocation on an engine: a model, pages, chain memory or a stream (07 R199, R203). -/
def allocatedOn (s : State) (id le : Nat) : Bool :=
  s.models.any (fun p => s.ownsModel id p.2 && bitAt p.2.mask le) || !(Tbl.getD (s.ctx id).pages le []).isEmpty ||
  (bitAt (s.ctx id).grant.mask le && decide ((s.ctx id).grant.chain ≠ 0)) ||
  s.st.streams.any fun p => decide (p.2.state ≠ 0) && p.2.tag == s.tagOf id && decide (p.2.kind ≠ 3) && decide (p.2.home = le)

/-- A context has an allocation in a half-row. -/
def allocatedInRow (s : State) (id h : Nat) : Bool := (List.range 4).any fun c => s.allocatedOn id (4 * h + c)

/-- A spare shift fences a context's dispatch and asks its requests to hold (07 R199 order 2). -/
def shiftHolds (s : State) (tag : BitVec 24) : Bool :=
  (List.range 8).any fun h => ((s.fb.hrows[h]?).getD HalfRow.reset).shift.isSome && s.allocatedInRow (idOf tag) h

/-- The fence of a context has stayed up on a unit since a crash dump (11 R321). -/
def isolates (s : State) (id : Nat) (u : HwUnit) : Bool := (s.ctx id).isolated.contains u

/-- The engines of the model that a request names, as a mask. -/
def namedMask (s : State) (r : Request) : Nat :=
  if [Op.solve, Op.sample, Op.score, Op.retrieve, Op.append, Op.modelUpdateRows, Op.modelUnload].contains r.op then
    match Tbl.get? s.models (r.fld 56 8 % 4096) with
    | some m => if m.tag = r.tag then m.mask else 0
    | none => 0
  else 0

/-- No engine controller of a request keeps its fence up. -/
def controllersOpen (s : State) (r : Request) : Bool :=
  (List.range 32).all fun le => !(bitAt (s.namedMask r) le && s.isolates (idOf r.tag) (.controller le))

/-- Dispatch is open: no management-plane fault or Ward erase, firmware running, the module state as the request needs it, and
the request's context neither resetting, fenced, being dumped nor held by a spare shift (11 R313, R321, R324; 19 R491; 18 R466; 07 R199). -/
def dispatchOpen (s : State) (r : Request) : Bool :=
  !s.fe.fenced && !s.cx.mpfault && s.powerOpen r && decide (s.rs.phase = 10) &&
  (r.kernel || (s.tagLive r.tag && !(s.ctx (idOf r.tag)).fenced && (s.ctx (idOf r.tag)).dump.isNone && !s.shiftHolds r.tag &&
    s.controllersOpen r))

/-- The request that a command dispatches: in the table, of the command's opcode, and free to start. -/
def ready? (s : State) (k : ReqKey) (op : Nat) : Option Request :=
  match s.req? k with
  | some r => if r.op = op && s.mayDispatch r && s.dispatchOpen r then some r else none
  | none => none

/-- A job's run is over: its Cuff halves are free, and no credit is held or given (14 R399). -/
def closeCuffs (s : State) (job : Nat) : State :=
  if job = 0 then s
  else
    { s with pr := { s.pr with
        cuffs := s.pr.cuffs.filter fun c => decide (c.job ≠ job)
        jobs := Tbl.upd s.pr.jobs job fun x => { x with credits := [], granted := [], sentTurn := 0 } } }

/-- Takes a run out, and zeroes the stream keys of its model's records (16 R440). -/
def dropRun (s : State) (k : ReqKey) : State :=
  match s.runs.find? fun u => decide (u.key = k) with
  | none => s
  | some u =>
    { s.closeCuffs (((Tbl.get? s.models u.model).map (·.job)).getD 0) with
      runs := s.runs.filter fun v => decide (v.key ≠ k)
      models := Tbl.upd s.models u.model fun m =>
        match m.body with
        | .net n => { m with body := .net { n with rblocks := n.rblocks.map fun b => { b with key := 0, col := none } } }
        | .store _ => m }

/-- Ends a request: its status, stop reason, result words and engine stand for the record; its run is over. -/
def endReq (s : State) (k : ReqKey) (status stop : Nat) (w0 w1 : W64) (le : Nat) : State :=
  (s.dropRun k).updReq k fun r =>
    { r with
      state := .ended, hold := none, status := status, stop := stop, word0 := w0, word1 := w1, faultLe := le
      best := (s.runs.find? fun u => decide (u.key = k)).map fun u => (u.model, u.bestState.getD u.bestAt.2 []) }

/-- Ends a request with OK and its result words. -/
def okReq (s : State) (k : ReqKey) (w0 w1 : W64) : State := s.endReq k Status.ok Stop.none w0 w1 0xFFFF

/-- Ends a request with a refusal. -/
def refuse (s : State) (k : ReqKey) (x : Refuse) : State := s.endReq k x.status Stop.none x.w0 x.w1 0xFFFF

/-- Marks a request dispatched, with a hold or none. -/
def holdReq (s : State) (k : ReqKey) (h : Option Hold) : State :=
  s.updReq k fun r => { r with state := .dispatched, hold := h }

/-! ### Edges (10 R270, R271) -/

/-- What an edge comes to when it is resolved in a state (Table 10.5). The status of a predecessor whose queue
generation has gone is not recorded anywhere, so `lost` stands for it (log entry 13). -/
def edgeOut (s : State) (lost : Nat) (e : W64) : EdgeOut :=
  match s.queueOf e with
  | none => .failed lost
  | some q =>
    match s.req? ⟨e, 0⟩ with
    | some r => if r.state = .heldFailed then .failed r.status else .waiting
    | none => if nameSeq e < q.fhead % 2 ^ 40 then .satisfied else .waiting

/-- The offset of the first edge that R270 refuses: a queue of another context, or its own queue at a sequence number
not below its own. -/
def badEdge (s : State) (r : Request) : Option Nat :=
  (edgeOffsets r.op).find? fun o =>
    let e : W64 := BitVec.ofNat 64 (field r.desc o 8)
    e != 0 && match s.queueOf e with
      | none => false
      | some q => q.tag != r.tag || (decide (nameQueue e = r.queue) && decide (r.seq ≤ nameSeq e))

/-- The first failed predecessor of a request: edges in index order, then patch sources in sequence order (R271). -/
def failedDep (r : Request) : Option (W64 × Nat) :=
  match r.edges.findSome? Edge.failure with
  | some p => some p
  | none => r.patches.findSome? fun o => o.failed.map fun st =>
      (mkName (nameGen r.key.name) r.queue o.source, st)

/-- The end of a request with a failed predecessor (R271). -/
def dependencyFailed (r : Request) (dep : W64 × Nat) : Request :=
  { r with state := .ended, hold := none, status := Status.dependencyFailed, stop := 0, word0 := dep.1,
           word1 := BitVec.ofNat 64 (dep.2 % 256), faultLe := 0xFFFF }

/-- A waiting request with a failed edge ends with DEPENDENCY_FAILED (R271). -/
def failDependents (s : State) : State :=
  { s with fe := { s.fe with requests := s.fe.requests.map fun r =>
      if r.state = .waiting then
        match State.failedDep r with
        | some dep => State.dependencyFailed r dep
        | none => r
      else r } }

/-- Resolves the edges that name a request (R270). -/
def resolveEdges (s : State) (name : W64) (out : EdgeOut) : State :=
  { s with fe := { s.fe with requests := s.fe.requests.map fun r =>
      { r with edges := r.edges.map fun e => if e.name = name ∧ e.out = .waiting then { e with out := out } else e } } }

/-- Fails the edges that name requests of a queue generation that has gone (09 R261). -/
def failQueueEdges (s : State) (n gen lost : Nat) : State :=
  ({ s with fe := { s.fe with requests := s.fe.requests.map fun r =>
      { r with edges := r.edges.map fun e =>
          if nameQueue e.name = n ∧ nameGen e.name = gen ∧ e.out = .waiting then { e with out := .failed lost } else e } } } : State).failDependents

/-! ### Patches (10 R275-R277) -/

/-- Fills, fails or drops the overlay entries of a source, at the queue and in the targets fetched since. -/
def settlePatches (s : State) (n : Nat) (source : Nat) (f : Overlay → Option Overlay) : State :=
  let g := fun o => if o.queue = n ∧ o.source = source then f o else some o
  { s with fe := { s.fe with
      overlay := s.fe.overlay.filterMap g
      requests := s.fe.requests.map fun r => { r with patches := r.patches.filterMap g } } }

/-- The overlay entries of a queue that other sources hold (R276). A source that is refused for want of entries holds none: its targets
stand in the list only to fail (R277). -/
def overlayOthers (s : State) (r : Request) : List Overlay :=
  s.fe.overlay.filter fun o => decide (o.queue = r.queue) && decide (o.source ≠ r.seq) && !o.beyond

/-- The entries of a source whose targets its queue has not fetched yet (R276). -/
def ownEntries (s : State) (r : Request) : List Overlay :=
  (dPatches r.queue r.seq r.desc).filter fun o =>
    (s.queue? r.queue).any fun q => decide ((o.target + 2 ^ 40 - q.fhead % 2 ^ 40) % 2 ^ 40 < 2 ^ 39)

/-- Reserves the overlay entries of a source, in place of the ones it had, while the queue has room for them (R275, R276). -/
def reserveOverlay (s : State) (r : Request) : State :=
  let own := s.ownEntries r
  let fits := decide ((s.overlayOthers r).length + own.length ≤ 64)
  { s with fe := { s.fe with
      overlay := (s.fe.overlay.filter fun o => !(decide (o.queue = r.queue) && decide (o.source = r.seq))) ++
        own.map fun o => { o with beyond := !fits } } }

/-- Checks a descriptor whose patches are applied, reserves its own overlay entries, and enters it waiting with its
edges resolved, or ended with the refusal (10 R265, R270, R275, R276). A source that is refused keeps the entries that
fail its targets. -/
def enter (s : State) (k : ReqKey) (lost : Nat) : State :=
  match s.req? k with
  | none => s
  | some r =>
    let need := (s.overlayOthers r).length + (s.ownEntries r).length
    match checkDescriptor r.desc r.kernel false (s.badEdge r) with
    | some x => (s.reserveOverlay r).refuse k x
    | none =>
      if 64 < need then s.refuse k (Refuse.capacity (Refuse.report 0x10 false false 0 0 0) (need - 64))
      else
        ((s.reserveOverlay r).updReq k fun r =>
          { r with state := .waiting, edges := (dEdges r.desc).map fun e => ⟨e, s.edgeOut lost e⟩ }).failDependents

/-- A target whose sources have all completed: the overlay is applied in ascending sequence of the sources, then the
target is entered, or fails where a source failed (R271, R277). -/
def releaseOne (lost : Nat) (s : State) (k : ReqKey) : State :=
  match s.req? k with
  | none => s
  | some r =>
    let r' := { r with desc := applyPatches r.desc (sortBy (fun a b => decide (a.source ≤ b.source)) r.patches) }
    let r'' := { r' with edges := (dEdges r'.desc).map fun e => ⟨e, s.edgeOut lost e⟩ }
    if r.patches.all (fun o => o.value.isSome) then (s.updReq k fun _ => r').enter k lost
    else
      match State.failedDep r'' with
      | some dep => ((s.updReq k fun _ => State.dependencyFailed r'' dep)).reserveOverlay r''
      | none => s

/-- Releases every target whose sources have all completed (R277). -/
def releasePatched (s : State) (lost : Nat) : State :=
  ((s.fe.requests.filter fun r =>
    r.state == .heldPatch && r.patches.all fun o => o.value.isSome || o.failed.isSome).map (·.key)).foldl
      (State.releaseOne lost) s

/-! ### LPDDR6 (12 R328-R331) -/

/-- A package. -/
def pkg (s : State) (k : Nat) : Package := (s.hb.pkgs[k]?).getD Package.reset

/-- Changes a package. -/
def updPkg (s : State) (k : Nat) (f : Package → Package) : State :=
  { s with hb := { s.hb with pkgs := updAt s.hb.pkgs k f } }

/-- The physical channel of a 32-byte unit of a package: the words go round its working channels (R328). -/
def channelOf (p : Package) (unit : Nat) : Nat :=
  let up := (List.range 4).filter fun c => !(p.state == 1 && bitAt p.failch.toNat c)
  up.getD (unit / 2 % max up.length 1) 0

/-- Counts a burst whose one bad bit was corrected (R330). -/
def countBurstCorr (s : State) (k : Nat) : State := s.updPkg k fun p => { p with corr := satInc 16 p.corr }

/-- An uncorrectable burst is counted, logged in HB_ECCLOG with the context of its transfer or 0 (R330, Table 12.13), and kept as
a bad unit. -/
def noteBurst (s : State) (b : Burst) (ctx : Nat) : State :=
  let ch := channelOf (s.pkg b.pkg) b.unit
  { s with hb := { s.hb with
      logUnit := b.unit, logPkg := b.pkg, logCh := ch, logSub := b.unit % 2, logKind := !b.double, logValid := true, logCtx := ctx
      pkgs := updAt s.hb.pkgs b.pkg (Package.note b ch s.now) } }

/-- Units of a package are written, and have a good check code again (R331). -/
def rewriteUnits (s : State) (k : Nat) (f : UnitPlace → Bool) : State := s.updPkg k (Package.rewrite f)

/-- What certain places hold is given back on every package. -/
def releaseUnits (s : State) (f : UnitPlace → Bool) : State :=
  { s with hb := { s.hb with pkgs := s.hb.pkgs.map (Package.release f) } }

/-- The units of a context's data space that a write of a range covers whole are rewritten. -/
def rewriteRange (s : State) (ctx a n : Nat) : State :=
  if addrSpace a = 1 then
    s.rewriteUnits (addrLe a) fun p => match p with
      | .page c off => decide (c = ctx) && decide (addrOff a ≤ off) && decide (off + 32 ≤ addrOff a + n)
      | _ => false
  else s

/-! ### Module addresses (10 R268, 12 R336) -/

/-- The bytes of a space that an access may reach: none where the address names no allocation of the request. -/
def reachOk (s : State) (r : Request) (a n : Nat) (pages : Bool) : Except Nat Unit :=
  let c := s.ctx (idOf r.tag)
  let le := addrLe a
  let off := addrOff a
  let granted := !r.kernel && bitAt c.grant.mask le
  if addrSpace a = 0 then (if le = 0 then .ok () else .error Status.invalidField)
  else if addrSpace a = 1 then
    if granted && decide (off + n ≤ 2 ^ 35) &&
        (!pages || (List.range (ceilDiv (off % 2 ^ 21 + n) (2 ^ 21))).all fun i =>
          (Tbl.getD c.pages le []).contains (off / 2 ^ 21 + i)) then .ok ()
    else .error Status.invalidField
  else if addrSpace a = 2 then
    if granted && decide (off + n ≤ c.grant.chain * 131072) then .ok () else .error Status.invalidField
  else if addrSpace a = 3 then
    if r.kernel = false then .error Status.privilege
    else if le = 0 ∧ off + n ≤ 8388608 then .ok () else .error Status.invalidField
  else .error Status.invalidField

/-- A transfer can proceed: host memory through a link that is up, common SRAM once it is clear (13 R359, 12 R351). -/
def transferUp (s : State) (a : Nat) : Bool :=
  if addrSpace a = 0 then s.hostUp else if addrSpace a = 3 then !s.cs.clearing else true

/-- The refusal of an access at a byte offset of a structure. -/
def accessRefuse (r : Request) (st off struct : Nat) : Refuse :=
  if st = Status.privilege then Refuse.privilege r.op else Refuse.field off struct

/-- Reads a range that `reachOk` allows. -/
def readSpace (s : State) (r : Request) (a n : Nat) : Bytes :=
  let c := s.ctx (idOf r.tag)
  if addrSpace a = 0 then Mem.bytes s.host (addrOff a) n
  else if addrSpace a = 1 then Mem.bytes (Tbl.getD c.space (addrLe a) []) (addrOff a) n
  else if addrSpace a = 2 then Mem.bytes (Tbl.getD c.chain (addrLe a) []) (addrOff a) n
  else Mem.bytes s.cs.mem (addrOff a) n

/-- Stores bytes in common SRAM; a word written whole has valid check bits again (12 R348). -/
def csStore (s : State) (off : Nat) (bs : Bytes) : State :=
  { s with cs := { s.cs with
      mem := Mem.store s.cs.mem off bs
      bad := s.cs.bad.filter fun w => !(decide (off ≤ 8 * w) && decide (8 * w + 8 ≤ off + bs.length)) } }

/-- Writes bytes into a context's data space: what lies in pages that are allocated (12 R336, R339). -/
def writePages (s : State) (ctx a : Nat) (bs : Bytes) : State :=
  let le := addrLe a
  let held := Tbl.getD (s.ctx ctx).pages le []
  let here := (List.range bs.length).filter fun i => held.contains ((addrOff a + i) / 2 ^ 21)
  let put := fun (m : Mem) =>
    if here.length = bs.length then Mem.store m (addrOff a) bs
    else here.foldl (fun m i => Mem.put m (addrOff a + i) (bs.getD i 0)) m
  (s.updCtx ctx fun c => { c with space := Tbl.put c.space le (put (Tbl.getD c.space le [])) }).rewriteRange ctx a bs.length

/-- Writes a range that `reachOk` allows. -/
def writeSpace (s : State) (r : Request) (a : Nat) (bs : Bytes) : State :=
  let le := addrLe a
  if bs.isEmpty then s
  else if addrSpace a = 0 then s.writeFor r.queue (addrOff a) bs
  else if addrSpace a = 1 then s.writePages (idOf r.tag) a bs
  else if addrSpace a = 2 then
    s.updCtx (idOf r.tag) fun c => { c with chain := Tbl.put c.chain le (Mem.store (Tbl.getD c.chain le []) (addrOff a) bs) }
  else s.csStore (addrOff a) bs

/-! ### Models (08 R214) -/

/-- A taken entry of the model table. -/
def model? (s : State) (i : Nat) : Option Model := Tbl.get? s.models i

/-- Changes a model. -/
def updModel (s : State) (i : Nat) (f : Model → Model) : State := { s with models := Tbl.upd s.models i f }

/-- Changes the network of a model. -/
def updNet (s : State) (i : Nat) (f : Net → Net) : State :=
  s.updModel i fun m => match m.body with
    | .net n => { m with body := .net (f n) }
    | .store _ => m

/-- Changes the store of a model table entry. -/
def updStore (s : State) (i : Nat) (f : Store → Store) : State :=
  s.updModel i fun m => match m.body with
    | .store h => { m with body := .store (f h) }
    | .net _ => m

/-- The network of a model. -/
def net? (s : State) (i : Nat) : Option Net :=
  match s.model? i with
  | some m => match m.body with
    | .net n => some n
    | .store _ => none
  | none => none

/-- The history store of an entry. -/
def store? (s : State) (i : Nat) : Option Store :=
  match s.model? i with
  | some m => match m.body with
    | .store h => some h
    | .net _ => none
  | none => none

/-- The handle of an entry (R214). -/
def handleOf (i : Nat) (m : Model) : W64 := pack [(0, 12, i), (12, 16, m.gen), (28, 24, m.tag.toNat)]

/-- A job has all its parts (14 R393). -/
def jobLoaded (s : State) (job : Nat) : Bool :=
  decide (job = 0) || (Tbl.get? s.pr.jobs job).any fun j => j.state == .loaded

/-- The entry that a handle names for a context, loaded and not unloading (R214, R228); one of a job once the job has loaded (14
R393). -/
def handle? (s : State) (r : Request) (h : Nat) : Option Nat :=
  let i := h % 4096
  match s.model? i with
  | some m =>
    if (handleOf i m).toNat = h ∧ m.tag = r.tag ∧ m.loading = false ∧ m.unloading = none ∧ m.gone = false ∧ r.kernel = false ∧
        s.jobLoaded m.job = true
    then some i else none
  | none => none

/-- The job that is being aborted to whose part on this node a handle of the owner names (14 R402). -/
def abortingJob? (s : State) (r : Request) (h : Nat) : Option Nat :=
  match s.model? (h % 4096) with
  | some m =>
    match Tbl.get? s.pr.jobs m.job with
    | some j =>
      if (handleOf (h % 4096) m).toNat = h ∧ m.tag = r.tag ∧ r.kernel = false ∧ m.job ≠ 0 ∧ j.state = .aborting then
        some m.job
      else none
    | none => none
  | none => none

/-- A request that names a job being aborted waits for the report of the abort, and ends with it (14 R402). -/
def joinAbort (s : State) (k : ReqKey) (job : Nat) : State :=
  let t := s.holdReq k (some .peer)
  { t with pr := { t.pr with jobs := Tbl.upd t.pr.jobs job fun j => { j with waiters := j.waiters ++ [k] } } }

/-- A request whose handle is not current is refused at a byte of its payload, or joins the abort of its job. -/
def badHandle (s : State) (k : ReqKey) (r : Request) (off : Nat) : State :=
  match s.abortingJob? r (r.fld off 8) with
  | some job => s.joinAbort k job
  | none => s.refuse k (Refuse.field off 0)

/-- The run on a model. -/
def runOn (s : State) (i : Nat) : Option Run := s.runs.find? fun u => decide (u.model = i)

/-- Changes a run. -/
def updRun (s : State) (k : ReqKey) (f : Run → Run) : State :=
  { s with runs := s.runs.map fun u => if u.key = k then f u else u }

/-- Every kept state of a model becomes invalid (10 R283). -/
def invalidateKept (s : State) (i : Nat) : State := s.updNet i fun n => { n with valid := n.valid.map fun _ => false }

/-! ### FAULT_DATA (03 R84) -/

/-- A request fails with FAULT_DATA on a logical engine: it ends on every engine, the locator stands in its words and
in EN_FAULTLOC, its context in CX_FAULTCTX, and the kept states of a model it ran on are invalid. -/
def faultData (s : State) (k : ReqKey) (le cls su addr lane rblk : Nat) : State :=
  match s.req? k with
  | none => s
  | some r =>
    let loc := locator cls su addr lane rblk
    let s1 := match s.runs.find? fun u => decide (u.key = k) with
      | some u => s.invalidateKept u.model
      | none => s
    ((s1.noteSiteFault (s.siteOf le) cls su loc).noteContext r.tag 0x6 le su 0).endReq k Status.faultData Stop.none loc 0 le

/-! ### FAULT_DATA of LPDDR6 (12 R331, R339) -/

/-- FAULT_DATA of work that lost its LPDDR6 (R331, R339): no engine location applies. -/
def faultMemory (s : State) (k : ReqKey) (le : Nat) : State :=
  match s.req? k with
  | none => s
  | some r =>
    let s1 := match s.runs.find? fun u => decide (u.key = k) with
      | some u => s.invalidateKept u.model
      | none => s
    (s1.noteContext r.tag 0x6 (if le = 0xFFFF then 0 else le) 0 0).endReq k Status.faultData Stop.none 0 0 le

/-- FAULT_DATA of an uncorrectable LPDDR6 burst (R331). -/
def faultLpddr (s : State) (k : ReqKey) (b : Burst) : State :=
  match s.req? k with
  | none => s
  | some r => (s.noteBurst b (idOf r.tag)).faultMemory k b.pkg

/-! ### Common SRAM words (12 R348) -/

/-- An uncorrectable word is counted, logged and signalled; `port` is true for port B and for a kernel command. -/
def csError (s : State) (port rmw : Bool) (w : Nat) : State :=
  ({ s with cs := { s.cs with
      uncorr := satInc 8 s.cs.uncorr, errWord := w, errValid := true, errPort := port, errRmw := rmw
      bad := if s.cs.bad.contains w then s.cs.bad else s.cs.bad ++ [w] } }).eventSignal

/-- A single-bit error is corrected, written back and counted. -/
def countWordCorr (s : State) : State := { s with cs := { s.cs with corr := satInc 16 s.cs.corr } }

/-! ### What a request's transfer meets in the memory that it reads (12 R330, R331, R348; 03 R83) -/

/-- What a transfer met: nothing that stops it, or what fails its request. -/
inductive Met where
  | clean
  | burst (b : Burst)
  | word (w : Nat)
  | chain (le addr : Nat)
  deriving DecidableEq, Repr

/-- The unit of a burst lies in a range of a context's memory that is read. -/
def burstIn (ctx : Nat) (b : Burst) (x : Nat × Nat) : Bool :=
  decide (addrSpace x.1 = 1) && decide (addrLe x.1 = b.pkg) && (match b.place with
    | .page c off => decide (c = ctx) && decide (off < addrOff x.1 + x.2) && decide (addrOff x.1 < off + 32)
    | _ => false)

/-- A word of common SRAM lies in a range that is read. -/
def wordIn (w : Nat) (x : Nat × Nat) : Bool :=
  decide (addrSpace x.1 = 3) && decide (8 * w < addrOff x.1 + x.2) && decide (addrOff x.1 < 8 * w + 8)

/-- A range that is read takes bytes of a space on an engine. -/
def spaceIn (space le : Nat) (x : Nat × Nat) : Bool := decide (addrSpace x.1 = space) && decide (addrLe x.1 = le) && decide (x.2 ≠ 0)

/-- What is known to be bad in ranges that a request reads. -/
def knownBad (s : State) (r : Request) (reads : List (Nat × Nat)) : Met :=
  match reads.findSome? fun x => (s.pkg (addrLe x.1)).bad.find? fun b => burstIn (idOf r.tag) b x with
  | some b => .burst b
  | none =>
    match s.cs.bad.find? fun w => reads.any (wordIn w) with
    | some w => .word w
    | none => .clean

/-- What a transfer meets in the ranges that it reads, as address and length: the state with corrected errors counted. A finding
about memory that the transfer does not read changes nothing (log entry 3). -/
def sourceMet (s0 : State) (r : Request) (reads : List (Nat × Nat)) (find : SourceFind) : State × Met :=
  let s := if reads.any (spaceIn 0 0) then s0.touchHost (s0.homeOf r.queue) else s0
  match s.knownBad r reads with
  | .clean =>
    match find with
    | .clean => (s, .clean)
    | .burstCorrected k => (if reads.any (spaceIn 1 k) then s.countBurstCorr k else s, .clean)
    | .burstBad b => (s, if burstBad b && reads.any (burstIn (idOf r.tag) b) then .burst b else .clean)
    | .wordCorrected => (if reads.any (spaceIn 3 0) then s.countWordCorr else s, .clean)
    | .wordBad w => (s, if reads.any (wordIn w) then .word w else .clean)
    | .chainCorrected le => (if reads.any (spaceIn 2 le) then s.countSramCorr (s.siteOf le) else s, .clean)
    | .chainBad le a => (s, if reads.any (spaceIn 2 le) then .chain le a else .clean)
  | x => (s, x)

/-- A request fails with what its transfer met. An uncorrectable word of common SRAM fails it like a burst (DEDUCED, log entry
115). -/
def failMet (s : State) (k : ReqKey) (met : Met) : State :=
  match met with
  | .clean => s
  | .burst b => s.faultLpddr k b
  | .word w => (s.csError true false w).faultMemory k 0xFFFF
  | .chain le a => s.faultData k le 2 0 a 0 0

end State

end Sys2Proof.Machine
end

