-- ==== Sys2Proof/Machine/Image.lean ====
section
/-! DEFINITION. Model images: layout, the checks of orders 1 to 4 and 6 of MODEL_LOAD with their locators, and the
reading of blocks, placements, stitch lists, groups, pairs and store records (08 R205-R220). -/

namespace Sys2Proof.Machine

/-- A check: nothing, or the refusal it gives. -/
abbrev Chk := Option Refuse

namespace Img

/-- INVALID_FIELD at an offset of the image, with a check code (R218). -/
def bad (off check : Nat) : Refuse := ⟨Status.invalidField, BitVec.ofNat 64 off, BitVec.ofNat 64 check⟩

/-- A range check of a field (check 0x02). -/
def rng (ok : Bool) (off : Nat) : Chk := if ok then none else some (bad off 2)

/-- A structure check (check 0x01). -/
def str (ok : Bool) (off : Nat) : Chk := if ok then none else some (bad off 1)

/-- A check of reserved bits. -/
def rsv (ok : Bool) (off : Nat) : Chk := if ok then none else some (Refuse.reserved off 9)

/-- A reserved field of whole bytes: the refusal names the field's offset (R218). -/
def rsvBytes (d : Bytes) (lo n : Nat) : Chk := rsv (uncovered d [] lo n).isEmpty lo

/-- The first check that fails. -/
def first : List Chk → Chk
  | [] => none
  | some x :: _ => some x
  | none :: rest => first rest

/-! ### Header fields (Table 8.1) -/

def kind (d : Bytes) : Nat := field d 5 1
def flags (d : Bytes) : Nat := field d 6 2
def enc (d : Bytes) : Bool := bitAt (flags d) 0
def relaxed (d : Bytes) : Bool := bitAt (flags d) 1
def heatbath (d : Bytes) : Bool := bitAt (flags d) 2
def length (d : Bytes) : Nat := field d 8 8
def quantum (d : Bytes) : Nat := field d 16 2
def blocks (d : Bytes) : Nat := field d 18 2
def reps (d : Bytes) : Nat := field d 20 2
def colours (d : Bytes) : Nat := field d 22 1
def sx (d : Bytes) : Nat := field d 23 1 % 16
def ladder (d : Bytes) : Nat := field d 24 1
def banks (d : Bytes) : Nat := field d 25 1
def sections (d : Bytes) : Nat := field d 26 2
def modules (d : Bytes) : Nat := field d 28 1
def node (d : Bytes) : Nat := field d 29 1
def mask (d : Bytes) : Nat := field d 32 4
def const (d : Bytes) : Int := toSigned 64 (field d 40 8)
def model (d : Bytes) : Bool := kind d == 0

/-- The engines of the mask, ascending. -/
def engines (d : Bytes) : List Nat := (List.range 32).filter fun k => bitAt (mask d) k

/-- Order 1 of Table 8.7 on bytes 0-255, the payload's length and job field (R206, R215, R219, R288). -/
def order1 (d : Bytes) (len job : Nat) : Chk :=
  first [
    str (field d 0 4 == 0x4D49464C) 0,
    (if field d 4 1 % 16 ≠ 1 then some (Refuse.version (field d 4 1 % 16)) else none),
    rng (decide (kind d ≤ 1)) 5,
    str (decide (length d % 64 = 0) && decide (256 ≤ length d) && decide (length d = len)) 8,
    rsv (decide (field d 4 1 / 16 = 0)) 4,
    rsv (decide (flags d / 8 = 0)) 6,
    rsv (decide (field d 23 1 / 16 = 0)) 23,
    rsvBytes d 30 2, rsvBytes d 36 4, rsvBytes d 48 16,
    (if enc d then first [rsvBytes d 66 2, rsvBytes d 96 32] else rsvBytes d 64 192),
    rng (decide (job ≠ 0) == decide (1 < modules d)) 28]

/-- Header ranges of a model, or of a store, whose fields marked "0 for a store" must be 0 (R206). A replica count out of range
is found here, at order 3, before order 5 could find it short (04 R93; log entry 111). -/
def header (d : Bytes) (nodeZero : Bool) : Chk :=
  first [
    (if model d then
      first [
        rng (decide (1 ≤ blocks d) && decide (blocks d ≤ 4096)) 18,
        rng (decide (1 ≤ reps d) && decide (reps d ≤ 1024)) 20,
        rng (if relaxed d then colours d == 0 else decide (1 ≤ colours d) && decide (colours d ≤ 8)) 22,
        (if nodeZero then rng (decide (ladder d ≤ 31) && bitAt (mask d) (ladder d)) 24 else rng (ladder d == 0) 24)]
     else
      first [
        rng (!relaxed d && !heatbath d) 6, rng (quantum d == 0) 16, rng (blocks d == 0) 18, rng (reps d == 0) 20,
        rng (colours d == 0) 22, rng (ladder d == 0) 24]),
    rng (decide (banks d ≤ 30)) 25,
    rng (decide (1 ≤ sections d) && decide (sections d ≤ 1024)) 26,
    rng (decide (1 ≤ modules d) && decide (modules d ≤ 64)) 28,
    rng (decide (node d ≤ 63) && (decide (1 < modules d) || node d == 0)) 29,
    rng (decide (mask d ≠ 0)) 32,
    (if model d && !nodeZero then rng (const d == 0) 40 else none)]

/-! ### The section directory (R207, R208) -/

/-- A directory entry, with its own offset. -/
structure Sec where
  typ   : Nat
  index : Nat
  len   : Nat
  off   : Nat
  at_   : Nat
  deriving DecidableEq, Repr

def sec (d : Bytes) (i : Nat) : Sec :=
  let e := 256 + 16 * i
  { typ := field d e 2, index := field d (e + 2) 2, len := field d (e + 4) 4, off := field d (e + 8) 8, at_ := e }

/-- The directory. -/
def secs (d : Bytes) : List Sec := (List.range (sections d)).map (sec d)

/-- The section of a type and index. -/
def sec? (d : Bytes) (typ index : Nat) : Option Sec := (secs d).find? fun x => x.typ == typ && x.index == index

/-- The bytes of a section, empty where there is none. -/
def body (d : Bytes) (typ index : Nat) : Bytes :=
  match sec? d typ index with
  | some x => slice d x.off x.len
  | none => []

/-- Where a section lies. -/
def offOf (d : Bytes) (typ index : Nat) : Nat := ((sec? d typ index).map (·.off)).getD 0

/-- Two byte ranges meet. -/
def meets (a n b m : Nat) : Bool := decide (0 < n) && decide (0 < m) && decide (a < b + m) && decide (b < a + n)

/-- One directory entry, after the ones before it (R207, R208). -/
def secOk (d : Bytes) (before : List Sec) (x : Sec) : Chk :=
  let wide := [0x1, 0x8, 0x9, 0xC, 0xD].contains x.typ
  let perBlock := [0x3, 0x4, 0x5, 0x6, 0x7].contains x.typ
  first [
    str (if model d then decide (1 ≤ x.typ) && decide (x.typ ≤ 0xC) else [0xC, 0xD].contains x.typ) x.at_,
    str (!wide || x.index == 0) (x.at_ + 2),
    str (!perBlock || decide (x.index < blocks d)) x.at_,
    str (wide || perBlock || bitAt (mask d) x.index) x.at_,
    str (x.typ != 0xB || decide (banks d ≠ 0)) x.at_,
    str (!(before.any fun y => y.typ == x.typ && y.index == x.index)) x.at_,
    str (decide (x.off % 64 = 0) && decide (x.off + x.len ≤ length d)) (x.at_ + 8),
    str (!meets x.off x.len 0 (256 + 16 * sections d) && !(before.any fun y => meets x.off x.len y.off y.len)) (x.at_ + 8)]

def secsOk (d : Bytes) : List Sec → List Sec → Chk
  | _, [] => none
  | before, x :: rest =>
    match secOk d before x with
    | some e => some e
    | none => secsOk d (before ++ [x]) rest

/-- The directory lies in the image and its entries are good. -/
def directory (d : Bytes) : Chk :=
  first [str (decide (256 + 16 * sections d ≤ length d)) 26, secsOk d [] (secs d)]

/-- A section that must be there, of a length; where it is missing, Table 8.15 says where the refusal lies. -/
def want (d : Bytes) (typ index len miss : Nat) : Chk :=
  match sec? d typ index with
  | none => some (bad miss 1)
  | some x => str (x.len == len) (x.at_ + 4)

/-- A section that must not be there (R208). -/
def unwanted (d : Bytes) (typ index : Nat) : Chk := (sec? d typ index).map fun x => bad x.at_ 1

/-! ### Block entries (R209) -/

/-- A block entry, with its offset in the image. -/
structure BEntry where
  at_    : Nat
  n      : Nat
  q      : Nat
  fmt    : Nat
  sb     : Nat
  scaled : Nat
  du     : Nat
  colour : Nat
  e      : Nat
  h      : Nat
  deriving DecidableEq, Repr

def bentry (d : Bytes) (k : Nat) : BEntry :=
  let a := offOf d 1 0 + 32 * k
  { at_ := a, n := field d a 2, q := field d (a + 2) 1, fmt := field d (a + 3) 1, sb := field d (a + 4) 1 % 8,
    scaled := field d (a + 5) 1, du := field d (a + 6) 1, colour := field d (a + 7) 1, e := field d (a + 8) 4,
    h := field d (a + 12) 4 }

def bentries (d : Bytes) : List BEntry := (List.range (blocks d)).map (bentry d)

/-- Bits of a code (R29). -/
def codeBits (fmt : Nat) : Nat := if fmt = 0 then 1 else if fmt = 1 then 4 else 8

/-- Bytes of a code row (R27). -/
def rowBytes (fmt n : Nat) : Nat := 8 * ceilDiv n 64 * codeBits fmt

def bentryOk (d : Bytes) (b : BEntry) : Chk :=
  first [
    rng (decide (1 ≤ b.n) && decide (b.n ≤ 8192)) b.at_,
    rng (b.q == 0 || (decide (2 ≤ b.q) && decide (b.q ≤ 16))) (b.at_ + 2),
    rng (decide (b.fmt ≤ 2)) (b.at_ + 3),
    rsv (decide (field d (b.at_ + 4) 1 / 8 = 0)) (b.at_ + 4),
    rng (decide (b.scaled ≤ 1)) (b.at_ + 5),
    rng (b.scaled == 0 || b.du == 0) (b.at_ + 6),
    rng (if relaxed d then b.colour == 0 else decide (b.colour < colours d)) (b.at_ + 7),
    rng (decide (b.e ≤ 2097152)) (b.at_ + 8),
    rsvBytes d (b.at_ + 16) 16]

/-- The per-block sections of a block (R208, Table 8.15). -/
def blockSections (d : Bytes) (k : Nat) (b : BEntry) : Chk :=
  first [
    want d 3 k (b.n * rowBytes b.fmt b.n) b.at_,
    (if b.scaled = 1 then want d 4 k (64 * ceilDiv b.n 64) (b.at_ + 5) else unwanted d 4 k),
    want d 5 k (4 * b.n * max b.q 1) b.at_,
    (if b.e ≠ 0 then want d 6 k (4 * b.e) (b.at_ + 8) else unwanted d 6 k),
    (if b.h ≠ 0 then want d 7 k (8 * b.h) (b.at_ + 12) else unwanted d 7 k)]

/-! ### Placements (R210) -/

/-- A placement with its offset in the image. -/
def place (d : Bytes) (le i : Nat) : Place × Nat :=
  let a := offOf d 2 le + 16 * i
  ({ le := le, block := field d a 2, su := field d (a + 2) 1, pair := bitAt (field d (a + 3) 1) 0,
     odd := bitAt (field d (a + 3) 1) 1, first := field d (a + 4) 2, count := field d (a + 6) 2 }, a)

def placesOf (d : Bytes) (le : Nat) : List (Place × Nat) :=
  (List.range ((body d 2 le).length / 16)).map (place d le)

/-- The placements of an engine that bring a copy of their block: the replica-blocks of one block on the even and on the odd
unit of a slice pair share the copy that the pair holds (R28; log entry 112). -/
def copies : List Place → List Place
  | [] => []
  | p :: ps => p :: (copies ps).filter fun y => !(p.pair && y.pair && y.su == p.su && y.block == p.block)

def places (d : Bytes) : List (Place × Nat) := (engines d).flatMap (placesOf d)

/-- A slice belongs to a pair (R28). -/
def placeUnits (p : Place) : List Nat := if p.pair then [p.su, p.su + 1] else [p.su]

/-- The unit that runs the replica-blocks of a placement (R51). -/
def placeUnit (p : Place) : Nat := if p.pair && p.odd then p.su + 1 else p.su

def placeOk (d : Bytes) (p : Place) (a : Nat) : Chk :=
  let b := bentry d p.block
  first [
    rng (decide (p.block < blocks d)) a,
    rng (decide (p.su ≤ 7) && (!p.pair || p.su % 2 == 0)) (a + 2),
    rsv (decide (field d (a + 3) 1 / 4 = 0)) (a + 3),
    rng (p.pair == (b.fmt == 2 && decide (5762 ≤ b.n)) && (p.pair || !p.odd)) (a + 3),
    rng (decide (p.first + p.count ≤ reps d)) (a + 4),
    rng (decide (1 ≤ p.count)) (a + 6),
    rsvBytes d (a + 8) 8]

/-- Neither unit of a slice pair holds another block (R28). -/
def pairAlone (ps : List (Place × Nat)) (x : Place × Nat) : Chk :=
  rng (ps.all fun y => !(y.1.pair && y.1.block != x.1.block && (placeUnits x.1).any (placeUnits y.1).contains)) (x.2 + 2)

def placeSection (d : Bytes) (le : Nat) : Chk :=
  match sec? d 2 le with
  | none => some (bad 32 1)
  | some x =>
    first (str (decide (x.len % 16 = 0)) (x.at_ + 4) :: (placesOf d le).map (fun y => placeOk d y.1 y.2) ++
      (placesOf d le).map (pairAlone (placesOf d le)))

/-- A block's placements, by first replica, serve replicas 0 to R - 1 each once (R92, R210). -/
def servedFrom (d : Bytes) (k : Nat) : Nat → List (Place × Nat) → Chk
  | next, [] => rng (next == reps d) (bentry d k).at_
  | next, x :: rest => if x.1.first = next then servedFrom d k (next + x.1.count) rest else some (bad (x.2 + 4) 2)

def served (d : Bytes) (k : Nat) : Chk :=
  servedFrom d k 0 (sortBy (fun a b => decide (a.1.first ≤ b.1.first)) ((places d).filter fun x => x.1.block == k))

/-! ### Links and stitch lists (R182, R211; 07 R178) -/

/-- The two logical engines of a link: its first end and its second. -/
def linkEnds (l : Nat) : Nat × Nat :=
  if l < 24 then
    let a := 4 * (l / 3) + l % 3
    (a, a + 1)
  else if l < 48 then
    let k := l - 24
    let a := 16 * (k / 12) + 4 * (k % 12 / 4) + k % 4
    (a, a + 4)
  else
    let r := (l - 48) / 2
    (4 * r, 16 + 4 * r)

/-- A link ends at an engine. -/
def endsAt (l le : Nat) : Bool := decide (l ≤ 55) && ((linkEnds l).1 == le || (linkEnds l).2 == le)

/-- The hem lanes needed on each link. -/
def links (d : Bytes) : List Nat := (body d 9 0).map (·.toNat)

/-- One stitch list with its offset: header word, link, virtual lane and position words. -/
structure StitchRaw where
  le    : Nat
  at_   : Nat
  head  : Nat
  words : List Nat
  deriving DecidableEq, Repr

/-- Splits a STITCH section; a list that does not fit is given with its offset. -/
def stitchLists (le base : Nat) (b : Bytes) : Nat → Nat → Except Refuse (List StitchRaw)
  | 0, _ => .ok []
  | fuel + 1, o =>
    if b.length ≤ o then .ok []
    else if b.length < o + 8 then .error (bad (base + o) 1)
    else
      let h := field b o 8
      let n := bits h 8 16
      let stop := o + 8 + roundUp (4 * n) 8
      if b.length < stop then .error (bad (base + o + 1) 1)
      else
        match stitchLists le base b fuel stop with
        | .error e => .error e
        | .ok rest =>
          .ok ({ le := le, at_ := base + o, head := h, words := (List.range n).map fun i => field b (o + 8 + 4 * i) 4 } :: rest)

def stitchOf (d : Bytes) (le : Nat) : Except Refuse (List StitchRaw) :=
  stitchLists le (offOf d 10 le) (body d 10 le) ((body d 10 le).length / 8 + 1) 0

/-- Every list of the image, where the sections can be split. -/
def stitches (d : Bytes) : List StitchRaw :=
  (engines d).flatMap fun le =>
    match stitchOf d le with
    | .ok l => l
    | .error _ => []

def stitchLink (x : StitchRaw) : Nat := x.head % 64
def stitchLane (x : StitchRaw) : Nat := bits x.head 6 2

def stitchOk (d : Bytes) (x : StitchRaw) : Chk :=
  let n := x.words.length
  first ([
    rsv (decide (x.head / 2 ^ 24 = 0)) (x.at_ + 3),
    rng (endsAt (stitchLink x) x.le) x.at_,
    rng (decide (stitchLane x < (links d).getD (stitchLink x) 0)) x.at_,
    rng (decide (1 ≤ n)) (x.at_ + 1)] ++
    mapIdxFrom (fun i w =>
      let a := x.at_ + 8 + 4 * i
      first [
        rsv (decide (w / 2 ^ 13 = 0)) (a + 1), rng (decide (w % 4 ≤ 1)) a,
        rng (w % 4 == 0 || (endsAt (bits w 5 6) x.le &&
          (stitches d).any fun y => y.le != x.le && stitchLink y == bits w 5 6 && stitchLane y == bits w 11 2)) a]) 0 x.words ++
    [rsvBytes d (x.at_ + 8 + 4 * n) (roundUp (4 * n) 8 - 4 * n)])

def stitchSection (d : Bytes) (le : Nat) : Chk :=
  match stitchOf d le with
  | .error e => some e
  | .ok l => first (l.map (stitchOk d))

/-- A directory entry of SPDIR. -/
def spdir (d : Bytes) (k t : Nat) : SpDir :=
  let w := field d (offOf d 7 k + 8 * t) 8
  { var := bits w 0 13, blk := bits w 13 12, first := bits w 32 21 }

/-- An engine sends hem words: a block placed on it is a source of a block that the same replica has on another engine (R208;
log entry 110). -/
def sendsHem (d : Bytes) (le : Nat) : Bool :=
  (placesOf d le).any fun p =>
    (List.range (blocks d)).any fun k =>
      ((List.range (bentry d k).h).any fun t => (spdir d k t).blk == p.1.block) &&
      (places d).any fun q => q.1.block == k && q.1.le != le && decide (p.1.first < q.1.first + q.1.count) &&
        decide (q.1.first < p.1.first + p.1.count)

/-- The STITCH section of an engine that sends hem words (R208, Table 8.15). -/
def stitchThere (d : Bytes) (le : Nat) : Chk := str (!sendsHem d le || (sec? d 10 le).isSome) 26

/-- The stitch list that the fabric installs. -/
def stitch (x : StitchRaw) : Stitch :=
  { le := x.le, link := stitchLink x, vlane := stitchLane x,
    positions := x.words.map fun w => if w % 4 = 0 then .inl (bits w 2 3) else .inr (bits w 5 6, bits w 11 2) }

/-! ### Channel groups (R212, 06 R157) -/

/-- A group record as declared, at its offset, with its initial scales. -/
structure GroupDecl where
  at_    : Nat
  out    : Bool
  raw    : Nat
  mfmt   : Nat
  g      : Nat
  len    : Nat
  block  : Nat
  high   : Nat
  vector : Nat
  area   : W64
  scales : List Nat
  deriving DecidableEq, Repr

/-- A group record in a byte string. -/
def groupDecl (d : Bytes) (a : Nat) : GroupDecl :=
  { at_ := a, out := bitAt (field d a 1) 0, raw := bits (field d a 1) 1 2, mfmt := bits (field d a 1) 3 3,
    g := field d (a + 2) 2, len := field d (a + 4) 4, block := field d (a + 8) 2, high := field d (a + 10) 2,
    vector := field d (a + 12) 2, area := BitVec.ofNat 64 (field d (a + 16) 8),
    scales := (List.range (field d (a + 2) 2)).map fun c => field d (a + 64 + 2 * c) 2 }

/-- The fields of a group record, without its size in the section; `areaOk` says whether the owner may use the area. -/
def groupFields (d : Bytes) (x : GroupDecl) (areaOk : Nat → Nat → Bool) : Chk :=
  let a := x.at_
  first [
    rsv (decide (field d a 1 / 64 = 0)) a,
    rng (decide (x.raw ≤ 2)) a,
    rng (if x.out then x.mfmt == 4 else decide (x.mfmt ≤ 3)) a,
    rsvBytes d (a + 1) 1,
    rng (decide (1 ≤ x.g) && decide (x.g ≤ 4096)) (a + 2),
    rng (decide (1 ≤ x.len) && decide (x.len ≤ 65536)) (a + 4),
    rng (decide (x.vector ≤ 2047)) (a + 12),
    rsvBytes d (a + 14) 2,
    rng (decide (x.area.toNat % 64 = 0) && areaOk x.area.toNat (64 + 16 * x.g)) (a + 16),
    rsvBytes d (a + 24) 40]

/-- The QSCALE values of a group record with mantissa 0, each with its offset (R36). -/
def groupScales (x : GroupDecl) : List (Nat × Refuse) :=
  ((List.range x.g).filter fun c => !sc16Valid (x.scales.getD c 0)).map fun c => (x.at_ + 64 + 2 * c, bad (x.at_ + 64 + 2 * c) 7)

/-- Splits a CHANNELS section. -/
def groupList (d : Bytes) (stop : Nat) (areaOk : Nat → Nat → Bool) : Nat → Nat → Except Refuse (List GroupDecl)
  | 0, _ => .ok []
  | fuel + 1, a =>
    if stop ≤ a then .ok []
    else if stop < a + 64 then .error (bad a 1)
    else
      let x := groupDecl d a
      let next := a + roundUp (64 + 2 * x.g) 64
      match groupFields d x areaOk with
      | some e => .error e
      | none =>
        if stop < a + 64 + 2 * x.g then .error (bad (a + 2) 1)
        else if stop < next then .error (bad a 1)
        else
          match rsvBytes d (a + 64 + 2 * x.g) (next - (a + 64 + 2 * x.g)) with
          | some e => .error e
          | none =>
            match groupList d stop areaOk fuel next with
            | .error e => .error e
            | .ok rest => .ok (x :: rest)

def groupsOf (d : Bytes) (areaOk : Nat → Nat → Bool) : Except Refuse (List GroupDecl) :=
  match sec? d 0xC 0 with
  | none => .ok []
  | some x => groupList d (x.off + x.len) areaOk (x.len / 64 + 1) x.off

/-- The groups of an image whose CHANNELS section is good. -/
def groups (d : Bytes) : List GroupDecl :=
  match groupsOf d fun _ _ => true with
  | .ok l => l
  | .error _ => []

/-! ### History store record (R213, 05 R129-R135) -/

/-- Entry stride in bytes (Table 5.1). -/
def histStride (k1 : Bool) (width : Nat) : Nat := 64 * ceilDiv width (if k1 then 512 else 128)

def hist (d : Bytes) : Chk :=
  match sec? d 0xD 0 with
  | none => some (bad 5 1)
  | some x =>
    let a := x.off
    let f := fun o n => field d (a + o) n
    let k1 := f 0 1 == 1
    let lp := f 2 1 == 1
    let width := f 4 2
    let cap := f 8 8
    let region := f 16 8
    let stride := histStride k1 width
    let units := if lp then (engines d).length else 8 * (engines d).length
    let rows := (if f 3 1 = 1 then 41943040 else 16777216) / stride
    first [
      str (x.len == 32) (x.at_ + 4),
      rng (decide (f 0 1 ≤ 1)) a, rng (decide (f 1 1 ≤ 1)) (a + 1), rng (decide (f 2 1 ≤ 1)) (a + 2),
      rng (decide (f 3 1 ≤ 1) && !(lp && f 3 1 == 1)) (a + 3),
      rng (decide (1 ≤ width) && decide (width ≤ (if k1 then 16384 else 4096))) (a + 4),
      rsvBytes d (a + 6) 2,
      rng (decide (1 ≤ cap) && decide (cap ≤ 268435456) && decide (cap % units = 0) &&
        (lp || decide (cap ≤ units * rows))) (a + 8),
      rng (if lp then decide (region % 64 = 0) && decide (0 < region) && decide (region ≤ 2 ^ 34) &&
          decide (cap / units * stride ≤ region) else region == 0) (a + 16),
      rsvBytes d (a + 24) 8]

/-! ### Orders 3 and 4 -/

/-- Order 3 of Table 8.7: header ranges, the directory, then BLOCKS, PLACE, REPLOFF, LINKS, the stitch lists, CHANNELS
and HIST. -/
def order3 (d : Bytes) (nodeZero : Bool) (areaOk : Nat → Nat → Bool) : Chk :=
  first [
    (if enc d then rsvBytes d 128 128 else none),
    header d nodeZero, directory d,
    (if model d then
      first [
        want d 1 0 (32 * blocks d) 5,
        first ((bentries d).map (bentryOk d)),
        first (mapIdxFrom (blockSections d) 0 (bentries d)),
        first ((engines d).map (placeSection d)),
        first ((List.range (blocks d)).map (served d)),
        (if relaxed d then unwanted d 8 0
         else first (want d 8 0 (reps d) 6 ::
          mapIdxFrom (fun i o => rng (decide (o.toNat < colours d)) (offOf d 8 0 + i)) 0 (body d 8 0))),
        first (want d 9 0 56 5 :: mapIdxFrom (fun i n => rng (decide (n ≤ 3)) (offOf d 9 0 + i)) 0 (links d)),
        first ((engines d).map (stitchThere d)),
        first ((engines d).map (stitchSection d))]
     else none),
    (match groupsOf d areaOk with
      | .error e => some e
      | .ok _ => none),
    (if model d then none else hist d)]

/-! ### Order 6: what the engines read -/

/-- A raw code of a dense section held as one number. -/
def rawCode (v fmt rowb i j : Nat) : Nat := (v >>> (8 * i * rowb + codeBits fmt * j)) % 2 ^ codeBits fmt

/-- The value of a raw code (R29). -/
def codeValue (fmt raw : Nat) : Int := if fmt = 0 then 1 - 2 * (raw : Int) else toSigned (codeBits fmt) raw

/-- The violations of R30 in one block, each with its offset. -/
def denseBad (d : Bytes) (k : Nat) (b : BEntry) : List (Nat × Refuse) :=
  let off := offOf d 3 k
  let v := leNat (body d 3 k)
  let rowb := rowBytes b.fmt b.n
  let w := codeBits b.fmt
  let at_ := fun i j => off + i * rowb + j * w / 8
  let e := fun o => (o, bad o 3)
  (List.range b.n).flatMap fun i =>
    (if rawCode v b.fmt rowb i i ≠ 0 then [e (at_ i i)] else []) ++
    (((List.range (64 * ceilDiv b.n 64 - b.n)).map (· + b.n)).filter fun j => rawCode v b.fmt rowb i j != 0).map
      (fun j => e (at_ i j)) ++
    ((List.range i).filter fun j => rawCode v b.fmt rowb i j != rawCode v b.fmt rowb j i).map fun j => e (at_ i j)

/-- A sparse entry. -/
def sparse (d : Bytes) (k t : Nat) : Sparse :=
  let w := field d (offOf d 6 k + 4 * t) 4
  { lidx := bits w 0 13, last := bitAt w 13, code := toSigned 8 (bits w 16 8) }

/-- The entries of a directory entry's list, as indices; none where no END closes the list. -/
def listIndices (d : Bytes) (k e : Nat) : Nat → Nat → Option (List Nat)
  | 0, _ => none
  | fuel + 1, t =>
    if e ≤ t then none
    else if (sparse d k t).last then some [t]
    else (listIndices d k e fuel (t + 1)).map (t :: ·)

/-- The directory and its lists: reserved bits, a source in another block, ascending order, lists closed inside the
section, local variables in range, kinds that agree (R25, R38, R209). A source of another part of a job has a block
number at or above the part's own count (14 R392). -/
def sparseBad (d : Bytes) (k : Nat) (b : BEntry) : List (Nat × Refuse) :=
  let doff := offOf d 7 k
  let soff := offOf d 6 k
  (List.range b.h).flatMap (fun t =>
    let w := field d (doff + 8 * t) 8
    let x := spdir d k t
    let a := doff + 8 * t
    let src := bentry d x.blk
    let own := decide (x.blk < blocks d)
    let prev := spdir d k (t - 1)
    (if bits w 25 7 ≠ 0 then [(a + 3, Refuse.reserved (a + 3) 9)] else []) ++
    (if w / 2 ^ 53 ≠ 0 then [(a + 6, Refuse.reserved (a + 6) 9)] else []) ++
    (if x.blk = k ∨ (own = true ∧ src.n ≤ x.var) ∨ (own = false ∧ modules d ≤ 1) ∨
        (0 < t ∧ (x.blk < prev.blk ∨ (x.blk = prev.blk ∧ x.var ≤ prev.var)))
      then [(a, bad a 2)] else []) ++
    (match listIndices d k b.e b.e x.first with
      | none => [(a + 4, bad (a + 4) 2)]
      | some l => if own && decide ((src.q = 0) ≠ (b.q = 0)) then l.map (fun i => (soff + 4 * i, bad (soff + 4 * i) 6)) else [])) ++
  (List.range b.e).flatMap fun t =>
    let w := field d (soff + 4 * t) 4
    let a := soff + 4 * t
    (if bits w 14 2 ≠ 0 then [(a + 1, Refuse.reserved (a + 1) 9)] else []) ++
    (if w / 2 ^ 24 ≠ 0 then [(a + 3, Refuse.reserved (a + 3) 9)] else []) ++
    (if b.n ≤ (sparse d k t).lidx then [(a, bad a 2)] else [])

/-- One end of a sparse coupling: target block and variable, source block and variable, code and offset. -/
structure SpEnd where
  blk  : Nat
  var  : Nat
  sblk : Nat
  svar : Nat
  code : Int
  at_  : Nat
  deriving DecidableEq, Repr

/-- The sparse couplings as stored in a block. -/
def spEnds (d : Bytes) (k : Nat) (b : BEntry) : List SpEnd :=
  (List.range b.h).flatMap fun t =>
    let x := spdir d k t
    ((listIndices d k b.e b.e x.first).getD []).map fun i =>
      { blk := k, var := (sparse d k i).lidx, sblk := x.blk, svar := x.var, code := (sparse d k i).code,
        at_ := offOf d 6 k + 4 * i }

/-- Entries that no list reaches name no source, so they have no partner (R39). -/
def strayEntries (d : Bytes) (k : Nat) (b : BEntry) : List (Nat × Refuse) :=
  let used := (spEnds d k b).map (·.at_)
  ((List.range b.e).filter fun t => !used.contains (offOf d 6 k + 4 * t)).map fun t =>
    (offOf d 6 k + 4 * t, bad (offOf d 6 k + 4 * t) 4)

/-- Pairing and strict colouring over the whole image (R39, R98): an entry whose partner is missing is located at the
entry, a pair that disagrees at the later of the two. -/
def pairingBad (d : Bytes) : List (Nat × Refuse) :=
  let all := (mapIdxFrom (spEnds d) 0 (bentries d)).flatten
  all.flatMap fun x =>
    if blocks d ≤ x.sblk then []
    else
      match all.filter fun y => y.blk == x.sblk && y.var == x.svar && y.sblk == x.blk && y.svar == x.var with
      | [] => [(x.at_, bad x.at_ 4)]
      | y :: more =>
        let late := max x.at_ y.at_
        (if x.code ≠ y.code then [(late, bad late 4)]
         else if !relaxed d && (bentry d x.blk).colour == (bentry d x.sblk).colour then [(late, bad late 5)] else []) ++
        more.map fun z => (z.at_, bad z.at_ 4)

/-- Pair entries (04 R118): each end a variable of a block of the model, both of one kind. In the part of a job a number at or
above the part's own count names a block of another part (14 R392), of which the part knows no more. -/
def pairsBad (d : Bytes) (le : Nat) : List (Nat × Refuse) :=
  let off := offOf d 11 le
  let len := (body d 11 le).length
  (List.range (len / 8)).flatMap (fun t =>
    let w := field d (off + 8 * t) 8
    let a := off + 8 * t
    let own := fun blk => decide (blk < blocks d)
    let out := fun blk var => if own blk then decide ((bentry d blk).n ≤ var) else decide (modules d ≤ 1)
    let b1 := bits w 13 12
    let b2 := bits w 45 12
    (if bits w 25 7 ≠ 0 then [(a + 3, Refuse.reserved (a + 3) 9)] else []) ++
    (if bits w 57 7 ≠ 0 then [(a + 7, Refuse.reserved (a + 7) 9)] else []) ++
    (if out b1 (bits w 0 13) then [(a, bad a 2)] else []) ++
    (if out b2 (bits w 32 13) || (own b1 && own b2 && ((bentry d b1).q == 0) != ((bentry d b2).q == 0))
      then [(a + 4, bad (a + 4) 2)] else [])) ++
  (if len % 8 ≠ 0 then [(off + 8 * (len / 8), bad (off + 8 * (len / 8)) 1)] else [])

/-- The violation at the lowest offset. -/
def lowest : List (Nat × Refuse) → Option (Nat × Refuse)
  | [] => none
  | x :: xs =>
    match lowest xs with
    | none => some x
    | some y => if y.1 < x.1 then some y else some x

/-- SC16 values with mantissa 0: the energy quantum and the channel scales (R36). -/
def scaleBad (d : Bytes) : List (Nat × Refuse) :=
  (if model d && !sc16Valid (quantum d) then [(16, bad 16 7)] else []) ++ (groups d).flatMap groupScales

/-- Order 6 of Table 8.7: the violation at the lowest offset (R218). -/
def order6 (d : Bytes) : Chk :=
  (lowest (scaleBad d ++
    if model d then
      (mapIdxFrom (denseBad d) 0 (bentries d)).flatten ++ (mapIdxFrom (sparseBad d) 0 (bentries d)).flatten ++
        (mapIdxFrom (strayEntries d) 0 (bentries d)).flatten ++ pairingBad d ++ (engines d).flatMap (pairsBad d)
    else [])).map (·.2)

/-! ### The model that an image holds -/

/-- A block as loaded. -/
def block (d : Bytes) (k : Nat) : Block :=
  let b := bentry d k
  let v := leNat (body d 3 k)
  let rowb := rowBytes b.fmt b.n
  let m := max b.q 1
  { n := b.n, q := b.q, fmt := b.fmt, sb := b.sb, scaled := b.scaled == 1, colour := b.colour,
    codes := (List.range b.n).map fun i => (List.range b.n).map fun j => codeValue b.fmt (rawCode v b.fmt rowb i j),
    scales := if b.scaled = 1 then (List.range (64 * ceilDiv b.n 64)).map fun i => field (body d 4 k) i 1
      else List.replicate b.n b.du,
    bias := (List.range b.n).map fun i => (List.range m).map fun a =>
      toSigned 32 (field (body d 5 k) (4 * (i * m + a)) 4),
    sparse := (List.range b.e).map (sparse d k), spdir := (List.range b.h).map (spdir d k) }

/-- The pair entries of the image, engines ascending: block and variable of each end, and the engine. -/
def pairs (d : Bytes) : List (Nat × Nat × Nat × Nat × Nat) :=
  (engines d).flatMap fun le =>
    (List.range ((body d 11 le).length / 8)).map fun t =>
      let w := field (body d 11 le) (8 * t) 8
      (bits w 13 12, bits w 0 13, bits w 45 12, bits w 32 13, le)

/-- The model word (16 R437). -/
def modelWord (d : Bytes) : W64 := BitVec.ofNat 64 (field (sha384 (slice d 0 64)) 0 8)

end Img

end Sys2Proof.Machine
end

