-- ==== Sys2Proof/Machine/Account.lean ====
section
/-! DEFINITION. Resource accounting: what is used, what an image needs, the ordered check against grant and free
capacity with its report, placement refusals, lane-3 routes and the binding of link entries and lanes
(08 R221-R225, Table 8.16; 07 R180-R183, R524; 12 R336). -/

namespace Sys2Proof.Machine

/-! ### Lane-3 routes (07 R524) -/

/-- The steps from one column or row to another, in the order of travel, each by its lower end. -/
def steps (a b : Nat) : List Nat :=
  if a ≤ b then (List.range (b - a)).map (a + ·) else (List.range (a - b)).map (a - 1 - ·)

/-- The row links of a half-row from one column to another, in the order of travel. -/
def rowLinks (hrow c1 c2 : Nat) : List Nat := (steps c1 c2).map fun c => 3 * hrow + c

/-- The column links of a half at a column from one row to another, in the order of travel. -/
def colLinks (half c r1 r2 : Nat) : List Nat := (steps r1 r2).map fun r => 24 + 12 * half + 4 * r + c

/-- The default route from one engine to another. -/
def defaultRoute (a b : Nat) : List Nat :=
  let ha := a / 16
  let hb := b / 16
  let ra := a % 16 / 4
  let rb := b % 16 / 4
  if ha = hb then rowLinks (a / 4) (a % 4) (b % 4) ++ colLinks ha (b % 4) ra rb
  else
    rowLinks (a / 4) (a % 4) 0 ++ [48 + 2 * ra] ++ rowLinks (4 * hb + ra) 0 (b % 4) ++ colLinks hb (b % 4) ra rb

/-- The engine across a link. -/
def across (l le : Nat) : Nat := if (Img.linkEnds l).1 = le then (Img.linkEnds l).2 else (Img.linkEnds l).1

/-- One layer of a search for a route: paths to engines not yet reached, by link index. -/
def routeLayer (open_ : Nat → Bool) (seen : List Nat) (front : List (Nat × List Nat)) : List (Nat × List Nat) :=
  front.foldl (fun acc p =>
    (List.range 56).foldl (fun acc l =>
      if Img.endsAt l p.1 && open_ l && !(seen.contains (across l p.1)) && !(acc.any fun q => q.1 == across l p.1)
      then acc ++ [(across l p.1, p.2 ++ [l])] else acc) acc) []

/-- A shortest route over open links. -/
def routeSearch (open_ : Nat → Bool) (b : Nat) : Nat → List Nat → List (Nat × List Nat) → Option (List Nat)
  | 0, _, _ => none
  | fuel + 1, seen, front =>
    match front.find? fun p => p.1 == b with
    | some p => some p.2
    | none =>
      let next := routeLayer open_ seen front
      if next.isEmpty then none else routeSearch open_ b fuel (seen ++ next.map (·.1)) next

namespace State

/-! ### What is used -/

/-- The taken entries of the model table. -/
def taken (s : State) : List Model := s.models.map (·.2)

/-- The sum of a per-engine amount. -/
def sumAt (le : Nat) (l : List (Nat × Nat)) : Nat := ((l.filter fun p => decide (p.1 = le)).map (·.2)).sum

/-- Bytes allocated in a slice. -/
def sumSlice (le su : Nat) (l : List Alloc) : Nat := ((l.filter fun a => decide (a.le = le) && decide (a.su = su)).map (·.len)).sum

def denseUsed (s : State) (le su : Nat) : Nat := (s.taken.map fun m => sumSlice le su m.dense).sum

def sparseUsed (s : State) (le su : Nat) : Nat := (s.taken.map fun m => sumSlice le su m.sparse).sum

def vscaleUsed (s : State) (le : Nat) : Nat :=
  (s.taken.map fun m => ((m.vscale.filter fun a => decide (a.le = le)).map (·.len)).sum).sum

/-- The replica-blocks of a model. -/
def rblocksOf (m : Model) : List RBlock :=
  match m.body with
  | .net n => n.rblocks
  | .store _ => []

/-- The record indices held on an engine. -/
def rblksHeld (s : State) (le : Nat) : List Nat :=
  s.taken.flatMap fun m => ((rblocksOf m).filter fun b => decide (b.le = le)).map (·.rblk)

/-- Chain memory reserved on an engine, in bytes (R52, 10 R297). -/
def chainUsed (s : State) (le : Nat) : Nat :=
  (s.cx.ctxs.map fun p => if bitAt p.2.grant.mask le then p.2.grant.chain * 131072 else 0).sum

def scratchUsed (s : State) (le : Nat) : Nat := (s.taken.map fun m => sumAt le m.scratch).sum + s.chainUsed le

def pairsUsed (s : State) (le : Nat) : Nat := (s.taken.map fun m => sumAt le m.pairsN).sum

/-- A package's capacity (12 R328, R339). -/
def packageBytes (s : State) (le : Nat) : Nat :=
  let p := (s.hb.pkgs[le]?).getD Package.reset
  if p.state = 1 then 25769803776 else if p.state = 0 then 34359738368 else 0

/-- Data-space pages of every context on an engine, in bytes (12 R336). -/
def pagesUsed (s : State) (le : Nat) : Nat :=
  (s.cx.ctxs.map fun p => (Tbl.getD p.2.pages le []).length * 2097152).sum

/-- LPDDR6 in use on an engine: regions, pages, and capacity that is still being zeroed (R228). -/
def lpddrUsed (s : State) (le : Nat) : Nat :=
  (s.taken.map fun m => sumAt le m.lpddr).sum + s.pagesUsed le + ((s.hb.pkgs[le]?).getD Package.reset).zeroing

/-- A slice is half of a slice pair (02 R28). -/
def inPair (s : State) (le su : Nat) : Bool :=
  s.taken.any fun m =>
    match m.body with
    | .net n => n.places.any fun p => p.pair && decide (p.le = le) && (Img.placeUnits p).contains su
    | .store _ => false

/-! ### What a context holds -/

/-- The models counted against a context's grant: its own, and on node 0 those of the jobs it owns (14 R390). -/
def heldBy (s : State) (tag : BitVec 24) : List Model :=
  s.taken.filter fun m => decide (m.tag = tag) ||
    (s.pr.jobs.any fun j => decide (j.1 = m.job) && decide (m.job ≠ 0) && decide (j.2.owner = tag))

/-- The slices that a context holds. -/
def slicesHeld (s : State) (tag : BitVec 24) : List (Nat × Nat) :=
  ((s.heldBy tag).flatMap fun m => (m.dense ++ m.sparse).map fun a => (a.le, a.su)).eraseDups

/-- Hem lanes bound for a model. -/
def lanesOf (s : State) (i : Nat) : Nat :=
  (s.fb.links.map fun l => (l.lanes.filter fun n =>
    match n.owner with
    | some (e, _) => ((l.entries.getD e none).map (·.model)) == some i
    | none => false).length).sum

/-- The amount of a grant resource that a context holds. -/
def held (s : State) (tag : BitVec 24) (code : Nat) : Nat :=
  let ms := s.heldBy tag
  if code = 0x02 then (s.slicesHeld tag).length
  else if code = 0x07 then (ms.map fun m => (m.scratch.map (·.2)).sum).sum
  else if code = 0x09 then
    (ms.map fun m => (m.lpddr.map (·.2)).sum).sum + ((s.ctx (idOf tag)).pages.map fun p => p.2.length * 2097152).sum
  else if code = 0x0A then (ms.map (·.history)).sum
  else if code = 0x0D then
    ((s.models.filter fun p => ms.contains p.2).map fun p => s.lanesOf p.1).sum
  else if code = 0x0E then (s.st.streams.filter fun p => decide (p.2.state ≠ 0) && decide (p.2.tag = tag)).length
  else 0

/-- The limit of a grant resource. -/
def limit (g : Grant) (code : Nat) : Nat :=
  if code = 0x02 then g.slices else if code = 0x07 then g.scratch else if code = 0x09 then g.lpddr
  else if code = 0x0A then g.history else if code = 0x0D then g.lanes else if code = 0x0E then g.streams else 0

/-- The grant that bounds every resource at its physical limit, on the engines of a mask (14 R390). -/
def fullGrant (mask : Nat) : Grant :=
  { mask := mask, slices := 256, lanes := 168, scratch := 32 * 31457280, lpddr := 2 ^ 40, history := 2 ^ 40,
    streams := 65536, chain := 0 }

/-! ### Needs and the ordered check (R222-R224) -/

/-- One need: a resource at a place, what is free there, and whether a link lacks an entry. -/
structure Need where
  code   : Nat
  le     : Nat
  su     : Nat
  link   : Nat
  amount : Nat
  free   : Option Nat
  entry  : Bool
  deriving DecidableEq, Repr

/-- A shortfall. -/
structure Short where
  byGrant : Bool
  need    : Need
  by_     : Nat
  deriving DecidableEq, Repr

/-- Resources whose grant is a total of the context. -/
def granted (code : Nat) : Bool := [0x02, 0x07, 0x09, 0x0A, 0x0D, 0x0E].contains code

/-- The shortfalls of a list of needs in order; `left` is what remains of the grant by code. -/
def shorts (left : Tbl Nat) : List Need → List Short
  | [] => []
  | n :: rest =>
    let rem := Tbl.getD left n.code 0
    let capShort := match n.free with
      | some f => decide (f < n.amount)
      | none => false
    if granted n.code && decide (rem < n.amount) then
      ⟨true, n, n.amount - rem⟩ :: shorts (Tbl.put left n.code 0) rest
    else
      let left' := if granted n.code then Tbl.put left n.code (rem - n.amount) else left
      if n.entry then ⟨false, n, max n.amount 1⟩ :: shorts left' rest
      else if capShort then ⟨false, n, n.amount - n.free.getD 0⟩ :: shorts left' rest
      else shorts left' rest

/-- The refusal of the first shortfall, with MORE when there is another (R224). -/
def shortRefuse : List Short → Option Refuse
  | [] => none
  | x :: more =>
    let c := x.need.code
    let le := if (3 ≤ c ∧ c ≤ 9) ∨ c = 0x0B then x.need.le else 0
    let su := if c = 3 ∨ c = 4 then x.need.su else 0
    let link := if c = 0x0D ∨ c = 0x12 then x.need.link else 0
    let rep := Refuse.report c (!more.isEmpty) (x.need.entry && !x.byGrant) le su link
    some (if x.byGrant then Refuse.grant rep x.by_ else Refuse.capacity rep x.by_)

/-- What remains of a grant. -/
def grantLeft (s : State) (tag : BitVec 24) (g : Grant) : Tbl Nat :=
  [0x02, 0x07, 0x09, 0x0A, 0x0D, 0x0E].map fun c => (c, limit g c - s.held tag c)

/-- Checks a list of needs against a context's grant and free capacity (R223). -/
def checkNeeds (s : State) (tag : BitVec 24) (g : Grant) (ns : List Need) : Option Refuse :=
  shortRefuse (shorts (s.grantLeft tag g) ns)

/-- Dense bytes of a placement by slice (R222, R28). -/
def denseNeed (b : Img.BEntry) (p : Place) : List (Nat × Nat) :=
  let row := Img.rowBytes b.fmt b.n
  if p.pair then [(p.su, min b.n 4096 * row), (p.su + 1, (b.n - 4096) * row)] else [(p.su, b.n * row)]

/-- LPDDR6 of a placement: directory, mirror and pending copies (R222, 03 R65). -/
def hemBytes (b : Img.BEntry) (p : Place) : Nat :=
  if b.h = 0 then 0
  else 64 * ceilDiv (8 * b.h) 64 + p.count * 2 * (64 * ceilDiv (b.h * (if b.q = 0 then 1 else 4)) 512)

/-- Dense and sparse bytes that an image takes in a slice. -/
def sliceNeed (d : Bytes) (le su : Nat) : Nat × Nat :=
  if Img.model d then
    let ps := Img.copies ((Img.placesOf d le).map (·.1))
    ((ps.flatMap fun p => (denseNeed (Img.bentry d p.block) p).filter fun x => x.1 == su).map (·.2) |>.sum,
     ((ps.filter fun p => p.su == su).map fun p => 4 * (Img.bentry d p.block).e).sum)
  else
    let o := Img.offOf d 0xD 0
    if field d (o + 2) 1 = 1 then (0, 0)
    else if field d (o + 3) 1 = 1 then (33554432, 8388608) else (16777216, 0)

/-- The slices that an image takes. -/
def imageSlices (d : Bytes) : List (Nat × Nat) :=
  (Img.engines d).flatMap fun le => ((List.range 8).filter fun su =>
    decide ((sliceNeed d le su).1 ≠ 0) || decide ((sliceNeed d le su).2 ≠ 0)).map fun su => (le, su)

/-- An image places a slice pair over a slice. -/
def imagePair (d : Bytes) (le su : Nat) : Bool :=
  Img.model d && (Img.placesOf d le).any fun p => p.1.pair && (Img.placeUnits p.1).contains su

/-- Free dense bytes of a slice for an image: a slice pair shares its dense regions with no other block (R28). -/
def denseFree (s : State) (d : Bytes) (le su : Nat) : Nat :=
  let used := s.denseUsed le su
  if s.inPair le su || (imagePair d le su && decide (used ≠ 0)) then 0 else 33554432 - used

/-- Free sparse bytes of a slice: none in either region of a pair that another block holds (R28). -/
def sparseFree (s : State) (le su : Nat) : Nat := if s.inPair le su then 0 else 8388608 - s.sparseUsed le su

/-- Replica-blocks, scratchpad bytes, VSCALE entries, pair entries and LPDDR6 bytes of an image on an engine. -/
def engineNeed (d : Bytes) (le : Nat) : Nat × Nat × Nat × Nat × Nat :=
  if Img.model d then
    let ps := (Img.placesOf d le).map fun x => (x.1, Img.bentry d x.1.block)
    ((ps.map fun x => x.1.count).sum,
     (ps.map fun x => x.1.count * footprint (x.2.q == 0) x.2.n x.2.q).sum + Img.banks d * 1048576,
     (ps.map fun x => if x.2.scaled = 1 then 64 * ceilDiv x.2.n 64 else 0).sum,
     (Img.body d 11 le).length / 8,
     (ps.map fun x => hemBytes x.2 x.1).sum)
  else
    let o := Img.offOf d 0xD 0
    (0, Img.banks d * 1048576, 0, 0, if field d (o + 2) 1 = 1 then field d (o + 16) 8 else 0)

/-- The home engine of an image's groups: ladder engine or lead engine (06 R156). A part of a job whose ladder engine lies on
node 0 has ladder byte 0, so its groups lie on LE 0 (DESIGN CHOICE, log entry 131). -/
def homeEngine (d : Bytes) : Nat :=
  if Img.model d then Img.ladder d else ((Img.engines d).head?).getD 0

/-! ### Channels (06 R156) -/

/-- The channel ranges held on an engine. -/
def channelRuns (s : State) (le : Nat) : List (Nat × Nat) :=
  (s.groups.filter fun g => decide (g.le = le)).map fun g => (g.gbase, g.chans.length)

/-- A channel is free. -/
def channelFree (runs : List (Nat × Nat)) (c : Nat) : Bool :=
  runs.all fun r => !(decide (r.1 ≤ c) && decide (c < r.1 + r.2))

/-- The start of the lowest run of g free channels, and the longest run seen, scanning from a channel. -/
def scanRun (runs : List (Nat × Nat)) (g : Nat) : Nat → Nat → Nat → Nat → Option Nat × Nat
  | 0, _, _, longest => (none, longest)
  | fuel + 1, c, len, longest =>
    if channelFree runs c then
      if g ≤ len + 1 then (some (c - len), max longest (len + 1)) else scanRun runs g fuel (c + 1) (len + 1) (max longest (len + 1))
    else scanRun runs g fuel (c + 1) 0 longest

/-- Where a group of g channels goes on an engine, or the shortfall. -/
def findRun (runs : List (Nat × Nat)) (g : Nat) : Except Nat Nat :=
  match scanRun runs g 4096 0 0 0 with
  | (some c, _) => .ok c
  | (none, longest) => .error (g - longest)

/-- The bases of groups allocated in order, or the shortfalls of those that find no run. -/
def findRuns : List (Nat × Nat) → List Nat → List Nat × List Nat
  | _, [] => ([], [])
  | runs, g :: rest =>
    match findRun runs g with
    | .ok c =>
      let r := findRuns (runs ++ [(c, g)]) rest
      (c :: r.1, r.2)
    | .error e =>
      let r := findRuns runs rest
      (r.1, e :: r.2)

/-- The needs of an image for resources 0x01 to 0x0C, in order (order 5 of Table 8.7). -/
def imageNeeds (s : State) (d : Bytes) (tag : BitVec 24) (g : Grant) : List Need × List Need :=
  let les := Img.engines d
  let slices := imageSlices d
  let fresh := (slices.filter fun x => !(s.slicesHeld tag).contains x).length
  let per := fun code (amount : Nat → Nat) (free : Nat → Option Nat) =>
    (les.filter fun le => decide (amount le ≠ 0)).map fun le => (⟨code, le, 0, 0, amount le, free le, false⟩ : Need)
  let runs := (findRuns (s.channelRuns (homeEngine d)) ((Img.groups d).map (·.g))).2
  ((les.filter fun le => !bitAt g.mask le).map fun le => ⟨0x01, le, 0, 0, 1, some 0, false⟩,
   (if fresh = 0 then [] else [⟨0x02, 0, 0, 0, fresh, none, false⟩]) ++
   (slices.filter fun x => decide ((sliceNeed d x.1 x.2).1 ≠ 0)).map
     (fun x => ⟨0x03, x.1, x.2, 0, (sliceNeed d x.1 x.2).1, some (s.denseFree d x.1 x.2), false⟩) ++
   (slices.filter fun x => decide ((sliceNeed d x.1 x.2).2 ≠ 0)).map
     (fun x => ⟨0x04, x.1, x.2, 0, (sliceNeed d x.1 x.2).2, some (s.sparseFree x.1 x.2), false⟩) ++
   per 0x05 (fun le => (engineNeed d le).2.2.1) (fun le => some (65536 - s.vscaleUsed le)) ++
   per 0x06 (fun le => (engineNeed d le).1) (fun le => some (923 - (s.rblksHeld le).length)) ++
   per 0x07 (fun le => (engineNeed d le).2.1) (fun le => some (31457280 - s.scratchUsed le)) ++
   per 0x08 (fun le => (engineNeed d le).2.2.2.1) (fun le => some (1048576 - s.pairsUsed le)) ++
   per 0x09 (fun le => (engineNeed d le).2.2.2.2) (fun le => some (s.packageBytes le - s.lpddrUsed le)) ++
   (if Img.model d then [] else [⟨0x0A, 0, 0, 0, field d (Img.offOf d 0xD 0 + 8) 8, none, false⟩]) ++
   runs.map (fun e => ⟨0x0B, homeEngine d, 0, 0, e, some 0, false⟩) ++
   [⟨0x0C, 0, 0, 0, 1, some (4096 - s.models.length), false⟩])

/-- Order 5: engines outside the grant's mask first, then every other resource (R223). -/
def order5 (s : State) (d : Bytes) (tag : BitVec 24) (g : Grant) : Option Refuse :=
  let (out, rest) := s.imageNeeds d tag g
  shortRefuse (out.map (fun n => ⟨true, n, 1⟩) ++ shorts (s.grantLeft tag g) rest)

/-! ### Links (07 R181, R182, R196, R524; Table 8.16) -/

/-- A link's lane 3 carries traffic: not disabled, no end lost, no parked Hinge. -/
def serviceOpen (s : State) (l : Nat) : Bool :=
  let k := (s.fb.links[l]?).getD Link.reset
  !((k.lanes[3]?).getD Lane.reset).disabled && !s.isLost (Img.linkEnds l).1 && !s.isLost (Img.linkEnds l).2 &&
  !(decide (48 ≤ l) && ((s.fb.hinges[(l - 48) / 2]?).getD Hinge.reset).parked)

/-- The route of a pair of engines: the default route while it is open, else one that firmware takes (R524; DESIGN
CHOICE, log entry 21: a shortest one, by ascending link index). -/
def route (s : State) (a b : Nat) : Option (List Nat) :=
  if (defaultRoute a b).all s.serviceOpen then some (defaultRoute a b)
  else routeSearch s.serviceOpen b 32 [a] [(a, [])]

/-- The ordered pairs of engines of an image between which lane 3 carries traffic (R524). -/
def servicePairs (d : Bytes) : List (Nat × Nat) :=
  let h := homeEngine d
  ((Img.engines d).filter fun e => e != h).flatMap fun e => [(e, h), (h, e)]

/-- The links of an image's lane-3 routes. -/
def routeLinks (s : State) (d : Bytes) : List Nat :=
  ((servicePairs d).flatMap fun p => (s.route p.1 p.2).getD []).eraseDups

/-- The hem lanes that an image needs on a link. -/
def linkCount (d : Bytes) (l : Nat) : Nat := if Img.model d then (Img.links d).getD l 0 else 0

/-- The links that an image uses, ascending. -/
def usedLinks (s : State) (d : Bytes) : List Nat :=
  (List.range 56).filter fun l => decide (linkCount d l ≠ 0) || (s.routeLinks d).contains l

/-- Free hem lanes of a link, as physical lanes. -/
def freeLanes (s : State) (l : Nat) : List Nat :=
  let k := (s.fb.links[l]?).getD Link.reset
  (List.range 3).filter fun i => ((k.lanes[i]?).getD Lane.reset).owner.isNone && !((k.lanes[i]?).getD Lane.reset).disabled

/-- The lowest free entry of a link. -/
def freeEntry (s : State) (l : Nat) : Option Nat :=
  firstIdx (fun _ e => e.isNone) 0 ((s.fb.links[l]?).getD Link.reset).entries

/-- Order 8: hem lanes and entries, in ascending link index (R182, R223). -/
def order8 (s : State) (d : Bytes) (tag : BitVec 24) (g : Grant) : Option Refuse :=
  s.checkNeeds tag g ((s.usedLinks d).map fun l =>
    ⟨0x0D, 0, 0, l, linkCount d l, some (s.freeLanes l).length, (s.freeEntry l).isNone⟩)

/-- A half whose engines are not powered (R469, R511). -/
def halfDown (s : State) (le : Nat) : Bool :=
  match halfOf le with
  | .west => s.pw.halfW == .off || s.pw.halfW == .tripped
  | .east => s.pw.halfE == .off || s.pw.halfE == .tripped

/-- Order 4: the first cause of Table 8.16 that holds. `partOk` is false for an image of a job that this module or its
node cannot take. -/
def order4 (s : State) (d : Bytes) (partOk : Bool) : Option Refuse :=
  let p := fun res le link => some (Refuse.placement (Refuse.report res false false le 0 link))
  match (Img.engines d).find? fun le => s.isLost le || s.halfDown le with
  | some le => p 0x01 le 0
  | none =>
    match (s.usedLinks d).find? fun l => s.isLost (Img.linkEnds l).1 || s.isLost (Img.linkEnds l).2 with
    | some l => p 0x01 (if s.isLost (Img.linkEnds l).1 then (Img.linkEnds l).1 else (Img.linkEnds l).2) l
    | none =>
      match (s.usedLinks d).find? fun l => decide (48 ≤ l) && ((s.fb.hinges[(l - 48) / 2]?).getD Hinge.reset).parked with
      | some l => p 0x0D 0 l
      | none =>
        match (servicePairs d).find? fun q => (s.route q.1 q.2).isNone with
        | some q => p 0x0D q.1 0x3F
        | none => if partOk then none else some (Refuse.placement 0)

/-- Binds the entry and hem lanes of a model on one link (R182). -/
def bindLink (model : Nat) (tag : BitVec 24) (need : Nat) (s : State) (l : Nat) : State :=
  match s.freeEntry l with
  | none => s
  | some e =>
    let mine := (s.freeLanes l).take need
    { s with fb := { s.fb with links := updAt s.fb.links l fun k =>
        { entries := updAt k.entries e fun _ =>
            some { model := model, tag := tag, drain := false, fwdOpen := false, backOpen := false }
          lanes := mapIdxFrom (fun i n => match mine.findIdx? (· == i) with
            | some v => { n with owner := some (e, v) }
            | none => n) 0 k.lanes } } }

/-- Binds every link that an image uses. -/
def bindLinks (s : State) (d : Bytes) (model : Nat) (tag : BitVec 24) : State :=
  (s.usedLinks d).foldl (fun t l => bindLink model tag (linkCount d l) t l) s

/-! ### Addresses in slices and the VSCALE file (log entry 22) -/

/-- The start of the first hole of a size among taken ranges, from a start, looked for at range ends. -/
def firstFit (taken : List (Nat × Nat)) (len : Nat) : Nat :=
  let starts := 0 :: taken.map fun r => r.1 + r.2
  let fits := starts.filter fun a => taken.all fun r => !Img.meets a len r.1 r.2
  (leastOf fits).getD 0

/-- Ranges taken in the dense or sparse region of a slice, or in the VSCALE file of an engine (unit 0). -/
def rangesIn (which : Model → List Alloc) (s : State) (le su : Nat) : List (Nat × Nat) :=
  s.taken.flatMap fun m => ((which m).filter fun a => decide (a.le = le) && decide (a.su = su)).map fun a => (a.base, a.len)

/-- Places a list of wanted pieces (engine, unit, length, item) one after the other by first fit. -/
def placeAll (taken : Nat → Nat → List (Nat × Nat)) : List Alloc → List (Nat × Nat × Nat × Nat) → List Alloc
  | done, [] => done
  | done, (le, su, len, item) :: rest =>
    let mine := (done.filter fun a => decide (a.le = le) && decide (a.su = su)).map fun a => (a.base, a.len)
    placeAll taken (done ++ [⟨le, su, firstFit (taken le su ++ mine) len, len, item⟩]) rest

end State

end Sys2Proof.Machine
end

