-- ==== Sys2Proof/Machine/Models.lean ====
section
/-! DEFINITION. Loading a model image: decryption, the orders of Table 8.7, and the entry that a load takes
(08 R214-R220; 19 R487, R494). -/

namespace Sys2Proof.Machine

namespace State

/-- A model-image key (19 Table 19.5); none where the slot is empty or there is no such index. -/
def modelKey (s : State) (index : Nat) : Option Bytes :=
  let k := Mem.bytes s.rs.keys (0x200 + 32 * index) 32
  if index ≤ 495 ∧ leNat k ≠ 0 then some k else none

/-- The key index of an image's or an update's encryption block at an offset (R219). -/
def keyIndex (d : Bytes) (off : Nat) : Nat := field d off 2

/-- The additional authenticated data: header bytes with the tag field read as zero (R219). -/
def aadOf (d : Bytes) (lo n : Nat) : Bytes :=
  slice d lo (n - 48) ++ List.replicate 16 0 ++ slice d (lo + n - 32) 32

/-- The plaintext image, for an image with ENC set and its key (R219). -/
def plainImage (key d : Bytes) : Bytes := d.take 128 ++ gcmCrypt key (slice d 68 12) (d.drop 128)

/-- The authentication tag holds (order 7). -/
def tagHolds (key d : Bytes) : Bool := gcmTag key (slice d 68 12) (aadOf d 0 128) (d.drop 128) == slice d 80 16

/-- What a load needs besides the image: the payload's length and job, the context charged, its grant, the tag of the
handle, the job, whether it is the node-0 part or no part at all, whether this node takes parts, what is wrong with the
part beside the parts loaded (14 R391), and a shortage of contexts or jobs (R388, R390). -/
structure LoadFor where
  len      : Nat
  jobField : Nat
  charge   : BitVec 24
  grant    : Grant
  owner    : BitVec 24
  fabric   : BitVec 24
  job      : Nat
  nodeZero : Bool
  partOk   : Bool
  queue    : Nat
  homeb    : Bool
  common   : Option Refuse
  short    : Option Refuse
  deriving DecidableEq, Repr

/-- The statistics area of a group: space 0, or pages of the owner already allocated in space 1 (R212). -/
def areaOk (s : State) (tag : BitVec 24) (addr n : Nat) : Bool :=
  let c := s.ctx (idOf tag)
  let off := addrOff addr
  if addrSpace addr = 0 then addrLe addr == 0
  else if addrSpace addr = 1 then
    bitAt c.grant.mask (addrLe addr) && (List.range (ceilDiv (off % 2 ^ 21 + n) (2 ^ 21))).all fun i =>
      (Tbl.getD c.pages (addrLe addr) []).contains (off / 2 ^ 21 + i)
  else false

/-- The image as the engines see it, or the refusal of order 2. -/
def openImage (s : State) (d : Bytes) : Except Refuse Bytes :=
  if Img.enc d then
    match s.modelKey (keyIndex d 64) with
    | some key => .ok (plainImage key d)
    | none => .error (Img.bad 64 9)
  else .ok d

/-- Order 7: the tag of an encrypted image. -/
def order7 (s : State) (d : Bytes) : Chk :=
  if Img.enc d then
    match s.modelKey (keyIndex d 64) with
    | some key => if tagHolds key d then none else some (Img.bad 0 8)
    | none => some (Img.bad 64 9)
  else none

/-- The checks of orders 1 to 5 on the bytes read, after which an entry is taken: the plaintext image, or the first
refusal (R215, R218). -/
def checkImage (s : State) (d : Bytes) (w : LoadFor) : Except Refuse Bytes :=
  match Img.order1 d w.len w.jobField with
  | some e => .error e
  | none =>
    match s.openImage d with
    | .error e => .error e
    | .ok img =>
      match Img.first [Img.order3 img w.nodeZero (s.areaOk w.owner), w.common, s.order4 img w.partOk,
          s.order5 img w.charge w.grant, w.short] with
      | some e => .error e
      | none => .ok img

/-- The checks of orders 6 to 8, made with the entry taken (R215). -/
def checkLate (s : State) (d img : Bytes) (w : LoadFor) : Option Refuse :=
  Img.first [Img.order6 img, s.order7 d, s.order8 img w.charge w.grant]

/-! ### The entry (R205, R214) -/

/-- The next load generation of an entry. -/
def nextModelGen (g : Nat) : Nat := if (g + 1) % 65536 = 0 then 1 else (g + 1) % 65536

/-- Record indices for the replica-blocks of an engine, lowest first (04 R91). -/
def takeRblks (held : List Nat) : Nat → List Nat
  | 0 => []
  | n + 1 =>
    let rest := takeRblks held n
    match ((List.range 923).filter fun i => !held.contains i && !rest.contains i).head? with
    | some i => rest ++ [i]
    | none => rest

/-- A replica-block at load: every state 0 (10 R283). -/
def newRBlock (le rblk su replica block : Nat) (b : Block) : RBlock :=
  { le := le, rblk := rblk, su := su, replica := replica, block := block, state := List.replicate b.n 0,
    fields := b.zeroFields, dE := 0, flips := 0, frozenTurns := 0, frozen := false, audit := 0, draw := 0, key := 0,
    col := none, dwell := 0, mirror := List.replicate b.spdir.length 0, pend := List.replicate b.spdir.length 0 }

/-- The replica-blocks of an image on one engine, in placement order, then ascending replica. -/
def rblocksOn (s : State) (d : Bytes) (blocks : List Block) (le : Nat) : List RBlock :=
  let slots := (Img.placesOf d le).flatMap fun x => (List.range x.1.count).map fun i => (x.1, x.1.first + i)
  let ids := takeRblks (s.rblksHeld le) slots.length
  mapIdxFrom (fun j (y : Place × Nat) =>
    newRBlock le (ids.getD j 0) (Img.placeUnit y.1) y.2 y.1.block (blocks.getD y.1.block
      { n := 0, q := 0, fmt := 0, sb := 0, scaled := false, colour := 0, codes := [], scales := [], bias := [],
        sparse := [], spdir := [] })) 0 slots

/-- The network of a model image (R208-R211). -/
def newNet (s : State) (d : Bytes) : Net :=
  let blocks := (List.range (Img.blocks d)).map (Img.block d)
  { relaxed := Img.relaxed d, heatbath := Img.heatbath d, replicas := Img.reps d, colours := Img.colours d,
    sx := Img.sx d, ladder := Img.ladder d, banks := Img.banks d, const := Img.const d,
    quantum := BitVec.ofNat 16 (Img.quantum d), blocks := blocks, places := (Img.places d).map (·.1),
    offsets := (Img.body d 8 0).map (·.toNat), stitches := (Img.stitches d).map Img.stitch, pairs := Img.pairs d,
    rblocks := (Img.engines d).flatMap (s.rblocksOn d blocks),
    kept := List.replicate (Img.reps d) (blocks.map fun b => List.replicate b.n 0),
    valid := List.replicate (Img.reps d) true, sums := Sums.none,
    sampled := false, updates := [], biasHeld := [], turnEnds := [], modelWord := Img.modelWord d, remoteD := [] }

/-- The store of a history-store image (R213). -/
def newStore (d : Bytes) : Store :=
  let o := Img.offOf d 0xD 0
  let f := fun k n => field d (o + k) n
  { fmt := f 0 1, ring := f 1 1 == 1, lpddr := f 2 1 == 1, whole := f 3 1 == 1, width := f 4 2, capacity := f 8 8,
    region := f 16 8, n := 0, visible := 0, ready := [], slots := [], waiting := [] }

/-- The placements of an image that bring a copy. -/
def imageCopies (d : Bytes) : List Place := (Img.engines d).flatMap fun le => Img.copies ((Img.placesOf d le).map (·.1))

/-- The dense allocations of an image: a history unit at its fixed place, code copies by first fit (log entry 22). -/
def denseAllocs (s : State) (d : Bytes) : List Alloc :=
  if Img.model d then
    placeAll (rangesIn (·.dense) s) [] ((imageCopies d).flatMap fun p =>
      (denseNeed (Img.bentry d p.block) p).map fun y => (p.le, y.1, y.2, p.block))
  else
    (imageSlices d).map fun x =>
      let n := (sliceNeed d x.1 x.2).1
      ⟨x.1, x.2, 33554432 - n, n, 0⟩

/-- The sparse allocations of an image. -/
def sparseAllocs (s : State) (d : Bytes) : List Alloc :=
  if Img.model d then
    placeAll (rangesIn (·.sparse) s) [] (((imageCopies d).filter fun p => decide ((Img.bentry d p.block).e ≠ 0)).map fun p =>
      (p.le, p.su, 4 * (Img.bentry d p.block).e, p.block))
  else
    ((imageSlices d).filter fun x => decide ((sliceNeed d x.1 x.2).2 ≠ 0)).map fun x => ⟨x.1, x.2, 0, 8388608, 0⟩

/-- The VSCALE vectors of an image, one for each scaled placement (R222). -/
def vscaleAllocs (s : State) (d : Bytes) : List Alloc :=
  if Img.model d then
    placeAll (rangesIn (·.vscale) s) [] (((Img.places d).filter fun x => decide ((Img.bentry d x.1.block).scaled = 1)).map
      fun x => (x.1.le, 0, 64 * ceilDiv (Img.bentry d x.1.block).n 64, x.1.block))
  else []

/-- The moment banks of an engine for an image: the highest banks of the replica area that are not moment banks yet (04 R122; 12
R349). -/
def momentBanks (s : State) (n le : Nat) : List (Nat × Nat) :=
  (((List.range 30).map fun i => (le, 29 - i)).filter fun x => !s.taken.any fun m => m.moments.contains x).take n

/-- The model table entry of an image. -/
def newModel (s : State) (d : Bytes) (w : LoadFor) (index : Nat) (key : Option Nat) : Model :=
  let les := Img.engines d
  { gen := nextModelGen (Tbl.getD s.mgens index 0), tag := w.owner, queue := w.queue, mask := Img.mask d,
    loading := true, unloading := none, gone := false, encrypted := key, job := w.job, links := s.usedLinks d,
    dense := s.denseAllocs d, sparse := s.sparseAllocs d, vscale := s.vscaleAllocs d,
    scratch := les.map fun le => (le, (engineNeed d le).2.1), lpddr := les.map fun le => (le, (engineNeed d le).2.2.2.2),
    pairsN := les.map fun le => (le, (engineNeed d le).2.2.2.1),
    moments := les.flatMap fun le => s.momentBanks (Img.banks d) le,
    history := if Img.model d then 0 else field d (Img.offOf d 0xD 0 + 8) 8,
    body := if Img.model d then .net (s.newNet d) else .store (newStore d) }

/-- A channel group at its allocation (06 R156, R157). -/
def newGroup (owner : GroupOwner) (tag : BitVec 24) (homeb : Bool) (le gbase : Nat) (x : Img.GroupDecl) : Group :=
  { owner := owner, tag := tag, homeb := homeb, le := le, gbase := gbase, outbound := x.out, raw := x.raw,
    mfmt := x.mfmt, len := x.len, high := x.high, area := x.area, vector := x.vector, block := x.block,
    started := false, seen := 0, completed := 0, events := 0, dropped := 0,
    chans := x.scales.map fun q => { qscale := BitVec.ofNat 16 q, clip := 0, total := 0, share := 0, zrun := 0, move := none },
    pending := [], policy := none, awaiting := false, stopped := false, areaErr := false }

/-- The groups of an image, in section order. -/
def newGroups (s : State) (d : Bytes) (w : LoadFor) (index : Nat) : List Group :=
  let bases := (findRuns (s.channelRuns (homeEngine d)) ((Img.groups d).map (·.g))).1
  mapIdxFrom (fun i x => newGroup (.model index i) w.owner w.homeb (homeEngine d) (bases.getD i 0) x) 0 (Img.groups d)

/-! ### Uncorrectable words (03 R83, R85) -/

/-- A word of a site is found uncorrectable: recorded, unless it stands so already. -/
def noteBadWord (s : State) (site : Nat) (place : ScrubPlace) (addr : Nat) : State :=
  s.updSite site fun t =>
    if t.badWords.contains (place, addr, false) then t else { t with badWords := t.badWords ++ [(place, addr, false)] }

/-- Words of a site are rewritten whole. -/
def rewriteWords (s : State) (site : Nat) (p : ScrubPlace → Nat → Bool) : State :=
  s.updSite site fun t =>
    { t with badWords := t.badWords.map fun w => if p w.1 w.2.1 then (w.1, w.2.1, true) else w }

/-- The slice or VSCALE word of an engine lies in a model (03 R83; log entry 22). -/
def wordOf (m : Model) (le : Nat) (place : ScrubPlace) (addr : Nat) : Bool :=
  match place with
  | .store su =>
    m.dense.any (fun a => decide (a.le = le) && decide (a.su = su) && Img.meets a.base a.len (8 * addr) 8) ||
    m.sparse.any fun a => decide (a.le = le) && decide (a.su = su) && Img.meets (33554432 + a.base) a.len (8 * addr) 8
  | .vscale => m.vscale.any fun a => decide (a.le = le) && Img.meets a.base a.len (8 * addr) 8
  | _ => false

/-- A word of an engine that an allocation of a model holds: a slice or VSCALE word, or one of a footprint. -/
def heldWord (m : Model) (le : Nat) (place : ScrubPlace) (addr : Nat) : Bool :=
  match place with
  | .footprint rblk => (rblocksOf m).any fun b => decide (b.le = le) && decide (b.rblk = rblk)
  | _ => wordOf m le place addr

/-- Every word that a model holds is written (03 R83; 08 R215 order 6, R228 orders 3 and 4). -/
def rewriteModel (s : State) (m : Model) : State :=
  ((List.range 32).filter fun le => bitAt m.mask le).foldl (fun t le => t.rewriteWords (t.siteOf le) (heldWord m le)) s

/-! ### Room (05 R133; log entry 22)
Free capacity is a count of bytes (R222, R223), so a piece must fit wherever the free bytes lie: the code copies of a region
that leaves no hole large enough are pushed together first. -/

/-- Ranges that lie below a limit and do not meet. -/
def apart (limit : Nat) : List (Nat × Nat) → Bool
  | [] => true
  | r :: rs => decide (r.1 + r.2 ≤ limit) && rs.all (fun x => !Img.meets r.1 r.2 x.1 x.2) && apart limit rs

/-- The ranges that networks hold in a region. -/
def codeRanges (which : Model → List Alloc) (s : State) (le su : Nat) : List (Nat × Nat) :=
  s.taken.flatMap fun m => match m.body with
    | .net _ => ((which m).filter fun a => decide (a.le = le) && decide (a.su = su)).map fun a => (a.base, a.len)
    | .store _ => []

/-- Where the piece at a base comes to lie once the pieces below it are pushed together. -/
def slidBase (ranges : List (Nat × Nat)) (base : Nat) : Nat := ((ranges.filter fun r => decide (r.1 < base)).map (·.2)).sum

/-- Where a word of a region that starts at `off` comes to lie. -/
def slidWord (ranges : List (Nat × Nat)) (off addr : Nat) : Nat :=
  match ranges.find? fun r => decide (off + r.1 ≤ 8 * addr) && decide (8 * addr < off + r.1 + r.2) with
  | some r => (8 * addr - r.1 + slidBase ranges r.1) / 8
  | none => addr

/-- Pushes the code copies of a region together; what is known of its words goes with them. -/
def slide (which : Model → List Alloc) (put : Model → List Alloc → Model) (off : Nat) (mine : ScrubPlace → Bool) (s : State)
    (le su : Nat) : State :=
  let rs := codeRanges which s le su
  ({ s with models := Tbl.mapVals s.models fun _ m => match m.body with
      | .net _ => put m ((which m).map fun (a : Alloc) => if a.le = le ∧ a.su = su then { a with base := slidBase rs a.base } else a)
      | .store _ => m }).updSite (s.siteOf le) fun x =>
    { x with badWords := x.badWords.map fun (w : ScrubPlace × Nat × Bool) => if mine w.1 then (w.1, slidWord rs off w.2.1, w.2.2) else w }

/-- Slides a region when the new pieces, placed by first fit, would not fit. -/
def roomFor (which : Model → List Alloc) (put : Model → List Alloc → Model) (off limit : Nat) (mine : ScrubPlace → Bool)
    (new : State → List Alloc) (s : State) (le su : Nat) : State :=
  let fresh := ((new s).filter fun (a : Alloc) => decide (a.le = le) && decide (a.su = su)).map fun a => (a.base, a.len)
  if apart limit (rangesIn which s le su ++ fresh) then s else slide which put off mine s le su

/-- Makes room for an image in every region that it takes. -/
def makeRoom (s : State) (d : Bytes) : State :=
  let t := (imageSlices d).foldl (fun t x =>
    let t := roomFor (·.dense) (fun m l => { m with dense := l }) 0 33554432 (· == .store x.2) (denseAllocs · d) t x.1 x.2
    roomFor (·.sparse) (fun m l => { m with sparse := l }) 33554432 8388608 (· == .store x.2) (sparseAllocs · d) t x.1 x.2) s
  (Img.engines d).foldl (fun t le =>
    roomFor (·.vscale) (fun m l => { m with vscale := l }) 0 65536 (· == .vscale) (vscaleAllocs · d) t le 0) t

/-- Takes an entry, allocates what the image needs, binds its links (orders 5, 6 and 8). -/
def install (s0 : State) (d : Bytes) (w : LoadFor) (index : Nat) : State :=
  let s := s0.makeRoom d
  let m := s.newModel d w index (if Img.enc d then some (keyIndex d 64) else none)
  (({ s with
    mgens := Tbl.put s.mgens index m.gen
    models := Tbl.put s.models index m
    groups := s.groups ++ s.newGroups d w index }).bindLinks d index w.fabric).rewriteModel m

/-- A load on this module: the new state with the entry taken, or with the refusal. A load refused at order 6 or later
had taken an entry at order 5, which it gives back with its GEN raised (R214, R216). -/
def loadImage (s : State) (d : Bytes) (w : LoadFor) : State × Except Refuse Nat :=
  match s.checkImage d w with
  | .error e => (s, .error e)
  | .ok img =>
    match Tbl.lowestFree s.models 0 4096 with
    | none => (s, .error (Refuse.capacity (Refuse.report 0x0C false false 0 0 0) 1))
    | some i =>
      match s.checkLate d img w with
      | some e => ({ s with mgens := Tbl.put s.mgens i (nextModelGen (Tbl.getD s.mgens i 0)) }, .error e)
      | none => (s.install img w i, .ok i)

/-- A spare shift runs in a half-row that holds an engine of the mask (07 R202, R226). -/
def shiftOver (s : State) (mask : Nat) : Bool :=
  (List.range 32).any fun le => bitAt mask le && ((s.fb.hrows[hrowOf le]?).getD HalfRow.reset).shift.isSome

end State

end Sys2Proof.Machine
end

