-- ==== Sys2Proof/Machine/Quant.lean ====
section
/-! DEFINITION. The quantisation stage: exact conversion (06 R159-R162), statistics blocks and areas (R163-R165), block
numbers and scale-update records (R166-R170), and the firmware scale policy (R171-R173), with the meanings of
SCALE_POLICY and SCALE_POLICY_DECISION. -/

namespace Sys2Proof.Machine

/-! ### Conversion -/

/-- A raw value, exact: an integer times a power of two, or a binary32 special. -/
inductive RawVal where
  | fin (n e : Int)
  | nan
  | inf (neg : Bool)
  deriving DecidableEq, Repr

/-- The bytes of a raw value by format: int16, int32, binary32 (Table 6.1). -/
def rawBytes (raw : Nat) : Nat := if raw = 0 then 2 else 4

/-- A raw value from its bits (R159 step 1). -/
def rawValue (raw v : Nat) : RawVal :=
  if raw = 0 then .fin (toSigned 16 v) 0
  else if raw = 1 then .fin (toSigned 32 v) 0
  else
    let e := bits v 23 8
    let m : Nat := v % 2 ^ 23
    let neg := bitAt v 31
    if e = 255 then (if m = 0 then .inf neg else .nan)
    else
      let mag : Nat := if e = 0 then m else m + 2 ^ 23
      .fin (if neg then -(mag : Int) else mag) (if e = 0 then -149 else (e : Int) - 150)

/-- Mantissa and exponent of an SC16 value (02 Table 2.3). -/
def scM (q : BitVec 16) : Nat := q.toNat % 256
def scE (q : BitVec 16) : Int := toSigned 8 (q.toNat / 256)

/-- n·2^e / d, rounded to the nearest integer, ties to even. -/
def roundScaled (n e : Int) (d : Nat) : Int :=
  if 0 ≤ e then roundEven (n * 2 ^ e.toNat) d else roundEven n (d * 2 ^ (-e).toNat)

/-- The range of a model format: K8, K4, K1, BIAS32 (R159 step 4). -/
def modelRange (mfmt : Nat) : Int × Int :=
  if mfmt = 0 then (-128, 127) else if mfmt = 1 then (-8, 7) else if mfmt = 2 then (-1, 1) else (-2147483648, 2147483647)

/-- An inbound conversion: the model integer and whether it counts as clipped (R159, R160). -/
def convertIn (mfmt : Nat) (q : BitVec 16) (x : RawVal) : Int × Bool :=
  let (lo, hi) := modelRange mfmt
  let fix := fun (v : Int) => if mfmt = 2 ∧ v = 0 then 1 else v
  match x with
  | .nan => (fix 0, true)
  | .inf neg => (if neg then lo else hi, true)
  | .fin n e =>
    let v := roundScaled n (e - scE q) (scM q)
    (fix (clamp lo hi v), decide (clamp lo hi v ≠ v))

/-- The exponent of the unit in the last place of a binary32 result n·2^e, with n positive. -/
def ulpExp (n : Nat) (e : Int) : Int := max (-149) ((Nat.log2 n : Int) + e - 23)

/-- The binary32 bits of n·2^e without sign, and whether it was cut to the largest finite value (R161). -/
def toBinary32 (n : Nat) (e : Int) : Nat × Bool :=
  if n = 0 then (0, false)
  else
    let u := ulpExp n e
    let q := (roundScaled n (e - u) 1).toNat
    -- rounding up to 2^24 moves to the next exponent, which the encoding below does by itself
    let v := if u = -149 then q else (u + 150).toNat * 2 ^ 23 + (q - 2 ^ 23)
    if 0x7F800000 ≤ v then (0x7F7FFFFF, true) else (v, false)

/-- An outbound conversion: the raw bits and whether it counts as clipped (R161). -/
def convertOut (raw : Nat) (q : BitVec 16) (v : Int) : Nat × Bool :=
  let p := v * scM q
  if raw = 2 then
    let (b, c) := toBinary32 p.natAbs (scE q)
    (b + (if p < 0 then 2 ^ 31 else 0), c)
  else
    let w := if raw = 0 then 16 else 32
    let r := roundScaled p (scE q) 1
    let c := clamp (-(2 ^ (w - 1) : Int)) ((2 ^ (w - 1) : Int) - 1) r
    (ofSigned w c, decide (c ≠ r))

/-- The order of two SC16 values (R171). -/
def scLe (a b : BitVec 16) : Bool :=
  decide (scM a * 2 ^ (scE a + 128).toNat ≤ scM b * 2 ^ (scE b + 128).toNat)

/-- An SC16 value with its exponent moved by one, where the exponent field can hold it. -/
def scMove (q : BitVec 16) (up : Bool) : Option (BitVec 16) :=
  let e := scE q + (if up then 1 else -1)
  if -128 ≤ e ∧ e ≤ 127 then some (BitVec.ofNat 16 (scM q + 256 * ofSigned 8 e)) else none

/-! ### Blocks and statistics -/

namespace Group

/-- The number of the next block. -/
def nextBlock (b : Nat) : Nat := (b + 1) % 65536

/-- The pending update of a channel for a block. -/
def pendingFor (g : Group) (b ch : Nat) : Option (BitVec 16) :=
  (g.pending.find? fun p => decide (p.tblk = b) && decide (p.ch = ch)).map (·.qscale)

/-- A block number lies in the past of the running or expected block (R169). -/
def past (g : Group) (tblk : Nat) : Bool := decide (32768 ≤ (tblk + 65536 - g.block) % 65536)

/-- The block begins: pending records of its number apply, else the policy's moves; counts restart (R169, R173). -/
def startBlock (g : Group) : Group :=
  { g with
    started := true, seen := 0
    pending := g.pending.filter fun p => decide (p.tblk ≠ g.block)
    dropped := g.dropped + (mapIdxFrom (fun i c => b2n (c.move.isSome && (g.pendingFor g.block i).isSome)) 0 g.chans).sum
    chans := mapIdxFrom (fun i c =>
      match g.pendingFor g.block i with
      | some q => { c with qscale := q, clip := 0, total := 0, move := none, zrun := if c.move.isSome then 0 else c.zrun }
      | none => { c with qscale := c.move.getD c.qscale, clip := 0, total := 0, move := none }) 0 g.chans }

/-- The share of a channel (R163). -/
def shareOf (c : Chan) : Nat := if c.total = 0 then 0 else min 0xFFFF (c.clip * 65536 / c.total)

/-- Counts a vector's values by channel. -/
def count (g : Group) (clips : List Bool) : Group :=
  let n := g.chans.length
  { g with chans := mapIdxFrom (fun i c =>
      let mine := indicesFrom (fun (_ : Bool) => true) 0 clips |>.filter fun d => decide (d % n = i)
      { c with total := c.total + mine.length, clip := c.clip + (mine.filter fun d => clips.getD d false).length }) 0 g.chans }

/-- A sample has been converted: the block ends with its L-th (R163). -/
def sampleDone (g : Group) : Group :=
  if g.seen + 1 < g.len then { g with seen := g.seen + 1 }
  else
    { g with
      seen := 0, started := false, block := nextBlock g.block, completed := satInc 32 g.completed,
      awaiting := g.policy.isSome
      chans := g.chans.map fun c =>
        { c with share := shareOf c, zrun := if c.total = 0 then c.zrun else if c.clip = 0 then satInc 8 c.zrun else 0 } }

/-- Channels whose share exceeds the high mark. -/
def overHigh (g : Group) : Nat := (g.chans.filter fun c => decide (g.high < c.share)).length

/-- The scale of a channel for the next block as known now (Table 6.3). -/
def nextScale (g : Group) (i : Nat) (c : Chan) : BitVec 16 := (g.pendingFor g.block i).getD (c.move.getD c.qscale)

/-- The statistics area of the block just completed, with the policy's flags by channel (Table 6.3). The
count of dropped policy changes stops at its field's greatest value (DESIGN CHOICE, log entry 130). -/
def areaBytes (g : Group) (flags : List Nat) : Bytes :=
  leBytes 2 ((g.block + 65535) % 65536) ++ leBytes 2 g.overHigh ++ leBytes 4 g.completed ++ leBytes 4 g.events ++
  leBytes 2 (min g.dropped 0xFFFF) ++ List.replicate 50 0 ++
  (mapIdxFrom (fun i c =>
    leBytes 4 c.total ++ leBytes 4 c.clip ++ leBytes 2 c.share ++ leBytes 2 c.qscale.toNat ++
    leBytes 2 (g.nextScale i c).toNat ++ leBytes 2 (flags.getD i 0)) 0 g.chans).flatten

/-- The policy's decision for one channel: its flags, and the channel (R171, R173). -/
def decide1 (g : Group) (p : Policy) (i : Nat) (c : Chan) : Nat × Chan × Nat :=
  let up := decide (g.high < c.share)
  let down := decide (p.n ≤ c.zrun)
  if up || down then
    match scMove c.qscale up with
    | some q =>
      if (if up then scLe q p.ceil else scLe p.floor q) then
        if (g.pendingFor g.block i).isSome then (0, { c with zrun := 0 }, 1)
        else (if up then 1 else 2, { c with move := some q, zrun := 0 }, 0)
      else (4, c, 0)
    | none => (4, c, 0)
  else (0, c, 0)

end Group

/-- A mismatch found in a conversion: expected and found block, channel, and whether a record was at fault (R170). -/
structure TagMiss where
  expected : Nat
  found    : Nat
  ch       : Nat
  record   : Bool
  deriving DecidableEq, Repr

/-- Result word 0 of FAULT_QUANT_TAG (10 Table 10.19). -/
def TagMiss.word (m : TagMiss) : W64 :=
  pack [(0, 16, m.expected), (16, 16, m.found), (32, 12, m.ch), (44, 1, b2n m.record)]

namespace Group

/-- Opens the block for an inbound sample: its number must be the group's; at the start of a block a record that has
come to lie in the past is discarded and charged to this sample (R166, R169, R170). -/
def openBlock (g : Group) (number : Nat) : Except (TagMiss × Group) Group :=
  if number ≠ g.block then .error (⟨g.block, number, 0, false⟩, g)
  else if g.started then .ok g
  else
    match g.pending.find? fun p => g.past p.tblk with
    | some p => .error (⟨g.block, p.tblk, p.ch, true⟩, { g with pending := g.pending.filter fun q => !g.past q.tblk })
    | none => .ok g.startBlock

/-- Converts an inbound sample: its vector, and the group afterwards (R158, R159). -/
def convert (g : Group) (number : Nat) (raws : Bytes) (n : Nat) : Except (TagMiss × Group) (List Int × Group) :=
  match g.openBlock number with
  | .error e => .error e
  | .ok g1 =>
    let w := rawBytes g.raw
    let rs := (List.range n).map fun d =>
      convertIn g.mfmt ((g1.chans[d % g1.chans.length]?).map (·.qscale) |>.getD 0) (rawValue g.raw (field raws (w * d) w))
    .ok (rs.map (·.1), (g1.count (rs.map (·.2))).sampleDone)

/-- Converts an outbound result vector: its raw bytes and its block number (R161, R167). SITE_BIND declares the group; an outbound
group that an image declares has no command that uses it (DEDUCED, log entry 132). -/
def convertResult (g : Group) (vs : List Int) : Bytes × Nat × Group :=
  let g1 := if g.started then g else g.startBlock
  let w := rawBytes g.raw
  let rs := mapIdxFrom (fun d v => convertOut g.raw ((g1.chans[d % g1.chans.length]?).map (·.qscale) |>.getD 0) v) 0 vs
  ((rs.map fun r => leBytes w r.1).flatten, g1.block, (g1.count (rs.map (·.2))).sampleDone)

/-- The records of one scale section or message, checked before any is queued (R168, R169): the index of the first
invalid one, or the first tag mismatch. -/
def checkRecord (g : Group) (p : ScaleUpd) : Option TagMiss :=
  if g.past p.tblk || (g.started && decide (p.tblk = g.block)) then some ⟨g.block, p.tblk, p.ch, true⟩
  else if g.pending.any fun q => decide (q.tblk = p.tblk) && decide (q.ch = p.ch) then some ⟨g.block, p.tblk, p.ch, true⟩
  else if 2 ≤ ((g.pending.map (·.tblk)).eraseDups.filter fun t => decide (t ≠ p.tblk)).length then
    some ⟨g.block, p.tblk, p.ch, true⟩
  else none

/-- Queues records in order, or answers the first mismatch. -/
def queueRecords (g : Group) : List ScaleUpd → Except TagMiss Group
  | [] => .ok g
  | p :: ps =>
    match g.checkRecord p with
    | some m => .error m
    | none => queueRecords { g with pending := g.pending ++ [p] } ps

end Group

/-- A scale-update record of 16 bytes (Table 6.4): the record, and the offset in it of what R168 refuses. -/
def scaleRecord (bs : Bytes) : ScaleUpd := ⟨field bs 0 2, field bs 2 2 % 4096, BitVec.ofNat 16 (field bs 4 2)⟩

/-- The offset in a record of its first invalid field for a group of G channels (R168). -/
def scaleRecordBad (g : Nat) (bs : Bytes) : Option Nat :=
  leastOf ((if g ≤ field bs 2 2 % 4096 ∨ field bs 2 2 / 4096 ≠ 0 then [2] else []) ++
    (if sc16Valid (field bs 4 2) then [] else [4]) ++ uncovered bs [] 6 10)

namespace State

/-- Changes a group by owner. -/
def updGroup (s : State) (o : GroupOwner) (f : Group → Group) : State :=
  { s with groups := s.groups.map fun g => if g.owner = o then f g else g }

/-- A group by owner. -/
def group? (s : State) (o : GroupOwner) : Option Group := s.groups.find? fun g => decide (g.owner = o)

/-- Writes a group's statistics area; a write that is answered with an error, or that cannot be made since no link is up or a page of
the area has been given back, is dropped and shown in AREAERR (R165; 12 R339). -/
def writeArea (s : State) (g : Group) (bs : Bytes) (ok : Bool) : State :=
  let a := g.area.toNat
  if !ok || !s.areaOk g.tag a bs.length || (decide (addrSpace a = 0) && !s.hostUp) then s.updGroup g.owner fun g => { g with areaErr := true }
  else if addrSpace a = 0 then s.writeHost (if g.homeb then .b else .a) (addrOff a) bs
  else s.writePages (idOf g.tag) a bs

/-- The end of a block: the area is written, then the threshold event raised (R164, R165). -/
def closeBlock (s : State) (o : GroupOwner) (flags : List Nat) (areaOk : Bool) : State :=
  match s.group? o with
  | none => s
  | some g0 =>
    let g := if g0.overHigh = 0 then g0 else { g0 with events := satInc 32 g0.events }
    let t := (s.updGroup o fun _ => g).writeArea g (g.areaBytes flags) areaOk
    if g.overHigh = 0 then t else t.sendSignal (if g.homeb then .b else .a) g.vector

/-- Stores a group after a conversion; a block that has ended without a policy is closed at once (R164, R172). -/
def putGroup (s : State) (g : Group) (before : Nat) (areaOk : Bool) : State :=
  let t := s.updGroup g.owner fun _ => g
  if g.started = false ∧ g.block ≠ before ∧ g.awaiting = false then t.closeBlock g.owner [] areaOk else t

/-- The firmware's decision for the block that a group has completed (R171-R173). It changes no scale of a group that has stopped. -/
def policyDecision (s : State) (le gbase : Nat) (areaOk : Bool) : State :=
  match s.groups.find? fun g => decide (g.le = le) && decide (g.gbase = gbase) && g.awaiting with
  | none => s
  | some g =>
    match g.policy with
    | none => s
    | some p =>
      let rs := if g.stopped then g.chans.map fun c => (0, c, 0) else mapIdxFrom (g.decide1 p) 0 g.chans
      let g1 := { g with awaiting := false, chans := rs.map (·.2.1), dropped := g.dropped + (rs.map (·.2.2)).sum }
      (s.updGroup g.owner fun _ => g1).closeBlock g.owner (rs.map (·.1)) areaOk

/-! ### SCALE_POLICY (R171; 10 R297) -/

/-- The group that SCALE_POLICY names, or the refusal: the owner at byte 64, the group index at byte 72. -/
def policyGroup (s : State) (r : Request) : Except Refuse GroupOwner :=
  let h := r.fld 64 8
  if r.fld 56 1 = 0 then
    match s.model? (h % 4096) with
    | some m =>
      if (handleOf (h % 4096) m).toNat = h ∧ m.loading = false ∧ m.unloading = none ∧ m.gone = false then
        match s.group? (.model (h % 4096) (r.fld 72 2)) with
        | some g => .ok g.owner
        | none => .error (Refuse.field 72 0)
      else .error (Refuse.field 64 0)
    | none => .error (Refuse.field 64 0)
  else
    match (if h < 65536 then s.group? (.stream h) else none) with
    | some g => if r.fld 72 2 = 0 then .ok g.owner else .error (Refuse.field 72 0)
    | none => .error (Refuse.field 64 0)

/-- Sets or clears a group's policy. A group that waits for a decision goes on without one when the policy is
disabled. -/
def setPolicy (s : State) (o : GroupOwner) (p : Option Policy) (areaOk : Bool) : State :=
  match s.group? o with
  | none => s
  | some g =>
    let t := s.updGroup o fun g => { g with policy := p, awaiting := g.awaiting && p.isSome }
    if g.awaiting ∧ p = none then t.closeBlock o [] areaOk else t

/-- Dispatches a SCALE_POLICY. -/
def scalePolicy (s : State) (k : ReqKey) (areaOk : Bool) : State :=
  match s.ready? k Op.scalePolicy with
  | none => s
  | some r =>
    match s.policyGroup r with
    | .error x => s.refuse k x
    | .ok o =>
      let p := if bitAt (r.fld 57 1) 0 then
          some { n := r.fld 58 1, floor := BitVec.ofNat 16 (r.fld 60 2), ceil := BitVec.ofNat 16 (r.fld 62 2) }
        else none
      (s.setPolicy o p areaOk).okReq k 0 0

end State

def execScalePolicy (r : ReqKey) (areaOk : Bool) (s : State) : Host.Outcome State Fault Refusal := .next (s.scalePolicy r areaOk)

def execScalePolicyDecision (le gbase : Nat) (areaOk : Bool) (s : State) : Host.Outcome State Fault Refusal :=
  .next (s.policyDecision le gbase areaOk)

end Sys2Proof.Machine
end

