-- ==== Sys2Proof/Machine/Access.lean ====
section
/-! DEFINITION. Which register accesses of a host port are answered (13 R366-R371, R376; 20 R497). -/

namespace Sys2Proof.Machine

/-- How an access of a register is answered. -/
inductive RegReach where
  | open_
  | resetting
  | refused
  | zero
  | noLink
  deriving DecidableEq, Repr

/-- A block that answers during a core reset: MG, HP and RS (20 Table 20.1). -/
def duringCore (off : Nat) : Bool := decide (off < 0x2000) || (decide (0x33000 ≤ off) && decide (off < 0x34000))

/-- The recovery registers RS_RCVADDR, RS_RCVLEN and RS_RCVCMD (17 R462). -/
def recoveryReg (off : Nat) : Bool := off == 0x33010 || off == 0x33018 || off == 0x33020

/-- An offset of a register block; the rest of the window is reserved (20 Table 20.1). -/
def inBlock (off : Nat) : Bool :=
  decide (off < 0x5000) || (decide (0x10000 ≤ off) && decide (off < 0x1A000)) || (decide (0x20000 ≤ off) && decide (off < 0x35000))

/-- An offset that answers in recovery mode (20 Table 20.1, 17 R461). -/
def inRecovery (off : Nat) : Bool :=
  decide (off < 0x2000) || off == 0x33000 || off == 0x33008 || recoveryReg off ||
  (decide (0x33200 ≤ off) && decide (off < 0x33300))

namespace State

/-- How a port's access of a register offset is answered. -/
def regReach (s : State) (p : Port) (off : Nat) : RegReach :=
  if s.linkUp p = false then .noLink
  else if s.rs.core && !duringCore off then (if inBlock off then .resetting else .refused)
  else if s.rs.recovery then (if inRecovery off then .open_ else .refused)
  else if s.rs.phase = 0xE && !duringCore off then .refused
  else if recoveryReg off then .zero
  else .open_

/-- A write by a port: what it does while the register answers, a drop without count while RESETTING, and a counted
drop where it is refused. -/
def onWrite (s : State) (p : Port) (off : Nat) (f : State → State) : State :=
  match s.regReach p off with
  | .open_ => f (s.wakeLink p)
  | .resetting => s.wakeLink p
  | .refused | .zero => (s.wakeLink p).dropAccess
  | .noLink => s

/-- A read by a port: what it does while the register answers, RESETTING, or an error response that is counted. -/
def onRead (s : State) (p : Port) (off : Nat) (f : State → State) : State :=
  match s.regReach p off with
  | .open_ => f (s.wakeLink p)
  | .resetting => (s.wakeLink p).answer p .resetting
  | .refused => (s.wakeLink p).badAccess p
  | .zero => (s.wakeLink p).answer p (.value 0)
  | .noLink => s

/-- A port holds Hasp 0. -/
def holdsSetup (s : State) (p : Port) : Bool := s.hp.hasps.getD 0 none == some p

/-- A write to a register with an RWL field: it acts for the port that holds Hasp 0, else it is dropped and recorded in
HP_ERR (R371). -/
def onRwl (s : State) (p : Port) (off : Nat) (f : State → State) : State :=
  s.onWrite p off fun t =>
    if t.holdsSetup p then f t
    else { t with hp := { t.hp with rwldrop := true, rwlPort := some p, rwlOff := off / 4 } }

end State

end Sys2Proof.Machine
end

