-- ==== Sys2Proof/Machine/Entropy.lean ====
section
/-! DEFINITION. The entropy service (16 R423-R434, R441), with the meanings of CONDITIONER_BLOCK, HEALTH_TEST_FAILURE,
STARTUP_TEST_PASS, RN_DATA_READ, RN_DRBG_READ and RELEASE. -/

namespace Sys2Proof.Machine

namespace State

/-- AES-256 CBC-MAC of the eight blocks of conditioner input (R423). -/
def cbcMac (key : Bytes) (data : Bytes) : Bytes :=
  (chunks 16 (data.length / 16) data).foldl (fun acc blk =>
    aes key (List.zipWith (fun x y => x ^^^ y) acc blk)) (List.replicate 16 0)

/-- A conditioned output block of 1,024 raw bits. -/
def condition (raw : BitVec 1024) : BitVec 128 :=
  BitVec.ofNat 128 (leNat (cbcMac (leBytes 32 Config.conditionerKey.toNat) (leBytes 128 raw.toNat)))

/-- The instance that the next blocks seed, in the order of R429: the firmware instance waits for firmware to run again
after a core reset (R441). -/
def needsSeed (s : State) : Option (Fin 3) :=
  let r := s.rn
  if r.fw.isNone && (r.win0.isNone || s.mg.running.isSome) then some 0
  else if r.win0.isNone then some 1
  else if r.win1.isNone then some 2
  else none

/-- An instance from 384 bits of conditioned output (R429). -/
def instantiate (s : State) (which : Fin 3) (blocks : List (BitVec 128)) : State :=
  let d := Drbg.ofSeed (blocks.flatMap fun b => leBytes 16 b.toNat)
  let r := { s.rn with seedBlocks := [] }
  match which with
  | 0 => { s with rn := { r with fw := some d } }
  | 1 => { s with rn := { r with win0 := some d } }
  | 2 => { s with rn := { r with win1 := some d } }

/-- A conditioned block goes to the instance that waits for seed material, else to the queue while it has room (R429,
R432). -/
def conditioned (s : State) (b : BitVec 128) : State :=
  match s.needsSeed with
  | some i =>
    let have_ := s.rn.seedBlocks ++ [b]
    if have_.length < 3 then { s with rn := { s.rn with seedBlocks := have_ } } else s.instantiate i have_
  | none =>
    if s.rn.queue.length + 2 ≤ 512 then
      { s with rn := { s.rn with queue := s.rn.queue ++ [BitVec.ofNat 64 (b.toNat % 2 ^ 64), BitVec.ofNat 64 (b.toNat / 2 ^ 64)] } }
    else s

/-- The repetition count over the bits of a block, bit 0 the earliest (DEDUCED, log 106): the last bit, the length of the
run it ends, and whether a run reached 81 (R424). The run goes on from the block before. -/
def runScan (s : State) (raw : BitVec 1024) : Bool × Nat × Bool :=
  (List.range 1024).foldl (fun acc k =>
    let b := raw.getLsbD k
    let n := if b = acc.1 then acc.2.1 + 1 else 1
    (b, n, acc.2.2 || decide (81 ≤ n))) (s.rn.runBit, s.rn.run, false)

/-- Whether the first bit of a window of 1,024 bits occurs in it 840 times or more (R424). -/
def oneSided (raw : BitVec 1024) : Bool :=
  decide (840 ≤ ((List.range 1024).filter fun k => raw.getLsbD k == raw.getLsbD 0).length)

/-- The health test that the raw bits of a block fail, if they fail one: some false the repetition count, which is
detected at the failing sample, some true the adaptive proportion, detected at the end of the window (R424). -/
def rawFault (s : State) (raw : BitVec 1024) : Option Bool :=
  if (s.runScan raw).2.2 then some false else if oneSided raw then some true else none

/-- The queue and the instances are flushed, and the block in progress is discarded (R427 steps 1 to 3). -/
def flushEntropy (s : State) : State :=
  { s with rn := { s.rn with queue := [], seedBlocks := [], fw := none, win0 := none, win1 := none, run := 0 } }

/-- A health test fails: in state OK the steps of R427, after which the new startup test has begun (Table 16.3, Table
16.5); a failure of a startup test is counted, and the test repeats (R425, R427). -/
def healthFailure (s : State) (proportion : Bool) : State :=
  match s.rn.state with
  | .off => s
  | .ok =>
    let t := s.flushEntropy
    ({ t with rn := { t.rn with
        state := .startup, fallen := true, testOk := false
        rctFail := if proportion then t.rn.rctFail else satInc 16 t.rn.rctFail
        aptFail := if proportion then satInc 16 t.rn.aptFail else t.rn.aptFail } }).eventSignal
  | .startup => { s with rn := { s.rn with testOk := false, startFail := satInc 16 s.rn.startFail } }
  | .failed =>
    { s with rn := { s.rn with
        state := .startup, fallen := true, testOk := false, startFail := satInc 16 s.rn.startFail } }

/-- Every raw bit passes both health tests before it enters the conditioner (R424), which runs in state OK only (R425,
R426). -/
def conditionerBlock (s : State) (raw : BitVec 1024) : State :=
  if s.rn.state = .ok then
    match s.rawFault raw with
    | some proportion => s.healthFailure proportion
    | none =>
      State.conditioned { s with rn := { s.rn with runBit := (s.runScan raw).1, run := (s.runScan raw).2.1 } } (condition raw)
  else s

/-- The source enters OK; a return after a failure is counted (R428). -/
def entropyOk (s : State) (after : Bool) : State :=
  { s with rn := { s.rn with
      state := .ok, testOk := false, fallen := false
      returns := if after then satInc 16 s.rn.returns else s.rn.returns } }

/-- A startup test passes: the source enters OK, but after a failure under LATCH it stays FAILED until RELEASE (R425,
R428). -/
def startupPass (s : State) : State :=
  match s.rn.state with
  | .off => s
  | .ok => s
  | .startup =>
    if s.rn.fallen && s.rn.latch then { s with rn := { s.rn with state := .failed, testOk := true } }
    else s.entropyOk s.rn.fallen
  | .failed => if s.rn.latch then { s with rn := { s.rn with testOk := true } } else s.entropyOk true

/-- Sets ERR of a window. -/
def setErr (s : State) (w : Nat) : State :=
  if w = 0 then { s with rn := { s.rn with err0 := true } } else { s with rn := { s.rn with err1 := true } }

/-- A read of RN_DATA: the oldest word, or 0 with ERR (R433). -/
def rnData (s : State) (p : Port) (w : Nat) : State :=
  if 1 < w then s
  else
    s.onRead p (0x30000 + 0x40 * w) fun t =>
      match t.rn.state, t.rn.queue with
      | .ok, x :: rest => ({ t with rn := { t.rn with queue := rest } }).answer p (.value x)
      | _, _ => (t.setErr w).answer p (.value 0)

/-- The instance of a window. -/
def window (s : State) (w : Nat) : Option Drbg := if w = 0 then s.rn.win0 else s.rn.win1

/-- Sets the instance of a window. -/
def setWindow (s : State) (w : Nat) (d : Drbg) : State :=
  if w = 0 then { s with rn := { s.rn with win0 := some d } } else { s with rn := { s.rn with win1 := some d } }

/-- A read of RN_DRBG: 64 bits of one generate call, after a reseed where it is due (R434). -/
def rnDrbg (s : State) (p : Port) (w : Nat) : State :=
  if 1 < w then s
  else
    s.onRead p (0x30010 + 0x40 * w) fun t =>
      let give := fun (t : State) (d : Drbg) =>
        let (out, d') := d.generate 8
        (t.setWindow w d').answer p (.value (BitVec.ofNat 64 (leNat out)))
      match t.rn.state, t.window w with
      | .ok, some d =>
        if d.calls < 65536 then give t d
        else if t.rn.queue.length < 6 then (t.setErr w).answer p (.value 0)
        else
          give { t with rn := { t.rn with queue := t.rn.queue.drop 6 } }
            (d.reseed ((t.rn.queue.take 6).flatMap fun x => leBytes 8 x.toNat))
      | _, _ => (t.setErr w).answer p (.value 0)

/-- RN_CFG.RELEASE: a source that stays FAILED though its last startup test passed returns to OK (R428). -/
def releaseEntropy (s : State) : State :=
  if s.rn.state = .failed ∧ s.rn.testOk = true then s.entropyOk true else s

/-- Bytes of one generate call on the firmware instance, or none while it is zeroed (R431). -/
def drawFw (s : State) (n : Nat) : Option (Bytes × State) :=
  match s.rn.fw with
  | some d =>
    let (out, d') := d.generate n
    some (out, { s with rn := { s.rn with fw := some d' } })
  | none => none

/-- The ENTROPY domain goes on: the startup test begins (R425). -/
def entropyOn (s : State) : State := { s with rn := { s.rn with state := .startup, testOk := false, run := 0 } }

end State

def execConditionerBlock (raw : BitVec 1024) (s : State) : Host.Outcome State Fault Refusal :=
  .next (s.conditionerBlock raw)

def execHealthTestFailure (proportion : Bool) (s : State) : Host.Outcome State Fault Refusal :=
  .next (s.healthFailure proportion)

def execStartupTestPass (s : State) : Host.Outcome State Fault Refusal := .next s.startupPass

def execRnDataRead (p : Port) (w : Nat) (s : State) : Host.Outcome State Fault Refusal := .next (s.rnData p w)

def execRnDrbgRead (p : Port) (w : Nat) (s : State) : Host.Outcome State Fault Refusal := .next (s.rnDrbg p w)

/-- The write of RELEASE to RN_CFG, which holds an RWL field (13 R371). -/
def execRelease (p : Port) (s : State) : Host.Outcome State Fault Refusal :=
  .next (s.onRwl p 0x30080 State.releaseEntropy)

end Sys2Proof.Machine
end

