-- ==== Sys2Proof/Machine/Engine.lean ====
section
/-! DEFINITION. Sweep units and stitch lanes: damaged words, hem-lane words and their sending, one flip (03 R56-R86),
and receipt of hem flips, turn ends and drain markers (07 R183-R192), with the meanings of FLIP, HEM_FLIP and
TURN_END_STITCH. -/

namespace Sys2Proof.Machine

/-! ### Blocks of a network -/

/-- No block. -/
def Block.empty : Block :=
  { n := 0, q := 0, fmt := 0, sb := 0, scaled := false, colour := 0, codes := [], scales := [], bias := [],
    sparse := [], spdir := [] }

namespace Net

/-- A block by number. -/
def block (n : Net) (k : Nat) : Block := n.blocks.getD k Block.empty

/-- The key of a hem source: block and variable. -/
def srcKey (d : SpDir) : Nat := d.blk * 8192 + d.var

/-- The scale in force of a hem source: its own block's, or for a source in another part of a job the one carried
(03 R64, R88). -/
def srcScale (n : Net) (d : SpDir) : Int :=
  if d.blk < n.blocks.length then (n.block d.blk).scale d.var else (Tbl.getD n.remoteD (srcKey d) (Config.remoteScale n.modelWord (srcKey d)).toNat : Nat)

/-- The sources of a replica-block with their mirror states and scales (03 R88). -/
def sources (n : Net) (b : RBlock) : List (SpDir × Nat × Int) :=
  mapIdxFrom (fun i d => (d, b.mirror.getD i 0, n.srcScale d)) 0 (n.block b.block).spdir

/-- The full-audit form of a replica-block (03 R88): its fields from nothing, or the lane that overflowed. -/
def rebuild (n : Net) (b : RBlock) : Except Nat RBlock :=
  match (n.block b.block).fullFields n.sx b.state (n.sources b) with
  | .ok f => .ok { b with fields := f, col := none }
  | .error lane => .error lane

/-- The column that the last selection left is applied (03 R56 S1, S2; log entry 15). -/
def applyCol (n : Net) (b : RBlock) : Except Nat RBlock :=
  match b.col with
  | none => .ok b
  | some (j, old, new) =>
    match (n.block b.block).denseUpdate b.fields j old new with
    | .ok f => .ok { b with fields := f, col := none }
    | .error lane => .error lane

/-- A replica-block runs in the turn of a run (03 R58, 04 R97, R99, R101). -/
def active (n : Net) (u : Run) (b : RBlock) : Bool :=
  decide (b.replica < u.reps) &&
  (n.relaxed || decide ((n.block b.block).colour = (u.turn + n.offsets.getD b.replica 0) % max n.colours 1))

/-- A replica-block has left the round of the turn (03 R58). -/
def done (n : Net) (u : Run) (b : RBlock) : Bool := !n.active u b || b.frozen || decide (u.f ≤ b.flips)

/-- Changes a replica-block. -/
def updRBlock (n : Net) (le rblk : Nat) (f : RBlock → RBlock) : Net :=
  { n with rblocks := n.rblocks.map fun b => if b.le = le ∧ b.rblk = rblk then f b else b }

/-! ### Statistics of a SAMPLE (04 R118-R123) -/

/-- What a pair contributes in two states: s_i·s_j, or 1 for equal Potts states. -/
def pairValue (n : Net) (blk x y : Nat) : Int :=
  if (n.block blk).spin then spinOf x * spinOf y else if x = y then 1 else 0

/-- The sums fit their 64 bits (04 R123). -/
def sumsFit (s : Sums) : Bool :=
  decide (s.zt < 2 ^ 64) && s.z.all (fun z => decide (z < 2 ^ 64)) && s.m1.all (fun l => l.all fun k => k.all fits64) && s.m2.all fits64

/-- The contribution of a selection with dwell D (04 R119). -/
def sumSelection (n : Net) (b : RBlock) (d : Nat) : Sums :=
  let k := b.block
  let spin := (n.block k).spin
  { n.sums with
    z := updAt n.sums.z k (· + d)
    m1 := updAt n.sums.m1 k fun l => mapIdxFrom (fun i m =>
      let st := b.state.getD i 0
      if spin then m.map (· + d * spinOf st) else updAt m st (· + (d : Int))) 0 l
    m2 := mapIdxFrom (fun p m => match n.pairs[p]? with
      | some (b1, v1, b2, v2, _) =>
        if b1 = k ∧ b2 = k then m + d * n.pairValue k (b.state.getD v1 0) (b.state.getD v2 0) else m
      | none => m) 0 n.sums.m2 }

/-- A replica's state words by block. -/
def stateOf (n : Net) (r : Nat) : List (List Nat) :=
  mapIdxFrom (fun k (_ : Block) => ((n.rblocks.find? fun b => decide (b.block = k) && decide (b.replica = r)).map
    (·.state)).getD []) 0 n.blocks

/-- A replica's state of a variable that lies in another part of a job, where a hem mirror of this part has it (03 R65). -/
def mirrored (n : Net) (r blk var : Nat) : Option Nat :=
  n.rblocks.findSome? fun b =>
    if b.replica = r then
      ((n.block b.block).spdir.findIdx? fun d => decide (d.blk = blk) && decide (d.var = var)).map fun i => b.mirror.getD i 0
    else none

/-- The contribution of a boundary: pairs over two blocks, for the replicas given (04 R120). A state of another part that no mirror has
is free, as are the terms of a pair with both ends in other parts, `far` (log entry 116). -/
def sumBoundary (n : Net) (far : Nat → Nat → Nat → Nat) (reps : List Nat) : Sums :=
  let here := n.blocks.length
  let sts := reps.map fun r => (r, n.stateOf r)
  let at_ := fun (k : Nat) (x : Nat × List (List Nat)) (blk var : Nat) =>
    if blk < here then (x.2.getD blk []).getD var 0
    else (n.mirrored x.1 blk var).getD (far x.1 blk var % max (n.block k).q 2)
  { n.sums with
    zt := n.sums.zt + reps.length
    m2 := mapIdxFrom (fun p m => match n.pairs[p]? with
      | some (b1, v1, b2, v2, _) =>
        let k := min b1 b2
        if here ≤ k then m + toSigned 40 (far p b1 (v1 * 8192 + v2) % 2 ^ 40)
        else if b1 = b2 then m
        else m + (sts.map fun x => n.pairValue k (at_ k x b1 v1) (at_ k x b2 v2)).sum
      | none => m) 0 n.sums.m2 }

/-- Cleared sums of a network. -/
def zeroSums (n : Net) : Sums :=
  { z := n.blocks.map fun _ => 0
    m1 := n.blocks.map fun b => List.replicate b.n (List.replicate (if b.spin then 1 else b.q) 0)
    m2 := n.pairs.map fun _ => 0, zt := 0, frozenOut := 0 }

end Net

/-- A replica is observed in the turn of a run: a SAMPLE whose range holds the replica's rung (04 R118). -/
def Run.observes (u : Run) (r : Nat) : Bool :=
  decide (u.opcode = Op.sample) && decide (u.klo ≤ u.rungOf.getD r r) && decide (u.rungOf.getD r r ≤ u.khi)

/-! ### Hem-lane words (07 R188) -/

/-- A hem flip: block, replica, scale, state and variable. -/
def hemWord (blk repl d st var : Nat) : W64 :=
  pack [(60, 4, 1), (36, 12, blk), (25, 11, repl), (17, 8, d), (13, 4, st), (0, 13, var)]

/-- A turn end: block and turn. -/
def turnEndWord (blk turn : Nat) : W64 := pack [(60, 4, 2), (36, 12, blk), (0, 13, turn % 8192)]

/-- A drain marker. -/
def drainWord : W64 := pack [(60, 4, 3)]

/-- The bits of a number whose count is odd. -/
def parity (w v : Nat) : Nat := ((List.range w).map fun i => b2n (bitAt v i)).sum % 2

/-- The sideband of a word: entry index, even parity of each quarter of the data, parity of the sideband, SVC. -/
def sideband (entry : Nat) (svc : Bool) (data : W64) : Byte :=
  let q := (List.range 4).foldl (fun a i => a + parity 16 (data.toNat >>> (16 * i)) * 2 ^ (2 + i)) 0
  let v := entry % 4 + q + b2n svc * 128
  BitVec.ofNat 8 (v + parity 8 v * 64)

/-- The parity of a word holds: the quarters and the sideband (07 R191). -/
def parityOk (data : W64) (side : Byte) : Bool :=
  (List.range 4).all (fun i => decide (parity 16 (data.toNat >>> (16 * i)) = bits side.toNat (2 + i) 1)) &&
  decide (parity 8 side.toNat = 0)

/-- Fields of a hem-lane word. -/
def wKind (w : W64) : Nat := bits w.toNat 60 4
def wBlock (w : W64) : Nat := bits w.toNat 36 12
def wRepl (w : W64) : Nat := bits w.toNat 25 11
def wD (w : W64) : Nat := bits w.toNat 17 8
def wState (w : W64) : Nat := bits w.toNat 13 4
def wVar (w : W64) : Nat := bits w.toNat 0 13

/-- A word that passes parity and yet is no hem-lane word: a reserved KIND or reserved bits (07 R188). -/
def wBad (w : W64) : Bool :=
  decide (3 < wKind w) || decide (bits w.toNat 48 12 ≠ 0) ||
  (decide (wKind w = 2) && (decide (wRepl w ≠ 0) || decide (bits w.toNat 13 12 ≠ 0))) ||
  ((decide (wKind w = 0) || decide (wKind w = 3)) && decide (w.toNat % 2 ^ 60 ≠ 0))

namespace State

/-! ### Progress (11 R307) -/

/-- A progress counter as it comes into use. -/
def newProgress (u : HwUnit) (ctx : Option Nat) (n : Nat) (now : Nat) : Progress :=
  { unit := u, ctx := ctx, count := n % 2 ^ 64, mirrored := 0, lastRise := now, tr := now, since := 0, kind := 0, tag := 0
    link := 0, runnable := false }

/-- Counts a unit's progress, for a context or of its own; a counter comes into use with its first count. -/
def bump (s : State) (u : HwUnit) (ctx : Option Nat) (n : Nat) : State :=
  let up := fun (p : Progress) => if p.unit = u ∧ p.ctx = ctx then { p with count := (p.count + n) % 2 ^ 64 } else p
  let there := s.cx.progress.any fun p => decide (p.unit = u) && decide (p.ctx = ctx)
  { s with cx := { s.cx with
      progress := if there then s.cx.progress.map up else s.cx.progress ++ [newProgress u ctx n s.now] } }

/-- The controllers of the engines of a mask start a descriptor (R307). -/
def startOn (s : State) (mask : Nat) : State :=
  (List.range 32).foldl (fun t le => if bitAt mask le then t.bump (.controller le) none 1 else t) s

/-! ### Damaged models (03 R83) -/

/-- The sweep unit that a VSCALE word of a model serves: that of the placement whose vector holds the word. -/
def vscaleUnit (m : Model) (le addr : Nat) : Nat :=
  let on := m.vscale.filter fun a => decide (a.le = le)
  match on.findIdx? (fun a => decide (a.base ≤ 8 * addr) && decide (8 * addr < a.base + a.len)), m.body with
  | some i, .net n =>
    let b := ((on[i]?).map (·.item)).getD 0
    let units := ((n.rblocks.filter fun x => decide (x.le = le) && decide (x.block = b)).map (·.su)).eraseDups
    units.getD ((on.take i).filter fun a => decide (a.item = b)).length 0
  | _, _ => 0

/-- The class and unit of a place in a locator (Table 3.16). -/
def placeClass (m : Model) (le : Nat) (place : ScrubPlace) (addr : Nat) : Nat × Nat :=
  match place with
  | .store su => (1, su)
  | .vscale => (3, vscaleUnit m le addr)
  | _ => (2, 0)

/-- The first uncorrectable word that a model holds on an engine and that has not been rewritten. -/
def damageOn (s : State) (m : Model) (le : Nat) : Option (Nat × Nat × Nat × Nat) :=
  ((s.siteLe le).badWords.find? fun w => !w.2.2 && wordOf m le w.1 w.2.1).map fun w =>
    (le, (placeClass m le w.1 w.2.1).1, (placeClass m le w.1 w.2.1).2, w.2.1)

/-- A model is damaged: engine, class, unit and word of the locator (03 R83). -/
def damageOf (s : State) (m : Model) : Option (Nat × Nat × Nat × Nat) :=
  ((List.range 32).filter fun le => bitAt m.mask le).findSome? (s.damageOn m)

/-! ### Sending on hem lanes (07 R184, R185; log entry 17) -/

/-- The direction in which an engine sends on a link. -/
def sendDir (link le : Nat) : Dir := if (Img.linkEnds link).1 = le then .fwd else .back

/-- The engine that receives on a link in a direction. -/
def recvEnd (link : Nat) : Dir → Nat
  | .fwd => (Img.linkEnds link).2
  | .back => (Img.linkEnds link).1

/-- The engine that sends on a link in a direction. -/
def sendEnd (link : Nat) : Dir → Nat
  | .fwd => (Img.linkEnds link).1
  | .back => (Img.linkEnds link).2

/-- A direction of a lane. -/
def way (n : Lane) : Dir → Way
  | .fwd => n.fwd
  | .back => n.back

/-- Sets a direction of a lane. -/
def setWay (n : Lane) (d : Dir) (y : Way) : Lane :=
  match d with
  | .fwd => { n with fwd := y }
  | .back => { n with back := y }

/-- The oldest word under way has arrived. -/
def popWord (n : Lane) (d : Dir) : Lane := setWay n d { way n d with words := (way n d).words.tail, consec := 0 }

/-- A word is asked for again (R191), and the lane is found faulty at the 16th time for one word or the 4,096th in one tick
(R192). -/
def noteReplay (n : Lane) (d : Dir) : Lane :=
  let y := way n d
  setWay { n with
    replay := satInc 16 n.replay, inTick := n.inTick + 1
    stuck := n.stuck || decide (16 ≤ y.consec + 1), rated := n.rated || decide (4096 ≤ n.inTick + 1) } d { y with consec := y.consec + 1 }

/-- A link. -/
def link (s : State) (l : Nat) : Link := (s.fb.links[l]?).getD Link.reset

/-- A lane of a link. -/
def lane (s : State) (l i : Nat) : Lane := ((s.link l).lanes[i]?).getD Lane.reset

/-- Changes a lane. -/
def updLane (s : State) (l i : Nat) (f : Lane → Lane) : State :=
  { s with fb := { s.fb with links := updAt s.fb.links l fun k => { k with lanes := updAt k.lanes i f } } }

/-- A link that carries nothing: an end lost (R203), or its Hinge parked (R196). -/
def linkDead (s : State) (l : Nat) : Bool :=
  s.isLost (Img.linkEnds l).1 || s.isLost (Img.linkEnds l).2 ||
  (decide (48 ≤ l) && ((s.fb.hinges[(l - 48) / 2]?).getD Hinge.reset).parked)

/-- The physical lane of a model's virtual lane on a link, while its entry does not drain. -/
def laneFor (s : State) (model l v : Nat) : Option Nat :=
  let k := s.link l
  firstIdx (fun _ n => match n.owner with
    | some (e, w) => decide (w = v) && (match k.entries.getD e none with
      | some x => decide (x.model = model) && !x.drain
      | none => false)
    | none => false) 0 k.lanes

/-- The fill of a Hinge's buffers, as FB_HINGE keeps it (07 R194, Table 7.16). -/
def noteFill (s : State) (l : Nat) (d : Dir) (n : Nat) : State :=
  if l < 48 then s
  else
    { s with fb := { s.fb with hinges := updAt s.fb.hinges ((l - 48) / 2) fun h =>
        match d with
        | .fwd => { h with fillwe := max h.fillwe (min n 64) }
        | .back => { h with fillew := max h.fillew (min n 64) } } }

/-- The stitch list of a hem lane in a direction: that of the model that owns it, for its virtual lane, at the sending end. -/
def stitchList (s : State) (l i : Nat) (d : Dir) : List (Sum Nat (Nat × Nat)) :=
  match (s.lane l i).owner with
  | some (e, v) =>
    match (((s.link l).entries.getD e none).bind fun x => s.net? x.model) with
    | some n => ((n.stitches.find? fun x => decide (x.le = sendEnd l d) && decide (x.link = l) && decide (x.vlane = v)).map
        (·.positions)).getD []
    | none => []
  | none => []

/-- The next position, from one on and round the list, whose source holds a word (R184). Positions passed over present empty
stitches, which carry nothing (log entry 17). -/
def nextPosition (list : List (Sum Nat (Nat × Nat))) (y : Way) : Option Nat :=
  ((List.range list.length).map fun i => (y.pos + i) % max list.length 1).find? fun p =>
    y.held.any fun h => h.1.isSome && h.1 == list[p]?

/-- Takes the oldest word of a source out of those held. -/
def takeHeld (src : Option (Sum Nat (Nat × Nat))) :
    List (Option (Sum Nat (Nat × Nat)) × Nat × W64) → List (Option (Sum Nat (Nat × Nat)) × Nat × W64)
  | [] => []
  | h :: hs => if h.1 = src then hs else h :: takeHeld src hs

/-- The lane moves: words are presented in the order of its list, while there is room for them (R184, R195). The drain marker goes
last. -/
def present (list : List (Sum Nat (Nat × Nat))) : Nat → Way → Way
  | 0, y => y
  | room + 1, y =>
    match nextPosition list y with
    | some p =>
      match y.held.find? fun h => h.1 == list[p]? with
      | some h => present list room { y with words := y.words ++ [h.2], held := takeHeld h.1 y.held, pos := (p + 1) % list.length }
      | none => y
    | none =>
      match y.held.find? fun h => h.1 == none with
      | some h => present list room { y with words := y.words ++ [h.2], held := takeHeld none y.held }
      | none => y

/-- The words that may still come under way on a link: each lane of a Hinge link has an elastic buffer of 64 words (R194). -/
def roomOn (l : Nat) (y : Way) : Nat := if l < 48 then y.held.length else 64 - y.words.length

/-- A lane moves on as far as it can. -/
def moveLane (s : State) (l i : Nat) (d : Dir) : State :=
  if (s.lane l i).disabled then s
  else
    let y := way (s.lane l i) d
    let y' := present (s.stitchList l i d) (roomOn l y) y
    (s.updLane l i fun n => setWay n d y').noteFill l d y'.words.length

/-- A source holds a word for a lane, which presents it in its turn. A dead link carries nothing. -/
def pushWord (s : State) (l i : Nat) (d : Dir) (src : Option (Sum Nat (Nat × Nat))) (e : Nat) (w : W64) : State :=
  if s.linkDead l then s
  else (s.updLane l i fun n => setWay n d { way n d with held := (way n d).held ++ [(src, e, w)] }).moveLane l i d

/-- No word of a run that has ended is left on the hem lanes of a model, nor held for them (04 R111; log entry 17). -/
def clearLanes (s : State) (model : Nat) : State :=
  { s with fb := { s.fb with links := s.fb.links.map fun k =>
      { k with lanes := k.lanes.map fun n =>
          match n.owner with
          | some (e, _) =>
            if (k.entries.getD e none).any fun x => decide (x.model = model) && !x.drain then
              { n with fwd := { n.fwd with words := [], held := [] }, back := { n.back with words := [], held := [] } }
            else n
          | none => n } } }

/-- A model's word enters every lane of an engine whose stitch list names its source (07 R184, R185). -/
def sendFrom (s : State) (model le : Nat) (src : Sum Nat (Nat × Nat)) (w : W64) : State :=
  match s.net? model with
  | none => s
  | some n =>
    (n.stitches.filter fun x => decide (x.le = le) && x.positions.contains src).foldl (fun t x =>
      match t.laneFor model x.link x.vlane with
      | some i => t.pushWord x.link i (sendDir x.link le) (some src) (((t.lane x.link i).owner.map (·.1)).getD 0) w
      | none => t) s

/-- A hem source's new state reaches the pending copies of an engine (04 R96). -/
def setPending (s : State) (model le : Nat) (blk repl var st : Nat) : State :=
  s.updNet model fun n => { n with rblocks := n.rblocks.map fun b =>
    if b.le = le ∧ b.replica = repl then
      let g := fun i (d : SpDir) => if d.blk = blk ∧ d.var = var then st else b.pend.getD i 0
      { b with pend := mapIdxFrom g 0 (n.block b.block).spdir }
    else b }

/-! ### The service position of lane 3 (07 R189, R190) -/

/-- A spare shift runs in a half-row that a link touches (07 R190, R202). -/
def shiftTouches (s : State) (l : Nat) : Bool :=
  let busy := fun le => ((s.fb.hrows[hrowOf le]?).getD HalfRow.reset).shift.isSome
  busy (Img.linkEnds l).1 || busy (Img.linkEnds l).2

/-- Nothing is under way on a link, nor held for its lanes; transfers that have not begun, and migration control, apart. -/
def linkQuiet (s : State) (l : Nat) : Bool :=
  (s.link l).lanes.all (fun n => [n.fwd, n.back].all fun y => y.words.isEmpty && y.held.isEmpty) &&
  s.fb.service.all fun x => decide (x.link ≠ l) || !x.begun || x.tag == 0

/-- The next transfer of a link's service position begins. -/
def beginNext (l : Nat) (d : Dir) : List Transfer → List Transfer
  | [] => []
  | x :: xs => if x.link = l ∧ x.dir = d then { x with begun := true } :: xs else x :: beginNext l d xs

/-- The head word of a transfer: the tag of its owner and its length in words (R190; its layout is the model's, log entry 114). -/
def headWord (tag : BitVec 24) (len : Nat) : W64 := pack [(0, 24, tag.toNat), (24, 40, len)]

/-- A transfer joins the service queue of a link in a direction. It begins at once where no other is there and no spare shift is
coming. -/
def queueOn (tag : BitVec 24) (words : List W64) (s : State) (x : Nat × Dir) : State :=
  let busy := s.shiftTouches x.1 || s.fb.service.any fun y => decide (y.link = x.1) && decide (y.dir = x.2)
  let t : State := { s with fb := { s.fb with service := s.fb.service ++
    [{ link := x.1, dir := x.2, tag := tag, words := headWord tag words.length :: words, begun := !busy }] } }
  t.noteFill x.1 x.2 (((t.fb.service.filter fun y => decide (y.link = x.1) && decide (y.dir = x.2)).map (·.words.length)).sum)

/-- The links that a walk from an engine passes, each with the direction of travel. -/
def walkLinks : Nat → List Nat → List (Nat × Dir)
  | _, [] => []
  | le, l :: ls => (l, sendDir l le) :: walkLinks (across l le) ls

/-- Data enter as one transfer in the service queue of each link of their way. -/
def queueTransfer (s : State) (way : List (Nat × Dir)) (tag : BitVec 24) (bs : Bytes) : State :=
  let words := (List.range (bs.length / 8)).map fun i => BitVec.ofNat 64 (field bs (8 * i) 8)
  way.foldl (queueOn tag words) s

/-! ### Turn-end stitches (07 R187) -/

/-- The units of a model with a hem output. -/
def hemUnits (n : Net) : List (Nat × Nat) :=
  (n.stitches.flatMap fun x => x.positions.filterMap fun p => match p with
    | .inl su => some (x.le, su)
    | .inr _ => none).eraseDups

/-- The blocks that a unit holds of a model. -/
def unitBlocks (n : Net) (le su : Nat) : List Nat :=
  ((n.rblocks.filter fun b => decide (b.le = le) && decide (b.su = su)).map (·.block)).eraseDups

/-- The block that the turn-end stitch of a unit names: the lowest that the unit holds of the model, for which it presents one
stitch (R187; log entry 113). -/
def endBlock (n : Net) (le su : Nat) : Option Nat := (unitBlocks n le su).min?

/-- Presents the turn-end stitches of every unit that has made its last flip of the turn. -/
def presentTurnEnds (s : State) (k : ReqKey) : State :=
  match s.runs.find? fun u => decide (u.key = k) with
  | none => s
  | some u =>
    match s.net? u.model with
    | none => s
    | some n =>
      let due := (hemUnits n).filter fun x => !u.ended.contains x &&
        n.rblocks.all fun b => !(decide (b.le = x.1) && decide (b.su = x.2)) || n.done u b
      (due.foldl (fun t x => match endBlock n x.1 x.2 with
        | some b => t.sendFrom u.model x.1 (.inl x.2) (turnEndWord b u.turn)
        | none => t) s).updRun k fun v => { v with ended := v.ended ++ due }

/-- The units whose words a lane carries that leaves an engine on a link: those of its stitch list, and those of the lanes that it
forwards (07 R184, R211), each with the position of the list. -/
def carried (n : Net) : Nat → Nat → Nat → Nat → List (Nat × Nat × Nat)
  | 0, _, _, _ => []
  | fuel + 1, le, link, vlane =>
    (n.stitches.filter fun x => decide (x.le = le) && decide (x.link = link) && decide (x.vlane = vlane)).flatMap fun x =>
      (mapIdxFrom (fun p src => match src with
        | .inl su => [(p, le, su)]
        | .inr (l, v) => (carried n fuel (across l le) l v).map fun y => (p, y.2)) 0 x.positions).flatten

/-- The lanes that end at an engine: link and virtual lane, ascending. -/
def lanesInto (n : Net) (le : Nat) : List (Nat × Nat) :=
  sortBy (fun a b => decide (a.1 < b.1 ∨ (a.1 = b.1 ∧ a.2 ≤ b.2)))
    ((n.stitches.filter fun x => decide (across x.link x.le = le)).map fun x => (x.link, x.vlane)).eraseDups

/-- The sources in the lists of an engine: link, virtual lane, position, and the unit (engine, sweep unit). -/
def sourcesInto (n : Net) (le : Nat) : List (Nat × Nat × Nat × Nat × Nat) :=
  (lanesInto n le).flatMap fun x => (carried n 32 (across x.1 le) x.1 x.2).map fun y => (x.1, x.2, y)

/-- The place of a source among those of a replica-block's engine: sources on the engine itself first, then by the lane and the
position of the list that brings them, then those that no list brings (04 R96, 07 R187; log entry 16). -/
def sourceRank (n : Net) (b : RBlock) (d : SpDir) : Nat :=
  match n.rblocks.find? fun x => decide (x.block = d.blk) && decide (x.replica = b.replica) with
  | none => 0
  | some x =>
    if x.le = b.le then 0
    else
      match (sourcesInto n b.le).find? fun y => decide (y.2.2.2 = (x.le, x.su)) with
      | some y => 1 + (4 * y.1 + y.2.1) * 65536 + y.2.2.1
      | none => 4 * 65536 * 64

/-- Every unit with a source in its lists holds the turn-end stitches of a turn (R187). -/
def turnEndsIn (n : Net) (turn : Nat) : Bool :=
  ((n.stitches.map fun x => across x.link x.le).eraseDups).all fun le => (sourcesInto n le).all fun y =>
    match endBlock n y.2.2.2.1 y.2.2.2.2 with
    | some b => n.turnEnds.any fun t => decide (t.le = le) && decide (t.link = y.1) && decide (t.vlane = y.2.1) && decide (t.blk = b) &&
        decide (t.turn = turn % 8192)
    | none => true

/-! ### Runs in a turn -/

/-- The run of a request or of a job's part. -/
def run? (s : State) (k : ReqKey) : Option Run := s.runs.find? fun u => decide (u.key = k)

/-- A run makes its turn: dispatched without a hold, its context neither fenced, dumped nor resetting, and not waiting at
its barrier. The part of a job on a worker has no request here (14 R393). -/
def turning (s : State) (u : Run) : Bool :=
  !u.barrier &&
  (match s.req? u.key with
   | some r => r.state == .dispatched && r.hold.isNone && !(s.ctx (idOf r.tag)).fenced &&
       (s.ctx (idOf r.tag)).dump.isNone && (s.ctx (idOf r.tag)).state == .live
   | none => !u.pause && (s.model? u.model).any fun m => decide (m.job ≠ 0) && match Tbl.get? s.pr.jobs m.job with
     | some j => !(s.ctx j.jctx).fenced && (s.ctx j.jctx).dump.isNone && (s.ctx j.jctx).state == .live
     | none => false)

/-- The engine works: its site is ON, neither clearing nor scrubbing. -/
def siteWorks (s : State) (le : Nat) : Bool :=
  (s.siteLe le).dstate == .on && !(s.siteLe le).clearing && !(s.siteLe le).scrub && !s.isLost le

/-- The model, network and record of a replica-block. -/
def rblock? (s : State) (le rblk : Nat) : Option (Nat × Net × RBlock) :=
  s.models.findSome? fun p => match p.2.body with
    | .net n => (n.rblocks.find? fun b => decide (b.le = le) && decide (b.rblk = rblk)).map fun b => (p.1, n, b)
    | .store _ => none

/-- The run, network and record of a replica-block that makes a flip next: it is in the round of a turn that runs. -/
def flipping (s : State) (le rblk : Nat) : Option (Run × Net × RBlock) :=
  match s.rblock? le rblk with
  | some (i, n, b) =>
    match s.runOn i with
    | some u =>
      if s.turning u && s.siteWorks le && !n.done u b && !s.isolates (((s.model? i).map fun m => idOf m.tag).getD 0) (.sweep le b.su)
      then some (u, n, b) else none
    | none => none
  | none => none

/-- A message to another node leaves by the link of its route (14 R384). -/
def sendPeer (s : State) (cls node job gen : Nat) (words : List Nat) (bytes : Bytes) : State :=
  let r := (s.pr.routes[node]?).getD Route.reset
  { s with pr := { s.pr with out := s.pr.out ++
      [{ cls := cls, link := r.link, src := s.pr.nodeid, node := node, job := job, gen := gen, words := words, bytes := bytes }] } }

/-- A node lies beyond a peer link (14 R384). -/
def beyondLink (s : State) (l node : Nat) : Bool :=
  let r := (s.pr.routes[node]?).getD Route.reset
  decide (node ≠ s.pr.nodeid) && r.valid && decide (r.link = l)

/-- The other nodes that hold parts of a job. -/
def partNodes (s : State) (job : Nat) : List Nat :=
  match Tbl.get? s.pr.jobs job with
  | some j => (j.parts.map (·.node)).filter fun n => decide (n ≠ s.pr.nodeid)
  | none => []

/-- A message that is copied at forks leaves on each link that leads to other parts of its job, except the one that it came by, toward
the lowest of the parts there (14 R384, R386). -/
def sendForked (s : State) (cls job gen : Nat) (arrival : Option Nat) (words : List Nat) : State :=
  let nodes := s.partNodes job
  (List.range 8).foldl (fun t l =>
    match (nodes.filter fun x => s.beyondLink l x).min? with
    | some node => if arrival = some l then t else t.sendPeer cls node job gen words []
    | none => t) s

/-- A run of a job that fails on a worker: the part stops, its kept states are invalid, and FAULT goes to node 0 (14
R393). -/
def failPart (s : State) (u : Run) (loc : W64) : State :=
  match s.model? u.model with
  | none => s
  | some m =>
    ((s.invalidateKept u.model).dropRun u.key).sendPeer 0x18 0 m.job (Tbl.getD s.pr.jobGens m.job 1)
      [s.pr.nodeid, Status.faultData, loc.toNat] []

/-- The other parts of a job stop with their run (14 R393): the stop goes out as a boundary word. -/
def stopParts (s : State) (u : Run) : State :=
  match s.model? u.model with
  | some m => if m.job = 0 then s else s.sendForked 0x16 m.job (Tbl.getD s.pr.jobGens m.job 1) none [u.turn, 1]
  | none => s

/-- The node of the last failure of a run's job (R393). -/
def noteLastNode (s : State) (u : Run) (node : Nat) : State :=
  match s.model? u.model with
  | some m =>
    if m.job = 0 then s
    else { s with pr := { s.pr with jobs := Tbl.upd s.pr.jobs m.job fun j => { j with lastNode := node } } }
  | none => s

/-- The parts of a job on other modules stop with a run that fails here, which the job records (R393). -/
def failParts (s : State) (u : Run) : State := (s.stopParts u).noteLastNode u s.pr.nodeid

/-- A run fails with FAULT_DATA (03 R84). -/
def failRun (s : State) (u : Run) (le cls su addr lane rblk : Nat) : State :=
  match s.req? u.key with
  | some _ => (s.failParts u).faultData u.key le cls su addr lane rblk
  | none =>
    let loc := locator cls su addr lane rblk
    let tag := ((s.model? u.model).map (·.tag)).getD 0
    ((s.noteSiteFault (s.siteOf le) cls su loc).noteContext tag 0x6 le su 0).failPart u loc

/-! ### One flip (03 R56) -/

/-- What S3 to S6 do once the fields are those of the state. -/
def evaluate (s : State) (u : Run) (n : Net) (b : RBlock) (find : FlipFind) : State :=
  let blk := n.block b.block
  let rung := u.rungOf.getD b.replica b.replica
  let ws := blk.weights n.heatbath (u.betas.getD rung 0) b.state b.fields
  let total := totalWeight ws
  let keep := fun (t : State) (b : RBlock) => t.updNet u.model fun n => n.updRBlock b.le b.rblk fun _ => b
  let site := s.siteOf b.le
  if total = 0 then
    match find with
    | .treesTwice => s.failRun u b.le 5 b.su 0 0 b.rblk
    | .selectOnce | .selectTwice | .expanderBad => s
    | _ =>
      let t := keep (if find = .treesOnce then s.countLogCorr site else s)
        { b with frozen := true, frozenTurns := b.frozenTurns + 1, dwell := dwellOf (ws.length) 0 }
      let t' := if u.observes b.replica then
          t.updNet u.model fun n => { n with sums := { n.sums with frozenOut := n.sums.frozenOut + 1 } }
        else t
      t'.presentTurnEnds u.key
  else
    match find with
    | .treesTwice => s.failRun u b.le 5 b.su 0 0 b.rblk
    | .selectTwice => s.failRun u b.le 6 b.su 0 0 b.rblk
    | .expanderBad => s.failRun u b.le 10 b.su 0 0 b.rblk
    | _ =>
      match selectAt ws (drawOffset (drawAt b.key b.draw) total) with
      | none => s
      | some (j, new) =>
        let dw := dwellOf ws.length total
        let old := b.state.getD j 0
        let dE := b.dE + blk.deltaE b.state b.fields j new
        let sums := if u.observes b.replica then n.sumSelection b dw else n.sums
        if Net.sumsFit sums = false ∨ fits64 dE = false then s.failRun u b.le 8 b.su 0 0 b.rblk
        else
          let b' := { b with state := b.state.set j new, dE := dE, flips := b.flips + 1, audit := b.audit + 1,
                             draw := b.draw + 1, dwell := dw, col := some (j, old, new) }
          let t := (keep (if find = .treesOnce ∨ find = .selectOnce then s.countLogCorr site else s) b').updNet u.model
            fun n => { n with sums := sums }
          let sent := (t.sendFrom u.model b.le (.inl b.su)
            (hemWord b.block b.replica (blk.scale j).toNat new j)).setPending u.model b.le b.block b.replica j new
          let hem := n.blocks.any fun x => x.spdir.any fun d => decide (d.blk = b.block) && decide (d.var = j)
          ((if hem then sent else t).bump (.sweep b.le b.su) ((s.model? u.model).map fun m => idOf m.tag)
            (issueInterval blk.fmt blk.n blk.q blk.spin)).presentTurnEnds u.key

/-- A flip with the fields brought up to the state, or the overflow that S2 finds (03 R42, R82). -/
def afterUpdate (s : State) (u : Run) (n : Net) (b : RBlock) (r : Except Nat RBlock) (find : FlipFind) : State :=
  match r with
  | .error lane => s.failRun u b.le 7 b.su 0 lane b.rblk
  | .ok b' => s.evaluate u n b' find

/-- One flip of a replica-block, with what the checks of Table 3.10 find in it. A finding about a stage that this flip
does not pass leaves everything as it was (log entry 3). -/
def flip (s : State) (le rblk : Nat) (find : FlipFind) : State :=
  match s.flipping le rblk with
  | none => s
  | some (u, n, b) =>
    let site := s.siteOf le
    let m? := s.model? u.model
    let hurt := fun place addr =>
      if b.col.isSome && m?.any (fun m => wordOf m le place addr) then
        ((s.noteBadWord site place addr).updNet u.model fun n =>
          n.updRBlock le rblk fun b => { b with frozen := true }).presentTurnEnds u.key
      else s
    match find with
    | .clean => s.afterUpdate u n b (n.applyCol b) .clean
    | .sramCorrected => (s.countSramCorr site).afterUpdate u n b (n.applyCol b) .clean
    | .storeBad addr => hurt (.store b.su) addr
    | .vscaleBad addr => hurt .vscale addr
    | .scratchBad addr => (s.noteBadWord site (.footprint rblk) addr).failRun u le 2 b.su addr 0 rblk
    | .operandParity =>
      if b.col.isSome then
        let (v, t) := s.takeFree
        t.failRun u le (Config.operandParityClass v).toNat b.su 0 0 rblk
      else s
    | .residueOnce _ =>
      if b.col.isSome then (s.countLogCorr site).afterUpdate u n b (n.rebuild b) .clean else s
    | .residueTwice lane => if b.col.isSome then s.failRun u le 4 b.su 0 lane rblk else s
    | .treesOnce => s.afterUpdate u n b (n.applyCol b) .treesOnce
    | .treesTwice => s.afterUpdate u n b (n.applyCol b) .treesTwice
    | .selectOnce => s.afterUpdate u n b (n.applyCol b) .selectOnce
    | .selectTwice => s.afterUpdate u n b (n.applyCol b) .selectTwice
    | .expanderBad => s.afterUpdate u n b (n.applyCol b) .expanderBad

/-! ### Receipt of hem-lane words (07 R183-R192) -/

/-- Counts a word of a context that is dropped (11 R319). -/
def countStale (s : State) : State := { s with cx := { s.cx with stale := satInc 16 s.cx.stale } }

/-- A word arrives as it was sent: the oldest word under way, with its sideband; or with reserved bits, which no parity check
finds (R188). -/
def arrived (y : Nat × W64) (w : LaneWord) : Bool :=
  (w.data == y.2 && w.side == Machine.sideband y.1 false y.2) || wBad w.data

/-- A word as it arrives: the oldest word under way leaves its lane, and the lane moves on, unless its parity fails, when it is
asked for again and the replay is counted (R191). The entry of its lane's owner and whether the word goes on. -/
def receive (s : State) (w : LaneWord) : State × Option (Nat × Nat × LinkEntry) :=
  let n := s.lane w.link w.lane
  match (way n w.dir).words, n.owner with
  | y :: _, some (e, v) =>
    if n.disabled then (s, none)
    else if parityOk w.data w.side = false then (s.updLane w.link w.lane fun n => noteReplay n w.dir, none)
    else if arrived y w = false then (s, none)
    else
      let t := (s.updLane w.link w.lane fun n => popWord n w.dir).moveLane w.link w.lane w.dir
      match (s.link w.link).entries.getD e none with
      | some x => if x.drain then (t.countStale, none) else (t, some (e, v, x))
      | none => (t, none)
  | _, _ => (s, none)

/-- A logic fault of a word that passed parity fails the receiving model's request (R188). -/
def wordFault (s : State) (model le : Nat) : State :=
  match s.runOn model with
  | none => s
  | some u =>
    let (v, t) := s.takeFree
    let loc := Config.hemFaultLocator v
    match t.req? u.key with
    | some r =>
      ((((t.failParts u).invalidateKept model).noteSiteFault (t.siteOf le) 0 0 loc).noteContext r.tag 0x6 le 0 0).endReq u.key
        Status.faultData Stop.none loc 0 le
    | none =>
      ((t.noteSiteFault (t.siteOf le) 0 0 loc).noteContext (((t.model? model).map (·.tag)).getD 0) 0x6 le 0 0).failPart u loc

/-- A received empty stitch leaves nothing: it is no word under way. Its parity is checked like any other's (R188, R191). -/
def emptyStitch (s : State) (w : LaneWord) : State :=
  let n := s.lane w.link w.lane
  match n.owner.bind fun o => (s.link w.link).entries.getD o.1 none with
  | none => s
  | some x =>
    if n.disabled || s.linkDead w.link then s
    else if parityOk w.data w.side = false then s.updLane w.link w.lane fun n => noteReplay n w.dir
    else if wBad w.data && !x.drain then s.wordFault x.model (recvEnd w.link w.dir)
    else s.updLane w.link w.lane fun n => setWay n w.dir { way n w.dir with consec := 0 }

/-- A received hem flip: written to the pending copies of the engine, and copied on (04 R96, 07 R185). -/
def hemFlip (s : State) (w : LaneWord) : State :=
  if w.lane < 3 ∧ wKind w.data = 0 then s.emptyStitch w
  else if w.lane < 3 ∧ wKind w.data ≠ 0 ∧ wKind w.data ≠ 2 ∧ wKind w.data ≠ 3 then
    match s.receive w with
    | (t, none) => t
    | (t, some (_, v, x)) =>
      let le := recvEnd w.link w.dir
      if wBad w.data then t.wordFault x.model le
      else
        (t.setPending x.model le (wBlock w.data) (wRepl w.data) (wVar w.data) (wState w.data)).sendFrom x.model le
          (.inr (w.link, v)) w.data
  else s

/-- A received turn-end stitch: held for the boundary, and passed on (R187). -/
def turnEndStitch (s : State) (w : LaneWord) : State :=
  if w.lane < 3 ∧ wKind w.data = 2 then
    match s.receive w with
    | (t, none) => t
    | (t, some (_, v, x)) =>
      let le := recvEnd w.link w.dir
      if wBad w.data then t.wordFault x.model le
      else
        (t.updNet x.model fun n => { n with turnEnds := n.turnEnds ++
            [{ le := le, link := w.link, vlane := v, blk := wBlock w.data, turn := wVar w.data }] }).sendFrom x.model le
          (.inr (w.link, v)) w.data
  else s

end State

def execFlip (le rblk : Nat) (find : FlipFind) (s : State) : Host.Outcome State Fault Refusal := .next (s.flip le rblk find)

def execHemFlip (w : LaneWord) (s : State) : Host.Outcome State Fault Refusal := .next (s.hemFlip w)

def execTurnEndStitch (w : LaneWord) (s : State) : Host.Outcome State Fault Refusal := .next (s.turnEndStitch w)

end Sys2Proof.Machine
end

