-- ==== Sys2Proof/Machine/RunIO.lean ====
section
/-! DEFINITION. What a SOLVE, SAMPLE or SCORE reads and writes: run block, ladder, schedule and initial states with their
checks (10 R281-R285; 04 R94-R118), and the output region and statistics area (04 R112-R122). -/

namespace Sys2Proof.Machine

/-! ### State images (02 R20, R21; 04 R115) -/

/-- Bits of a stored state. -/
def Block.stateBits (b : Block) : Nat := if b.spin then 1 else 4

/-- The states that a block's part of an image holds. -/
def Block.parse (b : Block) (bs : Bytes) : List Nat :=
  let v := leNat bs
  (List.range b.n).map fun i => bits v (b.stateBits * i) b.stateBits

/-- State bytes of a block from its n and q (02 R20, R21). -/
def shapeBytes (x : Nat × Nat) : Nat := (if x.2 = 0 then 8 else 32) * ceilDiv x.1 64

/-- The offset of the first byte with a nonzero reserved bit after variable n − 1, in a block of n and q. -/
def shapeTail (x : Nat × Nat) (bs : Bytes) : Option Nat :=
  (List.range bs.length).find? fun k => decide (field bs k 1 >>> ((if x.2 = 0 then 1 else 4) * x.1 - 8 * k) ≠ 0)

/-- The offset of the first byte with a Potts index of q or more (R21), in a block of n and q. -/
def shapeIndex (x : Nat × Nat) (bs : Bytes) : Option Nat :=
  if x.2 = 0 then none
  else ((List.range x.1).find? fun i => decide (x.2 ≤ bits (field bs (i / 2) 1) (4 * (i % 2)) 4)).map (· / 2)

/-- The first offset in an image of blocks where a check finds something. -/
def imageBad (f : Nat × Nat → Bytes → Option Nat) : Nat → List (Nat × Nat) → Bytes → Option Nat
  | _, [], _ => none
  | off, x :: xs, bs =>
    match f x (slice bs off (shapeBytes x)) with
    | some o => some (off + o)
    | none => imageBad f (off + shapeBytes x) xs bs

/-- A number in base `m` from its digits, lowest first. -/
def fromDigits (m : Nat) (l : List Nat) : Nat := l.foldr (fun x acc => x + m * acc) 0

/-- The state words of a block. -/
def Block.render (b : Block) (st : List Nat) : Bytes := leBytes b.stateBytes (fromDigits (2 ^ b.stateBits) st)

namespace Net

/-- The bytes of this part's state image. -/
def imageBytes (n : Net) : Nat := (n.blocks.map Block.stateBytes).sum

/-- The blocks with the offsets of their parts of an image. -/
def imageParts : Nat → List Block → List (Nat × Block)
  | _, [] => []
  | off, b :: bs => (off, b) :: imageParts (off + b.stateBytes) bs

/-- The states of a state image, by block. -/
def parseImage (n : Net) (bs : Bytes) : List (List Nat) :=
  (imageParts 0 n.blocks).map fun p => p.2.parse (slice bs p.1 p.2.stateBytes)

/-- A state image. -/
def renderImage (n : Net) (st : List (List Nat)) : Bytes :=
  (mapIdxFrom (fun k b => b.render (st.getD k [])) 0 n.blocks).flatten

/-- n and q of every block. -/
def shapes (n : Net) : List (Nat × Nat) := n.blocks.map fun b => (b.n, if b.spin then 0 else b.q)

end Net

/-! ### The run block (10 Table 10.9) -/

/-- What a run asks for. -/
structure RunSpec where
  turns   : Nat
  target  : Option Int
  f       : Nat
  stall   : Nat
  x       : Nat
  m       : Nat
  cap     : Nat
  reps    : Nat
  h       : Nat
  klo     : Nat
  khi     : Nat
  ladder  : List Nat
  sched   : List (Nat × Nat)
  init    : Option Bytes
  stats   : W64
  output  : W64
  cont    : Bool
  deriving DecidableEq, Repr

/-- The offset of the first nonzero reserved byte or field of a run block. -/
def runReserved (b : Bytes) : Option Nat :=
  leastOf ((if field b 42 2 / 8 ≠ 0 then [42] else []) ++ uncovered b [] 44 4 ++ uncovered b [] 80 48)

/-- Entries of 4 bytes. -/
def words4 (bs : Bytes) : List Nat := (List.range (bs.length / 4)).map fun i => field bs (4 * i) 4

/-- The index of the first entry that is below the one before it. -/
def descendAt : Nat → List Nat → Option Nat
  | k, x :: y :: rest => if y < x then some (k + 1) else descendAt (k + 1) (y :: rest)
  | _, _ => none

/-- The index of the first schedule point whose turn does not follow the one before it (04 R107). -/
def scheduleBadAt : Nat → List (Nat × Nat) → Option Nat
  | k, x :: y :: rest => if y.1 ≤ x.1 then some (k + 1) else scheduleBadAt (k + 1) (y :: rest)
  | _, _ => none

/-- Sizes in the output region (04 R112): the offsets of the best-state area, the exchange counts and the trace. -/
def bestAtOff (reps : Nat) : Nat := roundUp (64 + 32 * reps) 64
def exchAtOff (reps image : Nat) : Nat := roundUp (bestAtOff reps + reps * image) 64
def traceAtOff (reps image : Nat) : Nat := roundUp (exchAtOff reps image + 8 * (reps - 1)) 64

/-- The length of the output region. -/
def outputBytes (reps image m cap : Nat) : Nat :=
  if m = 0 then exchAtOff reps image + 8 * (reps - 1) else traceAtOff reps image + cap * (8 + 8 * reps)

/-- The length of this part's statistics area (04 Table 4.8). -/
def statsBytes (n : Net) : Nat :=
  64 + 8 * n.blocks.length + 8 * (n.blocks.map fun b => b.n * (if b.spin then 1 else b.q)).sum + 8 * n.pairs.length

/-- Seed 1.0 of a ladder without a table (04 R101). -/
def unitLadder (reps : Nat) : List Nat := List.replicate reps 65536

namespace Job

/-- The node and block that a part names by a number at or above its own block count, less that count (14 R392). -/
def locate : List PartShape → Nat → Option (Nat × Nat)
  | [], _ => none
  | p :: rest, b => if b < p.blocks.length then some (p.node, b) else locate rest (b - p.blocks.length)

/-- The sources in other parts that a part lists, as their own parts number them: node, block and variable (14 R392, R396). -/
def listed (parts : List PartShape) (p : PartShape) : List (Nat × Nat × Nat) :=
  p.hems.filterMap fun x =>
    (locate (parts.filter fun q => decide (q.node ≠ p.node)) (x.1 - p.blocks.length)).map fun y => (y.1, y.2, x.2)

end Job

namespace State

/-- What a part of a job on another node adds to an image and to the statistics: node, blocks, state bytes, M1 sums and
M2 sums. -/
structure FarPart where
  node   : Nat
  blocks : Nat
  bytes  : Nat
  m1     : Nat
  m2     : Nat
  deriving DecidableEq, Repr

/-- The shapes of the parts of a model's job on other nodes. -/
def farShapes (s : State) (m : Model) : List PartShape :=
  match Tbl.get? s.pr.jobs m.job with
  | some j => if m.job = 0 then [] else j.parts.filter fun p => decide (p.node ≠ s.pr.nodeid)
  | none => []

/-- The parts of a job on other nodes (14 R394). -/
def otherParts (s : State) (m : Model) : List FarPart :=
  (s.farShapes m).map fun p =>
    { node := p.node, blocks := p.blocks.length, bytes := (p.blocks.map shapeBytes).sum
      m1 := (p.blocks.map fun x => x.1 * max x.2 1).sum, m2 := p.pairs }

/-- n and q of every block of a state image, part by part (R394). -/
def imageShapes (s : State) (m : Model) (n : Net) : List (Nat × Nat) :=
  n.shapes ++ (s.farShapes m).flatMap (·.blocks)

/-- The bytes of one replica's state image, all parts of a job included (04 R115, 14 R394). -/
def imageBytes (s : State) (m : Model) (n : Net) : Nat := n.imageBytes + ((s.otherParts m).map (·.bytes)).sum

/-- An address of the run block that cannot be reached, with the status that says so (R268). -/
def runReach (s : State) (r : Request) (off a len : Nat) : List (Nat × Nat) :=
  if a = 0 then []
  else if a % 64 ≠ 0 then [(off, Status.invalidField)]
  else
    match s.reachOk r a len true with
    | .ok _ => []
    | .error st => [(off, st)]

/-- The offsets of the run block that are out of range, each with the status that refuses it (R282, R283, R302, R268). -/
def runInvalid (s : State) (r : Request) (n : Net) (image stats : Nat) (b : Bytes) : List (Nat × Nat) :=
  let f := field b
  let sample := r.op == Op.sample
  let reps := f 32 2
  let flag := bitAt (f 42 2)
  let range := fun (l : List Nat) => l.map fun o => (o, Status.invalidField)
  range ((if 1 ≤ f 16 4 ∧ f 16 4 ≤ 65536 then [] else [16]) ++
  (if 1 ≤ reps ∧ reps ≤ n.replicas then [] else [32]) ++
  (if sample then
    (if flag 2 then
      (if reps ≤ f 36 2 then [36] else []) ++ (if f 38 2 < f 36 2 ∨ reps ≤ f 38 2 then [38] else [])
    else (if f 36 2 ≠ 0 then [36] else []) ++ (if f 38 2 ≠ 0 then [38] else []))
   else
    (if flag 1 || flag 2 then [42] else []) ++ (if f 36 2 ≠ 0 then [36] else []) ++
    (if f 38 2 ≠ 0 then [38] else []) ++ (if f 72 8 ≠ 0 then [72] else [])) ++
  (if 256 < f 40 2 then [40] else []) ++
  (if sample && flag 1 && !n.sampled then [42] else []) ++
  (if f 40 2 ≠ 0 ∧ f 56 8 = 0 then [56] else []) ++
  (if f 64 8 = 0 && (n.valid.take reps).contains false then [64] else []) ++
  (if sample && decide (f 72 8 = 0) then [72] else [])) ++
  s.runReach r 48 (f 48 8) (4 * reps) ++ s.runReach r 56 (f 56 8) (8 * f 40 2) ++
  s.runReach r 64 (f 64 8) (reps * image) ++ s.runReach r 72 (f 72 8) stats

/-- The finding of a run block at the lowest offset. -/
def firstOff : List (Nat × Nat) → Option (Nat × Nat)
  | [] => none
  | x :: xs =>
    match firstOff xs with
    | some y => if y.1 < x.1 then some y else some x
    | none => some x

/-- Initial states, of every part of a job: the reserved bits first, then the indices (R282, 04 R115, 02 R21; 14 R394). -/
def initBad (shapes : List (Nat × Nat)) (image reps : Nat) (bs : Bytes) : Option Refuse :=
  let find := fun f => leastOf ((List.range reps).filterMap fun r =>
    (imageBad f 0 shapes (slice bs (r * image) image)).map (· + r * image))
  match find shapeTail with
  | some o => some (Refuse.reserved o 6)
  | none => (find shapeIndex).map fun o => Refuse.field o 6

/-- The output region is reachable, else it is refused at its payload field. -/
def outputOk (s : State) (r : Request) (off : Nat) (len : Nat) : Option Refuse :=
  match s.reachOk r (r.fld off 8) len true with
  | .ok _ => none
  | .error st => some (accessRefuse r st off 0)

/-- A SCORE is a SOLVE with turn count 0 (R285). -/
def scoreSpec (s : State) (r : Request) (m : Model) (n : Net) : Except Refuse RunSpec :=
  let image := s.imageBytes m n
  let reps := r.fld 80 2
  let a := r.fld 72 8
  if n.replicas < reps then .error (Refuse.field 80 0)
  else if a = 0 && (n.valid.take reps).contains false then .error (Refuse.field 72 0)
  else
    match s.outputOk r 64 (outputBytes reps image 0 0), (if a = 0 then none else s.outputOk r 72 (reps * image)) with
    | some e, _ => .error e
    | none, some e => .error e
    | none, none =>
      let bs := if a = 0 then [] else s.readSpace r a (reps * image)
      match (if a = 0 then none else initBad (s.imageShapes m n) image reps bs) with
      | some e => .error e
      | none => .ok { turns := 0, target := none, f := 1, stall := 0, x := 0, m := 0, cap := 0, reps := reps, h := 0,
                      klo := 0, khi := reps - 1, ladder := unitLadder reps, sched := [],
                      init := if a = 0 then none else some bs, stats := 0,
                      output := BitVec.ofNat 64 (r.fld 64 8), cont := false }

/-- What is wrong with the payload or the run block of a SOLVE or SAMPLE, before anything that the run block names is read (R265,
R268, R281, R282). -/
def runBlockBad (s : State) (r : Request) (m : Model) (n : Net) : Option Refuse :=
  let image := s.imageBytes m n
  let stats := statsBytes n + 8 * ((s.otherParts m).map fun p => p.blocks + p.m1 + p.m2).sum
  if r.op == Op.sample && decide (n.banks = 0) then some (Refuse.field 56 0)
  else
    match s.outputOk r 64 128 with
    | some e => some e
    | none =>
      let b := s.readSpace r (r.fld 64 8) 128
      match runReserved b with
      | some o => some (Refuse.reserved o 1)
      | none => (firstOff (s.runInvalid r n image stats b)).map fun x => accessRefuse r x.2 x.1 1

/-- The ranges that a SOLVE, SAMPLE or SCORE reads at its dispatch, in order: a run block, and where nothing is wrong with it the
ladder, the schedule and the initial states; a SCORE its initial states alone. -/
def runReads (s : State) (r : Request) (m : Model) (n : Net) : List (Nat × Nat) :=
  let image := s.imageBytes m n
  if r.op = Op.score then
    if r.fld 72 8 = 0 ∨ n.replicas < r.fld 80 2 ∨ (s.outputOk r 72 (r.fld 80 2 * image)).isSome = true then []
    else [(r.fld 72 8, r.fld 80 2 * image)]
  else
    match (if r.op == Op.sample && decide (n.banks = 0) then some (Refuse.field 56 0) else s.outputOk r 64 128) with
    | some _ => []
    | none =>
      let f := field (s.readSpace r (r.fld 64 8) 128)
      (r.fld 64 8, 128) ::
        (if (s.runBlockBad r m n).isSome then []
         else [(f 48 8, if f 48 8 = 0 then 0 else 4 * f 32 2), (f 56 8, if f 40 2 = 0 then 0 else 8 * f 40 2),
           (f 64 8, if f 64 8 = 0 then 0 else f 32 2 * image)])

/-- The run of a SOLVE or SAMPLE, or the first refusal of the run block and what it names (R265, R281, R282). -/
def runSpec (s : State) (r : Request) (m : Model) (n : Net) : Except Refuse RunSpec :=
  let image := s.imageBytes m n
  match s.runBlockBad r m n with
  | some e => .error e
  | none =>
    let b := s.readSpace r (r.fld 64 8) 128
    let f := field b
    let reps := f 32 2
    let ladder := if f 48 8 = 0 then unitLadder reps else words4 (s.readSpace r (f 48 8) (4 * reps))
    let table := words4 (if f 40 2 = 0 then [] else s.readSpace r (f 56 8) (8 * f 40 2))
    let sched := (List.range (f 40 2)).map fun i => (table.getD (2 * i) 0, table.getD (2 * i + 1) 0)
    let init := if f 64 8 = 0 then [] else s.readSpace r (f 64 8) (reps * image)
    match descendAt 0 ladder, scheduleBadAt 0 sched,
        (if f 64 8 = 0 then none else initBad (s.imageShapes m n) image reps init),
        s.outputOk r 72 (outputBytes reps image (f 26 2) (f 28 4)) with
    | some k, _, _, _ => .error (Refuse.field (4 * k) 2)
    | none, some k, _, _ => .error (Refuse.field (8 * k) 3)
    | none, none, some e, _ => .error e
    | none, none, none, some e => .error e
    | none, none, none, none =>
      let range := bitAt (f 42 2) 2
      .ok { turns := f 0 8, target := if bitAt (f 42 2) 0 then some (toSigned 64 (f 8 8)) else none, f := f 16 4,
            stall := f 20 4, x := f 24 2, m := f 26 2, cap := f 28 4, reps := reps, h := f 34 2,
            klo := if range then f 36 2 else 0, khi := if range then f 38 2 else reps - 1, ladder := ladder,
            sched := sched, init := if f 64 8 = 0 then none else some init, stats := BitVec.ofNat 64 (f 72 8),
            output := BitVec.ofNat 64 (r.fld 72 8), cont := bitAt (f 42 2) 1 }

/-- Every space that a run reads can be read now: host memory through a link that is up (13 R359). -/
def runInputsUp (s : State) (r : Request) : Bool :=
  if r.op = Op.score then s.transferUp (r.fld 72 8)
  else
    s.transferUp (r.fld 64 8) &&
    (match s.reachOk r (r.fld 64 8) 128 true with
     | .ok _ =>
       let b := s.readSpace r (r.fld 64 8) 128
       s.transferUp (field b 48 8) && s.transferUp (field b 56 8) && s.transferUp (field b 64 8)
     | .error _ => true)

/-! ### Outputs (04 R112-R122) -/

/-- The 64 bits of a signed energy. -/
def energy64 (e : Int) : Bytes := leBytes 8 (ofSigned 64 e)

/-- A 32-bit count, saturated. -/
def count32 (n : Nat) : Bytes := leBytes 4 (min n 0xFFFFFFFF)

/-- The run header (Table 4.5). -/
def runHeader (u : Run) (quantum : BitVec 16) : Bytes :=
  leBytes 8 u.turn ++ energy64 u.modelBest ++ leBytes 4 u.bestAt.2 ++ leBytes 4 u.reps ++ leBytes 4 u.rounds ++
  leBytes 4 u.traced ++ leBytes 8 u.seed.toNat ++ leBytes 2 quantum.toNat ++
  leBytes 2 (b2n u.truncated + 2 * b2n u.updated) ++ List.replicate 20 0

/-- The replica records (Table 4.6). -/
def replicaRecord (u : Run) (r : Nat) : Bytes :=
  let b := u.best.getD r ⟨0, 0, 0⟩
  energy64 b.energy ++ energy64 (u.energies.getD r 0) ++ leBytes 4 b.turn ++ leBytes 2 b.rung ++
  leBytes 2 (u.rungOf.getD r r) ++ count32 (u.frozen.getD r 0) ++ List.replicate 4 0

/-- The exchange counts (R116). -/
def exchEntries (u : Run) : Bytes := (u.exch.map fun e => count32 e.1 ++ count32 e.2).flatten

/-- A trace record (R117): the turns completed and the energies by rung. -/
def traceRecord (u : Run) (done : Nat) : Bytes :=
  leBytes 8 done ++ ((List.range u.reps).map fun k =>
    energy64 (u.energies.getD (((List.range u.reps).find? fun r => decide (u.rungOf.getD r r = k)).getD 0) 0)).flatten

/-- The statistics area in its three pieces with their offsets (Table 4.8): the heads with Z, M1, and M2. `blocks` and
`far` are the blocks and M1 sums of a job's other parts, whose sums stand behind this part's (14 R394). -/
def statsArea (x : Sums) (blocks far : Nat) : List (Nat × Bytes) :=
  let m1 := ((x.m1.flatten.flatten).map energy64).flatten
  let at1 := 64 + 8 * (x.z.length + blocks)
  [(0, leBytes 8 x.zt ++ leBytes 8 x.frozenOut ++ List.replicate 48 0 ++ (x.z.map (leBytes 8)).flatten),
   (at1, m1), (at1 + m1.length + 8 * far, (x.m2.map energy64).flatten)]

/-- Writes a part of a run's outputs at an offset of a region. -/
def putOut (s : State) (r : Request) (region : W64) (off : Nat) (bs : Bytes) : State :=
  s.writeSpace r (region.toNat + off) bs

/-- Writes this part's best-state images of the replicas marked (R115; Table 4.2 order 8). -/
def writeBest (s : State) (r : Request) (u : Run) (n : Net) (image : Nat) (marks : List Bool) : State :=
  (List.range u.reps).foldl (fun t i =>
    if marks.getD i false then
      t.putOut r u.output (bestAtOff u.reps + i * image) (n.renderImage (u.bestState.getD i []))
    else t) s

/-- Writes the run header, the replica records, the exchange counts and a SAMPLE's statistics (R112, R122). -/
def writeRun (s : State) (r : Request) (u : Run) (m : Model) (n : Net) (sums : Sums) : State :=
  let image := s.imageBytes m n
  let others := s.otherParts m
  let t1 := s.putOut r u.output 0 (runHeader u n.quantum)
  let t2 := t1.putOut r u.output 64 ((List.range u.reps).map (replicaRecord u)).flatten
  let t3 := t2.putOut r u.output (exchAtOff u.reps image) (exchEntries u)
  if u.opcode = Op.sample then
    (statsArea { sums with frozenOut := sums.frozenOut + u.farOut } (others.map (·.blocks)).sum (others.map (·.m1)).sum).foldl
      (fun t x => t.putOut r u.stats x.1 x.2) t3
  else t3

end State

end Sys2Proof.Machine
end

