-- ==== Sys2Proof/Machine/Runs.lean ====
section
/-! DEFINITION. Runs: the start boundary, the turn boundary in the orders of Table 4.2, row updates and BIAS samples at
a boundary, stopping, and what a stopped run leaves (04 R94-R128; 10 R281-R285), with the meanings of SOLVE, SAMPLE,
SCORE and TURN_BOUNDARY. -/

namespace Sys2Proof.Machine

/-! ### Row updates (04 R124-R126, 15 R416) -/

namespace Net

/-- A code matrix with the supplied rows written and mirrored into the columns of the other rows (R125). -/
def putRows (codes : List (List Int)) (rows : List (Nat × List Int)) : List (List Int) :=
  mapIdxFrom (fun i row =>
    match rows.find? fun x => decide (x.1 = i) with
    | some x => x.2
    | none => rows.foldl (fun acc x => acc.set x.1 (x.2.getD i 0)) row) 0 codes

/-- The blocks after an update: rows, biases and scales (08 R227). -/
def updateBlocks (n : Net) (u : RowUpdate) : List Block :=
  mapIdxFrom (fun k b =>
    let rows := (u.rows.filter fun x => decide (x.1 = k)).map fun x => (x.2.1, x.2.2)
    { b with
      codes := if rows.isEmpty then b.codes else putRows b.codes rows
      bias := (u.biases.filter fun x => decide (x.1 = k)).foldl (fun acc x => acc.set x.2.1 x.2.2) b.bias
      scales := (u.scales.filter fun x => decide (x.1 = k)).foldl (fun acc x => acc.set x.2.1 x.2.2) b.scales }) 0 n.blocks

/-- A replica-block whose fields an update changes: rows or scales of its block, or the scale of one of its sources
(R126). -/
def touched (n : Net) (u : RowUpdate) (b : RBlock) : Bool :=
  u.rows.any (fun x => decide (x.1 = b.block)) || u.scales.any (fun x => decide (x.1 = b.block)) ||
  u.scales.any fun x => (n.block b.block).spdir.any fun d => decide (d.blk = x.1) && decide (d.var = x.2.1)

/-- Applies a function that may overflow to every replica-block of a list. -/
def mapBlocks (f : RBlock → Except Nat RBlock) : List RBlock → Except (RBlock × Nat) (List RBlock)
  | [] => .ok []
  | b :: bs =>
    match f b with
    | .error lane => .error (b, lane)
    | .ok b' =>
      match mapBlocks f bs with
      | .ok l => .ok (b' :: l)
      | .error e => .error e

/-- Twice a replica's energy without its constant, from the fields of this part: −ΣP − 2Σ bias (R46, R100). -/
def twice (n : Net) (r : Nat) : Int :=
  -((n.rblocks.filter fun b => decide (b.replica = r)).map fun b =>
      (n.block b.block).pairSum b.state b.fields + 2 * (n.block b.block).biasSum b.state).sum

/-- The source states of a replica: the states of the blocks of this part. -/
def sourceState (n : Net) (b : RBlock) (d : SpDir) (old : Nat) : Nat :=
  if d.blk < n.blocks.length then
    ((n.rblocks.find? fun x => decide (x.block = d.blk) && decide (x.replica = b.replica)).map fun x =>
      x.state.getD d.var 0).getD 0
  else old

/-- Writes the mirror and the pending copy of a replica-block with the start states of its sources (03 R65). `remote`
gives those of other parts by key and replica. -/
def writeMirror (n : Net) (remote : List (Nat × Nat × Nat)) (b : RBlock) : RBlock :=
  let far := fun (d : SpDir) => ((remote.find? fun x => decide (x.1 = srcKey d) && decide (x.2.1 = b.replica)).map
    (·.2.2)).getD 0
  let m := (n.block b.block).spdir.map fun d => n.sourceState b d (far d)
  { b with mirror := m, pend := m }

/-- The hem sources of a replica-block in the order in which their changes are applied: those of other parts first (14 R399), then
those of this part by their place in the stitch lists (R96, 07 R187), and those of one place in directory order (log entry 16). -/
def hemOrder (n : Net) (b : RBlock) : List (Nat × SpDir) :=
  let ix := mapIdxFrom (fun i d => (i, d)) 0 (n.block b.block).spdir
  let near := (ix.filter fun x => decide (x.2.blk < n.blocks.length)).map fun x => (State.sourceRank n b x.2, x)
  sortBy (fun a b => decide (srcKey a.2 ≤ srcKey b.2)) (ix.filter fun x => decide (n.blocks.length ≤ x.2.blk)) ++
    (sortBy (fun a b => decide (a.1 < b.1 ∨ (a.1 = b.1 ∧ a.2.1 ≤ b.2.1))) near).map (·.2)

/-- Applies the net hem changes of a replica-block (R96). -/
def applyHems (n : Net) (b : RBlock) : Except Nat RBlock :=
  let blk := n.block b.block
  let changed := fun (x : Nat × SpDir) => decide (b.mirror.getD x.1 0 ≠ b.pend.getD x.1 0)
  let r := ((hemOrder n b).filter changed).foldl (fun (acc : Except Nat Fields) x =>
    match acc with
    | .error e => .error e
    | .ok f =>
      sparseUpdate blk.spin n.sx (n.srcScale x.2) (b.mirror.getD x.1 0) (b.pend.getD x.1 0) (blk.listOf x.2) f) (.ok b.fields)
  match r with
  | .ok f => .ok { b with fields := f, mirror := b.pend }
  | .error e => .error e

end Net

namespace State

/-- A model's words rewritten by the row records of an update: each copy of a supplied row, and VSCALE words whose 8
entries are all supplied (03 R83). -/
def rewriteRows (s : State) (i : Nat) (u : RowUpdate) : State :=
  match s.model? i, s.net? i with
  | some m, some n =>
    (List.range 32).foldl (fun t le =>
      if bitAt m.mask le then
        t.rewriteWords (t.siteOf le) fun place addr =>
          match place with
          | .store su => m.dense.any fun a =>
              decide (a.le = le) && decide (a.su = su) && decide (a.base ≤ 8 * addr) && decide (8 * addr < a.base + a.len) &&
              (let row := (8 * addr - a.base) / Img.rowBytes (n.block a.item).fmt (n.block a.item).n
               -- the second unit of a pair holds the rows from 4,096 on (02 R28)
               let base := if m.dense.any fun c => decide (c.le = le) && decide (c.item = a.item) && decide (c.su + 1 = su) &&
                   s.inPair le su then 4096 else 0
               u.rows.any fun x => decide (x.1 = a.item) && decide (x.2.1 = base + row))
          | .vscale => m.vscale.any fun a =>
              decide (a.le = le) && decide (a.base ≤ 8 * addr) && decide (8 * addr < a.base + a.len) &&
              (List.range 8).all fun j =>
                u.scales.any fun x => decide (x.1 = a.item) && decide (x.2.1 = 8 * addr - a.base + j)
          | _ => false
      else t) s
  | _, _ => s

/-- Writes an update into a model that no run holds (R124, R125). -/
def writeUpdate (s : State) (i : Nat) (u : RowUpdate) : State :=
  (s.rewriteRows i u).updNet i fun n => { n with blocks := n.updateBlocks u }

/-- Updates a model under a run that stands at a boundary: fields are rebuilt, energies recomputed, best records
restarted (R126, 15 R416). -/
def updateRun (s : State) (u : Run) (w : RowUpdate) : State :=
  match s.net? u.model with
  | none => s
  | some n0 =>
    let t := s.writeUpdate u.model w
    match t.net? u.model with
    | none => t
    | some n =>
      match Net.mapBlocks (fun b => if decide (b.replica < u.reps) && n.touched w b then n.rebuild b else .ok b) n.rblocks with
      | .error (b, lane) => t.failRun u b.le 7 b.su 0 lane b.rblk
      | .ok bs =>
        let n' := { n with rblocks := bs }
        let es := mapIdxFrom (fun r (e : Int) => e + (n'.twice r - n0.twice r) / 2) 0 u.energies
        if es.all fits64 = false then t.failRun u n.ladder 8 0 0 0 0
        else
          let best := es.min?.getD 0
          let turn := if u.turn = 0 then 0xFFFFFFFF else (u.turn - 1) % 2 ^ 32
          (t.updNet u.model fun _ => n').updRun u.key fun v =>
            { v with
              energies := es, modelBest := best, bestAt := (u.turn, (es.findIdx? fun e => decide (e = best)).getD 0),
              best := mapIdxFrom (fun r e => ⟨e, turn, v.lastRung.getD r r⟩) 0 es,
              bestState := (List.range v.reps).map n'.stateOf, sinceBest := 0, updated := true }

/-- The best-state images of every replica are written again after an update, by the other parts of a job with the boundary word (Table
4.2 order 8). -/
def rewriteBest (s : State) (k : ReqKey) : State :=
  match s.run? k, s.req? k with
  | some u, some r =>
    match s.model? u.model, s.net? u.model with
    | some m, some n =>
      let all := List.replicate u.reps true
      (s.writeBest r u n (s.imageBytes m n) all).updRun k fun v => { v with due := v.due.map fun _ => all }
    | _, _ => s
  | _, _ => s

/-- The BIAS samples that wait for a boundary of a model are applied (15 R416). -/
def applyBias (s : State) (k : ReqKey) : State :=
  match s.run? k with
  | none => s
  | some u =>
    match s.net? u.model with
    | none => s
    | some n =>
      n.biasHeld.foldl (fun t w =>
        match t.run? k with
        | some v => (t.updateRun v w).rewriteBest k
        | none => t) (s.updNet u.model fun n => { n with biasHeld := [] })

/-- The next turn of a run begins: counters of the turn restart and units without work present their turn ends. -/
def startTurn (s : State) (k : ReqKey) : State :=
  match s.run? k with
  | none => s
  | some u =>
    ((s.updNet u.model fun n => { n with
        turnEnds := []
        rblocks := n.rblocks.map fun b => { b with flips := 0, frozen := false } }).updRun k fun v =>
          { v with barrier := false, ended := [] }).presentTurnEnds k

/-- The words of a boundary word: turn and stop flag, and unless it is a stop within a turn the rung map, the β₂ of every rung and the
new-best flags (04 Table 4.2 order 7). -/
def boundaryWords (turn : Nat) (stop : Bool) (rungOf betas : List Nat) (marks : List Bool) : List Nat :=
  [turn, b2n stop] ++ rungOf ++ betas ++ marks.map b2n

/-- The ladder engine's boundary word goes to the other parts of a job (R103; 14 R386, R393). -/
def sendBoundary (s : State) (u : Run) (stop : Bool) (marks : List Bool) : State :=
  match s.model? u.model with
  | none => s
  | some m =>
    if m.job = 0 ∨ s.pr.nodeid ≠ 0 then s
    else s.sendForked 0x16 m.job (Tbl.getD s.pr.jobGens m.job 1) none (boundaryWords u.turn stop u.rungOf u.betas marks)

/-- A run that nothing holds goes on: node 0 sends the boundary word that was due, so that no part of a job starts its turn before
(R95), and the turn starts. -/
def goOn (s : State) (k : ReqKey) : State :=
  match s.run? k with
  | none => s
  | some u =>
    match u.due with
    | none => s
    | some marks => ((s.sendBoundary u false marks).updRun k fun v => { v with due := none, pause := false }).startTurn k

/-- The update that waits first on a model is applied to its held run, which it releases; the update's request ends
with the number of requests released (R124, 10 R301). -/
def applyHeldUpdate (s : State) (k : ReqKey) : State :=
  match s.run? k with
  | none => s
  | some u =>
    match s.net? u.model with
    | none => s
    | some n =>
      match n.updates with
      | [] => s
      | w :: rest =>
        let t := s.updNet u.model fun n => { n with updates := rest }
        let t1 := if w.rows.isEmpty && w.biases.isEmpty && w.scales.isEmpty then t else (t.updateRun u w).rewriteBest k
        let t2 := match w.req with
          | some q => t1.okReq q 1 0
          | none => t1
        match t2.run? k with
        | some _ => (t2.holdReq k none).goOn k
        | none => t2

/-! ### Runs and updates of one model in the order of their fetch (R124, R127) -/

/-- A turn-based opcode. -/
def turnBased (op : Nat) : Bool := op == Op.solve || op == Op.sample || op == Op.score

/-- A request that has not ended. -/
def unended (r : Request) : Bool := r.state != .ended && r.state != .heldFailed

/-- A request waits for another one: by an edge, as a target of its patches, or by the order of their queue (10 R266, R270, R277). -/
def waitsOn (r o : Request) : Bool :=
  unended o && (r.edges.any (fun e => e.name == o.key.name && e.out == .waiting) ||
    (decide (o.queue = r.queue) && decide (o.key.link = 0) && decide (o.seq < r.seq) &&
      (dFence r.desc || dFence o.desc || (allocating r.op && allocating o.op) ||
        (r.state == .heldPatch && r.patches.any fun p => decide (p.source = o.seq)))))

/-- The requests that some requests wait for, directly or through others, and those themselves. -/
def waitsBehind (s : State) : Nat → List Request → List Request
  | 0, l => l
  | fuel + 1, l =>
    let more := s.fe.requests.filter fun o => l.any (fun r => waitsOn r o) && !l.any (fun r => decide (r.key = o.key))
    if more.isEmpty then l else waitsBehind s fuel (l ++ more)

/-- A request waits for another one. -/
def dependsOn (s : State) (r o : Request) : Bool :=
  (s.waitsBehind s.fe.requests.length [r]).any fun x => decide (x.key = o.key)

/-- The requests fetched before a request that name the same model, and do not wait for it. -/
def aheadOn (s : State) (r : Request) : List Request :=
  (s.fe.requests.takeWhile fun o => decide (o.key ≠ r.key)).filter fun o =>
    unended o && o.tag == r.tag && decide (o.fld 56 8 = r.fld 56 8) && !s.dependsOn o r

/-- An update fetched before a run of its model comes first: a request fetched after it starts on the updated model. -/
def updatesAhead (s : State) (r : Request) : Bool := (s.aheadOn r).any fun o => o.op == Op.modelUpdateRows

/-- A run fetched before an update and not yet started comes first (log entry 118). -/
def runsAhead (s : State) (k : ReqKey) : Bool :=
  match s.req? k with
  | some r => (s.aheadOn r).any fun o => turnBased o.op && (o.state == .waiting || o.state == .heldPatch)
  | none => false

/-- The updates that wait on a model with no run are applied in their order (R124). -/
def applyUpdates (s : State) (i : Nat) : State :=
  match s.net? i with
  | none => s
  | some n =>
    if (s.runOn i).isSome then s
    else
      let now := n.updates.takeWhile fun w => w.req.all fun q => !s.runsAhead q
      now.foldl (fun t w =>
        let t1 := t.writeUpdate i w
        match w.req with
        | some q => t1.okReq q 0 0
        | none => t1) (s.updNet i fun n => { n with updates := n.updates.drop now.length })

/-! ### Stopping (R109-R116; 10 R283) -/

/-- The kept states of replicas 0 to R′ − 1 are those given, and valid (10 R283). -/
def keepStates (s : State) (i : Nat) (sts : List (List (List Nat))) : State :=
  s.updNet i fun n => { n with
    kept := mapIdxFrom (fun r k => sts.getD r k) 0 n.kept
    valid := mapIdxFrom (fun r v => if r < sts.length then true else v) 0 n.valid }

/-- A run has ended: what waited on its model goes on. -/
def afterRun (s : State) (i : Nat) : State := s.applyUpdates i

/-- A run stops at a boundary: outputs are written, the states kept, the request ends OK (R112, R283, R301). -/
def finishRun (s : State) (k : ReqKey) (stop : Nat) : State :=
  match s.run? k, s.req? k with
  | some u, some r =>
    match s.model? u.model, s.net? u.model with
    | some m, some n =>
      let t := (s.writeRun r u m n n.sums).keepStates u.model u.lastState
      let t1 := if u.opcode = Op.sample then t.updNet u.model fun n => { n with sampled := true } else t
      (t1.endReq k Status.ok stop (BitVec.ofInt 64 u.modelBest) (if u.opcode = Op.score then 0 else u.seed) n.ladder).afterRun
        u.model
    | _, _ => s
  | _, _ => s

/-- A run is ended by a CANCEL or with its context: its outputs are those of the last boundary it completed (R111). -/
def landRun (s : State) (k : ReqKey) (status stop : Nat) (w0 w1 : W64) : State :=
  match s.run? k, s.req? k with
  | some u, some r =>
    match s.model? u.model, s.net? u.model with
    | some m, some n =>
      let t := (s.writeRun r u m n u.sums).updNet u.model fun n =>
        { n with sums := u.sums, sampled := n.sampled || decide (u.opcode = Op.sample) }
      let t := (t.keepStates u.model u.lastState).stopParts u
      -- the other parts of a job still send their results (14 R394)
      if status = Status.cancelled ∧ m.job ≠ 0 ∧ s.partNodes m.job ≠ [] then
        (t.updRun k fun v => { v with landing := some (status, stop, w0, w1), barrier := true, partials := [] }).holdReq k
          (some .peer)
      else (t.endReq k status stop w0 w1 n.ladder).afterRun u.model
    | _, _ => s
  | _, _ => s

/-- The first stop condition that holds (Table 4.4, R109). `done` is the number of turns completed. -/
def stopReason (n : Net) (u : Run) (done : Nat) : Nat :=
  if u.target.any fun x => decide (u.modelBest ≤ x) then Stop.target
  else if 0 < done ∧ (if n.relaxed then 1 else n.colours) ≤ u.quiet ∧ u.sched.all (fun p => decide (p.1 < done)) then
    Stop.frozen
  else if u.stall ≠ 0 ∧ u.stall ≤ u.sinceBest then Stop.stall
  else if done = u.turns then Stop.turns
  else 0

/-! ### The ladder engine (Table 4.2 orders 5 to 8) -/

/-- β₂ of every rung for a turn (R101). -/
def rungBetas (u : Run) (turn : Nat) : List Nat := u.ladder.map fun g => rungBeta g (scheduleAt u.sched turn)

/-- The replica that holds a rung. -/
def replicaAt (rungOf : List Nat) (k : Nat) : Nat := (rungOf.findIdx? fun x => decide (x = k)).getD 0

/-- One pair of an exchange round (R105): the run with the draw taken, the counts, and the map. -/
def exchangePair (u : Run) (k : Nat) : Run :=
  let a := replicaAt u.rungOf k
  let b := replicaAt u.rungOf (k + 1)
  let ok := exchangeAccepts (u.betas.getD k 0) (u.betas.getD (k + 1) 0) (u.energies.getD a 0) (u.energies.getD b 0)
    (drawAt u.exchKey u.exchDraw)
  { u with
    exchDraw := u.exchDraw + 1
    exch := updAt u.exch k fun e => (satInc 32 e.1, if ok then satInc 32 e.2 else e.2)
    rungOf := if ok then (u.rungOf.set a (k + 1)).set b k else u.rungOf
    accepted := u.accepted || ok }

/-- An exchange round (R104). -/
def exchangeRound (u : Run) : Run :=
  let pairs := (List.range (u.reps - 1)).filter fun k => decide (k % 2 = u.rounds % 2)
  { pairs.foldl exchangePair u with rounds := u.rounds + 1 }

/-- Order 5: best records and the model-wide best (R114). -/
def noteBests (n : Net) (u : Run) (done : Nat) (start : Bool) : Run × List Bool :=
  let marks := mapIdxFrom (fun r e => start || decide (e < (u.best.getD r ⟨0, 0, 0⟩).energy)) 0 u.energies
  let turn := if start then 0xFFFFFFFF else (done - 1) % 2 ^ 32
  let low := u.energies.min?.getD 0
  let better := start || decide (low < u.modelBest)
  ({ u with
      best := mapIdxFrom (fun r e =>
        if marks.getD r false then ⟨e, turn, u.rungOf.getD r r⟩ else u.best.getD r ⟨e, turn, r⟩) 0 u.energies
      bestState := (List.range u.reps).map fun r => if marks.getD r false then n.stateOf r else u.bestState.getD r []
      modelBest := if better then low else u.modelBest
      bestAt := if better then (done, (u.energies.findIdx? fun e => decide (e = low)).getD 0) else u.bestAt
      sinceBest := if better then 0 else u.sinceBest + 1
      lastRung := u.rungOf
      lastState := (List.range u.reps).map n.stateOf }, marks)

/-- A trace record is due at a boundary (R117). -/
def traceDue (u : Run) (done : Nat) (start : Bool) : Bool := u.m != 0 && (start || decide (done % u.m = 0))

/-- Order 5: the trace record of a boundary, while there is room. -/
def traceStep (s : State) (r : Request) (u : Run) (image done : Nat) (start : Bool) : State × Run :=
  if traceDue u done start then
    if u.traced < u.cap then
      (s.putOut r u.output (traceAtOff u.reps image + u.traced * (8 + 8 * u.reps)) (traceRecord u done),
       { u with traced := u.traced + 1 })
    else (s, { u with truncated := true })
  else (s, u)

/-- The state of an engine half. -/
def half (s : State) : Half → HalfState
  | .west => s.pw.halfW
  | .east => s.pw.halfE

/-- Sets the state of an engine half. -/
def setHalf (s : State) (h : Half) (x : HalfState) : State :=
  match h with
  | .west => { s with pw := { s.pw with halfW := x } }
  | .east => { s with pw := { s.pw with halfE := x } }

/-- The logical engines of a half. -/
def halfEngines (h : Half) : List Nat := (List.range 16).map (· + if h = .west then 0 else 16)

/-- The links that end in a half. -/
def halfLinks (h : Half) : List Nat := (List.range 56).filter fun l => (halfEngines h).any fun le => Img.endsAt l le

/-- The half is in RET, or is to enter RET or OFF. -/
def halfHolds (s : State) (h : Half) : Bool :=
  s.half h == .ret || s.pw.halfReq.any fun x => x.1 == h && x.2.1 != .on

/-- The hold that the power states put on work of an engine mask: STANDBY and its entry (18 R466), or RET of a half (R469). -/
def powerHolds (s : State) (mask : Nat) : Option Hold :=
  if s.pw.mstate ≠ .active then some .standby
  else if [Half.west, Half.east].any fun h => s.halfHolds h && (halfEngines h).any fun le => bitAt mask le then some .halfRet
  else none

/-- The hold that a run takes at a boundary, if any (R124; 07 R199; 18 R467, R469); an unload has released row-update
holds (08 R228). -/
def boundaryHold (s : State) (u : Run) (done : Nat) (start : Bool) : Option Hold :=
  match s.model? u.model with
  | none => none
  | some m =>
    if s.shiftHolds m.tag then some .spareShift
    else
      match s.powerHolds m.mask with
      | some h => some h
      | none => if !start && u.h != 0 && decide (done % u.h = 0) && m.unloading.isNone then some .rowUpdate else none

/-- The frozen turns of every replica on this module. -/
def frozenOf (n : Net) (reps : Nat) : List Nat :=
  (List.range reps).map fun r => ((n.rblocks.filter fun b => decide (b.replica = r)).map (·.frozenTurns)).sum

/-- A run that is not stopped at a boundary is held there, or goes on. -/
def holdOrGo (s : State) (k : ReqKey) (h : Option Hold) : State :=
  match s.run? k, h with
  | none, _ => s
  | some _, some .rowUpdate => (s.holdReq k (some .rowUpdate)).applyHeldUpdate k
  | some _, some h => s.holdReq k (some h)
  | some _, none => s.goOn k

/-- Orders 5 to 8 of a boundary, from the energies of every replica (Table 4.2). -/
def ladder (s : State) (k : ReqKey) (es : List Int) (done : Nat) (start moved : Bool) : State :=
  match s.run? k, s.req? k with
  | some u0, some r =>
    match s.model? u0.model, s.net? u0.model with
    | some m, some n =>
      if es.all fits64 = false then s.failRun u0 n.ladder 8 0 0 0 0
      else
        let image := s.imageBytes m n
        let (u1, marks) := noteBests n { u0 with energies := es, turn := done, quiet :=
          if start then 0 else if moved then 0 else u0.quiet + 1 } done start
        let (s1, u2) := s.traceStep r u1 image done start
        let u3 := { u2 with frozen := frozenOf n u2.reps, sums := n.sums }
        let stop := stopReason n u3 done
        let round := stop = 0 ∧ start = false ∧ u3.x ≠ 0 ∧ done % u3.x = 0
        let u4 := if round then exchangeRound { u3 with accepted := false } else { u3 with accepted := false }
        let u5 := { u4 with betas := rungBetas u4 done, quiet := if u4.accepted then 0 else u4.quiet }
        let s2 := (s1.updRun k fun _ => u5).writeBest r u5 n image marks
        if stop ≠ 0 then
          let s3 := s2.sendBoundary u5 true marks
          if m.job ≠ 0 ∧ s.partNodes m.job ≠ [] then (s3.updRun k fun v => { v with stopped := stop }).holdReq k (some .peer)
          else s3.finishRun k stop
        else
          let s3 := (s2.updRun k fun v => { v with due := some marks, barrier := true }).applyBias k
          (s3.updReq k fun q => { q with turns := done }).holdOrGo k (s3.boundaryHold u5 done start)
    | _, _ => s
  | _, _ => s

/-! ### The start boundary (R94, R110; 03 R65, R88; 16 R436-R440) -/

/-- The global block number of a block of this part (16 Table 16.7): parts are counted in ascending node. -/
def globalBlock (s : State) (m : Model) (k : Nat) : Nat :=
  match Tbl.get? s.pr.jobs m.job with
  | some j =>
    if m.job = 0 then k else ((j.parts.filter fun p => decide (p.node < s.pr.nodeid)).map (·.blocks.length)).sum + k
  | none => k

/-- The start states of every replica that runs: the initial states supplied, or the kept ones (10 R282, R283). -/
def startStates (n : Net) (image reps : Nat) (init : Option Bytes) : List (List (List Nat)) :=
  (List.range reps).map fun r =>
    match init with
    | some bs => n.parseImage (slice bs (r * image) n.imageBytes)
    | none => n.kept.getD r []

/-- The network at the start of a run: BIAS samples held are in force, states, keys and counts are set, and the mirrors
hold the start states of the sources. -/
def startNet (s : State) (m : Model) (n : Net) (u : Run) (modelWord : W64) (sts : List (List (List Nat)))
    (remote : List (Nat × Nat × Nat)) (cont : Bool) : Net :=
  let blocks := n.biasHeld.foldl (fun bs w => ({ n with blocks := bs } : Net).updateBlocks w) n.blocks
  let n1 : Net := { n with blocks := blocks, biasHeld := [], turnEnds := [], rblocks := n.rblocks.map fun b =>
    if b.replica < u.reps then
      { b with state := (sts.getD b.replica []).getD b.block [], dE := 0, flips := 0, frozenTurns := 0, frozen := false,
               draw := 0, key := streamKey u.seed modelWord b.replica (s.globalBlock m b.block), col := none, dwell := 0 }
    else b }
  { n1 with
    rblocks := n1.rblocks.map fun b => if b.replica < u.reps then n1.writeMirror remote b else b
    sums := if u.opcode = Op.sample && !cont then n1.zeroSums else n1.sums }

/-- The run of a specification. -/
def newRun (k : ReqKey) (i op : Nat) (w : RunSpec) (seed modelWord : W64) : Run :=
  { key := k, model := i, opcode := op, output := w.output, stats := w.stats, turns := w.turns, target := w.target,
    f := w.f, stall := w.stall, x := w.x, m := w.m, cap := w.cap, reps := w.reps, h := w.h, klo := w.klo, khi := w.khi,
    ladder := w.ladder, sched := w.sched, seed := seed, turn := 0, rungOf := List.range w.reps,
    lastRung := List.range w.reps, betas := [], exchKey := exchangeKey seed modelWord, exchDraw := 0, rounds := 0,
    exch := List.replicate (w.reps - 1) (0, 0), energies := List.replicate w.reps 0, best := [], modelBest := 0,
    bestAt := (0, 0), sinceBest := 0, quiet := 0, accepted := false, moved := false, frozen := List.replicate w.reps 0,
    bestState := [], lastState := [], traced := 0, truncated := false, updated := false, stopped := 0, partials := [],
    barrier := false, due := none, pause := false, farOut := 0, ended := [], landing := none, sums := Sums.none }

/-- Where the part of another node begins in a replica's image (14 R394). -/
def farOffset (s : State) (m : Model) (n : Net) (node : Nat) : Nat :=
  n.imageBytes + (((s.otherParts m).filter fun p => decide (p.node < node)).map (·.bytes)).sum

/-- The place of a block of another part in a replica's image, and its n and q. -/
def farBlock (s : State) (m : Model) (n : Net) (node blk : Nat) : Option (Nat × Nat × Nat) :=
  ((s.farShapes m).find? fun p => decide (p.node = node)).bind fun p =>
    p.blocks[blk]?.map fun x => (s.farOffset m n node + ((p.blocks.take blk).map shapeBytes).sum, x.1, x.2)

/-- The start state of a variable of another part: from the initial states supplied, else as that part keeps it (03 R65).
A state that node 0 does not have is free (log entry 13), within the states that the variable has. -/
def farStart (s : State) (m : Model) (n : Net) (init : Option Bytes) (node blk var repl : Nat) : Nat :=
  let free := Config.farState m.job (Tbl.getD s.pr.jobGens m.job 1) node blk var repl
  match s.farBlock m n node blk, init with
  | some (off, _, q), some bs =>
    let v := leNat (slice bs (repl * s.imageBytes m n + off) 4096)
    if q = 0 then bits v var 1 else bits v (4 * var) 4
  | some (_, _, q), none => free % max q 2
  | none, _ => 0

/-- The start states of the hem sources of a part that lie in other parts: the number by which the part names the source,
the replica and the state (03 R65). -/
def startsFor (s : State) (m : Model) (n : Net) (reps : Nat) (init : Option Bytes) (sts : List (List (List Nat)))
    (node : Nat) : List (Nat × Nat × Nat) :=
  match Tbl.get? s.pr.jobs m.job with
  | none => []
  | some j =>
    if m.job = 0 then []
    else
      (j.parts.filter fun p => decide (p.node = node)).flatMap fun p => p.hems.flatMap fun x =>
        (Job.locate (j.parts.filter fun q => decide (q.node ≠ node)) (x.1 - p.blocks.length)).toList.flatMap fun y =>
          (List.range reps).map fun r =>
            (x.1 * 8192 + x.2, r,
              if y.1 = s.pr.nodeid then ((sts.getD r []).getD y.2 []).getD x.2 0 else s.farStart m n init y.1 y.2 x.2 r)

/-- The initial states of the part on another node: its slice of each replica's image (14 R394). -/
def initFor (s : State) (m : Model) (n : Net) (reps : Nat) (init : Option Bytes) (node : Nat) : Bytes :=
  let size := (((s.otherParts m).find? fun p => decide (p.node = node)).map (·.bytes)).getD 0
  match init with
  | none => []
  | some bs => (List.range reps).flatMap fun r => slice bs (r * s.imageBytes m n + s.farOffset m n node) size

/-- The words of a RUN: opcode, seed, model word, ladder, schedule and the start states of a part's sources (14 R386, R393; 03 R65; 16
R438). -/
def runWords (op : Nat) (seed model : W64) (ladder : List Nat) (sched : List (Nat × Nat)) (hems : List (Nat × Nat × Nat)) : List Nat :=
  [op, seed.toNat, model.toNat, ladder.length] ++ ladder ++ [sched.length] ++ (sched.flatMap fun p => [p.1, p.2]) ++
  [hems.length] ++ hems.flatMap fun x => [x.1, x.2.1, x.2.2]

/-- RUN goes to every other part of a job, with the run block and the part's initial states as bytes (R393). -/
def sendRun (s : State) (m : Model) (n : Net) (u : Run) (block : Bytes) (init : Option Bytes) (sts : List (List (List Nat))) :
    State :=
  if m.job = 0 then s
  else (s.partNodes m.job).foldl (fun t node =>
    t.sendPeer 0x12 node m.job (Tbl.getD s.pr.jobGens m.job 1)
      (runWords u.opcode u.seed n.modelWord u.ladder u.sched (s.startsFor m n u.reps init sts node))
      (block ++ s.initFor m n u.reps init node)) s

/-! ### Cuff credit (14 R396, R399; log entry 24) -/

/-- The sources whose words cross a peer link away from this module: a part beyond the link lists them, and they lie on this side. -/
def outward (s : State) (parts : List PartShape) (l : Nat) : List (Nat × Nat × Nat) :=
  (((parts.filter fun p => s.beyondLink l p.node).flatMap (Job.listed parts)).filter fun x => !s.beyondLink l x.1).eraseDups

/-- The sources whose words cross a peer link toward this module: a part on this side lists them, and they lie beyond the link. -/
def inward (s : State) (parts : List PartShape) (l : Nat) : List (Nat × Nat × Nat) :=
  (((parts.filter fun p => !s.beyondLink l p.node).flatMap (Job.listed parts)).filter fun x => s.beyondLink l x.1).eraseDups

/-- The sources in other parts that the part on this module lists. -/
def wanted (s : State) (parts : List PartShape) : List (Nat × Nat × Nat) :=
  (parts.filter fun p => decide (p.node = s.pr.nodeid)).flatMap (Job.listed parts)

/-- The peer links that this module's own words use. -/
def sendLinks (s : State) (parts : List PartShape) : List Nat :=
  (List.range 8).filter fun l => (s.outward parts l).any fun x => decide (x.1 = s.pr.nodeid)

/-- CREDIT for a turn goes out on each link whose half holds no unapplied words of the job and whose words find credit on
every onward link that they use (R399). -/
def grantCredit (s : State) (job turn : Nat) : State :=
  match Tbl.get? s.pr.jobs job with
  | none => s
  | some j =>
    let due := (List.range 8).filter fun l =>
      let words := s.inward j.parts l
      !words.isEmpty && !j.granted.contains (l, turn) &&
      !(s.pr.cuffs.any fun c => decide (c.link = l) && decide (c.job = job) && decide (c.turn % 2 = turn % 2)) &&
      (List.range 8).all fun o => decide (o = l) || !(s.outward j.parts o).any (fun x => words.contains x) || j.credits.contains (o, turn)
    { s with pr := { s.pr with
        jobs := Tbl.upd s.pr.jobs job fun x => { x with granted := x.granted ++ due.map fun l => (l, turn) }
        out := s.pr.out ++ due.map fun l =>
          { cls := 0x13, link := l, src := s.pr.nodeid, node := ((s.pr.links[l]?).getD PeerLink.reset).peer, job := job,
            gen := Tbl.getD s.pr.jobGens job 1, words := [turn], bytes := [] } } }

/-- A job's run begins: both halves of every Cuff are free (R399). -/
def openCuffs (s : State) (job : Nat) : State :=
  if job = 0 then s else (s.grantCredit job 0).grantCredit job 1

/-! ### What a run reads of its hem copies (12 R331; 03 R65) -/

/-- A burst holds the hem directory of a model, or hem copies of one of its replica-blocks that runs. -/
def hemBurst (i : Nat) (n : Net) (reps : Nat) (b : Burst) : Bool :=
  match b.place with
  | .directory j => decide (j = i)
  | .hem j rblk => decide (j = i) && n.rblocks.any fun x => decide (x.le = b.pkg) && decide (x.rblk = rblk) && decide (x.replica < reps)
  | _ => false

/-- The burst that a run meets in its hem directory and copies: one known to be bad, or one found now. -/
def hemMet (s : State) (u : Run) (n : Net) (mask : Nat) (found : Option Burst) : Option Burst :=
  let mine := fun (b : Burst) => bitAt mask b.pkg && hemBurst u.model n u.reps b
  match ((List.range 32).filter fun le => bitAt mask le).findSome? fun le => (s.pkg le).bad.find? mine with
  | some b => some b
  | none => found.filter fun b => burstBad b && mine b

/-- A run fails with a burst of its hem copies (12 R331). -/
def failHems (s : State) (u : Run) (b : Burst) : State :=
  match s.req? u.key with
  | some _ => (s.failParts u).faultLpddr u.key b
  | none =>
    let tag := ((s.model? u.model).map (·.tag)).getD 0
    ((s.noteBurst b (idOf tag)).noteContext tag 0x6 b.pkg 0 0).failPart u 0

/-- The hem copies of the replica-blocks that run are written (03 R65). -/
def rewriteHems (s : State) (u : Run) (n : Net) (mask : Nat) : State :=
  ((List.range 32).filter fun le => bitAt mask le).foldl (fun t le =>
    t.rewriteUnits le fun p => match p with
      | .hem j rblk => decide (j = u.model) && n.rblocks.any fun x => decide (x.le = le) && decide (x.rblk = rblk) && decide (x.replica < u.reps)
      | _ => false) s

/-- The start boundary of this module's part of a run: its hem copies written, and fields and energies from the start states; or the
run fails. -/
def startPart (s : State) (u : Run) (n : Net) (mask : Nat) : Except State (State × List Int) :=
  let t := (s.rewriteHems u n mask).updNet u.model fun _ => n
  match t.hemMet u n mask none with
  | some b => .error (t.failHems u b)
  | none =>
  match Net.mapBlocks (fun b => if b.replica < u.reps then n.rebuild b else .ok b) n.rblocks with
  | .error (b, lane) => .error (t.failRun u b.le 7 b.su 0 lane b.rblk)
  | .ok bs =>
    let n' := { n with rblocks := bs }
    .ok (t.updNet u.model fun _ => n', (List.range u.reps).map n'.twice)

/-- Energies from the doubled sums of every part (R46, R100). -/
def fromTwice (n : Net) (sums : List Int) : List Int := sums.map fun x => x / 2 + n.const

/-- Begins a run whose parameters and seed are fixed. -/
def beginRun (s : State) (k : ReqKey) (i : Nat) (m : Model) (n : Net) (op : Nat) (w : RunSpec) (seed : W64)
    (block : Bytes) : State :=
  let u := newRun k i op w seed n.modelWord
  let sts := startStates n (s.imageBytes m n) w.reps w.init
  let s := s.clearLanes i
  let n1 := s.startNet m n u n.modelWord sts (s.startsFor m n w.reps w.init sts s.pr.nodeid) w.cont
  let n2 := if w.init.isSome then { n1 with valid := mapIdxFrom (fun r v => if r < w.reps then true else v) 0 n1.valid } else n1
  let s1 := (({ s with runs := s.runs ++ [{ u with updated := !n.biasHeld.isEmpty, lastState := sts }] }).holdReq k none).startOn m.mask
  match ((s1.openCuffs m.job).sendRun m n u block w.init sts).startPart u n2 m.mask with
  | .error t => t
  | .ok (t, tw) =>
    if m.job ≠ 0 ∧ s.partNodes m.job ≠ [] then
      -- a job's start boundary waits for the PARTIAL of every part (14 R393)
      t.updRun k fun v => { v with barrier := true, partials := [(s.pr.nodeid, tw, false)] }
    else t.ladder k (fromTwice n2 tw) 0 true false

/-- An opcode that needs a grant, named in a kernel queue, is refused (10 R267). -/
def kernelRefusal : Refuse := Refuse.grant (Refuse.report 0x01 false false 0 0 0) 1

/-- Every engine of a mask takes a dispatch now (20 R504; 07 R198, R199). -/
def enginesReady (s : State) (mask : Nat) : Bool :=
  !s.shiftOver mask && (List.range 32).all fun le => !bitAt mask le || s.accepts le

/-- The sending engine of the first pair between which a model's lane-3 traffic has no route left: its engines and the one that they
report to (07 R192, R524). -/
def unrouted (s : State) (mask lead : Nat) : Option Nat :=
  ((((List.range 32).filter fun le => bitAt mask le && decide (le ≠ lead)).flatMap fun le => [(le, lead), (lead, le)]).find? fun q =>
    (s.route q.1 q.2).isNone).map (·.1)

/-- The refusal of a command that needs a lane-3 route which is gone (07 R192, R524; 08 Table 8.16). -/
def routeRefusal (le : Nat) : Refuse := Refuse.placement (Refuse.report 0x0D false false le 0 0x3F)

/-- A run whose inputs have been read is refused, fails on a damaged model, or begins with its seed fixed. -/
def openRun (s : State) (k : ReqKey) (r : Request) (i : Nat) (m : Model) (n : Net) (op : Nat) : State :=
  match (if op = Op.score then s.scoreSpec r m n else s.runSpec r m n) with
  | .error x => s.refuse k x
  | .ok w =>
    match s.unrouted m.mask n.ladder, s.damageOf m with
    | some le, _ => s.refuse k (routeRefusal le)
    | none, some (le, cls, su, addr) => s.faultData k le cls su addr 0 0
    | none, none =>
      let block := if op = Op.score then [] else s.readSpace r (r.fld 64 8) 128
      if op = Op.score then s.beginRun k i m n op w 0 block
      else if r.fld 88 1 = 0 then s.beginRun k i m n op w (BitVec.ofNat 64 (r.fld 80 8)) block
      else
        match s.drawFw 8 with
        | some (bs, t) => t.beginRun k i m n op w (BitVec.ofNat 64 (leNat bs)) block
        | none => s.refuse k ⟨Status.entropyFailed, 0, 0⟩

/-- Dispatches a SOLVE, SAMPLE or SCORE, with what it meets in the memory that it reads: refused, failed, still waiting, or begun (10
R281-R285, 16 R436). -/
def dispatchRun (s : State) (k : ReqKey) (op : Nat) (source : SourceFind) : State :=
  match s.ready? k op with
  | none => s
  | some r =>
    if r.kernel then s.refuse k kernelRefusal
    else
      match s.handle? r (r.fld 56 8) with
      | none => s.badHandle k r 56
      | some i =>
        match s.model? i, s.net? i with
        | some m, some n =>
          if (s.runOn i).isSome || s.updatesAhead r || !s.enginesReady m.mask || !s.runInputsUp r then s
          else
            match s.sourceMet r (s.runReads r m n) source with
            | (t, .clean) => t.openRun k r i m n op
            | (t, met) => t.failMet k met
        | _, _ => s.refuse k (Refuse.field 56 0)

/-! ### The turn boundary (Table 4.2 orders 1 to 4) -/

/-- Cuff words held for a turn of a job, in ascending source node and then as sent (14 R399). -/
def cuffWords (s : State) (job turn : Nat) : List W64 :=
  sortBy (fun a b => decide (bits a.toNat 54 6 ≤ bits b.toNat 54 6))
    ((s.pr.cuffs.filter fun c => decide (c.job = job) && decide (c.turn = turn)).flatMap (·.words))

/-- The turn-end words of every source node of a turn are held (14 R399), and this module's own words have gone. -/
def cuffReady (s : State) (job turn : Nat) : Bool :=
  match Tbl.get? s.pr.jobs job with
  | none => true
  | some j =>
    (((s.wanted j.parts).map (·.1)).eraseDups.all fun node => (s.cuffWords job turn).any fun w =>
      decide (wKind w = 2) && decide (bits w.toNat 54 6 = node)) &&
    ((s.sendLinks j.parts).isEmpty || decide (j.sentTurn = turn + 1))

/-- The number by which this part names a block of another part (14 R392). -/
def remoteBlock (s : State) (job own node blk : Nat) : Nat :=
  match Tbl.get? s.pr.jobs job with
  | some j =>
    own + ((j.parts.filter fun p => decide (p.node < node) && decide (p.node ≠ s.pr.nodeid)).map (·.blocks.length)).sum + blk
  | none => own + blk

/-- The Cuff words of a turn enter the pending copies, with the scales they carry, and their half is freed (14 R399). -/
def applyCuffs (s : State) (i : Nat) (turn : Nat) : State :=
  match s.model? i with
  | none => s
  | some m =>
    if m.job = 0 then s
    else
      let t := (s.cuffWords m.job turn).foldl (fun t w =>
        if wKind w = 1 then
          t.updNet i fun n =>
            let key := s.remoteBlock m.job n.blocks.length (bits w.toNat 54 6) (wBlock w)
            { n with
              remoteD := Tbl.put n.remoteD (key * 8192 + wVar w) (wD w)
              rblocks := n.rblocks.map fun b =>
                if b.replica = wRepl w then
                  let g := fun j (d : SpDir) => if d.blk = key ∧ d.var = wVar w then wState w else b.pend.getD j 0
                  { b with pend := mapIdxFrom g 0 (n.block b.block).spdir }
                else b }
        else t) s
      ({ t with pr := { t.pr with
          cuffs := t.pr.cuffs.filter fun c => !(decide (c.job = m.job) && decide (c.turn = turn)) } }).grantCredit m.job (turn + 2)

/-- A run's boundary can be taken: every replica-block has left the round, and every unit holds the turn-end stitches of its
sources (07 R187). -/
def boundaryReady (s : State) (u : Run) (m : Model) (n : Net) : Bool :=
  s.turning u && decide (u.stopped = 0) && n.rblocks.all (n.done u) && turnEndsIn n u.turn &&
  (decide (m.job = 0) || s.cuffReady m.job u.turn)

/-- A replica-block is due for its field audit (03 R89, R90). -/
def auditDue (s : State) (b : RBlock) : Bool := decide (2 ^ (s.siteLe b.le).audeff ≤ b.audit)

/-- The replicas that a boundary contributes for: those observed in the turn just ended (R120). -/
def observedReps (u : Run) : List Nat := (List.range u.reps).filter u.observes

/-- What the states of variables in other parts are taken to be in the sums of a boundary (R120; log entry 116). -/
def farStates (s : State) (n : Net) : (Nat → Nat → Nat → Nat) × State :=
  if n.pairs.all fun p => decide (p.1 < n.blocks.length) && decide (p.2.2.1 < n.blocks.length) then (fun _ _ _ => 0, s)
  else
    let (v, t) := s.takeFree
    (Config.farPair v, t)

/-- Orders 1 to 4 on this module: columns applied, hem changes, audits, sums, and the partial of each replica. The fields of a
replica-block whose residues failed once are formed afresh (03 R82). -/
def boundaryPart (s : State) (u : Run) (n : Net) (redo : Option (Nat × Nat)) : Except State (State × List Int × Bool) :=
  let again := fun (b : RBlock) => redo == some (b.le, b.rblk)
  let run := fun (f : RBlock → Except Nat RBlock) (bs : List RBlock) =>
    Net.mapBlocks (fun b => if b.replica < u.reps then f b else .ok b) bs
  match run (fun b => if again b then n.rebuild b else n.applyCol b) n.rblocks with
  | .error (b, lane) => .error (s.failRun u b.le 7 b.su 0 lane b.rblk)
  | .ok b1 =>
    match run (fun b => if again b then n.rebuild { b with mirror := b.pend } else n.applyHems b) b1 with
    | .error (b, lane) => .error (s.failRun u b.le 7 b.su 0 lane b.rblk)
    | .ok b2 =>
      let moved := b2.any fun b => decide (b.flips ≠ 0)
      let n1 := { n with rblocks := b2.map fun b => if s.auditDue b then { b with audit := 0 } else b }
      let part := (List.range u.reps).map fun r =>
        if n.relaxed then n1.twice r
        else ((n1.rblocks.filter fun b => decide (b.replica = r)).map (·.dE)).sum
      let (far, t) := if u.opcode = Op.sample then s.farStates n else (fun _ _ _ => 0, s)
      let sums := if u.opcode = Op.sample then n1.sumBoundary far (observedReps u) else n1.sums
      let n2 := { n1 with sums := sums, rblocks := n1.rblocks.map fun b => { b with dE := 0 } }
      if Net.sumsFit sums = false then .error (s.failRun u n.ladder 8 0 0 0 0)
      else .ok (t.updNet u.model fun _ => n2, part, moved)

/-- A replica-block that runs has a column or a hem change to apply. -/
def hasChange (u : Run) (b : RBlock) : Bool := decide (b.replica < u.reps) && (b.col.isSome || b.mirror != b.pend)

/-- The replica-block that a finding names, if it has something to apply. -/
def changing (u : Run) (n : Net) (le rblk : Nat) : Option RBlock :=
  n.rblocks.find? fun b => decide (b.le = le) && decide (b.rblk = rblk) && hasChange u b

/-- What a boundary's checks correct is counted (03 R79, R82, R83; 12 R330). -/
def boundaryCount (s : State) (u : Run) (n : Net) (m : Model) (find : BoundaryFind) : State :=
  match find with
  | .sramCorrected le => if bitAt m.mask le then s.countSramCorr (s.siteOf le) else s
  | .residueOnce le rblk => if (changing u n le rblk).isSome then s.countLogCorr (s.siteOf le) else s
  | .lpddrCorrected k => if bitAt m.mask k && n.rblocks.any fun b => decide (b.le = k) && !b.mirror.isEmpty then s.countBurstCorr k else s
  | _ => s

/-- The replica-block whose fields are formed afresh at a boundary. -/
def redone (u : Run) (n : Net) (find : BoundaryFind) : Option (Nat × Nat) :=
  match find with
  | .residueOnce le rblk => (changing u n le rblk).map fun b => (b.le, b.rblk)
  | _ => none

/-- What a boundary's checks find (03 R79-R83, R89; 12 R331): the run fails, or goes on. -/
def boundaryFault (s : State) (u : Run) (n : Net) (m : Model) (find : BoundaryFind) : Option State :=
  let damaged := fun (t : State) => match t.damageOf m with
    | some d => some (t.failRun u d.1 d.2.1 d.2.2.1 d.2.2.2 0 0)
    | none => (t.hemMet u n m.mask none).map (t.failHems u)
  match find with
  | .clean | .sramCorrected _ | .residueOnce _ _ | .lpddrCorrected _ => damaged s
  | .residueTwice le rblk lane =>
    match changing u n le rblk with
    | some b => some (s.failRun u le 4 b.su 0 lane rblk)
    | none => damaged s
  | .auditMismatch le rblk lane =>
    match n.rblocks.find? fun b => decide (b.le = le) && decide (b.rblk = rblk) && s.auditDue b with
    | some b => some (s.failRun u le 9 b.su 0 lane rblk)
    | none => damaged s
  | .storeBad le su addr =>
    if wordOf m le (.store su) addr then damaged (s.noteBadWord (s.siteOf le) (.store su) addr) else damaged s
  | .vscaleBad le addr => if wordOf m le .vscale addr then damaged (s.noteBadWord (s.siteOf le) .vscale addr) else damaged s
  | .scratchBad le rblk addr =>
    match n.rblocks.find? fun b => decide (b.le = le) && decide (b.rblk = rblk) with
    | some b => some ((s.noteBadWord (s.siteOf le) (.footprint rblk) addr).failRun u le 2 b.su addr 0 rblk)
    | none => damaged s
  | .lpddrBad b =>
    match s.hemMet u n m.mask (some b) with
    | some b => some (s.failHems u b)
    | none => damaged s

/-- The energies of the replicas after a turn, from the partials of every part (R100). -/
def turnEnergies (n : Net) (u : Run) (parts : List (List Int)) : List Int :=
  let total := (List.range u.reps).map fun r => (parts.map fun p => p.getD r 0).sum
  if n.relaxed then fromTwice n total else mapIdxFrom (fun r e => e + total.getD r 0) 0 u.energies

/-- The ladder engine goes on once the partials of every part are in. -/
def ladderReady (s : State) (k : ReqKey) : State :=
  match s.run? k with
  | none => s
  | some u =>
    match s.model? u.model, s.net? u.model with
    | some m, some n =>
      if u.barrier && (s.partNodes m.job).all fun node => u.partials.any fun p => decide (p.1 = node) then
        let parts := u.partials.map (·.2.1)
        let start := u.best.isEmpty
        let total := (List.range u.reps).map fun r => (parts.map fun p => p.getD r 0).sum
        let es := if start then fromTwice n total else turnEnergies n u parts
        (s.updRun k fun v => { v with barrier := false, partials := [] }).ladder k es (if start then 0 else u.turn + 1)
          start (u.partials.any (·.2.2))
      else s
    | _, _ => s

/-- The turn boundary of a run (Table 4.2). On a worker of a job the partials go to node 0, and the boundary word ends
the barrier (14 R393). -/
def turnBoundary (s : State) (k : ReqKey) (find : BoundaryFind) : State :=
  match s.run? k with
  | none => s
  | some u =>
    match s.model? u.model, s.net? u.model with
    | some m, some n =>
      if s.boundaryReady u m n = false then s
      else
        let s := s.applyCuffs u.model u.turn
        let n := (s.net? u.model).getD n
        match s.boundaryFault u n m find with
        | some t => t
        | none =>
          match (s.boundaryCount u n m find).boundaryPart u n (redone u n find) with
          | .error t => t
          | .ok (t, part, moved) =>
            let job := m.job ≠ 0 ∧ s.partNodes m.job ≠ []
            if job ∧ (s.req? k).isNone then
              (t.updRun k fun v => { v with barrier := true }).sendPeer 0x15 0 m.job (Tbl.getD s.pr.jobGens m.job 1)
                ([u.turn, b2n moved] ++ part.map (ofSigned 64)) []
            else if job then
              (t.updRun k fun v =>
                { v with barrier := true, partials := v.partials ++ [(s.pr.nodeid, part, moved)] }).ladderReady k
            else t.ladder k (turnEnergies n u [part]) (u.turn + 1) false moved
    | _, _ => s

/-! ### A half enters RET (18 R469; 20 R504) -/

/-- No run makes its turn on a half. -/
def halfQuiet (s : State) (h : Half) : Bool :=
  s.runs.all fun u => match s.model? u.model with
    | some m => !((halfEngines h).any fun le => bitAt m.mask le) || !s.turning u
    | none => true

/-- The sites of a half that hold logical engines. -/
def halfSites (s : State) (h : Half) : List Nat := ((halfEngines h).filter fun le => !s.isLost le).map s.siteOf

/-- A site is driven to a state: a transition is counted, TARGET and DSTATE follow (03 Table 3.13). Woken from RET it is
scrubbed, woken from OFF it is cleared and its microcode loaded (R87, 12 R350). OFF loses what it held. -/
def driveSite (d : DState) (x : Site) : Site :=
  if x.dstate = d then { x with target := d }
  else
    { x with
      dstate := d, target := d, trans := satInc 16 x.trans
      scrub := d == .on && x.dstate == .ret
      clearing := d == .on && x.dstate == .off
      ucode := d == .on || (d == .ret && x.ucode)
      point := 0
      badWords := if d = .off then [] else x.badWords }

/-- Drives every site of a half that holds a logical engine. -/
def driveHalf (s : State) (h : Half) (d : DState) : State :=
  (s.halfSites h).foldl (fun t i => t.updSite i (driveSite d)) s

/-- A Hinge is parked while a half of it is in RET or OFF; one whose half has tripped stays as it was (07 R196, R197). -/
def parkHinges (s : State) : State :=
  let down := fun (x : HalfState) => x == .ret || x == .off
  let tripped := s.pw.halfW == .tripped || s.pw.halfE == .tripped
  { s with fb := { s.fb with hinges := s.fb.hinges.map fun x =>
      { x with parked := down s.pw.halfW || down s.pw.halfE || (tripped && x.parked) } } }

/-- Ends the requests of a change of a half. -/
def endHalfReq (s : State) (h : Half) (x : HalfState) : State :=
  let t := (s.pw.halfReq.filter fun y => y.1 == h && y.2.1 == x).foldl (fun t y =>
    match y.2.2 with
    | some k => t.okReq k 0 0
    | none => t) s
  { t with pw := { t.pw with halfReq := t.pw.halfReq.filter fun y => !(y.1 == h && y.2.1 == x) } }

/-- A half that is to enter RET does so once every run on it holds, and the request ends. -/
def settleRet (s : State) : State :=
  [Half.west, Half.east].foldl (fun t h =>
    if (t.pw.halfReq.any fun x => x.1 == h && x.2.1 == .ret) && t.halfQuiet h && (halfLinks h).all t.linkQuiet &&
        t.fb.service.all fun x => !(halfLinks h).contains x.link then
      (((t.driveHalf h .ret).setHalf h .ret).parkHinges).endHalfReq h .ret
    else t) s

end State

def execSolve (r : ReqKey) (source : SourceFind) (s : State) : Host.Outcome State Fault Refusal :=
  .next (s.dispatchRun r Op.solve source)

def execSample (r : ReqKey) (source : SourceFind) (s : State) : Host.Outcome State Fault Refusal :=
  .next (s.dispatchRun r Op.sample source)

def execScore (r : ReqKey) (source : SourceFind) (s : State) : Host.Outcome State Fault Refusal :=
  .next (s.dispatchRun r Op.score source)

def execTurnBoundary (r : ReqKey) (find : BoundaryFind) (s : State) : Host.Outcome State Fault Refusal :=
  .next (s.turnBoundary r find).settleRet

end Sys2Proof.Machine
end

