-- ==== Sys2Proof/Machine/History.lean ====
section
/-! DEFINITION. The history store: entries and positions, appending with fillers and waits, and retrieval (05 R129-R152;
10 R286, R287), with the meanings of APPEND, RETRIEVE and RING_APPEND_WRITE. -/

namespace Sys2Proof.Machine

namespace Store

/-- The bits of an element. -/
def elemBits (h : Store) : Nat := if h.fmt = 1 then 1 else 4

/-- The stride of an entry in bytes (Table 5.1). -/
def stride (h : Store) : Nat := Img.histStride (h.fmt == 1) h.width

/-- The filler entry (R525). -/
def filler (h : Store) : List Int := List.replicate h.width (if h.fmt = 1 then 1 else 0)

/-- The elements of a packed entry. -/
def unpack (h : Store) (bs : Bytes) : List Int :=
  let v := leNat bs
  (List.range h.width).map fun d =>
    let c := bits v (h.elemBits * d) h.elemBits
    if h.fmt = 1 then spinOf c else toSigned 4 c

/-- The offset of the first byte of a packed entry with a nonzero bit after its last element (R129). -/
def tailAt (h : Store) (bs : Bytes) : Option Nat :=
  (List.range bs.length).find? fun k => decide (field bs k 1 >>> (h.elemBits * h.width - 8 * k) ≠ 0)

/-- The slot of a position (R130). -/
def slotOf (h : Store) (p : Nat) : Nat := if h.ring then p % h.capacity else p

/-- N_v moves past every position that is written (R131). -/
def advance (h : Store) : Nat → Store
  | 0 => h
  | fuel + 1 =>
    if h.ready.contains h.visible then
      advance { h with visible := h.visible + 1, ready := h.ready.filter fun p => p != h.visible } fuel
    else h

/-- Writes an entry at a position. -/
def put (h : Store) (p : Nat) (elems : List Int) : Store :=
  Store.advance { h with slots := Tbl.put h.slots (h.slotOf p) elems, ready := h.ready ++ [p] } (h.ready.length + 1)

/-- The entry at a position. -/
def entry (h : Store) (p : Nat) : List Int := Tbl.getD h.slots (h.slotOf p) h.filler

/-- The lowest position held (R130). -/
def lowest (h : Store) : Nat := if h.ring then h.n - h.capacity else 0

end Store

namespace State

/-- The engines of a mask. -/
def enginesOf (mask : Nat) : List Nat := (List.range 32).filter fun le => bitAt mask le

/-- Where a slot of an SRAM-resident store lies: engine, unit, byte address in the slice (R133, R134). -/
def slotPlace (m : Model) (h : Store) (slot : Nat) : Nat × Nat × Nat :=
  let les := enginesOf m.mask
  let u := slot % (8 * les.length)
  (les.getD (u / 8) 0, u % 8, (if h.whole then 0 else 16777216) + slot / (8 * les.length) * h.stride)

/-- Where a slot of an LPDDR6-resident store lies: engine, the unit that evaluates it, and the byte of the engine's region (R135). -/
def lpddrPlace (m : Model) (h : Store) (slot : Nat) : Nat × Nat × Nat :=
  let les := enginesOf m.mask
  let row := slot / max les.length 1
  (les.getD (slot % max les.length 1) 0, row % 8, row * h.stride)

/-- Writes an entry of a store; an SRAM word or LPDDR6 unit that was uncorrectable there is rewritten with it. -/
def putEntry (s : State) (i p : Nat) (elems : List Int) : State :=
  match s.model? i, s.store? i with
  | some m, some h =>
    let t := s.updStore i fun h => h.put p elems
    if h.lpddr then t.rewriteUnits (lpddrPlace m h (h.slotOf p)).1 (· == .entry i (h.slotOf p))
    else
      let (le, su, a) := slotPlace m h (h.slotOf p)
      t.rewriteWords (s.siteOf le) fun place addr =>
        place == .store su && decide (a ≤ 8 * addr) && decide (8 * addr < a + h.stride)
  | _, _ => s

/-- An entry may be written at a position: in a RING store the position it overwrites is written and no running
RETRIEVE still reads it (R139). -/
def slotFree (s : State) (i p : Nat) : Bool :=
  match s.store? i with
  | none => false
  | some h =>
    !h.ring || decide (p < h.capacity) ||
    ((decide (p - h.capacity < h.visible) || h.ready.contains (p - h.capacity)) &&
      s.fe.requests.all fun r => match r.reads with
        | some (j, lo, hi) => !(r.running && r.op == Op.retrieve && decide (j = i) && decide (lo ≤ p - h.capacity) && decide (p - h.capacity < hi))
        | none => true)

/-- Writes an entry, or lets it wait for its slot (R139). -/
def giveEntry (s : State) (i : Nat) (who : Appender) (p : Nat) (elems : List Int) : State :=
  if s.slotFree i p then s.putEntry i p elems
  else s.updStore i fun h => { h with waiting := h.waiting ++ [⟨who, p, elems⟩] }

/-- Entries of an appender wait in a store. -/
def waits (s : State) (i : Nat) (who : Appender) : Bool :=
  (s.store? i).any fun h => h.waiting.any fun w => decide (w.who = who)

/-- An APPEND whose last entry is written ends with OK (R136, 10 R301). -/
def appendDone (s : State) (k : ReqKey) : State :=
  match s.req? k with
  | none => s
  | some r =>
    match r.append with
    | some a =>
      if r.state = .dispatched ∧ r.op = Op.append ∧ a.done = a.count ∧ s.waits a.store (.request k) = false then
        s.okReq k (BitVec.ofNat 64 a.first) (BitVec.ofNat 64 a.count)
      else s
    | none => s

/-- The next entry of an APPEND goes to its position. -/
def appendNext (s : State) (k : ReqKey) (elems : List Int) : State :=
  match s.req? k with
  | none => s
  | some r =>
    match r.append with
    | some a =>
      ((s.giveEntry a.store (.request k) (a.first + a.done) elems).updReq k fun r =>
        { r with append := some { a with done := a.done + 1 } }).appendDone k
    | none => s

/-- Every position of an APPEND not yet written gets the filler (R525). After a tag mismatch the entries that have been converted, and
wait for their slots, are kept (`keep`; 10 R287). -/
def fillRest (s : State) (k : ReqKey) (keep : Bool) : State :=
  match s.req? k with
  | none => s
  | some r =>
    match r.append with
    | some a =>
      match s.store? a.store with
      | some h =>
        if r.op = Op.append then
          let t := s.updStore a.store fun h =>
            { h with waiting := h.waiting.map fun w => if w.who = .request k ∧ keep = false then { w with elems := h.filler } else w }
          ((List.range (a.count - a.done)).foldl (fun t j =>
            t.giveEntry a.store (.request k) (a.first + a.done + j) h.filler) t).updReq k fun r =>
              { r with append := some { a with done := a.count }, samples := [] }
        else s
      | none => s
    | none => s

/-- A waiting append is written once its slot is free (R139). -/
def ringAppendWrite (s : State) (who : Appender) : State :=
  match s.models.findSome? fun p => match p.2.body with
      | .store h => (h.waiting.find? fun w => decide (w.who = who)).map fun w => (p.1, w)
      | .net _ => none with
  | none => s
  | some (i, w) =>
    let t := s.updStore i fun h => { h with waiting := h.waiting.filter fun v => decide (v.position ≠ w.position) }
    if t.slotFree i w.position && s.enginesReady (((s.model? i).map (·.mask)).getD 0) then
      let u := t.putEntry i w.position w.elems
      match who with
      | .request k => u.appendDone k
      | .stream _ => u
    else s

/-! ### Raw samples (06 R166) -/

/-- The bytes of one raw sample of a store. -/
def rawSample (h : Store) (g : Group) : Nat := 8 + roundUp (h.width * rawBytes g.raw) 8

/-- The header offset of the first sample with a nonzero reserved field. -/
def rawReserved (size : Nat) (bs : Bytes) (count : Nat) : Option Nat :=
  ((List.range count).find? fun j => decide (field bs (j * size + 2) 6 ≠ 0)).map (· * size)

/-- Samples of a source: block number and raw values. -/
def rawSamples (size : Nat) (bs : Bytes) (count : Nat) : List (Nat × Bytes) :=
  (List.range count).map fun j => (field bs (j * size) 2, slice bs (j * size + 8) (size - 8))

/-- The group that a RAW payload names: inbound, and of the model format given (10 R286, R287). -/
def rawGroup (s : State) (i index mfmt : Nat) : Option Group :=
  match s.group? (.model i index) with
  | some g => if g.outbound = false ∧ g.mfmt = mfmt then some g else none
  | none => none

/-- The store of a request, or the refusal of its handle. -/
def storeFor (s : State) (r : Request) : Except Refuse (Nat × Model × Store) :=
  if r.kernel then .error kernelRefusal
  else
    match s.handle? r (r.fld 56 8) with
    | some i =>
      match s.model? i, s.store? i with
      | some m, some h => .ok (i, m, h)
      | _, _ => .error (Refuse.field 56 0)
    | none => .error (Refuse.field 56 0)

/-! ### APPEND (R136-R139, R525) -/

/-- The positions of an APPEND, or its refusal (R137). -/
def appendRoom (h : Store) (count : Nat) : Option Refuse :=
  if h.ring then (if h.capacity < count then some (Refuse.field 72 0) else none)
  else if h.capacity < h.n + count then
    some (Refuse.capacity (Refuse.report 0x0A false false 0 0 0) (h.n + count - h.capacity))
  else none

/-- What an APPEND finds wrong in its source. -/
def sourceBad (h : Store) (g : Option Group) (bs : Bytes) (count : Nat) : Option Refuse :=
  match g with
  | some g => (rawReserved (rawSample h g) bs count).map fun o => Refuse.reserved o 7
  | none =>
    leastOf ((List.range count).filterMap fun e =>
      (h.tailAt (slice bs (e * h.stride) h.stride)).map (· + e * h.stride)) |>.map fun o => Refuse.field o 7

/-- An APPEND receives its positions (R136). -/
def takePositions (s : State) (k : ReqKey) (i : Nat) (h : Store) (count : Nat) (samples : List (Nat × Bytes)) : State :=
  (s.updStore i fun h => { h with n := h.n + count }).updReq k fun r =>
    { r with state := .dispatched, hold := none, samples := samples
             append := some { store := i, first := h.n, count := count, done := 0, elems := [] } }

/-- An APPEND with its positions assigned: packed entries are written or wait; raw samples wait for conversion. -/
def startAppend (s : State) (k : ReqKey) (i : Nat) (h : Store) (g : Option Group) (bs : Bytes) (count : Nat) : State :=
  let t := s.takePositions k i h count (match g with
    | some g => rawSamples (rawSample h g) bs count
    | none => [])
  match g with
  | some _ => t
  | none => (List.range count).foldl (fun t e => t.appendNext k (h.unpack (slice bs (e * h.stride) h.stride))) t

/-- The engine from which a route is gone that a store's converted vectors take from a group's home engine (07 R192, R524). -/
def vectorUnrouted (s : State) (m : Model) (g : Option Group) : Option Nat :=
  g.bind fun g => ((enginesOf m.mask).find? fun le => (s.route g.le le).isNone).map fun _ => g.le

/-- Dispatches an APPEND, with what its transfer meets in its source. One that meets an uncorrectable word has its positions and fails:
they all hold the filler, since nothing is written before the whole source has been read (R525; 12 R331; log entry 119). Positions are
checked first, then the address, then the content (DEDUCED, log entry 129). -/
def dispatchAppend (s : State) (k : ReqKey) (source : SourceFind) : State :=
  match s.ready? k Op.append with
  | none => s
  | some r =>
    match s.storeFor r with
    | .error x => s.refuse k x
    | .ok (i, m, h) =>
      let count := r.fld 72 8
      let raw := bitAt (r.fld 80 1) 0
      let g := if raw then s.rawGroup i (r.fld 82 2) (if h.fmt = 1 then 2 else 1) else none
      if raw && g.isNone then s.refuse k (Refuse.field 82 0)
      else if count = 0 then s.okReq k (BitVec.ofNat 64 h.n) 0
      else
        match appendRoom h count with
        | some x => s.refuse k x
        | none =>
          let len := count * (match g with
            | some g => rawSample h g
            | none => h.stride)
          match s.reachOk r (r.fld 64 8) len true with
          | .error st => s.refuse k (accessRefuse r st 64 0)
          | .ok _ =>
            if !s.transferUp (r.fld 64 8) || !s.enginesReady m.mask then s
            else
              match s.sourceMet r [(r.fld 64 8, len)] source with
              | (t, .clean) =>
                let bs := s.readSpace r (r.fld 64 8) len
                match sourceBad h g bs count, s.vectorUnrouted m g with
                | some x, _ => t.refuse k x
                | none, some le => t.refuse k (routeRefusal le)
                | none, none => (t.startOn m.mask).startAppend k i h g bs count
              | (t, met) => (((t.startOn m.mask).takePositions k i h count []).fillRest k false).failMet k met

/-! ### RETRIEVE (R140-R152) -/

/-- The overlap of an entry and a query (R141). -/
def overlap (p q : List Int) : Int := (List.zipWith (· * ·) p q).sum

/-- L = log₂(W / 2^23) to the nearest multiple of 2^−16 (R146). -/
def logWeight (w : Nat) : Nat :=
  let big := w ^ 131072
  greatest (fun t => t == 0 || decide (2 ^ (2 * t - 1 + 3014656) ≤ big)) 21 0

/-- One query's results. -/
structure Found where
  wAll : Nat
  wTop : Nat
  er   : Int
  sat  : Bool
  oMax : Int
  top  : List (Nat × Int × Nat)
  deriving DecidableEq, Repr

/-- The results of one query over the entries of a range (R143-R148). -/
def search (es : List (Nat × List Int)) (q : List Int) (k beta : Nat) (energy : Bool) : Found :=
  let os := es.map fun e => (e.1, overlap e.2 q)
  match (os.map (·.2)).max? with
  | none => { wAll := 0, wTop := 0, er := if energy then 0x7FFFFFFFFFFF else 0, sat := false, oMax := -2147483648, top := [] }
  | some m =>
    let w := fun (o : Int) => metropolis (beta * (m - o))
    let sorted := sortBy (fun a b => decide (b.2 < a.2) || (decide (a.2 = b.2) && decide (b.1 ≤ a.1))) os
    let top := (sorted.take k).map fun x => (x.1, x.2, w x.2)
    let all := (os.map fun x => w x.2).sum
    let e : Int := -(beta * m + logWeight all)
    let cut := clamp (-(2 ^ 47 : Int)) ((2 ^ 47 : Int) - 1) e
    { wAll := if energy then all else 0, wTop := (top.map (·.2.2)).sum, er := if energy then cut else 0
      sat := energy && decide (cut ≠ e), oMax := m, top := top }

/-- A query record (Table 5.5). Its recall part begins where a full list would end (DESIGN CHOICE, log entry 127). -/
def foundRecord (h : Store) (f : Found) (k : Nat) (withRecall : Bool) : Bytes :=
  let list := (f.top.map fun x => leBytes 8 x.1 ++ leBytes 4 (ofSigned 32 x.2.1) ++ leBytes 4 x.2.2).flatten
  let room := roundUp (16 * k) 64
  let rec_ := if withRecall then
      ((List.range (roundUp h.width 64)).map fun d =>
        leBytes 8 (ofSigned 64 (if d < h.width then (f.top.map fun x => (x.2.2 : Int) * (h.entry x.1).getD d 0).sum else 0))).flatten
    else []
  leBytes 8 f.wAll ++ leBytes 8 f.wTop ++ leBytes 8 (ofSigned 64 f.er) ++ leBytes 4 (ofSigned 32 f.oMax) ++
  leBytes 4 f.top.length ++ List.replicate 32 0 ++ list ++ List.replicate (room - list.length) 0 ++ rec_

/-- The length of a RETRIEVE's output. -/
def retrieveBytes (h : Store) (b k : Nat) (withRecall : Bool) : Nat :=
  64 + b * (64 + roundUp (16 * k) 64 + if withRecall then 8 * roundUp h.width 64 else 0)

/-- A slot of a range: it holds one of the positions. -/
def slotInRange (h : Store) (lo hi slot : Nat) : Bool :=
  let c := h.capacity
  decide (slot < c) && decide (lo + (slot + c - lo % c) % c < hi)

/-- The slot in which a byte of a slice lies. -/
def slotAtByte (m : Model) (h : Store) (le su a : Nat) : Nat :=
  let les := enginesOf m.mask
  let row := (a - (if h.whole then 0 else 16777216)) / h.stride
  row * (8 * les.length) + 8 * (les.findIdx fun x => x == le) + su

/-- A burst holds a part of an entry of a range (R135, R151). -/
def burstInRange (i : Nat) (m : Model) (h : Store) (lo hi : Nat) (b : Burst) : Bool :=
  match b.place with
  | .entry j slot => decide (j = i) && h.lpddr && slotInRange h lo hi slot && decide (b.pkg = (lpddrPlace m h slot).1)
  | _ => false

/-- The first burst known to be bad that a pass over a range reads (R151; 12 R331). -/
def rangeBurst (s : State) (i : Nat) (m : Model) (h : Store) (lo hi : Nat) : Option Burst :=
  (enginesOf m.mask).findSome? fun le => (s.pkg le).bad.find? (burstInRange i m h lo hi)

/-- The first uncorrectable word that a pass over a range reads: engine, unit and word (R151). -/
def rangeDamage (s : State) (m : Model) (h : Store) (lo hi : Nat) : Option (Nat × Nat × Nat) :=
  if h.lpddr then none
  else (enginesOf m.mask).findSome? fun le =>
    (s.siteLe le).badWords.findSome? fun w => match w with
      | (.store su, addr, false) =>
        if wordOf m le (.store su) addr && slotInRange h lo hi (slotAtByte m h le su (8 * addr)) then some (le, su, addr)
        else none
      | _ => none

/-- The passes of a RETRIEVE whose queries are at hand, with what they meet (R143, R149, R151; 12 R331). Over a range with no position
they read nothing, and meet nothing (R148). -/
def runRetrieve (s : State) (k : ReqKey) (i : Nat) (m : Model) (h : Store) (lo hi : Nat) (qs : List (List Int))
    (find : RetrieveFind) : State :=
  match s.req? k with
  | none => s
  | some r =>
    let energy := bitAt (r.fld 104 1) 0
    let withRecall := bitAt (r.fld 104 1) 1
    let kk := r.fld 102 2
    let finish := fun (t : State) =>
      match t.rangeDamage m h lo hi, t.rangeBurst i m h lo hi with
      | some (le, su, addr), _ => t.faultData k le 1 su addr 0 0
      | none, some b => t.faultLpddr k b
      | none, none =>
        let t := (m.dense.filter fun _ => decide (lo < hi)).foldl (fun t a => t.bump (.sweep a.le a.su) (some (idOf m.tag)) 1) t
        let es := (List.range (hi - lo)).map fun j => (lo + j, h.entry (lo + j))
        let fs := qs.map fun q => search es q kk (r.fld 96 4) energy
        let head := leBytes 8 lo ++ leBytes 8 hi ++ leBytes 4 qs.length ++ leBytes 4 kk ++
          leBytes 4 (if energy then 2 else 1) ++ leBytes 2 (b2n (fs.any (·.sat)) + 2 * b2n es.isEmpty) ++
          List.replicate 34 0
        (t.writeSpace r (r.fld 72 8) (head ++ (fs.map fun f => foundRecord h f kk withRecall).flatten)).okReq k
          (BitVec.ofNat 64 (hi - lo)) 0
    if hi = lo then finish s
    else match find with
    | .clean => finish s
    | .sramCorrected le => finish (if bitAt m.mask le && !h.lpddr then s.countSramCorr (s.siteOf le) else s)
    | .treesOnce le => finish (if bitAt m.mask le then s.countLogCorr (s.siteOf le) else s)
    | .treesTwice le su => if bitAt m.mask le then s.faultData k le 5 su 0 0 0 else finish s
    | .passesDiffer le su => if energy && bitAt m.mask le then s.faultData k le 5 su 0 0 0 else finish s
    | .storeBad le su addr =>
      if !h.lpddr && wordOf m le (.store su) addr && slotInRange h lo hi (slotAtByte m h le su (8 * addr)) then
        (s.noteBadWord (s.siteOf le) (.store su) addr).faultData k le 1 su addr 0 0
      else finish s
    | .lpddrCorrected pkg => finish (if h.lpddr && bitAt m.mask pkg then s.countBurstCorr pkg else s)
    | .lpddrBad b => if burstBad b && burstInRange i m h lo hi b then s.faultLpddr k b else finish s

/-- The K8 queries of a RETRIEVE (R141): the vectors, or the offset of the first nonzero element past the last. -/
def parseQueries (h : Store) (b : Nat) (bs : Bytes) : Except Nat (List (List Int)) :=
  let stride := roundUp h.width 64
  match leastOf ((List.range b).filterMap fun j =>
      ((List.range (stride - h.width)).find? fun d => decide (field bs (j * stride + h.width + d) 1 ≠ 0)).map
        fun d => j * stride + h.width + d) with
  | some o => .error o
  | none => .ok ((List.range b).map fun j => (List.range h.width).map fun d => toSigned 8 (field bs (j * stride + d) 1))

/-- A RETRIEVE whose queries have been read: its range is fixed, and its passes run unless raw queries have first to be
converted. An empty range begins and ends at the lowest position asked for that is held (DESIGN CHOICE, log entry 128). -/
def openRetrieve (s : State) (k : ReqKey) (r : Request) (i : Nat) (m : Model) (h : Store) (g : Option Group) (len : Nat)
    (find : RetrieveFind) : State :=
  let b := r.fld 100 2
  let bs := s.readSpace r (r.fld 64 8) len
  let lo := max (r.fld 80 8) h.lowest
  let hi := max lo (min (r.fld 88 8) h.visible)
  let t := (s.startOn m.mask).updReq k fun r => { r with state := .dispatched, hold := none, reads := some (i, lo, hi) }
  let lead := ((enginesOf m.mask).head?).getD 0
  match (match s.unrouted m.mask lead with
    | some le => some le
    | none => s.vectorUnrouted m g) with
  | some le => s.refuse k (routeRefusal le)
  | none =>
    match g with
    | some g =>
      match rawReserved (rawSample h g) bs b with
      | some o => s.refuse k (Refuse.reserved o 7)
      | none => t.updReq k fun r => { r with
          samples := rawSamples (rawSample h g) bs b
          append := some { store := i, first := lo, count := b, done := 0, elems := [] } }
    | none =>
      match parseQueries h b bs with
      | .error o => s.refuse k (Refuse.field o 7)
      | .ok qs => t.runRetrieve k i m h lo hi qs find

/-- Dispatches a RETRIEVE, with what it meets in reading its queries. -/
def startRetrieve (s : State) (k : ReqKey) (r : Request) (source : SourceFind) (find : RetrieveFind) : State :=
  match s.storeFor r with
  | .error x => s.refuse k x
  | .ok (i, m, h) =>
    let b := r.fld 100 2
    let raw := bitAt (r.fld 104 1) 2
    let g := if raw then s.rawGroup i (r.fld 106 2) 0 else none
    if raw && g.isNone then s.refuse k (Refuse.field 106 0)
    else
      let len := b * (match g with
        | some g => rawSample h g
        | none => roundUp h.width 64)
      match s.reachOk r (r.fld 64 8) len true,
          s.outputOk r 72 (retrieveBytes h b (r.fld 102 2) (bitAt (r.fld 104 1) 1)) with
      | .error st, _ => s.refuse k (accessRefuse r st 64 0)
      | .ok _, some x => s.refuse k x
      | .ok _, none =>
        if !s.transferUp (r.fld 64 8) || !s.enginesReady m.mask then s
        else
          match s.sourceMet r [(r.fld 64 8, len)] source with
          | (t, .clean) => t.openRetrieve k r i m h g len find
          | (t, met) => t.failMet k met

/-- A RETRIEVE: its dispatch, or once its raw queries are converted, its passes (log entry 14). -/
def retrieve (s : State) (k : ReqKey) (source : SourceFind) (find : RetrieveFind) : State :=
  match s.ready? k Op.retrieve with
  | some r => s.startRetrieve k r source find
  | none =>
    match s.req? k with
    | none => s
    | some r =>
      match r.append, r.reads with
      | some a, some (i, lo, hi) =>
        if r.op = Op.retrieve ∧ r.state = .dispatched ∧ r.hold = none ∧ a.done = a.count then
          match s.model? i, s.store? i with
          | some m, some h => s.runRetrieve k i m h lo hi a.elems find
          | _, _ => s
        else s
      | _, _ => s

end State

def execAppend (r : ReqKey) (source : SourceFind) (s : State) : Host.Outcome State Fault Refusal :=
  .next (s.dispatchAppend r source)

def execRetrieve (r : ReqKey) (source : SourceFind) (find : RetrieveFind) (s : State) : Host.Outcome State Fault Refusal :=
  .next (s.retrieve r source find)

def execRingAppendWrite (who : Appender) (s : State) : Host.Outcome State Fault Refusal :=
  .next (s.ringAppendWrite who)

end Sys2Proof.Machine
end

