-- ==== Sys2Proof/Machine/Updates.lean ====
section
/-! DEFINITION. MODEL_UPDATE_ROWS: its data, checks, and where it takes effect (04 R124-R126; 06 R168-R170; 08 R220, R227;
10 R289), with the meaning of MODEL_UPDATE_ROWS. -/

namespace Sys2Proof.Machine

/-- What update data holds, as far as it can be read: the records, the offsets of nonzero reserved fields and of fields
out of range, whether a head named a block that the model lacks, so that the next record cannot be found, and whether the data ended
early. -/
structure UpdData where
  rows    : List (Nat × Nat × Nat × List Int)
  biases  : List (Nat × Nat × List Int)
  scales  : List (Nat × Nat × Nat)
  groups  : List (Nat × List (Nat × Bytes))
  rsv     : List Nat
  bad     : List Nat
  off     : Nat
  lost    : Bool
  short   : Bool
  deriving DecidableEq, Repr

namespace UpdData

/-- Nothing read yet, from an offset. -/
def start (off : Nat) : UpdData :=
  { rows := [], biases := [], scales := [], groups := [], rsv := [], bad := [], off := off, lost := false, short := false }

/-- Reading has stopped: at the end of the data, or at a head that names no record. -/
def stopped (u : UpdData) : Bool := u.short || u.lost

/-- Where a head names a block the model lacks, or an index the block lacks: the byte of that field. -/
def headBad (n : Net) (w off : Nat) : Nat := if n.blocks.length ≤ bits w 13 12 then off + 1 else off

/-- The reserved bits of a row or bias head: bits 25 and up. -/
def headRsv (d : Bytes) (a : Nat) : List Nat := if field d a 8 / 2 ^ 25 ≠ 0 then [a + 3] else []

/-- One row record (Table 10.15). -/
def row (n : Net) (d : Bytes) (u : UpdData) : UpdData :=
  if u.stopped then u
  else if d.length < u.off + 8 then { u with short := true }
  else
    let w := field d u.off 8
    let k := bits w 13 12
    let b := n.block k
    let len := Img.rowBytes b.fmt b.n
    if n.blocks.length ≤ k then { u with rsv := u.rsv ++ headRsv d u.off, bad := u.bad ++ [headBad n w u.off], lost := true }
    else if d.length < u.off + 8 + len then { u with short := true }
    else
      let v := leNat (slice d (u.off + 8) len)
      let raw := fun j => bits v (Img.codeBits b.fmt * j) (Img.codeBits b.fmt)
      let wrong := ((List.range (64 * ceilDiv b.n 64)).filter fun j =>
        (decide (b.n ≤ j) || decide (j = w % 8192)) && raw j != 0).map fun j => u.off + 8 + j * Img.codeBits b.fmt / 8
      let out := if b.n ≤ w % 8192 then [headBad n w u.off] else []
      { u with
        rows := u.rows ++
          (if out.isEmpty then [(k, w % 8192, u.off, (List.range b.n).map fun j => Img.codeValue b.fmt (raw j))] else [])
        rsv := u.rsv ++ headRsv d u.off, bad := u.bad ++ out ++ wrong.take 1, off := u.off + 8 + len }

/-- One bias record. -/
def bias (n : Net) (d : Bytes) (u : UpdData) : UpdData :=
  if u.stopped then u
  else if d.length < u.off + 8 then { u with short := true }
  else
    let w := field d u.off 8
    let k := bits w 13 12
    let b := n.block k
    let m := if b.spin then 1 else b.q
    let len := roundUp (4 * m) 8
    if n.blocks.length ≤ k then { u with rsv := u.rsv ++ headRsv d u.off, bad := u.bad ++ [headBad n w u.off], lost := true }
    else if d.length < u.off + 8 + len then { u with short := true }
    else
      { u with
        bad := u.bad ++ (if b.n ≤ w % 8192 then [headBad n w u.off] else [])
        biases := u.biases ++ [(k, w % 8192, (List.range m).map fun a => toSigned 32 (field d (u.off + 8 + 4 * a) 4))]
        rsv := u.rsv ++ headRsv d u.off ++ uncovered d [] (u.off + 8 + 4 * m) (len - 4 * m), off := u.off + 8 + len }

/-- One VSCALE record: scaled blocks only. -/
def scale (n : Net) (d : Bytes) (u : UpdData) : UpdData :=
  if u.stopped then u
  else if d.length < u.off + 8 then { u with short := true }
  else
    let w := field d u.off 8
    let k := bits w 13 12
    let b := n.block k
    let rsv := (if bits w 25 7 ≠ 0 then [u.off + 3] else []) ++ uncovered d [] (u.off + 5) 3
    if n.blocks.length ≤ k ∨ b.n ≤ w % 8192 then { u with rsv := u.rsv ++ rsv, bad := u.bad ++ [headBad n w u.off], off := u.off + 8 }
    else if b.scaled = false then { u with rsv := u.rsv ++ rsv, bad := u.bad ++ [u.off + 1], off := u.off + 8 }
    else { u with scales := u.scales ++ [(k, w % 8192, bits w 32 8)], rsv := u.rsv ++ rsv, off := u.off + 8 }

/-- One scale group of a model: its head, then its records with their offsets. -/
def group (count : Nat → Option Nat) (d : Bytes) (u : UpdData) : UpdData :=
  if u.stopped then u
  else if d.length < u.off + 8 then { u with short := true }
  else
    let g := field d u.off 2
    let c := field d (u.off + 2) 2
    let rsv := if field d (u.off + 4) 4 ≠ 0 then [u.off + 4] else []
    if d.length < u.off + 8 + 16 * c then { u with short := true }
    else
      match count g with
      | none => { u with rsv := u.rsv ++ rsv, bad := u.bad ++ [u.off], off := u.off + 8 + 16 * c }
      | some size =>
        let recs := (List.range c).map fun i => (u.off + 8 + 16 * i, slice d (u.off + 8 + 16 * i) 16)
        { u with
          groups := u.groups ++ [(g, recs)], rsv := u.rsv ++ rsv
          bad := u.bad ++ (recs.filterMap fun r => (scaleRecordBad size r.2).map (· + r.1)).take 1, off := u.off + 8 + 16 * c }

/-- Repeats a reader, for as long as it reads. -/
def times (f : UpdData → UpdData) : Nat → UpdData → UpdData
  | 0, u => u
  | k + 1, u => if u.stopped then u else times f k (f u)

/-- Where a later supplied row disagrees with an earlier one on their shared entry, the byte of its code; and where a
row is supplied twice, the byte of the first code that differs (R125). -/
def clash (n : Net) (u : UpdData) : List Nat :=
  u.rows.flatMap fun x =>
    let wide := Img.codeBits (n.block x.1).fmt
    (u.rows.filter fun y => decide (y.1 = x.1) && decide (y.2.2.1 < x.2.2.1)).flatMap fun y =>
      let cols := if y.2.1 = x.2.1 then
          (List.range (n.block x.1).n).filter fun j => decide (y.2.2.2.getD j 0 ≠ x.2.2.2.getD j 0)
        else if y.2.2.2.getD x.2.1 0 ≠ x.2.2.2.getD y.2.1 0 then [y.2.1] else []
      cols.map fun j => x.2.2.1 + 8 + j * wide / 8

end UpdData

namespace State

/-- The channels of a model's inbound group by index. -/
def groupSize (s : State) (i g : Nat) : Option Nat :=
  match s.group? (.model i g) with
  | some x => if x.outbound then none else some x.chans.length
  | none => none

/-- Reads the four sections of update data (R289). -/
def readUpdate (s : State) (r : Request) (i : Nat) (n : Net) (d : Bytes) (off : Nat) : UpdData :=
  UpdData.times (UpdData.group (s.groupSize i) d) (r.fld 92 4)
    (UpdData.times (UpdData.scale n d) (r.fld 88 4)
      (UpdData.times (UpdData.bias n d) (r.fld 84 4)
        (UpdData.times (UpdData.row n d) (r.fld 80 4) (UpdData.start off))))

/-- The first refusal of update data (R265 steps 4 and 5, R125, R289). -/
def updateBad (n : Net) (u : UpdData) (len : Nat) : Option Refuse :=
  match leastOf u.rsv with
  | some o => some (Refuse.reserved o 4)
  | none =>
    match leastOf (u.bad ++ u.clash n) with
    | some o => some (Refuse.field o 4)
    | none => if u.short || decide (u.off ≠ len) then some (Refuse.field 72 0) else none

/-- The plaintext of update data: an encrypted model takes data under its own key only (08 R220, R289). -/
def openUpdate (s : State) (m : Model) (enc : Bool) (d : Bytes) : Except Refuse Bytes :=
  match m.encrypted, enc with
  | none, false => .ok d
  | none, true => .error (Refuse.field 96 0)
  | some _, false => .error (Img.bad 96 8)
  | some ki, true =>
    if d.length < 64 then .error (Refuse.field 72 0)
    else
      match leastOf (uncovered d [] 2 2 ++ uncovered d [] 32 32) with
      | some o => .error (Refuse.reserved o 4)
      | none =>
        match (if keyIndex d 0 = ki then s.modelKey ki else none) with
        | none => .error (Refuse.field 0 4)
        | some key =>
          let iv := slice d 4 12
          if gcmTag key iv (slice d 0 16 ++ List.replicate 16 0 ++ slice d 32 32) (d.drop 64) == slice d 16 16 then
            .ok (d.take 64 ++ gcmCrypt key iv (d.drop 64))
          else .error (Img.bad 0 8)

/-- Queues the scale groups of an update at their groups, all or none (06 R168-R170). -/
def queueScales (s : State) (i : Nat) : List (Nat × List (Nat × Bytes)) → Except (TagMiss × Nat) State
  | [] => .ok s
  | (g, recs) :: rest =>
    match s.group? (.model i g) with
    | none => queueScales s i rest
    | some x =>
      match x.queueRecords (recs.map fun r => scaleRecord r.2) with
      | .error e => .error (e, g)
      | .ok x' => queueScales (s.updGroup (.model i g) fun _ => x') i rest

/-- An update takes effect now where no run is in the way, at the hold of the run that waits for it, or waits (R124). -/
def placeUpdate (s : State) (k : ReqKey) (i : Nat) (w : RowUpdate) : State :=
  let t := (s.updNet i fun n => { n with updates := n.updates ++ [w] }).holdReq k (some .rowUpdate)
  match s.runOn i with
  | none => t.applyUpdates i
  | some u =>
    match s.req? u.key with
    | some q => if q.hold = some .rowUpdate then t.applyHeldUpdate u.key else t
    | none => t

/-- A MODEL_UPDATE_ROWS whose data have been read is refused, or takes its place (10 R289). -/
def openRows (s : State) (k : ReqKey) (r : Request) (i : Nat) (m : Model) (n : Net) : State :=
  let len := r.fld 72 8
  let enc := bitAt (r.fld 96 1) 0
  match s.openUpdate m enc (s.readSpace r (r.fld 64 8) len) with
  | .error x => s.refuse k x
  | .ok d =>
    let u := s.readUpdate r i n d (if enc then 64 else 0)
    match updateBad n u len with
    | some x => s.refuse k x
    | none =>
      match s.queueScales i u.groups with
      | .error (miss, g) => s.endReq k Status.faultQuantTag Stop.none miss.word (BitVec.ofNat 64 g) 0xFFFF
      | .ok t =>
        let rows := u.rows.map fun x => (x.1, x.2.1, x.2.2.2)
        (t.startOn m.mask).placeUpdate k i
          { req := some k, stream := none, rows := rows, biases := u.biases, scales := u.scales, release := false }

/-- Dispatches a MODEL_UPDATE_ROWS, with what it meets in reading its data. -/
def updateRows (s : State) (k : ReqKey) (source : SourceFind) : State :=
  match s.ready? k Op.modelUpdateRows with
  | none => s
  | some r =>
    if r.kernel then s.refuse k kernelRefusal
    else
      match s.handle? r (r.fld 56 8) with
      | none => s.badHandle k r 56
      | some i =>
        match s.model? i, s.net? i with
        | some m, some n =>
          let len := r.fld 72 8
          match s.reachOk r (r.fld 64 8) len true with
          | .error st => s.refuse k (accessRefuse r st 64 0)
          | .ok _ =>
            if (len ≠ 0 && !s.transferUp (r.fld 64 8)) || !s.enginesReady m.mask then s
            else
              match s.sourceMet r [(r.fld 64 8, len)] source with
              | (t, .clean) => t.openRows k r i m n
              | (t, met) => t.failMet k met
        | _, _ => s.refuse k (Refuse.field 56 0)

end State

def execModelUpdateRows (r : ReqKey) (source : SourceFind) (s : State) : Host.Outcome State Fault Refusal :=
  .next (s.updateRows r source)

end Sys2Proof.Machine
end

