-- ==== Sys2Proof/Machine/Release.lean ====
section
/-! DEFINITION. Releasing what a model holds: its data, its link entries in DRAIN (07 R183; 08 R228, R229), and a job with its parts
(14 R388-R391, R396). -/

namespace Sys2Proof.Machine

/-- A store that holds nothing: the body of an entry whose model the module has unloaded (R229). -/
def Store.empty : Store :=
  { fmt := 0, ring := false, lpddr := false, whole := false, width := 0, capacity := 0, region := 0, n := 0,
    visible := 0, ready := [], slots := [], waiting := [] }

/-- A stream record whose counts are cleared (15 Table 15.14). -/
def Stream.uncounted (x : Stream) : Stream :=
  { x with stale := 0, malform := 0, oldseq := 0, incompl := 0, full := 0, superseded := 0, txfull := 0, lateC := 0 }

namespace State

/-! ### Releasing what a model holds (R228, R229) -/

/-- A stream record is released with its group, buffers and pending setpoints; outputs it drives return to their safe
levels (15 R410, R421). -/
def releaseStream (s : State) (rec_ : Nat) : State :=
  { s with
    groups := s.groups.filter fun g => decide (g.owner ≠ .stream rec_)
    st := { s.st with
      streams := Tbl.upd s.st.streams rec_ fun x =>
        { x with state := 0, partialS := none, buffer := [], pages := 0, tag := 0, lastOut := none, vars := [] }
      setpoints := s.st.setpoints.filter fun p => decide (p.recNo ≠ rec_) } }

/-- The samples of a stream's buffer that are converted and wait for their slots of a RING store (05 R139). -/
def heldSamples (s : State) (n : Nat) (x : Stream) : Nat :=
  ((s.store? x.target).map fun h => (h.waiting.filter fun w => decide (w.who = .stream n)).length).getD 0

/-- The stream records bound to an entry of the model table. -/
def streamsOn (s : State) (i : Nat) : List Nat :=
  (s.st.streams.filter fun p => decide (p.2.state ≠ 0) && decide (p.2.kind ≠ 3) && decide (p.2.target = i)).map (·.1)

/-- A unit holds replica-blocks or entries of a context. -/
def resident (s : State) (le su ctx : Nat) : Bool :=
  s.taken.any fun m => decide (idOf m.tag = ctx) && ((rblocksOf m).any (fun b => decide (b.le = le) && decide (b.su = su)) ||
    m.dense.any fun a => decide (a.le = le) && decide (a.su = su))

/-- Progress counters of pairs that no longer exist go (11 R307). -/
def pruneProgress (s : State) : State :=
  { s with cx := { s.cx with progress := s.cx.progress.filter fun p =>
      match p.unit, p.ctx with
      | .sweep le su, some c => s.resident le su c
      | _, _ => true } }

/-- The slices, VSCALE entries, LPDDR6 and groups of a model are zeroed and freed, with the streams bound to it (R228 orders 2
to 5). -/
def releaseData (s : State) (i : Nat) : State :=
  match s.model? i with
  | none => s
  | some m =>
    let t := (s.streamsOn i).foldl State.releaseStream s
    let t := (t.rewriteModel m).releaseUnits fun p => match p with
      | .entry j _ | .directory j | .hem j _ => decide (j = i)
      | _ => false
    { t with groups := t.groups.filter fun g => match g.owner with
        | .model j _ => decide (j ≠ i)
        | .stream _ => true }

/-- The entry of a model that the module has unloaded keeps its generation and owner alone, and the requests that unload it (R229). -/
def husk (m : Model) : Model :=
  { m with
    mask := 0, loading := false, gone := true, links := [], dense := [], sparse := [], vscale := [],
    scratch := [], lpddr := [], pairsN := [], moments := [], history := 0, body := .store Store.empty }

/-! ### Link entries in DRAIN (07 R183) -/

/-- The link entries of a model: link and entry. -/
def entriesOf (s : State) (i : Nat) : List (Nat × Nat) :=
  (List.range 56).flatMap fun l => (indicesFrom (fun (e : Option LinkEntry) => e.any fun x => decide (x.model = i)) 0
    (s.link l).entries).map fun e => (l, e)

/-- The lane on which an entry's drain marker travels: its lowest hem lane, or lane 3. -/
def markerLane (s : State) (l e : Nat) : Nat :=
  (firstIdx (fun _ (n : Lane) => n.owner.any fun o => decide (o.1 = e)) 0 ((s.link l).lanes.take 3)).getD 3

/-- Frees one entry of a link with its lanes. -/
def freeOne (s : State) (l e : Nat) : State :=
  { s with fb := { s.fb with links := updAt s.fb.links l fun k =>
      { entries := k.entries.set e none
        lanes := k.lanes.map fun n => match n.owner with
          | some (x, _) => if x = e then { n with owner := none, fwd := Way.reset, back := Way.reset } else n
          | none => n } } }

/-- A link entry in DRAIN. -/
def inDrain (e : Option LinkEntry) : Option LinkEntry :=
  e.map fun x => { x with drain := true, fwdOpen := true, backOpen := true }

/-- One entry enters DRAIN: both senders emit their markers after their last word. Where the marker's lane is disabled, or
the link dead, no marker can travel, and the entry is freed at once. -/
def drainEntry (s : State) (p : Nat × Nat) : State :=
  let lane := s.markerLane p.1 p.2
  if (s.lane p.1 lane).disabled || s.linkDead p.1 then s.freeOne p.1 p.2
  else
    let t := { s with fb := { s.fb with links := updAt s.fb.links p.1 fun k =>
      { k with entries := updAt k.entries p.2 inDrain } } }
    (t.pushWord p.1 lane .fwd none p.2 drainWord).pushWord p.1 lane .back none p.2 drainWord

/-- The entries of a model that do not drain yet enter DRAIN. -/
def startDrain (s : State) (i : Nat) : State :=
  let mine := (s.entriesOf i).filter fun p => ((s.link p.1).entries.getD p.2 none).any fun x => !x.drain
  mine.foldl State.drainEntry s

/-! ### Jobs (14 R388-R391) -/

/-- A job by ID. -/
def job? (s : State) (id : Nat) : Option Job := Tbl.get? s.pr.jobs id

/-- Changes a job. -/
def updJob (s : State) (id : Nat) (f : Job → Job) : State :=
  { s with pr := { s.pr with jobs := Tbl.upd s.pr.jobs id f } }

/-- The current generation of a job ID (14 R388). -/
def jobGen (s : State) (id : Nat) : Nat := Tbl.getD s.pr.jobGens id 1

/-- A job context leaves its job: its ID is free under a new generation (14 R390, R405; 11 R304). -/
def dropJobContext (s : State) (id : Nat) : State :=
  s.updCtx id fun c => { Ctx.reset with gen := (c.gen + 1) % 65536, resets := c.resets }

/-- A job's generation after its job has ended (14 R388). -/
def nextJobGen (g : Nat) : Nat := if (g + 1) % 65536 = 0 then 1 else (g + 1) % 65536

/-- A job ends on this module: its context, its Cuff words and its record go, and its generation increases. -/
def endJob (s : State) (id : Nat) : State :=
  match s.job? id with
  | none => s
  | some j =>
    let t := if j.jctx = 0 then s else s.dropJobContext j.jctx
    { t with pr := { t.pr with
        jobs := Tbl.erase t.pr.jobs id, jobGens := Tbl.put t.pr.jobGens id (nextJobGen (t.jobGen id))
        cuffs := t.pr.cuffs.filter fun c => decide (c.job ≠ id) } }

/-- A job that has no part, and whose last load is over. -/
def emptyJob (s : State) (id : Nat) : Bool :=
  (s.job? id).any fun j => j.parts.isEmpty && !(s.fe.requests.any fun r => r.running && r.op == Op.modelLoad &&
    r.reads.any fun x => decide (x.1 = id))

/-- A job none of whose loads has got as far as a node, and that none is under way for, has not begun. -/
def dropEmptyJob (s : State) (id : Nat) : State :=
  if s.emptyJob id then { s with pr := { s.pr with jobs := Tbl.erase s.pr.jobs id } } else s

/-- The highest free context ID. -/
def highestFree (s : State) : Option Nat :=
  ((List.range 255).map fun i => 255 - i).find? fun i => (s.ctx i).state == .free

/-- Takes a job context. -/
def takeJobContext (s : State) (ctx job : Nat) (g : Grant) : State :=
  s.updCtx ctx fun c => { c with state := .live, job := job, grant := g }

/-! ### Parts of a job that are given up (08 R216; 14 R391, R396) -/

/-- The nodes on the way from node 0 to a node, that node included, from the replies of an enumeration: in a depth-first list the
ancestor at each depth is the last one met (14 R382). -/
def wayTo (node : Nat) : List Nat → List EnumNode → List Nat
  | _, [] => []
  | above, x :: xs =>
    let path := above.take (x.depth - 1) ++ [x.hint]
    if x.hint = node then path else wayTo node path xs

/-- The other modules that a job's messages pass: the nodes of its parts, and those on the way to them. -/
def routeNodes (s : State) (parts : List PartShape) : List Nat :=
  (parts.flatMap fun p => s.pr.replies.flatMap fun r => wayTo p.node [] r.2).eraseDups

/-- The words that spell the shape of a part. -/
def shapeWords (p : PartShape) : List Nat :=
  [p.node, p.reps, p.blocks.length] ++ (p.blocks.flatMap fun b => [b.1, b.2]) ++ [p.pairs, p.hems.length] ++ p.hems.flatMap fun x => [x.1, x.2]

/-- The parts of a job are told to the modules that its messages pass, which reserve its Cuff regions; an empty table gives them up (14
R396; log entry 120). -/
def tellParts (s : State) (job : Nat) (parts : List PartShape) (nodes : List Nat) : State :=
  nodes.foldl (fun t node => t.sendPeer 0x10 node job (s.jobGen job) (parts.length :: parts.flatMap shapeWords) []) s

/-- The last load of a job is given up while its Cuff regions are being reserved. -/
def endReserving (s : State) (id : Nat) : State :=
  match s.job? id with
  | none => s
  | some j =>
    if j.reserving.isNone then s
    else (s.tellParts id [] (s.routeNodes j.parts)).updJob id fun j => { j with reserving := none, cuff := [], state := .loading }

/-- The part of a job on this module is released with its context, as if it had not been loaded. -/
def releasePart (s : State) (id : Nat) : State :=
  match s.job? id with
  | none => s
  | some j =>
    let t := match j.model with
      | none => s
      | some i =>
        let t := (s.entriesOf i).foldl (fun (t : State) (p : Nat × Nat) => t.freeOne p.1 p.2) (s.releaseData i)
        ({ t with models := Tbl.erase t.models i }).pruneProgress
    let t := if j.jctx = 0 then t else t.dropJobContext j.jctx
    t.updJob id fun j => { j with jctx := 0, model := none }

/-- A part leaves its job: here it is released, and to another node UNLOAD goes out. -/
def undoPart (s : State) (id node : Nat) : State :=
  let t := s.endReserving id
  let t := if node = s.pr.nodeid then t.releasePart id else t.sendPeer 0x22 node id (s.jobGen id) [] []
  t.updJob id fun j =>
    { j with parts := j.parts.filter fun p => decide (p.node ≠ node), sent := j.sent.filter fun p => decide (p.1 ≠ node) }

/-- A stopped MODEL_LOAD of a part leaves nothing (08 R216): UNLOAD follows the image, and a job that it alone had begun ends. -/
def recallPart (s : State) (r : Request) : State :=
  match r.reads with
  | some (id, node, _) =>
    if r.op = Op.modelLoad ∧ r.hold = some .peer then
      let t := s.undoPart id node
      if t.emptyJob id then t.endJob id else t
    else s
  | none => s

end State

end Sys2Proof.Machine
end

