-- ==== Sys2Proof/Machine/Data.lean ====
section
/-! DEFINITION. Data and sequencing opcodes: COPY, FILL, PATCH, JOIN, NOP, SIGNAL and CANCEL (10 R273-R277, R291-R295,
R301, R302; 12 R336), and how a request in the table is stopped (R294, 11 R315). -/

namespace Sys2Proof.Machine

namespace State

/-! ### Data-space pages (12 R336) -/

/-- The page numbers that a range of an engine's data space touches. -/
def pagesOf (off n : Nat) : List Nat := (List.range (ceilDiv (off % 2 ^ 21 + n) (2 ^ 21))).map fun i => off / 2 ^ 21 + i

/-- The pages of a write into the data space that are not allocated yet. -/
def freshPages (s : State) (r : Request) (a n : Nat) : List Nat :=
  if addrSpace a = 1 ∧ n ≠ 0 then
    (pagesOf (addrOff a) n).filter fun p => !(Tbl.getD (s.ctx (idOf r.tag)).pages (addrLe a) []).contains p
  else []

/-- The need of pages for a write: the refusal, if they do not fit (08 R223). -/
def pageRefusal (s : State) (r : Request) (a n : Nat) : Option Refuse :=
  let want := (s.freshPages r a n).length * 2097152
  if want = 0 then none
  else
    s.checkNeeds r.tag (s.ctx (idOf r.tag)).grant
      [⟨0x09, addrLe a, 0, 0, want, some (s.packageBytes (addrLe a) - s.lpddrUsed (addrLe a)), false⟩]

/-- Allocates the pages of a write. -/
def takePages (s : State) (r : Request) (a n : Nat) : State :=
  let fresh := s.freshPages r a n
  if fresh.isEmpty then s
  else s.updCtx (idOf r.tag) fun c => { c with pages := Tbl.put c.pages (addrLe a) (Tbl.getD c.pages (addrLe a) [] ++ fresh) }

/-! ### Chains that run (10 R279, R291) -/

/-- A descriptor of chain memory. -/
def chainDesc (s : State) (tag : BitVec 24) (le ix : Nat) : Bytes :=
  Mem.bytes (Tbl.getD (s.ctx (idOf tag)).chain le []) (128 * ix) 128

/-- The chain pointer of a descriptor (Table 10.7): engine and index, or none at the end of a chain. -/
def pointerOf (d : Bytes) : Option (Nat × Nat) :=
  if !ownLayout (dOp d) && dChain d then some (bits (field d 48 8) 16 5, field d 48 8 % 65536) else none

/-- The places that a chain goes on through, from a place, each once. -/
def chainWalk (s : State) (tag : BitVec 24) : Nat → List (Nat × Nat) → Option (Nat × Nat) → List (Nat × Nat)
  | 0, seen, _ => seen
  | _, seen, none => seen
  | fuel + 1, seen, some p =>
    if seen.contains p then seen
    else chainWalk s tag fuel (seen ++ [p]) (pointerOf (s.chainDesc tag p.1 p.2))

/-- The chain memory places of a chain that has not ended: its link in the table, and those it still leads to. -/
def placesOfChain (s : State) (c : Chain) : List (Nat × Nat) :=
  let link := s.fe.requests.find? fun r => decide (r.key.name = c.name) && decide (r.key.link ≠ 0) && r.place.isSome
  match link with
  | some r => r.place.toList ++ s.chainWalk c.tag 65536 [] (pointerOf r.desc)
  | none => s.chainWalk c.tag 65536 [] c.ptr

/-- A write into chain memory meets a chain now running (R291). -/
def hitsChain (s : State) (tag : BitVec 24) (a n : Nat) : Bool :=
  addrSpace a == 2 && decide (n ≠ 0) && s.fe.chains.any fun c => c.tag == tag && (s.placesOfChain c).any fun p =>
    decide (p.1 = addrLe a) && decide (128 * p.2 < addrOff a + n) && decide (addrOff a < 128 * p.2 + 128)

/-! ### COPY and FILL (R291, R301, R302) -/

/-- The engines of addresses in the data space or chain memory. -/
def maskOf (as : List Nat) : Nat :=
  as.foldl (fun m a => if addrSpace a = 1 ∨ addrSpace a = 2 then m ||| 2 ^ addrLe a else m) 0

/-- A transfer into a destination: the refusals, or it waits (none), or the pages are allocated. -/
def openWrite (s : State) (r : Request) (off a n : Nat) : Except Refuse State :=
  match s.reachOk r a n false with
  | .error st => .error (accessRefuse r st off 0)
  | .ok _ =>
    if s.hitsChain r.tag a n then .error (Refuse.field off 0)
    else
      match s.pageRefusal r a n with
      | some x => .error x
      | none => .ok (s.takePages r a n)

/-- Nothing holds a transfer between addresses back: links and common SRAM are up, the engines take it, and no spare
shift asks its context to hold. -/
def transferReady (s : State) (r : Request) (as : List Nat) : Bool :=
  as.all s.transferUp && s.enginesReady (maskOf as) && !s.shiftHolds r.tag

/-- The way of a COPY's data between two engines (07 R189, R524): none where no route exists, empty where no lane is
used. -/
def copyRoute (s : State) (src dst : Nat) : Option (List (Nat × Dir)) :=
  let onEngine := fun a => addrSpace a = 1 ∨ addrSpace a = 2
  if onEngine src ∧ onEngine dst ∧ addrLe src ≠ addrLe dst then
    (s.route (addrLe src) (addrLe dst)).map (walkLinks (addrLe src))
  else some []


/-- Dispatches a COPY, with what it meets in reading its source. -/
def copy (s : State) (k : ReqKey) (source : SourceFind) : State :=
  match s.ready? k Op.copy with
  | none => s
  | some r =>
    let src := r.fld 56 8
    let dst := r.fld 64 8
    let n := r.fld 72 8
    if n = 0 then s.okReq k 0 0
    else
      match s.reachOk r src n true, s.openWrite r 64 dst n with
      | .error st, _ => s.refuse k (accessRefuse r st 56 0)
      | .ok _, .error x => s.refuse k x
      | .ok _, .ok _ =>
        match s.copyRoute src dst with
        | none => s.refuse k (Refuse.placement (Refuse.report 0x0D false false (addrLe src) 0 0x3F))
        | some way =>
          if s.transferReady r [src, dst] = false then s
          else
            match s.sourceMet r [(src, n)] source with
            | (u, .clean) =>
              let bs := s.readSpace r src n
              ((((u.takePages r dst n).startOn (maskOf [src, dst])).queueTransfer way r.tag bs).writeSpace r dst bs).okReq k
                (BitVec.ofNat 64 n) 0
            | (u, met) => u.failMet k met

/-- The pattern of a FILL across its range. -/
def fillBytes (pattern n : Nat) : Bytes := ((List.range (n / 8)).map fun _ => leBytes 8 pattern).flatten

/-- Dispatches a FILL. -/
def fill (s : State) (k : ReqKey) : State :=
  match s.ready? k Op.fill with
  | none => s
  | some r =>
    let dst := r.fld 56 8
    let n := r.fld 64 8
    if n = 0 then s.okReq k 0 0
    else
      match s.openWrite r 56 dst n with
      | .error x => s.refuse k x
      | .ok t =>
        if s.transferReady r [dst] = false then s
        else
          ((t.startOn (maskOf [dst])).writeSpace r dst (fillBytes (r.fld 72 8) n)).okReq k (BitVec.ofNat 64 n) 0

/-! ### PATCH, JOIN, SIGNAL, NOP (R273-R276, R292, R293, R295) -/

/-- The values of a PATCH by target and word; of two for one word the later in index order wins (R276). -/
def patchValue (r : Request) (target word : Nat) : Option W64 :=
  (((List.range 8).filter fun i =>
      decide (r.fld (48 + 2 * i) 2 % 4096 ≠ 0) && decide ((r.seq + r.fld (48 + 2 * i) 2 % 4096) % 2 ^ 40 = target) &&
      decide (r.fld (48 + 2 * i) 2 / 4096 = word)).getLast?).map fun i => BitVec.ofNat 64 (r.fld (64 + 8 * i) 8)

/-- Dispatches a PATCH: its values enter the overlay. -/
def patch (s : State) (k : ReqKey) : State :=
  match s.ready? k Op.patch with
  | none => s
  | some r =>
    let (v, t) := s.takeFree
    ((t.settlePatches r.queue r.seq fun o => some { o with value := patchValue r o.target o.word }).okReq k 0 0).releasePatched
      (Config.lostStatus v).toNat

/-- Dispatches a JOIN. -/
def join (s : State) (k : ReqKey) : State :=
  match s.ready? k Op.join with
  | none => s
  | some _ => s.okReq k 0 0

/-- Dispatches a SIGNAL: the value is stored first, then the signal write sent. A write waits while no link is up. -/
def signalReq (s : State) (k : ReqKey) : State :=
  match s.ready? k Op.signal with
  | none => s
  | some r =>
    let a := r.fld 64 8
    let stores := bitAt (r.fld 58 1) 1
    if stores ∧ addrLe a ≠ 0 then s.refuse k (Refuse.field 64 0)
    else if s.hostUp = false then s
    else
      let t := if stores then s.writeFor r.queue (addrOff a) (leBytes 8 (r.fld 72 8)) else s
      (t.sendSignal (if bitAt (r.fld 58 1) 0 then .b else .a) (r.fld 56 2)).okReq k 0 0

/-- The names that a NOP drops: those of its own context that are held under R272. -/
def nopDrops (s : State) (r : Request) : List ReqKey :=
  (s.fe.requests.filter fun o => o.state == .heldFailed && o.tag == r.tag && o.kernel == r.kernel &&
    (List.range 7).any fun i => decide (BitVec.ofNat 64 (r.fld (64 + 8 * i) 8) = o.key.name)).map (·.key)

/-- Dispatches a NOP. -/
def nop (s : State) (k : ReqKey) : State :=
  match s.ready? k Op.nop with
  | none => s
  | some r =>
    if bitAt (r.fld 56 1) 0 then
      let drops := s.nopDrops r
      (drops.foldl State.dropReq s).okReq k (BitVec.ofNat 64 drops.length) 0
    else s.okReq k 0 0

/-! ### Stopping a request (R294; 11 R315; 08 R228; 09 R260) -/

/-- A request leaves every place that would complete it later. -/
def withdraw (s : State) (k : ReqKey) : State :=
  { s with
    models := Tbl.mapVals s.models fun _ m =>
      { m with
        unloading := m.unloading.map fun l => l.filter fun q => decide (q ≠ k)
        body := match m.body with
          | .net n => .net { n with updates := n.updates.filter fun w => decide (w.req ≠ some k) }
          | .store h => .store h }
    cx := { s.cx with ctxs := Tbl.mapVals s.cx.ctxs fun _ c =>
      { c with
        resetting := c.resetting.map fun x => { x with waiters := x.waiters.filter fun q => decide (q ≠ k) }
        fenced := c.fenced && !(c.dump.any fun x => decide (x.req = k))
        dump := c.dump.filter fun x => decide (x.req ≠ k) } }
    fe := { s.fe with queues := Tbl.mapVals s.fe.queues fun _ q =>
      { q with destroys := q.destroys.filter fun d => decide (d ≠ k) } }
    fb := { s.fb with hrows := s.fb.hrows.map fun h =>
      { h with shift := h.shift.map fun x => { x with req := x.req.filter fun q => decide (q ≠ k) } } }
    pw := { s.pw with
      entry := s.pw.entry.filter fun q => decide (q ≠ k)
      halfReq := s.pw.halfReq.filter fun x => decide (x.2.2 ≠ k) }
    pr := { s.pr with jobs := Tbl.mapVals s.pr.jobs fun _ j =>
      { j with waiters := j.waiters.filter fun q => decide (q ≠ k) } } }

/-- Runs that held for a shift, for STANDBY or for an engine half go on when nothing holds them any more, those of a job's part on a
worker included. -/
def resumeRuns (s : State) : State :=
  s.runs.foldl (fun t u =>
    match t.req? u.key with
    | some r =>
      if r.hold = some .spareShift ∨ r.hold = some .standby ∨ r.hold = some .halfRet then
        match t.boundaryHold u u.turn (u.turn == 0) with
        | none => (t.holdReq u.key none).goOn u.key
        | h => t.holdOrGo u.key h
      else t
    | none => if u.pause && (t.boundaryHold u u.turn (u.turn == 0)).isNone then t.goOn u.key else t) s

/-- A request in the table that has not ended stops, with a status and its result word 0: a run lands on its last
boundary, an append fills its positions, a request that waits ends at once. -/
def stopReq (s : State) (k : ReqKey) (status : Nat) (word : Option W64) : State :=
  match s.req? k with
  | none => s
  | some r =>
    if r.state = .ended ∨ r.state = .heldFailed then s
    else
      let w0 := word.getD (BitVec.ofNat 64 r.turns)
      let stop := if status = Status.cancelled && turnBased r.op then Stop.cancel else Stop.none
      let t := s.withdraw k
      if (t.run? k).isSome then (t.landRun k status stop w0 0).resumeRuns
      else (((if status = Status.contextReset then t else t.fillRest k false).endReq k status stop w0 0 0xFFFF).recallPart r).resumeRuns

/-- A chain ends at its current descriptor: the link in the table stops, and no other starts (R280). -/
def stopChain (s : State) (name : W64) (status : Nat) (word : Option W64) : State :=
  let t := ((s.fe.requests.filter fun r => decide (r.key.name = name) && decide (r.key.link ≠ 0)).map (·.key)).foldl
    (fun t k => t.stopReq k status word) s
  { t with fe := { t.fe with chains := t.fe.chains.filter fun c => decide (c.name ≠ name) } }

/-! ### CANCEL (R294) -/

/-- The target of a CANCEL lies in another context. -/
def cancelForeign (s : State) (r : Request) (target : W64) : Bool :=
  match s.queueOf target with
  | some q => q.tag != r.tag || q.kernel != r.kernel
  | none => false

/-- Dispatches a CANCEL. -/
def cancelReq (s : State) (k : ReqKey) : State :=
  match s.ready? k Op.cancel with
  | none => s
  | some r =>
    let name : W64 := BitVec.ofNat 64 (r.fld 56 8)
    if s.cancelForeign r name then s.refuse k (Refuse.field 56 0)
    else
      match s.req? ⟨name, 0⟩ with
      | some o =>
        if o.state = .ended ∨ o.state = .heldFailed then s.okReq k 2 0
        else (s.stopReq ⟨name, 0⟩ Status.cancelled none).okReq k 1 0
      | none =>
        if s.fe.chains.any (fun c => decide (c.name = name)) then (s.stopChain name Status.cancelled none).okReq k 1 0
        else
          match s.queueOf name with
          | some q => s.okReq k (if nameSeq name < q.fhead % 2 ^ 40 then 2 else 3) 0
          | none => s.okReq k 2 0

end State

def execCopy (r : ReqKey) (source : SourceFind) (s : State) : Host.Outcome State Fault Refusal := .next (s.copy r source)

def execFill (r : ReqKey) (s : State) : Host.Outcome State Fault Refusal := .next (s.fill r)

def execPatch (r : ReqKey) (s : State) : Host.Outcome State Fault Refusal := .next (s.patch r)

def execJoin (r : ReqKey) (s : State) : Host.Outcome State Fault Refusal := .next (s.join r)

def execSignal (r : ReqKey) (s : State) : Host.Outcome State Fault Refusal := .next (s.signalReq r)

def execNop (r : ReqKey) (s : State) : Host.Outcome State Fault Refusal := .next (s.nop r)

def execCancel (r : ReqKey) (s : State) : Host.Outcome State Fault Refusal := .next (s.cancelReq r)

end Sys2Proof.Machine
end

