-- ==== Sys2Proof/Machine/Loads.lean ====
section
/-! DEFINITION. Loading and unloading on this module (08 R214-R229; 14 R388-R391, R396, R400), link entries in DRAIN,
lane faults and service transfers (07 R183, R190-R192, R197), with the meanings of MODEL_LOAD, MODEL_UNLOAD,
DRAIN_MARKER, LANE_FAULT and SERVICE_TRANSFER. -/

namespace Sys2Proof.Machine

namespace State

/-! ### Unloading (R228, R229; 14 R400) -/

/-- The dispatched requests that use an entry of the model table. -/
def usersOf (s : State) (i : Nat) : List ReqKey :=
  (s.fe.requests.filter fun r => r.running &&
    ((s.runs.any fun u => decide (u.key = r.key) && decide (u.model = i)) ||
     (r.op != Op.modelLoad && (r.append.any (fun a => decide (a.store = i)) || r.reads.any fun x => decide (x.1 = i))) ||
     (match s.net? i with
      | some n => n.updates.any fun w => decide (w.req = some r.key)
      | none => false))).map (·.key)

/-- Every run on the model has ended, those of a job's part included. -/
def modelIdle (s : State) (i : Nat) : Bool := (s.usersOf i).isEmpty && (s.runOn i).isNone

/-- An unload whose model is drained, and whose other parts have answered, is complete: the rest is released, the
entry freed, and its request ends. On a worker UNLOADED goes to node 0. -/
def finishUnload (s : State) (i : Nat) : State :=
  match s.model? i with
  | none => s
  | some m =>
    match m.unloading with
    | none => s
    | some ks =>
      let away := (s.job? m.job).any fun j => !j.unloadFrom.isEmpty || j.state == .aborting
      if s.modelIdle i && (s.entriesOf i).isEmpty && !(decide (m.job ≠ 0) && away) then
        let t := s.releaseData i
        let t := ({ t with models := Tbl.erase t.models i }).pruneProgress
        let t := ks.foldl (fun t k => t.okReq k 0 0) t
        if m.job = 0 then t
        else
          let g := t.jobGen m.job
          let u := t.endJob m.job
          if s.pr.nodeid = 0 then u else u.sendPeer 0x22 0 m.job g [s.pr.nodeid] []
      else s

/-- UNLOAD goes to the other parts of a job once its own part has no users (R400). -/
def sendUnload (s : State) (m : Model) : State :=
  match s.job? m.job with
  | none => s
  | some j =>
    if m.job = 0 ∨ s.pr.nodeid ≠ 0 ∨ j.unloadSent then s
    else
      let t := s.updJob m.job fun j => { j with unloadSent := true, unloadFrom := s.partNodes m.job }
      (s.partNodes m.job).foldl (fun t node => t.sendPeer 0x22 node m.job (s.jobGen m.job) [] []) t

/-- An unload goes on once no request uses its model: the entries drain, and what is drained is released. -/
def unloadProgress (s : State) (i : Nat) : State :=
  match s.model? i with
  | none => s
  | some m =>
    let aborting := (s.job? m.job).any fun j => decide (m.job ≠ 0) && j.state == .aborting
    if m.unloading.isSome && s.modelIdle i && !aborting then ((s.sendUnload m).startDrain i).finishUnload i else s

/-- Every unload that can go on does. -/
def unloadAll (s : State) : State :=
  ((s.models.filter fun p => p.2.unloading.isSome).map (·.1)).foldl State.unloadProgress s

/-- The holds of a model's runs are released as by a row update of 0 rows (R228). -/
def releaseHolds (s : State) (i : Nat) : State :=
  match s.runOn i with
  | some u =>
    match s.req? u.key with
    | some r => if r.hold = some .rowUpdate then (s.holdReq u.key none).goOn u.key else s
    | none => s
  | none => s

/-- A model is marked unloading for a request; with ABORT its users are cancelled. -/
def beginUnload (s : State) (i : Nat) (req : List ReqKey) (abort : Bool) : State :=
  let t := s.updModel i fun m => { m with unloading := some req }
  let t := if abort then (t.usersOf i).foldl (fun t k => t.stopReq k Status.cancelled none) t else t.releaseHolds i
  t.unloadProgress i

/-- JOB_ABORTED for a job (14 R402). -/
def jobAborted (s : State) (id : Nat) : Refuse :=
  ⟨Status.jobAborted, pack [(0, 16, id), (16, 16, s.jobGen id)], 0⟩

/-- Dispatches a MODEL_UNLOAD. -/
def modelUnload (s : State) (k : ReqKey) : State :=
  match s.ready? k Op.modelUnload with
  | none => s
  | some r =>
    let h := r.fld 56 8
    let i := h % 4096
    if r.kernel then s.refuse k kernelRefusal
    else
      match s.model? i with
      | none => s.refuse k (Refuse.field 56 0)
      | some m =>
        if (handleOf i m).toNat = h ∧ m.tag = r.tag ∧ m.loading = false ∧ m.unloading = none then
          if m.gone then (((s.holdReq k (some .unload)).updModel i fun m => { m with unloading := some [k] })).finishUnload i
          else (s.holdReq k (some .unload)).beginUnload i [k] (bitAt (r.fld 64 1) 0)
        else s.badHandle k r 56

/-! ### A model that the module unloads (R229; 07 R192, R197) -/

/-- A request on a model that the module unloads fails with FAULT_DATA, with result word 1 and the engine of its record. -/
def failUser (w1 : W64) (le : Nat) (s : State) (k : ReqKey) : State :=
  let t := match s.run? k with
    | some u => s.stopParts u
    | none => s
  t.endReq k Status.faultData Stop.none 0 w1 le

/-- The module unloads a model: its requests fail, its link entries drain, its other resources are released, and its entry stays
until MODEL_UNLOAD, one that was already under way included (R228, R229). -/
def dropModel (s : State) (i : Nat) (w1 : W64) (le : Nat) : State :=
  match s.model? i with
  | none => s
  | some _ =>
    let t := (s.usersOf i).foldl (failUser w1 le) s
    let t := match t.runOn i with
      | some u => t.failPart u 0
      | none => t
    ((((t.startDrain i).releaseData i).updModel i husk).pruneProgress).finishUnload i

/-! ### Jobs at a load (14 R388-R392, R396) -/

/-- The header fields that the parts of a job share. -/
def commonOf (d : Bytes) : JobCommon :=
  { modules := Img.modules d, replicas := Img.reps d, colours := Img.colours d, sx := Img.sx d,
    quantum := Img.quantum d, relaxed := Img.relaxed d, heatbath := Img.heatbath d }

/-- A load of a part is under way on its node. -/
def partUnderWay (s : State) (id node : Nat) : Bool :=
  s.fe.requests.any fun r => r.running && r.op == Op.modelLoad && r.reads.any fun x => decide (x.1 = id) && decide (x.2.1 = node)

/-- The offsets of the header fields in which a part differs from the first one loaded (R391). -/
def differAt (first : Option JobCommon) (c : JobCommon) : List Nat :=
  match first with
  | none => []
  | some o =>
    (if o.relaxed = c.relaxed ∧ o.heatbath = c.heatbath then [] else [6]) ++
    (if o.quantum = c.quantum then [] else [16]) ++ (if o.replicas = c.replicas then [] else [20]) ++
    (if o.colours = c.colours then [] else [22]) ++ (if o.sx = c.sx then [] else [23]) ++
    (if o.modules = c.modules then [] else [28])

/-- What is wrong with a part beside the parts of its job (R391): check 0x02 at the first offset. -/
def partBad (s : State) (d : Bytes) (id : Nat) : Option Refuse :=
  match s.job? id with
  | none => none
  | some j =>
    let twice := j.parts.any (fun p => decide (p.node = Img.node d)) || s.partUnderWay id (Img.node d)
    (leastOf (differAt j.common (commonOf d) ++ if twice then [29] else [])).map fun o => Img.bad o 2

/-- A load that names a job is refused at its payload field, or meets an abort and waits for its JOB_ABORTED (R389,
R402). -/
def jobRefusal (s : State) (r : Request) : Option Refuse :=
  let id := r.fld 72 2
  if r.fld 72 4 = 0 then none
  else if id = 0 ∨ r.fld 74 2 ≠ s.jobGen id then some (Refuse.field 72 0)
  else
    match s.job? id with
    | some j =>
      if j.owner ≠ r.tag then some (Refuse.field 72 0)
      else if j.state = .aborting then some (s.jobAborted id)
      else none
    | none => none

/-- A new job of an owner: loading, with no part. -/
def newJob (owner : BitVec 24) (modules : Nat) : Job :=
  { state := .loading, modules := modules, parts := [], sent := [], reserving := none, jctx := 0, owner := owner, lastNode := 0,
    model := none, common := none, credits := [], sentTurn := 0, doneFrom := [], unloadFrom := [], waiters := [], cuff := [],
    granted := [], unloadSent := false }

/-- The job that a load of a part belongs to, begun if it does not exist yet. -/
def jobFor (s : State) (id : Nat) (owner : BitVec 24) (d : Bytes) : Job := (s.job? id).getD (newJob owner (Img.modules d))

/-- Stores a job. -/
def putJob (s : State) (id : Nat) (j : Job) : State := { s with pr := { s.pr with jobs := Tbl.put s.pr.jobs id j } }

/-- The shape of a part that is loaded (14 R392, R396). -/
def partShape (node : Nat) (n : Net) : PartShape :=
  { node := node, reps := n.replicas, blocks := n.shapes, pairs := n.pairs.length
    hems := (n.blocks.flatMap fun b => (b.spdir.filter fun d => decide (n.blocks.length ≤ d.blk)).map fun d => (d.blk, d.var)).eraseDups }

/-- A part that has been loaded joins its job; the first one fixes what the others must share. -/
def withPart (j : Job) (p : PartShape) (c : Option JobCommon) : Job :=
  { j with
    parts := sortBy (fun a b => decide (a.node ≤ b.node)) ((j.parts.filter fun q => decide (q.node ≠ p.node)) ++ [p])
    sent := j.sent.filter fun x => decide (x.1 ≠ p.node)
    common := match j.common with
      | some o => some o
      | none => c }

/-- Cuff bytes of a job by peer link, for each half (R396): a word for each replica of each source beyond the link that
a part on this side lists, and a turn-end word for each of their nodes. -/
def cuffNeed (s : State) (parts : List PartShape) : List (Nat × Nat) :=
  let reps := (parts.head?.map (·.reps)).getD 1
  (List.range 8).filterMap fun l =>
    let src := s.inward parts l
    if src.isEmpty then none else some (l, 8 * (reps * src.length + ((src.map (·.1)).eraseDups).length))

/-- What is free in each half of a peer link's Cuff. -/
def cuffFree (s : State) (id l : Nat) : Nat :=
  let used := ((s.pr.jobs.filter fun p => decide (p.1 ≠ id)).map fun p => sumAt l p.2.cuff).sum
  (if ((s.pr.links[l]?).getD PeerLink.reset).x4 then 2097152 else 4194304) - used

/-- The refusal of the last load of a job for want of Cuff bytes on this module. -/
def cuffShort (s : State) (id : Nat) (parts : List PartShape) : Option Refuse :=
  match (s.cuffNeed parts).filter fun p => decide (s.cuffFree id p.1 < p.2) with
  | [] => none
  | p :: more => some (Refuse.capacity (Refuse.report 0x12 (!more.isEmpty) false 0 0 p.1) (p.2 - s.cuffFree id p.1))

/-- A part has been loaded on its node: its load ends with two result words. The last load of a job reserves the Cuff regions, here and
then on every module that the job's messages pass, and ends when these have answered (R393, R396; log entry 120). -/
def partLoaded (s : State) (k : ReqKey) (id node : Nat) (w0 w1 : W64) : State :=
  match s.job? id with
  | none => s
  | some j =>
    if j.parts.length < j.modules then s.okReq k w0 w1
    else
      match s.cuffShort id j.parts with
      | some x => ((s.undoPart id node).refuse k x).dropEmptyJob id
      | none =>
        let nodes := s.routeNodes j.parts
        let t := s.updJob id fun j => { j with cuff := s.cuffNeed j.parts }
        if nodes.isEmpty then (t.updJob id fun j => { j with state := .loaded }).okReq k w0 w1
        else
          ((t.updJob id fun j => { j with reserving := some ⟨node, w0, w1, nodes⟩ }).holdReq k (some .peer)).tellParts id j.parts nodes

/-- Jobs that are loading or loaded on the manager. -/
def jobsHeld (s : State) : Nat := (s.pr.jobs.filter fun p => decide (p.2.state ≠ .aborting)).length

/-- A load that would begin a 257th job (R388). -/
def jobsShort (s : State) (id : Nat) : Option Refuse :=
  if (s.job? id).isNone ∧ 256 ≤ s.jobsHeld then some (Refuse.capacity (Refuse.report 0x13 false false 0 0 0) 1) else none

/-- No context ID is free for a job context (R390). -/
def contextShort (s : State) : Option Refuse :=
  if s.highestFree.isNone then some (Refuse.capacity (Refuse.report 0x11 false false 0 0 0) 1) else none

/-! ### MODEL_LOAD (R215-R218, R226, R288) -/

/-- A load waits for a spare shift or for engines that are not ready yet (07 R198, R202). -/
def loadWaits (s : State) (mask : Nat) : Bool :=
  s.shiftOver mask || (List.range 32).any fun le => bitAt mask le && !s.isLost le && !s.halfDown le && !s.accepts le

/-- The context side of a load on this module for a request. -/
def loadFor (s : State) (r : Request) (fabric : BitVec 24) (d : Bytes) (partOk : Bool) (common short : Option Refuse) : LoadFor :=
  { len := r.fld 64 8, jobField := r.fld 72 4, charge := r.tag, grant := (s.ctx (idOf r.tag)).grant, owner := r.tag,
    fabric := fabric, job := r.fld 72 2, nodeZero := Img.node d == 0, partOk := partOk, queue := r.queue,
    homeb := (s.queue? r.queue).any (·.homeb), common := common, short := short }

/-- Loads a plain model or history store. -/
def loadPlain (s : State) (k : ReqKey) (r : Request) (d : Bytes) : State :=
  match s.loadImage d (s.loadFor r r.tag d true none none) with
  | (t, .error x) => t.refuse k x
  | (t, .ok i) =>
    match t.model? i with
    | some m => t.okReq k (handleOf i m) (BitVec.ofNat 64 d.length)
    | none => t

/-- Loads the node-0 part of a job. -/
def loadPartHere (s : State) (k : ReqKey) (r : Request) (d : Bytes) : State :=
  let id := r.fld 72 2
  let ctx := s.highestFree.getD 0
  let short := Img.first [s.contextShort, s.jobsShort id]
  match s.loadImage d (s.loadFor r (s.tagOf ctx) d (s.pr.role == 1 && s.pr.state == 2) (s.partBad d id) short) with
  | (t, .error x) => t.refuse k x
  | (t, .ok i) =>
    match t.model? i, t.net? i with
    | some m, some n =>
      let j := withPart (s.jobFor id r.tag d) (partShape 0 n) (some (commonOf d))
      let u := (t.takeJobContext ctx id Grant.empty).putJob id { j with jctx := ctx, model := some i }
      (u.updReq k fun r => { r with reads := some (id, 0, 0) }).partLoaded k id 0 (handleOf i m) (BitVec.ofNat 64 d.length)
    | _, _ => t

/-- A part's node takes parts: this is the manager, and the node is READY and not UNREACH (R378, R391). -/
def nodeReady (s : State) (node : Nat) : Bool :=
  let x := (s.pr.routes[node]?).getD Route.reset
  s.pr.role == 1 && s.pr.state == 2 && x.valid && !x.unreach

/-- Orders 2 and 3 of a part that this module will not send, so that they are made here, before it is refused at order 4 (R378). The
manager makes order 3 of a plain part for another node before it looks at the node; the key of an encrypted one is held there, and the
job context there owns no page that a statistics area could lie in. -/
def partOrder3 (s : State) (r : Request) (d : Bytes) : Option Refuse :=
  if s.pr.role = 1 then (if Img.enc d then none else Img.order3 d false (s.areaOk 0))
  else
    match s.openImage d with
    | .error x => some x
    | .ok img => Img.order3 img false (s.areaOk r.tag)

/-- The checks that are made here of a part for another node before it is sent: order 3, then the part beside its job, the node, and
the jobs held. -/
def partRefusal (s : State) (r : Request) (d : Bytes) (id : Nat) : Option Refuse :=
  Img.first [s.partOrder3 r d, s.partBad d id,
    (if s.nodeReady (Img.node d) then none else some (Refuse.placement 0)), s.jobsShort id]

/-- Sends a part's image to its node, where the load sequence runs; LOADED completes the request (R391). -/
def sendPart (s : State) (k : ReqKey) (r : Request) (d : Bytes) : State :=
  let id := r.fld 72 2
  match s.partRefusal r d id with
  | some x => s.refuse k x
  | none =>
    let j := s.jobFor id r.tag d
    let t := s.putJob id { j with sent := j.sent ++ [(Img.node d, commonOf d)] }
    ((t.holdReq k (some .peer)).updReq k fun r => { r with reads := some (id, Img.node d, Img.blocks d) }).sendPeer 0x10
      (Img.node d) id (s.jobGen id) [] d

/-- A MODEL_LOAD whose image has been read is refused, waits, or loads (R215, R288). -/
def openLoad (s : State) (k : ReqKey) (r : Request) (d : Bytes) : State :=
  match Img.order1 d (r.fld 64 8) (r.fld 72 4) with
  | some x => s.refuse k x
  | none =>
    if r.fld 72 4 = 0 then s.loadPlain k r d
    else if Img.node d = 0 then (s.loadPartHere k r d).dropEmptyJob (r.fld 72 2)
    else (s.sendPart k r d).dropEmptyJob (r.fld 72 2)

/-- Dispatches a MODEL_LOAD, with what it meets in reading the image. -/
def modelLoad (s : State) (k : ReqKey) (source : SourceFind) : State :=
  match s.ready? k Op.modelLoad with
  | none => s
  | some r =>
    let a := r.fld 56 8
    let n := r.fld 64 8
    if r.kernel then s.refuse k kernelRefusal
    else
      match s.reachOk r a n true with
      | .error st => s.refuse k (accessRefuse r st 56 0)
      | .ok _ =>
        match s.jobRefusal r with
        | some x => if x.status = Status.jobAborted then s.joinAbort k (r.fld 72 2) else s.refuse k x
        | none =>
          if s.transferUp a = false then s
          else
            let d := s.readSpace r a n
            if (Img.order1 d n (r.fld 72 4)).isNone && decide (Img.node d = 0) && s.loadWaits (Img.mask d) then s
            else
              match s.sourceMet r [(a, n)] source with
              | (t, .clean) => t.openLoad k r d
              | (t, met) => t.failMet k met

/-! ### The fabric's own events (07 R183, R190-R192) -/

/-- A drain marker arrives: the direction has drained, and once both have, the entry and its lanes are free. -/
def drainMarker (s : State) (w : LaneWord) : State :=
  let n := s.lane w.link w.lane
  match (way n w.dir).words with
  | [] => s
  | o :: _ =>
    if n.disabled ∨ wKind w.data ≠ 3 then s
    else if parityOk w.data w.side = false then s.updLane w.link w.lane fun n => noteReplay n w.dir
    else if arrived o w = false then s
    else
      let t := (s.updLane w.link w.lane fun n => popWord n w.dir).moveLane w.link w.lane w.dir
      let e := (n.owner.map (·.1)).getD o.1
      match (s.link w.link).entries.getD e none with
      | none => t.countStale
      | some x =>
        if x.drain = false then (if wBad w.data then t.wordFault x.model (recvEnd w.link w.dir) else t)
        else
          let y := match w.dir with
            | .fwd => { x with fwdOpen := false }
            | .back => { x with backOpen := false }
          let u := { t with fb := { t.fb with links := updAt t.fb.links w.link fun k => { k with entries := k.entries.set e (some y) } } }
          if y.fwdOpen || y.backOpen then u else (u.freeOne w.link e).finishUnload x.model

/-- The models that own a hem lane. -/
def laneOwners (s : State) (l i : Nat) : List Nat :=
  match (s.lane l i).owner with
  | some (e, _) => ((s.link l).entries.getD e none).toList.map (·.model)
  | none => []

/-- Records a lane as disabled in FB_LANEFLT and disables it; entries that its marker would have freed are freed. -/
def disableLane (s : State) (l i : Nat) (byRate hpwr : Bool) : State :=
  let t := s.updLane l i fun n => { n with disabled := true, stuck := false, rated := false, fwd := Way.reset, back := Way.reset }
  { t with fb := { t.fb with
      fltLink := l, fltLane := i, fltValid := true, fltCause := byRate && !hpwr, fltHpwr := hpwr,
      fltCount := satInc 16 t.fb.fltCount } }

/-- Entries that drain by a marker on a lane that is now disabled are freed at once. -/
def freeStuck (s : State) (l i : Nat) : State :=
  (List.range 4).foldl (fun t e =>
    match (s.link l).entries.getD e none with
    | some x => if x.drain && decide (s.markerLane l e = i) then (t.freeOne l e).finishUnload x.model else t
    | none => t) s

/-- The module unloads models with a cause and the word that their failed requests report. -/
def dropModels (s : State) (ms : List Nat) (cause : Nat) (w1 : W64) : State :=
  ms.foldl (fun t i =>
    match t.model? i with
    | some m => (t.noteContext m.tag cause 0 0 0).dropModel i w1 0xFFFF
    | none => t) s

/-- A lane is faulty (R192): 16 consecutive replays of one word, or 4,096 in a tick. -/
def laneFault (s : State) (l i : Nat) (byRate : Bool) : State :=
  let n := s.lane l i
  if l < 56 ∧ i < 4 ∧ n.disabled = false ∧ s.shiftTouches l = false ∧ (if byRate then n.rated else n.stuck) = true then
    let owners := s.laneOwners l i
    let t := s.disableLane l i byRate false
    (t.dropModels owners 0x7 (laneLocator l i true byRate false t.fb.fltCount)).freeStuck l i
  else s

/-- The words of a transfer as they arrive, each with its sideband: one whose parity fails is asked for again (R191), and the next
good one is the word asked for. What is still to come, and the lane with its replays. -/
def takeWords (d : Dir) : List W64 → List (W64 × Byte) → Lane → List W64 × Lane
  | rest, [], n => (rest, n)
  | rest, a :: as, n =>
    if parityOk a.1 a.2 = false then takeWords d rest as (noteReplay n d)
    else
      match rest with
      | w :: ws =>
        if a.1 = w ∧ a.2 = Machine.sideband 0 true w then takeWords d ws as (setWay n d { way n d with consec := 0 }) else (rest, n)
      | [] => (rest, n)

/-- The first transfer of a link and direction has received words: with none to come it leaves its queue, and the next one begins
unless a spare shift is coming. -/
def receiveTransfer (s : State) (l : Nat) (d : Dir) (x : Transfer) (rest : List W64) : State :=
  let q := if rest.isEmpty then (if s.shiftTouches l then s.fb.service.erase x else beginNext l d (s.fb.service.erase x))
    else s.fb.service.map fun y => if y = x then { x with words := rest } else y
  { s with fb := { s.fb with service := q } }

/-- Words of the service position arrive. A transfer received whole whose tag is not current is dropped and counted; migration
control goes ahead of every other while a spare shift is on (R190). -/
def serviceTransfer (s : State) (l : Nat) (d : Dir) (words : List (W64 × Byte)) : State :=
  match s.fb.service.find? fun x => decide (x.link = l) && decide (x.dir = d) with
  | none => s
  | some x =>
    if (s.lane l 3).disabled || s.linkDead l || !x.begun then s
    else
      let r := takeWords d x.words words (s.lane l 3)
      let t := (s.updLane l 3 fun _ => r.2).receiveTransfer l d x r.1
      if !r.1.isEmpty || x.tag == 0#24 || s.tagLive x.tag then t else t.countStale

end State

def execModelLoad (r : ReqKey) (source : SourceFind) (s : State) : Host.Outcome State Fault Refusal :=
  .next (s.modelLoad r source)

def execModelUnload (r : ReqKey) (s : State) : Host.Outcome State Fault Refusal := .next (s.modelUnload r)

def execDrainMarker (w : LaneWord) (s : State) : Host.Outcome State Fault Refusal := .next (s.drainMarker w)

def execLaneFault (link lane : Nat) (byRate : Bool) (s : State) : Host.Outcome State Fault Refusal :=
  .next (s.laneFault link lane byRate)

def execServiceTransfer (link : Nat) (dir : Dir) (words : List (W64 × Byte)) (s : State) :
    Host.Outcome State Fault Refusal :=
  .next (s.serviceTransfer link dir words)

end Sys2Proof.Machine
end

