-- ==== Sys2Proof/Machine/Queues.lean ====
section
/-! DEFINITION. Queues, the watch, slots and fetching (09 R230-R257, R261; 13 R360-R362), with the meanings of SNOOP,
DOORBELL_READ, DESCRIPTOR_FETCH, SLICE_END and CACHEABLE_REQUEST. -/

namespace Sys2Proof.Machine

/-! ### Creation (R234-R238) -/

/-- A power of two in a range. -/
def powerIn (n lo hi : Nat) : Bool := decide (n = 2 ^ Nat.log2 n) && decide (lo ≤ n) && decide (n ≤ hi)

/-- A queue number's generation after one more creation (R237, R269). -/
def nextQueueGen (g : Nat) : Nat := if (g + 1) % 16384 = 0 then 1 else (g + 1) % 16384

namespace State

/-- The offset of the first reserved byte or bit of a queue record that is not 0 (R235 step 1). -/
def recordReserved (d : Bytes) : Option Nat :=
  leastOf ((if field d 44 1 / 8 ≠ 0 then [44] else []) ++ uncovered d [] 45 1 ++ uncovered d [] 48 16)

/-- The offset of the first size, alignment, class or vector out of range (R235 step 2, Table 9.1, R230). -/
def recordRange (d : Bytes) : Option Nat :=
  leastOf (
    (if field d 0 8 % 4096 ≠ 0 then [0] else []) ++ (if field d 8 8 % 4096 ≠ 0 then [8] else []) ++
    (if field d 16 8 % 64 ≠ 0 then [16] else []) ++ (if field d 24 8 % 64 ≠ 0 then [24] else []) ++
    (if powerIn (field d 32 4) 64 65536 then [] else [32]) ++
    (if powerIn (field d 36 4) 64 262144 then [] else [36]) ++
    (if 3 < field d 43 1 then [43] else []) ++ (if 2047 < field d 46 2 then [46] else []))

/-- KERNEL matches the context tag (R235 step 3); a creation by register takes kernel queues only (R236), and a job context takes no
descriptors (14 R390). -/
def recordOwner (s : State) (d : Bytes) (byRegister : Bool) : Bool :=
  let tag : BitVec 24 := BitVec.ofNat 24 (field d 40 3)
  if bitAt (field d 44 1) 0 then tag == 0 else !byRegister && s.tagLive tag && decide ((s.ctx (idOf tag)).job = 0)

/-- A queue number is free, and for a kernel queue fewer than 16 exist (R235 step 4). -/
def queueNumber (s : State) (kernel : Bool) : Option Nat :=
  if kernel && decide (16 ≤ (s.fe.queues.filter fun p => p.2.kernel).length) then none
  else Tbl.lowestFree s.fe.queues 0 1024

/-- The checks of R235, in order: the number that the queue takes, or the refusal. -/
def checkRecord (s : State) (d : Bytes) (byRegister : Bool) : Except Refuse Nat :=
  match recordReserved d with
  | some o => .error (Refuse.reserved o 5)
  | none =>
    match recordRange d with
    | some o => .error (Refuse.field o 5)
    | none =>
      if s.recordOwner d byRegister = false then .error (Refuse.field 40 5)
      else
        match s.queueNumber (bitAt (field d 44 1) 0) with
        | none => .error (Refuse.capacity (Refuse.report 0x0F false false 0 0 0) 1)
        | some n => .ok n

/-- The queue of a record, with its generation (R237). -/
def newQueue (d : Bytes) (gen : Nat) : Queue :=
  { ring := field d 0 8, comp := field d 8 8, door := field d 16 8, line := field d 24 8, ringN := field d 32 4,
    compN := field d 36 4, tag := BitVec.ofNat 24 (field d 40 3), cls := field d 43 1,
    kernel := bitAt (field d 44 1) 0, sigerr := bitAt (field d 44 1) 1, homeb := bitAt (field d 44 1) 2,
    vector := field d 46 2, gen := gen, state := .active, cause := 0, fhead := 0, ctail := 0, tail := 0, chead := 0,
    watch := false, fired := false, unserved := 0, readyRun := 0, destroys := [] }

/-! ### The doorbell line (R231, R241, R245, R254) -/

/-- The error cause of a doorbell line that an ACTIVE queue reads, if any: reserved bytes, TAIL, CHEAD. -/
def doorbellCause (q : Queue) (line : Bytes) : Option Nat :=
  let tail := field line 0 8
  let chead := field line 8 8
  if field line 16 48 ≠ 0 then some 0x2
  else if tail < q.tail ∨ q.fhead + q.ringN < tail then some 0x1
  else if chead < q.chead ∨ q.ctail < chead then some 0x3
  else none

/-- One read-shared of a queue's doorbell line, which installs the watch (R244). A queue in ERROR or DESTROYING takes
a good CHEAD only (R254). A read that fails puts an ACTIVE queue into ERROR (R253). -/
def readDoorbell (s : State) (n : Nat) : State :=
  match s.queue? n with
  | none => s
  | some q =>
    let line := Mem.bytes s.host q.door 64
    let armed := (s.touchHost q.home).updQueue n fun q => { q with watch := true, fired := false }
    if s.hostUp = false then (s.updQueue n fun q => { q with watch := false }).queueError n 0x4
    else if q.state = .active then
      match doorbellCause q line with
      | some cause => armed.queueError n cause
      | none => armed.updQueue n fun q => { q with tail := field line 0 8, chead := field line 8 8 }
    else
      armed.updQueue n fun q =>
        { q with chead := if q.chead ≤ field line 8 8 ∧ field line 8 8 ≤ q.ctail then field line 8 8 else q.chead }

/-- Creates a queue from a record that the checks accept: the state line is written and the watch armed, whose read
is the first read of the line (R237, R238). -/
def createQueue (s : State) (d : Bytes) (n : Nat) : State :=
  let gen := nextQueueGen (Tbl.getD s.fe.qgens n 0)
  (({ s with fe := { s.fe with
      qgens := Tbl.put s.fe.qgens n gen, queues := Tbl.put s.fe.queues n (newQueue d gen) } }).writeLine n).readDoorbell n

/-! ### Slots (R246, R255-R257) -/

/-- Fetch credits (R247): a free table entry, completion space, and the queue ACTIVE. -/
def credits (s : State) (n : Nat) (q : Queue) : Bool :=
  q.state == .active && s.recordRoom n &&
  decide ((s.fe.requests.filter fun r => decide (r.key.link = 0)).length < 262144)

/-- The queue has a published descriptor that its slot may fetch. -/
def canFetch (s : State) (n : Nat) (q : Queue) : Bool := decide (q.fhead < q.tail) && s.credits n q

/-- Fetching from the queue is not stopped by a reset or a fence of its context (11 R313 order 1, R321). -/
def fetchOpen (s : State) (q : Queue) : Bool :=
  q.kernel || (s.tagLive q.tag && (s.ctx (idOf q.tag)).dump.isNone)

/-- A slot fetches for its queue: it does not keep the fence of a crash dump up. -/
def slotFetches (s : State) (i : Nat) (q : Queue) : Bool := s.fetchOpen q && (q.kernel || !s.isolates (idOf q.tag) (.slot i))

/-- A queue is ready: its watch has fired or it has published descriptors, and its credits allow a fetch (R255). -/
def queueReady (s : State) (n : Nat) (q : Queue) : Bool :=
  s.fetchOpen q && (q.fired || decide (q.fhead < q.tail)) && s.credits n q

/-- The effective class of a queue (R256 step 1). -/
def effClass (s : State) (q : Queue) : Nat := if s.fe.age ≠ 0 ∧ s.fe.age ≤ q.readyRun then 0 else q.cls

/-- The slot that a queue holds. -/
def slotOf (s : State) (n : Nat) : Option Nat := firstIdx (fun _ t => t.queue == some n) 0 s.fe.slots

/-- Changes a slot. -/
def updSlot (s : State) (i : Nat) (f : Slot → Slot) : State := { s with fe := { s.fe with slots := updAt s.fe.slots i f } }

/-- The slots of a kind (R239). -/
def slotKind (kernel : Bool) : List Nat := if kernel then [0, 1] else (List.range 14).map (· + 2)

/-- The ready queues of a kind in the order of R256 step 2. -/
def readyOrder (s : State) (kernel : Bool) : List (Nat × Queue) :=
  sortBy (fun a b =>
    decide (s.effClass a.2 < s.effClass b.2) ||
    (s.effClass a.2 == s.effClass b.2 &&
      (decide (b.2.unserved < a.2.unserved) || (a.2.unserved == b.2.unserved && decide (a.1 ≤ b.1)))))
    (s.fe.queues.filter fun p => p.2.kernel == kernel && s.queueReady p.1 p.2)

/-- A slot of a kind that serves nothing, or else one whose queue is idle or waits on credits (R257). -/
def freeSlot (s : State) (kernel : Bool) : Option Nat :=
  match (slotKind kernel).find? fun i => ((s.fe.slots[i]?).getD Slot.reset).queue.isNone with
  | some i => some i
  | none => (slotKind kernel).find? fun i => ((s.fe.slots[i]?).getD Slot.reset).idle

/-- Gives a slot to a queue. -/
def mapSlot (s : State) (i n : Nat) (q : Queue) : State :=
  (s.updSlot i fun t =>
    { t with queue := some n, eclass := s.effClass q, idle := false, cwait := false, pending := false }).updQueue n
      fun q => { q with unserved := 0, readyRun := 0 }

/-- Gives a free slot of a kind to the first ready queue that holds none (R257). -/
def assignOne (kernel : Bool) (s : State) : State :=
  match (s.readyOrder kernel).find? fun p => (s.slotOf p.1).isNone, s.freeSlot kernel with
  | some (n, q), some i => s.mapSlot i n q
  | _, _ => s

/-- Gives free slots to ready queues. -/
def assignSlots (s : State) : State :=
  let k := (List.range 2).foldl (fun t _ => assignOne true t) s
  (List.range 14).foldl (fun t _ => assignOne false t) k

/-- Takes a slot from its queue. -/
def clearSlot (s : State) (i : Nat) : State :=
  s.updSlot i fun t => { t with queue := none, idle := false, cwait := false, pending := false }

/-- Takes the slot of a queue that can be served no more, and gives it to the next ready queue. -/
def dropSlotOf (s : State) (n : Nat) : State :=
  match s.slotOf n with
  | some i => (s.clearSlot i).assignSlots
  | none => s

/-- A queue that waits on credits is not ready, so no slot reads a CHEAD that is stored meanwhile: where its watch has fired and it
holds no slot, the front end reads the line itself (R249; log entry 18). -/
def readStarved (s : State) (n : Nat) : State :=
  match s.queue? n with
  | none => s
  | some q =>
    if q.state = .active ∧ q.fired = true ∧ (s.slotOf n).isNone = true ∧ s.credits n q = false then
      (s.readDoorbell n).assignSlots
    else s

/-- A slot wakes when its queue may fetch again: the watch fired or credits returned (R246, R249). -/
def wakeSlot (s : State) (i : Nat) : State := s.updSlot i fun t => { t with idle := false, cwait := false }

/-- A store takes a watched line: the watch fires (R244, R246, R254). -/
def fireWatch (s : State) (n : Nat) : State :=
  match s.queue? n with
  | none => s
  | some q =>
    if q.watch = false then s
    else if q.state ≠ .active then s.readDoorbell n
    else
      let t := s.updQueue n fun q => { q with watch := false, fired := true }
      match s.slotOf n with
      | some i =>
        if ((s.fe.slots[i]?).getD Slot.reset).idle then t.wakeSlot i else t.updSlot i fun t => { t with pending := true }
      | none => t.assignSlots.readStarved n

/-- The watch of a queue is installed anew, by a fresh read-shared on another link (R253): its slot goes on with what the line holds. -/
def rewatch (s : State) (n : Nat) : State :=
  let t := s.readDoorbell n
  match t.queue? n, t.slotOf n with
  | some q, some i =>
    if q.state ≠ .active then (t.clearSlot i).assignSlots
    else if t.canFetch n q then t.wakeSlot i
    else t
  | _, _ => t.assignSlots

/-- Watches that have fired and whose queues fetch no more are read for CHEAD, and installed again (R254). -/
def keepWatch (s : State) (n : Nat) : State :=
  match s.queue? n with
  | some q => if q.state ≠ .active ∧ q.watch = false ∧ s.hostUp = true then s.readDoorbell n else s
  | none => s

/-- Frees a queue number: the watch, held failures, overlay entries and slot of the queue go (R258 order 5, R261,
R276). Edges that name its requests count as failed from now on. -/
def freeQueue (s : State) (n : Nat) : State :=
  match s.queue? n with
  | none => s
  | some q =>
    let (v, s') := s.takeFree
    (({ s' with fe := { s'.fe with
        queues := Tbl.erase s'.fe.queues n
        requests := s'.fe.requests.filter fun r => decide (r.queue ≠ n)
        chains := s'.fe.chains.filter fun c => decide (c.queue ≠ n)
        overlay := s'.fe.overlay.filter fun o => decide (o.queue ≠ n) } }).dropSlotOf n).failQueueEdges n q.gen
      (Config.lostStatus v).toNat

/-! ### The commands -/

/-- A host store of a line, with the snoop that it needs by the port's link, or by the other one while that alone is up: the bytes
land in host memory, watches on the line fire, and the answer is invalid (R244, R253, R361; log entry 5). -/
def snooped (s : State) (p : Port) (addr : Nat) (data : Bytes) : State :=
  let t := { s with host := Mem.store s.host addr data }
  match s.viaPort p with
  | some q =>
    (((s.fe.queues.filter fun x =>
        decide (x.2.door < addr + data.length) && decide (addr < x.2.door + 64)).map (·.1)).foldl State.fireWatch (t.wakeLink q)).answer q
      .invalidAck
  | none => t

/-- What a slot does after its read of the doorbell line: it goes on fetching, or its queue goes idle or waits on
credits, the state line is written, and the slot goes to the next ready queue if there is one (R246, R233, R257). -/
def afterRead (s : State) (i n oldTail : Nat) : State :=
  match s.queue? n with
  | none => s
  | some q =>
    if q.state ≠ .active then (s.clearSlot i).assignSlots
    else if q.tail ≠ oldTail ∨ s.canFetch n q = true then s.updSlot i fun t => { t with pending := false }
    else
      assignOne (decide (i < 2)) ((s.updSlot i fun t =>
        { t with idle := true, cwait := decide (q.fhead < q.tail), pending := false }).writeLine n)

/-- A slot that has fetched what it may reads the doorbell line again (R246). -/
def doorbellRead (s : State) (i : Nat) : State :=
  let t := (s.fe.slots[i]?).getD Slot.reset
  match t.queue with
  | none => s
  | some n =>
    match s.queue? n with
    | none => s
    | some q => if t.idle || (s.slotFetches i q && s.canFetch n q) then s else (s.readDoorbell n).afterRead i n q.tail

/-- The request of a fetched descriptor, with the overlay entries that hit it, in sequence order of their sources. -/
def fetchedRequest (s : State) (n : Nat) (q : Queue) : Request :=
  { key := ⟨mkName q.gen n q.fhead, 0⟩, queue := n, tag := q.tag, kernel := q.kernel,
    desc := Mem.bytes s.host (q.ring + 128 * (q.fhead % q.ringN)) 128, edges := [],
    patches := sortBy (fun a b => decide (a.source ≤ b.source))
      (s.fe.overlay.filter fun o => decide (o.queue = n) && decide (o.target = q.fhead % 2 ^ 40)),
    state := .heldPatch, hold := none, status := 0, stop := 0, faultLe := 0xFFFF, word0 := 0, word1 := 0, turns := 0,
    append := none, samples := [], reads := none, place := none, best := none }

/-- Enters a fetched descriptor in the table under its name; its overlay entries leave the queue (R243, R276). -/
def insertFetched (s : State) (n : Nat) (q : Queue) (r : Request) : State :=
  { s with fe := { s.fe with
      requests := s.fe.requests ++ [r]
      overlay := s.fe.overlay.filter fun o => !(decide (o.queue = n) && decide (o.target = q.fhead % 2 ^ 40)) } }

/-- The state line is written at least once per 64 descriptors fetched (R233). -/
def lineAt64 (s : State) (n count : Nat) : State := if count % 64 = 0 then s.writeLine n else s

/-- A slot reads one descriptor, once (R242), and enters it: patched and checked, or held for its patch sources. -/
def descriptorFetch (s : State) (i : Nat) : State :=
  match ((s.fe.slots[i]?).getD Slot.reset).queue with
  | none => s
  | some n =>
    match s.queue? n with
    | none => s
    | some q =>
      if (s.slotFetches i q && s.canFetch n q) = false then s
      else if s.hostUp = false then ((s.queueError n 0x4).clearSlot i).assignSlots
      else
        let (v, s0) := (s.touchHost q.home).takeFree
        let r := s0.fetchedRequest n q
        let s1 := ((s0.insertFetched n q r).updQueue n fun q => { q with fhead := q.fhead + 1 }).updSlot i fun t =>
          { t with idle := false, cwait := false, fetched := t.fetched + 1 }
        ((s1.reserveOverlay r).releasePatched (Config.lostStatus v).toNat).lineAt64 n (q.fhead + 1)

/-- Counts a slice for the queues that held no slot in it (R256 step 1). -/
def countSlice (s : State) : State :=
  { s with fe := { s.fe with queues := Tbl.mapVals s.fe.queues fun n q =>
      if (s.slotOf n).isSome then { q with unserved := 0, readyRun := 0 }
      else
        let run := if s.fe.age ≠ 0 ∧ s.fe.age ≤ q.readyRun then 0 else q.readyRun
        { q with unserved := q.unserved + 1, readyRun := if s.queueReady n q then run + 1 else 0 } } }

/-- A slot of a kind for one of the first ready queues: one that serves nothing, else one whose queue is idle, else another that is not
among them. -/
def slotFor (s : State) (kernel : Bool) (winners : List Nat) : Option Nat :=
  let lost := fun (i : Nat) => ((s.fe.slots[i]?).getD Slot.reset).queue.all fun n => !winners.contains n
  match (slotKind kernel).find? fun i => ((s.fe.slots[i]?).getD Slot.reset).queue.isNone with
  | some i => some i
  | none =>
    match (slotKind kernel).find? fun i => ((s.fe.slots[i]?).getD Slot.reset).idle && lost i with
    | some i => some i
    | none => (slotKind kernel).find? lost

/-- Maps the slots of a kind to the first ready queues of the order (R256 steps 3 and 4). -/
def remap (s : State) (kernel : Bool) : State :=
  let slots := slotKind kernel
  let winners := ((s.readyOrder kernel).take slots.length).map (·.1)
  let kept := slots.foldl (fun t i =>
    match ((t.fe.slots[i]?).getD Slot.reset).queue with
    | some n =>
      if winners.contains n then
        match t.queue? n with
        | some q => t.updSlot i fun u => { u with eclass := s.effClass q }
        | none => t
      else t
    | none => t) s
  winners.foldl (fun t n =>
    if (t.slotOf n).isSome then t
    else
      match t.queue? n, t.slotFor kernel winners with
      | some q, some i => t.mapSlot i n q
      | _, _ => t) kept

/-- The end of a slice (R256). -/
def sliceEnd (s : State) : State :=
  let t := (s.countSlice.remap true).remap false
  (t.fe.queues.map (·.1)).foldl State.readStarved t

/-- A cacheable request to module space: NOCACHE, counted (13 R362). -/
def cacheable (s : State) (p : Port) : State :=
  if s.linkUp p then ({ s.wakeLink p with hp := { (s.wakeLink p).hp with cachereq := satInc 8 s.hp.cachereq } }).answer p .nocache else s

/-- The driver's queue creation by register (R236): the status, number and generation stand in FE_KQCMD. -/
def kqcmdGo (s : State) : State :=
  let d := Mem.bytes s.host (s.fe.kqAddr.toNat * 64) 64
  match s.checkRecord d true with
  | .error x => { s with fe := { s.fe with kqStatus := BitVec.ofNat 8 x.status } }
  | .ok n =>
    let t := s.createQueue d n
    { t with fe := { t.fe with kqStatus := 0, kqQueue := n, kqGen := Tbl.getD t.fe.qgens n 0 } }

end State

def execSnoop (p : Port) (addr : Nat) (data : List Byte) (s : State) : Host.Outcome State Fault Refusal :=
  .next (s.snooped p addr data)

def execDoorbellRead (slot : Nat) (s : State) : Host.Outcome State Fault Refusal := .next (s.doorbellRead slot)

def execDescriptorFetch (slot : Nat) (s : State) : Host.Outcome State Fault Refusal := .next (s.descriptorFetch slot)

def execSliceEnd (s : State) : Host.Outcome State Fault Refusal := .next s.sliceEnd

def execCacheableRequest (p : Port) (s : State) : Host.Outcome State Fault Refusal := .next (s.cacheable p)

end Sys2Proof.Machine
end

