-- ==== Sys2Proof/Machine/Contexts.lean ====
section
/-! DEFINITION. Contexts: creation, grants, and the context reset (11 R303-R320; 10 R296, R297; 14 R401, R402), with the
meanings of CTX_CREATE, CTX_DESTROY, CTX_GRANT, CTX_RESET and CONTEXT_RESET_END. -/

namespace Sys2Proof.Machine

namespace State

/-! ### What a context owns -/

/-- The requests of a context that have not ended as held failures. -/
def requestsOf (s : State) (tag : BitVec 24) : List Request :=
  s.fe.requests.filter fun r => r.tag == tag && !r.kernel && r.state != .heldFailed

/-- The stream records of a context. -/
def streamsOf (s : State) (tag : BitVec 24) : List Nat :=
  (s.st.streams.filter fun p => decide (p.2.state ≠ 0) && p.2.tag == tag).map (·.1)

/-- The queues of a context. -/
def queuesOf (s : State) (tag : BitVec 24) : List Nat :=
  (s.fe.queues.filter fun p => p.2.tag == tag && !p.2.kernel).map (·.1)

/-! ### A job is aborted (14 R401, R402) -/

/-- ABORT goes out on every trained tree link but the one it came by. -/
def floodAbort (s : State) (id gen : Nat) (arrival : Option Nat) : State :=
  let out := indicesFrom (fun (l : PeerLink) => (l.state == .up || l.state == .lowPower) && (l.kind == 1 || l.kind == 2)) 0
    s.pr.links
  { s with pr := { s.pr with out := s.pr.out ++ (out.filter fun l => decide (some l ≠ arrival)).map fun l =>
      { cls := 0x20, link := l, src := s.pr.nodeid, node := 0x3F, job := id, gen := gen, words := [], bytes := [] } } }

/-- A request that names an aborted job stops and waits for the report. -/
def parkRequest (s : State) (id : Nat) (k : ReqKey) : State :=
  let t := match s.run? k with
    | some u => s.invalidateKept u.model
    | none => s
  (((t.withdraw k).dropRun k).holdReq k (some .peer)).updJob id fun j =>
    { j with waiters := j.waiters ++ [k] }

/-- The requests of the owner that name a job: users of its node-0 part, loads of parts, and an unload. -/
def jobRequests (s : State) (id : Nat) (j : Job) : List ReqKey :=
  (match j.model with
    | some i => s.usersOf i ++ ((s.model? i).bind (·.unloading)).getD []
    | none => []) ++
  (s.fe.requests.filter fun r => r.running && r.op == Op.modelLoad && r.reads.any fun x => decide (x.1 = id)).map (·.key)

/-- Node 0 reports a job aborted once every part's node has answered or is UNREACH (R402). -/
def jobDone (s : State) (id : Nat) : State :=
  match s.job? id with
  | none => s
  | some j =>
    let gone := fun (node : Nat) => j.doneFrom.contains node || ((s.pr.routes[node]?).getD Route.reset).unreach
    if s.pr.nodeid = 0 ∧ j.state = .aborting ∧ j.parts.all (fun p => gone p.node) = true then
      let x := s.jobAborted id
      (j.waiters.foldl (fun t k => if (t.req? k).any (·.running) then t.refuse k x else t) s).endJob id
    else s

/-! ### The reset of one context (R313) -/

/-- Orders 1 to 4: the context is RESETTING and fenced, its work stops, its link entries drain. -/
def carryReset (s : State) (id : Nat) : State :=
  let tag := s.tagOf id
  let ms := s.modelsOfCtx id
  let t := s.updCtx id fun c =>
    { c with state := .resetting, fenced := true, resetting := c.resetting.map fun x => { x with begun := true } }
  let t : State := { t with fe := { t.fe with
    requests := t.fe.requests.filter fun r => !(r.tag == tag && !r.kernel && r.state == .heldFailed)
    chains := t.fe.chains.filter fun c => !(c.tag == tag && !c.kernel) } }
  let rs := (t.requestsOf tag).map (·.key)
  -- what waits on a run stops before the run does
  let order := rs.filter (fun k => (t.run? k).isNone) ++ rs.filter fun k => (t.run? k).isSome
  let word : W64 := BitVec.ofNat 64 tag.toNat
  let t := order.foldl (fun t k => t.stopReq k Status.contextReset (some word)) t
  let t := ms.foldl (fun t i =>
    match t.runOn i with
    | some u => if (t.req? u.key).isNone then t.dropRun u.key else t
    | none => t) t
  let t := ms.foldl State.startDrain t
  { t with fb := { t.fb with service := t.fb.service.filter fun x => x.begun || x.tag != tag } }

/-- A reset of a LIVE context is due. It is carried out now, or for a context that a spare shift holds once the shift is over (07
R202). A further reset of it joins (Table 11.6). -/
def beginReset (s : State) (id : Nat) (req : Option ReqKey) (freeing : Bool) : State :=
  match (s.ctx id).resetting with
  | some _ =>
    s.updCtx id fun c => { c with resetting := c.resetting.map fun x =>
      { x with waiters := x.waiters ++ req.toList, freeing := x.freeing || freeing } }
  | none =>
    if (s.ctx id).state ≠ .live ∨ id = 0 then s
    else
      let tag := s.tagOf id
      let x : ResetInfo := { waiters := req.toList, freeing := freeing, begun := false, noAck := [], tagBefore := tag }
      let t := s.updCtx id fun c => { c with resetting := some x }
      if t.shiftHolds tag then t else t.carryReset id

/-- ABORT for a job on this module: it floods, the requests that name the job stop, and the job context is reset
(R401, R402). A second ABORT is merged (Table 14.5). -/
def abortJob (s : State) (id origin : Nat) (arrival : Option Nat) : State :=
  match s.job? id with
  | none => s
  | some j =>
    if j.state = .aborting then s
    else
      let t := (s.floodAbort id (s.jobGen id) arrival).updJob id fun j => { j with state := .aborting, lastNode := origin, doneFrom := [] }
      let t : State := { t with pr := { t.pr with aborts := satInc 16 t.pr.aborts } }
      let t := (s.jobRequests id j).foldl (fun t k => t.parkRequest id k) t
      let t := match j.model with
        | some i => t.updModel i fun m => { m with unloading := some [] }
        | none => t
      if j.jctx = 0 then
        -- a module without a part only forwards
        if s.pr.nodeid = 0 then (t.updJob id fun j => { j with doneFrom := j.doneFrom ++ [0] }).jobDone id else t.endJob id
      else t.beginReset j.jctx none true

/-- The jobs that a context owns, or whose job context it is. -/
def jobsOfCtx (s : State) (id : Nat) : List Nat :=
  (s.pr.jobs.filter fun p => p.2.owner == s.tagOf id || decide (p.2.jctx = id)).map (·.1)

/-- A reset of the context has begun. -/
def resetBegun (s : State) (id : Nat) : Bool := (s.ctx id).resetting.any (·.begun)

/-- A context reset (reach X): orders 1 to 4, and order 7, ABORT for each job of the context. -/
def resetContext (s : State) (id : Nat) (req : Option ReqKey) (freeing : Bool) : State :=
  let jobs := if (s.ctx id).state = .live ∧ id ≠ 0 then s.jobsOfCtx id else []
  let t := s.beginReset id req freeing
  if t.resetBegun id then jobs.foldl (fun t j => t.abortJob j s.pr.nodeid none) t else t

/-- Resets that waited for a spare shift are carried out (07 R202). -/
def carryResets (s : State) : State :=
  ((List.range 255).map (· + 1)).foldl (fun t id =>
    if (t.ctx id).resetting.isSome && !t.resetBegun id && !t.shiftHolds (t.tagOf id) then
      (t.jobsOfCtx id).foldl (fun u j => u.abortJob j s.pr.nodeid none) (t.carryReset id)
    else t) s

/-- A reset that the module starts on its own is named in CX_FAULTCTX (R311). -/
def moduleReset (s : State) (id cause le su idx : Nat) : State :=
  if (s.ctx id).state = .live ∧ id ≠ 0 ∧ (s.ctx id).resetting = none then
    let t := s.noteContext (s.tagOf id) cause le su idx
    ({ t with cx := { t.cx with autorst := satInc 16 t.cx.autorst } }).resetContext id none false
  else s

/-- LPDDR6 that a context gives back is zeroed in the background (R314). -/
def zeroLpddr (s : State) (l : List (Nat × Nat)) : State :=
  { s with hb := { s.hb with pkgs := mapIdxFrom (fun i (p : Package) =>
      { p with zeroing := p.zeroing + sumAt i l }) 0 s.hb.pkgs } }

/-- A queue is closed: DESTROYING, its state line written, its destructions complete, its number free (09 R263). -/
def closeQueue (s : State) (n : Nat) : State :=
  match s.queue? n with
  | none => s
  | some q =>
    let t := (s.updQueue n fun q => { q with state := .destroying }).writeLine n
    (q.destroys.foldl (fun t k => t.okReq k 0 0) t).freeQueue n

/-- Orders 2 to 9 of a reset are acknowledged: every record is written, every link entry is free, every unit has
answered, and no spare shift moves the context's engines. -/
def resetReady (s : State) (id : Nat) (x : ResetInfo) : Bool :=
  x.begun && (s.requestsOf x.tagBefore).isEmpty && (s.modelsOfCtx id).all (fun i => (s.entriesOf i).isEmpty) &&
  x.noAck.all (fun site => (s.leOf site).isNone) &&
  (s.modelsOfCtx id).all fun i => !s.shiftOver ((s.model? i).map (·.mask) |>.getD 0)

/-- A stream record of a context goes with its reset: KIND and its counts are cleared as well (15 Tables 15.13, 15.14). -/
def clearStream (s : State) (n : Nat) : State :=
  let t := s.releaseStream n
  { t with st := { t.st with streams := Tbl.upd t.st.streams n fun x => { x.uncounted with kind := 0 } } }

/-- A unit of a context's data space. -/
def pageOf (id : Nat) (p : UnitPlace) : Bool :=
  match p with
  | .page c _ => decide (c = id)
  | _ => false

/-- Order 8: what the context held is zeroed and released. -/
def releaseContext (s : State) (id : Nat) : State :=
  let tag := s.tagOf id
  let ms := s.modelsOfCtx id
  let back := (ms.flatMap fun i => ((s.model? i).map (·.lpddr)).getD []) ++
    (s.ctx id).pages.map fun p => (p.1, p.2.length * 2097152)
  let t := (s.streamsOf tag).foldl State.clearStream s
  let t := ms.foldl State.releaseData t
  let t : State := { t with models := t.models.filter fun p => !ms.contains p.1 }
  ((t.zeroLpddr back).releaseUnits (pageOf id)).updCtx id fun c => { c with chain := [], space := [], pages := [] }

/-- Order 11 for a context: its new generation, LIVE or FREE; every other context's progress restarts (R304, R312). -/
def reviveContext (s : State) (id : Nat) (freeing : Bool) : State :=
  let t := s.updCtx id fun c =>
    { c with
      state := if freeing then .free else .live, gen := (c.gen + 1) % 65536, hung := false, fenced := false
      isolated := [], resets := satInc 16 c.resets, resetting := none, job := 0
      grant := if freeing then Grant.empty else c.grant }
  { t with cx := { t.cx with progress := t.cx.progress.map fun p =>
      if p.ctx.isSome && p.ctx != some id then { p with tr := s.now } else p } }

/-- The job of a job context whose reset has ended: ABORT_DONE goes to node 0 (14 R402). -/
def answerAbort (s : State) (job : Nat) : State :=
  match s.job? job with
  | none => s
  | some _ =>
    let g := s.jobGen job
    let t := s.updJob job fun j => { j with jctx := 0, model := none }
    if s.pr.nodeid = 0 then (t.updJob job fun j => { j with doneFrom := j.doneFrom ++ [0] }).jobDone job
    else (t.endJob job).sendPeer 0x21 0 job g [s.pr.nodeid] []

/-- CONTEXT_RESET_END: orders 8 to 11. -/
def contextResetEnd (s : State) (id : Nat) : State :=
  match (s.ctx id).resetting with
  | none => s
  | some x =>
    if s.resetReady id x = false then s
    else
      let job := (s.ctx id).job
      let t := s.releaseContext id
      let t := ((t.queuesOf x.tagBefore).foldl State.closeQueue t).reviveContext id x.freeing
      let word : W64 := BitVec.ofNat 64 (t.tagOf id).toNat
      let t := x.waiters.foldl (fun t k =>
        t.okReq k (if (s.req? k).any (fun r => r.op == Op.ctxReset) then word else 0) 0) t
      (if job = 0 then t else t.answerAbort job).pruneProgress

/-! ### The kernel opcodes on contexts (10 R296, R297) -/

/-- The tag that a payload names. -/
def payloadTag (r : Request) : BitVec 24 := BitVec.ofNat 24 (r.fld 56 3)

/-- Dispatches a CTX_CREATE. -/
def ctxCreate (s : State) (k : ReqKey) : State :=
  match s.ready? k Op.ctxCreate with
  | none => s
  | some _ =>
    match ((List.range 255).map (· + 1)).find? fun i => (s.ctx i).state == .free with
    | none => s.refuse k (Refuse.capacity (Refuse.report 0x11 false false 0 0 0) 1)
    | some i =>
      let t := s.updCtx i fun c => { c with state := .live, grant := Grant.empty, hung := false, fenced := false, isolated := [] }
      t.okReq k (BitVec.ofNat 64 (t.tagOf i).toNat) 0

/-- Starts or joins the reset of the named context, which completes the request. -/
def resetFor (s : State) (k : ReqKey) (r : Request) (freeing : Bool) : State :=
  let tag := payloadTag r
  let joins := (s.ctx (idOf tag)).resetting.any fun x => x.tagBefore == tag
  if s.tagLive tag || joins then (s.holdReq k (some .destroy)).resetContext (idOf tag) (some k) freeing
  else s.refuse k (Refuse.field 56 0)

/-- Dispatches a CTX_RESET. -/
def ctxReset (s : State) (k : ReqKey) : State :=
  match s.ready? k Op.ctxReset with
  | none => s
  | some r => s.resetFor k r false

/-- Dispatches a CTX_DESTROY. -/
def ctxDestroy (s : State) (k : ReqKey) : State :=
  match s.ready? k Op.ctxDestroy with
  | none => s
  | some r => s.resetFor k r true

/-- The grant of a payload. -/
def payloadGrant (r : Request) : Grant :=
  { mask := r.fld 60 4, slices := r.fld 64 2, lanes := r.fld 66 2, scratch := r.fld 68 4, lpddr := r.fld 72 8,
    history := r.fld 80 8, streams := r.fld 88 4, chain := r.fld 92 1 }

/-- Engines that a context holds something on. -/
def enginesHeld (s : State) (tag : BitVec 24) : List Nat :=
  (List.range 32).filter fun le =>
    (s.heldBy tag).any (fun m => bitAt m.mask le) || !(Tbl.getD (s.ctx (idOf tag)).pages le []).isEmpty ||
    s.st.streams.any fun p => decide (p.2.state ≠ 0) && p.2.tag == tag && decide (p.2.kind ≠ 3) && decide (p.2.home = le)

/-- Resources held beyond a grant, in ascending code: code, engine, held minus granted. -/
def grantBelow (s : State) (tag : BitVec 24) (g : Grant) : List (Nat × Nat × Nat) :=
  let out := (s.enginesHeld tag).filter fun le => !bitAt g.mask le
  (match out with
    | le :: _ => [(0x01, le, out.length)]
    | [] => []) ++
  ([0x02, 0x07, 0x09, 0x0A, 0x0D, 0x0E].filter fun c => decide (limit g c < s.held tag c)).map fun c =>
    (c, 0, s.held tag c - limit g c)

/-- Engines with too little replica area for the chain memory of a grant. -/
def chainShort (s : State) (tag : BitVec 24) (g : Grant) : List (Nat × Nat) :=
  let own := (s.ctx (idOf tag)).grant
  (List.range 32).filterMap fun le =>
    let used := s.scratchUsed le - (if bitAt own.mask le then own.chain * 131072 else 0)
    let need := g.chain * 131072
    if bitAt g.mask le && decide (31457280 - used < need) then some (le, need - (31457280 - used)) else none

/-- Chain memory that a new grant no longer reserves is given back zeroed. -/
def trimChain (g : Grant) (t : Tbl Mem) : Tbl Mem :=
  (t.filter fun p => bitAt g.mask p.1).map fun p => (p.1, Mem.clear p.2 (g.chain * 131072) (2 ^ 40))

/-- Dispatches a CTX_GRANT (R297; 07 R203). -/
def ctxGrant (s : State) (k : ReqKey) : State :=
  match s.ready? k Op.ctxGrant with
  | none => s
  | some r =>
    let tag := payloadTag r
    let g := payloadGrant r
    if s.tagLive tag = false then s.refuse k (Refuse.field 56 0)
    else
      match (List.range 32).find? fun le => bitAt g.mask le && s.isLost le with
      | some le => s.refuse k (Refuse.placement (Refuse.report 0x01 false false le 0 0))
      | none =>
        match s.grantBelow tag g, s.chainShort tag g with
        | (c, le, n) :: more, _ => s.refuse k (Refuse.grant (Refuse.report c (!more.isEmpty) false le 0 0) n)
        | [], (le, n) :: more => s.refuse k (Refuse.capacity (Refuse.report 0x07 (!more.isEmpty) false le 0 0) n)
        | [], [] => (s.updCtx (idOf tag) fun c => { c with grant := g, chain := trimChain g c.chain }).okReq k 0 0

end State

def execCtxCreate (r : ReqKey) (s : State) : Host.Outcome State Fault Refusal := .next (s.ctxCreate r)

def execCtxDestroy (r : ReqKey) (s : State) : Host.Outcome State Fault Refusal := .next (s.ctxDestroy r)

def execCtxGrant (r : ReqKey) (s : State) : Host.Outcome State Fault Refusal := .next (s.ctxGrant r)

def execCtxReset (r : ReqKey) (s : State) : Host.Outcome State Fault Refusal := .next (s.ctxReset r)

def execContextResetEnd (ctx : Nat) (s : State) : Host.Outcome State Fault Refusal := .next (s.contextResetEnd ctx)

end Sys2Proof.Machine
end

