-- ==== Sys2Proof/Machine/Faults.lean ====
section
/-! DEFINITION. Failed sites, spare shifts, lost engines, scrubs and clears (03 R83-R87; 07 R198-R203; 11 R317; 12 R350),
with the meanings of PATROL_SCRUB, SITE_FAILURE, SPARE_SHIFT_PAUSE, SPARE_SHIFT_RESUME, ENGINE_CLEAR_END,
WAKE_SCRUB_END, ENGINE_RETIRE, ENGINE_REPAIR and RESET_ACK_TIMEOUT. -/

namespace Sys2Proof.Machine

namespace State

/-- A half-row. -/
def hrow (s : State) (h : Nat) : HalfRow := (s.fb.hrows[h]?).getD HalfRow.reset

/-- Changes a half-row. -/
def updHrow (s : State) (h : Nat) (f : HalfRow → HalfRow) : State :=
  { s with fb := { s.fb with hrows := updAt s.fb.hrows h f } }

/-! ### A lost engine (R203) -/

/-- The user contexts with an allocation on an engine, ascending. -/
def contextsOn (s : State) (le : Nat) : List Nat :=
  ((List.range 255).map (· + 1)).filter fun id => (s.ctx id).state == .live && s.allocatedOn id le

/-- A link whose end is lost carries nothing: its words and transfers go, and entries that drain there are free. -/
def emptyLink (s : State) (l : Nat) : State :=
  let t : State := { s with fb := { s.fb with
    service := s.fb.service.filter fun x => decide (x.link ≠ l)
    links := updAt s.fb.links l fun k => { k with lanes := k.lanes.map fun n => { n with fwd := Way.reset, back := Way.reset } } } }
  (List.range 4).foldl (fun t e =>
    match (s.link l).entries.getD e none with
    | some x => if x.drain then (t.freeOne l e).finishUnload x.model else t
    | none => t) t

/-- Words toward a half without power are discarded (07 R197). -/
def emptyHalf (s : State) (h : Half) : State := (halfLinks h).foldl State.emptyLink s

/-- The links that end at an engine. -/
def linksOf (le : Nat) : List Nat := (List.range 56).filter fun l => Img.endsAt l le

/-- A logical engine is lost: its contexts are reset with cause 0x9 (R203). -/
def loseEngine (s : State) (le : Nat) : State :=
  if s.isLost le ∨ 32 ≤ le then s
  else
    let hit := s.contextsOn le
    let t : State := { s with fb := { s.fb with lost := s.fb.lost.set le true } }
    let t := (t.updHrow (hrowOf le) fun h => { h with lostCol := true }).updSite (s.siteOf le) fun x =>
      { x with retired := x.retired || x.failed, failed := false }
    let t := (linksOf le).foldl State.emptyLink t
    hit.foldl (fun t id => t.moduleReset id 0x9 le 0 0) t

/-! ### The spare shift (R198-R202) -/

/-- The spare site is powered for a shift, its microcode loaded and its stores cleared (order 1; log entry 14). -/
def powerSpare (x : Site) : Site := { driveSite .on x with clearing := false, ucode := true }

/-- A site that a shift has left is retired and OFF (order 7). -/
def retireSite (x : Site) : Site := { driveSite .off x with retired := true, failed := false, ucode := false }

/-- Starts the shift of a half-row from a failed position: the spare site is powered (order 1); from now on runs of the contexts on the half-row hold at their boundaries (order 2). -/
def startShift (s : State) (h pos : Nat) (req : Option ReqKey) : State :=
  (s.updHrow h fun x => { x with shift := some { pos := pos, paused := false, unreadable := [], req := req } }).updSite
    (siteAt h 4) powerSpare

/-- A site has been declared failed: a spare that fails is retired; else the shift starts where the half-row has a spare
and FB_REPCTL.AUTO is 1, and the engine is lost where it has none (R198, R203). While a shift runs in the half-row the
site waits. -/
def handleFailed (s : State) (site : Nat) : State :=
  let h := site / 5
  if (s.hrow h).shift.isSome then s
  else if s.hrow h |>.spareok then (if s.fb.auto then s.startShift h (site % 5) none else s)
  else
    match s.leOf site with
    | some le => s.loseEngine le
    | none => s

/-- A site is declared failed (R198), and recorded in the option store (17 R449). -/
def declareFailed (s : State) (site : Nat) : State :=
  if 40 ≤ site ∨ (s.site site).retired ∨ (s.site site).failed then s
  else
    let t : State := { s with rs := { s.rs with retired := s.rs.retired ||| BitVec.ofNat 40 (2 ^ site) } }
    match s.leOf site with
    | none =>
      let busy := (s.hrow (site / 5)).shift.isSome
      -- a spare that is being shifted onto waits for the end of the shift (Table 7.8)
      if busy then t.updSite site fun x => { x with failed := true }
      else (t.updSite site fun x => { x with retired := true }).updHrow (site / 5) fun h => { h with spareok := false }
    | some _ => (t.updSite site fun x => { x with failed := true }).handleFailed site

/-- The runs of the contexts with an allocation on a half-row's engines. -/
def runsOnRow (s : State) (h : Nat) : List Run :=
  s.runs.filter fun u => (s.model? u.model).any fun m => s.allocatedInRow (idOf m.tag) h

/-- The links that touch a half-row. -/
def rowLinksOf (h : Nat) : List Nat := (List.range 56).filter fun l => (List.range 4).any fun c => Img.endsAt l (4 * h + c)

/-- Every lane that touches a half-row has delivered its last word, and no transfer that has begun is left (order 4). -/
def rowQuiet (s : State) (h : Nat) : Bool := (rowLinksOf h).all s.linkQuiet

/-- Migration control takes the service position of the links of a half-row, ahead of any other transfer (R190; log entry 114). -/
def startMigration (s : State) (h : Nat) : State :=
  { s with fb := { s.fb with service := ((rowLinksOf h).flatMap fun l => [Dir.fwd, Dir.back].map fun d =>
      ({ link := l, dir := d, tag := 0, words := [headWord 0 0], begun := true } : Transfer)) ++ s.fb.service } }

/-- Links that no shift touches any more leave migration control, and their next transfers begin. -/
def endMigration (s : State) : State :=
  let free := (List.range 56).filter fun l => !s.shiftTouches l
  let left := s.fb.service.filter fun x => !(x.tag == 0 && free.contains x.link)
  { s with fb := { s.fb with service := free.foldl (fun q l => beginNext l .back (beginNext l .fwd q)) left } }

/-- Orders 3 to 5: the last request holds, lanes are empty, the shifted columns are copied; words that could not be read
are recorded by their owning contexts. -/
def shiftPause (s : State) (h : Nat) (unreadable : List Nat) : State :=
  match (s.hrow h).shift with
  | none => s
  | some x =>
    if x.paused || !(s.runsOnRow h).all (fun u => !s.turning u) || !s.rowQuiet h then s
    else (s.updHrow h fun r => { r with shift := some { x with paused := true, unreadable := unreadable } }).startMigration h

/-- The contexts that own a word of an engine: the models that hold it, or what holds a word of the scratchpad. -/
def wordOwners (s : State) (le : Nat) (place : ScrubPlace) (addr : Nat) : List Nat :=
  match place with
  | .chain c | .ctxRecord c => [c]
  | .accumulator k => ((s.req? k).map fun r => idOf r.tag).toList
  | .storeCount i _ => ((s.model? i).map fun m => idOf m.tag).toList
  | .scratch | .engineRecord _ => []
  | _ => (s.models.filter fun p => heldWord p.2 le place addr).map fun p => idOf p.2.tag

/-- The contexts that own a word known to be uncorrectable in a shifted column (R201). -/
def badOwners (s : State) (h pos : Nat) : List Nat :=
  ((List.range 4).filter fun c => decide (pos ≤ c)).flatMap fun c =>
    ((s.siteLe (4 * h + c)).badWords.filter fun w => !w.2.2).flatMap fun w => s.wordOwners (4 * h + c) w.1 w.2.1

/-- The other sites of the half-row that were declared failed during the shift are handled with the spare that remains,
which is none (Table 7.8). -/
def nextFailed (s : State) (h : Nat) : State :=
  (List.range 5).foldl (fun t p => if (t.site (siteAt h p)).failed then t.handleFailed (siteAt h p) else t) s

/-- Orders 6 to 8: the shift layer switches, the failed site is retired, held requests resume, and the contexts that
owned unreadable words are reset with cause 0x8 (R199, R201). -/
def shiftResume (s : State) (h pause : Nat) : State :=
  match (s.hrow h).shift with
  | none => s
  | some x =>
    if x.paused = false then s
    else
      let hurt := sortBy (fun a b => decide (a ≤ b)) (x.unreadable ++ s.badOwners h x.pos).eraseDups
      let cols := (List.range 5).filter fun p => decide (x.pos ≤ p)
      let t := cols.foldl (fun t p => t.updSite (siteAt h p) fun y => { y with badWords := [] }) s
      let t := (t.updSite (siteAt h x.pos) retireSite).updHrow h fun r =>
          { r with failpos := x.pos, spareok := false, pauses := satInc 8 r.pauses, lastpause := pause % 65536,
                   shift := none }
      let t := match x.req with
        | some k => t.okReq k (BitVec.ofNat 64 (pause % 65536)) 0
        | none => t
      let t := t.endMigration.resumeRuns.carryResets
      (hurt.foldl (fun t id => t.moduleReset id 0x8 (4 * h) 0 (siteAt h x.pos)) t).nextFailed h

/-! ### A half is ON again (18 R468, R469, R477; 20 R504) -/

/-- Every site of a half that holds a logical engine is ON, cleared or scrubbed, with its microcode. -/
def halfIsOn (s : State) (h : Half) : Bool :=
  (s.halfSites h).all fun i =>
    let x := s.site i
    x.dstate == .on && x.target == .on && !x.clearing && !x.scrub && x.ucode

/-- THERM_TRIP_N goes high once no half is tripped (R477). -/
def dropTrip (s : State) : State :=
  let on := s.pw.halfW == .tripped || s.pw.halfE == .tripped
  { s with pw := { s.pw with
      tripLine := s.pw.tripLine && on, tripSensors := if on then s.pw.tripSensors else [] } }

/-- A half is ON: TRIPPED goes, its Hinges work, and its requests end. -/
def halfOn (s : State) (h : Half) : State :=
  let t := (s.halfSites h).foldl (fun t i => t.updSite i fun x => { x with tripped := false }) s
  (((t.setHalf h .on).parkHinges).dropTrip).endHalfReq h .on

/-- Halves that are to be ON, and the return to ACTIVE that waits for them, go as far as they can; what was held goes on. -/
def settleOn (s : State) : State :=
  let t := [Half.west, Half.east].foldl (fun t h =>
    if (t.pw.halfReq.any fun x => x.1 == h && x.2.1 == .on) && t.halfIsOn h then t.halfOn h else t) s
  let t := match t.pw.entry with
    | some k =>
      if t.pw.mstate = MState.active ∧ t.pw.halfReq = [] then
        ({ t with pw := { t.pw with entry := none } }).okReq k 0 0
      else t
    | none => t
  t.resumeRuns

/-! ### Commands -/

/-- The requests of a context, runs apart, whose entries an engine takes or gives. -/
def requestsOn (s : State) (ctx le : Nat) : List ReqKey :=
  (s.fe.requests.filter fun r => r.running && decide (idOf r.tag = ctx) && s.models.any fun p =>
    bitAt p.2.mask le && r.append.any fun a => decide (a.store = p.1)).map (·.key)

/-- A record's word is written again: from its other copy, or by firmware. -/
def rebuildWord (s : State) (site : Nat) (place : ScrubPlace) (addr : Nat) : State :=
  s.rewriteWords site fun p a => p == place && decide (a = addr)

/-- A word of a site is found uncorrectable, and what Table 3.11 says of its place happens (R83). A word of a slice or of VSCALE
damages the model that holds it (`damageOf`); one that nothing holds is only recorded, until its next allocation writes it; one
of chain memory stops the chain that reads it (`ChainFind`). -/
def badWord (s : State) (site : Nat) (place : ScrubPlace) (addr : Nat) : State :=
  let t := s.noteBadWord site place addr
  match place, s.leOf site with
  | .footprint rblk, some le =>
    match t.rblock? le rblk with
    | some (i, _, b) =>
      match t.runOn i with
      | some u => if decide (b.replica < u.reps) then t.failRun u le 2 b.su addr 0 rblk else t
      | none => t
    | none => t
  | .accumulator k, some le =>
    match t.run? k with
    | some u => t.failRun u le 2 0 addr 0 0
    | none => t
  | .ctxRecord c, some le =>
    let us := t.runs.filter fun u => (t.model? u.model).any fun m => t.ownsModel c m && bitAt m.mask le
    let t := us.foldl (fun t u => t.failRun u le 2 0 addr 0 0) t
    ((t.requestsOn c le).foldl (fun t k => t.faultData k le 2 0 addr 0 0) t).rebuildWord site place addr
  | .engineRecord both, _ | .storeCount _ both, _ =>
    if both then t.declareFailed site else (t.countSramCorr site).rebuildWord site place addr
  | _, _ => t

/-- A patrol read of a word of a site that is ON (R83, R86): a corrected word is counted, and an uncorrectable one
has the effect of Table 3.11. -/
def patrolScrub (s : State) (site : Nat) (place : ScrubPlace) (addr : Nat) (find : ReadFind) : State :=
  if 40 ≤ site ∨ (s.site site).dstate ≠ .on then s
  else
    match find with
    | .corrected => s.countSramCorr site
    | .uncorrectable => s.badWord site place addr
    | _ => s

/-- Three logic-class faults lie within 1,000 ticks (R85). -/
def threeFaults (l : List Nat) : Bool :=
  (List.range l.length).any fun i => decide (i + 2 < l.length) && decide (l.getD (i + 2) 0 ≤ l.getD i 0 + 1000)

/-- An uncorrectable word has recurred after it was rewritten (R85). -/
def recurred (l : List (ScrubPlace × Nat × Bool)) : Bool := l.any fun w => w.2.2 && l.contains (w.1, w.2.1, false)

/-- Firmware declares a site failed (R85). -/
def siteFailure (s : State) (site : Nat) : State :=
  if threeFaults (s.site site).logic || recurred (s.site site).badWords then s.declareFailed site else s

/-- The zero clear of a site ends (12 R350): nothing held before is left. -/
def clearEnd (s : State) (site : Nat) : State :=
  if (s.site site).clearing then (s.updSite site fun x => { x with clearing := false, badWords := [] }).settleOn else s

/-- The scrub pass of a site that woke from RET ends (R87): the words it found uncorrectable are handled as R83 says. -/
def scrubEnd (s : State) (site : Nat) (bad : List (ScrubPlace × Nat)) : State :=
  if (s.site site).scrub then
    ((bad.foldl (fun t w => t.badWord site w.1 w.2) s).updSite site fun x => { x with scrub := false }).settleOn
  else s

/-- Dispatches an ENGINE_RETIRE. -/
def engineRetire (s : State) (k : ReqKey) : State :=
  match s.ready? k Op.engineRetire with
  | none => s
  | some r => (s.declareFailed (r.fld 56 1)).okReq k 0 0

/-- Dispatches an ENGINE_REPAIR: the pending shift of the half-row starts, and its end completes the request. With no
site declared failed there is nothing to repair, and no pause (DESIGN CHOICE, log entry 23). -/
def engineRepair (s : State) (k : ReqKey) : State :=
  match s.ready? k Op.engineRepair with
  | none => s
  | some r =>
    let h := r.fld 56 1
    match (s.hrow h).shift with
    | some x =>
      if x.req.isNone then
        (s.holdReq k (some .spareShift)).updHrow h fun r => { r with shift := some { x with req := some k } }
      else s
    | none =>
      match (List.range 4).find? fun p => (s.site (siteAt h p)).failed with
      | some p => if (s.hrow h).spareok then (s.startShift h p (some k)).holdReq k (some .spareShift) else s.okReq k 0 0
      | none => s.okReq k 0 0

/-- A unit has not acknowledged a reset within 1 ms: its site is declared failed, and the reset waits for the shift or
the loss (11 R317). -/
def ackTimeout (s : State) (id site : Nat) : State :=
  match (s.ctx id).resetting, s.leOf site with
  | some x, some le =>
    if x.noAck.contains site ∨ 40 ≤ site then s
    else
      let t := s.updCtx id fun c => { c with resetting := some { x with noAck := x.noAck ++ [site] } }
      (t.noteContext x.tagBefore 0xA le 0 site).declareFailed site
  | _, _ => s

end State

def execPatrolScrub (site : Nat) (place : ScrubPlace) (addr : Nat) (find : ReadFind) (s : State) :
    Host.Outcome State Fault Refusal :=
  .next (s.patrolScrub site place addr find)

def execSiteFailure (site : Nat) (s : State) : Host.Outcome State Fault Refusal := .next (s.siteFailure site)

def execSpareShiftPause (hrow : Nat) (unreadable : List Nat) (s : State) : Host.Outcome State Fault Refusal :=
  .next (s.shiftPause hrow unreadable)

def execSpareShiftResume (hrow pause10us : Nat) (s : State) : Host.Outcome State Fault Refusal :=
  .next (s.shiftResume hrow pause10us)

def execEngineClearEnd (site : Nat) (s : State) : Host.Outcome State Fault Refusal := .next (s.clearEnd site)

def execWakeScrubEnd (site : Nat) (bad : List (ScrubPlace × Nat)) (s : State) : Host.Outcome State Fault Refusal :=
  .next (s.scrubEnd site bad)

def execEngineRetire (r : ReqKey) (s : State) : Host.Outcome State Fault Refusal := .next (s.engineRetire r)

def execEngineRepair (r : ReqKey) (s : State) : Host.Outcome State Fault Refusal := .next (s.engineRepair r)

def execResetAckTimeout (ctx site : Nat) (s : State) : Host.Outcome State Fault Refusal := .next (s.ackTimeout ctx site)

end Sys2Proof.Machine
end

