-- ==== Sys2Proof/Machine/Links.lean ====
section
/-! DEFINITION. Host and peer links: training, replay, retraining, encryption and link loss (13 R353-R359, R365; 14 R379,
R380, R385, R401), and the Hasp bank (13 R369-R374), with the meanings of HOST_LINK_TRAINING, HOST_LINK_DOWN,
PEER_LINK_DOWN, FLIT_REPLAY_REQUEST, LINK_RETRAIN, LINK_REKEY, HP_HASP_READ, HP_HASP_WRITE and HASP_BREAK. -/

namespace Sys2Proof.Machine

namespace State

/-! ### Keys and options of the links (17 Table 17.6; 19 Table 19.5) -/

/-- A byte of the option block in force. -/
def opt (s : State) (i : Nat) : Nat := field s.rs.option i 1

/-- The number of a host port. -/
def portNo : Port → Nat
  | .a => 0
  | .b => 1

/-- A link key of the key store, while it holds one. -/
def linkKey (s : State) (off : Nat) : Option Bytes :=
  let k := Mem.bytes s.rs.keys off 32
  if k.all (· == 0) then none else some k

/-- The key of a host port. -/
def hostKey (s : State) (p : Port) : Option Bytes := s.linkKey (0x140 + 32 * portNo p)

/-- The key that the peer links of a hierarchy share (14 R380). -/
def peerKey (s : State) : Option Bytes := s.linkKey 0x180

/-- A host port is encrypted (13 R365; never with the settings of recovery mode, 17 R461, R462). -/
def hostEncrypted (s : State) (p : Port) : Bool := !s.rs.rcvPorts && bitAt (s.opt 6) (4 + portNo p)

/-- The widest width that a host port may train at (0 x16, 1 x8, 2 x4), or 3 where it is disabled. -/
def hostWidth (s : State) (p : Port) : Nat := if s.rs.rcvPorts then 2 else bits (s.opt 6) (2 * portNo p) 2

/-- The peer port of a link. -/
def peerPort (l : Nat) : Nat := l / 2

/-- A peer link exists: its port is configured, and the number is not left unused by an x8 link (14 R379). A standalone
module keeps its peer ports in electrical idle (R378). -/
def peerEnabled (s : State) (l : Nat) : Bool :=
  let c := bits (s.opt 7) (2 * peerPort l) 2
  decide (l < 8) && s.pr.role != 0 && ((c == 1 && l % 2 == 0) || c == 2)

/-- A peer link is encrypted (14 R380). -/
def peerEncrypted (s : State) (l : Nat) : Bool := bitAt (s.opt 8) (peerPort l)

/-- The session key and salt of one direction: HKDF-SHA-384 of the link key, the nonces as salt, the direction as info
(13 R365; log entries 12, 13). -/
def sessionKey (key salt : Bytes) (dir : Nat) : BitVec 256 × BitVec 32 :=
  let out := hkdf384 key salt (Config.directionInfo dir) 36
  (BitVec.ofNat 256 (beNat (out.take 32)), BitVec.ofNat 32 (beNat (out.drop 32)))

/-- The session of a link whose ends have exchanged nonces, the first end's first. The module receives in direction 0, from
the first end, when it is the second end. -/
def session (key : Bytes) (first second : BitVec 128) (isFirst : Bool) (epoch : Nat) : LinkSec :=
  let salt := beBytes 16 first.toNat ++ beBytes 16 second.toNat
  let down := sessionKey key salt 0
  let up := sessionKey key salt 1
  let tx := if isFirst then down else up
  let rx := if isFirst then up else down
  { txKey := tx.1, txSalt := tx.2, rxKey := rx.1, rxSalt := rx.2, epoch := epoch }

/-- The session of a host port after an exchange of nonces: none where the link is not encrypted. While no nonce can be drawn there is
no answer (16 R430). -/
def hostSession (s : State) (p : Port) (farNonce : BitVec 128) : Option (Option LinkSec × State) :=
  match s.hostEncrypted p, s.hostKey p with
  | true, some key => (s.drawFw 16).map fun x => (some (session key farNonce (BitVec.ofNat 128 (beNat x.1)) false 1), x.2)
  | _, _ => some (none, s)

/-- The session of a peer link after an exchange of nonces; the end with the lower node ID stands first (log entry 12). -/
def peerSession (s : State) (l peer : Nat) (farNonce : BitVec 128) : Option (Option LinkSec × State) :=
  match s.peerEncrypted l, s.peerKey with
  | true, some key => (s.drawFw 16).map fun x =>
    let near := BitVec.ofNat 128 (beNat x.1)
    (some (if s.pr.nodeid < peer then session key near farNonce true 1 else session key farNonce near false 1), x.2)
  | _, _ => some (none, s)

/-! ### Host ports -/

/-- Training can take place: the link is down or trains or was without its key, REFCLK_LINK runs (21 R514), and the module is not in a low-power state
without links. -/
def mayTrain (s : State) (st : LinkState) : Bool :=
  s.rs.clkLink && (st == .training || st == .down || st == .keyless) && (s.pw.mstate == .active || s.pw.mstate == .standby || s.pw.mstate == .entering)

/-- What both ends have settled in orders 2 to 4 of a training: width, version and session. -/
def trainedPort (s : State) (p : Port) (width version : Nat) (sec : Option LinkSec) : HostPort :=
  { s.port p with
    state := .up, width := max (s.hostWidth p) (min width 2), ver := min version 1, attempts := 0, sec := sec, asked := 0, again := 0 }

/-- A host port has trained (R354 orders 2 to 5). Watches that queues kept while no link was up are installed again (09 R254). -/
def hostUpWith (s : State) (p : Port) (width version base : Nat) (sec : Option LinkSec) : State :=
  let t := s.setPort p { s.trainedPort p width version sec with base := base / 2 ^ 26 * 2 ^ 26 }
  (t.fe.queues.map (·.1)).foldl State.keepWatch t

/-- A challenge lapses, and the Ward returns to CLOSED (19 R488). -/
def lapseChallenge (s : State) : State :=
  if s.dw.state = .challenged then { s with dw := { s.dw with state := .closed, chal := none, chalPort := none } } else s

/-- The Hasps of a port are freed (R372). -/
def freeHasps (s : State) (p : Port) : State :=
  let any := s.hp.hasps.contains (some p)
  let t : State := { s with hp := { s.hp with hasps := s.hp.hasps.map fun h => if h = some p then none else h } }
  match p with
  | .a => { t with hp := { t.hp with downA := true, freedA := t.hp.freedA || any } }
  | .b => { t with hp := { t.hp with downB := true, freedB := t.hp.freedB || any } }

/-- The queues whose watch lies behind a port. -/
def watchedBy (s : State) (p : Port) : List Nat :=
  (s.fe.queues.filter fun q => s.viaPort q.2.home == some p).map (·.1)

/-- The vectors of the newest signal writes that a port has sent. -/
def lastSignals (s : State) (p : Port) (n : Nat) : List Nat :=
  let mine := (s.signals.filter fun x => x.port == p).map (·.vector)
  mine.drop (mine.length - n)

/-- Signal writes that the host had not acknowledged go out again by the other port (R359). -/
def resend (s : State) (p : Port) (vectors : List Nat) : State := vectors.foldl (fun t v => t.sendSignal p v) s

/-- A link-down event of a host port whose link is in a state from then on (R358): its queues move to the other port (09 R253), its
Hasps are freed (R372), a challenge that it took lapses (19 R488), and `unacked` signal writes are sent again (R359). -/
def hostDown (s : State) (p : Port) (h : HostPort) (unacked : Nat) : State :=
  let moved := s.watchedBy p
  let again := s.lastSignals p unacked
  let t := (s.setPort p { h with downs := satInc 8 h.downs, asked := 0, again := 0 }).freeHasps p
  let t := if t.dw.chalPort = some p then t.lapseChallenge else t
  (moved.foldl State.rewatch (t.resend p again)).eventSignal

/-- A training of a host port fails, which is a link-down event (R358); after the third failure the port stays FAILED (R354). -/
def hostTrainFailed (s : State) (p : Port) : State :=
  let h := s.port p
  s.hostDown p { h with attempts := h.attempts + 1, state := if 3 ≤ h.attempts + 1 then .failed else .training } 0

/-- A training of a host port ends (R353, R354). An encrypted port without a key does not train (R365); without a nonce it
waits (16 R430). -/
def hostTraining (s : State) (p : Port) (t : Training) : State :=
  if s.mayTrain (s.port p).state = false ∨ s.hostWidth p = 3 then s
  else if s.hostEncrypted p && (s.hostKey p).isNone then s.setPort p { s.port p with state := .keyless }
  else
    match t with
    | .failed => s.hostTrainFailed p
    | .trained width version base farNonce =>
      match s.hostSession p farNonce with
      | some (sec, t) => t.hostUpWith p width version base sec
      | none => s

/-- A link-down event of a host port that was up (R358). -/
def hostLost (s : State) (p : Port) (unacked : Nat) : State := s.hostDown p { s.port p with state := .down, attempts := 0 } unacked

/-- The host ends the link, or a flit's tag fails (R358, R365). -/
def hostLinkDown (s : State) (p : Port) (tagFail : Bool) (unacked : Nat) : State :=
  if s.linkUp p = false ∨ (tagFail = true ∧ (s.port p).sec = none) then s
  else
    let h := s.port p
    (s.setPort p { h with tagfail := if tagFail then satInc 8 h.tagfail else h.tagfail }).hostLost p unacked

/-! ### Peer links -/

/-- A peer link. -/
def peer (s : State) (l : Nat) : PeerLink := (s.pr.links[l]?).getD PeerLink.reset

/-- Changes a peer link. -/
def updPeer (s : State) (l : Nat) (f : PeerLink → PeerLink) : State :=
  { s with pr := { s.pr with links := updAt s.pr.links l f } }

/-- A peer link carries messages. -/
def peerUp (s : State) (l : Nat) : Bool := (s.peer l).state == .up || (s.peer l).state == .lowPower

/-- The nodes whose route leaves by a link. -/
def nodesBy (s : State) (l : Nat) : List Nat :=
  (List.range 64).filter fun n =>
    let r := (s.pr.routes[n]?).getD Route.reset
    r.valid && !r.here && decide (r.link = l)

/-- The jobs whose routes use a link: a part of the job lies beyond it. On a worker every job has node 0 beyond the parent
link. -/
def jobsBy (s : State) (l : Nat) : List Nat :=
  (s.pr.jobs.filter fun j => (s.nodesBy l).any fun n =>
    j.2.parts.any (fun p => decide (p.1 = n)) || (decide (n = 0) && s.pr.nodeid != 0)).map (·.1)

/-- A link-down event of a peer link: routes through it become UNREACH, and the jobs that use it are aborted (14 R385, R401,
R402). -/
def peerLost (s : State) (l : Nat) : State :=
  let nodes := s.nodesBy l
  let jobs := s.jobsBy l
  let t := s.updPeer l fun x => { x with state := .down, attempts := 0, asked := 0, again := 0 }
  let t : State := { t with pr := { t.pr with
    routes := mapIdxFrom (fun n (r : Route) => if nodes.contains n then { r with unreach := true } else r) 0 t.pr.routes } }
  let t := jobs.foldl (fun t id => t.abortJob id t.pr.nodeid (some l)) t
  (t.pr.jobs.map (·.1)).foldl State.jobDone t

/-- A peer link goes down. -/
def peerLinkDown (s : State) (l : Nat) (tagFail : Bool) : State :=
  if s.peerUp l = false ∨ (tagFail = true ∧ (s.peer l).sec = none) then s else s.peerLost l

/-! ### Replay, retraining and rekeying (13 R356, R357, R365) -/

/-- How many flits a replay from `seq` to the newest one sends again. -/
def replayed (seq newest : BitVec 10) : Nat := (newest - seq).toNat + 1

/-- Flits are asked for again: they are counted, and the run of requests for one flit goes on or begins (R356, R357). -/
def flitReplay (s : State) (l : LinkName) (seq newest : BitVec 10) : State :=
  let n := replayed seq newest
  if 128 < n then s
  else
    match l with
    | .host p =>
      let h := s.port p
      if s.linkUp p then
        s.setPort p { h with
          replay := satAdd 16 h.replay n, asked := seq, again := if h.asked = seq then h.again + 1 else 1 }
      else s
    | .peer i =>
      if s.peerUp i then
        s.updPeer i fun x =>
          { x with replay := satAdd 16 x.replay n, asked := seq, again := if x.asked = seq then x.again + 1 else 1 }
      else s

/-- A retraining after one flit was replayed 8 times in a row, by orders 2 to 4 of Table 13.1, the link staying up; where it fails the
link goes down (R357, R358). -/
def retrain (s : State) (l : LinkName) (tr : Training) (unacked : Nat) : State :=
  match l with
  | .host p =>
    let h := s.port p
    if s.linkUp p && decide (8 ≤ h.again) then
      let t := s.setPort p { h with retrain := satInc 8 h.retrain, again := 0 }
      match tr with
      | .failed => t.hostLost p unacked
      | .trained width version _ farNonce =>
        match t.hostSession p farNonce with
        | some (sec, u) => u.setPort p (u.trainedPort p width version sec)
        | none => s
    else s
  | .peer i =>
    if s.peerUp i && decide (8 ≤ (s.peer i).again) then
      match tr with
      | .failed => s.peerLost i
      | .trained _ _ _ farNonce =>
        match s.peerSession i (s.peer i).peer farNonce with
        | some (sec, u) => u.updPeer i fun x => { x with again := 0, asked := 0, sec := sec }
        | none => s
    else s

/-- New keys of an encrypted link from new nonces. On a peer link the end with the lower node ID stands first (log entry 12). -/
def rekey (s : State) (l : LinkName) (farNonce : BitVec 128) : State :=
  match l with
  | .host p =>
    match (s.port p).sec, s.hostKey p, s.drawFw 16 with
    | some sec, some key, some (n, t) =>
      if s.linkUp p then
        t.setPort p { t.port p with sec := some (session key farNonce (BitVec.ofNat 128 (beNat n)) false (sec.epoch + 1)) }
      else s
    | _, _, _ => s
  | .peer i =>
    match (s.peer i).sec, s.peerKey, s.drawFw 16 with
    | some sec, some key, some (n, t) =>
      if s.peerUp i then
        let near := BitVec.ofNat 128 (beNat n)
        let first := decide (s.pr.nodeid < (s.peer i).peer)
        t.updPeer i fun x =>
          { x with sec := some (if first then session key near farNonce true (sec.epoch + 1)
                                else session key farNonce near false (sec.epoch + 1)) }
      else s
    | _, _, _ => s

/-! ### The Hasp bank (13 R369-R374) -/

/-- A read of a Hasp: a free one is acquired (R369). -/
def haspRead (s : State) (p : Port) (n : Nat) : State :=
  if 64 ≤ n then s
  else
    s.onRead p (0x1100 + 8 * n) fun t =>
      match t.hp.hasps.getD n none with
      | none => ({ t with hp := { t.hp with hasps := t.hp.hasps.set n (some p) } }).answer p (.value 0)
      | some q => t.answer p (.value (pack [(0, 1, 1), (1, 1, portNo q), (2, 1, b2n (q = p))]))

/-- An ignored write of a Hasp is counted (R370). -/
def haspError (s : State) : State := { s with hp := { s.hp with hasperr := satInc 8 s.hp.hasperr } }

/-- A write of a Hasp: 0 by the holder frees it (R370). -/
def haspWrite (s : State) (p : Port) (n : Nat) (v : W64) : State :=
  if 64 ≤ n then s
  else
    s.onWrite p (0x1100 + 8 * n) fun t =>
      if t.hp.hasps.getD n none = some p ∧ v = 0 then { t with hp := { t.hp with hasps := t.hp.hasps.set n none } }
      else t.haspError

/-- A signal write of the event vector on both ports (R373). -/
def eventBoth (s : State) : State :=
  if s.fe.evEn then (s.sendSignal .a s.fe.evVector).sendSignal .b s.fe.evVector else s

/-- A port breaks a Hasp that the other port holds (R373, Table 13.14). -/
def haspBreak (s : State) (p : Port) (v : W64) : State :=
  s.onWrite p 0x1310 fun t =>
    let n := v.toNat % 64
    if bitAt v.toNat 6 = false then t
    else
      match t.hp.hasps.getD n none with
      | some q =>
        if q = p then t.haspError
        else
          ({ t with hp := { t.hp with hasps := t.hp.hasps.set n none, broke := true, lastbrk := n } }).eventBoth
      | none => t.haspError

end State

def execHostLinkTraining (p : Port) (t : Training) (s : State) : Host.Outcome State Fault Refusal :=
  .next (s.hostTraining p t)

def execHostLinkDown (p : Port) (tagFail : Bool) (unacked : Nat) (s : State) : Host.Outcome State Fault Refusal :=
  .next (s.hostLinkDown p tagFail unacked)

def execPeerLinkDown (l : Nat) (tagFail : Bool) (s : State) : Host.Outcome State Fault Refusal :=
  .next (s.peerLinkDown l tagFail)

def execFlitReplayRequest (l : LinkName) (seq newest : BitVec 10) (s : State) : Host.Outcome State Fault Refusal :=
  .next (s.flitReplay l seq newest)

def execLinkRetrain (l : LinkName) (t : Training) (unacked : Nat) (s : State) : Host.Outcome State Fault Refusal :=
  .next (s.retrain l t unacked)

def execLinkRekey (l : LinkName) (farNonce : BitVec 128) (s : State) : Host.Outcome State Fault Refusal :=
  .next (s.rekey l farNonce)

def execHpHaspRead (p : Port) (n : Nat) (s : State) : Host.Outcome State Fault Refusal := .next (s.haspRead p n)

def execHpHaspWrite (p : Port) (n : Nat) (v : W64) (s : State) : Host.Outcome State Fault Refusal :=
  .next (s.haspWrite p n v)

def execHaspBreak (p : Port) (v : W64) (s : State) : Host.Outcome State Fault Refusal := .next (s.haspBreak p v)

end Sys2Proof.Machine
end

