-- ==== Sys2Proof/Machine/Peers.lean ====
section
/-! DEFINITION. Peer links, enumeration and jobs (14 R378-R405), with the meanings of PEER_LINK_TRAINING, ENUM,
ENUM_REPLY, ENUM_REPLY_TIMEOUT, ROUTE, IMAGE, LOADED, RUN, CREDIT, CUFF_SEND, CUFF, PARTIAL, BOUNDARY, RESULT, FAULT,
ABORT, ABORT_DONE, UNLOAD and UNLOADED. A command is the arrival of a message at this module, which passes on what is for another node
(log entry 25). -/

namespace Sys2Proof.Machine

namespace State

/-! ### Enumeration (14 R381-R385) -/

/-- A message of class 0x01 on one link: its first word is 0 for ENUM, 1 for ENUM_REPLY and 2 for ROUTE. -/
def sendOn (s : State) (l : Nat) (words : List Nat) : State :=
  { s with pr := { s.pr with out := s.pr.out ++
      [{ cls := 0x01, link := l, src := s.pr.nodeid, node := (s.peer l).peer, job := 0, gen := 0, words := words, bytes := [] }] } }

/-- ENUM goes out on a link, whose reply is awaited from now. -/
def sendEnum (depth : Nat) (s : State) (l : Nat) : State :=
  let t := s.sendOn l [0, depth]
  { t with pr := { t.pr with awaiting := (t.pr.awaiting.filter fun x => decide (x.1 ≠ l)) ++ [(l, s.now)], state := 1
                             replies := Tbl.erase t.pr.replies l } }

/-- The replies of the subtrees, in ascending link number, each node with the link of this module that leads to it; a child does not
know by which link its parent reached it. -/
def enumerated (s : State) : List (Nat × EnumNode) :=
  s.pr.replies.flatMap fun r => r.2.map fun n => (r.1, if n.depth = s.pr.depth + 1 then { n with link := r.1 } else n)

/-- What the walk of R383 has come to: hints met, the depth of a refused subtree's root, admitted nodes with their links,
and the number of workers not admitted. -/
structure Walk where
  seen     : List Nat
  below    : Option Nat
  admitted : List (Nat × Nat)
  refused  : Nat
  deriving DecidableEq, Repr

/-- One worker of the depth-first walk (R383). -/
def walkOne (w : Walk) (x : Nat × EnumNode) : Walk :=
  if w.below.any fun d => decide (d < x.2.depth) then { w with refused := w.refused + 1, seen := w.seen ++ [x.2.hint] }
  else if x.2.hint = 0 ∨ 3 < x.2.depth ∨ w.seen.contains x.2.hint = true then
    { w with refused := w.refused + 1, below := some x.2.depth, seen := w.seen ++ [x.2.hint] }
  else { w with seen := w.seen ++ [x.2.hint], below := none, admitted := w.admitted ++ [(x.2.hint, x.1)] }

/-- The walk over every reply. -/
def walk (s : State) : Walk := s.enumerated.foldl walkOne { seen := [], below := none, admitted := [], refused := 0 }

/-- A routing table from the links of the nodes admitted; a node that was routed and is not admitted stays UNREACH
(R384, R385). -/
def routesOf (old : List Route) (own : Nat) (ns : List (Nat × Nat)) : List Route :=
  mapIdxFrom (fun n (r : Route) =>
    if n = own then { link := 0, valid := true, here := true, unreach := false }
    else
      match ns.find? fun x => decide (x.1 = n) with
      | some (_, l) => { link := l, valid := true, here := false, unreach := false }
      | none => if r.valid && !r.here then { r with unreach := true } else Route.reset) 0 old

/-- The entry of a worker's table for another admitted node: for a descendant the link of the child that leads to it (R384). -/
def routeItem (s : State) (worker node : Nat) : RouteItem :=
  let ns := s.enumerated.map (·.2)
  let next := ((wayTo node [] ns).dropWhile fun x => decide (x ≠ worker)).drop 1
  { node := node, child := next.head?.bind fun y => (ns.find? fun n => decide (n.hint = y)).map (·.link) }

/-- The words of a ROUTE. -/
def routeWords (items : List RouteItem) : List Nat := 2 :: items.flatMap fun x => [x.node, (x.child.map (· + 1)).getD 0]

/-- The manager builds its table and sends ROUTE to every admitted worker, parents before their children (Table 14.1 orders 4 and
5). -/
def takeIn (s : State) : State :=
  let w := s.walk
  let t : State := { s with pr := { s.pr with
    routes := routesOf s.pr.routes 0 w.admitted, nodes := w.admitted.length + 1, enumerr := min w.refused 255, state := 2 } }
  w.admitted.foldl (fun t x =>
    t.sendPeer 0x01 x.1 0 0 (routeWords (((w.admitted.map (·.1)).filter fun n => decide (n ≠ x.1)).map (s.routeItem x.1))) []) t

/-- Every reply is in: the manager admits, a worker answers its parent (Table 14.1 orders 3 and 4). A worker that R383
refuses for its own hint or depth knows that it is not admitted; any other enumerates until its ROUTE comes. -/
def finishEnum (s : State) : State :=
  if s.pr.awaiting ≠ [] then s
  else if s.pr.role = 1 then s.takeIn
  else
    let t := s.sendOn s.pr.parent ([1, s.pr.nodeid, s.pr.depth, 0] ++ (s.enumerated.map (·.2)).flatMap fun n => [n.hint, n.depth, n.link])
    { t with pr := { t.pr with state := if s.pr.nodeid = 0 ∨ 3 < s.pr.depth then 3 else 1 } }

/-- A link is marked; its reply is no longer awaited. -/
def markLink (s : State) (l kind : Nat) : State :=
  let t := s.updPeer l fun x => { x with kind := kind }
  { t with pr := { t.pr with awaiting := t.pr.awaiting.filter fun x => decide (x.1 ≠ l) } }

/-- ENUM arrives (Table 14.1 order 2). One on another link than the parent's marks the link REDUNDANT, and its reply is no
longer waited for. -/
def enumArrives (s : State) (l depth : Nat) : State :=
  if s.peerUp l = false ∨ s.pr.role = 0 then s
  else if s.pr.role = 2 ∧ (s.pr.parent = 15 ∨ s.pr.parent = l) then
    let t := s.markLink l 1
    let t : State := { t with pr := { t.pr with parent := l, depth := depth + 1, state := 1, awaiting := [], replies := [] } }
    let out := (List.range 8).filter fun i => t.peerUp i && decide (i ≠ l) && (t.peer i).kind != 3
    (out.foldl (sendEnum (depth + 1)) t).finishEnum
  else if s.pr.awaiting.any fun x => decide (x.1 = l) then (s.markLink l 3).finishEnum
  else s.markLink l 3

/-- ENUM_REPLY arrives from a child that was asked, or that has enumerated its subtree again (order 3; R382; log entry 108). -/
def enumReply (s : State) (l : Nat) (nodes : List EnumNode) : State :=
  if (s.pr.awaiting.any (fun x => decide (x.1 = l)) || (s.peer l).kind == 2) && s.peerUp l then
    let t := s.markLink l 2
    ({ t with pr := { t.pr with replies := Tbl.put t.pr.replies l nodes } }).finishEnum
  else s

/-- A child has not answered within 10 ticks: its link is UNUSED (order 3). -/
def enumTimeout (s : State) (l : Nat) : State :=
  if s.pr.awaiting.any fun x => decide (x.1 = l) && decide (x.2 + 10 ≤ s.now) then
    let t := s.markLink l 0
    ({ t with pr := { t.pr with replies := Tbl.erase t.pr.replies l } }).finishEnum
  else s

/-- A message for another node goes on by the link of its route (R384). Without a route it goes nowhere, and is counted as dropped. -/
def passOn (s : State) (cls src node job gen : Nat) (words : List Nat) (bytes : Bytes) : State :=
  let r := (s.pr.routes[node]?).getD Route.reset
  if r.valid && !r.here && !r.unreach then
    { s with pr := { s.pr with out := s.pr.out ++
        [{ cls := cls, link := r.link, src := src, node := node, job := job, gen := gen, words := words, bytes := bytes }] } }
  else { s with pr := { s.pr with stale := satInc 16 s.pr.stale } }

/-- ROUTE arrives: the worker is READY, with a table of every admitted node, or passes it on to the child that leads to the worker that
it is for (R384). -/
def routeArrives (s : State) (l dst : Nat) (items : List RouteItem) : State :=
  if s.pr.role = 2 ∧ s.pr.parent = l ∧ s.peerUp l = true then
    if dst = s.pr.nodeid then
      let ns := items.map fun x => (x.node, x.child.getD l)
      { s with pr := { s.pr with routes := routesOf s.pr.routes s.pr.nodeid (ns ++ [(0, l)]), state := 2 } }
    else s.passOn 0x01 0 dst 0 0 (routeWords items) []
  else s

/-- A peer link has trained: the end nearer to node 0 enumerates what lies beyond it (R382). -/
def enumBeyond (s : State) (l : Nat) : State :=
  if s.pr.role = 1 then sendEnum 0 s l
  else if s.pr.role = 2 ∧ s.pr.parent ≠ 15 ∧ s.pr.parent ≠ l then sendEnum s.pr.depth s l
  else s

/-- A training of a peer link ends (R379, R380). -/
def peerTraining (s : State) (l : Nat) (t : Training) (peer : Nat) : State :=
  if s.peerEnabled l = false ∨ s.mayTrain (s.peer l).state = false then s
  else if s.peerEncrypted l && s.peerKey.isNone then s.updPeer l fun x => { x with state := .keyless }
  else
    match t with
    | .failed => s.updPeer l fun x =>
        { x with attempts := x.attempts + 1, state := if 3 ≤ x.attempts + 1 then .failed else .training }
    | .trained _ _ _ farNonce =>
      match s.peerSession l peer farNonce with
      | none => s
      | some (sec, t) =>
        (t.updPeer l fun x => { x with state := .up, peer := peer % 64, attempts := 0, sec := sec, asked := 0, again := 0 }).enumBeyond l

/-! ### Messages of a job (R386, R387) -/

/-- A message that R387 drops is counted. -/
def dropPeer (s : State) : State := { s with pr := { s.pr with stale := satInc 16 s.pr.stale } }

/-- A message of a job has its effect while its generation is the current one and this module takes part (R387). -/
def onJob (s : State) (id gen : Nat) (f : Job → State) : State :=
  match s.job? id with
  | some j => if gen = s.jobGen id then f j else s.dropPeer
  | none => s.dropPeer

/-- A message of a job that is for another node is passed on, unless this module has the job at another generation (R384, R387). -/
def past (s : State) (cls src node id gen : Nat) (words : List Nat) (bytes : Bytes) : State :=
  if (s.job? id).isSome && decide (gen ≠ s.jobGen id) then s.dropPeer else s.passOn cls src node id gen words bytes

/-- The key of the run of a job's part on a worker: no queue's request bears it, since no queue has generation 0. -/
def partKey (id : Nat) : ReqKey := ⟨BitVec.ofNat 64 id, 0⟩

/-- The words of a LOADED: the node, a status, both result words, and the shape of the part. -/
def loadedWords (node status : Nat) (w0 w1 : W64) (shape : Option PartShape) : List Nat :=
  [node, status, w0.toNat, w1.toNat] ++ (shape.map shapeWords).getD []

/-- LOADED goes to node 0. -/
def sendLoaded (s : State) (id gen status : Nat) (w0 w1 : W64) (shape : Option PartShape) : State :=
  s.sendPeer 0x11 0 id gen (loadedWords s.pr.nodeid status w0 w1 shape) []

/-- The table of a job's parts arrives on a module that the job's messages pass: it reserves the Cuff regions of its links, or answers
that they do not fit; an empty table gives them up (R396; log entry 120). -/
def tableArrives (s : State) (id gen : Nat) (table : List PartShape) : State :=
  if (s.job? id).isSome && decide (gen ≠ s.jobGen id) then s.dropPeer
  else if table.isEmpty then
    match s.job? id with
    | none => s
    | some j =>
      if j.jctx = 0 then { s with pr := { s.pr with jobs := Tbl.erase s.pr.jobs id } }
      else s.updJob id fun j => { j with cuff := [], state := .loading, parts := j.parts.filter fun p => decide (p.node = s.pr.nodeid) }
  else
    match s.cuffShort id table with
    | some x => s.sendLoaded id gen x.status x.w0 x.w1 none
    | none =>
      let t : State := { s with pr := { s.pr with jobGens := Tbl.put s.pr.jobGens id gen } }
      let j := (s.job? id).getD (newJob 0 table.length)
      (t.putJob id { j with parts := table, cuff := s.cuffNeed table, state := .loaded }).sendLoaded id gen Status.ok 0 0 none

/-- The image of a part arrives at its node: the load sequence runs in a job context, and LOADED answers (R390, R391). Its
groups write through host port A (DESIGN CHOICE, log entry 131). -/
def partArrives (s : State) (id gen : Nat) (d : Bytes) : State :=
  match s.job? id with
  | some _ =>
    if gen = s.jobGen id then
      let x := Img.bad 29 2
      s.sendLoaded id gen x.status x.w0 x.w1 none
    else s.dropPeer
  | none =>
    if s.loadWaits (Img.mask d) then s
    else
      let t : State := { s with pr := { s.pr with jobGens := Tbl.put s.pr.jobGens id gen } }
      let ctx := t.highestFree.getD 0
      let g := fullGrant s.pr.peermask.toNat
      let w : LoadFor :=
        { len := d.length, jobField := id + 65536 * gen, charge := t.tagOf ctx, grant := g, owner := t.tagOf ctx,
          fabric := t.tagOf ctx, job := id, nodeZero := false, partOk := Img.node d == s.pr.nodeid, queue := 0,
          homeb := false, common := none, short := t.contextShort }
      match t.loadImage d w with
      | (u, .error x) => u.sendLoaded id gen x.status x.w0 x.w1 none
      | (u, .ok i) =>
        match u.net? i with
        | none => u
        | some n =>
          let shape := partShape s.pr.nodeid n
          let j := withPart (newJob 0 (Img.modules d)) shape none
          ((u.takeJobContext ctx id g).putJob id { j with jctx := ctx, model := some i }).sendLoaded id gen Status.ok 0
            (BitVec.ofNat 64 d.length) (some shape)

/-- IMAGE arrives: a part, or the table of a job's parts; what is for another node is passed on. -/
def imageArrives (s : State) (dst id gen : Nat) (d : Bytes) (table : List PartShape) : State :=
  if dst ≠ s.pr.nodeid then
    s.past 0x10 0 dst id gen (if d.isEmpty then table.length :: table.flatMap shapeWords else []) d
  else if s.pr.role ≠ 2 ∨ id = 0 ∨ gen = 0 then s
  else if d.isEmpty then s.tableArrives id gen table
  else s.partArrives id gen d

/-- The MODEL_LOAD that waits for a part's node. -/
def loadOf (s : State) (id node : Nat) : Option Request :=
  s.fe.requests.find? fun r => r.running && r.op == Op.modelLoad && r.hold == some .peer &&
    r.reads.any fun x => decide (x.1 = id) && decide (x.2.1 = node)

/-- A module has answered the table of a job's parts: the last load ends when every one has reserved its regions, or is refused (R396). -/
def reserved (s : State) (id node status : Nat) (w0 w1 : W64) (v : Reserving) : State :=
  match s.loadOf id v.node with
  | none => s
  | some r =>
    if !v.left.contains node then s
    else if status ≠ Status.ok then ((s.undoPart id v.node).endReq r.key status Stop.none w0 w1 0xFFFF).dropEmptyJob id
    else
      let left := v.left.filter fun n => decide (n ≠ node)
      if left.isEmpty then (s.updJob id fun j => { j with reserving := none, state := .loaded }).okReq r.key v.word0 v.word1
      else s.updJob id fun j => { j with reserving := some { v with left := left } }

/-- LOADED arrives at node 0: the load completes with the worker's status and words, or is refused beside a part that was loaded before
it (R391). A load that was stopped has sent its UNLOAD behind the image. -/
def loaded (s : State) (node id gen status : Nat) (w0 w1 : W64) (shape : Option PartShape) : State :=
  if s.pr.nodeid ≠ 0 then s.past 0x11 node 0 id gen (loadedWords node status w0 w1 shape) []
  else
    s.onJob id gen fun j =>
      if j.state = .aborting then s
      else
        match j.reserving, s.loadOf id node with
        | some v, _ => s.reserved id node status w0 w1 v
        | none, none => s
        | none, some r =>
          if status ≠ Status.ok then
            ((s.updJob id fun j => { j with sent := j.sent.filter fun x => decide (x.1 ≠ node) }).endReq r.key status Stop.none w0 w1
              0xFFFF).dropEmptyJob id
          else
            match shape with
            | none => s
            | some p =>
              let c := (j.sent.find? fun x => decide (x.1 = node)).map (·.2)
              match c.bind fun c => leastOf (differAt j.common c) with
              | some o => ((s.undoPart id node).refuse r.key (Img.bad o 2)).dropEmptyJob id
              | none => (s.putJob id (withPart j { p with node := node } c)).partLoaded r.key id node 0 w1

/-- What a worker reads of a RUN: the run block, the ladder and the schedule (10 Table 10.9). -/
def partSpec (op : Nat) (block ladder sched init : Bytes) : RunSpec :=
  let f := field block
  let reps := ladder.length / 4
  let score := op == Op.score
  let range := !score && bitAt (f 42 2) 2
  let table := words4 sched
  { turns := if score then 0 else f 0 8, target := none, f := if score then 1 else f 16 4, stall := 0, x := 0, m := 0, cap := 0,
    reps := reps, h := 0, klo := if range then f 36 2 else 0, khi := if range then f 38 2 else reps - 1,
    ladder := words4 ladder, sched := (List.range (table.length / 2)).map fun i => (table.getD (2 * i) 0, table.getD (2 * i + 1) 0),
    init := if init.isEmpty then none else some init, stats := 0, output := 0, cont := !score && bitAt (f 42 2) 1 }

/-- A part's partials go to node 0: the turn, whether anything moved, and a value for each replica (R386). -/
def sendPartial (s : State) (id turn : Nat) (moved : Bool) (values : List Int) : State :=
  s.sendPeer 0x15 0 id (s.jobGen id) ([turn, b2n moved] ++ values.map (ofSigned 64)) []

/-- RUN arrives at a part (R393): its start boundary is made, and the partials of the start go to node 0. -/
def runHere (s : State) (id gen op : Nat) (block : Bytes) (seed model : W64) (ladder sched init : Bytes)
    (hems : List (Nat × Nat × Nat)) : State :=
  s.onJob id gen fun j =>
    match j.model.bind s.model?, j.model.bind s.net? with
    | some m, some n =>
      let i := j.model.getD 0
      if s.pr.nodeid = 0 ∨ j.state ≠ .loaded ∨ m.unloading.isSome = true ∨ (s.runOn i).isSome = true ∨
          s.enginesReady m.mask = false then s
      else
        let w := partSpec op block ladder sched init
        let u := newRun (partKey id) i op w seed model
        let sts := startStates n n.imageBytes w.reps w.init
        let n1 := s.startNet m n u model sts hems w.cont
        let n2 := if w.init.isSome then { n1 with valid := mapIdxFrom (fun r v => if r < w.reps then true else v) 0 n1.valid } else n1
        let t := (({ s with runs := s.runs ++ [{ u with lastState := sts, bestState := sts }] }).clearLanes i).startOn m.mask
        match s.damageOf m with
        | some (le, cls, su, addr) => t.failRun u le cls su addr 0 0
        | none =>
          match (t.openCuffs id).startPart u n2 m.mask with
          | .error t2 => t2
          | .ok (t2, tw) => (t2.updRun u.key fun v => { v with barrier := true }).sendPartial id 0 false tw
    | _, _ => s

/-- RUN arrives: at the part that it is for, or on the way to it. -/
def runArrives (s : State) (dst id gen op : Nat) (block : Bytes) (seed model : W64) (ladder sched init : Bytes)
    (hems : List (Nat × Nat × Nat)) : State :=
  if dst = s.pr.nodeid then s.runHere id gen op block seed model ladder sched init hems
  else
    let table := words4 sched
    s.past 0x12 0 dst id gen (runWords op seed model (words4 ladder)
      ((List.range (table.length / 2)).map fun i => (table.getD (2 * i) 0, table.getD (2 * i + 1) 0)) hems) (block ++ init)

/-! ### Cuffs (R396-R399) -/

/-- CREDIT arrives for a turn: it is held, and credit goes on to the links whose words wait for it (R399). -/
def creditArrives (s : State) (l id gen turn : Nat) : State :=
  s.onJob id gen fun _ =>
    (s.updJob id fun j => { j with credits := if j.credits.contains (l, turn) then j.credits else j.credits ++ [(l, turn)] }).grantCredit
      id turn

/-- A hem change as a Cuff word (Table 14.3). -/
def cuffWord (node blk repl d st var : Nat) : W64 :=
  pack [(60, 4, 1), (54, 6, node), (36, 12, blk), (25, 11, repl), (17, 8, d), (13, 4, st), (0, 13, var)]

/-- The turn-end word of a node. -/
def cuffEnd (node turn : Nat) : W64 := pack [(60, 4, 2), (54, 6, node), (0, 13, turn % 8192)]

/-- The source node of a Cuff word, and the source that it names. -/
def cuffNode (w : W64) : Nat := bits w.toNat 54 6
def cuffSource (w : W64) : Nat × Nat × Nat := (cuffNode w, wBlock w, wVar w)

/-- A Cuff word is well formed: a KIND of Table 14.3, and its reserved bits 0 (R397, 00 R7). -/
def cuffOk (w : W64) : Bool := (decide (wKind w = 1) || decide (wKind w = 2)) && decide (bits w.toNat 48 6 = 0)

/-- The words among some that concern a list of sources: their hem changes, and the turn ends of their nodes. -/
def cuffFor (sources : List (Nat × Nat × Nat)) (words : List W64) : List W64 :=
  words.filter fun w =>
    if wKind w = 2 then sources.any fun x => decide (x.1 = cuffNode w) else sources.contains (cuffSource w)

/-- The Cuff words of a turn: the net changes, since the last boundary, of the hem sources with partners in other modules, in ascending
block, variable and replica, and the turn-end word (R398). -/
def cuffWordsOf (s : State) (u : Run) (n : Net) (parts : List PartShape) : List W64 :=
  let mine := ((List.range 8).flatMap fun l => s.outward parts l).filter fun x => decide (x.1 = s.pr.nodeid)
  ((List.range n.blocks.length).flatMap fun k =>
    let b := n.block k
    ((List.range b.n).filter fun v => mine.contains (s.pr.nodeid, k, v)).flatMap fun v =>
      (List.range u.reps).filterMap fun r =>
        let now := ((n.stateOf r).getD k []).getD v 0
        let old := ((u.lastState.getD r []).getD k []).getD v 0
        if now = old then none else some (cuffWord s.pr.nodeid k r (b.scale v).toNat now v)) ++
  [cuffEnd s.pr.nodeid u.turn]

/-- Words go out on a link, toward the lowest of the parts beyond it. -/
def sendCuff (s : State) (id src l : Nat) (words : List W64) : State :=
  if words.isEmpty then s
  else
    { s with pr := { s.pr with out := s.pr.out ++
        [{ cls := 0x14, link := l, src := src, node := (((s.partNodes id).filter fun x => s.beyondLink l x).min?).getD 0x3F, job := id,
           gen := s.jobGen id, words := words.map (·.toNat), bytes := [] }] } }

/-- A part has words of the turn to send, and its units have passed order 1 (R398). -/
def cuffDue (s : State) (j : Job) (u : Run) (n : Net) : Bool :=
  s.turning u && decide (u.stopped = 0) && n.rblocks.all (n.done u) && decide (j.sentTurn = u.turn) && !(s.sendLinks j.parts).isEmpty

/-- A part holds credit for the turn on every link that its words use (R399). -/
def credited (s : State) (j : Job) (u : Run) : Bool := (s.sendLinks j.parts).all fun l => j.credits.contains (l, u.turn)

/-- A module whose units have passed order 1 sends its Cuff words once it holds credit on every link that they use (R398,
R399). -/
def cuffSend (s : State) (id : Nat) : State :=
  match s.job? id with
  | none => s
  | some j =>
    match j.model.bind s.runOn, j.model.bind s.net? with
    | some u, some n =>
      if s.cuffDue j u n && s.credited j u then
        let words := s.cuffWordsOf u n j.parts
        let t := (s.sendLinks j.parts).foldl (fun t l => t.sendCuff id s.pr.nodeid l (cuffFor (s.outward j.parts l) words)) s
        t.updJob id fun j =>
          { j with sentTurn := u.turn + 1, credits := j.credits.filter fun c => decide (u.turn ≤ c.2)
                   granted := j.granted.filter fun c => decide (u.turn ≤ c.2) }
      else s
    | _, _ => s

/-- The turn that words arriving now belong to: the one that runs, or the next once this module waits at its barrier. -/
def cuffTurn (u : Run) : Nat := if u.betas.isEmpty then 0 else if u.barrier then u.turn + 1 else u.turn

/-- Words join their half. -/
def joinCuff (l id turn : Nat) (words : List W64) : List CuffHalf → List CuffHalf
  | [] => [{ link := l, job := id, turn := turn, words := words }]
  | c :: cs =>
    if c.link = l ∧ c.job = id ∧ c.turn = turn then { c with words := c.words ++ words } :: cs else c :: joinCuff l id turn words cs

/-- Cuff words arrive on a link: those that the part here lists are held, and those that parts beyond other links list are copied on
(R384, R398, R399). A message with a word that Table 14.3 does not allow is refused whole (00 R7; log entry 117). -/
def cuffArrives (s : State) (l id gen : Nat) (words : List W64) : State :=
  s.onJob id gen fun j =>
    if !words.all cuffOk then s
    else
      let held := cuffFor (s.wanted j.parts) words
      let t : State := match j.model.bind s.runOn with
        | some u => if held.isEmpty then s else { s with pr := { s.pr with cuffs := joinCuff l id (cuffTurn u) held s.pr.cuffs } }
        | none => s
      ((List.range 8).filter fun o => decide (o ≠ l)).foldl (fun t o =>
        t.sendCuff id ((words.head?.map cuffNode).getD 0) o
          (cuffFor ((s.outward j.parts o).filter fun x => s.beyondLink l x.1) words)) t

/-! ### The barrier (R393; 04 Table 4.2) -/

/-- PARTIAL arrives at node 0: the ladder engine goes on once every part has sent one (R100). One of another turn than the one that node
0 ends is not of this barrier. -/
def partialArrives (s : State) (node id gen turn : Nat) (values : List Int) (moved : Bool) : State :=
  if s.pr.nodeid ≠ 0 then s.past 0x15 node 0 id gen ([turn, b2n moved] ++ values.map (ofSigned 64)) []
  else s.onJob id gen fun j =>
    match j.model.bind s.runOn with
    | none => s
    | some u =>
      if turn ≠ u.turn ∨ u.landing.isSome = true ∨ u.stopped ≠ 0 ∨ u.partials.any (fun p => decide (p.1 = node)) = true then s
      else (s.updRun u.key fun v => { v with partials := v.partials ++ [(node, values, moved)] }).ladderReady u.key

/-- RESULT goes to node 0: a number that says what the bytes are, and the bytes (R394; log entry 25). -/
def sendResult (s : State) (id item : Nat) (bs : Bytes) : State := s.sendPeer 0x17 0 id (s.jobGen id) [s.pr.nodeid, item] bs

/-- The best states of the replicas marked, as image bytes of this part. -/
def sendBest (s : State) (id : Nat) (u : Run) (n : Net) (marks : List Bool) : State :=
  (List.range u.reps).foldl (fun t r =>
    if marks.getD r false then t.sendResult id r (n.renderImage (u.bestState.getD r [])) else t) s

/-- The statistics of a part: Z, M1, M2, and the frozen turns; then the closing RESULT. -/
def sendStats (s : State) (id : Nat) (u : Run) (x : Sums) : State :=
  let frozen := leBytes 8 x.frozenOut ++ (List.range u.reps).flatMap fun r => leBytes 4 (u.frozen.getD r 0)
  let t := if u.opcode = Op.sample then
      ((s.sendResult id 0x10000 (x.z.map (leBytes 8)).flatten).sendResult id 0x10001
        (((x.m1.flatten).flatten).map energy64).flatten).sendResult id 0x10002 (x.m2.map energy64).flatten
    else s
  (t.sendResult id 0x10003 frozen).sendResult id 0x1FFFF []

/-- A part's run ends with the states of its last boundary (10 R283). -/
def endPart (s : State) (id : Nat) (u : Run) (x : Sums) : State :=
  let t := (s.keepStates u.model u.lastState).updNet u.model fun n => { n with sums := x, sampled := n.sampled || decide (u.opcode = Op.sample) }
  (t.sendStats id u x).dropRun u.key

/-- The boundary word reaches the part on this module (Table 4.2 order 7): rungs and schedules of the next turn, the best states of the
replicas marked, or the stop. A stop without a map is a stop within the turn, whose results are those of the last boundary
(R393; 04 R111). A part that a spare shift or its engine halves hold starts its turn when they no longer do. -/
def boundaryHere (s : State) (id : Nat) (b : BoundaryMsg) : State :=
    match s.run? (partKey id) with
    | none => if b.stop then s.closeCuffs id else s
    | some u =>
      match s.net? u.model with
      | none => s
      | some n =>
        if b.stop && b.rungOf.isEmpty then s.endPart id u u.sums
        else if u.barrier = false ∨ u.pause = true then s
        else
          let v := { u with
            turn := b.turn, rungOf := b.rungOf, lastRung := u.rungOf, betas := b.betas, sums := n.sums
            frozen := frozenOf n u.reps, due := some []
            lastState := (List.range u.reps).map n.stateOf
            bestState := (List.range u.reps).map fun r => if b.newBest.getD r false then n.stateOf r else u.bestState.getD r [] }
          let t := (s.updRun u.key fun _ => v).sendBest id v n b.newBest
          if b.stop then t.endPart id v v.sums
          else if (t.boundaryHold v v.turn false).isSome then t.updRun u.key fun x => { x with pause := true }
          else t.goOn u.key

/-- BOUNDARY arrives: it is copied on toward the parts beyond this module, and reaches the part here. -/
def boundaryArrives (s : State) (l id gen : Nat) (b : BoundaryMsg) : State :=
  s.onJob id gen fun _ =>
    (s.sendForked 0x16 id gen (some l) (boundaryWords b.turn b.stop b.rungOf b.betas b.newBest)).boundaryHere id b

/-- Where the bytes of a RESULT belong: region and offset (R394, 04 R112, Table 4.8). -/
def resultPlace (s : State) (m : Model) (n : Net) (u : Run) (node item : Nat) : Option (W64 × Nat) :=
  let parts := s.otherParts m
  let before := parts.filter fun p => decide (p.node < node)
  let image := s.imageBytes m n
  let z := n.blocks.length + (parts.map (·.blocks)).sum
  let m1own := (n.blocks.map fun b => b.n * (if b.spin then 1 else b.q)).sum
  let at1 := 64 + 8 * z
  let at2 := at1 + 8 * (m1own + (parts.map (·.m1)).sum)
  if item < u.reps then some (u.output, bestAtOff u.reps + item * image + n.imageBytes + (before.map (·.bytes)).sum)
  else if item = 0x10000 then some (u.stats, 64 + 8 * (n.blocks.length + (before.map (·.blocks)).sum))
  else if item = 0x10001 then some (u.stats, at1 + 8 * (m1own + (before.map (·.m1)).sum))
  else if item = 0x10002 then some (u.stats, at2 + 8 * (n.pairs.length + (before.map (·.m2)).sum))
  else none

/-- The frozen turns of a part join those of the run. -/
def addFrozen (u : Run) (bs : Bytes) : Run :=
  { u with
    frozen := mapIdxFrom (fun r f => f + field bs (8 + 4 * r) 4) 0 u.frozen
    farOut := u.farOut + field bs 0 8 }

/-- The results of every part are in: a run that has stopped or been cancelled ends. -/
def closeRun (s : State) (k : ReqKey) : State :=
  match s.run? k with
  | none => s
  | some u =>
    match s.model? u.model, s.net? u.model, s.req? k with
    | some m, some n, some r =>
      if (s.partNodes m.job).all fun node => u.partials.any fun p => decide (p.1 = node) then
        match u.landing with
        | some (status, stop, w0, w1) => (((s.writeRun r u m n u.sums).endReq k status stop w0 w1 n.ladder).afterRun u.model).resumeRuns
        | none =>
          if u.stopped = 0 then s
          else ((s.updNet u.model fun n => { n with sums := u.sums }).finishRun k u.stopped).resumeRuns
      else s
    | _, _, _ => s

/-- RESULT arrives at node 0, which writes it to its place (R394). Until every part has sent its closing RESULT, those of
a stopped run are counted in its partials. -/
def resultArrives (s : State) (node id gen item : Nat) (bs : Bytes) : State :=
  if s.pr.nodeid ≠ 0 then s.past 0x17 node 0 id gen [node, item] bs
  else s.onJob id gen fun j =>
    match j.model.bind s.runOn with
    | none => s
    | some u =>
      match s.model? u.model, s.net? u.model, s.req? u.key with
      | some m, some n, some r =>
        if item = 0x1FFFF then
          (s.updRun u.key fun v => { v with partials := v.partials ++ [(node, [], false)] }).closeRun u.key
        else if item = 0x10003 then s.updRun u.key fun v => addFrozen v bs
        else
          match s.resultPlace m n u node item with
          | some (region, off) => s.putOut r region off bs
          | none => s
      | _, _, _ => s

/-- FAULT arrives at node 0: the request fails on every part (R393). -/
def faultArrives (s : State) (node id gen status : Nat) (loc : W64) : State :=
  if s.pr.nodeid ≠ 0 then s.past 0x18 node 0 id gen [node, status, loc.toNat] []
  else s.onJob id gen fun j =>
    match j.model.bind s.runOn with
    | none => s
    | some u =>
      match s.req? u.key with
      | none => s
      | some r =>
        let t := ((s.stopParts u).invalidateKept u.model).noteContext r.tag 0x6 0 0 0
        ((t.updJob id fun j => { j with lastNode := node }).endReq u.key status Stop.none loc 0 0xFFFF).resumeRuns

/-! ### The end of a job (R400-R402) -/

/-- ABORT arrives: it floods on, and a module that holds a part resets its job context; one of another generation is
dropped (R402, Table 14.5). -/
def abortArrives (s : State) (l origin id gen : Nat) : State :=
  let late := (s.jobGen id + 65536 - gen) % 65536
  match s.job? id with
  | some _ => if gen = s.jobGen id then s.abortJob id origin (some l) else s.dropPeer
  | none => if 0 < late ∧ late < 32768 then s.dropPeer else s.floodAbort id gen (some l)

/-- ABORT_DONE arrives at node 0 (R402). -/
def abortDone (s : State) (node id gen : Nat) : State :=
  if s.pr.nodeid ≠ 0 then s.past 0x21 node 0 id gen [node] []
  else s.onJob id gen fun j =>
    if j.state = .aborting then
      (s.updJob id fun j => { j with doneFrom := if j.doneFrom.contains node then j.doneFrom else j.doneFrom ++ [node] }).jobDone id
    else s

/-- UNLOAD arrives at a part (R400), or passes on its way to one, when a module without a part gives up the job's Cuff regions. -/
def unloadArrives (s : State) (dst id gen : Nat) : State :=
  if dst ≠ s.pr.nodeid then
    let t := s.past 0x22 0 dst id gen [] []
    if (s.job? id).any fun j => decide (j.jctx = 0) && decide (gen = s.jobGen id) then t.endJob id else t
  else s.onJob id gen fun j =>
    if s.pr.nodeid = 0 ∨ j.state = .aborting then s
    else
      match j.model with
      | some i => s.beginUnload i [] false
      | none => (s.endJob id).sendPeer 0x22 0 id gen [s.pr.nodeid] []

/-- UNLOADED arrives at node 0: the unload completes when every part has answered (R400). -/
def unloadedArrives (s : State) (node id gen : Nat) : State :=
  if s.pr.nodeid ≠ 0 then s.past 0x22 node 0 id gen [node] []
  else s.onJob id gen fun j =>
    let t := s.updJob id fun j => { j with unloadFrom := j.unloadFrom.filter fun n => decide (n ≠ node) }
    match j.model with
    | some i => t.finishUnload i
    | none => t

end State

def execPeerLinkTraining (l : Nat) (t : Training) (peer : Nat) (s : State) : Host.Outcome State Fault Refusal :=
  .next (s.peerTraining l t peer)

def execEnum (l depth : Nat) (s : State) : Host.Outcome State Fault Refusal := .next (s.enumArrives l depth)

def execEnumReply (l : Nat) (nodes : List EnumNode) (s : State) : Host.Outcome State Fault Refusal := .next (s.enumReply l nodes)

def execEnumReplyTimeout (l : Nat) (s : State) : Host.Outcome State Fault Refusal := .next (s.enumTimeout l)

def execRoute (l dst : Nat) (items : List RouteItem) (s : State) : Host.Outcome State Fault Refusal :=
  .next (s.routeArrives l dst items)

def execImage (dst job gen : Nat) (bytes : List Byte) (table : List PartShape) (s : State) : Host.Outcome State Fault Refusal :=
  .next (s.imageArrives dst job gen bytes table)

def execLoaded (node job gen status : Nat) (w0 w1 : W64) (shape : Option PartShape) (s : State) :
    Host.Outcome State Fault Refusal :=
  .next (s.loaded node job gen status w0 w1 shape)

def execRun (dst job gen opcode : Nat) (runBlock : List Byte) (seed model : W64) (ladder sched init : List Byte)
    (hems : List (Nat × Nat × Nat)) (s : State) : Host.Outcome State Fault Refusal :=
  .next (s.runArrives dst job gen opcode runBlock seed model ladder sched init hems)

def execCredit (l job gen turn : Nat) (s : State) : Host.Outcome State Fault Refusal := .next (s.creditArrives l job gen turn)

def execCuffSend (job : Nat) (s : State) : Host.Outcome State Fault Refusal := .next (s.cuffSend job)

def execCuff (l job gen : Nat) (words : List W64) (s : State) : Host.Outcome State Fault Refusal :=
  .next (s.cuffArrives l job gen words)

def execPartialEnergy (node job gen turn : Nat) (values : List Int) (moved : Bool) (s : State) :
    Host.Outcome State Fault Refusal :=
  .next (s.partialArrives node job gen turn values moved)

def execBoundary (l job gen : Nat) (msg : BoundaryMsg) (s : State) : Host.Outcome State Fault Refusal :=
  .next (s.boundaryArrives l job gen msg)

def execResult (node job gen offset : Nat) (bytes : List Byte) (s : State) : Host.Outcome State Fault Refusal :=
  .next (s.resultArrives node job gen offset bytes)

def execFault (node job gen status : Nat) (locator : W64) (s : State) : Host.Outcome State Fault Refusal :=
  .next (s.faultArrives node job gen status locator)

def execAbort (l origin job gen : Nat) (s : State) : Host.Outcome State Fault Refusal := .next (s.abortArrives l origin job gen)

def execAbortDone (node job gen : Nat) (s : State) : Host.Outcome State Fault Refusal := .next (s.abortDone node job gen)

def execUnload (dst job gen : Nat) (s : State) : Host.Outcome State Fault Refusal := .next (s.unloadArrives dst job gen)

def execUnloaded (node job gen : Nat) (s : State) : Host.Outcome State Fault Refusal := .next (s.unloadedArrives node job gen)

end Sys2Proof.Machine
end

