-- ==== Sys2Proof/Machine/Memory.lean ====
section
/-! DEFINITION. The memory hubs (12 R330-R341) and common SRAM (12 R343-R352), with the meanings of HUB_PATROL_SCRUB,
CHANNEL_FAILURE, PACKAGE_FAILURE, HUB_FAILURE, LPDDR6_ZEROING_END, CSRAM_PLAIN_WRITE, CSRAM_ALIAS_WRITE, CSRAM_ATOMIC,
CSRAM_READ and CSRAM_CLEAR_END. -/

namespace Sys2Proof.Machine

namespace State

/-! ### Hubs -/

/-- The hub of a package works and serves it. -/
def pkgServed (s : State) (k : Nat) : Bool :=
  decide (k < 32) && decide ((if k < 16 then s.hb.hubW else s.hb.hubE) = 2) && ((s.pkg k).state == 0 || (s.pkg k).state == 1)

/-- The units of a package: three channels hold 24 GiB (R328, R339). -/
def packageUnits (p : Package) : Nat := if p.state = 1 then 3 * 2 ^ 28 else 2 ^ 30

/-- The packages are not in self-refresh: the module is ACTIVE, or still on its way to another state, and no core reset runs (R332,
R342). -/
def scrubs (s : State) : Bool := !s.rs.core && (s.pw.mstate == .active || s.pw.mstate == .entering)

/-- A unit that is known to be bad and has not been written since: what the hub placed there is what it read, or nothing had been
given its place back (R331, R337). -/
def stillBad (s : State) (k unit : Nat) (place : UnitPlace) : Option Burst :=
  (s.pkg k).bad.find? fun b => decide (b.unit = unit) && (b.place == place || b.place != .free)

/-- What a patrol read of one unit does (Table 12.4). A unit that stood free and bad, and holds something now, has been written. -/
def scrubUnit (s : State) (k unit : Nat) (read : ScrubRead) : State :=
  match s.stillBad k unit read.place with
  | some b => s.noteBurst b 0
  | none =>
    let t := s.updPkg k (Package.rewriteUnit unit)
    let b : Burst := { pkg := k, unit := unit, place := read.place, double := read.double, atag := read.atag }
    if burstBad b then t.noteBurst b 0 else if read.corrected then t.countBurstCorr k else t

/-- One burst of the patrol scrub (R330, R332). The last unit ends a pass. -/
def hubScrub (s : State) (k unit : Nat) (read : ScrubRead) : State :=
  if s.pkgServed k = false ∨ packageUnits (s.pkg k) ≤ unit ∨ s.scrubs = false then s
  else
    let t := s.scrubUnit k unit read
    if unit + 1 = packageUnits (s.pkg k) then t.updPkg k fun p => { p with passes := satInc 16 p.passes } else t

/-- The models and stores with a region in a package. -/
def modelsIn (s : State) (k : Nat) : List Nat := (s.models.filter fun p => decide (sumAt k p.2.lpddr ≠ 0)).map (·.1)

/-- The contexts with a region or a data-space page in a package. -/
def ctxsIn (s : State) (k : Nat) : List Nat :=
  ((List.range 255).map (· + 1)).filter fun id =>
    (s.modelsIn k).any (fun i => ((s.model? i).map (·.tag)) == some (s.tagOf id)) || !(Tbl.getD (s.ctx id).pages k []).isEmpty

/-- A model whose content is lost is unloaded as in 07 R192; the part of a job is aborted with its job (14 R401). -/
def loseModel (w1 : W64) (le : Nat) (s : State) (i : Nat) : State :=
  match s.model? i with
  | none => s
  | some m => if m.job = 0 then s.dropModel i w1 le else s.abortJob m.job s.pr.nodeid none

/-- The data-space pages of a package are released (R339 order 3). -/
def releasePages (s : State) (k : Nat) : State :=
  { s with cx := { s.cx with ctxs := Tbl.mapVals s.cx.ctxs fun _ c =>
      { c with pages := Tbl.erase c.pages k, space := Tbl.erase c.space k } } }

/-- A package fails: its logical engine is lost (R340). -/
def packageLost (s : State) (k : Nat) : State :=
  if 32 ≤ k ∨ (s.pkg k).state = 2 then s
  else (s.updPkg k fun p => { p with state := 2, zeroing := 0, bad := [], rewritten := [], bursts := [], recurred := [] }).loseEngine k

/-- A hub finds a channel failed: four uncorrectable bursts on it within 1,000 ticks, one that recurred after its unit was rewritten, or
two parity errors of its commands or addresses in a tick, which the command reports (R338). -/
def channelFailed (p : Package) (ch : Nat) (parity : Bool) : Bool :=
  parity || p.recurred.contains ch || decide (4 ≤ (p.bursts.filter fun b => decide (b.1 = ch)).length)

/-- A run writes into the data space of a package. -/
def writesInto (k : Nat) (u : Run) : Bool :=
  [u.output, u.stats].any fun a => decide (a.toNat ≠ 0) && decide (addrSpace a.toNat = 1) && decide (addrLe a.toNat = k)

/-- A run with a transfer in a package that has lost a channel fails on every part (R339 order 2; 14 R393). -/
def failTransfer (k : Nat) (s : State) (u : Run) : State := (s.failParts u).faultMemory u.key k

/-- The highest rate that a package keeps within the cap of the option block (R327). -/
def cappedRate (s : State) (rate : Nat) : Nat := max rate (field s.rs.option 17 1)

/-- A package that has lost one channel: retrained on three, and unclean throughout (R339 orders 4 and 5). -/
def degrade (ch rate : Nat) (p : Package) : Package :=
  { p with
    state := 1, failch := p.failch ||| BitVec.ofNat 4 (2 ^ ch), rate := rate, unclean := true, zeroing := 0
    bad := [], rewritten := [], bursts := [], recurred := [] }

/-- A channel fails (R339): the work of the package fails, its pages go, and it retrains on three channels at the rate
found. A second channel, or none that trains, fails the package (R340). -/
def channelFailure (s : State) (k ch rate : Nat) (parity : Bool) : State :=
  let p := s.pkg k
  if 32 ≤ k ∨ 4 ≤ ch ∨ (p.state ≠ 0 ∧ p.state ≠ 1) ∨ bitAt p.failch.toNat ch = true ∨ channelFailed p ch parity = false then s
  else if p.state = 1 ∨ 3 ≤ rate then
    (s.updPkg k fun p => { p with failch := p.failch ||| BitVec.ofNat 4 (2 ^ ch) }).packageLost k
  else
    let hit := s.ctxsIn k
    let t := (s.runs.filter (writesInto k)).foldl (failTransfer k) s
    let t := (t.modelsIn k).foldl (loseModel 0 k) t
    let t := hit.foldl (fun t id => t.noteContext (t.tagOf id) 0x6 k 0 0) (t.releasePages k)
    (t.eventSignal.resumeRuns).updPkg k (degrade ch (s.cappedRate rate))

/-- A package or a memory group fails (R340). -/
def packageFailure (s : State) (k : Nat) (wholeGroup : Bool) : State :=
  if wholeGroup then (s.packageLost (2 * (k / 2))).packageLost (2 * (k / 2) + 1) else s.packageLost k

/-- A hub fails: the engines of its half are lost (R341). -/
def hubFailed (s : State) (h : Half) : State :=
  let base := if h = .west then 0 else 16
  let hb := match h with
    | .west => { s.hb with hubW := 3 }
    | .east => { s.hb with hubE := 3 }
  if (if h = .west then s.hb.hubW else s.hb.hubE) = 3 then s
  else (List.range 16).foldl (fun t i => t.loseEngine (base + i)) { s with hb := hb }

/-- A unit holds nothing. -/
def isFree (p : UnitPlace) : Bool := p == .free

/-- The zeroing of a package's released or unclean capacity ends: it is written, with good check codes (R331, R337). -/
def zeroingEnd (s : State) (k : Nat) : State :=
  if s.pkgServed k then (s.updPkg k fun p => { p with zeroing := 0, unclean := false }).rewriteUnits k isFree else s

/-! ### Common SRAM -/

/-- Bytes of common SRAM. -/
def csBytes : Nat := 8388608

/-- The mode of the region of an offset (R345). -/
def csMode (s : State) (off : Nat) : MemMode := s.cs.modes.getD (off / 65536) .plain

/-- The window that an address of module space lies in, and its plain offset (R344, Table 12.6). -/
def csWindow (addr : Nat) : Option (CsWindow × Nat) :=
  if addr < 0x01000000 ∨ 0x02800000 ≤ addr then none
  else
    let o := (addr - 0x01000000) % csBytes
    if addr < 0x01800000 then some (.plain, o) else if addr < 0x02000000 then some (.setBits, o) else some (.clearBits, o)

/-- The plain offset of an address of a window. -/
def csOffset (addr : Nat) : Nat := ((csWindow addr).map (·.2)).getD 0

/-- An access of 1 to 64 bytes within one line of a window (13 R366, R367). -/
def csFits (addr len : Nat) : Bool := (csWindow addr).isSome && decide (1 ≤ len) && decide (addr % 64 + len ≤ 64)

/-- An atomic of 4 or 8 naturally aligned bytes in the plain window (R345, Table 12.6). -/
def csAtomicFits (addr size : Nat) : Bool :=
  (size == 4 || size == 8) && decide (addr % size = 0) && (csWindow addr).any fun w => w.1 == .plain

/-- Common SRAM answers a port: its link is up, and the module neither halted nor in recovery mode (17 R455, R461). -/
def csReach (s : State) : Bool := !s.rs.recovery && s.rs.phase != 0xE

/-- The words that an access touches. -/
def csWords (off len : Nat) : List Nat := (List.range ((off + len - 1) / 8 - off / 8 + 1)).map (· + off / 8)

/-- The words of an access that are uncorrectable: those known bad, and the one that the check finds so (R348). -/
def csBad (s : State) (off len : Nat) (find : WordFind) : List Nat :=
  (csWords off len).filter fun w => s.cs.bad.contains w || find == .bad w

/-- A single-bit error is corrected, written back and counted. -/
def csCorrected (s : State) (find : WordFind) : State := if find = .corrected then s.countWordCorr else s

/-- Counts and logs the bad words of an access of a port. -/
def csErrors (s : State) (p : Port) (rmw : Bool) (bad : List Nat) : State := bad.foldl (csError · (p == Port.b) rmw ·) s

/-- A plain write (R345, R346). -/
def csPlainWrite (s : State) (off : Nat) (data : Bytes) : State := s.csStore off data

/-- The new value of a byte under an alias write. -/
def aliasByte (set : Bool) (old v : Byte) : Byte := if set then old ||| v else old &&& ~~~v

/-- An alias write: byte by byte in a BITALIAS region, dropped and counted elsewhere. A bad word stays unchanged (R345,
R348). -/
def csAliasWrite (s : State) (p : Port) (set : Bool) (off : Nat) (data : Bytes) (find : WordFind) (mode : MemMode) : State :=
  if mode ≠ .bitalias then { s with cs := { s.cs with aliasdrop := satInc 8 s.cs.aliasdrop } }
  else
    let bad := s.csBad off data.length find
    let t := (s.csCorrected find).csErrors p true bad
    { t with cs := { t.cs with mem := (List.range data.length).foldl (fun m i =>
        if bad.contains ((off + i) / 8) then m
        else Mem.put m (off + i) (aliasByte set (Mem.read m (off + i)) (data.getD i 0))) t.cs.mem } }

/-- The value that an atomic leaves. -/
def atomicNew (op : AtomicOp) (size old value compare : Nat) : Nat :=
  match op with
  | .fetchAdd => (old + value) % 2 ^ (8 * size)
  | .swap => value % 2 ^ (8 * size)
  | .compareSwap => if old = compare % 2 ^ (8 * size) then value % 2 ^ (8 * size) else old

/-- An atomic: the old value, or an error response where the region is not ATOMIC or the word is bad (R345, R348). -/
def csAtomic (s : State) (p : Port) (op : AtomicOp) (off size : Nat) (value compare : W64) (find : WordFind) (mode : MemMode) :
    State :=
  if mode ≠ .atomic then ({ s with cs := { s.cs with atomrej := satInc 8 s.cs.atomrej } }).answer p .error
  else
    match s.csBad off size find with
    | [] =>
      let old := leNat (Mem.bytes s.cs.mem off size)
      (((s.csCorrected find).csStore off (leBytes size (atomicNew op size old value.toNat compare.toNat)))).answer p
        (.value (BitVec.ofNat 64 old))
    | bad => ((s.csCorrected find).csErrors p true bad).answer p .error

/-- A read through any window (R345, R348). -/
def csRead (s : State) (p : Port) (off len : Nat) (find : WordFind) : State :=
  match s.csBad off len find with
  | [] => (s.csCorrected find).answer p (.data (Mem.bytes s.cs.mem off len))
  | bad => ((s.csCorrected find).csErrors p false bad).answer p .error

/-- A write at its bank, by the window of its address. -/
def csWriteAt (s : State) (p : Port) (addr : Nat) (data : Bytes) (find : WordFind) (mode : MemMode) : State :=
  match csWindow addr with
  | some (.plain, off) => s.csPlainWrite off data
  | some (.setBits, off) => s.csAliasWrite p true off data find mode
  | some (.clearBits, off) => s.csAliasWrite p false off data find mode
  | none => s

/-- An access at its bank, under the mode that its region had when it came there (R347). -/
def csAtBank (s : State) (c : Instr) (mode : MemMode) : State :=
  match c with
  | .csramPlainWrite p addr data => s.csWriteAt p addr data .clean mode
  | .csramAliasWrite p addr data find => s.csWriteAt p addr data find mode
  | .csramAtomic p op addr size value compare find => s.csAtomic p op (csOffset addr) size value compare find mode
  | .csramRead p addr len find => s.csRead p (csOffset addr) len find
  | _ => s

/-- An access reaches its bank, where it is held while common SRAM is cleared (R352). -/
def csHold (s : State) (addr : Nat) (c : Instr) : State :=
  let mode := s.csMode (csOffset addr)
  if s.cs.clearing then { s with cs := { s.cs with held := s.cs.held ++ [{ cmd := c, mode := mode }] } } else s.csAtBank c mode

/-- A write of a port: refused writes are dropped and counted (13 R367). -/
def csWriteBy (s : State) (p : Port) (addr : Nat) (ok : Bool) (c : Instr) : State :=
  if s.linkUp p = false then s
  else if ok && s.csReach then (s.wakeLink p).csHold addr c
  else (s.wakeLink p).dropAccess

/-- A read or an atomic of a port: refused ones get an error response and are counted. -/
def csReadBy (s : State) (p : Port) (addr : Nat) (ok : Bool) (c : Instr) : State :=
  if s.linkUp p = false then s
  else if ok && s.csReach then (s.wakeLink p).csHold addr c
  else (s.wakeLink p).badAccess p

/-- The clear ends: held accesses proceed in the order they came (R352). -/
def csClearEnd (s : State) : State :=
  if s.cs.clearing then
    s.cs.held.foldl (fun t h => t.csAtBank h.cmd h.mode) { s with cs := { s.cs with clearing := false, held := [] } }
  else s

end State

def execHubPatrolScrub (pkg unit : Nat) (read : ScrubRead) (s : State) : Host.Outcome State Fault Refusal :=
  .next (s.hubScrub pkg unit read)

def execChannelFailure (pkg ch rate : Nat) (parity : Bool) (s : State) : Host.Outcome State Fault Refusal :=
  .next (s.channelFailure pkg ch rate parity)

def execPackageFailure (pkg : Nat) (wholeGroup : Bool) (s : State) : Host.Outcome State Fault Refusal :=
  .next (s.packageFailure pkg wholeGroup)

def execHubFailure (h : Half) (s : State) : Host.Outcome State Fault Refusal := .next (s.hubFailed h)

def execLpddr6ZeroingEnd (pkg : Nat) (s : State) : Host.Outcome State Fault Refusal := .next (s.zeroingEnd pkg)

def execCsramPlainWrite (p : Port) (addr : Nat) (data : List Byte) (s : State) : Host.Outcome State Fault Refusal :=
  .next (s.csWriteBy p addr (State.csFits addr data.length) (.csramPlainWrite p addr data))

def execCsramAliasWrite (p : Port) (addr : Nat) (data : List Byte) (find : WordFind) (s : State) :
    Host.Outcome State Fault Refusal :=
  .next (s.csWriteBy p addr (State.csFits addr data.length) (.csramAliasWrite p addr data find))

def execCsramAtomic (p : Port) (op : AtomicOp) (addr size : Nat) (value compare : W64) (find : WordFind) (s : State) :
    Host.Outcome State Fault Refusal :=
  .next (s.csReadBy p addr (State.csAtomicFits addr size) (.csramAtomic p op addr size value compare find))

def execCsramRead (p : Port) (addr len : Nat) (find : WordFind) (s : State) : Host.Outcome State Fault Refusal :=
  .next (s.csReadBy p addr (State.csFits addr len) (.csramRead p addr len find))

def execCsramClearEnd (s : State) : Host.Outcome State Fault Refusal := .next s.csClearEnd

end Sys2Proof.Machine
end

