-- ==== Sys2Proof/Machine/SitePort.lean ====
section
/-! DEFINITION. The site port (15): frames and responders, the timebase, inbound samples and scale records, setpoints and
their gates, discrete inputs, the binding of stream records, and the conversion of samples (06 R158, R166-R170). -/

namespace Sys2Proof.Machine

namespace State

/-! ### Lanes and timebase (R406-R408) -/

/-- A site lane by number. -/
def siteLane (s : State) (l : Nat) : SiteLane := if l = 0 then s.st.lane0 else s.st.lane1

/-- Changes a site lane; there are two. -/
def updSiteLane (s : State) (l : Nat) (f : SiteLane → SiteLane) : State :=
  if l = 0 then { s with st := { s.st with lane0 := f s.st.lane0 } }
  else if l = 1 then { s with st := { s.st with lane1 := f s.st.lane1 } }
  else s

/-- The lane is one of the two and its link is up. -/
def laneUp (s : State) (l : Nat) : Bool := decide (l < 2) && decide ((s.siteLane l).state = 2)

/-- An instant on the timebase: a multiple of 8 ns (R408). -/
def instant (now : Nat) : Nat := now / 8 * 8

/-- The timebase stands at the instant at which a command says it acts (log entry 11). -/
def atInstant (s : State) (now : Nat) : State := { s with st := { s.st with time := instant now } }

/-- The timebase follows the SITE0 port while it is a slave, else SITE1; with neither it runs free, in HOLDOVER once it
has been locked (R408, Table 15.9). -/
def steer (s : State) : State :=
  { s with st := { s.st with tstate :=
      if s.st.lane0.slave then 1 else if s.st.lane1.slave then 2 else if s.st.tstate = 0 then 0 else 3 } }

/-- Counts a discarded frame (R407). -/
def discard (s : State) (l : Nat) : State := s.updSiteLane l fun n => { n with disc := satInc 16 n.disc }

/-- A frame that matches nothing (R407). -/
def frameDiscard (s : State) (l : Nat) : State := if s.laneUp l then s.discard l else s

/-- The number of a responder's frames in the port's output. -/
def responderKind : Responder → Nat
  | .arp => 2
  | .nd => 3
  | .icmp => 4
  | .icmpv6 => 5

/-- A responder answers a request (R406); the answer carries what it answers (log entry 33). -/
def respond (s : State) (l : Nat) (k : Responder) (request : Bytes) : State :=
  if s.laneUp l then
    { s with st := { s.st with out := s.st.out ++ [⟨l, responderKind k, s.st.time, none, request⟩] } }
  else s

/-- A gPTP message makes its lane's port a slave or not, and sets the timebase that follows it (R408). -/
def ptpMessage (s : State) (l : Nat) (slave : Bool) (time : Nat) : State :=
  if s.laneUp l then
    let t := (s.updSiteLane l fun n => { n with slave := slave }).steer
    if t.st.tstate = l + 1 then t.atInstant time else t
  else s

/-- A lane's link goes down: its PTP port leaves the slave state. -/
def siteLaneDown (s : State) (l : Nat) : State :=
  if s.laneUp l then (s.updSiteLane l fun n => { n with state := 1, slave := false }).steer else s

/-- A lane's link comes up, while its reference clock runs (21 Table 21.8). -/
def siteLaneUp (s : State) (l : Nat) : State :=
  if decide (l < 2) && decide ((s.siteLane l).state = 1) && s.rs.clkSite then s.updSiteLane l fun n => { n with state := 2 }
  else s

/-- The lanes that run as PRP LANs and are up. -/
def prpLanes (s : State) : List Nat := (List.range 2).filter fun l => s.laneUp l && (s.siteLane l).prp

/-- A PRP supervision frame leaves on both LANs, under one sequence number, with the lanes' MAC addresses (R406). -/
def prpSupervision (s : State) : State :=
  if s.prpLanes.isEmpty then s
  else
    { s with st := { s.st with
        prpSeq := (s.st.prpSeq + 1) % 65536
        out := s.st.out ++ s.prpLanes.map fun l => ⟨l, 1, s.st.time, some s.st.prpSeq, slice s.rs.option (24 + 6 * l) 6⟩ } }

/-! ### Streams -/

/-- A stream record; a number that was never bound is free. -/
def stream? (s : State) (rec_ : Nat) : Option Stream := Tbl.get? s.st.streams rec_

/-- Changes a stream record. -/
def updStream (s : State) (rec_ : Nat) (f : Stream → Stream) : State :=
  { s with st := { s.st with streams := Tbl.upd s.st.streams rec_ f } }

end State

namespace Stream

/-- A field of the parameter block (Table 15.2). -/
def p (x : Stream) (off n : Nat) : Nat := field x.params off n

/-- Element count V. -/
def width (x : Stream) : Nat := x.p 16 4

/-- Transmit queue of a SETPOINT record. -/
def txq (x : Stream) : Nat := x.p 3 1 % 8

/-- Launch offset. -/
def offset (x : Stream) : Nat := x.p 48 8

/-- The group record of an inbound record, and raw width of an element. -/
def rawWidth (x : Stream) : Nat := rawBytes (bits (x.p 64 1) 1 2)

/-- A frame matches an inbound record: TAGGED state and VLAN ID, UDP port and stream ID are equal (R411). -/
def takes (x : Stream) (f : SiteFrame) : Bool :=
  decide (x.state ≠ 0) && decide (x.kind ≤ 3) && bitAt (x.p 2 1) 0 == f.tagged &&
  (!f.tagged || decide (x.p 4 2 % 4096 = f.vlan)) && decide (x.p 6 2 = f.port) &&
  decide (4 ≤ f.payload.length) && decide (x.p 8 4 = field f.payload 0 4)

end Stream

namespace State

/-! ### Inbound frames (R411-R413, R417) -/

/-- A PRP copy whose other LAN's copy has been taken is removed and counted; the last 1,024 sequence numbers are kept
(R406, R413; log entry 33). -/
def dedup (s : State) (l : Nat) (f : SiteFrame) : State × Bool :=
  match f.prpSeq with
  | none => (s, false)
  | some q =>
    if (s.siteLane l).prp = false then (s, false)
    else
      let other := 2 * q + (1 - l)
      if s.st.prpSeen.contains other then
        (({ s with st := { s.st with prpSeen := s.st.prpSeen.filter fun k => decide (k ≠ other) } } : State).updSiteLane l
          fun n => { n with dup := satInc 16 n.dup }, true)
      else ({ s with st := { s.st with prpSeen := ((2 * q + l) :: s.st.prpSeen).take 1024 } }, false)

/-- The record that a frame matches; of several, the one with the lowest number. -/
def matching (s : State) (f : SiteFrame) : Option (Nat × Stream) := s.st.streams.find? fun p => p.2.takes f

/-- The bytes of an Ethernet frame of a UDP payload, unpadded: Ethernet, VLAN, IP and UDP headers, payload, RCT trailer and
FCS (PRESUMED from the standards of Table 15.1, log entry 33). -/
def etherBytes (tagged ipv6 prp : Bool) (payload : Nat) : Nat :=
  14 + (if tagged then 4 else 0) + (if ipv6 then 40 else 20) + 8 + payload + (if prp then 6 else 0) + 4

/-- The bytes of a received frame. -/
def frameLength (f : SiteFrame) : Nat := etherBytes f.tagged f.ipv6 f.prpSeq.isSome f.payload.length

/-- What a received message comes to before its contents are read: nothing more, or the record that it matches with the
current generation (R407, R411). A frame of more than 9,216 bytes is none that the port implements (R406). -/
def arrive (s : State) (l : Nat) (f : SiteFrame) : State × Option (Nat × Stream) :=
  if s.laneUp l = false then (s, none)
  else if 9216 < frameLength f then ((s.atInstant f.now).discard l, none)
  else
    let (t, again) := (s.atInstant f.now).dedup l f
    if again then (t, none)
    else
      match t.matching f with
      | none => (t.discard l, none)
      | some (n, x) =>
        if x.gen ≠ field f.payload 5 1 then (t.updStream n fun y => { y with stale := satInc 8 y.stale }, none)
        else (t, some (n, x))

/-- The header of a message is bad: a reserved field, or a kind that is not the one expected (Table 15.5). -/
def badHeader (b : Bytes) (kind : Nat) : Bool :=
  decide (b.length < 32) || decide (field b 4 1 ≠ kind) || decide (field b 24 2 / 4 ≠ 0) || decide (field b 28 4 ≠ 0)

/-- Counts a malformed message. -/
def malformed (s : State) (n : Nat) : State := s.updStream n fun y => { y with malform := satInc 8 y.malform }

end State

/-- A sample with no element yet. -/
def Sample.start (seq block v : Nat) : Sample := { seq := seq, block := block, elems := List.replicate v none, stamp := 0 }

/-- A sample takes the elements of a segment, of `w` bytes each. -/
def Sample.take (x : Sample) (first n w : Nat) (raws : Bytes) : Sample :=
  { x with elems := mapIdxFrom (fun i e =>
      if first ≤ i ∧ i < first + n then some (slice raws (w * (i - first)) w) else e) 0 x.elems }

/-- Every element has arrived. -/
def Sample.whole (x : Sample) : Bool := x.elems.all Option.isSome

/-- The raw bytes of a whole sample. -/
def Sample.raws (x : Sample) : Bytes := (x.elems.map fun e => e.getD []).flatten

namespace Stream

/-- A segment that the checks pass: it belongs to the sample under way, or begins one (Table 15.5). `held` samples of the buffer have
been converted and wait for their slots (05 R139). -/
def segment (x : Stream) (seq block first n : Nat) (raws : Bytes) (now held : Nat) : Stream :=
  let old := x.lastSeq.any fun q => decide (seq ≤ q)
  let behind := x.partialS.any fun y => decide (seq < y.seq)
  if old || behind then { x with oldseq := satInc 8 x.oldseq }
  else
    let lost := x.partialS.any fun y => decide (y.seq ≠ seq)
    let cur := match x.partialS with
      | some y => if y.seq = seq then y else Sample.start seq block x.width
      | none => Sample.start seq block x.width
    let next := cur.take first n x.rawWidth raws
    let x1 := if lost then { x with incompl := satInc 8 x.incompl } else x
    if next.whole then
      if x.state = 2 ∨ x.p 12 2 ≤ x.buffer.length + held then
        { x1 with partialS := none, lastSeq := some seq, full := satInc 8 x1.full }
      else
        { x1 with partialS := none, lastSeq := some seq, buffer := x1.buffer ++ [{ next with stamp := State.instant now }] }
    else { x1 with partialS := some next }

end Stream

namespace State

/-- A sample segment arrives (R411-R413). -/
def sampleSegment (s : State) (l : Nat) (f : SiteFrame) : State :=
  match s.arrive l f with
  | (t, none) => t
  | (t, some (n, x)) =>
    let b := f.payload
    let first := field b 12 4
    let count := field b 26 2
    if badHeader b 1 || decide (2 < x.kind) || decide (x.width ≤ first) || decide (x.width < first + count) ||
        decide (b.length < 32 + count * x.rawWidth) then t.malformed n
    else t.updStream n fun y => y.segment (field b 8 4) (field b 6 2) first count (b.drop 32) f.now (t.heldSamples n x)

/-- A site-fed group stops at a tag mismatch: the record reports it until it is bound again, and the samples that it has buffered are
dropped like those still to come (06 R170). -/
def stopStream (s : State) (n : Nat) : State :=
  (s.updGroup (.stream n) fun g => { g with stopped := true }).updStream n fun x =>
    { x with state := 2, full := satAdd 8 x.full x.buffer.length, buffer := [] }

/-- The records of a scale message, in order. -/
def messageRecords (b : Bytes) (count : Nat) : List Bytes := (List.range count).map fun i => slice b (32 + 16 * i) 16

/-- A scale message arrives: its records are queued at the group of the data record, all or none; one that is invalid
makes the message malformed (DEDUCED, log entry 20), one that mismatches stops the group (R417; 06 R168-R170). -/
def scaleRecords (s : State) (l : Nat) (f : SiteFrame) : State :=
  match s.arrive l f with
  | (t, none) => t
  | (t, some (n, x)) =>
    let b := f.payload
    let count := field b 26 2
    if badHeader b 2 || decide (x.kind ≠ 3) || decide (field b 12 4 ≠ 0) || decide (b.length < 32 + 16 * count) then
      t.malformed n
    else
      let data := x.p 56 2
      match t.group? (.stream data) with
      | none => t
      | some g =>
        if g.stopped then t
        else if (messageRecords b count).any fun r => (scaleRecordBad g.chans.length r).isSome then t.malformed n
        else
          match g.queueRecords ((messageRecords b count).map scaleRecord) with
          | .error _ => t.stopStream data
          | .ok g' => t.updGroup (.stream data) fun _ => g'

/-! ### Conversion (06 R158, R166, R170; R414-R416) -/

/-- Stores bytes in host memory, by the home port of a group, or in the data space of its owner. -/
def ownerWrite (s : State) (g : Group) (a : Nat) (bs : Bytes) : State :=
  if addrSpace a = 0 then s.writeHost (if g.homeb then .b else .a) (addrOff a) bs
  else s.writePages (idOf g.tag) a bs

/-- Reads bytes from host memory or from the data space of an owner. -/
def ownerRead (s : State) (tag : BitVec 24) (a n : Nat) : Bytes :=
  if addrSpace a = 0 then Mem.bytes s.host (addrOff a) n
  else Mem.bytes (Tbl.getD (s.ctx (idOf tag)).space (addrLe a) []) (addrOff a) n

/-- The home engine of a group converts now: it accepts work, no shift stands in its half-row, the module is ACTIVE and no
decision of the policy is awaited (06 R172; 07 R200; 18 R466). -/
def converts (s : State) (g : Group) : Bool :=
  !g.awaiting && s.accepts g.le && !s.shiftOver (2 ^ g.le) && s.pw.mstate == .active && !s.fe.fenced

/-- A context's streams and requests are served: LIVE, not fenced, not dumped. -/
def served (s : State) (tag : BitVec 24) : Bool :=
  s.tagLive tag && !(s.ctx (idOf tag)).fenced && (s.ctx (idOf tag)).dump.isNone

/-- A model or store holds an entry on a link. -/
def entryOn (s : State) (i l : Nat) : Bool := (s.link l).entries.any fun e => e.any fun x => decide (x.model = i)

/-- The engines that hold the slices which a stream's converted vectors reach: of a store, or of the block of a model. -/
def streamEngines (s : State) (x : Stream) : List Nat :=
  match s.model? x.target, s.net? x.target with
  | some m, none => enginesOf m.mask
  | _, some n => ((n.places.filter fun p => decide (p.block = x.p 14 2)).map (·.le)).eraseDups
  | none, none => []

/-- Whether a route is left from a group's home engine to each engine of a list (07 R192, R524). -/
def vectorRouted (s : State) (g : Group) (les : List Nat) : Bool := les.all fun le => (s.route g.le le).isSome

/-- A converted vector as whole words: each element in `w` bytes (log entry 121). -/
def vectorBytes (w : Nat) (vs : List Int) : Bytes :=
  let bs := (vs.map fun v => leBytes w (ofSigned (8 * w) v)).flatten
  bs ++ List.replicate (roundUp bs.length 8 - bs.length) 0

/-- A converted vector goes over lane 3 to the engines that hold its slices (06 R158): on a link where the model or store has an entry
within that entry's traffic, and on any other as a transfer of the service position (07 R189). -/
def sendVector (s : State) (i : Nat) (g : Group) (les : List Nat) (bs : Bytes) : State :=
  les.foldl (fun t le => match t.route g.le le with
    | some ls => t.queueTransfer ((walkLinks g.le ls).filter fun x => !t.entryOn i x.1) g.tag bs
    | none => t) s

/-- A converted APPEND sample is appended, with its entry in the timestamp log; a full STOP store drops it (05 R138, R139;
R415). -/
def streamAppend (s : State) (n : Nat) (x : Stream) (g : Group) (elems : List Int) (stamp : Nat) : State :=
  match s.store? x.target with
  | none => s
  | some h =>
    if h.ring = false ∧ h.capacity ≤ h.n then s.updStream n fun y => { y with full := satInc 8 y.full }
    else
      let t := (s.updStore x.target fun h => { h with n := h.n + 1 }).giveEntry x.target (.stream n) h.n elems
      let log := x.p 56 8
      if log = 0 then t
      else (t.ownerWrite g (log + 16 * (x.logNext % 4096)) (leBytes 8 h.n ++ leBytes 8 stamp)).updStream n
        fun y => { y with logNext := y.logNext + 1 }

/-- A converted BIAS sample waits for the boundary that applies it; one for the same block that still waits is superseded,
and counted at its record (R416). -/
def streamBias (s : State) (n : Nat) (x : Stream) (elems : List Int) : State :=
  match s.net? x.target with
  | none => s
  | some m =>
    let k := x.p 14 2
    let b := m.block k
    let per := if b.spin then 1 else b.q
    let w : RowUpdate := { req := none, stream := some n, rows := [], scales := [], release := false
                           biases := (List.range b.n).map fun i => (k, i, (elems.drop (per * i)).take per) }
    let ofBlock := fun (y : RowUpdate) => y.biases.any fun z => decide (z.1 = k)
    let gone := (m.biasHeld.filter ofBlock).filterMap (·.stream)
    gone.foldl (fun t i => t.updStream i fun y => { y with superseded := satInc 8 y.superseded })
      (s.updNet x.target fun m => { m with biasHeld := m.biasHeld.filter (fun y => !ofBlock y) ++ [w] })

/-- The bytes of an element of a group's model format on lane 3. -/
def elemBytes (g : Group) : Nat := if g.mfmt = 3 then 4 else 1

/-- The front sample of a record's buffer is converted (R414), while its vector can travel to its slices. -/
def convertStream (s : State) (n : Nat) (areaOk : Bool) : State :=
  match s.stream? n, s.group? (.stream n) with
  | some x, some g =>
    match x.buffer with
    | [] => s
    | y :: rest =>
      let les := s.streamEngines x
      if x.state ≠ 1 ∨ 2 < x.kind ∨ s.served x.tag = false ∨ s.converts g = false ∨ s.vectorRouted g les = false then s
      else
        let t := s.updStream n fun z => { z with buffer := rest }
        match g.convert y.block y.raws x.width with
        | .error (_, g') => (t.updGroup g.owner fun _ => g').stopStream n
        | .ok (vs, g') =>
          let t := ((t.putGroup g' g.block areaOk).bump (.controller g.le) none 1).sendVector x.target g les
            (vectorBytes (elemBytes g) vs)
          if x.kind = 1 then t.streamAppend n x g vs y.stamp else t.streamBias n x vs
  | _, _ => s

/-- The next raw sample of a request is converted: an entry of an APPEND, or a query of a RETRIEVE. A tag mismatch fails
the request; the positions of an APPEND that are left get the filler (06 R170, 05 R525). -/
def convertRequest (s : State) (k : ReqKey) (areaOk : Bool) : State :=
  match s.req? k with
  | none => s
  | some r =>
    match r.append, r.samples with
    | some a, (number, raws) :: rest =>
      let index := if r.op = Op.append then r.fld 82 2 else r.fld 106 2
      match s.group? (.model a.store index), s.store? a.store with
      | some g, some h =>
        let les := enginesOf (((s.model? a.store).map (·.mask)).getD 0)
        if r.state ≠ .dispatched ∨ s.served r.tag = false ∨ s.converts g = false ∨ s.vectorRouted g les = false then s
        else
          match g.convert number raws h.width with
          | .error (miss, g') =>
            ((s.updGroup g.owner fun _ => g').fillRest k true).endReq k Status.faultQuantTag Stop.none miss.word
              (BitVec.ofNat 64 index) 0xFFFF
          | .ok (vs, g') =>
            let t := (((s.putGroup g' g.block areaOk).bump (.controller g.le) none 1).sendVector a.store g les
              (vectorBytes (elemBytes g) vs)).updReq k fun r => { r with samples := rest }
            if r.op = Op.append then t.appendNext k vs
            else t.updReq k fun r => { r with append := some { a with done := a.done + 1, elems := a.elems ++ [vs] } }
      | _, _ => s
    | _, _ => s

/-- A home engine converts one sample. -/
def sampleConversion (s : State) (src : SampleSource) (areaOk : Bool) : State :=
  match src with
  | .stream n => s.convertStream n areaOk
  | .request k => s.convertRequest k areaOk

/-! ### Binding (R409, R410; 10 R296) -/

/-- The first reserved field of a parameter block that is not 0. -/
def paramReserved (d : Bytes) (len : Nat) : Option Nat :=
  leastOf ((if field d 2 1 / 8 ≠ 0 then [2] else []) ++ (if field d 3 1 / 8 ≠ 0 then [3] else []) ++
    (if 128 ≤ field d 5 1 then [5] else []) ++ uncovered d [] 21 3 ++ uncovered d [] 46 2 ++
    (if field d 0 1 = 3 then []
     else (if field d 64 1 / 64 ≠ 0 then [64] else []) ++ uncovered d [] 65 1 ++ uncovered d [] 78 2 ++ uncovered d [] 88 40 ++
       uncovered d [] (128 + 2 * field d 66 2) (len - (128 + 2 * field d 66 2))))

/-- The bytes of a parameter block: 128 + 2·G, padded to a multiple of 64. -/
def paramLen (head : Bytes) : Nat := if field head 0 1 = 3 then 128 else roundUp (128 + 2 * min (field head 66 2) 4096) 64

/-- A variable list (R418): block and index of each entry. -/
def varList (bs : Bytes) (v : Nat) : List (Nat × Nat) :=
  (List.range v).map fun i => (bits (field bs (4 * i) 4) 13 12, field bs (4 * i) 4 % 8192)

/-- A variable list names variables of the model, and its reserved bits are 0. -/
def varsOk (n : Net) (bs : Bytes) (v : Nat) : Bool :=
  (List.range v).all (fun i => decide (field bs (4 * i) 4 < 2 ^ 25)) &&
  (varList bs v).all fun x => decide (x.1 < n.blocks.length) && decide (x.2 < (n.block x.1).n)

/-- What a target has: its elements and the model format of its group, for a kind (Table 15.3). -/
def paramTarget (s : State) (d : Bytes) (target : Option Nat) : Option (Nat → Bool) × Nat :=
  match field d 0 1, target with
  | 1, some i => match s.store? i with
    | some h => (some fun v => decide (v = h.width), if h.fmt = 1 then 2 else 1)
    | none => (none, 0)
  | 2, some i => match s.net? i with
    | some n =>
      let b := n.block (field d 14 2)
      (some fun v => decide (v = if b.spin then b.n else b.n * b.q), 3)
    | none => (none, 0)
  | 3, none => (some fun v => decide (v = 0), 0)
  | 4, some i => match s.net? i with
    | some _ => (some fun v => decide (1 ≤ v) && decide (v ≤ 4096) && decide (32 + v * rawBytes (bits (field d 64 1) 1 2) ≤ 8960), 4)
    | none => (none, 0)
  | _, _ => (none, 0)

/-- The address at byte 56 is usable: the log of an APPEND record, the data record of a SCALE record, the variable list of
a SETPOINT record. -/
def paramExtra (s : State) (tag : BitVec 24) (d : Bytes) (target : Option Nat) : Bool :=
  let a := field d 56 8
  match field d 0 1 with
  | 1 => decide (a = 0) || s.areaOk tag a 65536
  | 3 =>
    decide (a < 65536) && ((s.stream? a).any fun x => decide (x.state = 1) && decide (x.kind ≤ 2) && x.tag == tag)
  | 4 =>
    match target.bind s.net? with
    | some n => s.areaOk tag a (4 * field d 16 4) && varsOk n (s.ownerRead tag a (4 * field d 16 4)) (field d 16 4)
    | none => false
  | _ => true

/-- The offsets of a parameter block's fields that are out of range; `was` is the record's previous generation. -/
def paramInvalid (s : State) (tag : BitVec 24) (d : Bytes) (target : Option Nat) (was : Nat) (sized : Nat → Bool) (mfmt : Nat) :
    List Nat :=
  let k := field d 0 1
  let x := Img.groupDecl d 64
  let blocks := ((target.bind s.net?).map fun n => n.blocks.length).getD 0
  (if field d 1 1 = 0 ∨ field d 1 1 = was then [1] else []) ++
  (if (if k ≤ 2 then decide (1 ≤ field d 12 2) && decide (field d 12 2 ≤ 64) else field d 12 2 == 0) then [] else [12]) ++
  (if (if k = 2 then decide (field d 14 2 < blocks) else field d 14 2 == 0) then [] else [14]) ++
  (if sized (field d 16 4) then [] else [16]) ++
  (if k = 4 ∧ 1 < field d 20 1 ∧ (s.st.lane0.prp || s.st.lane1.prp) = false then [20] else []) ++
  (if k = 4 ∧ field d 48 8 % 8 ≠ 0 then [48] else []) ++
  (if s.paramExtra tag d target then [] else [56]) ++
  (if k = 3 then uncovered d [] 64 64
   else
    (if x.raw ≤ 2 ∧ x.mfmt = mfmt ∧ x.out = decide (k = 4) then [] else [64]) ++
    (if 1 ≤ x.g ∧ x.g ≤ 4096 then [] else [66]) ++ (if 1 ≤ x.len ∧ x.len ≤ 65536 then [] else [68]) ++
    (if x.vector ≤ 2047 then [] else [76]) ++
    (if decide (x.area.toNat % 64 = 0) && s.areaOk tag x.area.toNat (64 + 16 * x.g) then [] else [80]) ++
    ((List.range (min x.g 4096)).filter fun c => !sc16Valid (x.scales.getD c 0)).map fun c => 128 + 2 * c)

/-- The pages of the sample store that a record's buffer takes. -/
def bufferPages (d : Bytes) : Nat :=
  if field d 0 1 ≤ 2 then ceilDiv (field d 12 2 * field d 16 4 * rawBytes (bits (field d 64 1) 1 2)) 4096 else 0

/-- What a bind needs (R410, 08 R221-R223): channels, the record, buffer bytes. -/
def bindNeeds (s : State) (d : Bytes) (home : Nat) : List Need :=
  let free := 4096 - (s.st.streams.map fun p => p.2.pages).sum
  (if field d 0 1 = 3 then []
   else match findRun (s.channelRuns home) (field d 66 2) with
     | .ok _ => []
     | .error e => [⟨0x0B, home, 0, 0, e, some 0, false⟩]) ++
  [⟨0x0E, 0, 0, 0, 1, none, false⟩] ++
  (if bufferPages d = 0 then [] else [⟨0x14, 0, 0, 0, 4096 * bufferPages d, some (4096 * free), false⟩])

/-- The refusal of a bind for its engine, for a route to the engines that its converted vectors are to reach, or for capacity (07 R192,
R203; 08 R223, R224). -/
def bindRefusal (s : State) (tag : BitVec 24) (d : Bytes) (home : Nat) (les : List Nat) : Option Refuse :=
  let g := (s.ctx (idOf tag)).grant
  if field d 0 1 ≠ 3 ∧ (s.isLost home ∨ s.halfDown home) then some (Refuse.placement (Refuse.report 0x01 false false home 0 0))
  else if field d 0 1 ≤ 2 ∧ (les.all fun le => (s.route home le).isSome) = false then some (routeRefusal home)
  else if field d 0 1 ≠ 3 ∧ bitAt g.mask home = false then
    some (Refuse.grant (Refuse.report 0x01 (s.checkNeeds tag g (s.bindNeeds d home)).isSome false 0 0 0) 1)
  else s.checkNeeds tag g (s.bindNeeds d home)

/-- A record as it is bound; its counts go on. -/
def boundStream (old : Option Stream) (tag : BitVec 24) (queue : Nat) (d : Bytes) (target home : Nat) (vars : List (Nat × Nat)) :
    Stream :=
  let n := fun (f : Stream → Nat) => (old.map f).getD 0
  { state := 1, kind := field d 0 1, gen := field d 1 1, tag := tag, queue := queue, params := d, target := target, home := home,
    pages := bufferPages d, partialS := none, buffer := [], lastSeq := none, logNext := 0, nextSeq := 0,
    stale := n (·.stale), malform := n (·.malform), oldseq := n (·.oldseq), incompl := n (·.incompl), full := n (·.full),
    superseded := n (·.superseded), txfull := n (·.txfull), lateC := n (·.lateC), lastOut := none, vars := vars }

/-- The record takes its owner, target, group and buffers. -/
def bindStream (s : State) (rec_ : Nat) (tag : BitVec 24) (queue : Nat) (homeb : Bool) (d : Bytes) (target home : Nat) : State :=
  let v := field d 16 4
  let vars := if field d 0 1 = 4 then varList (s.ownerRead tag (field d 56 8) (4 * v)) v else []
  let t : State := { s with st := { s.st with
    streams := Tbl.put s.st.streams rec_ (boundStream (s.stream? rec_) tag queue d target home vars) } }
  if field d 0 1 = 3 then t
  else
    match findRun (s.channelRuns home) (field d 66 2) with
    | .ok base => { t with groups := t.groups ++ [newGroup (.stream rec_) tag homeb home base (Img.groupDecl d 64)] }
    | .error _ => t

/-- The entry of the model table that a bind's handle names for the owner: none for handle 0. -/
def bindTarget (s : State) (tag : BitVec 24) (h : Nat) : Except Unit (Option Nat) :=
  if h = 0 then .ok none
  else
    match s.model? (h % 4096) with
    | some m =>
      if (handleOf (h % 4096) m).toNat = h ∧ m.tag = tag ∧ m.loading = false ∧ m.unloading = none ∧ m.gone = false then
        .ok (some (h % 4096))
      else .error ()
    | none => .error ()

/-- The block of a bind is at hand: it is checked and the record bound, or the bind is refused or waits. `s` stands after
the release of a stopped record of the same owner that is bound again. -/
def bindBlock (s : State) (k : ReqKey) (r : Request) (tag : BitVec 24) (rec_ : Nat) (target : Option Nat) (d : Bytes) : State :=
  let refuse := fun (x : Refuse) => s.refuse k x
  match paramReserved d d.length with
  | some o => refuse (Refuse.reserved o 8)
  | none =>
    if field d 0 1 = 0 ∨ 4 < field d 0 1 then refuse (Refuse.field 0 8)
    else
      match s.paramTarget d target with
      | (none, _) => refuse (Refuse.field 64 0)
      | (some sized, mfmt) =>
        match leastOf (s.paramInvalid tag d target (((s.stream? rec_).map (·.gen)).getD 0) sized mfmt) with
        | some o => refuse (Refuse.field o 8)
        | none =>
          let home := r.fld 80 1
          let t := if ((s.stream? rec_).any fun x => decide (x.state = 2)) then s.releaseStream rec_ else s
          match t.bindRefusal tag d home (t.streamEngines (boundStream none tag r.queue d (target.getD 0) home [])) with
          | some x => refuse x
          | none =>
            let homeb := ((s.queue? r.queue).map (·.homeb)).getD false
            (t.bindStream rec_ tag r.queue homeb d (target.getD 0) home).okReq k (BitVec.ofNat 64 rec_) 0

/-- What a bind meets in reading its block, and for a SETPOINT record the variable list in its owner's memory. -/
def bindMet (s : State) (r : Request) (tag : BitVec 24) (d : Bytes) (len : Nat) (source : SourceFind) : State × Met :=
  match s.sourceMet r [(r.fld 72 8, len)] source with
  | (t, .clean) =>
    if field d 0 1 = 4 then t.sourceMet { r with tag := tag } [(field d 56 8, 4 * field d 16 4)] source else (t, .clean)
  | x => x

/-- A record may be bound by an owner: free, or stopped and its own. -/
def recordFree (s : State) (rec_ : Nat) (tag : BitVec 24) : Bool :=
  match s.stream? rec_ with
  | none => true
  | some x => decide (x.state = 0) || (decide (x.state = 2) && x.tag == tag)

/-- Dispatches a SITE_BIND that binds. -/
def siteBind (s : State) (k : ReqKey) (source : SourceFind) : State :=
  match s.ready? k Op.siteBind with
  | none => s
  | some r =>
    let tag := payloadTag r
    let rec_ := r.fld 60 4
    let home := r.fld 80 1
    if bitAt (r.fld 59 1) 0 then s
    else if s.tagLive tag = false then s.refuse k (Refuse.field 56 0)
    else if s.recordFree rec_ tag = false then s.refuse k (Refuse.field 60 0)
    else
      match s.bindTarget tag (r.fld 64 8), s.reachOk r (r.fld 72 8) 128 false with
      | .error _, _ => s.refuse k (Refuse.field 64 0)
      | .ok _, .error st => s.refuse k (accessRefuse r st 72 0)
      | .ok target, .ok _ =>
        if s.transferUp (r.fld 72 8) = false then s
        else
          let len := paramLen (s.readSpace r (r.fld 72 8) 128)
          match s.reachOk r (r.fld 72 8) len false with
          | .error st => s.refuse k (accessRefuse r st 72 0)
          | .ok _ =>
            let d := s.readSpace r (r.fld 72 8) len
            if field d 0 1 ≠ 3 ∧ (s.shiftOver (2 ^ home) ∨
                (s.isLost home = false ∧ s.halfDown home = false ∧ bitAt (s.ctx (idOf tag)).grant.mask home = true ∧
                  s.accepts home = false)) then s
            else
              match s.bindMet r tag d len source with
              | (t, .clean) => t.bindBlock k r tag rec_ target d
              | (t, met) => t.failMet k met

/-- Dispatches a SITE_BIND that unbinds: the record of the owner is released (R410). -/
def siteUnbind (s : State) (k : ReqKey) : State :=
  match s.ready? k Op.siteBind with
  | none => s
  | some r =>
    let tag := payloadTag r
    let rec_ := r.fld 60 4
    if bitAt (r.fld 59 1) 0 = false then s
    else if s.tagLive tag = false then s.refuse k (Refuse.field 56 0)
    else if (s.stream? rec_).any fun x => decide (x.state ≠ 0) && x.tag == tag then
      (s.releaseStream rec_).okReq k (BitVec.ofNat 64 rec_) 0
    else s.refuse k (Refuse.field 60 0)

/-! ### Setpoints (R418-R420) -/

/-- The value of a listed variable in a state of a model: ±1 for a spin, the state of a Potts variable. -/
def listed (n : Net) (st : List (List Nat)) (x : Nat × Nat) : Int :=
  let v := (st.getD x.1 []).getD x.2 0
  if (n.block x.1).spin then spinOf v else v

/-- The lanes that a record's setpoints leave on: both under PRP. -/
def txLanes (s : State) (x : Stream) : List Nat :=
  if s.st.lane0.prp || s.st.lane1.prp then [0, 1] else [x.p 20 1]

/-- A SETPOINT record forms a setpoint for a run that has completed at T_c, at the instant `formed` (R418-R420). -/
def formSetpoint (tc formed : Nat) (areaOk : Bool) (net : Net) (st : List (List Nat)) (s : State) (n : Nat) : State :=
  match s.stream? n, s.group? (.stream n) with
  | some x, some g =>
    let (raws, block, g') := g.convertResult (x.vars.map (listed net st))
    let t := (s.putGroup g' g.block areaOk).updStream n fun y => { y with nextSeq := (y.nextSeq + 1) % 2 ^ 32 }
    let launch := roundUp tc 8 + x.offset
    let late := decide (launch < instant formed)
    if late && !bitAt (x.p 2 1) 2 then t.updStream n fun y => { y with lateC := satInc 8 y.lateC }
    else if 4096 ≤ t.st.setpoints.length then t.updStream n fun y => { y with txfull := satInc 8 y.txfull }
    else
      let lanes := t.txLanes x
      let prp := decide (1 < lanes.length)
      let y : Setpoint :=
        { recNo := n, seq := x.nextSeq, launch := launch, block := block, late := late, raws := raws, lanes := lanes,
          rct := if prp then some t.st.prpSeq else none }
      { t with st := { t.st with
          setpoints := t.st.setpoints ++ [y]
          prpSeq := if prp then (t.st.prpSeq + 1) % 65536 else t.st.prpSeq } }
  | _, _ => s

/-- The SETPOINT records bound to a model. -/
def setpointRecords (s : State) (i : Nat) : List Nat :=
  (s.st.streams.filter fun p => decide (p.2.state = 1) && decide (p.2.kind = 4) && decide (p.2.target = i)).map (·.1)

/-- A conversion of a setpoint on a model waits for a decision of the policy (06 R172). -/
def setpointsWait (s : State) (i : Nat) : Bool :=
  (s.setpointRecords i).any fun n => (s.group? (.stream n)).any (·.awaiting)

/-- The setpoints of a SOLVE or SCORE that completes with OK (R418). -/
def formSetpoints (s : State) (r : Request) (tc formed : Nat) (areaOk : Bool) : State :=
  match r.best with
  | some (i, st) =>
    match s.net? i with
    | some net =>
      if r.status = Status.ok ∧ (r.op = Op.solve ∨ r.op = Op.score) then
        (s.setpointRecords i).foldl (formSetpoint tc formed areaOk net st) s
      else s
    | none => s
  | none => s

/-! ### Gates (Table 15.15, R420) -/

/-- The entries of a gate list up to LAST, as gates and interval. -/
def cycleOf : List (Byte × Bool × BitVec 32) → List (Nat × Nat)
  | [] => []
  | (g, last, i) :: rest => (g.toNat, i.toNat) :: if last then [] else cycleOf rest

/-- The entry of a cycle at a position, and how far its end lies. -/
def entryAt : Nat → List (Nat × Nat) → Nat → Nat × Nat
  | k, [], _ => (k, 0)
  | k, (_, n) :: rest, pos => if pos < n then (k, n - pos) else entryAt (k + 1) rest (pos - n)

/-- An interval of a lane's gate list ends: the entry of the cycle at this instant comes into force (base time 0). -/
def gateListEntry (s : State) (l now : Nat) : State :=
  if 2 ≤ l then s
  else
    let cycle := cycleOf (s.siteLane l).gcl
    let total := (cycle.map (·.2)).sum
    let t := s.atInstant now
    if total = 0 then t.updSiteLane l fun n => { n with gclAt := 0, gclNext := instant now }
    else
      let (k, left) := entryAt 0 cycle (instant now % total)
      t.updSiteLane l fun n => { n with gclAt := k, gclNext := instant now + left }

/-- How long a queue's gate stays open through the entries that follow, or for ever. -/
def openFor (q : Nat) : List (Nat × Nat) → Nat → Option Nat
  | [], _ => none
  | (g, n) :: rest, sum => if bitAt g q then openFor q rest (sum + n) else some sum

/-- The instant at which a queue's gate of a lane next closes: none when it never does, and the present instant when it is
shut now. -/
def gateCloses (n : SiteLane) (q now : Nat) : Option Nat :=
  let cycle := cycleOf n.gcl
  match cycle[n.gclAt]? with
  | none => some now
  | some (g, _) =>
    if bitAt g q then (openFor q (cycle.drop (n.gclAt + 1) ++ cycle.take n.gclAt) 0).map (· + n.gclNext) else some now

/-- The bytes of a setpoint's frame on the wire with preamble and inter-frame gap (log entry 33). -/
def wireBytes (x : Stream) (payload : Nat) (prp : Bool) : Nat :=
  20 + max 64 (etherBytes (bitAt (x.p 2 1) 0) (bitAt (x.p 2 1) 1) prp payload)

/-- The UDP payload of a setpoint (Table 15.4). -/
def setpointPayload (x : Stream) (y : Setpoint) (now : Nat) (holdover : Bool) : Bytes :=
  leBytes 4 (x.p 8 4) ++ [3] ++ leBytes 1 x.gen ++ leBytes 2 y.block ++ leBytes 4 y.seq ++ leBytes 4 0 ++ leBytes 8 now ++
  leBytes 2 (b2n holdover + 2 * b2n y.late) ++ leBytes 2 x.width ++ leBytes 4 0 ++ y.raws

/-- The setpoint of a queue that leaves first on a lane: in order of L, then of sequence number. -/
def headOf (s : State) (l q : Nat) : Option Setpoint :=
  let mine := s.st.setpoints.filter fun y => y.lanes.contains l && (s.stream? y.recNo).any fun x => decide (x.txq = q)
  (sortBy (fun a b => decide (a.launch < b.launch) || (a.launch == b.launch && decide (a.seq ≤ b.seq))) mine).head?

/-- The head of a queue may leave now: L has come, the gate is open, the lane idle, and the frame ends before the gate
closes (R420). One byte takes 0.32 ns. -/
def maySend (s : State) (l q now : Nat) : Option (Setpoint × Stream × Nat) :=
  match s.headOf l q with
  | none => none
  | some y =>
    match s.stream? y.recNo with
    | none => none
    | some x =>
      let n := s.siteLane l
      let done := 100 * now + 32 * wireBytes x (32 + y.raws.length) y.rct.isSome
      let inGate := match gateCloses n q now with
        | none => true
        | some c => decide (now < c) && decide (done ≤ 100 * c)
      if y.launch ≤ now ∧ n.busyTill ≤ 100 * now ∧ inGate = true then some (y, x, done) else none

/-- The first element of a setpoint, as its raw bits. -/
def firstRaw (x : Stream) (y : Setpoint) : Nat := field y.raws 0 x.rawWidth

/-- The pending setpoint that may leave first is transmitted: of several queues, the one with the highest number
(PRESUMED from IEEE 802.1Q, log entry 33). -/
def setpointSend (s : State) (l now : Nat) : State :=
  if s.laneUp l = false then s
  else
    let t := s.atInstant now
    let at_ := instant now
    match [7, 6, 5, 4, 3, 2, 1, 0].findSome? fun q => t.maySend l q at_ with
    | none => t
    | some (y, x, done) =>
      let bytes := setpointPayload x y at_ (decide (t.st.tstate = 3))
      let left := y.lanes.filter fun m => decide (m ≠ l)
      ((({ t with st := { t.st with
          out := t.st.out ++ [⟨l, 0, at_, y.rct, bytes⟩]
          setpoints := t.st.setpoints.filterMap fun z =>
            if z = y then (if left.isEmpty then none else some { z with lanes := left }) else some z } } : State).updSiteLane l
        fun n => { n with busyTill := done }).updStream y.recNo fun z => { z with lastOut := some (firstRaw x y) })

/-! ### Discrete inputs (R422) -/

/-- An edge of a discrete input is timestamped, and signalled where it is enabled. -/
def siteDiEdge (s : State) (bit : Nat) (level : Bool) (now : Nat) : State :=
  if 8 ≤ bit ∨ bitAt s.st.diLevel.toNat bit = level then s
  else
    let m : Byte := BitVec.ofNat 8 (2 ^ bit)
    let t := s.atInstant now
    let t : State := { t with st := { t.st with
      diLevel := if level then t.st.diLevel ||| m else t.st.diLevel &&& ~~~m
      diLast := bit, diEdge := true, diTs := BitVec.ofNat 44 (now / 8) } }
    if bitAt t.st.diEdgeEn.toNat bit then t.eventSignal else t

end State

def execSampleSegment (lane : Nat) (f : SiteFrame) (s : State) : Host.Outcome State Fault Refusal :=
  .next (s.sampleSegment lane f)

def execScaleRecords (lane : Nat) (f : SiteFrame) (s : State) : Host.Outcome State Fault Refusal :=
  .next (s.scaleRecords lane f)

def execResponderFrame (lane : Nat) (k : Responder) (request : List Byte) (s : State) : Host.Outcome State Fault Refusal :=
  .next (s.respond lane k request)

def execFrameDiscard (lane : Nat) (s : State) : Host.Outcome State Fault Refusal := .next (s.frameDiscard lane)

def execPtpMessage (lane : Nat) (slave : Bool) (time : Nat) (s : State) : Host.Outcome State Fault Refusal :=
  .next (s.ptpMessage lane slave time)

def execPrpSupervision (s : State) : Host.Outcome State Fault Refusal := .next s.prpSupervision

def execSetpointSend (lane now : Nat) (s : State) : Host.Outcome State Fault Refusal := .next (s.setpointSend lane now)

def execGateListEntry (lane now : Nat) (s : State) : Host.Outcome State Fault Refusal := .next (s.gateListEntry lane now)

def execSiteDiEdge (bit : Nat) (level : Bool) (now : Nat) (s : State) : Host.Outcome State Fault Refusal :=
  .next (s.siteDiEdge bit level now)

def execSiteLaneDown (lane : Nat) (s : State) : Host.Outcome State Fault Refusal := .next (s.siteLaneDown lane)

def execSiteLaneUp (lane : Nat) (s : State) : Host.Outcome State Fault Refusal := .next (s.siteLaneUp lane)

def execSampleConversion (src : SampleSource) (areaOk : Bool) (s : State) : Host.Outcome State Fault Refusal :=
  .next (s.sampleConversion src areaOk)

def execSiteBind (r : ReqKey) (source : SourceFind) (s : State) : Host.Outcome State Fault Refusal := .next (s.siteBind r source)

def execSiteUnbind (r : ReqKey) (s : State) : Host.Outcome State Fault Refusal := .next (s.siteUnbind r)

end Sys2Proof.Machine
end

