-- ==== Sys2Proof/Machine/Reset.lean ====
section
/-! DEFINITION. The reaches C, S and P and the low-power states (17 R442-R448, R463; 13 R375, R376; 14 R401; 16 R441; 18 R465),
with the meanings of NRST_ASSERT, NRST_ESCALATION, NRST_RELEASE, RAIL_FAIL and P_RELEASE. -/

namespace Sys2Proof.Machine

/-- A context after a reset that frees every ID: its generation and its count of resets stay (17 Table 17.11; 11 Table
11.16). -/
def Ctx.freed (c : Ctx) : Ctx := { Ctx.reset with gen := c.gen, resets := c.resets }

/-- A site after a core reset: OFF and cleared, but for what 03 Table 3.13 and 18 Table 18.13 spare. -/
def Site.coreReset (x : Site) : Site :=
  { Site.reset with
    retired := x.retired, failed := x.failed, tripped := x.tripped, trans := x.trans, tj := x.tj, vcap := x.vcap }

/-- A link after a core reset: nothing under way or owned, lanes that were disabled stay so (07 R192). -/
def Link.coreReset (l : Link) : Link :=
  { Link.reset with lanes := l.lanes.map fun n => { Lane.reset with disabled := n.disabled } }

/-- A package after a core reset: trained as before, its contents kept, all capacity unclean (12 R342). -/
def Package.coreReset (p : Package) : Package :=
  { p with unclean := true, zeroing := 0, corr := 0, uncorr := 0, tagerr := 0, bad := p.bad.map fun b => { b with place := .free } }

/-- The Ward after a reset of any reach: a challenge lapses (19 R488). -/
def Dw.lapsed (d : Dw) : Dw :=
  { d with
    state := if d.state = .challenged then .closed else d.state
    op := 0, close := false, status := 0, addr := 0, chal := none, chalTick := 0, chalPort := none
    resp := List.replicate 12 0 }

/-- The management block after a core reset: firmware is to be loaded again, the causes and the tick stay. -/
def Mg.coreReset (m : Mg) : Mg :=
  { m with
    fwRun := 0, fwNor := 0, ucif := 0, nordiff := false, fwOp := 0, fwStatus := 0, fwSver := 0, fwAddr := 0, fwLen := 0
    staged := none, running := none }

/-- The reset controller after a core reset. -/
def Rs.coreReset (r : Rs) : Rs :=
  { r with
    phase := 1, halt := 0, recovery := false, optStatus := 0, optCopy := false, rcvAddr := 0, rcvLen := 0, rcvOp := 0
    rcvStatus := 0, core := true, ready := false, alert := true }

/-- Host port registers after a core reset: links, Hasps and events stay (Table 13.7). -/
def Hp.coreReset (h : Hp) : Hp :=
  { h with rwldrop := false, rwlPort := none, rwlOff := 0, hasperr := 0, badacc := 0, cachereq := 0 }

/-- Power registers after a core reset (Tables 18.9 to 18.12). -/
def Pw.coreReset (p : Pw) : Pw :=
  { p with mstate := .active, selA := 0, selB := 0, selS := 0, entry := none, stbyW := false, stbyE := false, halfReq := [] }

/-- Hub registers after a core reset: training and the results of it stay (12 R342). -/
def Hb.coreReset (h : Hb) : Hb :=
  { h with
    pselA := 0, pselB := 0, logUnit := 0, logPkg := 0, logCh := 0, logSub := 0, logKind := false, logValid := false
    logCtx := 0, pkgs := h.pkgs.map Package.coreReset }

/-- The fabric after a core reset: the spare shifts that have ended stay (17 Table 17.11), one under way does not go on. -/
def Fb.coreReset (f : Fb) : Fb :=
  { f with
    lselA := 0, laneA := 0, lselB := 0, laneB := 0, links := f.links.map Link.coreReset, service := []
    hrows := f.hrows.map fun h => { h with shift := none }
    hinges := f.hinges.map fun h => { h with fillwe := 0, fillew := 0 } }

/-- Peer registers after a core reset: links, routes and node IDs stay, jobs go (14 Tables 14.8 to 14.12). -/
def Pr.coreReset (p : Pr) : Pr :=
  { p with jselA := 0, jselB := 0, stale := 0, aborts := 0, jobs := [], cuffs := [] }

namespace State

/-! ### Reach C (R447) -/

/-- At the start of a core reset the peer port sends ABORT for every job (14 R401). -/
def abortEveryJob (s : State) : State :=
  (s.pr.jobs.map (·.1)).foldl (fun t id => t.floodAbort id (s.jobGen id) none) s

/-- A job that has been cleared ends, and ABORT_DONE goes to node 0 (14 R401, R402). -/
def answerCleared (s : State) (id : Nat) : State :=
  let g := s.jobGen id
  let t : State := { s with pr := { s.pr with jobGens := Tbl.put s.pr.jobGens id (nextJobGen g) } }
  if s.pr.nodeid = 0 then t else t.sendPeer 0x21 0 id g [s.pr.nodeid] []

/-- Every stream record is released with its counts; generations stay (15 Tables 15.13, 15.14). -/
def clearStreams (s : State) : State :=
  let t := (s.st.streams.map (·.1)).foldl State.releaseStream s
  { t with st := { t.st with
      sselA := 0, sselB := 0, setpoints := []
      streams := t.st.streams.map fun p => (p.1, p.2.uncounted) } }

/-- The watched lines that each port gives back with a clean-evict notice as a core reset begins, in ascending queue number (13 R376). -/
def evictions (s : State) : List (Port × Nat) :=
  s.fe.queues.filterMap fun q => if q.2.watch then (s.viaPort q.2.home).map fun p => (p, q.2.door) else none

/-- What reach C clears, and what it spares (R447, Table 17.11). No completion record is written (09 R263). -/
def clearC (s : State) : State :=
  let jobs := s.pr.jobs.map (·.1)
  let t := s.abortEveryJob.clearStreams
  let u : State := { t with
    mg := t.mg.coreReset, hp := { t.hp.coreReset with evicts := t.hp.evicts ++ s.evictions }, fe := { Fe.reset with qgens := t.fe.qgens }
    cx := { Cx.reset with ctxs := Tbl.mapVals t.cx.ctxs fun _ c => c.freed }
    sites := t.sites.map Site.coreReset, groups := [], models := [], runs := []
    hb := t.hb.coreReset, fb := t.fb.coreReset, pr := t.pr.coreReset
    rn := { t.rn with fw := none }
    pw := t.pw.coreReset, dw := t.dw.lapsed, rs := t.rs.coreReset }
  jobs.foldl State.answerCleared u

/-! ### Reaches S and P (R447) -/

/-- What reach S clears: everything but the option store, the reset causes, the tick, the debug logic and what lies outside
the module (R447, Table 17.11; 20 R503). -/
def clearS (s : State) : State :=
  { State.reset with
    mg := { Mg.reset with
      grade := s.mg.grade, tick := s.mg.tick, por := s.mg.por, mon := s.mg.mon, nrstc := s.mg.nrstc, nrsts := s.mg.nrsts,
      wake := s.mg.wake, wakem := s.mg.wakem, recov := s.mg.recov, monrail := s.mg.monrail, pulse := s.mg.pulse,
      nor := s.mg.nor }
    hp := { Hp.reset with ansA := s.hp.ansA, ansB := s.hp.ansB, evicts := s.hp.evicts }
    pr := { Pr.reset with out := s.pr.out }
    st := { St.reset with doExtest := s.st.doExtest, diLevel := s.st.diLevel, out := s.st.out }
    pw := { Pw.reset with
      tripLine := s.pw.tripLine, tripSensors := s.pw.tripSensors, tjHub := s.pw.tjHub, vinW := s.pw.vinW, vinE := s.pw.vinE }
    dw := { s.dw.lapsed with fails := 0, unzero := 0 }
    rs := { Rs.reset with
      copyA := s.rs.copyA, copyB := s.rs.copyB, counter := s.rs.counter, retired := s.rs.retired, keys := s.rs.keys,
      reach := s.rs.reach, wakeFrom := s.rs.wakeFrom, nrstLow := s.rs.nrstLow, escalated := s.rs.escalated,
      rails := s.rs.rails, strap := s.rs.strap, clkLink := s.rs.clkLink, clkSite := s.rs.clkSite, clkTcxo := s.rs.clkTcxo }
    host := s.host, signals := s.signals, sideband := s.sideband, free := s.free, pending := s.pending }

/-- What reach P clears: the debug logic, the causes and the tick as well. The Ward takes its state from the option block
at start order 3 (19 R486). -/
def clearP (s : State) : State :=
  let t := s.clearS
  { t with
    mg := { t.mg with
      tick := 0, por := true, mon := false, nrstc := false, nrsts := false, wake := false, wakem := false, recov := false,
      monrail := 0, pulse := 0 }
    st := { t.st with doExtest := none }
    dw := Dw.reset }

/-! ### HIBERNATE and HIBERNATE-M (18 R465; Table 17.11) -/

/-- The module enters HIBERNATE or HIBERNATE-M: links go down, and what Table 17.11 does not keep is cleared or lost. SITE_DO
stays at its safe levels. -/
def enterHibernate (s : State) (keep : Bool) : State :=
  let t := s.clearS
  { t with
    pw := { t.pw with mstate := if keep then .hibernateM else .hibernate }
    cs := { t.cs with clearing := false }
    rs := { t.rs with safeKnown := true, option := s.rs.option, alert := s.rs.alert } }

/-- The module is in HIBERNATE or HIBERNATE-M. -/
def hibernating (s : State) : Bool := s.pw.mstate == .hibernate || s.pw.mstate == .hibernateM

/-! ### nRST (R444-R446) -/

/-- The reach in force is the widest of the sources asserted (R448). -/
def widen (s : State) (r : Nat) : State := { s with rs := { s.rs with reach := max s.rs.reach r } }

/-- nRST has been low for 200 ns: reach C; from HIBERNATE reach S, from HIBERNATE-M a wake (R445, R446). -/
def nrstAssert (s : State) : State :=
  if s.rs.nrstLow then s
  else
    let low := fun (t : State) (wake : Option Bool) =>
      ({ t with rs := { t.rs with nrstLow := true, escalated := false, wakeFrom := wake } } : State)
    match s.pw.mstate with
    | .hibernate => (low s.clearS (some false)).widen 2
    | .hibernateM => (low s.clearS (some true)).widen 2
    | _ => (low s.clearC s.rs.wakeFrom).widen 1

/-- nRST is still low when the escalation timer expires: reach S (R445); the contents kept by HIBERNATE-M are lost (R446). -/
def nrstEscalation (s : State) : State :=
  if s.rs.nrstLow = false ∨ s.rs.escalated = true then s
  else
    let t := s.clearS.widen 2
    { t with
      mg := { t.mg with nrsts := true }
      rs := { t.rs with escalated := true, wakeFrom := if s.rs.wakeFrom = some true then none else s.rs.wakeFrom } }

/-- nRST is released (R445, R446): PULSE takes its length, and the cause that has not yet been set is. -/
def nrstRelease (s : State) (us : Nat) : State :=
  if s.rs.nrstLow = false then s
  else
    { s with
      mg := { s.mg with
        pulse := BitVec.ofNat 24 (min us 0xFFFFFF)
        nrstc := s.mg.nrstc || (!s.rs.escalated && s.rs.wakeFrom.isNone)
        wake := s.mg.wake || s.rs.wakeFrom == some false
        wakem := s.mg.wakem || s.rs.wakeFrom == some true }
      rs := { s.rs with nrstLow := false, escalated := false } }

/-! ### The power-on monitors (R443) -/

/-- The bit of a rail in MG_RSTCAUSE.MONRAIL. -/
def railBit : Rail → Byte
  | .vaon => 1
  | .vmgr => 2
  | .vhub => 4
  | .vser => 8
  | .vio12 => 16
  | .vio18 => 32
  | .vm => 64

/-- The board may remove a rail in the module state (21 R512). -/
def removable (m : MState) (r : Rail) : Bool :=
  match m with
  | .hibernate => r != .vaon && r != .vio18
  | .hibernateM => r != .vaon && r != .vio18 && r != .vm
  | _ => false

/-- A monitored rail fails: P is asserted, and MON and the bit of the rail are set with the sources seen since the module
entered reset (R443, R448). -/
def railFail (s : State) (r : Rail) : State :=
  if removable s.pw.mstate r then s
  else
    let t := s.clearP
    { t with
      mg := { t.mg with
        mon := true, nrsts := s.rs.nrstLow && s.rs.escalated
        monrail := (if s.rs.rails = [] then 0 else s.mg.monrail) ||| railBit r }
      rs := { t.rs with
        reach := 3, wakeFrom := none, rails := if s.rs.rails.contains r then s.rs.rails else s.rs.rails ++ [r] } }

/-- P is released 2 ms after the last rail has become good (R443); DBG_OPEN and the address straps are sampled (19 R490; 21
Table 21.7). -/
def pRelease (s : State) (dbgOpen : Bool) (strap : BitVec 2) : State :=
  if s.rs.rails ≠ [] ∨ (s.rs.reach = 3 ∧ s.rs.phase = 1) then
    { s with dw := { s.dw with dbgOpen := dbgOpen }, rs := { s.rs with rails := [], strap := strap } }
  else s

end State

def execNrstAssert (s : State) : Host.Outcome State Fault Refusal := .next s.nrstAssert

def execNrstEscalation (s : State) : Host.Outcome State Fault Refusal := .next s.nrstEscalation

def execNrstRelease (us : Nat) (s : State) : Host.Outcome State Fault Refusal := .next (s.nrstRelease us)

def execRailFail (r : Rail) (s : State) : Host.Outcome State Fault Refusal := .next (s.railFail r)

def execPRelease (dbgOpen : Bool) (strap : BitVec 2) (s : State) : Host.Outcome State Fault Refusal :=
  .next (s.pRelease dbgOpen strap)

end Sys2Proof.Machine
end

