-- ==== Sys2Proof/Machine/Complete.lean ====
section
/-! DEFINITION. The end of a request and of a queue: completion records and what follows them (09 R247-R253, R258-R263; 10
R270-R280, R298), chains, and the creation and destruction of queues (09 R234-R238), with the meanings of REQUEST_COMPLETE,
CHAIN_NEXT, QUEUE_CREATE, QUEUE_DESTROY, QUEUE_DESTROY_END and FE_KQCMD_GO. -/

namespace Sys2Proof.Machine

/-- A request of a chain (10 R280). -/
def Request.chained (r : Request) : Bool := decide (r.key.link ≠ 0)

/-- The request's status is OK. -/
def Request.good (r : Request) : Bool := decide (r.status = Status.ok)

/-- A record is written: for every descriptor of a ring, and for a chained one that signals or has failed (10 R280). -/
def Request.recorded (r : Request) : Bool := !r.chained || dSignal r.desc || !r.good

/-- The flags of a completion record (Table 10.18): PHASE is 1 on odd passes of the ring, the first being pass 1 (09 R250). -/
def recordFlags (q : Queue) (r : Request) : Nat :=
  b2n (decide (q.ctail / q.compN % 2 = 0)) + 2 * b2n r.chained + 4 * b2n (!r.good && !r.chained)

/-- A completion record (Table 10.18). -/
def recordBytes (q : Queue) (r : Request) : Bytes :=
  leBytes 8 r.key.name.toNat ++ leBytes 1 r.status ++ leBytes 1 r.stop ++ leBytes 2 (recordFlags q r) ++ leBytes 2 r.faultLe ++
  leBytes 2 0 ++ leBytes 8 r.word0.toNat ++ leBytes 8 r.word1.toNat

namespace State

/-! ### Records (09 R250-R253) -/

/-- A record is sent through the home port, or the other one; with both links down it is lost and counted, and the queue
enters ERROR (09 R253). -/
def putRecord (s : State) (n : Nat) (q : Queue) (r : Request) : State :=
  if s.hostUp then
    let t := (s.writeHost q.home (q.comp + 32 * (q.ctail % q.compN)) (recordBytes q r)).updQueue n fun q => { q with ctail := q.ctail + 1 }
    if (q.ctail + 1) % 64 = 0 then t.writeLine n else t
  else
    ({ s with fe := { s.fe with qerrLost := satInc 16 s.fe.qerrLost } } : State).queueError n 0x5

/-- The signal write that follows a record (09 R252): one for SIGNAL_ON_DONE, or for a failure where SIGERR is set. -/
def recordSignal (s : State) (q : Queue) (r : Request) : State :=
  if dSignal r.desc || (q.sigerr && !r.good) then s.sendSignal q.home q.vector else s

/-- The entry of the request retires: one that has failed is held, unless it belongs to a chain (10 R270, R272, R280). -/
def retire (s : State) (r : Request) : State :=
  if r.good || r.chained then s.dropReq r.key else s.updReq r.key fun x => { x with state := .heldFailed }

/-- The result word that a RESULT_PATCH takes. -/
def patchWord (r : Request) (o : Overlay) : W64 := if o.rw1 then r.word1 else r.word0

/-- The overlay entries of a source are filled or fail (10 R275, R277). A PATCH that has completed with OK has entered its
values at its dispatch. -/
def settleSource (s : State) (r : Request) : State :=
  if r.chained then s
  else if r.good = false then s.settlePatches r.queue r.seq fun o => some { o with value := none, failed := some r.status }
  else if dResultPatch r.desc && r.op != Op.patch then s.settlePatches r.queue r.seq fun o => some { o with value := some (patchWord r o) }
  else s

/-- What waits on a request that has completed (10 R270, R271, R277). -/
def release (s : State) (r : Request) : State :=
  let (v, t) := s.takeFree
  let t := t.settleSource r
  let t := if r.chained then t
    else (t.resolveEdges r.key.name (if r.good then .satisfied else .failed r.status)).failDependents
  t.releasePatched (Config.lostStatus v).toNat

/-- The chain of a head that has completed begins, and that of a link that has completed goes on or ends (10 R279, R280). -/
def followChain (s : State) (r : Request) : State :=
  let ptr := if r.good then pointerOf r.desc else none
  let others := s.fe.chains.filter fun c => decide (c.name ≠ r.key.name)
  if r.chained then
    { s with fe := { s.fe with chains := s.fe.chains.filterMap fun c =>
        if c.name = r.key.name then ptr.map fun p => { c with ptr := some p, holder := r.desc } else some c } }
  else
    match ptr with
    | none => s
    | some p =>
      let c : Chain :=
        { name := r.key.name, queue := r.queue, tag := r.tag, kernel := r.kernel, next := 1, ptr := some p, holder := r.desc }
      { s with fe := { s.fe with chains := others ++ [c] } }

/-- A model whose load has completed may be used (08 R214). -/
def openLoaded (s : State) (r : Request) : State :=
  if r.op = Op.modelLoad ∧ r.good = true then
    s.updModel (r.word0.toNat % 4096) fun m =>
      if handleOf (r.word0.toNat % 4096) m = r.word0 then { m with loading := false } else m
  else s

/-- A POWER_SET that takes the module to HIBERNATE or HIBERNATE-M: it does so once its record is written (18 R465). -/
def hibernateOf (r : Request) : Option Bool :=
  if r.op = Op.powerSet ∧ r.good = true ∧ r.fld 56 1 = 0 ∧ 2 ≤ r.fld 57 1 then some (decide (r.fld 57 1 = 3)) else none

/-- A name of an older generation of its queue (09 R261). -/
def staleName (s : State) (name : W64) : Bool :=
  let g := Tbl.getD s.fe.qgens (nameQueue name) 0
  (s.queueOf name).isNone && decide (nameGen name ≠ 0) && decide (g ≠ 0) && decide ((g + 16384 - nameGen name) % 16384 < 8192)

/-- An earlier QUEUE_DESTROY of the same queue is still to complete (09 R259). -/
def behindDestroy (s : State) (r : Request) : Bool :=
  r.op == Op.queueDestroy && r.good && (s.fe.requests.takeWhile fun o => decide (o.key ≠ r.key)).any fun o =>
    o.op == Op.queueDestroy && o.state == .ended && o.good && decide (o.fld 56 2 = r.fld 56 2) && decide (o.fld 58 2 = r.fld 58 2)

/-- Updates that no earlier run keeps back any more are applied (04 R124). -/
def settleUpdates (s : State) : State := (s.models.map (·.1)).foldl State.applyUpdates s

/-- A request that has ended completes: its record is written whole, then its signal sent; its dependents, patches and chain
follow, and unloads that waited for it go on (09 R251; 10 R270-R280). Setpoints are formed as the record is written (15
R418); a policy decision that their conversion awaits delays it (log entry 34). Halves whose last run has ended change state. -/
def complete (s : State) (k : ReqKey) (now formed : Nat) (areaOk : Bool) : State :=
  match s.req? k with
  | none => if s.staleName k.name then { s with fe := { s.fe with qerrStale := satInc 16 s.fe.qerrStale } } else s
  | some r =>
    match s.queue? r.queue with
    | none => s
    | some q =>
      let setpoints := r.good && (r.op == Op.solve || r.op == Op.score)
      let room := if r.chained then s.recordRoom r.queue else decide (q.ctail < q.chead + q.compN)
      if r.state ≠ .ended ∨ (r.recorded && !room) = true ∨ s.behindDestroy r = true ∨
          (setpoints && (r.best.any fun b => s.setpointsWait b.1)) = true then s
      else
        let t := if r.recorded then (s.putRecord r.queue q r).recordSignal q r else s
        let t := (t.openLoaded r).formSetpoints r now formed areaOk
        let t := ((((t.retire r).release r).followChain r).unloadAll).settleUpdates.settleRet.settleOn
        match hibernateOf r with
        | some keep => t.enterHibernate keep
        | none => t

/-! ### Chains (10 R278-R280; 09 R248) -/

/-- The place lies in the chain memory of its context. -/
def inChainMemory (s : State) (c : Chain) (p : Nat × Nat) : Bool :=
  let g := (s.ctx (idOf c.tag)).grant
  !c.kernel && bitAt g.mask p.1 && decide (p.2 < 1024 * g.chain)

/-- The next link of a chain as a request. -/
def chainRequest (c : Chain) (desc : Bytes) (place : Option (Nat × Nat)) : Request :=
  { key := ⟨c.name, c.next⟩, queue := c.queue, tag := c.tag, kernel := c.kernel, desc := desc, edges := [], patches := [],
    state := .waiting, hold := none, status := 0, stop := 0, faultLe := 0xFFFF, word0 := 0, word1 := 0, turns := 0,
    append := none, samples := [], reads := none, place := place, best := none }

/-- The link stands in the table, and the chain has no pointer while it does. -/
def enterLink (s : State) (c : Chain) (r : Request) : State :=
  { s with fe := { s.fe with
      requests := s.fe.requests ++ [r]
      chains := s.fe.chains.map fun x => if x.name = c.name then { x with ptr := none, next := c.next + 1, holder := r.desc } else x } }

/-- The link of a chain that has been read is checked (10 R279). -/
def checkLink (s : State) (c : Chain) (r : Request) : State :=
  match checkDescriptor r.desc c.kernel true none with
  | some x => s.refuse r.key x
  | none => s

/-- The engine controller reads the next descriptor of a chain, once completion space allows, and checks it (10 R279; 03
R83). A pointer outside chain memory fails the descriptor that holds it. -/
def chainNext (s : State) (name : W64) (find : ChainFind) : State :=
  match s.fe.chains.find? fun c => decide (c.name = name) with
  | none => s
  | some c =>
    match c.ptr with
    | none => s
    | some p =>
      if s.recordRoom c.queue = false ∨ (s.fe.fenced || s.cx.mpfault) = true ∨ s.pw.mstate ≠ .active ∨
          (!c.kernel && !s.served c.tag) = true then s
      else if s.inChainMemory c p = false then
        let r := chainRequest c c.holder none
        (s.enterLink c r).refuse r.key (Refuse.field 48 0)
      else if s.accepts p.1 = false ∨ s.shiftOver (2 ^ p.1) = true ∨ s.isolates (idOf c.tag) (.controller p.1) = true then s
      else
        let d := s.chainDesc c.tag p.1 p.2
        let r := chainRequest c d (some p)
        let t := (s.enterLink c r).bump (.controller p.1) none 1
        match find with
        | .scratchBad addr => (t.noteBadWord (t.siteOf p.1) (.chain (idOf r.tag)) addr).faultData r.key p.1 2 0 addr 0 0
        | .clean => t.checkLink c r
        | .sramCorrected => (t.countSramCorr (t.siteOf p.1)).checkLink c r

/-! ### Queues (09 R234-R238, R258-R263) -/

/-- Dispatches a QUEUE_CREATE. -/
def queueCreate (s : State) (k : ReqKey) : State :=
  match s.ready? k Op.queueCreate with
  | none => s
  | some r =>
    let a := r.fld 56 8
    if addrSpace a ≠ 0 ∨ addrLe a ≠ 0 then s.refuse k (Refuse.field 56 0)
    else if s.hostUp = false then s
    else
      let d := Mem.bytes s.host (addrOff a) 64
      let u := s.touchHost (s.homeOf r.queue)
      match u.checkRecord d false with
      | .error x => u.refuse k x
      | .ok n =>
        let t := u.createQueue d n
        (t.assignSlots).okReq k (BitVec.ofNat 64 n) (BitVec.ofNat 64 (Tbl.getD t.fe.qgens n 0))

/-- The requests of a queue that a destruction has still to see end: all but the QUEUE_DESTROY requests that wait for it. -/
def remaining (s : State) (n : Nat) (q : Queue) : List Request :=
  s.fe.requests.filter fun r => decide (r.queue = n) && r.open? && !q.destroys.contains r.key

/-- With ABORT, every request of the queue is cancelled, and every chain that it began ends (R258 orders 2 and 3). -/
def abortQueue (s : State) (n : Nat) : State :=
  match s.queue? n with
  | none => s
  | some q =>
    let rs := (s.remaining n q).map (·.key)
    let order := rs.filter (fun k => (s.run? k).isNone) ++ rs.filter fun k => (s.run? k).isSome
    let t := order.foldl (fun t k => t.stopReq k Status.cancelled none) s
    ((s.fe.chains.filter fun c => decide (c.queue = n)).map (·.name)).foldl (fun t c => t.stopChain c Status.cancelled none) t

/-- Dispatches a QUEUE_DESTROY: the queue is DESTROYING and fetches nothing more (R258 order 1). -/
def queueDestroy (s : State) (k : ReqKey) : State :=
  match s.ready? k Op.queueDestroy with
  | none => s
  | some r =>
    let n := r.fld 56 2
    match s.queue? n with
    | none => s.refuse k (Refuse.field 58 0)
    | some q =>
      if q.gen ≠ r.fld 58 2 then s.refuse k (Refuse.field 58 0)
      else
        let t := (s.holdReq k (some .destroy)).updQueue n fun q =>
          { q with state := .destroying, cause := 0, destroys := q.destroys ++ [k] }
        let t := ((if q.state = .destroying then t else t.writeLine n).keepWatch n).dropSlotOf n
        if bitAt (r.fld 60 1) 0 then t.abortQueue n else t

/-- Orders 5 and 6: with every record of the queue written, and no reset of its context draining (Table 9.9), the watch is dropped and
the number freed, and the destructions complete, the earliest first (`behindDestroy`). -/
def queueDestroyEnd (s : State) (n : Nat) : State :=
  match s.queue? n with
  | none => s
  | some q =>
    if q.state = .destroying ∧ q.destroys ≠ [] ∧ s.remaining n q = [] ∧
        (!q.kernel && (s.ctx (idOf q.tag)).resetting.any fun x => x.tagBefore == q.tag) = false ∧ (s.fe.chains.all fun c => decide (c.queue ≠ n)) = true then
      q.destroys.foldl (fun t k => t.okReq k 0 0) (s.freeQueue n)
    else s

/-- A port writes GO to FE_KQCMD. -/
def feKqcmdGo (s : State) (p : Port) : State :=
  s.onWrite p 0x2008 fun t => if t.hostUp then t.kqcmdGo.assignSlots else t

end State

def execRequestComplete (r : ReqKey) (now formed : Nat) (areaOk : Bool) (s : State) : Host.Outcome State Fault Refusal :=
  .next (s.complete r now formed areaOk)

def execChainNext (name : W64) (find : ChainFind) (s : State) : Host.Outcome State Fault Refusal :=
  .next (s.chainNext name find)

def execQueueCreate (r : ReqKey) (s : State) : Host.Outcome State Fault Refusal := .next (s.queueCreate r)

def execQueueDestroy (r : ReqKey) (s : State) : Host.Outcome State Fault Refusal := .next (s.queueDestroy r)

def execQueueDestroyEnd (queue : Nat) (s : State) : Host.Outcome State Fault Refusal := .next (s.queueDestroyEnd queue)

def execFeKqcmdGo (p : Port) (s : State) : Host.Outcome State Fault Refusal := .next (s.feKqcmdGo p)

end Sys2Proof.Machine
end

