-- ==== Sys2Proof/Machine/Power.lean ====
section
/-! DEFINITION. Power states, engine halves, and the thermal and supply events (18 R464-R478; 07 R196, R197; 21 R511), with the
meanings of POWER_SET_MODULE_STATE, POWER_SET_ENGINE_HALF, POWER_SET_POWER_LIMIT, STANDBY_ENTRY, AUTOWAKE, ENGINE_THROTTLE,
POWER_OVERSHOOT, THERMAL_TRIP and VIN_ENG_LOSS. -/

namespace Sys2Proof.Machine

namespace State

/-! ### STANDBY and ACTIVE (R465-R468) -/

/-- A spare shift is under way; a POWER_SET waits until it ends (R469). -/
def shifting (s : State) : Bool := s.fb.hrows.any fun h => h.shift.isSome

/-- A model, store or chain memory has an allocation on an engine of a half (R467, R469). -/
def halfAllocated (s : State) (h : Half) : Bool :=
  (halfEngines h).any fun le =>
    s.models.any (fun p => !p.2.gone && bitAt p.2.mask le) ||
    s.cx.ctxs.any fun p => bitAt p.2.grant.mask le && decide (p.2.grant.chain ≠ 0)

/-- The state that a half takes in STANDBY; one that is OFF or tripped stays so (R467). -/
def standbyHalf (s : State) (h : Half) : HalfState :=
  match s.half h with
  | .on | .ret => if s.pw.stbyoff && !s.halfAllocated h then .off else .ret
  | x => x

/-- Brings a half into its STANDBY state. -/
def enterStandbyHalf (s : State) (h : Half) : State :=
  match s.half h, s.standbyHalf h with
  | .on, .ret | .ret, .ret => (s.driveHalf h .ret).setHalf h .ret
  | .on, .off | .ret, .off => (s.driveHalf h .off).setHalf h .off
  | _, _ => s

/-- The links of the host and peer ports change state together (13 R375). -/
def mapLinks (s : State) (f : LinkState → LinkState) : State :=
  { s with
    hp := { s.hp with
      portA := { s.hp.portA with state := f s.hp.portA.state }, portB := { s.hp.portB with state := f s.hp.portB.state } }
    pr := { s.pr with links := s.pr.links.map fun l => { l with state := f l.state } } }

/-- A link that is up enters its low-power substate. -/
def sleepLink : LinkState → LinkState
  | .up => .lowPower
  | x => x

/-- A link in its low-power substate leaves it. -/
def wakeUp : LinkState → LinkState
  | .lowPower => .up
  | x => x

/-- Nothing is under way on the stitch fabric. -/
def fabricQuiet (s : State) : Bool :=
  (List.range 56).all s.linkQuiet && s.fb.service.isEmpty

/-- Steps 3 to 6 of the entry to STANDBY, once every run holds (R466). -/
def standbyEntry (s : State) : State :=
  match s.pw.entry with
  | none => s
  | some k =>
    if s.pw.mstate ≠ .entering ∨ s.halfQuiet .west = false ∨ s.halfQuiet .east = false ∨ s.fabricQuiet = false then s
    else
      let on := fun (x : HalfState) => x == .on
      let t : State := { s with pw := { s.pw with
        mstate := .standby, entry := none, stbyW := on s.pw.halfW, stbyE := on s.pw.halfE } }
      let t := ((t.enterStandbyHalf .west).enterStandbyHalf .east).parkHinges
      (t.mapLinks sleepLink).okReq k 0 0

/-- A half that was ON when STANDBY began is to be ON again. -/
def wakeHalf (s : State) (h : Half) (was : Bool) : State :=
  if was then
    let t := s.driveHalf h .on
    { t with pw := { t.pw with halfReq := t.pw.halfReq ++ [(h, .on, none)] } }
  else s

/-- The module returns to ACTIVE: engines are scrubbed or cleared, every progress pair restarts, and held work goes on
(R466, R468). The request ends once the halves are ON. -/
def leaveStandby (s : State) (req : Option ReqKey) : State :=
  let t : State := { s with
    pw := { s.pw with mstate := .active, entry := req, stbyW := false, stbyE := false }
    cx := { s.cx with progress := s.cx.progress.map fun p => { p with tr := s.now } } }
  (((t.mapLinks wakeUp).wakeHalf .west s.pw.stbyW).wakeHalf .east s.pw.stbyE).settleOn

/-- HIBERNATE is refused while a user context is LIVE or RESETTING or a job is loaded (Table 18.2). -/
def busyModule (s : State) : Bool := (s.cx.ctxs.any fun p => p.1 != 0 && p.2.state != .free) || !s.pr.jobs.isEmpty

/-- Dispatches a POWER_SET of scope 0 (R465). -/
def powerModule (s : State) (k : ReqKey) : State :=
  match s.ready? k Op.powerSet with
  | none => s
  | some r =>
    if r.fld 56 1 ≠ 0 ∨ s.shifting = true ∨ s.pw.entry.isSome = true ∨ s.pw.halfReq ≠ [] then s
    else
      let v := r.fld 57 1
      if v = 0 then
        if s.pw.mstate = .standby then (s.holdReq k (some .powerOn)).leaveStandby (some k) else s.okReq k 0 0
      else if v = 1 then
        if s.pw.mstate = .standby then s.okReq k 0 0
        else
          let t := s.holdReq k (some .standby)
          { t with pw := { t.pw with mstate := .entering, entry := some k } }
      else if s.busyModule then s.refuse k (Refuse.field 57 0)
      else s.okReq k 0 0

/-- A request or a site sample waits in STANDBY (R466, R468). -/
def waitsInStandby (s : State) : Bool :=
  s.fe.requests.any (fun r => s.mayDispatch r && needsEngine r) ||
  s.st.streams.any fun p => p.2.state == 1 && !p.2.buffer.isEmpty

/-- The first request or site sample that waits in STANDBY returns the module to ACTIVE (R468). -/
def autowake (s : State) : State :=
  if s.pw.mstate = .standby ∧ s.pw.autowake = true ∧ s.waitsInStandby = true then s.leaveStandby none else s

/-! ### Engine halves (R469, R477; 21 R511) -/

/-- The half is enabled in the option block. -/
def halfEnabled (s : State) : Half → Bool
  | .west => s.pw.enW
  | .east => s.pw.enE

/-- The VIN_ENG supply of a half reads at least 1.746 V. -/
def vinGood (s : State) : Half → Bool
  | .west => s.pw.vinW
  | .east => s.pw.vinE

/-- A temperature reading of a site, in °C. -/
def siteTemp (s : State) (i : Nat) : Int := toSigned 8 (s.site i).tj.toNat

/-- A sensor that tripped still reads 95 °C or more. -/
def sensorHot (s : State) : TripSensor → Bool
  | .engine site => decide (95 ≤ s.siteTemp site)
  | .hubOrManager => decide (95 ≤ s.pw.tjHub)

/-- A sensor whose trip turned a half off: an engine's own half, and both halves for a hub or the manager (R476). -/
def tripsHalf (h : Half) : TripSensor → Bool
  | .engine site => siteHalf site == h
  | .hubOrManager => true

/-- A tripped half is too hot to turn ON: a sensor of that half, or the one that tripped it, reads 95 °C or more (R477). -/
def tripHot (s : State) (h : Half) : Bool :=
  ((List.range 40).any fun i => siteHalf i == h && decide (95 ≤ s.siteTemp i)) ||
    s.pw.tripSensors.any fun x => tripsHalf h x && s.sensorHot x

/-- The link of a Hinge that a loaded model uses (07 R196). -/
def hingeUser (s : State) : Option Nat :=
  s.models.findSome? fun p => if p.2.gone then none else p.2.links.find? fun l => decide (48 ≤ l)

/-- What R469 and R477 refuse, in their order. -/
def halfRefusal (s : State) (h : Half) (v : Nat) : Option Refuse :=
  if s.halfEnabled h = false then some (Refuse.field 58 0)
  else if v = 0 then
    if s.half h = .tripped ∧ s.tripHot h = true then some (Refuse.field 57 0)
    else if s.half h ≠ .on ∧ s.vinGood h = false then some (Refuse.field 57 0)
    else none
  else
    match s.hingeUser with
    | some l => some (Refuse.placement (Refuse.report 0x0D false false 0 0 l))
    | none =>
      if v = 2 ∧ s.halfAllocated h = true then
        some (Refuse.placement (Refuse.report 0x01 false false (if h = .west then 0 else 16) 0 0))
      else none

/-- A half is put ON, into RET or OFF; the request ends after the transition. -/
def changeHalf (s : State) (k : ReqKey) (h : Half) (v : Nat) : State :=
  let wait := fun (t : State) (x : HalfState) =>
    ({ t with pw := { t.pw with halfReq := t.pw.halfReq ++ [(h, x, some k)] } } : State)
  if v = 0 then
    if s.half h = .on then s.okReq k 0 0 else (wait ((s.holdReq k (some .powerOn)).driveHalf h .on) .on).settleOn
  else if v = 1 then
    if s.half h = .ret then s.okReq k 0 0 else (wait (s.holdReq k (some .halfRet)) .ret).settleRet
  else ((((s.driveHalf h .off).setHalf h .off).emptyHalf h).parkHinges).okReq k 0 0

/-- Dispatches a POWER_SET of scope 1 (R469). While another change of the half is under way it waits, but for a half that has
tripped meanwhile. -/
def powerHalf (s : State) (k : ReqKey) : State :=
  match s.ready? k Op.powerSet with
  | none => s
  | some r =>
    let h := if bitAt (r.fld 58 1) 0 then Half.east else Half.west
    if r.fld 56 1 ≠ 1 ∨ s.shifting = true ∨ s.pw.entry.isSome = true ∨
        ((s.pw.halfReq.any fun x => x.1 == h) && s.half h != .tripped) = true then s
    else
      match s.halfRefusal h (r.fld 57 1) with
      | some x => s.refuse k x
      | none => s.changeHalf k h (r.fld 57 1)

/-! ### The power limit (R473) -/

/-- L_eff for a configured limit. -/
def effLimit (limit : Nat) (hot : Bool) : Nat := if hot then min 500 limit else limit

/-- Dispatches a POWER_SET of scope 2. -/
def powerLimit (s : State) (k : ReqKey) : State :=
  match s.ready? k Op.powerSet with
  | none => s
  | some r =>
    if r.fld 56 1 ≠ 2 then s
    else
      ({ s with pw := { s.pw with limit := r.fld 60 2, efflim := effLimit (r.fld 60 2) s.pw.cphot } } : State).okReq k 0 0

/-! ### Engine controllers (R475, R476) -/

/-- An engine junction at 100 °C or more: the operating point goes down by one (Table 18.4). -/
def throttle (s : State) (i : Nat) : State :=
  if 40 ≤ i ∨ (s.site i).dstate ≠ .on then s
  else s.updSite i fun x => { x with point := x.point - 1, throttled := true }

/-- Power over 100 µs has exceeded the budget by more than 5 %: the engine stays at its lower point (R475). How long it was at
the upper one is open (log entry 13). -/
def overshoot (s : State) (i : Nat) : State :=
  if 40 ≤ i ∨ (s.site i).dstate ≠ .on ∨ (s.site i).overshoot = true then s
  else
    let (v, t) := s.takeFree
    t.updSite i fun x => { x with overshoot := true, frac := (Config.overshootFrac v).toNat }

/-! ### Trips and supply loss (R476-R478) -/

/-- A site loses its supply: what it held is lost, as in OFF. -/
def unpowerSite (x : Site) : Site :=
  if x.dstate = .off then x
  else
    { x with
      dstate := .off, trans := satInc 16 x.trans, tripped := true, clearing := false, scrub := false, ucode := false
      point := 0, badWords := [] }

/-- The regulators of a half are off. -/
def unpowerHalf (s : State) (h : Half) : State :=
  ((List.range 40).filter fun i => siteHalf i == h).foldl (fun t i => t.updSite i unpowerSite) s

/-- A model or store with an allocation on the half (R478): it is unloaded, or its job is aborted. -/
def losePowered (h : Half) (s : State) (i : Nat) : State :=
  match s.model? i with
  | none => s
  | some m =>
    let le := ((halfEngines h).find? fun le => bitAt m.mask le).getD 0
    let t := if (s.usersOf i).isEmpty then s else s.noteContext m.tag 0x6 le 0 0
    loseModel 0 0xFFFF t i

/-- A model of the other half that uses a Hinge (07 R197): its requests name lane 0 of the Hinge link. -/
def loseHinged (s : State) (i : Nat) : State :=
  match s.model? i with
  | none => s
  | some m =>
    let l := (m.links.find? fun l => decide (48 ≤ l)).getD 48
    let t : State := { s with fb := { s.fb with
      fltLink := l, fltLane := 0, fltValid := true, fltCause := false, fltHpwr := true } }
    let t := if (t.usersOf i).isEmpty then t else t.noteContext m.tag 0x6 (Img.linkEnds l).1 0 0
    loseModel (laneLocator l 0 true false true t.fb.fltCount) 0xFFFF t i

/-- A link of a chain on a half that has lost its power fails, and a run of it on every part, with the kept states of its model (10
R283). -/
def loseLink (s : State) (r : Request) : State :=
  let t := match s.run? r.key with
    | some u => (s.failParts u).invalidateKept u.model
    | none => s
  (t.noteContext r.tag 0x6 ((r.place.map (·.1)).getD 0) 0 0).failUser 0 0xFFFF r.key

/-- A chain on the half ends, and the request of it that is under way fails (R478). -/
def loseChains (s : State) (h : Half) : State :=
  let on := fun (p : Option (Nat × Nat)) => p.any fun x => (halfEngines h).contains x.1
  let rs := s.fe.requests.filter fun r => on r.place && r.open?
  let t := rs.foldl loseLink s
  { t with fe := { t.fe with chains := t.fe.chains.filter fun c =>
      !(on c.ptr || rs.any fun r => r.key.name = c.name) } }

/-- What the module does when a half has lost its power (R478). -/
def losePower (s : State) (h : Half) : State :=
  let mine := (s.models.filter fun p => !p.2.gone && (halfEngines h).any fun le => bitAt p.2.mask le).map (·.1)
  let t := mine.foldl (losePowered h) (s.unpowerHalf h)
  let hinged := (t.models.filter fun p => !p.2.gone && p.2.links.any fun l => decide (48 ≤ l)).map (·.1)
  let t := (hinged.foldl State.loseHinged t).loseChains h
  let t := t.emptyHalf h
  ({ t with rs := { t.rs with alert := true } } : State).eventSignal

/-- One half trips. -/
def tripHalf (s : State) (h : Half) : State :=
  if s.half h = .tripped then s
  else
    let t := (s.setHalf h .tripped).losePower h
    match h with
    | .west => { t with pw := { t.pw with evTripW := true } }
    | .east => { t with pw := { t.pw with evTripE := true } }

/-- A junction at 110 °C: an engine's sensor turns off its half, a hub's or manager's both (R476). -/
def thermalTrip (s : State) (x : TripSensor) : State :=
  let t : State := { s with pw := { s.pw with
    tripLine := true
    tripSensors := if s.pw.tripSensors.contains x then s.pw.tripSensors else s.pw.tripSensors ++ [x] } }
  match x with
  | .engine i => if i < 40 then t.tripHalf (siteHalf i) else s
  | .hubOrManager => (t.tripHalf .west).tripHalf .east

/-- VIN_ENG_W or VIN_ENG_E falls: the half loses its contents as in OFF (R478). In HIBERNATE and HIBERNATE-M nothing of it is
powered, and the board may remove the supply (21 R512). -/
def vinLoss (s : State) (h : Half) : State :=
  let fall := fun (t : State) (noted : Bool) =>
    match h with
    | .west => ({ t with pw := { t.pw with vinW := false, evVinW := t.pw.evVinW || noted } } : State)
    | .east => { t with pw := { t.pw with vinE := false, evVinE := t.pw.evVinE || noted } }
  if s.pw.mstate = .hibernate ∨ s.pw.mstate = .hibernateM then fall s false
  else fall ((if s.half h = .tripped then s else s.setHalf h .off).losePower h).parkHinges true

end State

def execPowerSetModuleState (r : ReqKey) (s : State) : Host.Outcome State Fault Refusal := .next (s.powerModule r)

def execPowerSetEngineHalf (r : ReqKey) (s : State) : Host.Outcome State Fault Refusal := .next (s.powerHalf r)

def execPowerSetPowerLimit (r : ReqKey) (s : State) : Host.Outcome State Fault Refusal := .next (s.powerLimit r)

def execStandbyEntry (s : State) : Host.Outcome State Fault Refusal := .next s.standbyEntry

def execAutowake (s : State) : Host.Outcome State Fault Refusal := .next s.autowake

def execEngineThrottle (site : Nat) (s : State) : Host.Outcome State Fault Refusal := .next (s.throttle site)

def execPowerOvershoot (site : Nat) (s : State) : Host.Outcome State Fault Refusal := .next (s.overshoot site)

def execThermalTrip (sensor : TripSensor) (s : State) : Host.Outcome State Fault Refusal := .next (s.thermalTrip sensor)

def execVinEngLoss (h : Half) (s : State) : Host.Outcome State Fault Refusal := .next (s.vinLoss h)

end Sys2Proof.Machine
end

