-- ==== Sys2Proof/Machine/Start.lean ====
section
/-! DEFINITION. The option store, the start sequence and recovery mode (17 R449-R462; 19 R490-R493; 12 R327; 21 R511, R514, R516),
with the meanings of START_SEQUENCE, COMMIT, LOAD_RUN, RCV_WRITE_NOR and CLEAR_CNT. -/

namespace Sys2Proof.Machine

/-! ### The option block (R450, R451) -/

/-- The option block used when no copy is valid, and in recovery mode (Table 17.6). -/
def optDefaults : Bytes :=
  ((((((((List.replicate 256 (0 : Byte)).set 6 0x0A).set 10 200).set 12 4).set 14 2).set 15 6).set 16 3).set 17 2).set 20 0xA5

/-- The CRC of an option block. -/
def optCrc (d : Bytes) : Nat := crc32 (d.take 252)

/-- A block with the CRC that its bytes call for. -/
def sealBlock (d : Bytes) : Bytes := d.take 252 ++ leBytes 4 (optCrc d)

/-- The factory site map of a block. -/
def siteMap (d : Bytes) : Nat := field d 36 5

/-- A map marks at most one site per half-row (R177). -/
def mapOk (m : Nat) : Bool := (List.range 8).all fun h => decide (((List.range 5).filter fun p => bitAt m (5 * h + p)).length ≤ 1)

/-- Every reserved field of a block is 0 (R7). -/
def optReservedOk (d : Bytes) : Bool :=
  let z := fun (i lo w : Nat) => bits (field d i 1) lo w == 0
  z 1 0 8 && z 3 0 8 && z 5 6 2 && z 6 6 2 && z 8 4 4 && z 9 3 5 && z 15 3 5 && z 16 4 4 && field d 21 3 == 0 &&
  (slice d 41 211).all (· == 0)

/-- Every field of a block lies in its range (Table 17.6). -/
def optRangeOk (d : Bytes) : Bool :=
  let f := fun i => field d i 1
  let w := field d 12 2
  let pairs := fun (v n : Nat) => (List.range n).all fun i => bits v (2 * i) 2 != 3
  decide (f 4 ≤ 2) && (f 4 != 2 || f 5 != 0) && pairs (f 7) 4 && decide (200 ≤ field d 10 2) && decide (field d 10 2 ≤ 650) &&
  decide (1 ≤ w) && decide (w ≤ 1000) && decide (2 ≤ f 14) && decide (f 17 ≤ 2) && pairs (field d 18 2) 8

/-- The status of a check of a block alone, in the order of RS_OPTCMD.STATUS: CRC, version or reserved field, range, site map
(R451, Table 17.13). -/
def optCheck (d : Bytes) : Nat :=
  if field d 252 4 ≠ optCrc d then 1
  else if field d 0 1 ≠ 1 ∨ optReservedOk d = false then 2
  else if optRangeOk d = false then 3
  else if mapOk (siteMap d) = false then 6
  else 0

/-- A copy is valid (R451). -/
def optValid (d : Bytes) : Bool := optCheck d == 0

/-- Copy B is selected when both are valid: its number is higher by 1 to 127 (R451). -/
def higherB (a b : Bytes) : Bool :=
  let d := (field b 2 1 + 256 - field a 2 1) % 256
  decide (1 ≤ d) && decide (d ≤ 127)

namespace State

/-- Order 3 selects a copy and mirrors it; with neither valid the defaults of Table 17.6 stand (R451, R452). -/
def selectOption (s : State) : State :=
  let a := optValid s.rs.copyA
  let b := optValid s.rs.copyB
  let useB := b && (!a || higherB s.rs.copyA s.rs.copyB)
  let block := if useB then s.rs.copyB else s.rs.copyA
  if a || b then
    { s with rs := { s.rs with
        optAok := a, optBok := b, optsel := useB, optdef := false, mirror := block, option := block, safeKnown := true } }
  else
    { s with rs := { s.rs with
        optAok := false, optBok := false, optsel := false, optdef := true, mirror := List.replicate 256 0, option := optDefaults } }

/-- Writes a block to the copy that is not selected (R453). -/
def writeOther (s : State) (d : Bytes) : State :=
  if s.rs.optsel then { s with rs := { s.rs with copyA := d } } else { s with rs := { s.rs with copyB := d } }

/-- The Ward's own commit: a copy equal to the selected one, with sequence + 1 and its Ward byte, is written and selected (19
R491 order 7, R495). -/
def wardCommit (s : State) (ward : Byte) : State :=
  let base := if s.rs.optdef then optDefaults else if s.rs.optsel then s.rs.copyB else s.rs.copyA
  let d := sealBlock ((base.set 2 (base.getD 2 0 + 1)).set 20 ward)
  let t := s.writeOther d
  let t : State := { t with rs := { t.rs with option := (s.rs.option.set 2 (d.getD 2 0)).set 20 ward } }
  if s.rs.optdef then { t with rs := { t.rs with optBok := true } }
  else { t with rs := { t.rs with optsel := !s.rs.optsel, optAok := true, optBok := true, mirror := d } }

/-- The checks of COMMIT against the selected copy, after those of the block alone (R453). -/
def commitCheck (s : State) : Nat :=
  let d := s.rs.stage
  let base := if s.rs.optdef then optDefaults else s.rs.mirror
  if optCheck d ≠ 0 then optCheck d
  else if field d 2 1 ≠ (field base 2 1 + 1) % 256 then 4
  else if d.getD 20 0 ≠ base.getD 20 0 then 5
  else if siteMap d ≠ siteMap base then 6
  else 0

/-- A port that holds Hasp 0 writes COMMIT (R453). -/
def commit (s : State) (p : Port) (mramOk : Bool) : State :=
  s.onRwl p 0x33008 fun t =>
    let st := t.commitCheck
    if st ≠ 0 then { t with rs := { t.rs with optStatus := st } }
    else if mramOk = false then
      let (v, u) := t.takeFree
      let u := u.writeOther (slice (Config.mramLeft v) 0 256)
      { u with rs := { u.rs with optStatus := 7 } }
    else
      let u := t.writeOther t.rs.stage
      { u with rs := { u.rs with optStatus := 0, optCopy := !t.rs.optsel } }

/-! ### Recovery mode and a halt (R455, R461) -/

/-- The module enters recovery mode: ROM runs with the defaults but for the safe levels; engines, hubs, the site port and the
peer ports are off, and the host ports train at x4. A later start runs every order again (log entry 36). -/
def enterRecovery (s : State) (halt : Nat) : State :=
  let safe := if s.rs.optdef then optDefaults else (optDefaults.set 18 (s.rs.mirror.getD 18 0)).set 19 (s.rs.mirror.getD 19 0)
  let hp := if s.rs.rcvPorts then s.hp else
    { s.hp with
      portA := { HostPort.reset with state := .training }, portB := { HostPort.reset with state := .training }
      hasps := List.replicate 64 none }
  { s with
    mg := { s.mg with recov := true }
    hp := hp
    sites := s.sites.map fun x => { Site.reset with
      retired := x.retired, failed := x.failed, tripped := x.tripped, trans := x.trans, tj := x.tj, vcap := x.vcap }
    hb := Hb.reset
    pr := { Pr.reset with jobGens := s.pr.jobGens, out := s.pr.out }
    st := { St.reset with doExtest := s.st.doExtest, diLevel := s.st.diLevel, out := s.st.out }
    rn := Rn.reset
    pw := { s.pw with halfW := .off, halfE := .off }
    rs := { s.rs with
      phase := 0xF, halt := halt, recovery := true, option := safe, rcvPorts := true, core := false, reach := max 2 s.rs.reach
      wakeFrom := none } }

/-- A start halts with a cause (R455). -/
def haltStart (s : State) (cause : Nat) : State := { s with rs := { s.rs with phase := 0xE, halt := cause } }

/-- The counter rule (R460): recovery mode, or the counter goes up. -/
def counterRule (s : State) : State :=
  let t := field s.rs.option 16 1 % 16
  if t ≠ 0 ∧ t ≤ s.rs.counter then s.enterRecovery 0
  else { s with rs := { s.rs with counter := min 15 (s.rs.counter + 1) } }

/-! ### The erase of the Ward (19 R491-R493) -/

/-- The key store is blank. -/
def keysBlank (s : State) : Bool := s.rs.keys.isEmpty

/-- The packages that an erase cannot write whole: failed ones, and ones with a failed channel (R492). -/
def unzeroed (s : State) : BitVec 32 :=
  BitVec.ofNat 32 (((List.range 32).map fun k =>
    if (s.pkg k).state = 2 ∨ (s.pkg k).state = 1 then 2 ^ k else 0).sum)

/-- The erase of order 3 of a start: nothing is held but what the option store keeps and what a core reset has spared. -/
def eraseStore (s : State) : State :=
  let t := ({ s with
    rs := { s.rs with keys := [] }
    cs := { s.cs with modes := List.replicate 128 .plain, mem := [], bad := [] }
    hb := { s.hb with pkgs := s.hb.pkgs.map fun p => { p with unclean := false, zeroing := 0, bad := [] } }
    dw := { s.dw with state := .open } } : State).flushEntropy
  let t := if t.rn.state = .off then t else t.entropyOn
  t.wardCommit 0

/-- The Ward's state at order 3 comes from the option block at P and wake (19 R486). -/
def wardFromOption (s : State) (atP : Bool) : State :=
  if atP || s.rs.wakeFrom.isSome then
    { s with dw := { s.dw with state := if field s.rs.option 20 1 = 0 then .open else .closed } }
  else s

/-- An erase runs at order 3: for DBG_OPEN at P, or to end one that was interrupted (19 R490, R493). -/
def eraseDue (s : State) (atP : Bool) : Bool :=
  !s.rs.optdef && s.dw.state == .closed && ((atP && s.dw.dbgOpen) || s.keysBlank)

/-! ### Orders 4 to 9 (R454) -/

/-- Order 4: ROM runs and the entropy source starts. -/
def startRom (s : State) : State := if s.rn.state = .off then s.entropyOn else s

/-- The size of a firmware image (Table 17.12). -/
def imageMax : Nat := 16777216

/-- Firmware runs. -/
def runFirmware (s : State) (d : Bytes) : State :=
  { s with mg := { s.mg with
      running := some d, fwRun := Config.fwVersion d, fwNor := (s.mg.nor.map Config.fwVersion).getD 0, ucif := Config.fwUcif d
      nordiff := s.mg.nor ≠ some d } }

/-- Order 5 from NOR: the cause of a halt, or firmware runs. -/
def startFirmware (s : State) (readOk : Bool) : Except Nat State :=
  if readOk = false then .error 3
  else
    match s.mg.nor with
    | none => .error 2
    | some d =>
      if imageMax < d.length then .error 4
      else if Config.fwVerifies d then .ok (s.runFirmware d) else .error 2

/-- What training comes to for a package (12 R327): the slowest channel's rate within the cap, degraded with one channel that
never trains, failed with more. -/
def trainPackage (cap : Nat) (keep : Bool) (rates : List Nat) : Package :=
  let bad := (List.range 4).filter fun c => decide (3 ≤ rates.getD c 3)
  let rate := ((List.range 4).filter fun c => !bad.contains c).foldl (fun r c => max r (rates.getD c 3)) cap
  match bad with
  | [] => { Package.reset with state := 0, rate := rate, unclean := keep }
  | [c] => { Package.reset with state := 1, rate := rate, failch := BitVec.ofNat 4 (2 ^ c), unclean := keep }
  | _ => { Package.reset with state := 2, rate := 0, failch := BitVec.ofNat 4 ((bad.map (2 ^ ·)).sum) }

/-- Order 6: the hubs train, with the contents kept from HIBERNATE-M (R456; 12 R327, R340, R341). -/
def startHubs (s : State) (seen : StartSeen) : State :=
  let keep := s.rs.wakeFrom == some true
  let cap := field s.rs.option 17 1
  let ok := fun (k : Nat) => seen.hubOk.getD (k / 16) false
  let t : State := { s with hb := { Hb.reset with
    hubW := if ok 0 then 2 else 3, hubE := if ok 16 then 2 else 3
    pkgs := (List.range 32).map fun k =>
      if ok k then trainPackage cap keep (seen.rates.getD k []) else { Package.reset with state := 2 } } }
  (List.range 32).foldl (fun t k => if (t.pkg k).state = 2 then t.loseEngine k else t) t

/-- A site of the site map or the retired-site record is taken out of service (07 R177, R203). -/
def retireAtStart (s : State) (site : Nat) : State :=
  if (s.site site).retired then s
  else
    let gone := fun (t : State) => t.updSite site fun x => { x with retired := true, failed := false }
    let h := site / 5
    match s.leOf site with
    | none => if site % 5 = 4 then (gone s).updHrow h fun r => { r with spareok := false } else gone s
    | some le =>
      if (s.hrow h).spareok then (gone s).updHrow h fun r => { r with failpos := site % 5, spareok := false }
      else gone (s.loseEngine le)

/-- The sites that order 7 takes out: those of the map and the record, and after a core reset those declared failed since. -/
def startRetired (s : State) (whole : Bool) : List Nat :=
  let map := (List.range 40).filter fun i => bitAt (siteMap s.rs.option) i
  let record := (List.range 40).filter fun i => bitAt s.rs.retired.toNat i
  if whole then map ++ record else (List.range 40).filter fun i => (s.site i).failed

/-- A half that order 7 powers: enabled, its supply good, and not too hot after a trip. -/
def startHalf (s : State) (h : Half) : State :=
  if s.halfEnabled h && s.vinGood h && !(s.half h == .tripped && s.tripHot h) then
    let t := (s.halfSites h).foldl (fun t i => t.updSite i fun x =>
      { x with dstate := .on, target := .on, ucode := true, tripped := false, trans := satInc 16 x.trans }) s
    t.setHalf h .on
  else if s.half h = .tripped then s
  else s.setHalf h .off

/-- Order 7: the configuration of the option block, the retired sites, and the engine halves (R454; 21 R511). -/
def startEngines (s : State) (seen : StartSeen) (whole : Bool) : State :=
  let b := field s.rs.option 15 1
  let t : State := { s with
    cx := { s.cx with
      window := field s.rs.option 12 2, k := field s.rs.option 14 1, auto := bitAt b 0 }
    pw := { s.pw with
      enW := bitAt b 1, enE := bitAt b 2, vinW := seen.vinWest, vinE := seen.vinEast
      evVinW := s.pw.evVinW || (bitAt b 1 && !seen.vinWest), evVinE := s.pw.evVinE || (bitAt b 2 && !seen.vinEast)
      limit := if whole then field s.rs.option 10 2 else s.pw.limit
      efflim := if whole then effLimit (field s.rs.option 10 2) s.pw.cphot else s.pw.efflim } }
  let t := (t.startRetired whole).foldl State.retireAtStart t
  (((t.startHalf .west).startHalf .east).parkHinges).dropTrip

/-- A host port trains at order 8; one without the key that it needs does not (13 R354, R365). -/
def startPort (s : State) (p : Port) : State :=
  if s.linkUp p then s
  else if s.hostWidth p = 3 then s.setPort p { s.port p with state := .disabled }
  else if s.hostEncrypted p && (s.hostKey p).isNone then s.setPort p { s.port p with state := .keyless, attempts := 0 }
  else s.setPort p { s.port p with state := .training, attempts := 0 }

/-- The peer links at order 8 (14 R378-R380). -/
def startPeer (s : State) (l : Nat) : State :=
  if s.peerEnabled l = false then s
  else s.updPeer l fun x =>
    { x with
      state := if s.peerEncrypted l && s.peerKey.isNone then .keyless else .training
      x4 := bits (s.opt 7) (2 * peerPort l) 2 == 2 }

/-- A site lane at order 8. -/
def startLane (s : State) (n : Nat) (x : SiteLane) : SiteLane :=
  { x with state := if bitAt (s.opt 9) n then 1 else 0, prp := bitAt (s.opt 9) 2 }

/-- Order 8: ports train, and the manager begins enumeration (R454; 14 R382). -/
def startPorts (s : State) : State :=
  let role := s.opt 4
  let t : State := { s with
    pr := { s.pr with role := role, nodeid := if role = 2 then s.opt 5 % 64 else 0 }
    st := { s.st with lane0 := s.startLane 0 s.st.lane0, lane1 := s.startLane 1 s.st.lane1 } }
  let t := (List.range 8).foldl State.startPeer ((t.startPort .a).startPort .b)
  if role = 1 then ({ t with pr := { t.pr with state := 1 } }).finishEnum else t

/-- Order 9: a failed self-test halts; else boot-good, nALERT and READY (R455, R457). -/
def startReady (s : State) (seen : StartSeen) : State :=
  if seen.selfTest = false then s.haltStart 5
  else
    { s with rs := { s.rs with
        phase := 0xA, counter := 0, alert := false, ready := true, core := false, reach := 0, wakeFrom := none } }

/-- Orders 6 to 9; orders 6 and 8 run where the reach calls for them (R454). -/
def startFrom6 (s : State) (seen : StartSeen) (whole : Bool) : State :=
  let t := if whole then s.startHubs seen else s
  let t := t.startEngines seen whole
  (if whole then t.startPorts else t).startReady seen

/-- Orders 4 to 9. -/
def startFrom4 (s : State) (seen : StartSeen) (whole : Bool) : State :=
  let t := s.startRom
  if seen.flashOk = false then t.haltStart 3
  else
    match t.startFirmware seen.norReadOk with
    | .error cause => t.haltStart cause
    | .ok u => u.startFrom6 seen whole

/-- A start may begin: no source of reset is asserted, and the module is not in a low-power state (R448). -/
def mayStart (s : State) : Bool :=
  (s.rs.phase == 1 || s.rs.phase == 2) && !s.rs.nrstLow && s.rs.rails.isEmpty && !s.hibernating

/-- Order 3, and after it the rest of a start (R452, R454, R460). Once the Ward has been set, a start that does not end is no
longer a power-on. UNZERO of an erase is known once the hubs have trained (19 R492). -/
def startFrom3 (s : State) (seen : StartSeen) : State :=
  let whole := decide (2 ≤ s.rs.reach)
  let atP := s.rs.reach == 3
  let t := (if whole then s.selectOption else s).wardFromOption atP
  let erase := t.eraseDue atP
  let t := if erase then t.eraseStore else t
  let t : State := { t with rs := { t.rs with reach := min 2 t.rs.reach } }
  if whole ∧ t.rs.optdef = true then t.enterRecovery 1
  else
    let t := t.counterRule
    if t.rs.recovery then t
    else
      let u := t.startFrom4 seen whole
      if erase then { u with dw := { u.dw with unzero := u.unzeroed } } else u

/-- START_SEQUENCE: a start runs to READY, to a halt or into recovery mode. Without TCXO_AON a start after P holds at order 2
(21 R514). -/
def startSequence (s : State) (seen : StartSeen) : State :=
  if s.mayStart = false then s
  else if s.rs.reach = 3 ∧ s.rs.clkTcxo = false then { s with rs := { s.rs with phase := 2 } }
  else ({ s with rs := { s.rs with phase := 3 } }).startFrom3 seen

/-! ### Recovery operations (R462) -/

/-- The image that a host offers, or the status of a failure: length, host read, signature (Table 17.16). -/
def offered (s : State) (addr : BitVec 52) (len : BitVec 25) (hostOk : Bool) : Except Byte Bytes :=
  if imageMax < len.toNat then .error 4
  else if hostOk = false ∨ s.hostUp = false then .error 2
  else
    let d := Mem.bytes s.host (addr.toNat * 4096) len.toNat
    if Config.fwVerifies d then .ok d else .error 1

/-- A recovery operation, written with GO by a port that holds Hasp 0. -/
def recover (s : State) (p : Port) (op : BitVec 4) (f : State → State) : State :=
  s.onRwl p 0x33020 fun t => f { t with rs := { t.rs with rcvOp := op } }

/-- The status of a recovery operation. -/
def rcvStatus (s : State) (b : Byte) : State := { s with rs := { s.rs with rcvStatus := b } }

/-- LOAD_RUN: a good image runs from order 6, with the selected option copy or the defaults. -/
def loadRun (s : State) (p : Port) (hostOk : Bool) (seen : StartSeen) : State :=
  s.recover p 1 fun t =>
    match t.offered t.rs.rcvAddr t.rs.rcvLen hostOk with
    | .error b => t.rcvStatus b
    | .ok d =>
      let u : State := { t with rs := { t.rs with
        recovery := false, phase := 6, halt := 0, option := if t.rs.optdef then optDefaults else t.rs.mirror } }
      (((u.startRom).runFirmware d).startFrom6 seen true).rcvStatus 0

/-- WRITE_NOR in recovery mode. -/
def rcvWriteNor (s : State) (p : Port) (hostOk norOk : Bool) : State :=
  s.recover p 2 fun t =>
    match t.offered t.rs.rcvAddr t.rs.rcvLen hostOk with
    | .error b => t.rcvStatus b
    | .ok d =>
      if norOk then ({ t with mg := { t.mg with nor := some d } }).rcvStatus 0
      else ({ t with mg := { t.mg with nor := none } }).rcvStatus 3

/-- CLEAR_CNT. -/
def clearCnt (s : State) (p : Port) : State :=
  s.recover p 3 fun t => ({ t with rs := { t.rs with counter := 0 } }).rcvStatus 0

end State

def execStartSequence (seen : StartSeen) (s : State) : Host.Outcome State Fault Refusal := .next (s.startSequence seen)

def execCommit (p : Port) (mramOk : Bool) (s : State) : Host.Outcome State Fault Refusal := .next (s.commit p mramOk)

def execLoadRun (p : Port) (hostOk : Bool) (seen : StartSeen) (s : State) : Host.Outcome State Fault Refusal :=
  .next (s.loadRun p hostOk seen)

def execRcvWriteNor (p : Port) (hostOk norOk : Bool) (s : State) : Host.Outcome State Fault Refusal :=
  .next (s.rcvWriteNor p hostOk norOk)

def execClearCnt (p : Port) (s : State) : Host.Outcome State Fault Refusal := .next (s.clearCnt p)

end Sys2Proof.Machine
end

