-- ==== Sys2Proof/Machine/RegRead.lean ====
section
/-! DEFINITION. The register window as a read composes it, block by block (20 Table 20.2, R497-R505, and the field tables of
every chapter), and what a read clears (R499). -/

namespace Sys2Proof.Machine

/-- The reader of a register: a host port, or the sideband (20 R498). -/
abbrev Agent := Option Port

/-- The copy of a selector that an agent reads through. -/
def Agent.pick {α : Type} (a : Agent) (x y : α) : α := if a = some .b then y else x

/-- The code of a link's state (13 Table 13.8). -/
def LinkState.code : LinkState → Nat
  | .disabled => 0
  | .training => 1
  | .up => 2
  | .down => 3
  | .failed => 4
  | .keyless => 5
  | .lowPower => 6

/-- The code of a domain state (03 Table 3.13). -/
def DState.code : DState → Nat
  | .off => 0
  | .ret => 1
  | .on => 2

/-- The code of a half's state (18 Table 18.10). -/
def HalfState.code : HalfState → Nat
  | .on => 0
  | .ret => 1
  | .off => 2
  | .tripped => 3

/-- The code of a context's state (11 Table 11.16). -/
def CtxState.code : CtxState → Nat
  | .free => 0
  | .live => 1
  | .resetting => 2

/-- The code of a job's state (14 Table 14.11). -/
def JobState.code : JobState → Nat
  | .none => 0
  | .loading => 1
  | .loaded => 2
  | .aborting => 3

/-- The code of a bank's or region's mode (12 Table 12.15). -/
def MemMode.code : MemMode → Nat
  | .plain => 0
  | .bitalias => 1
  | .atomic => 2

/-- The code of the entropy source's state (16 Table 16.10). -/
def EntState.code : EntState → Nat
  | .off => 0
  | .startup => 1
  | .ok => 2
  | .failed => 3

/-- The code of the Ward's state (19 Table 19.6). -/
def WardState.code : WardState → Nat
  | .open => 0
  | .closed => 1
  | .challenged => 2
  | .erasing => 3

namespace State

/-! ### MG (00 Table 0.2; 17 Table 17.4; 18 Tables 18.15-18.18; 20 R502) -/

/-- MG_IDENT of stepping A1. -/
def regIdent (s : State) : W64 :=
  pack [(0, 16, 0x3240), (16, 4, s.mg.grade.toNat), (20, 4, 1), (24, 4, 1), (32, 4, 1), (40, 4, 1)]

/-- MG_CAP. -/
def regCap (s : State) : W64 :=
  pack [(0, 6, (s.fb.lost.filter fun x => !x).length), (6, 4, (s.fb.hrows.filter (·.spareok)).length), (16, 11, 0x400),
    (27, 5, 0x10), (32, 8, 0xFF), (40, 13, 0x1000)]

/-- MG_RSTCAUSE. -/
def regCause (s : State) : W64 :=
  let m := s.mg
  pack [(0, 1, b2n m.por), (1, 1, b2n m.mon), (2, 1, b2n m.nrstc), (3, 1, b2n m.nrsts), (4, 1, b2n m.wake),
    (5, 1, b2n m.wakem), (6, 1, b2n m.recov), (16, 8, m.monrail.toNat), (24, 24, m.pulse.toNat)]

/-- MG_FWVER. -/
def regFwVer (s : State) : W64 :=
  pack [(0, 16, s.mg.fwRun.toNat), (16, 16, s.mg.fwNor.toNat), (32, 8, s.mg.ucif.toNat), (40, 1, b2n s.mg.nordiff)]

/-- MG_FWCMD: an operation ends with its command, so BUSY reads 0. -/
def regFwCmd (s : State) : W64 := pack [(0, 4, s.mg.fwOp.toNat), (8, 8, s.mg.fwStatus.toNat), (16, 16, s.mg.fwSver.toNat)]

/-- The MG block. -/
def readMg (s : State) (off : Nat) : Option W64 :=
  if off = 0x0 then some s.regIdent
  else if off = 0x8 then some s.regCap
  else if off = 0x10 then some s.mg.tick
  else if off = 0x18 then some s.regCause
  else if off = 0x20 then some s.regFwVer
  else if off = 0x28 then some s.regFwCmd
  else if off = 0x30 then some (pack [(12, 52, s.mg.fwAddr.toNat)])
  else if off = 0x38 then some (pack [(0, 25, s.mg.fwLen.toNat)])
  else none

/-! ### HP (13 Tables 13.8-13.15) -/

/-- HP_LINK of a port. -/
def regLink (s : State) (p : Port) : W64 :=
  let h := s.port p
  pack [(0, 3, h.state.code), (3, 2, h.width), (5, 4, h.ver), (9, 1, b2n h.sec.isSome), (10, 1, b2n s.rs.core),
    (16, 48, h.base / 65536)]

/-- HP_LERR of a port. -/
def regLerr (s : State) (p : Port) : W64 :=
  let h := s.port p
  pack [(0, 16, h.replay), (16, 8, h.retrain), (24, 8, h.downs), (32, 8, h.tagfail)]

/-- HP_ERR. -/
def regHpErr (s : State) : W64 :=
  let h := s.hp
  pack [(0, 1, b2n h.rwldrop), (1, 1, b2n (h.rwlPort == some .b)), (2, 20, h.rwlOff), (32, 8, h.hasperr), (40, 8, h.badacc),
    (48, 8, h.cachereq)]

/-- One bit for each Hasp. -/
def haspBits (s : State) (f : Option Port → Bool) : W64 := pack (mapIdxFrom (fun i h => (i, 1, b2n (f h))) 0 s.hp.hasps)

/-- HP_EVT. -/
def regHpEvt (s : State) : W64 :=
  let h := s.hp
  pack [(0, 1, b2n h.downA), (1, 1, b2n h.downB), (2, 1, b2n h.freedA), (3, 1, b2n h.freedB), (4, 1, b2n h.broke),
    (5, 6, h.lastbrk)]

/-- The HP block but for the Hasps themselves. -/
def readHp (s : State) (off : Nat) : Option W64 :=
  if off = 0x1000 then some (s.regLink .a)
  else if off = 0x1040 then some (s.regLink .b)
  else if off = 0x1008 then some (s.regLerr .a)
  else if off = 0x1048 then some (s.regLerr .b)
  else if off = 0x1080 then some s.regHpErr
  else if off = 0x1300 then some (s.haspBits (·.isSome))
  else if off = 0x1308 then some (s.haspBits (· == some Port.b))
  else if off = 0x1310 then some 0
  else if off = 0x1318 then some s.regHpEvt
  else none

/-! ### FE (09 Tables 9.10-9.17) -/

/-- FE_QSTAT of a queue; a free number shows its generation. -/
def regQstat (s : State) (n : Nat) : W64 :=
  let gen := Tbl.getD s.fe.qgens n 0
  match s.queue? n with
  | none => pack [(12, 14, gen)]
  | some q =>
    let slot := s.slotOf n
    let idle := (slot.bind fun i => s.fe.slots[i]?).any (·.idle)
    pack [(0, 2, q.state.code), (2, 2, q.cls), (4, 1, b2n q.kernel), (5, 1, b2n (q.watch && idle)), (6, 1, b2n slot.isSome),
      (7, 1, b2n q.homeb), (8, 4, if q.state = .error then q.cause else 0), (12, 14, q.gen), (26, 8, idOf q.tag)]

/-- FE_SLOTMAP of a slot. -/
def regSlot (s : State) (i : Nat) : W64 :=
  let t := (s.fe.slots[i]?).getD Slot.reset
  pack [(0, 10, t.queue.getD 0), (10, 1, b2n t.queue.isSome), (11, 1, b2n (decide (i < 2))), (12, 2, t.eclass),
    (14, 1, b2n t.idle), (15, 1, b2n t.cwait)]

/-- The FE block. -/
def readFe (s : State) (a : Agent) (off : Nat) : Option W64 :=
  let f := s.fe
  if off = 0x2000 then some (pack [(6, 58, f.kqAddr.toNat)])
  else if off = 0x2008 then some (pack [(8, 8, f.kqStatus.toNat), (16, 10, f.kqQueue), (26, 14, f.kqGen)])
  else if off = 0x2010 then some (pack [(0, 14, f.slice), (16, 8, f.age)])
  else if off = 0x2020 then some (pack [(0, 10, a.pick f.qselA f.qselB)])
  else if off = 0x2028 then some (s.regQstat (a.pick f.qselA f.qselB))
  else if off = 0x2030 then
    some (pack [(0, 1, b2n f.qerrValid), (1, 10, f.qerrQueue), (11, 4, f.qerrCause), (16, 16, f.qerrLost), (32, 16, f.qerrStale)])
  else if off = 0x2038 then some (pack [(0, 11, f.evVector), (11, 1, b2n f.evPortB), (12, 1, b2n f.evEn)])
  else if 0x2100 ≤ off ∧ off < 0x2180 then some (s.regSlot ((off - 0x2100) / 8))
  else none

/-! ### CX (11 Tables 11.11-11.18) -/

/-- CX_FAULTCTX. -/
def regFaultCtx (s : State) : W64 :=
  let c := s.cx
  pack [(0, 24, c.fTag.toNat), (24, 4, c.fCause), (28, 1, b2n c.fValid), (29, 1, b2n c.fMore), (32, 5, c.fLe), (37, 3, c.fSu),
    (40, 6, c.fIdx), (48, 16, c.fTick.toNat)]

/-- CX_STAT of a context ID. -/
def regCtxStat (s : State) (id : Nat) : W64 :=
  let c := s.ctx id
  pack [(0, 2, c.state.code), (2, 16, c.gen), (18, 1, b2n c.hung), (19, 1, b2n (c.fenced || !c.isolated.isEmpty)), (20, 1, b2n c.dump.isSome),
    (32, 16, c.resets)]

/-- The unit that a value of CX_PSEL names. -/
def unitOfSel (v : Nat) : Option HwUnit :=
  let le := bits v 16 5
  let idx := bits v 24 6
  match bits v 0 3 with
  | 0 => some (.sweep le (bits v 21 3))
  | 1 => some (.controller le)
  | 2 => if idx < 16 then some (.slot idx) else none
  | 3 => if idx < 4 then some (.peer idx) else none
  | 4 => if idx < 40 then some (.spoke idx) else none
  | _ => none

/-- A progress entry of a unit. -/
def progressOf (s : State) (u : HwUnit) (ctx : Option Nat) : Option Progress :=
  s.cx.progress.find? fun p => decide (p.unit = u) && decide (p.ctx = ctx)

/-- CX_PVAL for a value of CX_PSEL: the pair's mirror, or the count of the unit itself where the context has no work there. -/
def regPval (s : State) (v : Nat) : W64 :=
  match unitOfSel v with
  | none => 0
  | some u =>
    match s.progressOf u (some (bits v 8 8)), s.progressOf u none with
    | some p, _ => pack [(0, 32, p.mirrored), (32, 16, min p.since 0xFFFF), (48, 4, p.kind), (52, 1, b2n p.runnable)]
    | none, some p => pack [(0, 32, p.mirrored), (32, 16, min p.since 0xFFFF)]
    | none, none => 0

/-- The CX block. -/
def readCx (s : State) (a : Agent) (off : Nat) : Option W64 :=
  let c := s.cx
  if off = 0x4000 then some (pack [(0, 10, c.window), (10, 8, c.k), (18, 1, b2n c.auto)])
  else if off = 0x4008 then some s.regFaultCtx
  else if off = 0x4010 then some (pack [(0, 1, b2n c.mpfault), (1, 3, c.mpcause), (16, 16, c.autorst), (32, 16, c.stale)])
  else if 0x4020 ≤ off ∧ off < 0x4040 then some (BitVec.ofNat 64 (c.hungSet.toNat >>> (64 * ((off - 0x4020) / 8))))
  else if off = 0x4040 then some (pack [(0, 8, a.pick c.selA c.selB)])
  else if off = 0x4048 then some (s.regCtxStat (a.pick c.selA c.selB))
  else if off = 0x4050 then some (BitVec.ofNat 64 (a.pick c.pselA c.pselB).toNat)
  else if off = 0x4058 then some (s.regPval (a.pick c.pselA c.pselB).toNat)
  else none

/-! ### EN (03 Tables 3.13-3.16; 06 Tables 6.5-6.9; 12 Table 12.18; 20 Table 20.6, R501) -/

/-- A unit holds a runnable replica-block (03 R58). -/
def unitBusy (s : State) (le su : Nat) : Bool :=
  s.models.any fun p => match p.2.body with
    | .net n => n.rblocks.any fun b => decide (b.le = le) && decide (b.su = su) && (s.flipping b.le b.rblk).isSome
    | .store _ => false

/-- EN_STAT of a site. -/
def regSiteStat (s : State) (i : Nat) : W64 :=
  let x := s.site i
  let le := s.leOf i
  pack ([(0, 2, x.dstate.code), (2, 1, b2n le.isNone), (3, 1, b2n (x.retired || x.failed)), (4, 5, le.getD 0), (24, 8, x.sufault.toNat)] ++
    (List.range 8).map fun k => (16 + k, 1, b2n (le.any fun l => s.unitBusy l k)))

/-- EN_DOM of a site. -/
def regSiteDom (s : State) (i : Nat) : W64 :=
  let x := s.site i
  pack [(0, 2, x.target.code), (2, 1, b2n x.clearing), (3, 1, b2n x.scrub), (4, 1, b2n x.ucode), (5, 1, b2n x.tripped),
    (8, 3, x.point), (16, 16, x.trans)]

/-- The group and channel that a channel index of a logical engine lies in. -/
def channelAt (s : State) (le q : Nat) : Option (Group × Chan) :=
  s.groups.findSome? fun g =>
    if g.le = le ∧ g.gbase ≤ q then (g.chans[q - g.gbase]?).map fun c => (g, c) else none

/-- EN_QCH of a channel. -/
def regQch (g : Group) (c : Chan) : W64 :=
  pack [(0, 16, c.qscale.toNat), (16, 1, 1), (17, 1, b2n g.outbound), (18, 2, g.raw), (20, 3, g.mfmt),
    (23, 1, b2n g.policy.isSome), (24, 1, b2n g.stopped), (25, 1, b2n g.areaErr), (32, 16, g.block), (48, 12, g.gbase)]

/-- EN_VSDATA of an entry: the scale in force of the variable that it belongs to. -/
def regVscale (s : State) (le v : Nat) : W64 :=
  match s.models.findSome? fun p => match p.2.body with
      | .net n => (p.2.vscale.find? fun a => decide (a.le = le) && decide (a.base ≤ v) && decide (v < a.base + a.len)).map fun a => (n, a)
      | .store _ => none with
  | some (n, a) => pack [(0, 8, (n.block a.item).scales.getD (v - a.base) 0), (8, 1, 1)]
  | none => 0

/-- EN_SPMODE of a site (12 R349): bank 30 while microcode runs, and the moment banks of its models. -/
def regSpmode (s : State) (i : Nat) : W64 :=
  let banks := match s.leOf i with
    | some le => (s.taken.flatMap fun (m : Model) => m.moments).filterMap fun (m : Nat × Nat) => if m.1 = le then some m.2 else none
    | none => []
  pack ((if (s.site i).ucode then [(60, 2, MemMode.atomic.code)] else []) ++ banks.map fun b => (2 * b, 2, MemMode.atomic.code))

/-- A count in a field of 17 bits of EN_QST: a free value where it does not fit (06 R163, Table 6.7; log entry 107). -/
def narrowCount (n : Nat) : Nat := if n < 131072 then n else (Config.wideCount n).toNat

/-- A register of a site that holds a logical engine's channels or VSCALE: 0 while the site is OFF (R501). -/
def readEngine (s : State) (i off q v : Nat) : W64 :=
  match s.leOf i with
  | none => 0
  | some le =>
    if (s.site i).dstate = .off then 0
    else if off = 0x58 then s.regVscale le v
    else
      match s.channelAt le q with
      | none => 0
      | some (g, c) =>
        if off = 0x48 then regQch g c
        else if off = 0x50 then pack [(0, 17, narrowCount c.clip), (17, 17, narrowCount c.total), (34, 16, c.share), (50, 8, c.zrun)]
        else pack [(0, 32, c.clip), (32, 32, c.total)]

/-- The window of a site. -/
def readSite (s : State) (a : Agent) (i off : Nat) : Option W64 :=
  let x := s.site i
  let sel := (a.pick x.qselA x.qselB).toNat
  if off = 0x0 then some (s.regSiteStat i)
  else if off = 0x8 then some (s.regSiteDom i)
  else if off = 0x10 then some (pack [(0, 5, x.audlog), (8, 5, x.audeff)])
  else if off = 0x20 then some (pack [(0, 16, x.sramcorr), (16, 16, x.logcorr), (32, 16, x.detected), (48, 16, x.audmism)])
  else if off = 0x28 then some x.faultloc
  else if off = 0x40 then some (pack [(0, 12, bits sel 0 12), (16, 16, bits sel 16 16)])
  else if off = 0x60 then some (s.regSpmode i)
  else if off = 0x48 ∨ off = 0x50 ∨ off = 0x58 ∨ off = 0x68 then some (s.readEngine i off (bits sel 0 12) (bits sel 16 16))
  else none

/-! ### HB and FB (12 Tables 12.10-12.14; 07 Tables 7.11-7.16) -/

/-- HB_PKG of a package. -/
def regPkg (s : State) (k : Nat) : W64 :=
  let p := s.pkg k
  pack [(0, 2, p.state), (2, 4, p.failch.toNat), (6, 2, p.rate), (8, 5, k), (13, 6, s.siteOf k), (19, 1, b2n p.unclean),
    (32, 16, if p.state ≤ 1 then (s.packageBytes k - s.lpddrUsed k) / 1048576 else 0)]

/-- HB_HUB of a half. -/
def regHub (s : State) (h : Nat) : W64 :=
  pack ((0, 2, if h = 0 then s.hb.hubW else s.hb.hubE) ::
    (List.range 16).map fun j => (2 + j, 1, b2n (decide ((s.pkg (16 * h + j)).state ≤ 1))))

/-- The HB block. -/
def readHb (s : State) (a : Agent) (off : Nat) : Option W64 :=
  let h := s.hb
  let k := a.pick h.pselA h.pselB
  let p := s.pkg k
  if off = 0x20000 then some (pack [(0, 5, k)])
  else if off = 0x20008 then some (s.regPkg k)
  else if off = 0x20010 then some (pack [(0, 16, p.corr), (16, 16, p.uncorr), (32, 16, p.tagerr), (48, 16, p.passes)])
  else if off = 0x20018 then
    some (pack [(0, 30, h.logUnit), (30, 5, h.logPkg), (35, 2, h.logCh), (37, 1, h.logSub), (38, 1, b2n h.logKind),
      (39, 1, b2n h.logValid), (40, 8, h.logCtx)])
  else if off = 0x20040 then some (s.regHub 0)
  else if off = 0x20048 then some (s.regHub 1)
  else none

/-- FB_LANE of a lane; lane 3, which no model owns, reads as owned while an entry of the link is bound (DEDUCED, log entry 133). -/
def regLane (s : State) (l i : Nat) : W64 :=
  let k := s.link l
  let n := s.lane l i
  let parked := decide (48 ≤ l) && ((s.fb.hinges[(l - 48) / 2]?).getD Hinge.reset).parked
  let used := n.owner.isSome || (i == 3 && k.entries.any (·.isSome))
  pack ([(0, 2, if n.disabled then 2 else if parked then 3 else b2n used), (2, 2, if i = 3 then 0 else (n.owner.map (·.1)).getD 0),
      (16, 16, min n.replay 0xFFFF)] ++
    (mapIdxFrom (fun e (x : Option LinkEntry) => (4 + e, 1, b2n x.isSome)) 0 k.entries) ++
    (mapIdxFrom (fun e (x : Option LinkEntry) => (8 + e, 1, b2n (x.any (·.drain)))) 0 k.entries))

/-- FB_HROW of a half-row. -/
def regHrow (s : State) (h : Nat) : W64 :=
  let r := s.hrow h
  let waits := (List.range 5).any fun p => (s.site (siteAt h p)).failed
  let st := match r.shift with
    | some x => if x.paused then 2 else 1
    | none => if waits then 1 else if r.lostCol then 3 else 0
  pack [(0, 3, r.failpos), (3, 1, b2n r.spareok), (4, 3, st), (8, 8, r.pauses), (16, 16, r.lastpause)]

/-- FB_HINGE of a row. -/
def regHinge (s : State) (r : Nat) : W64 :=
  let x := (s.fb.hinges[r]?).getD Hinge.reset
  pack [(0, 1, b2n x.parked), (8, 8, x.fillwe), (16, 8, x.fillew)]

/-- The FB block. -/
def readFb (s : State) (a : Agent) (off : Nat) : Option W64 :=
  let f := s.fb
  let l := a.pick f.lselA f.lselB
  let i := a.pick f.laneA f.laneB
  if off = 0x24000 then some (pack [(0, 6, l), (6, 2, i)])
  else if off = 0x24008 then some (s.regLane l i)
  else if off = 0x24010 then
    some (pack [(0, 6, f.fltLink), (6, 2, f.fltLane), (8, 1, b2n f.fltValid), (9, 1, b2n f.fltCause), (10, 1, b2n f.fltHpwr),
      (16, 16, f.fltCount)])
  else if 0x24040 ≤ off ∧ off < 0x24080 then some (s.regHrow ((off - 0x24040) / 8))
  else if off = 0x24080 then some (pack [(0, 1, b2n f.auto)])
  else if 0x240C0 ≤ off ∧ off < 0x240E0 then some (s.regHinge ((off - 0x240C0) / 8))
  else none

/-! ### PR (14 Tables 14.7-14.13) -/

/-- PR_LINK of a link; its low-power substate shows as up, for which the table has no code. -/
def regPeerLink (s : State) (l : Nat) : W64 :=
  let x := s.peer l
  let cuff := (s.pr.jobs.map fun j => sumAt l j.2.cuff).sum
  pack [(0, 3, if x.state = .lowPower then 2 else x.state.code), (3, 2, x.kind), (5, 1, b2n x.x4), (6, 6, x.peer),
    (12, 16, x.replay), (28, 16, ceilDiv (2 * cuff) 1024)]

/-- PR_ROUTE of a node. -/
def regRoute (s : State) (n : Nat) : W64 :=
  let r := (s.pr.routes[n]?).getD Route.reset
  pack [(0, 3, r.link), (3, 1, b2n r.valid), (4, 1, b2n r.here), (5, 1, b2n r.unreach)]

/-- PR_JSTAT of a job. -/
def regJob (s : State) (id : Nat) : W64 :=
  if id = 0 then 0
  else
    match s.job? id with
    | none => pack [(0, 16, s.jobGen id)]
    | some j =>
      pack [(0, 16, s.jobGen id), (16, 2, j.state.code), (18, 7, j.parts.length), (25, 8, j.jctx),
        (33, 24, if s.pr.nodeid = 0 then j.owner.toNat else 0), (57, 6, j.lastNode)]

/-- The PR block. -/
def readPr (s : State) (a : Agent) (off : Nat) : Option W64 :=
  let p := s.pr
  if off = 0x28000 then
    some (pack [(0, 2, p.role), (2, 6, p.nodeid), (8, 2, p.depth), (10, 4, p.parent), (14, 2, p.state), (16, 7, p.nodes)])
  else if 0x28040 ≤ off ∧ off < 0x28080 then some (s.regPeerLink ((off - 0x28040) / 8))
  else if 0x28100 ≤ off ∧ off < 0x28300 then some (s.regRoute ((off - 0x28100) / 8))
  else if off = 0x28500 then some (pack [(0, 16, a.pick p.jselA p.jselB)])
  else if off = 0x28508 then some (s.regJob (a.pick p.jselA p.jselB))
  else if off = 0x28580 then some (pack [(0, 16, p.stale), (16, 16, p.aborts), (32, 8, min p.enumerr 0xFF)])
  else if off = 0x28588 then some (BitVec.ofNat 64 p.peermask.toNat)
  else none

/-! ### ST (15 Tables 15.8-15.15, R421) -/

/-- The safe level of an output: driven high only where the option block says so (Table 17.6). -/
def safeLevel (s : State) (b : Nat) : Bool := s.rs.safeKnown && bits (field s.rs.option 18 2) (2 * b) 2 == 2

/-- The level of an output bit (15 R421, 17 R458, 19 R485). -/
def outLevel (s : State) (b : Nat) : Bool :=
  let src := bits s.st.doSrc.toNat (2 * b) 2
  match s.st.doExtest with
  | some cells => bitAt cells.toNat b
  | none =>
    if s.cx.mpfault then s.safeLevel b
    else if src = 1 then bitAt s.st.doVal.toNat b
    else if src = 2 then
      match (Tbl.get? s.st.streams s.st.doStrm.toNat).bind (·.lastOut) with
      | some v => bitAt v b
      | none => s.safeLevel b
    else s.safeLevel b

/-- ST_DO. -/
def regDo (s : State) : W64 :=
  pack ([(0, 8, s.st.doVal.toNat), (8, 16, s.st.doSrc.toNat), (24, 16, s.st.doStrm.toNat)] ++
    (List.range 8).map fun b => (40 + b, 1, b2n (s.outLevel b)))

/-- ST_LANE of a lane. -/
def regSiteLane (x : SiteLane) : W64 :=
  pack [(0, 2, x.state), (2, 1, b2n x.slave), (3, 1, b2n x.prp), (16, 16, x.disc), (32, 16, x.dup)]

/-- ST_SREC of a record. -/
def regStream (s : State) (n : Nat) : W64 :=
  match Tbl.get? s.st.streams n with
  | none => 0
  | some x =>
    if x.state = 0 then pack [(5, 8, x.gen)]
    else
      pack [(0, 2, x.state), (2, 3, x.kind), (5, 8, x.gen), (13, 8, idOf x.tag),
        (21, 7, min (x.buffer.length + s.heldSamples n x) 127)]

/-- ST_SCNT of a record. -/
def regStreamCounts (s : State) (n : Nat) : W64 :=
  match Tbl.get? s.st.streams n with
  | none => 0
  | some x =>
    pack [(0, 8, x.stale), (8, 8, x.malform), (16, 8, x.oldseq), (24, 8, x.incompl), (32, 8, x.full), (40, 8, x.superseded),
      (48, 8, x.txfull), (56, 8, x.lateC)]

/-- ST_GCL of an entry. -/
def regGate (x : SiteLane) (i : Nat) : W64 :=
  match x.gcl[i]? with
  | some (g, last, n) => pack [(0, 8, g.toNat), (8, 1, b2n last), (32, 32, n.toNat)]
  | none => 0

/-- The ST block. -/
def readSt (s : State) (a : Agent) (off : Nat) : Option W64 :=
  let t := s.st
  let rec_ := a.pick t.sselA t.sselB
  if off = 0x2C000 then some (regSiteLane t.lane0)
  else if off = 0x2C040 then some (regSiteLane t.lane1)
  else if off = 0x2C080 then some (pack [(0, 2, t.tstate)])
  else if off = 0x2C088 then some (BitVec.ofNat 64 (t.time / 8 * 8))
  else if off = 0x2C090 then some s.regDo
  else if off = 0x2C098 then
    some (pack [(0, 8, t.diLevel.toNat), (8, 8, t.diEdgeEn.toNat), (16, 3, t.diLast), (19, 1, b2n t.diEdge), (20, 44, t.diTs.toNat)])
  else if off = 0x2C0A0 then some (pack [(0, 16, rec_)])
  else if off = 0x2C0A8 then some (s.regStream rec_)
  else if off = 0x2C0B0 then some (s.regStreamCounts rec_)
  else if 0x2C100 ≤ off ∧ off < 0x2C900 then some (regGate t.lane0 ((off - 0x2C100) / 8))
  else if 0x2C900 ≤ off ∧ off < 0x2D100 then some (regGate t.lane1 ((off - 0x2C900) / 8))
  else none

/-! ### RN, PW, DW, RS, CS (16 Tables 16.9-16.13; 18 Tables 18.9-18.14; 19 Tables 19.6-19.10; 17 Tables 17.12-17.16; 12 Tables
12.15-12.17) -/

/-- RN_STAT of a window. -/
def regRnStat (s : State) (w : Nat) : W64 :=
  let r := s.rn
  pack [(0, 1, b2n (!r.queue.isEmpty)), (1, 1, b2n (if w = 0 then r.err0 else r.err1)), (2, 2, r.state.code),
    (4, 1, b2n (s.window w).isSome), (16, 10, r.queue.length)]

/-- The RN block but for the reads that take data. -/
def readRn (s : State) (off : Nat) : Option W64 :=
  let r := s.rn
  if off = 0x30008 then some (s.regRnStat 0)
  else if off = 0x30048 then some (s.regRnStat 1)
  else if off = 0x30080 then some (pack [(0, 1, b2n r.latch)])
  else if off = 0x30088 then some (pack [(0, 16, r.rctFail), (16, 16, r.aptFail), (32, 16, r.startFail), (48, 16, r.returns)])
  else none

/-- PW_STAT. -/
def regPower (s : State) : W64 :=
  let p := s.pw
  let m := match p.mstate with
    | .active => 0
    | .standby => 1
    | .entering => 2
    | .hibernate | .hibernateM => 3
  pack [(0, 2, m), (2, 2, p.halfW.code), (4, 2, p.halfE.code), (6, 10, p.limit), (16, 10, p.efflim), (26, 1, b2n p.cphot),
    (32, 10, p.modpwr), (42, 8, p.cptemp.toNat)]

/-- PW_EVT. -/
def regPowerEvt (s : State) : W64 :=
  let p := s.pw
  pack [(0, 1, b2n p.evTripW), (1, 1, b2n p.evTripE), (2, 1, b2n p.evVinW), (3, 1, b2n p.evVinE), (4, 1, b2n p.evHotHub),
    (5, 1, b2n p.evRange)]

/-- The selection of PW_ENGSEL of an agent. -/
def engSel (s : State) (a : Agent) : Nat :=
  match a with
  | some .a => s.pw.selA
  | some .b => s.pw.selB
  | none => s.pw.selS

/-- PW_ENG of a site. -/
def regPowerEng (s : State) (i : Nat) : W64 :=
  if 40 ≤ i then 0
  else
    let x := s.site i
    pack [(0, 10, x.volt), (10, 16, x.budget), (26, 16, x.power), (42, 8, x.tj.toNat), (50, 8, x.frac), (58, 6, x.throt)]

/-- The PW block. -/
def readPw (s : State) (a : Agent) (off : Nat) : Option W64 :=
  if off = 0x31000 then some (pack [(0, 1, b2n s.pw.stbyoff), (1, 1, b2n s.pw.autowake)])
  else if off = 0x31008 then some s.regPower
  else if off = 0x31010 then some s.regPowerEvt
  else if off = 0x31020 then some (pack [(0, 6, s.engSel a)])
  else if off = 0x31028 then some (s.regPowerEng (s.engSel a))
  else if 0x31040 ≤ off ∧ off < 0x31068 then
    some (pack ((List.range 8).map fun k => (3 * k, 3, (s.site (off - 0x31040 + k)).vcap)))
  else none

/-- DW_STAT. -/
def regWard (s : State) : W64 :=
  let d := s.dw
  pack [(0, 2, d.state.code), (2, 1, b2n s.keysBlank), (3, 4, d.fails), (8, 32, d.unzero.toNat), (40, 16, d.denied)]

/-- The DW block. -/
def readDw (s : State) (off : Nat) : Option W64 :=
  let d := s.dw
  if off = 0x32000 then some s.regWard
  else if off = 0x32008 then some (pack [(0, 4, d.op.toNat), (6, 1, b2n d.close), (8, 8, d.status.toNat)])
  else if off = 0x32010 then some (pack [(6, 58, d.addr.toNat)])
  else if 0x32020 ≤ off ∧ off < 0x32040 then
    some (match d.chal with
      | some c => BitVec.ofNat 64 (c.toNat >>> (64 * ((off - 0x32020) / 8)))
      | none => 0)
  else if 0x32040 ≤ off ∧ off < 0x320A0 then some (d.resp.getD ((off - 0x32040) / 8) 0)
  else none

/-- RS_STAT. -/
def regStart (s : State) : W64 :=
  let r := s.rs
  let t := field (if r.optdef then optDefaults else r.mirror) 16 1
  pack [(0, 4, r.phase), (4, 4, r.halt), (8, 4, r.counter), (12, 4, t), (16, 1, b2n r.recovery), (17, 1, b2n r.optsel),
    (18, 1, b2n r.optAok), (19, 1, b2n r.optBok), (20, 1, b2n r.optdef)]

/-- The RS block. -/
def readRs (s : State) (off : Nat) : Option W64 :=
  let r := s.rs
  if off = 0x33000 then some s.regStart
  else if off = 0x33008 then some (pack [(8, 4, r.optStatus), (12, 1, b2n r.optCopy)])
  else if off = 0x33010 then some (pack [(12, 52, r.rcvAddr.toNat)])
  else if off = 0x33018 then some (pack [(0, 25, r.rcvLen.toNat)])
  else if off = 0x33020 then some (pack [(0, 4, r.rcvOp.toNat), (8, 8, r.rcvStatus.toNat)])
  else if 0x33100 ≤ off ∧ off < 0x33200 then some (BitVec.ofNat 64 (field r.mirror (off - 0x33100) 8))
  else if 0x33200 ≤ off ∧ off < 0x33300 then some (BitVec.ofNat 64 (field r.stage (off - 0x33200) 8))
  else none

/-- The CS block. -/
def readCs (s : State) (off : Nat) : Option W64 :=
  let c := s.cs
  if 0x34000 ≤ off ∧ off < 0x34020 then
    some (pack ((List.range 32).map fun j => (2 * j, 2, (c.modes.getD (4 * (off - 0x34000) + j) .plain).code)))
  else if off = 0x34020 then
    some (pack [(0, 1, b2n c.clearing), (16, 16, c.corr), (32, 8, c.uncorr), (40, 8, c.aliasdrop), (48, 8, c.atomrej)])
  else if off = 0x34028 then
    some (pack [(3, 20, c.errWord), (23, 1, b2n c.errValid), (24, 1, b2n c.errPort), (25, 1, b2n c.errRmw)])
  else none

/-! ### The whole window (R497) -/

/-- The value of a register as an agent reads it: none at a reserved offset. HP_HASP, RN_DATA and RN_DRBG are read by
operations of their own. -/
def regValue (s : State) (a : Agent) (off : Nat) : Option W64 :=
  if off % 8 ≠ 0 then none
  else if off < 0x1000 then s.readMg off
  else if off < 0x2000 then s.readHp off
  else if off < 0x4000 then s.readFe a off
  else if off < 0x5000 then s.readCx a off
  else if off < 0x10000 then none
  else if off < 0x1A000 then s.readSite a ((off - 0x10000) / 0x400) ((off - 0x10000) % 0x400)
  else if off < 0x20000 then none
  else if off < 0x24000 then s.readHb a off
  else if off < 0x28000 then s.readFb a off
  else if off < 0x2C000 then s.readPr a off
  else if off < 0x30000 then s.readSt a off
  else if off < 0x31000 then s.readRn off
  else if off < 0x32000 then s.readPw a off
  else if off < 0x33000 then s.readDw off
  else if off < 0x34000 then s.readRs off
  else if off < 0x35000 then s.readCs off
  else none

/-! ### What a read clears (R499) -/

/-- The RC fields of the host ports, the front end and the contexts go to 0. -/
def clearLow (s : State) (off : Nat) : State :=
  if off = 0x1008 then { s with hp := { s.hp with portA := { s.hp.portA with replay := 0, retrain := 0, downs := 0, tagfail := 0 } } }
  else if off = 0x1048 then
    { s with hp := { s.hp with portB := { s.hp.portB with replay := 0, retrain := 0, downs := 0, tagfail := 0 } } }
  else if off = 0x1080 then { s with hp := { s.hp with hasperr := 0, badacc := 0, cachereq := 0 } }
  else if off = 0x2030 then { s with fe := { s.fe with qerrLost := 0, qerrStale := 0 } }
  else if off = 0x4010 then { s with cx := { s.cx with autorst := 0, stale := 0 } }
  else s

/-- The RC fields of hubs, fabric and peers go to 0. -/
def clearMid (s : State) (a : Agent) (off : Nat) : State :=
  if off = 0x20010 then
    s.updPkg (a.pick s.hb.pselA s.hb.pselB) fun p => { p with corr := 0, uncorr := 0, tagerr := 0 }
  else if off = 0x24008 then
    s.updLane (a.pick s.fb.lselA s.fb.lselB) (a.pick s.fb.laneA s.fb.laneB) fun n => { n with replay := 0 }
  else if 0x240C0 ≤ off ∧ off < 0x240E0 then
    { s with fb := { s.fb with hinges := updAt s.fb.hinges ((off - 0x240C0) / 8) fun h => { h with fillwe := 0, fillew := 0 } } }
  else if 0x28040 ≤ off ∧ off < 0x28080 then s.updPeer ((off - 0x28040) / 8) fun l => { l with replay := 0 }
  else if off = 0x28580 then { s with pr := { s.pr with stale := 0, aborts := 0 } }
  else s

/-- The RC fields of the site port, the entropy service, power, Ward and common SRAM go to 0. -/
def clearHigh (s : State) (a : Agent) (off : Nat) : State :=
  if off = 0x2C000 then { s with st := { s.st with lane0 := { s.st.lane0 with disc := 0, dup := 0 } } }
  else if off = 0x2C040 then { s with st := { s.st with lane1 := { s.st.lane1 with disc := 0, dup := 0 } } }
  else if off = 0x2C0B0 then
    { s with st := { s.st with streams := Tbl.upd s.st.streams (a.pick s.st.sselA s.st.sselB) Stream.uncounted } }
  else if off = 0x30088 then { s with rn := { s.rn with rctFail := 0, aptFail := 0, startFail := 0, returns := 0 } }
  else if off = 0x31028 then s.updSite (s.engSel a) fun x => { x with throt := 0 }
  else if off = 0x32000 then { s with dw := { s.dw with denied := 0 } }
  else if off = 0x34020 then { s with cs := { s.cs with corr := 0, uncorr := 0, aliasdrop := 0, atomrej := 0 } }
  else s

/-- A read clears the RC fields of its register for every agent. -/
def regCleared (s : State) (a : Agent) (off : Nat) : State :=
  if off < 0x10000 then s.clearLow off
  else if off < 0x1A000 then
    if (off - 0x10000) % 0x400 = 0x20 then
      s.updSite ((off - 0x10000) / 0x400) fun x => { x with sramcorr := 0, logcorr := 0, detected := 0, audmism := 0 }
    else s
  else if off < 0x2C000 then s.clearMid a off
  else s.clearHigh a off

end State

end Sys2Proof.Machine
end

