-- ==== Sys2Proof/Machine/RegWrite.lean ====
section
/-! DEFINITION. Writes and reads of the register window by a host port (13 R366-R371, R376; 20 R497-R501, and the field tables of
every chapter), with the meanings of REGISTER_WRITE and RC_READ. -/

namespace Sys2Proof.Machine

namespace State

/-! ### Which writes need Hasp 0 (13 R371) -/

/-- A register that has an RWL field. -/
def rwlReg (off : Nat) : Bool :=
  [0x28, 0x30, 0x38, 0x2000, 0x2010, 0x2038, 0x4000, 0x24000, 0x24080, 0x28588, 0x2C090, 0x2C098, 0x30080, 0x31000, 0x32008,
    0x32010, 0x33010, 0x33018, 0x33020].contains off ||
  (decide (0x10000 ≤ off) && decide (off < 0x1A000) && (off % 0x400 == 0x10 || off % 0x400 == 0x40)) ||
  (decide (0x2C100 ≤ off) && decide (off < 0x2D100)) || (decide (0x31040 ≤ off) && decide (off < 0x31068)) ||
  (decide (0x33200 ≤ off) && decide (off < 0x33300)) || (decide (0x34000 ≤ off) && decide (off < 0x34020))

/-- The offset of a Hasp, and its number. -/
def haspAt (off : Nat) : Option Nat := if 0x1100 ≤ off ∧ off < 0x1300 ∧ off % 8 = 0 then some ((off - 0x1100) / 8) else none

/-- The window of a register that a read takes entropy from: RN_DATA (false) or RN_DRBG (true). -/
def rnAt (off : Nat) : Option (Bool × Nat) :=
  if off = 0x30000 then some (false, 0)
  else if off = 0x30040 then some (false, 1)
  else if off = 0x30010 then some (true, 0)
  else if off = 0x30050 then some (true, 1)
  else none

/-- A register stands at the offset. -/
def regThere (s : State) (p : Port) (off : Nat) : Bool :=
  (haspAt off).isSome || (rnAt off).isSome || (s.regValue (some p) off).isSome

/-! ### Writes, block by block -/

/-- A write of one 64-bit half of the hung set clears the bits written 1 (11 Table 11.14). -/
def clearHung (s : State) (i : Nat) (v : W64) : State :=
  { s with cx := { s.cx with hungSet := s.cx.hungSet &&& ~~~(BitVec.ofNat 256 (v.toNat <<< (64 * i))) } }

/-- MG (17 Table 17.4; 18 Tables 18.16-18.18). GO with OP 1 to 3 is the command of that operation. -/
def writeMg (s : State) (off v : Nat) : State :=
  let op := BitVec.ofNat 4 v
  let keep := fun (f : Bool) (i : Nat) => f && !bitAt v i
  if off = 0x18 then
    let m := s.mg
    { s with mg := { m with
        por := keep m.por 0, mon := keep m.mon 1, nrstc := keep m.nrstc 2, nrsts := keep m.nrsts 3, wake := keep m.wake 4
        wakem := keep m.wakem 5, recov := keep m.recov 6, monrail := m.monrail &&& ~~~(BitVec.ofNat 8 (v / 2 ^ 16)) } }
  else if off = 0x28 then
    if bitAt v 4 then
      if 1 ≤ v % 16 ∧ v % 16 ≤ 3 then s else { s with mg := { s.mg with fwOp := op, fwStatus := 5 } }
    else { s with mg := { s.mg with fwOp := op } }
  else if off = 0x30 then { s with mg := { s.mg with fwAddr := BitVec.ofNat 52 (v / 4096) } }
  else if off = 0x38 then { s with mg := { s.mg with fwLen := BitVec.ofNat 25 v } }
  else s

/-- HP, but for the Hasps and HP_HASPBRK (13 Tables 13.10, 13.15). -/
def writeHp (s : State) (off v : Nat) : State :=
  let h := s.hp
  let keep := fun (f : Bool) (i : Nat) => f && !bitAt v i
  if off = 0x1080 then
    if bitAt v 0 then { s with hp := { h with rwldrop := false, rwlPort := none, rwlOff := 0 } } else s
  else if off = 0x1318 then
    { s with hp := { h with
        downA := keep h.downA 0, downB := keep h.downB 1, freedA := keep h.freedA 2, freedB := keep h.freedB 3
        broke := keep h.broke 4 } }
  else s

/-- Sets a port's copy of one of two selectors. -/
def pickSet {α : Type} (p : Port) (a b x : α) : α × α :=
  match p with
  | .a => (x, b)
  | .b => (a, x)

/-- FE (09 Tables 9.10-9.16). -/
def writeFe (s : State) (p : Port) (off v : Nat) : State :=
  let f := s.fe
  if off = 0x2000 then { s with fe := { f with kqAddr := BitVec.ofNat 58 (v / 64) } }
  else if off = 0x2008 then (if bitAt v 0 then s.kqcmdGo.assignSlots else s)
  else if off = 0x2010 then
    let n := v % 16384
    { s with fe := { f with slice := (if 10 ≤ n ∧ n ≤ 10000 then n else f.slice), age := bits v 16 8 } }
  else if off = 0x2020 then
    let x := pickSet p f.qselA f.qselB (v % 1024)
    { s with fe := { f with qselA := x.1, qselB := x.2 } }
  else if off = 0x2030 then (if bitAt v 0 then { s with fe := { f with qerrValid := false } } else s)
  else if off = 0x2038 then { s with fe := { f with evVector := v % 2048, evPortB := bitAt v 11, evEn := bitAt v 12 } }
  else s

/-- CX (11 Tables 11.11-11.17). -/
def writeCx (s : State) (p : Port) (off v : Nat) : State :=
  let c := s.cx
  if off = 0x4000 then
    let w := v % 1024
    let k := bits v 10 8
    { s with cx := { c with
        window := (if 1 ≤ w ∧ w ≤ 1000 then w else c.window), k := (if 2 ≤ k then k else c.k), auto := bitAt v 18 } }
  else if off = 0x4008 then
    if bitAt v 28 then
      { s with cx := { c with fTag := 0, fCause := 0, fValid := false, fMore := false, fLe := 0, fSu := 0, fIdx := 0 } }
    else s
  else if 0x4020 ≤ off ∧ off < 0x4040 then s.clearHung ((off - 0x4020) / 8) (BitVec.ofNat 64 v)
  else if off = 0x4040 then
    let x := pickSet p c.selA c.selB (v % 256)
    { s with cx := { c with selA := x.1, selB := x.2 } }
  else if off = 0x4050 then
    let x := pickSet p c.pselA c.pselB (BitVec.ofNat 30 (v % 8 + bits v 8 22 * 256))
    { s with cx := { c with pselA := x.1, pselB := x.2 } }
  else s

/-- The window of a site (03 Tables 3.13, 3.14; 06 Table 6.5). -/
def writeSite (s : State) (p : Port) (i off v : Nat) : State :=
  if off = 0x0 then s.updSite i fun x => { x with sufault := x.sufault &&& ~~~(BitVec.ofNat 8 (v / 2 ^ 24)) }
  else if off = 0x10 then
    let n := v % 32
    if 10 ≤ n ∧ n ≤ 24 then s.updSite i fun x => { x with audlog := n } else s
  else if off = 0x40 then
    s.updSite i fun x =>
      let y := pickSet p x.qselA x.qselB (BitVec.ofNat 32 (v % 4096 + bits v 16 16 * 65536))
      { x with qselA := y.1, qselB := y.2 }
  else s

/-- HB (12 Tables 12.10, 12.13). -/
def writeHb (s : State) (p : Port) (off v : Nat) : State :=
  let h := s.hb
  if off = 0x20000 then
    let x := pickSet p h.pselA h.pselB (v % 32)
    { s with hb := { h with pselA := x.1, pselB := x.2 } }
  else if off = 0x20018 then
    if bitAt v 39 then
      { s with hb := { h with
          logUnit := 0, logPkg := 0, logCh := 0, logSub := 0, logKind := false, logValid := false, logCtx := 0 } }
    else s
  else s

/-- FB (07 Tables 7.11, 7.15). -/
def writeFb (s : State) (p : Port) (off v : Nat) : State :=
  let f := s.fb
  if off = 0x24000 then
    let l := v % 64
    let x := pickSet p f.lselA f.lselB (if l < 56 then l else (match p with | .a => f.lselA | .b => f.lselB))
    let y := pickSet p f.laneA f.laneB (bits v 6 2)
    { s with fb := { f with lselA := x.1, lselB := x.2, laneA := y.1, laneB := y.2 } }
  else if off = 0x24080 then { s with fb := { f with auto := bitAt v 0 } }
  else s

/-- PR (14 Tables 14.10, 14.13). -/
def writePr (s : State) (p : Port) (off v : Nat) : State :=
  if off = 0x28500 then
    let x := pickSet p s.pr.jselA s.pr.jselB (v % 65536)
    { s with pr := { s.pr with jselA := x.1, jselB := x.2 } }
  else if off = 0x28588 then { s with pr := { s.pr with peermask := BitVec.ofNat 32 v } }
  else s

/-- An entry of a gate list as written (15 Table 15.15). -/
def setGate (x : SiteLane) (i v : Nat) : SiteLane :=
  { x with gcl := x.gcl.set i (BitVec.ofNat 8 v, bitAt v 8, BitVec.ofNat 32 (v / 2 ^ 32)) }

/-- ST (15 Tables 15.10-15.15). -/
def writeSt (s : State) (p : Port) (off v : Nat) : State :=
  let t := s.st
  if off = 0x2C090 then
    { s with st := { t with
        doVal := BitVec.ofNat 8 v, doSrc := BitVec.ofNat 16 (v / 2 ^ 8), doStrm := BitVec.ofNat 16 (v / 2 ^ 24) } }
  else if off = 0x2C098 then
    { s with st := { t with diEdgeEn := BitVec.ofNat 8 (v / 2 ^ 8), diEdge := t.diEdge && !bitAt v 19 } }
  else if off = 0x2C0A0 then
    let x := pickSet p t.sselA t.sselB (v % 65536)
    { s with st := { t with sselA := x.1, sselB := x.2 } }
  else if 0x2C100 ≤ off ∧ off < 0x2C900 then { s with st := { t with lane0 := setGate t.lane0 ((off - 0x2C100) / 8) v } }
  else if 0x2C900 ≤ off ∧ off < 0x2D100 then { s with st := { t with lane1 := setGate t.lane1 ((off - 0x2C900) / 8) v } }
  else s

/-- RN (16 Tables 16.10, 16.12). A write of 1 to RELEASE acts before LATCH takes its new value. -/
def writeRn (s : State) (off v : Nat) : State :=
  if off = 0x30008 then { s with rn := { s.rn with err0 := s.rn.err0 && !bitAt v 1 } }
  else if off = 0x30048 then { s with rn := { s.rn with err1 := s.rn.err1 && !bitAt v 1 } }
  else if off = 0x30080 then
    let t := if bitAt v 1 then s.releaseEntropy else s
    { t with rn := { t.rn with latch := bitAt v 0 } }
  else s

/-- PW (18 Tables 18.9-18.14). -/
def writePw (s : State) (p : Port) (off v : Nat) : State :=
  let w := s.pw
  let keep := fun (f : Bool) (i : Nat) => f && !bitAt v i
  if off = 0x31000 then { s with pw := { w with stbyoff := bitAt v 0, autowake := bitAt v 1 } }
  else if off = 0x31010 then
    { s with pw := { w with
        evTripW := keep w.evTripW 0, evTripE := keep w.evTripE 1, evVinW := keep w.evVinW 2, evVinE := keep w.evVinE 3
        evHotHub := keep w.evHotHub 4, evRange := keep w.evRange 5 } }
  else if off = 0x31020 then
    let x := pickSet p w.selA w.selB (v % 64)
    { s with pw := { w with selA := x.1, selB := x.2 } }
  else if 0x31040 ≤ off ∧ off < 0x31068 then
    (List.range 8).foldl (fun t k => t.updSite (off - 0x31040 + k) fun x => { x with vcap := bits v (3 * k) 3 }) s
  else s

/-- DW (19 Tables 19.7, 19.8, 19.10). GO with OP 1 to 4 is the command of that operation; no rule gives a reserved OP an
effect. -/
def writeDw (s : State) (off v : Nat) : State :=
  if off = 0x32008 then
    if bitAt v 4 && decide (1 ≤ v % 16) && decide (v % 16 ≤ 4) then s
    else { s with dw := { s.dw with op := BitVec.ofNat 4 v, close := bitAt v 6 } }
  else if off = 0x32010 then { s with dw := { s.dw with addr := BitVec.ofNat 58 (v / 64) } }
  else if 0x32040 ≤ off ∧ off < 0x320A0 then
    { s with dw := { s.dw with resp := s.dw.resp.set ((off - 0x32040) / 8) (BitVec.ofNat 64 v) } }
  else s

/-- RS (17 Tables 17.13-17.16). COMMIT, and GO with OP 1 to 3, are commands of their own. -/
def writeRs (s : State) (off v : Nat) : State :=
  let r := s.rs
  let op := BitVec.ofNat 4 v
  if off = 0x33010 then { s with rs := { r with rcvAddr := BitVec.ofNat 52 (v / 4096) } }
  else if off = 0x33018 then { s with rs := { r with rcvLen := BitVec.ofNat 25 v } }
  else if off = 0x33020 then
    if bitAt v 4 then
      if 1 ≤ v % 16 ∧ v % 16 ≤ 3 then s else { s with rs := { r with rcvOp := op, rcvStatus := 5 } }
    else { s with rs := { r with rcvOp := op } }
  else if 0x33200 ≤ off ∧ off < 0x33300 then
    let i := off - 0x33200
    { s with rs := { r with stage := r.stage.take i ++ leBytes 8 v ++ r.stage.drop (i + 8) } }
  else s

/-- The mode that a field of CS_MODE sets; 0b11 keeps the old one (12 R347). -/
def modeOf (old : MemMode) (n : Nat) : MemMode :=
  match n with
  | 0 => .plain
  | 1 => .bitalias
  | 2 => .atomic
  | _ => old

/-- CS (12 Tables 12.15, 12.17). -/
def writeCs (s : State) (off v : Nat) : State :=
  let c := s.cs
  if 0x34000 ≤ off ∧ off < 0x34020 then
    let base := 4 * (off - 0x34000)
    { s with cs := { c with modes := mapIdxFrom (fun i m =>
        if base ≤ i ∧ i < base + 32 then modeOf m (bits v (2 * (i - base)) 2) else m) 0 c.modes } }
  else if off = 0x34028 then
    if bitAt v 23 then { s with cs := { c with errWord := 0, errValid := false, errPort := false, errRmw := false } } else s
  else s

/-- What a write of a register does: reserved and read-only fields ignore it (00 R7). -/
def regWritten (s : State) (p : Port) (off v : Nat) : State :=
  if off < 0x1000 then s.writeMg off v
  else if off < 0x2000 then s.writeHp off v
  else if off < 0x4000 then s.writeFe p off v
  else if off < 0x5000 then s.writeCx p off v
  else if off < 0x10000 then s
  else if off < 0x1A000 then s.writeSite p ((off - 0x10000) / 0x400) ((off - 0x10000) % 0x400) v
  else if off < 0x20000 then s
  else if off < 0x24000 then s.writeHb p off v
  else if off < 0x28000 then s.writeFb p off v
  else if off < 0x2C000 then s.writePr p off v
  else if off < 0x30000 then s.writeSt p off v
  else if off < 0x31000 then s.writeRn off v
  else if off < 0x32000 then s.writePw p off v
  else if off < 0x33000 then s.writeDw off v
  else if off < 0x34000 then s.writeRs off v
  else s.writeCs off v

/-- An access of a register is of 64 bits and aligned (13 R367). -/
def regFits (off size : Nat) : Bool := size == 8 && decide (off % 8 = 0)

/-- A write by a host port (13 R366-R371). One of another size or alignment, or at an offset where no register stands, is refused. -/
def registerWrite (s : State) (p : Port) (off size : Nat) (v : W64) : State :=
  if regFits off size = false then s.onWrite p off State.dropAccess
  else match haspAt off with
  | some n => s.haspWrite p n v
  | none =>
    if off = 0x1310 then s.haspBreak p v
    else if s.regThere p off = false then s.onWrite p off State.dropAccess
    else if rwlReg off then s.onRwl p off fun t => t.regWritten p off v.toNat
    else s.onWrite p off fun t => t.regWritten p off v.toNat

/-- A read by a host port: the whole register, whose RC fields it clears for every agent (13 R368; 20 R499). -/
def registerRead (s : State) (p : Port) (off size : Nat) : State :=
  if regFits off size = false then s.onRead p off fun t => t.badAccess p
  else match haspAt off, rnAt off with
  | some n, _ => s.haspRead p n
  | none, some (false, w) => s.rnData p w
  | none, some (true, w) => s.rnDrbg p w
  | none, none =>
    s.onRead p off fun t =>
      match t.regValue (some p) off with
      | some v => (t.regCleared (some p) off).answer p (.value v)
      | none => t.badAccess p

end State

def execRegisterWrite (p : Port) (off size : Nat) (v : W64) (s : State) : Host.Outcome State Fault Refusal :=
  .next (s.registerWrite p off size v)

def execRcRead (p : Port) (off size : Nat) (s : State) : Host.Outcome State Fault Refusal := .next (s.registerRead p off size)

end Sys2Proof.Machine
end

