-- ==== Sys2Proof/Machine/Clocks.lean ====
section
/-! DEFINITION. The reference clocks, the SMBus sideband, and the checks of the management plane (21 R513, R514, R517; 20 R505; 11
R324), with the meanings of REFCLK_LINK_LOSS, REFCLK_SITE_LOSS, TCXO_AON_LOSS, CLOCK_RETURN, SIDEBAND_WRITE, SIDEBAND_READ,
WATCHDOG_EXPIRY and CORE_CROSS_CHECK. -/

namespace Sys2Proof.Machine

namespace State

/-! ### Management-plane faults (11 R324) -/

/-- The first fault found stands in CX_GSTAT, and nALERT goes low. -/
def managementFault (s : State) (cause : Nat) : State :=
  if s.cx.mpfault then s
  else { s with cx := { s.cx with mpfault := true, mpcause := cause }, rs := { s.rs with alert := true } }

/-- Firmware runs, and processes ticks. -/
def firmwareRuns (s : State) : Bool := s.rs.phase == 10 && !s.cx.mpfault

/-- The AON watchdog has not been served for 32 ticks. -/
def watchdogExpired (s : State) : State := if s.firmwareRuns then s.managementFault 1 else s

/-- The cross-check of the four cores, every 16 ticks, and SECDED of the memories, at every read. -/
def crossCheck (s : State) (find : PlaneFind) : State :=
  if s.firmwareRuns = false then s
  else
    match find with
    | .clean => s
    | .coresDiffer => if s.now % 16 = 0 then s.managementFault 2 else s
    | .memoryBad => s.managementFault 3

/-! ### Clocks (21 R514) -/

/-- A host link that is up goes down. -/
def clockHost (s : State) (p : Port) : State := if s.linkUp p then s.hostLost p 0 else s

/-- A peer link that is up goes down. -/
def clockPeer (s : State) (l : Nat) : State := if s.peerUp l then s.peerLost l else s

/-- REFCLK_LINK is lost: every host and peer link goes down. -/
def linkClockLost (s : State) : State :=
  if s.rs.clkLink = false then s
  else
    let t : State := { s with rs := { s.rs with clkLink := false } }
    (List.range 8).foldl State.clockPeer ((t.clockHost .a).clockHost .b)

/-- REFCLK_SITE is lost: both site lanes go down, and the timebase shows HOLDOVER. -/
def siteClockLost (s : State) : State :=
  if s.rs.clkSite = false then s
  else
    let t : State := { s with rs := { s.rs with clkSite := false } }
    let t := (t.siteLaneDown 0).siteLaneDown 1
    { t with st := { t.st with tstate := 3 } }

/-- A hub that runs fails. -/
def dropHub (s : State) (h : Half) : State :=
  if (match h with | .west => s.hb.hubW | .east => s.hb.hubE) = 0 then s else s.hubFailed h

/-- TCXO_AON is lost: before order 2 of a start after P the start will hold there; after it, a management-plane fault, and both
hubs fail. -/
def tcxoLost (s : State) : State :=
  if s.rs.clkTcxo = false then s
  else
    let t : State := { s with rs := { s.rs with clkTcxo := false } }
    if t.rs.phase ≤ 2 then t else ((t.managementFault 1).dropHub .west).dropHub .east

/-- A clock runs again; it starts nothing. -/
def clockBack (s : State) (c : RefClock) : State :=
  match c with
  | .link => { s with rs := { s.rs with clkLink := true } }
  | .site => { s with rs := { s.rs with clkSite := true } }
  | .tcxo => { s with rs := { s.rs with clkTcxo := true } }

/-! ### Sideband (20 R505; 21 R517) -/

/-- The registers that the sideband reads. -/
def sidebandReads : List Nat :=
  [0x0, 0x8, 0x10, 0x18, 0x20, 0x1000, 0x1040, 0x31008, 0x31010, 0x31020, 0x31028, 0x33000, 0x32000]

/-- What the sideband is answered. -/
def sidebandAnswer (s : State) (code : Nat) (v : W64) : State := { s with sideband := .status code v }

/-- A sideband read: done with a value, refused, or its PEC failed. RC fields clear for every agent. -/
def sidebandRead (s : State) (off : Nat) (pecOk : Bool) : State :=
  if pecOk = false then s.sidebandAnswer 2 0
  else if sidebandReads.contains off then
    match s.regValue none off with
    | some v => (s.regCleared none off).sidebandAnswer 0 v
    | none => s.sidebandAnswer 1 0
  else s.sidebandAnswer 1 0

/-- A sideband write reaches PW_ENGSEL's own copy and nothing else. -/
def sidebandWrite (s : State) (off : Nat) (v : W64) (pecOk : Bool) : State :=
  if pecOk = false then s.sidebandAnswer 2 0
  else if off = 0x31020 then ({ s with pw := { s.pw with selS := v.toNat % 64 } } : State).sidebandAnswer 0 0
  else s.sidebandAnswer 1 0

end State

def execWatchdogExpiry (s : State) : Host.Outcome State Fault Refusal := .next s.watchdogExpired

def execCoreCrossCheck (find : PlaneFind) (s : State) : Host.Outcome State Fault Refusal := .next (s.crossCheck find)

def execRefclkLinkLoss (s : State) : Host.Outcome State Fault Refusal := .next s.linkClockLost

def execRefclkSiteLoss (s : State) : Host.Outcome State Fault Refusal := .next s.siteClockLost

def execTcxoAonLoss (s : State) : Host.Outcome State Fault Refusal := .next s.tcxoLost

def execClockReturn (c : RefClock) (s : State) : Host.Outcome State Fault Refusal := .next (s.clockBack c)

def execSidebandWrite (off : Nat) (v : W64) (pecOk : Bool) (s : State) : Host.Outcome State Fault Refusal :=
  .next (s.sidebandWrite off v pecOk)

def execSidebandRead (off : Nat) (pecOk : Bool) (s : State) : Host.Outcome State Fault Refusal :=
  .next (s.sidebandRead off pecOk)

end Sys2Proof.Machine
end

