-- ==== Sys2Proof/Machine/Ticks.lean ====
section
/-! DEFINITION. The management tick and the hang rule (18 R470-R480; 11 R307-R312; 03 R90; 20 R503), with the meanings of
MANAGEMENT_TICK and HANG_DETECTED. -/

namespace Sys2Proof.Machine

/-- Numbers in rising order, each once. -/
def insertOnce (n : Nat) : List Nat → List Nat
  | [] => [n]
  | x :: xs => if n < x then n :: x :: xs else if n = x then x :: xs else x :: insertOnce n xs

/-- A list of numbers sorted, each once. -/
def sortOnce (l : List Nat) : List Nat := l.foldl (fun acc n => insertOnce n acc) []

namespace State

/-! ### Units and their contexts, in the order of a counter readout (11 Table 11.2; 20 R506) -/

/-- The places of a model: engine and unit of each replica-block and of each slice of entries. -/
def unitsOf (m : Model) : List (Nat × Nat) :=
  ((match m.body with
    | .net n => n.rblocks.map fun (b : RBlock) => (b.le, b.su)
    | .store _ => []) ++ m.dense.map fun (a : Alloc) => (a.le, a.su))

/-- The (sweep unit, context) pairs with resident replica-blocks or entries. -/
def sweepPairs (s : State) : List (HwUnit × Option Nat) :=
  let codes := s.taken.flatMap fun m => (unitsOf m).map fun p => (p.1 * 8 + p.2) * 256 + idOf m.tag
  (sortOnce codes).map fun c => (.sweep (c / 2048) (c / 256 % 8), some (c % 256))

/-- The requests of a context for an engine that have not started, held ones included. -/
def controllerRequests (s : State) (le c : Nat) : List Request :=
  s.fe.requests.filter fun r => !r.kernel && decide (idOf r.tag = c) && bitAt (s.namedMask r) le &&
    (r.state == .waiting || r.state == .heldPatch || (r.state == .dispatched && r.hold.isSome))

/-- An engine is an end of a link. -/
def linkAt (l le : Nat) : Bool := decide ((Img.linkEnds l).1 = le) || decide ((Img.linkEnds l).2 = le)

/-- A context waits for words at an engine: each of its transfers in a service queue there that waits behind another, as KIND, TAG
and LINK of a blocking record (R310). The one in front waits for its own words; behind migration control it is held. -/
def transferWaits (s : State) (le c : Nat) : List (Nat × BitVec 24 × Nat) :=
  (s.fb.service.filter fun x => linkAt x.link le && decide (x.tag ≠ 0) && decide (idOf x.tag = c)).filterMap fun x =>
    (s.fb.service.find? fun y => decide (y.link = x.link) && decide (y.dir = x.dir)).map fun y =>
      if y.tag = 0 then (6, 0, 0) else if idOf y.tag = c then (8, x.tag, x.link) else (7, y.tag, x.link)

/-- A context waits for words of its own on the lanes of a link at an engine. -/
def laneWaits (s : State) (le c : Nat) : List (Nat × BitVec 24 × Nat) :=
  (List.range 56).flatMap fun l =>
    if linkAt l le && (s.link l).lanes.any (fun n => [n.fwd, n.back].any fun w => !w.words.isEmpty || !w.held.isEmpty) then
      (((s.link l).entries.filterMap id).filter fun e => decide (idOf e.tag = c)).map fun e => (8, e.tag, l)
    else []

/-- The contexts with work on an engine's controller: chains there, requests that have not started, and transfers that wait. -/
def controllerContexts (s : State) (le : Nat) : List Nat :=
  sortOnce (((s.fe.chains.filter fun c => c.ptr.any fun p => decide (p.1 = le)).map fun c => idOf c.tag) ++
    ((s.fe.requests.filter fun r => !r.kernel && bitAt (s.namedMask r) le && r.state != .heldFailed && r.state != .ended).map
      fun r => idOf r.tag) ++
    ((s.fb.service.filter fun x => linkAt x.link le && decide (x.tag ≠ 0)).map fun x => idOf x.tag))

/-- The context of the queue that a slot serves. -/
def slotContext (s : State) (i : Nat) : Option Nat :=
  (((s.fe.slots[i]?).getD Slot.reset).queue.bind s.queue?).map fun q => idOf q.tag

/-- The runs of jobs that wait for credit on a link of a peer port, with the contexts of their jobs (14 R399). -/
def creditWaits (s : State) (port : Nat) : List Nat :=
  s.pr.jobs.filterMap fun p =>
    match p.2.model.bind s.runOn, p.2.model.bind s.net? with
    | some u, some n =>
      if s.cuffDue p.2 u n && (s.sendLinks p.2.parts).any fun l => decide (peerPort l = port) && !p.2.credits.contains (l, u.turn) then
        some (if p.2.jctx = 0 then idOf p.2.owner else p.2.jctx)
      else none
    | _, _ => none

/-- The contexts that hold work on a peer port or spoke, from those that the unit itself holds. -/
def unitHolders (s : State) (u : HwUnit) (own : List Nat) : List Nat :=
  match u with
  | .peer i => sortOnce (own ++ s.creditWaits i)
  | _ => sortOnce own

/-- Every counter that is kept, in the order of a readout, with what the peer ports and spokes hold. -/
def unitPairs (s : State) (own : HwUnit → List Nat) : List (HwUnit × Option Nat) :=
  s.sweepPairs ++
  ((List.range 32).flatMap fun le => (.controller le, none) :: (s.controllerContexts le).map fun c => (.controller le, some c)) ++
  ((List.range 16).flatMap fun i => (.slot i, none) :: (s.slotContext i).toList.map fun c => (.slot i, some c)) ++
  ((((List.range 4).map HwUnit.peer) ++ (List.range 40).map HwUnit.spoke).flatMap fun u =>
    (u, none) :: (s.unitHolders u (own u)).map fun c => (u, some c))

/-- The work of a peer port or spoke at a tick. -/
def workAt (t : Telemetry) (u : HwUnit) : UnitWork :=
  (match u with
    | .peer i => t.ports[i]?
    | .spoke i => t.spokes[i]?
    | _ => none).getD ⟨0, []⟩

/-- What the peer ports and spokes held at the last tick. -/
def workThen (s : State) (u : HwUnit) : List Nat :=
  s.cx.progress.filterMap fun p => if p.unit = u then p.ctx else none

/-- The runs of a context with a replica-block on a unit. -/
def unitRuns (s : State) (le su c : Nat) : List Run :=
  s.runs.filter fun u => (s.model? u.model).any fun m => decide (idOf m.tag = c) && (unitsOf m).contains (le, su)

/-- A RETRIEVE of a context has its passes on a unit to make. -/
def passRunnable (s : State) (le su c : Nat) : Bool :=
  s.fe.requests.any fun r => r.running && r.op == Op.retrieve && r.hold.isNone && decide (idOf r.tag = c) &&
    r.reads.any fun x => (s.model? x.1).any fun m => (unitsOf m).contains (le, su)

/-- A context has a runnable replica-block on a unit (03 R58), or an entry pass. -/
def sweepRunnable (s : State) (le su c : Nat) : Bool :=
  s.passRunnable le su c ||
  s.models.any fun p => decide (idOf p.2.tag = c) && match p.2.body with
    | .net n => n.rblocks.any fun b => decide (b.le = le) && decide (b.su = su) && (s.flipping b.le b.rblk).isSome
    | .store _ => false

/-- The next descriptor of a chain of the context lies on the engine and may start. -/
def chainReady (s : State) (le c : Nat) : Bool :=
  s.fe.chains.any fun x => x.ptr.any (fun p => decide (p.1 = le)) && decide (idOf x.tag = c) && s.recordRoom x.queue

/-- A request of the context for the engine may start, or the next descriptor of a chain. -/
def controllerRunnable (s : State) (le c : Nat) : Bool :=
  s.chainReady le c || (s.controllerRequests le c).any fun r => s.mayDispatch r && s.dispatchOpen r

/-- A context has runnable work on a unit (Table 11.2). -/
def unitRunnable (s : State) (t : Telemetry) (u : HwUnit) (c : Nat) : Bool :=
  match u with
  | .sweep le su => s.sweepRunnable le su c
  | .controller le => s.controllerRunnable le c
  | .slot i =>
    match ((s.fe.slots[i]?).getD Slot.reset).queue with
    | none => false
    | some n => (s.queue? n).any fun q => s.queueReady n q
  | .peer _ | .spoke _ => (s.unitHolders u (workAt t u).ctxs).contains c

/-- A request waits as a hold: its own, a spare shift's, or that of a module that is not ACTIVE (R124, R139, R172, R200, R228, R259;
18 R466). -/
def holds (s : State) (r : Request) : Bool := r.hold.isSome || s.shiftHolds r.tag || !s.powerOpen r

/-- A stream of a context into a model or store on a unit has no sample to convert. -/
def siteWaits (s : State) (le su c : Nat) : Bool :=
  s.st.streams.any fun p => decide (p.2.state ≠ 0) && decide (p.2.kind ≠ 3) && decide (idOf p.2.tag = c) && p.2.buffer.isEmpty &&
    (s.model? p.2.target).any fun m => (unitsOf m).contains (le, su)

/-- A peer port's link waits for the nonce of its keys (13 R365; 16 R435). -/
def nonceWaits (s : State) (port : Nat) : Bool :=
  (List.range 8).any fun l => decide (peerPort l = port) && s.peerEnabled l && s.peerEncrypted l && s.peerKey.isSome &&
    (s.drawFw 16).isNone && (s.peer l).state == .training

/-- The blocking record of a unit for a context: KIND, TAG and LINK (Table 11.3; log entry 95). -/
def blocking (s : State) (u : HwUnit) (c : Nat) : Nat × BitVec 24 × Nat :=
  match u with
  | .sweep le su =>
    let rs := s.unitRuns le su c
    let ws := s.transferWaits le c
    match ws.find? fun w => w.1 == 7 with
    | some w => w
    | none =>
      if s.sweepRunnable le su c then (0, 0, 0)
      else if (rs.any fun r => (s.req? r.key).any s.holds) || ws.any fun w => w.1 == 6 then (6, 0, 0)
      else if rs.any fun r => (s.model? r.model).any fun m => decide (m.job ≠ 0) && (r.barrier || (s.job? m.job).any fun j =>
          (s.net? r.model).any fun n => s.cuffDue j r n && !s.credited j r) then (2, 0, 0)
      else if rs.any s.turning then ((ws ++ s.laneWaits le c).head?).getD (0, 0, 0)
      else if s.siteWaits le su c then (3, 0, 0)
      else (0, 0, 0)
  | .controller le =>
    let rs := s.controllerRequests le c
    let ws := s.transferWaits le c
    match ws.find? fun w => w.1 == 7 with
    | some w => w
    | none =>
      if s.controllerRunnable le c then (0, 0, 0)
      else if s.fe.chains.any fun x => x.ptr.any (fun p => decide (p.1 = le)) && decide (idOf x.tag = c) then (5, 0, 0)
      else if rs.any s.holds || ws.any fun w => w.1 == 6 then (6, 0, 0)
      else if rs.any fun r => r.state == .heldPatch || r.edges.any fun e => e.out != .satisfied then (1, 0, 0)
      else (ws.head?).getD (0, 0, 0)
  | .slot i => (if ((s.fe.slots[i]?).getD Slot.reset).cwait then 5 else 0, 0, 0)
  | .peer i => (if (s.creditWaits i).contains c then 2 else if s.nonceWaits i then 4 else 0, 0, 0)
  | .spoke _ => (0, 0, 0)

/-- The count of a counter now: the slot's own count of descriptors fetched; a peer port and a spoke count what crossed them. -/
def unitCount (s : State) (t : Telemetry) (u : HwUnit) (p : Progress) : Nat :=
  match u with
  | .slot i => ((s.fe.slots[i]?).getD Slot.reset).fetched % 2 ^ 64
  | _ => (p.count + (workAt t u).count) % 2 ^ 64

/-- The mirror of one counter at a tick (11 R308, R309): it has risen, waits, or has come to have work. -/
def mirrorOne (s : State) (t : Telemetry) (x : HwUnit × Option Nat) : Progress :=
  let own := s.progressOf x.1 (match x.1 with | .sweep _ _ => x.2 | _ => none)
  let old := (s.progressOf x.1 x.2).getD (newProgress x.1 x.2 0 s.now)
  let n := s.unitCount t x.1 (own.getD old)
  let rose := n != old.mirrored
  let why := (x.2.map (s.blocking x.1)).getD (0, 0, 0)
  let work := x.2.any (s.unitRunnable t x.1)
  { unit := x.1, ctx := x.2, count := n, mirrored := n
    lastRise := if rose then s.now else old.lastRise
    tr := if rose || decide (1 ≤ why.1 ∧ why.1 ≤ 7) || (work && !old.runnable) then s.now else old.tr
    since := if rose then 0 else min (old.since + 1) 65535, kind := why.1, tag := why.2.1, link := why.2.2, runnable := work }

/-- Every counter and blocking record is mirrored. -/
def mirrorAll (s : State) (t : Telemetry) : State :=
  { s with cx := { s.cx with progress := (s.unitPairs fun u => (workAt t u).ctxs).map (s.mirrorOne t) } }

/-! ### Telemetry and the thermal checks (18 R473, R476, R480) -/

/-- The highest of some readings. -/
def highest : List Int → Option Int
  | [] => none
  | x :: xs => some (xs.foldl max x)

/-- Whole degrees Celsius of a reading in half degrees. -/
def wholeC (h : Int) : Int := h / 2

/-- A site's telemetry; a site below 97 °C is no longer throttled, and a tick with throttling is counted. -/
def siteTele (x : Site) (t : SiteTele) : Site :=
  { x with
    volt := t.volt % 1024, power := min t.power 65535, tj := BitVec.ofNat 8 (ofSigned 8 (wholeC t.tj))
    throt := if x.throttled then satInc 6 x.throt else x.throt
    throttled := x.throttled && decide (194 ≤ t.tj), overshoot := false }

/-- The telemetry of every site. -/
def takeSites (s : State) (t : Telemetry) : State :=
  { s with sites := mapIdxFrom (fun i x => match t.sites[i]? with
      | some y => siteTele x y
      | none => x) 0 s.sites }

/-- The cold-plate reading lies outside the grade's range (00 Table 0.1): C 10 to 45 °C, X −10 to 60 °C. -/
def outOfRange (grade : BitVec 4) (h : Int) : Bool :=
  if grade = 2 then decide (h < -20) || decide (120 < h) else decide (h < 20) || decide (90 < h)

/-- Module power, supplies, and hub, manager and cold-plate temperatures. -/
def takeModule (s : State) (t : Telemetry) : State :=
  let w := s.pw
  let cp := highest t.base
  let hub := highest t.hubMgr
  let hot := match hub with
    | some h => if 200 ≤ h then true else if h < 194 then false else w.hotHub
    | none => w.hotHub
  let cpHot := match cp with
    | some h => decide (70 < h)
    | none => w.cphot
  { s with pw := { w with
      modpwr := min (t.input / 1000) 1023, cphot := cpHot, efflim := if cpHot then min 500 w.limit else w.limit
      cptemp := match cp with
        | some h => BitVec.ofNat 8 (ofSigned 8 (wholeC h))
        | none => w.cptemp
      tjHub := (hub.map wholeC).getD w.tjHub, hotHub := hot
      evHotHub := w.evHotHub || hub.any fun h => decide (200 ≤ h)
      vinW := decide (1746 ≤ t.vinWest), vinE := decide (1746 ≤ t.vinEast) } }

/-- PW_EVT.CPRANGE, with its signal when the event is new. -/
def checkRange (s : State) (t : Telemetry) : State :=
  if (highest t.base).any (outOfRange s.mg.grade) && !s.pw.evRange then
    ({ s with pw := { s.pw with evRange := true } } : State).eventSignal
  else s

/-! ### The governor (18 R474, R475) -/

/-- Engine power at the operating points, in tenths of a watt (Table 18.3). -/
def pointPower (p : Nat) : Nat := [20, 30, 44, 63, 90, 116, 145, 175].getD p 175

/-- The predicted power of an engine at a point, in mW (R475). -/
def predicted (x : Site) (p : Nat) : Nat := x.power * pointPower p / pointPower x.point

/-- Equal shares, none above its cap: engines whose cap lies below the share take their cap, and the rest is divided again
(R474 step 4). Each entry is a site and its cap. -/
def divide : Nat → Nat → List (Nat × Nat) → List (Nat × Nat)
  | 0, _, _ => []
  | fuel + 1, rest, l =>
    match l with
    | [] => []
    | _ =>
      let share := rest / l.length
      let low := l.filter fun e => decide (e.2 < share)
      if low.isEmpty then l.map fun e => (e.1, share)
      else low ++ divide fuel (rest - (low.map (·.2)).sum) (l.filter fun e => !decide (e.2 < share))

/-- An engine has runnable work. -/
def siteBusy (s : State) (i : Nat) : Bool := (s.leOf i).any fun le => (List.range 8).any fun su => s.unitBusy le su

/-- The cap on the budget of a busy engine: its predicted power at PW_VCAP, and at most at 0.60 V while a hub or manager is hot
(R474 steps 4 and 5). -/
def budgetCap (s : State) (i : Nat) : Nat :=
  let x := s.site i
  if s.pw.hotHub then min (predicted x x.vcap) (predicted x 1) else predicted x x.vcap

/-- The budgets of R474 by site, for the engines that are ON. -/
def budgets (s : State) (t : Telemetry) : List (Nat × Nat) :=
  let on := (List.range 40).filter fun i => (s.site i).dstate == .on
  let busy := on.filter s.siteBusy
  let idle := on.filter fun i => !s.siteBusy i
  let eng := s.pw.efflim * 1000 - (t.input - t.engines) - 5000
  idle.map (fun i => (i, 1000)) ++ divide 41 (eng - 1000 * idle.length) (busy.map fun i => (i, s.budgetCap i))

/-- The highest point whose predicted power fits a budget, no higher than `top`; the lowest where none fits. -/
def lowPoint (x : Site) (budget : Nat) : Nat → Nat
  | 0 => 0
  | top + 1 => if predicted x (top + 1) ≤ budget then top + 1 else lowPoint x budget top

/-- The share of the tick at the next point above, in 1/256 (R475). -/
def highShare (x : Site) (budget lo top : Nat) : Nat :=
  let a := predicted x lo
  let b := predicted x (lo + 1)
  if top ≤ lo ∨ budget < a ∨ b ≤ a then 0 else min 255 ((budget - a) * 256 / (b - a))

/-- An engine controller takes its budget and sets its points; a throttled engine does not rise. -/
def setBudget (busy : Bool) (budget : Nat) (x : Site) : Site :=
  let b := min budget 65535
  if busy then
    let top := if x.throttled then min x.vcap x.point else x.vcap
    let lo := lowPoint x b top
    { x with budget := b, point := lo, frac := highShare x b lo top }
  else { x with budget := b, point := 0, frac := 0 }

/-- Every engine that is ON has its budget. -/
def govern (s : State) (t : Telemetry) : State :=
  (s.budgets t).foldl (fun u e => u.updSite e.1 (setBudget (s.siteBusy e.1) e.2)) s

/-! ### Audit intervals (03 R90) -/

/-- Runnable replica-blocks on a unit. -/
def runnableOn (s : State) (le su : Nat) : Nat :=
  (s.models.map fun p => match p.2.body with
    | .net n => (n.rblocks.filter fun b => decide (b.le = le) && decide (b.su = su) && (s.flipping b.le b.rblk).isSome).length
    | .store _ => 0).sum

/-- log2 of the effective interval for a configured log2 and a count m. -/
def auditLog (a m : Nat) : Nat := max (Nat.log2 (6 * 2 ^ a / max m 6)) (min a 15)

/-- Every site's AUDEFF. -/
def setAudits (s : State) : State :=
  { s with sites := mapIdxFrom (fun i (x : Site) =>
      let m := match s.leOf i with
        | some le => (List.range 8).foldl (fun k su => max k (s.runnableOn le su)) 0
        | none => 0
      { x with audeff := auditLog x.audlog m }) 0 s.sites }

/-! ### The tick (18 R479; 20 R503) -/

/-- MG_TICK counts: TCXO_AON runs, and the module is past order 2 of a start after P. -/
def tickRuns (s : State) : Bool := s.rs.clkTcxo && s.rs.rails.isEmpty && !(s.rs.reach == 3 && decide (s.rs.phase ≤ 2))

/-- Replays of the tick that has ended no longer count (07 R192). -/
def newTick (s : State) : State :=
  { s with
    mg := { s.mg with tick := s.mg.tick + 1 }
    fb := { s.fb with links := s.fb.links.map fun l => { l with lanes := l.lanes.map fun n => { n with inTick := 0 } } } }

/-- A tick: it counts, and firmware that runs mirrors, samples, checks, governs and sets the audits in the order of R479. -/
def managementTick (s : State) (t : Telemetry) : State :=
  if s.tickRuns = false then s
  else
    let u := s.newTick
    if u.firmwareRuns = false then u
    else
      let u := ((u.mirrorAll t).takeSites t).takeModule t
      ((((u.checkRange t).govern t).setAudits).settleRet).settleOn

/-! ### Hangs (11 R309, R311) -/

/-- The cause of a hang on a unit (Table 11.10). -/
def hangCause : HwUnit → Nat
  | .sweep _ _ => 1
  | .controller _ => 2
  | .slot _ => 3
  | .peer _ => 4
  | .spoke _ => 5

/-- The unit fields of CX_FAULTCTX: engine, sweep unit, index. -/
def unitFields : HwUnit → Nat × Nat × Nat
  | .sweep le su => (le, su, 0)
  | .controller le => (le, 0, 0)
  | .slot i | .peer i | .spoke i => (0, 0, i)

/-- A context is hung on a unit: it has had runnable work and shown no progress for K·W ticks. -/
def isHung (s : State) (id : Nat) (u : HwUnit) : Bool :=
  match s.progressOf u (some id) with
  | none => false
  | some p => p.runnable && (p.kind == 0 || p.kind == 8) && decide (p.tr + s.cx.k * s.cx.window ≤ s.now)

/-- The contexts that a context's blocking records of KIND 0x7 name. -/
def awaits (s : State) (id : Nat) : List Nat :=
  (s.cx.progress.filter fun p => p.ctx == some id && p.kind == 7).map fun p => idOf p.tag

/-- The contexts that a list of contexts awaits, and those that they await in turn. -/
def awaitedFrom (s : State) : Nat → List Nat → List Nat
  | 0, l => l
  | fuel + 1, l =>
    let next := sortOnce (l ++ l.flatMap s.awaits)
    if next.length = l.length then l else s.awaitedFrom fuel next

/-- The chain of awaited contexts that a context is in closes on itself (R310). -/
def inCycle (s : State) (id : Nat) : Bool := (s.awaitedFrom 256 (sortOnce (s.awaits id))).contains id

/-- A context is found hung on a unit: by its own stall there, or as it waits there in a cycle of awaited contexts. -/
def foundHung (s : State) (id : Nat) (u : HwUnit) : Bool :=
  s.isHung id u || ((s.progressOf u (some id)).any (fun p => p.kind == 7) && s.inCycle id)

/-- A context is found hung and has still to be handled. -/
def hangOpen (s : State) (id : Nat) : Bool :=
  decide (id ≠ 0) && !(s.ctx id).hung && (s.ctx id).state == .live &&
    s.cx.progress.any fun p => p.ctx == some id && s.foundHung id p.unit

/-- The first tick at which a context is hung: flag, record, signal, and with AUTO a reset. Contexts found hung at one tick are
handled in ascending order. -/
def hangDetected (s : State) (id : Nat) (u : HwUnit) : State :=
  let c := s.ctx id
  if id = 0 ∨ 256 ≤ id ∨ c.hung = true ∨ c.state ≠ .live ∨ s.firmwareRuns = false ∨ s.foundHung id u = false ∨
      (List.range id).any s.hangOpen = true then s
  else
    let f := unitFields u
    let t := s.updCtx id fun c => { c with hung := true }
    let t : State := { t with cx := { t.cx with hungSet := t.cx.hungSet ||| BitVec.ofNat 256 (2 ^ id) } }
    let t := (t.noteContext (s.tagOf id) (hangCause u) f.1 f.2.1 f.2.2).eventSignal
    if s.cx.auto then ({ t with cx := { t.cx with autorst := satInc 16 t.cx.autorst } } : State).resetContext id none false
    else t

end State

def execManagementTick (t : Telemetry) (s : State) : Host.Outcome State Fault Refusal := .next (s.managementTick t)

def execHangDetected (ctx : Nat) (u : HwUnit) (s : State) : Host.Outcome State Fault Refusal := .next (s.hangDetected ctx u)

end Sys2Proof.Machine
end

