-- ==== Sys2Proof/Machine/Dump.lean ====
section
/-! DEFINITION. Crash dumps and the counter readout (11 R318, R321, R322; 20 R506), with the meanings of CTX_DUMP, DUMP_ACK_TIMEOUT,
DUMP_WRITE and COUNTER_READ_ALL. -/

namespace Sys2Proof.Machine

/-- A section of a dump before it is placed: type, engine, unit (0xFF for none) and contents (11 R322). -/
structure DumpSection where
  kind : Nat
  le   : Nat
  su   : Nat
  body : Bytes
  deriving DecidableEq, Repr

namespace State

/-! ### Starting a dump (R321 order 1) -/

/-- A spare shift has paused a context: it has an allocation on the half-row (07 Table 7.8). -/
def pausedByShift (s : State) (id : Nat) : Bool :=
  (List.range 8).any fun h => (s.hrow h).shift.any (·.paused) && s.allocatedInRow id h

/-- A dump of a context has to wait: for a reset, another dump, or the pause of a spare shift (R318; 07 Table 7.8). -/
def dumpWaits (s : State) (id : Nat) : Bool :=
  (s.ctx id).resetting.isSome || (s.ctx id).dump.isSome || s.pausedByShift id

/-- Order 1 of a dump: the fence is raised on the units that hold work of the context. -/
def startDump (s : State) (k : ReqKey) (id : Nat) : State :=
  if s.dumpWaits id then s
  else s.updCtx id fun c => { c with
    fenced := true
    dump := some { req := k, tick := s.mg.tick, faultCtx := s.regFaultCtx, unreachable := [] } }

/-- A CTX_DUMP: its dispatch, and once what it waited for is over, its start, under the tag that the ID then has (R318). -/
def ctxDump (s : State) (k : ReqKey) : State :=
  match s.ready? k Op.ctxDump with
  | some r =>
    let tag := payloadTag r
    if s.tagLive tag = false ∧ ((s.ctx (idOf tag)).resetting.any fun x => x.tagBefore == tag) = false then
      s.refuse k (Refuse.field 56 0)
    else (s.holdReq k (some .dump)).startDump k (idOf tag)
  | none =>
    match s.req? k with
    | some r =>
      if r.op = Op.ctxDump ∧ r.state = .dispatched ∧ r.hold = some .dump ∧ s.firmwareRuns = true then s.startDump k (idOf (payloadTag r))
      else s
    | none => s

/-! ### Units of the context (R321 orders 2, 3) -/

/-- The units that hold work of a context, ascending. -/
def unitsWith (s : State) (id : Nat) : List HwUnit := ((s.unitPairs s.workThen).filter fun p => p.2 == some id).map (·.1)

/-- A unit has not paused within 100 µs: it is recorded UNREACHABLE. -/
def dumpTimeout (s : State) (id : Nat) (u : HwUnit) : State :=
  match (s.ctx id).dump with
  | none => s
  | some d =>
    if (s.unitsWith id).contains u ∧ d.unreachable.contains u = false then
      s.updCtx id fun c => { c with dump := some { d with unreachable := d.unreachable ++ [u] } }
    else s

/-! ### Sections (Table 11.8) -/

/-- The state of a request in a dump: waiting, dispatched or held failed. -/
def dumpReqState (r : Request) : Nat :=
  match r.state with
  | .heldPatch | .waiting => 0
  | .dispatched | .ended => 1
  | .heldFailed => 2

/-- A request entry. -/
def dumpRequest (s : State) (r : Request) : Bytes :=
  leBytes 8 r.key.name.toNat ++ leBytes 1 r.op ++ leBytes 1 (dumpReqState r) ++ leBytes 1 r.status ++ List.replicate 5 0 ++
  leBytes 8 (((s.run? r.key).map (·.turn)).getD r.turns) ++ List.replicate 8 0

/-- A replica-block: its record and its state words. -/
def dumpRBlock (n : Net) (b : RBlock) : Bytes :=
  slice (Config.recordImage b.dE b.flips b.frozenTurns b.audit b.draw) 0 256 ++ (n.block b.block).render b.state

/-- The blocking record of a mirrored pair. -/
def blockRecord (p : Progress) : W64 := pack [(0, 4, p.kind), (4, 24, p.tag.toNat), (28, 6, p.link)]

/-- The count of a unit that has acknowledged. -/
def unitNow (s : State) (u : HwUnit) (p : Progress) : Nat :=
  match u with
  | .slot i => ((s.fe.slots[i]?).getD Slot.reset).fetched % 2 ^ 64
  | _ => p.count

/-- A unit snapshot: an UNREACHABLE unit shows its last mirrored count. -/
def dumpUnit (s : State) (id : Nat) (d : DumpInfo) (u : HwUnit) : Bytes :=
  let own := s.progressOf u (match u with | .sweep _ _ => some id | _ => none)
  let p := (s.progressOf u (some id)).getD (newProgress u (some id) 0 s.now)
  let q := own.getD p
  let lost := d.unreachable.contains u
  leBytes 8 (if lost then q.mirrored else s.unitNow u q) ++ leBytes 8 q.lastRise ++ leBytes 8 (blockRecord p).toNat ++
  leBytes 1 (b2n lost) ++ List.replicate 7 0

/-- Engine and unit of a section that a unit's snapshot goes into. -/
def unitPlace : HwUnit → Nat × Nat
  | .sweep le su => (le, su)
  | .controller le => (le, 0xFF)
  | .slot _ | .peer _ | .spoke _ => (0xFF, 0xFF)

/-- Biases and VSCALE vectors of a model, block by block. -/
def dumpModel (n : Net) : Bytes :=
  n.blocks.flatMap fun (b : Block) =>
    (b.bias.flatMap fun v => v.flatMap fun x => leBytes 4 (ofSigned 32 x)) ++ b.scales.flatMap fun d => leBytes 1 d

/-- EN_STAT, EN_ERRCNT and EN_FAULTLOC of an engine, read without clearing. -/
def dumpErrors (s : State) (le : Nat) : Bytes :=
  let i := s.siteOf le
  let x := s.site i
  leBytes 8 (s.regSiteStat i).toNat ++
  leBytes 8 (pack [(0, 16, x.sramcorr), (16, 16, x.logcorr), (32, 16, x.detected), (48, 16, x.audmism)]).toNat ++
  leBytes 8 x.faultloc.toNat

/-- The sections at one engine and unit, by type. -/
def sectionsAt (s : State) (id : Nat) (d : DumpInfo) (le su : Nat) : List DumpSection :=
  let units := (s.unitsWith id).filter fun u => decide (unitPlace u = (le, su))
  let lost := units.any d.unreachable.contains
  let blocks := s.models.flatMap fun p => if idOf p.2.tag = id then (match p.2.body with
      | .net n => (n.rblocks.filter fun b => decide (b.le = le) && decide (b.su = su)).flatMap (dumpRBlock n)
      | .store _ => []) else []
  (if blocks.isEmpty || lost then [] else [⟨2, le, su, blocks⟩]) ++
  (if units.isEmpty then [] else [⟨3, le, su, units.flatMap (s.dumpUnit id d)⟩])

/-- The sections of the whole context, which belong to no engine. -/
def sectionsWhole (s : State) (id : Nat) (d : DumpInfo) : List DumpSection :=
  let tag := s.tagOf id
  let reqs := s.fe.requests.filter fun r => r.tag == tag && !r.kernel
  let models := s.models.filter fun p => decide (idOf p.2.tag = id) && p.2.encrypted.isNone && !p.2.gone
  [⟨1, 0xFF, 0xFF, reqs.flatMap s.dumpRequest⟩] ++ s.sectionsAt id d 0xFF 0xFF ++
  (models.filterMap fun p => match p.2.body with
    | .net n => some ⟨5, 0xFF, 0xFF, dumpModel n⟩
    | .store _ => none) ++
  [⟨6, 0xFF, 0xFF, (s.queuesOf tag).flatMap fun q => ((s.queue? q).map Queue.line64).getD []⟩]

/-- The engines that a context has work on. -/
def dumpEngines (s : State) (id : Nat) : List Nat :=
  (List.range 32).filter fun le => s.models.any (fun p => decide (idOf p.2.tag = id) && bitAt p.2.mask le) ||
    (s.unitsWith id).any fun u => decide ((unitPlace u).1 = le)

/-- The sections of a dump in ascending engine and unit; those of no engine or unit come last. -/
def dumpSections (s : State) (id : Nat) (d : DumpInfo) : List DumpSection :=
  ((s.dumpEngines id).flatMap fun le =>
    ((List.range 8).flatMap fun su => s.sectionsAt id d le su) ++ s.sectionsAt id d le 0xFF ++
      (if d.unreachable.contains (.controller le) then [] else [⟨4, le, 0xFF, s.dumpErrors le⟩])) ++
  s.sectionsWhole id d

/-- A section as written: its 16-byte head and its contents. -/
def sectionBytes (x : DumpSection) : Bytes :=
  leBytes 2 x.kind ++ leBytes 1 x.le ++ leBytes 1 x.su ++ leBytes 4 x.body.length ++ List.replicate 8 0 ++ x.body

/-- Places sections at multiples of 64 bytes while they fit the capacity: the bytes, how many, and whether some did not fit. -/
def placeSections (cap : Nat) : Bytes → Nat → List DumpSection → Bytes × Nat × Bool
  | acc, n, [] => (acc, n, false)
  | acc, n, x :: xs =>
    let start := acc ++ List.replicate (roundUp acc.length 64 - acc.length) 0
    let next := start ++ sectionBytes x
    if next.length ≤ cap then placeSections cap next (n + 1) xs else (acc, n, true)

/-- The bytes of a dump: a header and the sections that fit; nothing where the header does not. -/
def dumpBytes (s : State) (id : Nat) (d : DumpInfo) (cap : Nat) : Bytes :=
  if cap < 64 then []
  else
    let body := placeSections cap (List.replicate 64 0) 0 (s.dumpSections id d)
    let head := leBytes 3 (s.tagOf id).toNat ++ leBytes 1 (b2n body.2.2) ++ leBytes 4 body.2.1 ++ leBytes 8 d.tick.toNat ++
      leBytes 8 d.faultCtx.toNat ++ leBytes 4 d.unreachable.length ++ List.replicate 36 0
    head ++ body.1.drop 64

/-- DUMP_WRITE: the dump is written, the fence lowered on every unit that acknowledged, and the request ends (R321 orders 4 to 6). -/
def dumpWrite (s : State) (id : Nat) : State :=
  match (s.ctx id).dump with
  | none => s
  | some d =>
    match s.req? d.req with
    | none => s.updCtx id fun c => { c with dump := none, fenced := c.resetting.isSome }
    | some r =>
      if (s.ctx id).resetting.isSome ∨ s.firmwareRuns = false then s
      else
        let out := s.dumpBytes id d (r.fld 72 8)
        let t := s.writeFor r.queue (addrOff (r.fld 64 8)) out
        let t := t.updCtx id fun c => { c with dump := none, fenced := c.resetting.isSome, isolated := d.unreachable }
        t.okReq d.req (BitVec.ofNat 64 out.length) (BitVec.ofNat 64 d.unreachable.length)

/-! ### Counter readout (20 R506) -/

/-- KIND, engine, unit and index of a record. -/
def readoutPlace : HwUnit → Nat × Nat × Nat × Nat
  | .sweep le su => (0, le, su, 0xFF)
  | .controller le => (1, le, 0xFF, 0xFF)
  | .slot i => (2, 0xFF, 0xFF, i)
  | .peer i => (3, 0xFF, 0xFF, i)
  | .spoke i => (4, 0xFF, 0xFF, i)

/-- A record of a counter as at the last tick. -/
def readoutRecord (s : State) (x : HwUnit × Option Nat) : Bytes :=
  let a := readoutPlace x.1
  let p := (s.progressOf x.1 x.2).getD { newProgress x.1 x.2 0 s.now with lastRise := 0 }
  leBytes 1 a.1 ++ leBytes 1 a.2.1 ++ leBytes 1 a.2.2.1 ++ leBytes 1 a.2.2.2 ++ leBytes 1 (x.2.getD 0) ++
  leBytes 1 (b2n x.2.isNone) ++ leBytes 2 0 ++ leBytes 8 p.mirrored ++ leBytes 8 p.lastRise ++
  leBytes 8 (if x.2.isNone then 0 else (blockRecord p).toNat)

/-- The counters that were mirrored at the last tick, which end with the spokes, or every one that there is before the first. -/
def readoutPairs (s : State) : List (HwUnit × Option Nat) :=
  match s.cx.progress.reverse.dropWhile fun p => p.unit != .spoke 39 with
  | [] => s.unitPairs s.workThen
  | l => l.reverse.map fun p => (p.unit, p.ctx)

/-- The bytes of a readout: a header and the records that fit. -/
def readoutBytes (s : State) (cap : Nat) : Bytes :=
  if cap < 64 then []
  else
    let all := s.readoutPairs
    let fit := all.take ((cap - 64) / 32)
    leBytes 8 s.now ++ leBytes 4 fit.length ++ leBytes 1 (b2n (decide (fit.length < all.length))) ++ List.replicate 51 0 ++
    fit.flatMap s.readoutRecord

/-- Dispatches a COUNTER_READ_ALL. -/
def counterReadAll (s : State) (k : ReqKey) : State :=
  match s.ready? k Op.counterReadAll with
  | none => s
  | some r =>
    let out := s.readoutBytes (r.fld 64 8)
    (s.writeFor r.queue (addrOff (r.fld 56 8)) out).okReq k (BitVec.ofNat 64 out.length) 0

end State

def execCtxDump (r : ReqKey) (s : State) : Host.Outcome State Fault Refusal := .next (s.ctxDump r)

def execDumpAckTimeout (ctx : Nat) (u : HwUnit) (s : State) : Host.Outcome State Fault Refusal := .next (s.dumpTimeout ctx u)

def execDumpWrite (ctx : Nat) (s : State) : Host.Outcome State Fault Refusal := .next (s.dumpWrite ctx)

def execCounterReadAll (r : ReqKey) (s : State) : Host.Outcome State Fault Refusal := .next (s.counterReadAll r)

end Sys2Proof.Machine
end

