-- ==== Sys2Proof/Machine/Firmware.lean ====
section
/-! DEFINITION. Live firmware update (18 R481-R483), with the meanings of VERIFY, FW_WRITE_NOR and ACTIVATE. -/

namespace Sys2Proof.Machine

namespace State

/-- The status of a firmware operation. -/
def fwStatus (s : State) (b : Byte) : State := { s with mg := { s.mg with fwStatus := b } }

/-- A firmware operation written with GO by a port that holds Hasp 0. -/
def fwOp (s : State) (p : Port) (op : BitVec 4) (f : State → State) : State :=
  s.onRwl p 0x28 fun t => f { t with mg := { t.mg with fwOp := op } }

/-- VERIFY: an image comes into staging memory and is checked; one that is not read whole or not signed is discarded. -/
def verify (s : State) (p : Port) (hostOk : Bool) : State :=
  s.fwOp p 1 fun t =>
    match t.offered t.mg.fwAddr t.mg.fwLen hostOk with
    | .error 4 => t.fwStatus 4
    | .error b => ({ t with mg := { t.mg with staged := none, fwSver := 0 } }).fwStatus b
    | .ok d => ({ t with mg := { t.mg with staged := some d, fwSver := Config.fwVersion d } }).fwStatus 0

/-- NOR holds an image, or after a failed write none that starts; NORDIFF follows. -/
def setNor (s : State) (d : Option Bytes) : State :=
  { s with mg := { s.mg with
      nor := d, fwNor := (d.map Config.fwVersion).getD 0, nordiff := decide (s.mg.running ≠ d) } }

/-- WRITE_NOR of the verified staged image. -/
def writeNor (s : State) (p : Port) (norOk : Bool) : State :=
  s.fwOp p 2 fun t =>
    match t.mg.staged with
    | none => t.fwStatus 6
    | some d => if norOk then (t.setNor (some d)).fwStatus 0 else (t.setNor none).fwStatus 3

/-- Every (unit, context) pair restarts (11 R312). -/
def restartPairs (s : State) : State :=
  { s with cx := { s.cx with progress := s.cx.progress.map fun p => { p with tr := s.now } } }

/-- ACTIVATE (R482): the staged image runs, unless its microcode interface differs or it fails the check of the records. -/
def activate (s : State) (p : Port) (recordsOk : Bool) : State :=
  s.fwOp p 3 fun t =>
    match t.mg.staged with
    | none => t.fwStatus 6
    | some d =>
      if Config.fwUcif d ≠ t.mg.ucif then t.fwStatus 7
      else if recordsOk = false then t.fwStatus 8
      else
        ((({ t with mg := { t.mg with
            running := some d, fwRun := Config.fwVersion d, nordiff := decide (t.mg.nor ≠ some d) } } : State)).restartPairs).fwStatus 0

end State

def execVerify (p : Port) (hostOk : Bool) (s : State) : Host.Outcome State Fault Refusal := .next (s.verify p hostOk)

def execFwWriteNor (p : Port) (norOk : Bool) (s : State) : Host.Outcome State Fault Refusal := .next (s.writeNor p norOk)

def execActivate (p : Port) (recordsOk : Bool) (s : State) : Host.Outcome State Fault Refusal :=
  .next (s.activate p recordsOk)

end Sys2Proof.Machine
end

