-- ==== Sys2Proof/Machine/Ward.lean ====
section
/-! DEFINITION. The debug Ward, the key store and the JTAG port (19 R484-R496; 21 R518), with the meanings of CHAL, OPEN,
CHALLENGE_LAPSE, PROVISION, ATTEST, BYPASS, IDCODE, SAMPLE_PRELOAD, EXTEST, WARDSTAT and INTERNAL_DEBUG. -/

namespace Sys2Proof.Machine

namespace State

/-! ### Ward operations (R488, R489, R491, R495, R496) -/

/-- The status of a Ward operation. -/
def wardStatus (s : State) (b : Byte) : State := { s with dw := { s.dw with status := b } }

/-- A Ward operation written with GO by a port that holds Hasp 0. -/
def wardOp (s : State) (p : Port) (op : BitVec 4) (f : State → State) : State :=
  s.onRwl p 0x32008 fun t => f { t with dw := { t.dw with op := op } }

/-- What CHAL is refused for, in this order: the Ward is not CLOSED, eight failed OPENs, contexts or jobs, no entropy. -/
def chalRefusal (s : State) : Option Byte :=
  if s.dw.state ≠ .closed then some 8
  else if 8 ≤ s.dw.fails then some 5
  else if s.busyModule then some 3
  else if s.rn.state ≠ .ok then some 4
  else none

/-- A challenge of 256 bits of the firmware DRBG. -/
def chal (s : State) (p : Port) : State :=
  s.wardOp p 1 fun t =>
    match t.chalRefusal, t.drawFw 32 with
    | some b, _ => t.wardStatus b
    | none, none => t.wardStatus 4
    | none, some (c, u) =>
      ({ u with dw := { u.dw with
          state := .challenged, chal := some (BitVec.ofNat 256 (leNat c)), chalTick := u.now, chalPort := some p } }).wardStatus 0

/-- MG_IDENT as eight bytes. -/
def identBytes (s : State) : Bytes := leBytes 8 s.regIdent.toNat

/-- The bytes of DW_RESP. -/
def respBytes (s : State) : Bytes := s.dw.resp.flatMap fun x => leBytes 8 x.toNat

/-- The signature in DW_RESP verifies for the challenge. -/
def wardOpens (s : State) : Bool :=
  match s.dw.chal with
  | none => false
  | some c =>
    ecdsaVerify (Mem.bytes s.rs.keys 0xC0 97) (sha384 (leBytes 32 c.toNat ++ s.identBytes)) (s.respBytes.take 48)
      ((s.respBytes.drop 48).take 48)

/-- An encrypted host link whose key has been erased goes down and is KEYLESS (13 R365; log entry 109). -/
def hostKeyless (s : State) (p : Port) : State :=
  if s.linkUp p && (s.port p).sec.isSome then
    let t := s.hostLost p 0
    t.setPort p { t.port p with state := .keyless }
  else s

/-- An encrypted peer link whose key has been erased goes down and is KEYLESS (14 R380; log entry 109). -/
def peerKeyless (s : State) (l : Nat) : State :=
  if s.peerUp l && (s.peer l).sec.isSome then (s.peerLost l).updPeer l fun x => { x with state := .keyless } else s

/-- The erase of R491: orders 1 to 7 clear what a core reset clears, the key store, the entropy service, the packages and common
SRAM, and commit byte 20 = 0x00; order 8 starts again from order 4. -/
def eraseAll (s : State) (seen : StartSeen) : State :=
  let t := s.clearC
  let t : State := { t with
    dw := { s.dw with state := .erasing, chal := none, chalTick := 0, chalPort := none }, rs := { t.rs with core := false } }
  let t := t.eraseStore
  let t := (List.range 8).foldl peerKeyless ((t.hostKeyless .a).hostKeyless .b)
  let t := t.startFrom4 seen false
  { t with dw := { t.dw with unzero := t.unzeroed } }

/-- OPEN: a challenge serves once, and one of more than 10,000 ticks has lapsed (R488). -/
def openWard (s : State) (p : Port) (seen : StartSeen) : State :=
  s.wardOp p 2 fun t =>
    if t.dw.state ≠ .challenged then t.wardStatus 8
    else if t.dw.chalTick + 10000 < t.now then t.lapseChallenge.wardStatus 8
    else if t.wardOpens then (t.eraseAll seen).wardStatus 0
    else
      (({ t with dw := { t.dw with fails := min 8 (t.dw.fails + 1) } } : State).lapseChallenge).wardStatus 1

/-- A challenge lapses after 10,000 ticks (R488). -/
def challengeLapse (s : State) : State :=
  if s.dw.state = .challenged ∧ s.dw.chalTick + 10000 ≤ s.now then s.lapseChallenge else s

/-- The layout and CRC of a key-store bundle (Table 19.5). -/
def bundleOk (d : Bytes) : Bool := decide (field d 0 1 % 16 = 1) && decide (field d 4 4 = crc32 (d.drop 64))

/-- PROVISION: a bundle of 16,384 bytes goes into the key store, and CLOSE closes the Ward. -/
def provision (s : State) (p : Port) (hostOk mramOk : Bool) : State :=
  s.wardOp p 3 fun t =>
    if t.dw.state ≠ .open then t.wardStatus 8
    else if hostOk = false then t.wardStatus 2
    else
      let d := Mem.bytes t.host (t.dw.addr.toNat * 64) 16384
      if bundleOk d = false then t.wardStatus 7
      else if mramOk = false then
        let (v, u) := t.takeFree
        ({ u with rs := { u.rs with keys := Mem.store [] 0 ((Config.mramLeft v).take 16384) } }).wardStatus 9
      else
        let u : State := { t with rs := { t.rs with keys := Mem.store [] 0 d } }
        let u := if u.dw.close then
            let w := u.wardCommit 0xA5
            { w with dw := { w.dw with state := .closed } }
          else u
        u.wardStatus 0

/-- The twelve registers of DW_RESP from 96 bytes. -/
def respOf (d : Bytes) : List W64 := (List.range 12).map fun i => BitVec.ofNat 64 (field d (8 * i) 8)

/-- ATTEST, which needs no Hasp: OP shows it only for a port that may write it. -/
def attest (s : State) (p : Port) : State :=
  s.onWrite p 0x32008 fun t =>
    let t : State := if t.holdsSetup p then { t with dw := { t.dw with op := 4 } } else t
    let slot := Mem.bytes t.rs.keys 0x40 128
    if slot.all (· == 0) then t.wardStatus 6
    else
      let (v, u) := t.takeFree
      let digest := sha384 (u.respBytes.take 32 ++ u.identBytes ++ leBytes 8 u.regFwVer.toNat)
      let k := 1 + (Config.signNonce v).toNat % (p384N - 1)
      ({ u with dw := { u.dw with resp := respOf (ecdsaSign (beNat (slot.take 48)) digest k) } }).wardStatus 0

/-! ### JTAG (R484, R485; 21 R518) -/

/-- A JTAG instruction and what it shifts out; any but EXTEST returns SITE_DO to the module. -/
def jtag (s : State) (code : Byte) (out : Answer) : State :=
  { s with dw := { s.dw with jtagIr := code, jtagOut := out }, st := { s.st with doExtest := none } }

/-- EXTEST: the boundary cells drive the SITE_DO pins. -/
def extestPins (s : State) (cells : Byte) : State :=
  { s with dw := { s.dw with jtagIr := 3, jtagOut := .silent }, st := { s.st with doExtest := some cells } }

/-- A code of Table 19.1, which acts in every Ward state. -/
def outsideWard (code : Byte) : Bool := code == 0xFF || code == 1 || code == 2 || code == 3 || code == 0x10

/-- An internal or reserved code while the Ward is not OPEN: it acts as BYPASS, and is counted. -/
def deniedDebug (s : State) (code : Byte) : State :=
  let t := s.jtag code .silent
  { t with dw := { t.dw with denied := satInc 16 t.dw.denied } }

end State

def execChal (p : Port) (s : State) : Host.Outcome State Fault Refusal := .next (s.chal p)

def execOpenWard (p : Port) (seen : StartSeen) (s : State) : Host.Outcome State Fault Refusal := .next (s.openWard p seen)

def execChallengeLapse (s : State) : Host.Outcome State Fault Refusal := .next s.challengeLapse

def execProvision (p : Port) (hostOk mramOk : Bool) (s : State) : Host.Outcome State Fault Refusal :=
  .next (s.provision p hostOk mramOk)

def execAttest (p : Port) (s : State) : Host.Outcome State Fault Refusal := .next (s.attest p)

def execBypass (s : State) : Host.Outcome State Fault Refusal := .next (s.jtag 0xFF .silent)

/-- The 32-bit identity of 21 R518. -/
def execIdcode (s : State) : Host.Outcome State Fault Refusal := .next (s.jtag 1 (.value 0x03240D97))

/-- The boundary cells take the levels of the pins. -/
def execSamplePreload (pins : Byte) (s : State) : Host.Outcome State Fault Refusal := .next (s.jtag 2 (.data [pins]))

def execExtest (cells : Byte) (s : State) : Host.Outcome State Fault Refusal := .next (s.extestPins cells)

/-- WARDSTAT shifts out DW_STAT. -/
def execWardstat (s : State) : Host.Outcome State Fault Refusal := .next (s.jtag 0x10 (.value s.regWard))

/-- A code outside Table 19.1. What it does while the Ward is OPEN no rule says (R484 names what internal debug reaches; R492
some that act as BYPASS): refused. -/
def execInternalDebug (code : Byte) (s : State) : Host.Outcome State Fault Refusal :=
  if State.outsideWard code then .next s
  else if s.dw.state = .open then .refused .internalDebugUnstated
  else .next (s.deniedDebug code)

end Sys2Proof.Machine
end

