-- ==== Sys2Proof/Machine/Dispatch.lean ====
section
/-! DEFINITION. The effect of each command: one arm per constructor of `Instr`, each a call of its meaning. -/

namespace Sys2Proof.Machine

/-- The effect of a command on everything but the queue. -/
def exec (i : Instr) (s : State) : Host.Outcome State Fault Refusal :=
  match i with
  | .nop r => Sys2Proof.Machine.execNop r s
  | .solve r source => Sys2Proof.Machine.execSolve r source s
  | .sample r source => Sys2Proof.Machine.execSample r source s
  | .score r source => Sys2Proof.Machine.execScore r source s
  | .retrieve r source find => Sys2Proof.Machine.execRetrieve r source find s
  | .append r source => Sys2Proof.Machine.execAppend r source s
  | .modelLoad r source => Sys2Proof.Machine.execModelLoad r source s
  | .modelUpdateRows r source => Sys2Proof.Machine.execModelUpdateRows r source s
  | .modelUnload r => Sys2Proof.Machine.execModelUnload r s
  | .copy r source => Sys2Proof.Machine.execCopy r source s
  | .fill r => Sys2Proof.Machine.execFill r s
  | .patch r => Sys2Proof.Machine.execPatch r s
  | .join r => Sys2Proof.Machine.execJoin r s
  | .signal r => Sys2Proof.Machine.execSignal r s
  | .cancel r => Sys2Proof.Machine.execCancel r s
  | .ctxCreate r => Sys2Proof.Machine.execCtxCreate r s
  | .ctxDestroy r => Sys2Proof.Machine.execCtxDestroy r s
  | .ctxGrant r => Sys2Proof.Machine.execCtxGrant r s
  | .ctxReset r => Sys2Proof.Machine.execCtxReset r s
  | .ctxDump r => Sys2Proof.Machine.execCtxDump r s
  | .queueCreate r => Sys2Proof.Machine.execQueueCreate r s
  | .queueDestroy r => Sys2Proof.Machine.execQueueDestroy r s
  | .powerSetModuleState r => Sys2Proof.Machine.execPowerSetModuleState r s
  | .powerSetEngineHalf r => Sys2Proof.Machine.execPowerSetEngineHalf r s
  | .powerSetPowerLimit r => Sys2Proof.Machine.execPowerSetPowerLimit r s
  | .siteBind r source => Sys2Proof.Machine.execSiteBind r source s
  | .siteUnbind r => Sys2Proof.Machine.execSiteUnbind r s
  | .engineRetire r => Sys2Proof.Machine.execEngineRetire r s
  | .engineRepair r => Sys2Proof.Machine.execEngineRepair r s
  | .counterReadAll r => Sys2Proof.Machine.execCounterReadAll r s
  | .scalePolicy r areaOk => Sys2Proof.Machine.execScalePolicy r areaOk s
  | .feKqcmdGo p => Sys2Proof.Machine.execFeKqcmdGo p s
  | .snoop p addr data => Sys2Proof.Machine.execSnoop p addr data s
  | .doorbellRead slot => Sys2Proof.Machine.execDoorbellRead slot s
  | .descriptorFetch slot => Sys2Proof.Machine.execDescriptorFetch slot s
  | .sliceEnd => Sys2Proof.Machine.execSliceEnd s
  | .requestComplete r now formed areaOk => Sys2Proof.Machine.execRequestComplete r now formed areaOk s
  | .chainNext name find => Sys2Proof.Machine.execChainNext name find s
  | .queueDestroyEnd queue => Sys2Proof.Machine.execQueueDestroyEnd queue s
  | .cacheableRequest p => Sys2Proof.Machine.execCacheableRequest p s
  | .flip le rblk find => Sys2Proof.Machine.execFlip le rblk find s
  | .hemFlip w => Sys2Proof.Machine.execHemFlip w s
  | .turnEndStitch w => Sys2Proof.Machine.execTurnEndStitch w s
  | .drainMarker w => Sys2Proof.Machine.execDrainMarker w s
  | .serviceTransfer link dir words => Sys2Proof.Machine.execServiceTransfer link dir words s
  | .laneFault link lane byRate => Sys2Proof.Machine.execLaneFault link lane byRate s
  | .turnBoundary r find => Sys2Proof.Machine.execTurnBoundary r find s
  | .ringAppendWrite who => Sys2Proof.Machine.execRingAppendWrite who s
  | .patrolScrub site place addr find => Sys2Proof.Machine.execPatrolScrub site place addr find s
  | .siteFailure site => Sys2Proof.Machine.execSiteFailure site s
  | .spareShiftPause hrow unreadable => Sys2Proof.Machine.execSpareShiftPause hrow unreadable s
  | .spareShiftResume hrow pause10us => Sys2Proof.Machine.execSpareShiftResume hrow pause10us s
  | .engineClearEnd site => Sys2Proof.Machine.execEngineClearEnd site s
  | .wakeScrubEnd site bad => Sys2Proof.Machine.execWakeScrubEnd site bad s
  | .sampleConversion src areaOk => Sys2Proof.Machine.execSampleConversion src areaOk s
  | .scalePolicyDecision le gbase areaOk => Sys2Proof.Machine.execScalePolicyDecision le gbase areaOk s
  | .managementTick t => Sys2Proof.Machine.execManagementTick t s
  | .hangDetected ctx u => Sys2Proof.Machine.execHangDetected ctx u s
  | .contextResetEnd ctx => Sys2Proof.Machine.execContextResetEnd ctx s
  | .resetAckTimeout ctx site => Sys2Proof.Machine.execResetAckTimeout ctx site s
  | .dumpAckTimeout ctx u => Sys2Proof.Machine.execDumpAckTimeout ctx u s
  | .dumpWrite ctx => Sys2Proof.Machine.execDumpWrite ctx s
  | .watchdogExpiry => Sys2Proof.Machine.execWatchdogExpiry s
  | .coreCrossCheck find => Sys2Proof.Machine.execCoreCrossCheck find s
  | .hubPatrolScrub pkg unit read => Sys2Proof.Machine.execHubPatrolScrub pkg unit read s
  | .channelFailure pkg ch rate parity => Sys2Proof.Machine.execChannelFailure pkg ch rate parity s
  | .packageFailure pkg wholeGroup => Sys2Proof.Machine.execPackageFailure pkg wholeGroup s
  | .hubFailure h => Sys2Proof.Machine.execHubFailure h s
  | .csramPlainWrite p addr data => Sys2Proof.Machine.execCsramPlainWrite p addr data s
  | .csramAliasWrite p addr data find => Sys2Proof.Machine.execCsramAliasWrite p addr data find s
  | .csramAtomic p op addr size value compare find => Sys2Proof.Machine.execCsramAtomic p op addr size value compare find s
  | .csramRead p addr len find => Sys2Proof.Machine.execCsramRead p addr len find s
  | .csramClearEnd => Sys2Proof.Machine.execCsramClearEnd s
  | .hostLinkTraining p t => Sys2Proof.Machine.execHostLinkTraining p t s
  | .hostLinkDown p tagFail unacked => Sys2Proof.Machine.execHostLinkDown p tagFail unacked s
  | .flitReplayRequest l seq newest => Sys2Proof.Machine.execFlitReplayRequest l seq newest s
  | .linkRetrain l t unacked => Sys2Proof.Machine.execLinkRetrain l t unacked s
  | .linkRekey l farNonce => Sys2Proof.Machine.execLinkRekey l farNonce s
  | .hpHaspRead p n => Sys2Proof.Machine.execHpHaspRead p n s
  | .hpHaspWrite p n v => Sys2Proof.Machine.execHpHaspWrite p n v s
  | .haspBreak p v => Sys2Proof.Machine.execHaspBreak p v s
  | .registerWrite p off size v => Sys2Proof.Machine.execRegisterWrite p off size v s
  | .rcRead p off size => Sys2Proof.Machine.execRcRead p off size s
  | .peerLinkTraining l t peer => Sys2Proof.Machine.execPeerLinkTraining l t peer s
  | .peerLinkDown l tagFail => Sys2Proof.Machine.execPeerLinkDown l tagFail s
  | .enum l depth => Sys2Proof.Machine.execEnum l depth s
  | .enumReply l nodes => Sys2Proof.Machine.execEnumReply l nodes s
  | .enumReplyTimeout l => Sys2Proof.Machine.execEnumReplyTimeout l s
  | .route l dst items => Sys2Proof.Machine.execRoute l dst items s
  | .image dst job gen bytes table => Sys2Proof.Machine.execImage dst job gen bytes table s
  | .loaded node job gen status word0 word1 shape => Sys2Proof.Machine.execLoaded node job gen status word0 word1 shape s
  | .run dst job gen opcode runBlock seed model ladder sched init hems => Sys2Proof.Machine.execRun dst job gen opcode runBlock seed model ladder sched init hems s
  | .credit l job gen turn => Sys2Proof.Machine.execCredit l job gen turn s
  | .cuffSend job => Sys2Proof.Machine.execCuffSend job s
  | .cuff l job gen words => Sys2Proof.Machine.execCuff l job gen words s
  | .partialEnergy node job gen turn values moved => Sys2Proof.Machine.execPartialEnergy node job gen turn values moved s
  | .boundary l job gen msg => Sys2Proof.Machine.execBoundary l job gen msg s
  | .result node job gen offset bytes => Sys2Proof.Machine.execResult node job gen offset bytes s
  | .fault node job gen status locator => Sys2Proof.Machine.execFault node job gen status locator s
  | .abort l origin job gen => Sys2Proof.Machine.execAbort l origin job gen s
  | .abortDone node job gen => Sys2Proof.Machine.execAbortDone node job gen s
  | .unload dst job gen => Sys2Proof.Machine.execUnload dst job gen s
  | .unloaded node job gen => Sys2Proof.Machine.execUnloaded node job gen s
  | .sampleSegment lane f => Sys2Proof.Machine.execSampleSegment lane f s
  | .scaleRecords lane f => Sys2Proof.Machine.execScaleRecords lane f s
  | .responderFrame lane k request => Sys2Proof.Machine.execResponderFrame lane k request s
  | .frameDiscard lane => Sys2Proof.Machine.execFrameDiscard lane s
  | .ptpMessage lane slave time => Sys2Proof.Machine.execPtpMessage lane slave time s
  | .prpSupervision => Sys2Proof.Machine.execPrpSupervision s
  | .setpointSend lane now => Sys2Proof.Machine.execSetpointSend lane now s
  | .gateListEntry lane now => Sys2Proof.Machine.execGateListEntry lane now s
  | .siteDiEdge bit level now => Sys2Proof.Machine.execSiteDiEdge bit level now s
  | .conditionerBlock raw => Sys2Proof.Machine.execConditionerBlock raw s
  | .healthTestFailure proportion => Sys2Proof.Machine.execHealthTestFailure proportion s
  | .startupTestPass => Sys2Proof.Machine.execStartupTestPass s
  | .rnDataRead p w => Sys2Proof.Machine.execRnDataRead p w s
  | .rnDrbgRead p w => Sys2Proof.Machine.execRnDrbgRead p w s
  | .release p => Sys2Proof.Machine.execRelease p s
  | .nrstAssert => Sys2Proof.Machine.execNrstAssert s
  | .nrstEscalation => Sys2Proof.Machine.execNrstEscalation s
  | .nrstRelease us => Sys2Proof.Machine.execNrstRelease us s
  | .railFail r => Sys2Proof.Machine.execRailFail r s
  | .pRelease dbgOpen strap => Sys2Proof.Machine.execPRelease dbgOpen strap s
  | .startSequence seen => Sys2Proof.Machine.execStartSequence seen s
  | .commit p mramOk => Sys2Proof.Machine.execCommit p mramOk s
  | .loadRun p hostOk seen => Sys2Proof.Machine.execLoadRun p hostOk seen s
  | .rcvWriteNor p hostOk norOk => Sys2Proof.Machine.execRcvWriteNor p hostOk norOk s
  | .clearCnt p => Sys2Proof.Machine.execClearCnt p s
  | .engineThrottle site => Sys2Proof.Machine.execEngineThrottle site s
  | .powerOvershoot site => Sys2Proof.Machine.execPowerOvershoot site s
  | .thermalTrip sensor => Sys2Proof.Machine.execThermalTrip sensor s
  | .vinEngLoss h => Sys2Proof.Machine.execVinEngLoss h s
  | .standbyEntry => Sys2Proof.Machine.execStandbyEntry s
  | .autowake => Sys2Proof.Machine.execAutowake s
  | .verify p hostOk => Sys2Proof.Machine.execVerify p hostOk s
  | .fwWriteNor p norOk => Sys2Proof.Machine.execFwWriteNor p norOk s
  | .activate p recordsOk => Sys2Proof.Machine.execActivate p recordsOk s
  | .chal p => Sys2Proof.Machine.execChal p s
  | .openWard p seen => Sys2Proof.Machine.execOpenWard p seen s
  | .challengeLapse => Sys2Proof.Machine.execChallengeLapse s
  | .provision p hostOk mramOk => Sys2Proof.Machine.execProvision p hostOk mramOk s
  | .attest p => Sys2Proof.Machine.execAttest p s
  | .bypass => Sys2Proof.Machine.execBypass s
  | .idcode => Sys2Proof.Machine.execIdcode s
  | .samplePreload pins => Sys2Proof.Machine.execSamplePreload pins s
  | .extest cells => Sys2Proof.Machine.execExtest cells s
  | .wardstat => Sys2Proof.Machine.execWardstat s
  | .internalDebug code => Sys2Proof.Machine.execInternalDebug code s
  | .refclkLinkLoss => Sys2Proof.Machine.execRefclkLinkLoss s
  | .refclkSiteLoss => Sys2Proof.Machine.execRefclkSiteLoss s
  | .tcxoAonLoss => Sys2Proof.Machine.execTcxoAonLoss s
  | .clockReturn c => Sys2Proof.Machine.execClockReturn c s
  | .sidebandWrite off v pecOk => Sys2Proof.Machine.execSidebandWrite off v pecOk s
  | .sidebandRead off pecOk => Sys2Proof.Machine.execSidebandRead off pecOk s
  | .lpddr6ZeroingEnd pkg => Sys2Proof.Machine.execLpddr6ZeroingEnd pkg s
  | .siteLaneDown lane => Sys2Proof.Machine.execSiteLaneDown lane s
  | .siteLaneUp lane => Sys2Proof.Machine.execSiteLaneUp lane s

end Sys2Proof.Machine
end

