-- ==== Sys2Proof/Safety.lean ====
section
/-! DEFINITION. What counts as a safe step, and what every state of a run keeps, in the terms the statements use: a command
has its effect, and the module stops neither with a fault nor with a refusal. -/

namespace Sys2Proof

/-- The step at a state answers a next state. -/
def Safe (s : Machine.State) : Prop := ∃ t, Machine.step s = .next t

/-- The command has its effect at a state. -/
def Completes (c : Instr) (s : Machine.State) : Prop := ∃ t, Machine.exec c s = .next t

/-- The state with a command put at the front of its queue. -/
def sent (c : Instr) (s : Machine.State) : Machine.State := { s with pending := c :: s.pending }

/-- What every step keeps: host memory, common SRAM and the key store have their one form, the key store lies within its 16,384
bytes (19 Table 19.5), and no load generation is 0 or wider than 16 bits (08 R214). -/
def Machine.State.Canonical (s : Machine.State) : Prop :=
  Machine.Mem.wf s.host = true ∧ Machine.Mem.wf s.cs.mem = true ∧ Machine.Mem.wf s.rs.keys = true ∧
  (∀ c ∈ s.rs.keys, c.1 < 16384) ∧ ∀ p ∈ s.mgens, 1 ≤ p.2 ∧ p.2 ≤ 65535

/-- A request that ends where it stands: its state, status, stop reason, result words and engine are set for its record,
and nothing else of the module changes (10 Table 10.18). -/
def ended (s : Machine.State) (k : ReqKey) (status : Nat) (w0 w1 : W64) : Machine.State :=
  { s with fe := { s.fe with requests := s.fe.requests.map fun q =>
      if q.key = k then
        { q with
          state := .ended, hold := none, status := status, stop := 0, word0 := w0, word1 := w1, faultLe := 0xFFFF
          best := none }
      else q } }

/-- A request dispatches now, and no run stands under its key. -/
def Starts (s : Machine.State) (k : ReqKey) (op : Nat) (r : Machine.Request) : Prop :=
  s.ready? k op = some r ∧ s.run? k = none

end Sys2Proof
end

