-- ==== Sys2Proof/WellFormed.lean ====
section
/-! DEFINITION. Which commands can be sent at all: every operand inside the range of the field, wire or unit that the
manual names. The meanings are total, so an ill-formed command is harmless (log entry 3); the statements about commands
do not need these bounds unless they say so. -/

namespace Sys2Proof

namespace WellFormed

/-- A slot, a logical engine, a sweep unit, a replica-block record. -/
def slot (n : Nat) : Bool := decide (n < 16)
def le (n : Nat) : Bool := decide (n < 32)
def su (n : Nat) : Bool := decide (n < 8)
def rblk (n : Nat) : Bool := decide (n < 923)

/-- A site of the forty (03 R53), a half-row of the eight, a link of the 56 and a lane of the four (07 R178). -/
def site (n : Nat) : Bool := decide (n < 40)
def hrow (n : Nat) : Bool := decide (n < 8)
def link (n : Nat) : Bool := decide (n < 56)
def lane (n : Nat) : Bool := decide (n < 4)

/-- A package and one of its channels (12 R325). -/
def pkg (n : Nat) : Bool := decide (n < 32)
def chan (n : Nat) : Bool := decide (n < 4)

/-- A queue number (09 R363, Table 9.13) and a user context ID (11 R303). -/
def queue (n : Nat) : Bool := decide (n < 1024)
def ctx (n : Nat) : Bool := decide (1 ≤ n) && decide (n ≤ 255)

/-- A peer link, a node, a job and its generation (14 R379, R382, R388). -/
def peer (n : Nat) : Bool := decide (n < 8)
def node (n : Nat) : Bool := decide (n < 64)
def job (id gen : Nat) : Bool := decide (1 ≤ id) && decide (id < 65536) && decide (gen < 65536)

/-- A lane of the site port (15). -/
def siteLane (n : Nat) : Bool := decide (n < 2)

/-- A register offset: the register space of a port is 1 MiB (13 R366). -/
def reg (n : Nat) : Bool := decide (n < 1048576)

/-- Bytes at host addresses of the three windows of common SRAM, at most a line of 64 at a time (12 R344). -/
def csram (addr len : Nat) : Bool :=
  decide (1 ≤ len) && decide (addr % 64 + len ≤ 64) && decide (0x01000000 ≤ addr) && decide (addr < 0x02800000)

/-- A word on a lane. -/
def word (w : LaneWord) : Bool := link w.link && lane w.lane

/-- A hardware unit that has a progress counter (11 R307). -/
def unit : HwUnit → Bool
  | .sweep l u => le l && su u
  | .controller l => le l
  | .slot n => slot n
  | .peer p => peer p
  | .spoke n => site n

/-- A place that the patrol scrubber of an engine reads. -/
def place : ScrubPlace → Bool
  | .store n => su n
  | .footprint n => rblk n
  | .chain n | .ctxRecord n => ctx n
  | .storeCount n _ => decide (n < 4096)
  | .vscale | .scratch | .accumulator _ | .engineRecord _ => true

/-- What a flip meets: a lane of a block of at most 8,192 variables. -/
def flipFind : FlipFind → Bool
  | .residueOnce l | .residueTwice l => decide (l < 8192)
  | .storeBad a | .scratchBad a | .vscaleBad a => decide (a < 16777216)
  | _ => true

/-- What a unit of a package holds (12 R325, R336): an entry of 4,096 models, a slot below the limit of 05 R130. -/
def unitPlace : UnitPlace → Bool
  | .free => true
  | .page c o => ctx c && decide (o % 32 = 0) && decide (o < 2 ^ 35)
  | .entry m n => decide (m < 4096) && decide (n < 268435456)
  | .directory m => decide (m < 4096)
  | .hem m b => decide (m < 4096) && rblk b

/-- A burst of a package of 2^30 units. -/
def burst (b : Burst) : Bool := pkg b.pkg && decide (b.unit < 2 ^ 30) && unitPlace b.place

/-- What a turn boundary meets. -/
def boundaryFind : BoundaryFind → Bool
  | .clean => true
  | .sramCorrected l => le l
  | .residueOnce l b => le l && rblk b
  | .residueTwice l b v | .auditMismatch l b v => le l && rblk b && decide (v < 8192)
  | .storeBad l u a => le l && su u && decide (a < 16777216)
  | .vscaleBad l a => le l && decide (a < 16777216)
  | .scratchBad l b a => le l && rblk b && decide (a < 16777216)
  | .lpddrCorrected p => pkg p
  | .lpddrBad b => burst b

/-- What a retrieval meets. -/
def retrieveFind : RetrieveFind → Bool
  | .clean => true
  | .sramCorrected l | .treesOnce l => le l
  | .treesTwice l u | .passesDiffer l u => le l && su u
  | .storeBad l u a => le l && su u && decide (a < 16777216)
  | .lpddrCorrected p => pkg p
  | .lpddrBad b => burst b

/-- What a transfer meets in the memory that it reads: common SRAM has 2^20 words. -/
def sourceFind : SourceFind → Bool
  | .clean | .wordCorrected => true
  | .burstCorrected p => pkg p
  | .burstBad b => burst b
  | .wordBad w => decide (w < 1048576)
  | .chainCorrected l => le l
  | .chainBad l a => le l && decide (a < 16777216)

/-- What a controller meets when it reads a chained descriptor. -/
def chainFind : ChainFind → Bool
  | .clean | .sramCorrected => true
  | .scratchBad a => decide (a < 16777216)

/-- What an access finds in common SRAM. -/
def wordFind : WordFind → Bool
  | .clean | .corrected => true
  | .bad w => decide (w < 1048576)

/-- What the modules of a job tell each other of a part (14 R391-R396). -/
def part (p : PartShape) : Bool :=
  node p.node && decide (p.reps ≤ 1024) && p.blocks.all fun b => decide (b.1 ≤ 8192) && decide (b.2 ≤ 16)

/-- A training: x16 to x4, and a version field of 4 bits. -/
def training : Training → Bool
  | .trained w v b _ => decide (w < 3) && decide (v < 16) && decide (b < 2 ^ 64)
  | .failed => true

/-- A link that flits cross. -/
def linkName : LinkName → Bool
  | .host _ => true
  | .peer l => peer l

/-- Who appends, or supplies samples: one of 65,536 stream records (15 R409), or a request. -/
def appender : Appender → Bool
  | .request _ => true
  | .stream n => decide (n < 65536)
def sampleSource : SampleSource → Bool
  | .request _ => true
  | .stream n => decide (n < 65536)

/-- The telemetry of a tick covers every site (18 R480), every peer port and every spoke (11 R307). -/
def telemetry (t : Telemetry) : Bool :=
  decide (t.sites.length ≤ 40) && decide (t.ports.length ≤ 4) && decide (t.spokes.length ≤ 40) &&
    (t.ports ++ t.spokes).all fun w => w.ctxs.all ctx

/-- A start trains at most 32 packages at one of three rates, or at none (12 R327). -/
def seen (x : StartSeen) : Bool :=
  decide (x.hubOk.length ≤ 2) && decide (x.rates.length ≤ 32) && x.rates.all fun r => decide (r.length ≤ 4) && r.all (decide <| · ≤ 3)

/-- A sensor that trips. -/
def sensor : TripSensor → Bool
  | .engine n => site n
  | .hubOrManager => true

end WellFormed

open WellFormed in
/-- Every operand of a command is in range. -/
def wellFormed : Instr → Bool
  | .nop _ | .modelUnload _ | .fill _
  | .patch _ | .join _ | .signal _ | .cancel _ | .ctxCreate _ | .ctxDestroy _ | .ctxGrant _ | .ctxReset _ | .ctxDump _
  | .queueCreate _ | .queueDestroy _ | .powerSetModuleState _ | .powerSetEngineHalf _ | .powerSetPowerLimit _
  | .siteUnbind _ | .engineRetire _ | .engineRepair _ | .counterReadAll _ | .scalePolicy _ _ => true
  | .solve _ f | .sample _ f | .score _ f | .append _ f | .modelLoad _ f | .modelUpdateRows _ f | .copy _ f | .siteBind _ f =>
    sourceFind f
  | .retrieve _ f g => sourceFind f && retrieveFind g
  | .feKqcmdGo _ => true
  | .snoop _ a d => decide (a + d.length ≤ 2 ^ 56)
  | .doorbellRead n | .descriptorFetch n => slot n
  | .sliceEnd => true
  | .requestComplete _ _ _ _ => true
  | .chainNext _ f => chainFind f
  | .queueDestroyEnd n => queue n
  | .cacheableRequest _ => true
  | .flip l b f => le l && rblk b && flipFind f
  | .hemFlip w | .turnEndStitch w | .drainMarker w => word w
  | .serviceTransfer l _ _ => link l
  | .laneFault l n _ => link l && lane n
  | .turnBoundary _ f => boundaryFind f
  | .ringAppendWrite w => appender w
  | .patrolScrub n p a _ => site n && place p && decide (a < 16777216)
  | .siteFailure n => site n
  | .spareShiftPause h u => hrow h && u.all ctx
  | .spareShiftResume h _ => hrow h
  | .engineClearEnd n => site n
  | .wakeScrubEnd n b => site n && b.all fun x => place x.1 && decide (x.2 < 16777216)
  | .sampleConversion x _ => sampleSource x
  | .scalePolicyDecision l g _ => le l && decide (g < 65536)
  | .managementTick t => telemetry t
  | .hangDetected c u => ctx c && unit u
  | .contextResetEnd c => ctx c
  | .resetAckTimeout c n => ctx c && site n
  | .dumpAckTimeout c u => ctx c && unit u
  | .dumpWrite c => ctx c
  | .watchdogExpiry => true
  | .coreCrossCheck _ => true
  | .hubPatrolScrub p n x => pkg p && decide (n < 2 ^ 30) && unitPlace x.place
  | .channelFailure p c r _ => pkg p && chan c && decide (r ≤ 3)
  | .packageFailure p _ => pkg p
  | .hubFailure _ => true
  | .csramPlainWrite _ o d => csram o d.length
  | .csramAliasWrite _ o d f => csram o d.length && wordFind f
  | .csramAtomic _ _ o n _ _ f => csram o n && (decide (n = 4) || decide (n = 8)) && wordFind f
  | .csramRead _ o n f => csram o n && wordFind f
  | .csramClearEnd => true
  | .hostLinkTraining _ t => training t
  | .hostLinkDown _ _ _ => true
  | .flitReplayRequest l _ _ | .linkRekey l _ => linkName l
  | .linkRetrain l t _ => linkName l && training t
  | .hpHaspRead _ n | .hpHaspWrite _ n _ => decide (n < 64)
  | .haspBreak _ _ => true
  | .registerWrite _ o n _ | .rcRead _ o n => reg o && decide (1 ≤ n) && decide (n ≤ 64)
  | .peerLinkTraining l t p => peer l && training t && node p
  | .peerLinkDown l _ | .enumReplyTimeout l => peer l
  | .enum l d => peer l && decide (d < 256)
  | .enumReply l ns => peer l && ns.all fun x => node x.hint
  | .route l d is => peer l && node d && is.all fun x => node x.node
  | .image d j g _ ps => node d && job j g && ps.all part
  | .loaded n j g st _ _ p => node n && job j g && decide (st < 256) && p.all part
  | .run d j g o _ _ _ _ _ _ _ => node d && job j g && decide (o < 256)
  | .credit l j g _ => peer l && job j g
  | .cuffSend j => job j 0
  | .cuff l j g _ => peer l && job j g
  | .partialEnergy n j g _ _ _ => node n && job j g
  | .boundary l j g _ => peer l && job j g
  | .result n j g _ _ => node n && job j g
  | .fault n j g st _ => node n && job j g && decide (st < 256)
  | .abort l o j g => peer l && node o && job j g
  | .abortDone n j g => node n && job j g
  | .unload d j g => node d && job j g
  | .unloaded n j g => node n && job j g
  | .sampleSegment n f | .scaleRecords n f => siteLane n && decide (f.vlan < 4096) && decide (f.port < 65536)
  | .responderFrame n _ _ | .frameDiscard n | .ptpMessage n _ _ => siteLane n
  | .prpSupervision => true
  | .setpointSend n _ | .gateListEntry n _ => siteLane n
  | .siteDiEdge b _ _ => decide (b < 8)
  | .conditionerBlock _ => true
  | .healthTestFailure _ => true
  | .startupTestPass => true
  | .rnDataRead _ w | .rnDrbgRead _ w => decide (w < 2)
  | .release _ => true
  | .nrstAssert | .nrstEscalation => true
  | .nrstRelease _ => true
  | .railFail _ => true
  | .pRelease _ _ => true
  | .startSequence x => seen x
  | .commit _ _ => true
  | .loadRun _ _ x => seen x
  | .rcvWriteNor _ _ _ => true
  | .clearCnt _ => true
  | .engineThrottle n | .powerOvershoot n => site n
  | .thermalTrip x => sensor x
  | .vinEngLoss _ => true
  | .standbyEntry | .autowake => true
  | .verify _ _ | .fwWriteNor _ _ | .activate _ _ => true
  | .chal _ => true
  | .openWard _ x => seen x
  | .challengeLapse => true
  | .provision _ _ _ => true
  | .attest _ => true
  | .bypass | .idcode | .wardstat => true
  | .samplePreload _ | .extest _ | .internalDebug _ => true
  | .refclkLinkLoss | .refclkSiteLoss | .tcxoAonLoss => true
  | .clockReturn _ => true
  | .sidebandWrite o _ _ | .sidebandRead o _ => reg o
  | .lpddr6ZeroingEnd p => pkg p
  | .siteLaneDown n | .siteLaneUp n => siteLane n

end Sys2Proof
end

