-- ==== Sys2Proof/Certificates/Slice0/Obligations.lean ====
section
/-! DEFINITION. The statements of this model, for the provers: what a step and every command does, and what every step
keeps. Where a statement of a command's effect is conditional on a choice of the model, its docstring names the log entry. -/

open Sys2Proof Sys2Proof.Machine

/-- A step with a command at the front of the queue is that command's effect on the state with the queue's rest. -/
def Obligations.StepRunsFrontCommand : Prop :=
  ∀ (c : Instr) (rest : List Instr) (s : State),
    step { s with pending := c :: rest } = exec c { s with pending := rest }

/-- What reset leaves, as the spec gives it: the reach is P and the start is at order 1, POR is the one cause set, nALERT is
low, no host or peer link is up, every Hasp is free, the Ward is closed, every context is FREE at generation 1, and no
queue, request, model, run, stream or job stands; and the state is canonical, with no command waiting (11 R304; 17 R443,
R447; the model's choice of the instant of reset is log entry 6). -/
def Obligations.ResetState : Prop :=
  State.reset.Canonical ∧ State.reset.pending = [] ∧ State.reset.rs.phase = 1 ∧ State.reset.rs.reach = 3 ∧
  State.reset.rs.ready = false ∧ State.reset.rs.alert = true ∧ State.reset.rs.recovery = false ∧ State.reset.mg.por = true ∧
  State.reset.mg.mon = false ∧ State.reset.mg.nrstc = false ∧ State.reset.mg.nrsts = false ∧ State.reset.mg.wake = false ∧
  State.reset.mg.wakem = false ∧ State.reset.mg.recov = false ∧ State.reset.mg.tick = 0 ∧ State.reset.linkUp .a = false ∧
  State.reset.linkUp .b = false ∧ (∀ l, State.reset.peerUp l = false) ∧ State.reset.hp.hasps.all (· == none) = true ∧
  State.reset.dw.state = .closed ∧
  (∀ id, 1 ≤ id → (State.reset.ctx id).state = .free ∧ (State.reset.ctx id).gen = 1) ∧ State.reset.fe.queues = [] ∧
  State.reset.fe.requests = [] ∧ State.reset.models = [] ∧ State.reset.runs = [] ∧ State.reset.st.streams = [] ∧
  State.reset.pr.jobs = []

/-- Host memory, common SRAM and the key store keep their canonical form, the key store stays within its 16,384 bytes, and
no load generation is 0 or wider than 16 bits, through every step (08 R214; 19 Table 19.5). The canonical form is the
model's own (log entry 4). -/
def Obligations.EveryStepKeepsCanonical : Prop :=
  ∀ s t : State, s.Canonical → step s = .next t → t.Canonical

/-- No command changes the queue of the commands that wait: only the step takes from it (log entry 1). -/
def Obligations.NoCommandChangesTheQueue : Prop :=
  ∀ (c : Instr) (s t : State), exec c s = .next t → t.pending = s.pending

/-- The key store is written by nothing but PROVISION, and by the erase of an OPEN or of a start (19 R491, R493, R495). -/
def Obligations.KeyStoreWriters : Prop :=
  ∀ (c : Instr) (s t : State), exec c s = .next t → t.rs.keys ≠ s.rs.keys →
    (∃ p hostOk mramOk, c = .provision p hostOk mramOk) ∨ (∃ p seen, c = .openWard p seen) ∨ ∃ seen, c = .startSequence seen

/-- The load generations of the model table change with a load, on this module or as a part of a job, and with a reset of
reach S or P or the entry to HIBERNATE, and with nothing else (08 R214; 17 R447). -/
def Obligations.LoadGenerationWriters : Prop :=
  ∀ (c : Instr) (s t : State), exec c s = .next t → t.mgens ≠ s.mgens →
    (∃ k source, c = .modelLoad k source) ∨ (∃ dst job gen bytes table, c = .image dst job gen bytes table) ∨
    (∃ k now formed areaOk, c = .requestComplete k now formed areaOk) ∨
    c = .nrstAssert ∨ c = .nrstEscalation ∨ ∃ r, c = .railFail r

/-- Every command but INTERNAL_DEBUG has its effect in every state, and that one is refused exactly where the Ward is OPEN
and the code lies outside Table 19.1, which no rule says the effect of (19 R484, R492). No command ends in a fault. -/
def Obligations.CommandsComplete : Prop :=
  ∀ (c : Instr) (s : State),
    (∃ t, exec c s = .next t) ∨
    (∃ code, c = .internalDebug code ∧ State.outsideWard code = false ∧ s.dw.state = .open ∧
      exec c s = .refused .internalDebugUnstated)

/-- NOP, JOIN and SIGNAL end their request with OK and change nothing else but what each is for: a NOP with its flag set
drops the names held for dependents and returns how many, a SIGNAL stores its value and sends its signal write; the link
that a transaction crosses leaves the low-power substate (10 R292, R293, R295; 13 R364, R375). -/
def Obligations.NopJoinSignalComplete : Prop :=
  ∀ (s : State) (k : ReqKey) (r : Request),
    (Starts s k Op.nop r → bitAt (r.fld 56 1) 0 = false → exec (.nop k) s = .next (ended s k Status.ok 0 0)) ∧
    (Starts s k Op.nop r → bitAt (r.fld 56 1) 0 = true →
      exec (.nop k) s = .next (ended
        { s with fe := { s.fe with requests := s.fe.requests.filter fun o => !(s.nopDrops r).contains o.key } }
        k Status.ok (BitVec.ofNat 64 (s.nopDrops r).length) 0)) ∧
    (Starts s k Op.join r → exec (.join k) s = .next (ended s k Status.ok 0 0)) ∧
    (Starts s k Op.signal r → bitAt (r.fld 58 1) 1 = false → ∀ p, s.viaPort (if bitAt (r.fld 58 1) 0 then .b else .a) = some p →
      exec (.signal k) s = .next (ended { s.wakeLink p with signals := s.signals ++ [⟨p, r.fld 56 2⟩] } k Status.ok 0 0)) ∧
    (Starts s k Op.signal r → bitAt (r.fld 58 1) 1 = true → addrLe (r.fld 64 8) = 0 →
      ∀ p, s.viaPort (if bitAt (r.fld 58 1) 0 then .b else .a) = some p →
      exec (.signal k) s = .next (ended
        { (s.touchHost (s.homeOf r.queue)).wakeLink p with
          host := Mem.store s.host (addrOff (r.fld 64 8)) (leBytes 8 (r.fld 72 8))
          signals := s.signals ++ [⟨p, r.fld 56 2⟩] }
        k Status.ok 0 0))

/-- PATCH fills the overlay entries that it reserved, each with the value that the PATCH gives for its target and word, and
ends OK (10 R275, R276, R292). Where no request waits for patches, nothing else changes but the counter of free values (log
entry 13). -/
def Obligations.PatchFillsOverlay : Prop :=
  ∀ (s : State) (k : ReqKey) (r : Request), Starts s k Op.patch r → (∀ q ∈ s.fe.requests, q.state ≠ .heldPatch) →
    exec (.patch k) s = .next (ended
      { s with
        free := s.free + 1
        fe := { s.fe with
          overlay := s.fe.overlay.map fun o =>
            if o.queue = r.queue ∧ o.source = r.seq then { o with value := State.patchValue r o.target o.word } else o
          requests := s.fe.requests.map fun q => { q with patches := q.patches.map fun o =>
            if o.queue = r.queue ∧ o.source = r.seq then { o with value := State.patchValue r o.target o.word } else o } } }
      k Status.ok 0 0)

/-- COPY and FILL write their range and return the bytes moved: once the destination is open, a route exists, nothing holds
the transfer and its source reads clean, the pages of the destination are taken, the engines of both ends start, a copy
between engines enters the service queues of its way, and the bytes land; a source that reads bad fails the COPY with what
was met and writes nothing (10 R291, R301, R302; 07 R190; 12 R331, R348). A transfer of no bytes ends at once, and host
memory needs none of this. -/
def Obligations.CopyFillComplete : Prop :=
  ∀ (s : State) (k : ReqKey) (r : Request),
    (Starts s k Op.copy r → r.fld 72 8 = 0 → ∀ find, exec (.copy k find) s = .next (ended s k Status.ok 0 0)) ∧
    (Starts s k Op.copy r → r.fld 72 8 ≠ 0 → s.reachOk r (r.fld 56 8) (r.fld 72 8) true = .ok () →
      ∀ t way, s.openWrite r 64 (r.fld 64 8) (r.fld 72 8) = .ok t → s.copyRoute (r.fld 56 8) (r.fld 64 8) = some way →
      s.transferReady r [r.fld 56 8, r.fld 64 8] = true →
      ∀ find u met, s.sourceMet r [(r.fld 56 8, r.fld 72 8)] find = (u, met) →
        (met = .clean → exec (.copy k find) s = .next (State.okReq
          ((((u.takePages r (r.fld 64 8) (r.fld 72 8)).startOn (State.maskOf [r.fld 56 8, r.fld 64 8])).queueTransfer way r.tag
              (s.readSpace r (r.fld 56 8) (r.fld 72 8))).writeSpace r (r.fld 64 8) (s.readSpace r (r.fld 56 8) (r.fld 72 8)))
          k (BitVec.ofNat 64 (r.fld 72 8)) 0)) ∧
        (met ≠ .clean → exec (.copy k find) s = .next (u.failMet k met))) ∧
    (Starts s k Op.copy r → r.fld 72 8 ≠ 0 → addrSpace (r.fld 56 8) = 0 → addrLe (r.fld 56 8) = 0 →
      addrSpace (r.fld 64 8) = 0 → addrLe (r.fld 64 8) = 0 → s.hostUp = true → s.shiftHolds r.tag = false → ∀ find,
      exec (.copy k find) s = .next (ended
        { s.touchHost (s.homeOf r.queue) with host := Mem.store s.host (addrOff (r.fld 64 8)) (Mem.bytes s.host (addrOff (r.fld 56 8)) (r.fld 72 8)) }
        k Status.ok (BitVec.ofNat 64 (r.fld 72 8)) 0)) ∧
    (Starts s k Op.fill r → r.fld 64 8 = 0 → exec (.fill k) s = .next (ended s k Status.ok 0 0)) ∧
    (Starts s k Op.fill r → r.fld 64 8 ≠ 0 → ∀ t, s.openWrite r 56 (r.fld 56 8) (r.fld 64 8) = .ok t →
      s.transferReady r [r.fld 56 8] = true →
      exec (.fill k) s = .next (State.okReq
        ((t.startOn (State.maskOf [r.fld 56 8])).writeSpace r (r.fld 56 8) (State.fillBytes (r.fld 72 8) (r.fld 64 8)))
        k (BitVec.ofNat 64 (r.fld 64 8)) 0)) ∧
    (Starts s k Op.fill r → r.fld 64 8 ≠ 0 → addrSpace (r.fld 56 8) = 0 → addrLe (r.fld 56 8) = 0 → s.hostUp = true →
      s.shiftHolds r.tag = false →
      exec (.fill k) s = .next (ended
        { (if r.fld 64 8 < 8 then s else s.touchHost (s.homeOf r.queue)) with
          host := Mem.store s.host (addrOff (r.fld 56 8)) (State.fillBytes (r.fld 72 8) (r.fld 64 8)) }
        k Status.ok (BitVec.ofNat 64 (r.fld 64 8)) 0))

/-- CANCEL of a request of its own context that stands in the table and has not ended stops that request and returns 1, and
where no run is under way and the request neither appends nor loads a part of a job, it ends with CANCELLED; of one that has
completed it returns 2, and of one not yet fetched 3, and then it changes nothing else (10 R294). -/
def Obligations.CancelEndsItsTarget : Prop :=
  ∀ (s : State) (k : ReqKey) (r : Request), Starts s k Op.cancel r →
    s.cancelForeign r (BitVec.ofNat 64 (r.fld 56 8)) = false →
    (∀ o, k ≠ ⟨BitVec.ofNat 64 (r.fld 56 8), 0⟩ → s.req? ⟨BitVec.ofNat 64 (r.fld 56 8), 0⟩ = some o → o.state ≠ .ended →
      o.state ≠ .heldFailed →
      exec (.cancel k) s = .next ((s.stopReq ⟨BitVec.ofNat 64 (r.fld 56 8), 0⟩ Status.cancelled none).okReq k 1 0)) ∧
    (∀ o, k ≠ ⟨BitVec.ofNat 64 (r.fld 56 8), 0⟩ → s.req? ⟨BitVec.ofNat 64 (r.fld 56 8), 0⟩ = some o → o.state ≠ .ended →
      o.state ≠ .heldFailed → o.append = none → o.hold ≠ some .peer → s.runs = [] →
      ∃ t o' r', exec (.cancel k) s = .next t ∧
        t.req? ⟨BitVec.ofNat 64 (r.fld 56 8), 0⟩ = some o' ∧ o'.state = .ended ∧ o'.status = Status.cancelled ∧
        t.req? k = some r' ∧ r'.state = .ended ∧ r'.status = Status.ok ∧ r'.word0 = 1) ∧
    (s.req? ⟨BitVec.ofNat 64 (r.fld 56 8), 0⟩ = none → (∀ c ∈ s.fe.chains, c.name ≠ BitVec.ofNat 64 (r.fld 56 8)) →
      ∀ q, s.queueOf (BitVec.ofNat 64 (r.fld 56 8)) = some q →
      exec (.cancel k) s = .next (ended s k Status.ok
        (if nameSeq (BitVec.ofNat 64 (r.fld 56 8)) < q.fhead % 2 ^ 40 then 2 else 3) 0))

/-- SOLVE, SAMPLE and SCORE begin their run once nothing holds it back: the handle names a model of the context that no run
has and that no update fetched before it changes, its engines take a dispatch, its inputs can be read and read clean, its
parameters are accepted, its lane-3 routes stand, and the model is not damaged; inputs that read bad fail it with what was
met (10 R281-R285; 07 R192; 12 R331). The seed is the descriptor's, or comes from the firmware's instance of the generator;
a SCORE draws nothing and has seed 0. -/
def Obligations.RunsBegin : Prop :=
  ∀ (s t : State) (k : ReqKey) (r : Request) (i : Nat) (m : Model) (n : Net) (w : RunSpec) (find : SourceFind),
    r.kernel = false → s.handle? r (r.fld 56 8) = some i → s.model? i = some m → s.net? i = some n → s.runOn i = none →
    s.updatesAhead r = false → s.enginesReady m.mask = true → s.runInputsUp r = true →
    (∀ met, s.sourceMet r (s.runReads r m n) find = (t, met) → met ≠ .clean →
      (s.ready? k Op.solve = some r → exec (.solve k find) s = .next (t.failMet k met)) ∧
      (s.ready? k Op.sample = some r → exec (.sample k find) s = .next (t.failMet k met)) ∧
      (s.ready? k Op.score = some r → exec (.score k find) s = .next (t.failMet k met))) ∧
    (s.sourceMet r (s.runReads r m n) find = (t, .clean) → t.unrouted m.mask n.ladder = none → t.damageOf m = none →
      (s.ready? k Op.solve = some r → t.runSpec r m n = .ok w → r.fld 88 1 = 0 →
        exec (.solve k find) s =
          .next (t.beginRun k i m n Op.solve w (BitVec.ofNat 64 (r.fld 80 8)) (t.readSpace r (r.fld 64 8) 128))) ∧
      (s.ready? k Op.solve = some r → t.runSpec r m n = .ok w → r.fld 88 1 ≠ 0 → ∀ bs u, t.drawFw 8 = some (bs, u) →
        exec (.solve k find) s =
          .next (u.beginRun k i m n Op.solve w (BitVec.ofNat 64 (leNat bs)) (t.readSpace r (r.fld 64 8) 128))) ∧
      (s.ready? k Op.sample = some r → t.runSpec r m n = .ok w → r.fld 88 1 = 0 →
        exec (.sample k find) s =
          .next (t.beginRun k i m n Op.sample w (BitVec.ofNat 64 (r.fld 80 8)) (t.readSpace r (r.fld 64 8) 128))) ∧
      (s.ready? k Op.sample = some r → t.runSpec r m n = .ok w → r.fld 88 1 ≠ 0 → ∀ bs u, t.drawFw 8 = some (bs, u) →
        exec (.sample k find) s =
          .next (u.beginRun k i m n Op.sample w (BitVec.ofNat 64 (leNat bs)) (t.readSpace r (r.fld 64 8) 128))) ∧
      (s.ready? k Op.score = some r → t.scoreSpec r m n = .ok w →
        exec (.score k find) s = .next (t.beginRun k i m n Op.score w 0 [])))

/-- One clean flip of a replica-block that may flip: where every weight is 0 the block is frozen for this turn, and counts
it; else the draw selects a variable and a new state, the energy change is added, the flip, audit and draw counters go up,
and the column is kept for the next flip (03 R42, R56-R62; log entry 15). A variable that no hem coupling names sends no
word. -/
def Obligations.FlipSelectsOrFreezes : Prop :=
  ∀ (s : State) (le rblk : Nat) (u : Run) (n : Net) (b0 b : RBlock), s.flipping le rblk = some (u, n, b0) →
    n.applyCol b0 = .ok b →
    (totalWeight ((n.block b.block).weights n.heatbath (u.betas.getD (u.rungOf.getD b.replica b.replica) 0) b.state b.fields) = 0 →
      u.observes b.replica = false →
      exec (.flip le rblk .clean) s = .next ((s.updNet u.model fun x => x.updRBlock b.le b.rblk fun _ =>
        { b with
          frozen := true, frozenTurns := b.frozenTurns + 1
          dwell := dwellOf ((n.block b.block).weights n.heatbath (u.betas.getD (u.rungOf.getD b.replica b.replica) 0)
            b.state b.fields).length 0 }).presentTurnEnds u.key)) ∧
    (∀ ws j new, ws = (n.block b.block).weights n.heatbath (u.betas.getD (u.rungOf.getD b.replica b.replica) 0) b.state b.fields →
      totalWeight ws ≠ 0 → selectAt ws (drawOffset (drawAt b.key b.draw) (totalWeight ws)) = some (j, new) →
      u.observes b.replica = false → Net.sumsFit n.sums = true →
      fits64 (b.dE + (n.block b.block).deltaE b.state b.fields j new) = true →
      (∀ x ∈ n.blocks, ∀ d ∈ x.spdir, ¬(d.blk = b.block ∧ d.var = j)) →
      exec (.flip le rblk .clean) s = .next
        ((((s.updNet u.model fun x => x.updRBlock b.le b.rblk fun _ =>
            { b with
              state := b.state.set j new, dE := b.dE + (n.block b.block).deltaE b.state b.fields j new
              flips := b.flips + 1, audit := b.audit + 1, draw := b.draw + 1, dwell := dwellOf ws.length (totalWeight ws)
              col := some (j, b.state.getD j 0, new) }).updNet u.model fun x => { x with sums := n.sums }).bump
          (.sweep b.le b.su) ((s.model? u.model).map fun m => State.idOf m.tag)
          (issueInterval (n.block b.block).fmt (n.block b.block).n (n.block b.block).q (n.block b.block).spin)).presentTurnEnds
            u.key))

/-- A turn boundary that can be taken takes in the Cuff words of its turn; with no fault found, what its checks corrected is
counted, it applies its columns and hem changes, sums the energy of this part, and gives it to the ladder engine (04 Table
4.2); on a worker of a job the partial goes to node 0, and at node 0 it stands beside the other partials at the barrier (14
R393). A half that waits for RET enters it then, if no run makes its turn there (18 R469). -/
def Obligations.TurnBoundaryClosesTurn : Prop :=
  ∀ (s : State) (k : ReqKey) (u : Run) (m : Model) (n n' : Net) (find : BoundaryFind) (s' t : State) (part : List Int) (moved : Bool),
    s.run? k = some u → s.model? u.model = some m → s.net? u.model = some n → s.boundaryReady u m n = true →
    s' = s.applyCuffs u.model u.turn → s'.net? u.model = some n' → s'.boundaryFault u n' m find = none →
    (s'.boundaryCount u n' m find).boundaryPart u n' (State.redone u n' find) = .ok (t, part, moved) →
    ((m.job = 0 ∨ s'.partNodes m.job = []) →
      exec (.turnBoundary k find) s = .next (t.ladder k (State.turnEnergies n' u [part]) (u.turn + 1) false moved).settleRet) ∧
    (m.job ≠ 0 → s'.partNodes m.job ≠ [] → s'.req? k = none →
      exec (.turnBoundary k find) s = .next ((t.updRun k fun v => { v with barrier := true }).sendPeer 0x15 0 m.job
        (Tbl.getD s'.pr.jobGens m.job 1) ([u.turn, if moved then 1 else 0] ++ part.map (ofSigned 64)) []).settleRet) ∧
    (m.job ≠ 0 → s'.partNodes m.job ≠ [] → ∀ r, s'.req? k = some r →
      exec (.turnBoundary k find) s = .next ((t.updRun k fun v =>
        { v with barrier := true, partials := v.partials ++ [(s'.pr.nodeid, part, moved)] }).ladderReady k).settleRet)

/-- A word arrives on a lane of a link that is not disabled (07 R184-R191). With a wrong parity it is asked for again: the
lane's replay counters rise and the word stays. The oldest word under way, with its sideband, leaves the lane, which moves
on; a hem change then enters the pending copies of the engine that it reaches and is passed on, and a turn-end stitch is
held for the boundary and is passed on. One with reserved bits that are not zero fails the request of its model. An empty
stitch leaves nothing behind. The fabric's service position (07 R183, R190-R192). A drain marker closes its direction of a
draining entry, and the second one frees the entry and its lanes. Words of a transfer take it on, and those whose parity
fails are asked for again; received whole it leaves its queue, and one whose tag is not current is counted. A lane that has
failed 16 replays of one word, or 4,096 in a tick, is recorded and disabled. -/
def Obligations.FabricWordsAndEvents : Prop :=
  (∀ (s t : State) (w : LaneWord) (y : Nat × W64) (rest : List (Nat × W64)) (e v : Nat), w.lane < 3 →
     (State.way (s.lane w.link w.lane) w.dir).words = y :: rest → (s.lane w.link w.lane).owner = some (e, v) →
     (s.lane w.link w.lane).disabled = false →
     (parityOk w.data w.side = false →
       (wKind w.data = 1 → exec (.hemFlip w) s = .next (s.updLane w.link w.lane fun n => State.noteReplay n w.dir)) ∧
       (wKind w.data = 2 → exec (.turnEndStitch w) s = .next (s.updLane w.link w.lane fun n => State.noteReplay n w.dir))) ∧
     (∀ x, parityOk w.data w.side = true → (s.link w.link).entries.getD e none = some x → x.drain = false →
       t = (s.updLane w.link w.lane fun n => State.popWord n w.dir).moveLane w.link w.lane w.dir →
       (w.data = y.2 → w.side = Machine.sideband y.1 false y.2 → wBad w.data = false →
         (wKind w.data = 1 → exec (.hemFlip w) s = .next
           ((t.setPending x.model (State.recvEnd w.link w.dir) (wBlock w.data) (wRepl w.data) (wVar w.data)
             (wState w.data)).sendFrom x.model (State.recvEnd w.link w.dir) (.inr (w.link, v)) w.data)) ∧
         (wKind w.data = 2 → exec (.turnEndStitch w) s = .next
           ((t.updNet x.model fun n => { n with turnEnds := n.turnEnds ++
               [{ le := State.recvEnd w.link w.dir, link := w.link, vlane := v, blk := wBlock w.data, turn := wVar w.data }] }).sendFrom
             x.model (State.recvEnd w.link w.dir) (.inr (w.link, v)) w.data))) ∧
       (wBad w.data = true →
         (wKind w.data = 1 → exec (.hemFlip w) s = .next (t.wordFault x.model (State.recvEnd w.link w.dir))) ∧
         (wKind w.data = 2 → exec (.turnEndStitch w) s = .next (t.wordFault x.model (State.recvEnd w.link w.dir))))) ∧
     (∀ x, wKind w.data = 0 → (s.link w.link).entries.getD e none = some x → s.linkDead w.link = false → wBad w.data = false →
       exec (.hemFlip w) s = .next (s.updLane w.link w.lane fun n =>
         if parityOk w.data w.side then State.setWay n w.dir { State.way n w.dir with consec := 0 } else State.noteReplay n w.dir))) ∧
  ((∀ (s t : State) (w : LaneWord) (o : Nat × W64) (rest : List (Nat × W64)) (x : LinkEntry) (e : Nat),
     (State.way (s.lane w.link w.lane) w.dir).words = o :: rest → e = (((s.lane w.link w.lane).owner.map (·.1)).getD o.1) →
     (s.lane w.link w.lane).disabled = false → wKind w.data = 3 → parityOk w.data w.side = true → State.arrived o w = true →
     (s.link w.link).entries.getD e none = some x → x.drain = true →
     t = (s.updLane w.link w.lane fun n => State.popWord n w.dir).moveLane w.link w.lane w.dir →
     ∀ y, y = (match w.dir with | .fwd => { x with fwdOpen := false } | .back => { x with backOpen := false }) →
       exec (.drainMarker w) s = .next
         (if y.fwdOpen = true ∨ y.backOpen = true then
           { t with fb := { t.fb with links := updAt t.fb.links w.link fun k => { k with entries := k.entries.set e (some y) } } }
         else (State.freeOne { t with fb := { t.fb with links := updAt t.fb.links w.link fun k =>
           { k with entries := k.entries.set e (some y) } } } w.link e).finishUnload x.model)) ∧
   (∀ (s : State) (x : Transfer) (words : List (W64 × Byte)) (left : List W64) (n : Lane) (q : List Transfer),
     (s.fb.service.find? fun y => decide (y.link = x.link) && decide (y.dir = x.dir)) = some x → x.begun = true →
     (s.lane x.link 3).disabled = false → s.linkDead x.link = false →
     State.takeWords x.dir x.words words (s.lane x.link 3) = (left, n) →
     q = (if left = [] then (if s.shiftTouches x.link then s.fb.service.erase x
         else State.beginNext x.link x.dir (s.fb.service.erase x))
       else s.fb.service.map fun y => if y = x then { x with words := left } else y) →
     exec (.serviceTransfer x.link x.dir words) s = .next
       { s with
         cx := { s.cx with stale := if left = [] ∧ x.tag ≠ 0 ∧ s.tagLive x.tag = false then satInc 16 s.cx.stale else s.cx.stale }
         fb := { s.fb with
           links := updAt s.fb.links x.link fun k => { k with lanes := updAt k.lanes 3 fun _ => n }
           service := q } }) ∧
   (∀ (s : State) (l i : Nat) (byRate : Bool), l < 56 → i < 4 → (s.lane l i).disabled = false → s.shiftTouches l = false →
     (if byRate then (s.lane l i).rated else (s.lane l i).stuck) = true → (s.lane l i).owner = none →
     (∀ e x, (s.link l).entries.getD e none = some x → x.drain = false) →
     exec (.laneFault l i byRate) s = .next
       { s with fb := { s.fb with
           links := updAt s.fb.links l fun k => { k with lanes := updAt k.lanes i fun n =>
             { n with disabled := true, stuck := false, rated := false, fwd := Way.reset, back := Way.reset } }
           fltLink := l, fltLane := i, fltValid := true, fltCause := byRate, fltHpwr := false
           fltCount := satInc 16 s.fb.fltCount } }))

/-- APPEND takes the next positions of its store and ends once they are written (05 R136-R139). With its source read clean,
packed entries go to their positions in order, and raw samples wait for the engines to convert them; a source that reads bad
leaves the filler at every position and fails it (R525; 12 R331); an APPEND of no entries ends at once. A waiting append is
written once its slot is free and its engines work (05 R139): the entry goes to its position, and an APPEND whose last entry
that was ends. -/
def Obligations.AppendTakesPositions : Prop :=
  (∀ (s : State) (k : ReqKey) (r : Request) (i : Nat) (m : Model) (h : Store) (find : SourceFind),
     s.ready? k Op.append = some r → s.storeFor r = .ok (i, m, h) →
     (bitAt (r.fld 80 1) 0 = false → r.fld 72 8 = 0 → s.run? k = none →
       exec (.append k find) s = .next (ended s k Status.ok (BitVec.ofNat 64 h.n) 0)) ∧
     (∀ g len, r.fld 72 8 ≠ 0 → State.appendRoom h (r.fld 72 8) = none →
       (bitAt (r.fld 80 1) 0 = false ∧ g = none ∧ len = r.fld 72 8 * h.stride ∨
         ∃ x, bitAt (r.fld 80 1) 0 = true ∧ s.rawGroup i (r.fld 82 2) (if h.fmt = 1 then 2 else 1) = some x ∧ g = some x ∧
           len = r.fld 72 8 * State.rawSample h x) →
       s.reachOk r (r.fld 64 8) len true = .ok () → s.transferUp (r.fld 64 8) = true → s.enginesReady m.mask = true →
       ∀ t met, s.sourceMet r [(r.fld 64 8, len)] find = (t, met) →
       (met ≠ .clean → exec (.append k find) s =
         .next ((((t.startOn m.mask).takePositions k i h (r.fld 72 8) []).fillRest k false).failMet k met)) ∧
       (met = .clean → ∀ bs, bs = s.readSpace r (r.fld 64 8) len → State.sourceBad h g bs (r.fld 72 8) = none →
         s.vectorUnrouted m g = none →
         (g = none → exec (.append k find) s = .next ((List.range (r.fld 72 8)).foldl
           (fun t e => t.appendNext k (h.unpack (slice bs (e * h.stride) h.stride)))
           (((t.startOn m.mask).updStore i fun x => { x with n := x.n + r.fld 72 8 }).updReq k fun q =>
             { q with
               state := .dispatched, hold := none, samples := []
               append := some { store := i, first := h.n, count := r.fld 72 8, done := 0, elems := [] } }))) ∧
         (∀ x, g = some x →
           exec (.append k find) s =
             .next (((t.startOn m.mask).updStore i fun y => { y with n := y.n + r.fld 72 8 }).updReq k fun q =>
             { q with
               state := .dispatched, hold := none, samples := State.rawSamples (State.rawSample h x) bs (r.fld 72 8)
               append := some { store := i, first := h.n, count := r.fld 72 8, done := 0, elems := [] } }))))) ∧
  (∀ (s : State) (who : Appender) (i : Nat) (w : WaitingEntry) (t : State),
     (s.models.findSome? fun p => match p.2.body with
       | .store h => (h.waiting.find? fun w => decide (w.who = who)).map fun w => (p.1, w)
       | .net _ => none) = some (i, w) →
     t = (s.updStore i fun h => { h with waiting := h.waiting.filter fun v => decide (v.position ≠ w.position) }) →
     t.slotFree i w.position = true → (∀ m, s.model? i = some m → s.enginesReady m.mask = true) →
     (∀ k, who = .request k → exec (.ringAppendWrite who) s = .next ((t.putEntry i w.position w.elems).appendDone k)) ∧
     (∀ n, who = .stream n → exec (.ringAppendWrite who) s = .next (t.putEntry i w.position w.elems)))

/-- RETRIEVE whose packed queries read clean searches the entries of its range and writes its header and one record per
query (05 Tables 5.4, 5.5; R141-R150): the range is what the store still holds of the positions asked for, result word 0 is
its length, and a pass over it counts for every unit of the store. Over a range with no position nothing that a pass could
meet stops it (R148). Queries that read bad fail it with what was met. -/
def Obligations.RetrieveWritesRecords : Prop :=
  ∀ (s s' : State) (k : ReqKey) (r : Request) (i : Nat) (m : Model) (h : Store) (qs : List (List Int)) (t u : State)
    (lo hi : Nat) (source : SourceFind) (find : RetrieveFind),
    s.ready? k Op.retrieve = some r → s.storeFor r = .ok (i, m, h) → bitAt (r.fld 104 1) 2 = false →
    s.reachOk r (r.fld 64 8) (r.fld 100 2 * roundUp h.width 64) true = .ok () →
    s.outputOk r 72 (State.retrieveBytes h (r.fld 100 2) (r.fld 102 2) (bitAt (r.fld 104 1) 1)) = none →
    s.transferUp (r.fld 64 8) = true → s.enginesReady m.mask = true →
    (∀ met, s.sourceMet r [(r.fld 64 8, r.fld 100 2 * roundUp h.width 64)] source = (s', met) → met ≠ .clean →
      exec (.retrieve k source find) s = .next (s'.failMet k met)) ∧
    (s.sourceMet r [(r.fld 64 8, r.fld 100 2 * roundUp h.width 64)] source = (s', .clean) →
      s'.unrouted m.mask (((State.enginesOf m.mask).head?).getD 0) = none →
      State.parseQueries h (r.fld 100 2) (s'.readSpace r (r.fld 64 8) (r.fld 100 2 * roundUp h.width 64)) = .ok qs →
      lo = max (r.fld 80 8) h.lowest → hi = max lo (min (r.fld 88 8) h.visible) →
      t = (s'.startOn m.mask).updReq k (fun q => { q with state := .dispatched, hold := none, reads := some (i, lo, hi) }) →
      t.req? k = some { r with state := .dispatched, hold := none, reads := some (i, lo, hi) } →
      t.rangeDamage m h lo hi = none → t.rangeBurst i m h lo hi = none → find = .clean ∨ hi = lo →
      u = (m.dense.filter fun _ => decide (lo < hi)).foldl (fun t a => t.bump (.sweep a.le a.su) (some (State.idOf m.tag)) 1) t →
      ∀ fs, fs = qs.map (fun q => State.search ((List.range (hi - lo)).map fun j => (lo + j, h.entry (lo + j))) q
          (r.fld 102 2) (r.fld 96 4) (bitAt (r.fld 104 1) 0)) →
      exec (.retrieve k source find) s =
        .next ((u.writeSpace { r with state := .dispatched, hold := none, reads := some (i, lo, hi) }
        (r.fld 72 8)
        ((leBytes 8 lo ++ leBytes 8 hi ++ leBytes 4 qs.length ++ leBytes 4 (r.fld 102 2) ++
          leBytes 4 (if bitAt (r.fld 104 1) 0 then 2 else 1) ++
          leBytes 2 ((if fs.any (·.sat) then 1 else 0) + 2 * (if hi ≤ lo then 1 else 0)) ++ List.replicate 34 0) ++
          (fs.map fun f => State.foundRecord h f (r.fld 102 2) (bitAt (r.fld 104 1) 1)).flatten)).okReq k
        (BitVec.ofNat 64 (hi - lo)) 0))

/-- MODEL_LOAD of an image that reads clean and that the load sequence accepts takes an entry of the model table and returns
its handle and the image's length (08 R214-R216, 10 R288); one that reads bad fails it. A part of a job for another node
that is reachable is sent to that node, and the request waits for LOADED (14 R391). A load that is accepted gives its entry
the next load generation, which skips 0, so that a handle of 0 never names a model (08 R214); and a load that is refused
once it has taken an entry has raised that entry's generation too. -/
def Obligations.ModelLoadTakesEntry : Prop :=
  (∀ (s u : State) (k : ReqKey) (r : Request) (d : Bytes) (find : SourceFind) (met : State.Met),
     s.ready? k Op.modelLoad = some r → r.kernel = false → s.reachOk r (r.fld 56 8) (r.fld 64 8) true = .ok () →
     s.jobRefusal r = none → s.transferUp (r.fld 56 8) = true → d = s.readSpace r (r.fld 56 8) (r.fld 64 8) →
     (Img.node d = 0 → s.loadWaits (Img.mask d) = false) → Img.order1 d (r.fld 64 8) (r.fld 72 4) = none →
     s.sourceMet r [(r.fld 56 8, r.fld 64 8)] find = (u, met) →
     (met ≠ .clean → exec (.modelLoad k find) s = .next (u.failMet k met)) ∧
     (met = .clean →
       (∀ t i m, r.fld 72 4 = 0 → u.loadImage d (u.loadFor r r.tag d true none none) = (t, .ok i) → t.model? i = some m →
         exec (.modelLoad k find) s = .next (t.okReq k (State.handleOf i m) (BitVec.ofNat 64 d.length))) ∧
       (r.fld 72 4 ≠ 0 → Img.node d = 0 →
         exec (.modelLoad k find) s = .next ((u.loadPartHere k r d).dropEmptyJob (r.fld 72 2))) ∧
       (r.fld 72 4 ≠ 0 → Img.node d ≠ 0 → u.partRefusal r d (r.fld 72 2) = none → ∀ j t, j = u.jobFor (r.fld 72 2) r.tag d →
         t = u.putJob (r.fld 72 2) { j with sent := j.sent ++ [(Img.node d, State.commonOf d)] } →
         exec (.modelLoad k find) s = .next (State.dropEmptyJob (((t.holdReq k (some .peer)).updReq k fun q =>
           { q with reads := some (r.fld 72 2, Img.node d, Img.blocks d) }).sendPeer 0x10 (Img.node d) (r.fld 72 2)
             (u.jobGen (r.fld 72 2)) [] d) (r.fld 72 2))))) ∧
  (∀ (s t : State) (d : Bytes) (w : State.LoadFor) (i : Nat), s.loadImage d w = (t, .ok i) →
     Tbl.get? s.models i = none ∧ i < 4096 ∧
     Tbl.getD t.mgens i 0 = (if (Tbl.getD s.mgens i 0 + 1) % 65536 = 0 then 1 else (Tbl.getD s.mgens i 0 + 1) % 65536) ∧
     ∃ m, t.model? i = some m ∧ m.gen = Tbl.getD t.mgens i 0 ∧ m.tag = w.owner ∧ m.loading = true)

/-- MODEL_UPDATE_ROWS whose data reads clean and is accepted queues its scales and places its update: at once where no run
is in the way, else at the next turn boundary (04 R124; 10 R289). Data that reads bad fails it. -/
def Obligations.UpdateRowsPlaced : Prop :=
  ∀ (s s' : State) (k : ReqKey) (r : Request) (i : Nat) (m : Model) (n : Net) (d : Bytes) (t : State) (find : SourceFind)
    (met : State.Met),
    s.ready? k Op.modelUpdateRows = some r → r.kernel = false → s.handle? r (r.fld 56 8) = some i → s.model? i = some m →
    s.net? i = some n → s.reachOk r (r.fld 64 8) (r.fld 72 8) true = .ok () →
    (r.fld 72 8 = 0 ∨ s.transferUp (r.fld 64 8) = true) → s.enginesReady m.mask = true →
    s.sourceMet r [(r.fld 64 8, r.fld 72 8)] find = (s', met) →
    (met ≠ .clean → exec (.modelUpdateRows k find) s = .next (s'.failMet k met)) ∧
    (met = .clean → s'.openUpdate m (bitAt (r.fld 96 1) 0) (s'.readSpace r (r.fld 64 8) (r.fld 72 8)) = .ok d →
      ∀ u, u = s'.readUpdate r i n d (if bitAt (r.fld 96 1) 0 then 64 else 0) → State.updateBad n u (r.fld 72 8) = none →
      s'.queueScales i u.groups = .ok t →
      exec (.modelUpdateRows k find) s = .next ((t.startOn m.mask).placeUpdate k i
        { req := some k, stream := none, rows := u.rows.map fun x => (x.1, x.2.1, x.2.2.2), biases := u.biases
          scales := u.scales, release := false }))

/-- MODEL_UNLOAD begins the unloading of a model that its context has loaded, cancelling its users where asked; of a model
that the module has already unloaded it frees the entry and ends, once the entry's links have drained (08 R228, R229). -/
def Obligations.ModelUnloadBegins : Prop :=
  ∀ (s : State) (k : ReqKey) (r : Request) (m : Model) (i : Nat), s.ready? k Op.modelUnload = some r → r.kernel = false →
    i = r.fld 56 8 % 4096 → s.model? i = some m → (State.handleOf i m).toNat = r.fld 56 8 → m.tag = r.tag →
    m.loading = false → m.unloading = none →
    (m.gone = false → exec (.modelUnload k) s = .next ((s.holdReq k (some .unload)).beginUnload i [k] (bitAt (r.fld 64 1) 0))) ∧
    (∀ t, m.gone = true → t = (s.holdReq k (some .unload)).updModel i (fun m => { m with unloading := some [k] }) →
      exec (.modelUnload k) s = .next (t.finishUnload i) ∧
      (m.job = 0 → t.modelIdle i = true → t.entriesOf i = [] → exec (.modelUnload k) s =
        .next ((State.pruneProgress { t.releaseData i with models := Tbl.erase (t.releaseData i).models i }).okReq k 0 0)))

/-- CTX_CREATE makes the lowest free context LIVE with an empty grant and returns its tag; CTX_GRANT gives a live context a
grant that holds what the context holds already, and gives back zeroed the chain memory that the new grant no longer
reserves (10 R296, R297; 11 R304). CTX_RESET and CTX_DESTROY of a live context hold their request and reset the context,
CTX_DESTROY so that it is FREE afterwards (10 R296; 11 R313). A further one, of a context that is being reset, joins that
reset (Table 11.6). -/
def Obligations.ContextCommandsComplete : Prop :=
  (∀ (s : State) (k : ReqKey) (r : Request),
     (Starts s k Op.ctxCreate r → ∀ i, 1 ≤ i → i ≤ 255 → (s.ctx i).state = .free →
       (∀ j, 1 ≤ j → j < i → (s.ctx j).state ≠ .free) →
       ∀ t, t = (s.updCtx i fun c => { c with state := .live, grant := Grant.empty, hung := false, fenced := false, isolated := [] }) →
       exec (.ctxCreate k) s = .next (ended t k Status.ok (BitVec.ofNat 64 (t.tagOf i).toNat) 0)) ∧
     (Starts s k Op.ctxGrant r → ∀ tag g, tag = State.payloadTag r → g = State.payloadGrant r → s.tagLive tag = true →
       (∀ le, le < 32 → bitAt g.mask le = true → s.isLost le = false) → s.grantBelow tag g = [] → s.chainShort tag g = [] →
       exec (.ctxGrant k) s = .next (ended
         (s.updCtx (State.idOf tag) fun c => { c with grant := g, chain := State.trimChain g c.chain }) k Status.ok 0 0))) ∧
  (∀ (s : State) (k : ReqKey) (r : Request),
     (s.tagLive (State.payloadTag r) = true ∨
       ∃ x, (s.ctx (State.idOf (State.payloadTag r))).resetting = some x ∧ x.tagBefore = State.payloadTag r) →
     (s.ready? k Op.ctxReset = some r → exec (.ctxReset k) s = .next ((s.holdReq k (some .destroy)).resetContext
       (State.idOf (State.payloadTag r)) (some k) false)) ∧
     (s.ready? k Op.ctxDestroy = some r → exec (.ctxDestroy k) s = .next ((s.holdReq k (some .destroy)).resetContext
       (State.idOf (State.payloadTag r)) (some k) true)))

/-- The end of a context reset (11 R313 orders 8 to 11; R304, R312): what the context held is zeroed and released, its
queues are closed, its generation goes up by one, it is LIVE again or FREE, its reset count rises, and the requests that
waited for the reset end. The revival of a context raises its generation by one in 16 bits, sets it LIVE or FREE, and ends
its reset: it is neither hung nor fenced, on no unit either, and its reset count goes up (11 R304, R312, R313). -/
def Obligations.ContextResetEnds : Prop :=
  (∀ (s : State) (id : Nat) (x : ResetInfo), (s.ctx id).resetting = some x → s.resetReady id x = true → (s.ctx id).job = 0 →
     ∀ t, t = (((s.releaseContext id).queuesOf x.tagBefore).foldl State.closeQueue (s.releaseContext id)).reviveContext id
       x.freeing →
     exec (.contextResetEnd id) s = .next (State.pruneProgress (x.waiters.foldl (fun u k => u.okReq k
       (if (s.req? k).any (fun r => r.op == Op.ctxReset) then BitVec.ofNat 64 (t.tagOf id).toNat else 0) 0) t))) ∧
  (∀ (s : State) (id : Nat) (freeing : Bool), id ≠ 0 → ∀ c, c = (s.reviveContext id freeing).ctx id →
     c.gen = ((s.ctx id).gen + 1) % 65536 ∧ c.state = (if freeing then .free else .live) ∧ c.resetting = none ∧
       c.fenced = false ∧ c.isolated = [] ∧ c.hung = false ∧ c.resets = satInc 16 (s.ctx id).resets)

/-- QUEUE_CREATE of a record that the checks accept creates its queue and returns its number and generation, and of another
it returns the refusal; FE_KQCMD with GO does the same for a kernel queue and shows them in the register, and shows the
refusal's status where the record is refused (09 R234-R238). A creation takes the next generation of the queue number (09
R237), enters the queue ACTIVE with every count 0, writes its state line, and reads its doorbell line for the first time
(R238). -/
def Obligations.QueueCreateCompletes : Prop :=
  ((∀ (s u : State) (k : ReqKey) (r : Request), s.ready? k Op.queueCreate = some r → addrSpace (r.fld 56 8) = 0 →
     addrLe (r.fld 56 8) = 0 → s.hostUp = true → u = s.touchHost (s.homeOf r.queue) →
     (∀ n, u.checkRecord (Mem.bytes s.host (addrOff (r.fld 56 8)) 64) false = .ok n →
       ∀ t, t = u.createQueue (Mem.bytes s.host (addrOff (r.fld 56 8)) 64) n → exec (.queueCreate k) s =
         .next (t.assignSlots.okReq k (BitVec.ofNat 64 n) (BitVec.ofNat 64 (Tbl.getD t.fe.qgens n 0)))) ∧
     (∀ x, u.checkRecord (Mem.bytes s.host (addrOff (r.fld 56 8)) 64) false = .error x →
       exec (.queueCreate k) s = .next (u.refuse k x))) ∧
   (∀ (s u : State) (p : Port), s.regReach p 0x2008 = .open_ → u = s.wakeLink p → u.hostUp = true →
     (∀ n t, u.checkRecord (Mem.bytes u.host (u.fe.kqAddr.toNat * 64) 64) true = .ok n →
       t = u.createQueue (Mem.bytes u.host (u.fe.kqAddr.toNat * 64) 64) n →
       exec (.feKqcmdGo p) s = .next (State.assignSlots
         { t with fe := { t.fe with kqStatus := 0, kqQueue := n, kqGen := Tbl.getD t.fe.qgens n 0 } })) ∧
     (∀ x, u.checkRecord (Mem.bytes u.host (u.fe.kqAddr.toNat * 64) 64) true = .error x →
       exec (.feKqcmdGo p) s = .next (State.assignSlots { u with fe := { u.fe with kqStatus := BitVec.ofNat 8 x.status } })))) ∧
  (∀ (s : State) (d : Bytes) (n : Nat), ∃ t : State,
     s.createQueue d n = (t.writeLine n).readDoorbell n ∧
     t.queue? n = some (State.newQueue d (nextQueueGen (Tbl.getD s.fe.qgens n 0))) ∧
     Tbl.getD t.fe.qgens n 0 = nextQueueGen (Tbl.getD s.fe.qgens n 0) ∧ t.host = s.host)

/-- QUEUE_DESTROY puts the queue into DESTROYING: its state line is written, a watch that has fired is installed again for
CHEAD, it loses its slot, and the request waits; with ABORT its requests and chains are cancelled. Once no request of the
queue is left and no reset of its context drains, its number is freed and the waiting requests end with OK (09 R254, R258,
R262). -/
def Obligations.QueueDestroyCompletes : Prop :=
  (∀ (s : State) (k : ReqKey) (r : Request) (q : Queue) (n : Nat), s.ready? k Op.queueDestroy = some r → n = r.fld 56 2 →
    s.queue? n = some q → q.gen = r.fld 58 2 →
    ∀ t u, t = (s.holdReq k (some .destroy)).updQueue n (fun q =>
      { q with state := .destroying, cause := 0, destroys := q.destroys ++ [k] }) →
    u = ((if q.state = .destroying then t else t.writeLine n).keepWatch n).dropSlotOf n →
    exec (.queueDestroy k) s = .next (if bitAt (r.fld 60 1) 0 then u.abortQueue n else u)) ∧
  (∀ (s : State) (n : Nat) (q : Queue), s.queue? n = some q → q.state = .destroying → q.destroys ≠ [] → s.remaining n q = [] →
    (∀ c ∈ s.fe.chains, c.queue ≠ n) →
    (q.kernel = false → ∀ x, (s.ctx (State.idOf q.tag)).resetting = some x → x.tagBefore ≠ q.tag) →
    exec (.queueDestroyEnd n) s = .next (q.destroys.foldl (fun t k => t.okReq k 0 0) (s.freeQueue n)))

/-- A host store reaches host memory whatever the links do. By its port's link, or by the other one while that alone is up,
it fires the watches of the doorbell lines that it touches and is answered as invalid (09 R244, R253, 13 R361; log entry 5).
A cacheable request to module space is answered NOCACHE and counted (13 R362). A link in the low-power substate wakes (13
R375). -/
def Obligations.HostStoresAndCacheable : Prop :=
  ∀ (s : State) (p : Port),
    (∀ addr data, s.viaPort p = none →
      exec (.snoop p addr data) s = .next { s with host := Mem.store s.host addr data }) ∧
    (∀ addr data q, s.viaPort p = some q →
      exec (.snoop p addr data) s = .next
        ((((s.fe.queues.filter fun x => decide (x.2.door < addr + data.length) && decide (addr < x.2.door + 64)).map
          (·.1)).foldl State.fireWatch (State.wakeLink { s with host := Mem.store s.host addr data } q)).answer q .invalidAck)) ∧
    (s.linkUp p = true → exec (.cacheableRequest p) s = .next (State.answer
      { s.wakeLink p with hp := { (s.wakeLink p).hp with cachereq := satInc 8 s.hp.cachereq } } p .nocache))

/-- A slot whose queue has nothing more that it may fetch reads the doorbell line and goes on from there; the end of a slice
counts it for the queues without a slot, maps the slots anew, kernel slots first, and reads the doorbell lines of queues
that wait on credits and have no slot (09 R246, R249, R256; log entry 18). A slot fetches the descriptor at its queue's
FHEAD once: it enters the table under the queue's generation, number and sequence number, with the overlay entries that hit
it; FHEAD and the slot's count go up; and the request is released if no patch holds it (09 R242, R243; 10 R265, R276).
Whether a slot may fetch is said by its queue, its credits, and the fence of its context. -/
def Obligations.SlotsReadAndFetch : Prop :=
  ((∀ (s : State) (i n : Nat) (q : Queue), ((s.fe.slots[i]?).getD Slot.reset).queue = some n → s.queue? n = some q →
     ((s.fe.slots[i]?).getD Slot.reset).idle = false → (s.slotFetches i q = false ∨ s.canFetch n q = false) →
     exec (.doorbellRead i) s = .next ((s.readDoorbell n).afterRead i n q.tail)) ∧
   (∀ s t : State,
     t = { s with
       fe := { s.fe with
         queues := Tbl.mapVals s.fe.queues fun n q =>
           if (s.slotOf n).isSome then { q with unserved := 0, readyRun := 0 }
           else if s.queueReady n q = false then { q with unserved := q.unserved + 1, readyRun := 0 }
           else if s.fe.age ≠ 0 ∧ s.fe.age ≤ q.readyRun then { q with unserved := q.unserved + 1, readyRun := 1 }
           else { q with unserved := q.unserved + 1, readyRun := q.readyRun + 1 } } } →
     exec .sliceEnd s =
       .next ((((t.remap true).remap false).fe.queues.map (·.1)).foldl State.readStarved ((t.remap true).remap false)))) ∧
  (∀ (s v : State) (i n : Nat) (q : Queue), ((s.fe.slots[i]?).getD Slot.reset).queue = some n → s.queue? n = some q →
     s.slotFetches i q = true → s.canFetch n q = true → s.hostUp = true →
     v = { s.touchHost q.home with free := s.free + 1 } →
     ∀ r u, r = v.fetchedRequest n q →
     u = (((v.insertFetched n q r).updQueue n fun q => { q with fhead := q.fhead + 1 }).updSlot i
       fun t => { t with idle := false, cwait := false, fetched := t.fetched + 1 }) →
     r.key.name = mkName q.gen n q.fhead ∧ r.desc = Mem.bytes s.host (q.ring + 128 * (q.fhead % q.ringN)) 128 ∧
     exec (.descriptorFetch i) s = .next
       (if (q.fhead + 1) % 64 = 0 then
         ((u.reserveOverlay r).releasePatched (Config.lostStatus s.free).toNat).writeLine n
       else (u.reserveOverlay r).releasePatched (Config.lostStatus s.free).toNat))

/-- A request that has ended completes once its queue's ring has room, no earlier QUEUE_DESTROY of its queue is still to
complete, and no policy decision is awaited for its setpoints (09 R248, R250, R251, R259; 10 R270-R280; 15 R418): its record
and then its signal are sent, a load's model opens, setpoints are formed, the entry retires, what waited on it is resolved,
its chain goes on, and unloads, updates and halves that waited for it settle. Where it is a POWER_SET to HIBERNATE or
HIBERNATE-M that has succeeded, the module then enters that state (18 R465). A name of an older generation of its queue is
counted (09 R261). A completion record goes to the queue's next place in its completion ring with the phase of that pass,
and CTAIL goes up by one; with both host links down it is lost and counted, and the queue enters ERROR with cause 0x5 (09
R250, R253). -/
def Obligations.RequestCompletes : Prop :=
  (∀ (s : State) (k : ReqKey) (now formed : Nat) (areaOk : Bool),
     (∀ r q, s.req? k = some r → s.queue? r.queue = some q → r.state = .ended →
       (r.recorded = true → if r.chained then s.recordRoom r.queue = true else q.ctail < q.chead + q.compN) →
       s.behindDestroy r = false →
       (r.good = true → (r.op = Op.solve ∨ r.op = Op.score) → ∀ b, r.best = some b → s.setpointsWait b.1 = false) →
       ∀ t u, t = (if r.recorded then (s.putRecord r.queue q r).recordSignal q r else s) →
         u = ((((State.retire ((t.openLoaded r).formSetpoints r now formed areaOk) r).release r).followChain
           r).unloadAll).settleUpdates.settleRet.settleOn →
       (State.hibernateOf r = none → exec (.requestComplete k now formed areaOk) s = .next u) ∧
       (∀ keep, State.hibernateOf r = some keep → exec (.requestComplete k now formed areaOk) s =
         .next (u.enterHibernate keep))) ∧
     (s.req? k = none → s.staleName k.name = true → exec (.requestComplete k now formed areaOk) s = .next
       { s with fe := { s.fe with qerrStale := satInc 16 s.fe.qerrStale } })) ∧
  (∀ (s : State) (n : Nat) (q : Queue) (r : Request),
     (recordFlags q r) % 2 = (if (q.ctail / q.compN) % 2 = 0 then 1 else 0) ∧ (recordBytes q r).length = 32 ∧
     (s.hostUp = true → (q.ctail + 1) % 64 ≠ 0 → s.putRecord n q r =
       (s.writeHost q.home (q.comp + 32 * (q.ctail % q.compN)) (recordBytes q r)).updQueue n fun q => { q with ctail := q.ctail + 1 }) ∧
     (s.hostUp = false → s.putRecord n q r =
       State.queueError { s with fe := { s.fe with qerrLost := satInc 16 s.fe.qerrLost } } n 5))

/-- The next descriptor of a chain enters the request table under the chain's name and next link number once its record has
room and its context is served; it counts as progress of its engine's controller, and a descriptor that the checks refuse
fails (10 R279, R280). A word of chain memory that cannot be corrected fails it too (03 R83), and a pointer outside the
chain memory of its context fails the descriptor that holds it, at byte 48. -/
def Obligations.ChainGoesOn : Prop :=
  ∀ (s : State) (name : W64) (c : Chain) (p : Nat × Nat), (s.fe.chains.find? fun c => decide (c.name = name)) = some c →
    c.ptr = some p → s.recordRoom c.queue = true → s.fe.fenced = false → s.cx.mpfault = false → s.pw.mstate = .active →
    (c.kernel = true ∨ s.served c.tag = true) →
    (s.inChainMemory c p = false → ∀ find r, r = State.chainRequest c c.holder none →
      exec (.chainNext name find) s = .next ((s.enterLink c r).refuse ⟨c.name, c.next⟩ (Refuse.field 48 0))) ∧
    (s.inChainMemory c p = true → s.accepts p.1 = true → s.shiftOver (2 ^ p.1) = false →
      s.isolates (State.idOf c.tag) (.controller p.1) = false →
      ∀ d t, d = s.chainDesc c.tag p.1 p.2 →
      t = (s.enterLink c (State.chainRequest c d (some p))).bump (.controller p.1) none 1 →
      (∀ addr, exec (.chainNext name (.scratchBad addr)) s = .next
        ((t.noteBadWord (t.siteOf p.1) (.chain (State.idOf c.tag)) addr).faultData ⟨c.name, c.next⟩ p.1 2 0 addr 0 0)) ∧
      (checkDescriptor d c.kernel true none = none → exec (.chainNext name .clean) s = .next t ∧
        exec (.chainNext name .sramCorrected) s = .next (t.countSramCorr (t.siteOf p.1))) ∧
      (∀ x, checkDescriptor d c.kernel true none = some x →
        exec (.chainNext name .clean) s = .next (t.refuse ⟨c.name, c.next⟩ x) ∧
        exec (.chainNext name .sramCorrected) s = .next ((t.countSramCorr (t.siteOf p.1)).refuse ⟨c.name, c.next⟩ x)))

/-- The first tick at which a live context is found hung on a unit, by runnable work that has shown no progress there for K
times WINDOW ticks or in a cycle of contexts that await each other, sets its hung flag and its bit of the hung set, records
the unit in CX_FAULTCTX and sends the event signal; with AUTO the context is reset. Contexts found hung at one tick are
handled in ascending order (11 R309-R311). A unit that does not acknowledge a reset has its site declared failed with cause
0xA (R317). CTX_DUMP of a live context, or of one that is being reset, holds its request; unless a reset, another dump or
the pause of a spare shift is in its way it fences the context, and once nothing is, the waiting request does so. A unit
that has not paused in time is listed as unreachable; DUMP_WRITE writes the dump where the request asked for it, lowers the
fence but for the unreachable units, and ends the request with the number of bytes and of unreachable units (11 R318, R321;
log entry 124). -/
def Obligations.RecoveryCommands : Prop :=
  ((∀ (s : State) (id : Nat) (u : HwUnit) (p : Progress), 1 ≤ id → id < 256 → (s.ctx id).hung = false → (s.ctx id).state = .live →
     s.firmwareRuns = true → (∀ j, j < id → s.hangOpen j = false) → s.progressOf u (some id) = some p →
     (p.runnable = true ∧ (p.kind = 0 ∨ p.kind = 8) ∧ p.tr + s.cx.k * s.cx.window ≤ s.now ∨ p.kind = 7 ∧ s.inCycle id = true) →
     ∀ v t, v = s.updCtx id (fun c => { c with hung := true }) →
     t = (State.noteContext { v with cx := { v.cx with hungSet := v.cx.hungSet ||| BitVec.ofNat 256 (2 ^ id) } }
       (s.tagOf id) (State.hangCause u) (State.unitFields u).1 (State.unitFields u).2.1 (State.unitFields u).2.2).eventSignal →
     (s.cx.auto = false → exec (.hangDetected id u) s = .next t) ∧
     (s.cx.auto = true → exec (.hangDetected id u) s = .next
       (State.resetContext { t with cx := { t.cx with autorst := satInc 16 t.cx.autorst } } id none false))) ∧
   (∀ (s : State) (id site le : Nat) (x : ResetInfo), (s.ctx id).resetting = some x → s.leOf site = some le → site < 40 →
     x.noAck.contains site = false →
     exec (.resetAckTimeout id site) s = .next
       ((State.noteContext (s.updCtx id fun c => { c with resetting := some { x with noAck := x.noAck ++ [site] } })
         x.tagBefore 0xA le 0 site).declareFailed site))) ∧
  ((∀ (s : State) (k : ReqKey) (r : Request) (id : Nat) (t : State), id = State.idOf (State.payloadTag r) →
     (s.ready? k Op.ctxDump = some r ∧ t = s.holdReq k (some .dump) ∧ (s.tagLive (State.payloadTag r) = true ∨
         ∃ x, (s.ctx id).resetting = some x ∧ x.tagBefore = State.payloadTag r) ∨
       s.ready? k Op.ctxDump = none ∧ s.req? k = some r ∧ r.op = Op.ctxDump ∧ r.state = .dispatched ∧ r.hold = some .dump ∧
         s.firmwareRuns = true ∧ t = s) →
     (t.dumpWaits id = true → exec (.ctxDump k) s = .next t) ∧
     (t.dumpWaits id = false → exec (.ctxDump k) s = .next (t.updCtx id fun c =>
       { c with fenced := true, dump := some { req := k, tick := t.mg.tick, faultCtx := t.regFaultCtx, unreachable := [] } }))) ∧
   (∀ (s : State) (id : Nat) (u : HwUnit) (d : DumpInfo), (s.ctx id).dump = some d → (s.unitsWith id).contains u = true →
     d.unreachable.contains u = false →
     exec (.dumpAckTimeout id u) s = .next
       (s.updCtx id fun c => { c with dump := some { d with unreachable := d.unreachable ++ [u] } })) ∧
   (∀ (s : State) (id : Nat) (d : DumpInfo) (r : Request), (s.ctx id).dump = some d → s.req? d.req = some r →
     (s.ctx id).resetting = none → s.firmwareRuns = true →
     ∀ out t, out = s.dumpBytes id d (r.fld 72 8) →
       t = (s.writeFor r.queue (addrOff (r.fld 64 8)) out).updCtx id (fun c =>
         { c with dump := none, fenced := c.resetting.isSome, isolated := d.unreachable }) →
       exec (.dumpWrite id) s = .next (t.okReq d.req (BitVec.ofNat 64 out.length) (BitVec.ofNat 64 d.unreachable.length))) ∧
   (∀ (s : State) (k : ReqKey) (r : Request), s.ready? k Op.counterReadAll = some r →
     exec (.counterReadAll k) s = .next ((s.writeFor r.queue (addrOff (r.fld 56 8)) (s.readoutBytes (r.fld 64 8))).okReq k
       (BitVec.ofNat 64 (s.readoutBytes (r.fld 64 8)).length) 0)))

/-- MG_TICK counts while TCXO_AON runs and the module is past the second order of a start after P (18 R479, 20 R503). With
no firmware running nothing else happens; firmware that runs mirrors the progress counters, takes the telemetry, checks the
range of temperature, sets the budgets and sets the audit intervals, in this order. -/
def Obligations.TickMirrorsAndGoverns : Prop :=
  ∀ (s : State) (x : Telemetry),
    (s.tickRuns = false → exec (.managementTick x) s = .next s) ∧
    (s.tickRuns = true → s.newTick.firmwareRuns = false → ∃ t, exec (.managementTick x) s = .next t ∧
      t.mg.tick = s.mg.tick + 1 ∧ t.cx = s.cx ∧ t.sites = s.sites ∧ t.pw = s.pw) ∧
    (s.tickRuns = true → s.newTick.firmwareRuns = true → exec (.managementTick x) s = .next
      (((((((s.newTick.mirrorAll x).takeSites x).takeModule x).checkRange x).govern x).setAudits).settleRet).settleOn)

/-- POWER_SET of scope 0 (18 R465-R468): to ACTIVE it ends at once in ACTIVE, and wakes the module out of STANDBY; to
STANDBY it stops dispatch and waits for STANDBY_ENTRY; to HIBERNATE it is refused, at byte 57, while a context or a job
stands, and else ends, and the module hibernates with its record. Once every run holds and nothing is under way on the
fabric, the module is in STANDBY: its halves enter RET, or OFF where STBYOFF allows it, its links sleep, and the request
ends (18 R466, R467; 13 R375). With AUTOWAKE the first request or sample that waits brings it back to ACTIVE (R468). -/
def Obligations.ModuleStates : Prop :=
  (∀ (s : State) (k : ReqKey) (r : Request), s.ready? k Op.powerSet = some r → r.fld 56 1 = 0 → s.shifting = false →
     s.pw.entry = none → s.pw.halfReq = [] →
     (r.fld 57 1 = 0 → s.pw.mstate ≠ .standby → exec (.powerSetModuleState k) s = .next (s.okReq k 0 0)) ∧
     (r.fld 57 1 = 0 → s.pw.mstate = .standby →
       exec (.powerSetModuleState k) s = .next ((s.holdReq k (some .powerOn)).leaveStandby (some k))) ∧
     (r.fld 57 1 = 1 → s.pw.mstate ≠ .standby → ∀ t, t = s.holdReq k (some .standby) →
       exec (.powerSetModuleState k) s = .next { t with pw := { t.pw with mstate := .entering, entry := some k } }) ∧
     (2 ≤ r.fld 57 1 → exec (.powerSetModuleState k) s =
       .next (if s.busyModule then s.refuse k (Refuse.field 57 0) else s.okReq k 0 0))) ∧
  (∀ s : State,
     (∀ k, s.pw.entry = some k → s.pw.mstate = .entering → s.halfQuiet .west = true → s.halfQuiet .east = true →
       s.fabricQuiet = true → ∀ t, t = { s with
         pw := { s.pw with mstate := .standby, entry := none, stbyW := s.pw.halfW == HalfState.on, stbyE := s.pw.halfE == HalfState.on } } →
       exec .standbyEntry s =
         .next (((((t.enterStandbyHalf .west).enterStandbyHalf .east).parkHinges).mapLinks State.sleepLink).okReq k 0 0)) ∧
     (s.pw.mstate = .standby → s.pw.autowake = true → s.waitsInStandby = true →
       exec .autowake s = .next (s.leaveStandby none)) ∧
     (∀ h, s.standbyHalf h = (if (s.half h = .on ∨ s.half h = .ret) then
       (if s.pw.stbyoff = true ∧ s.halfAllocated h = false then .off else .ret) else s.half h)))

/-- POWER_SET of scope 1 puts a half ON, into RET or OFF (18 R469, R477), once no change of the half is under way or the
half has tripped: ON and RET end the request after the transition, OFF, which loses what the half held, at once. It is
refused at byte 58 for a half that is not enabled, at byte 57 for one that is tripped and still hot or has no supply, and
with PLACEMENT while a model uses a Hinge or, for OFF, has an allocation on the half. Scope 2 sets the limit, and the
effective limit is at most 500 W while the cold plate is hot (R473). What a half may refuse (18 R469, R477), in this order.
-/
def Obligations.PowerSetHalfAndLimit : Prop :=
  (∀ (s : State) (k : ReqKey) (r : Request), s.ready? k Op.powerSet = some r →
     (r.fld 56 1 = 1 → s.shifting = false → s.pw.entry = none →
       ∀ h, h = (if bitAt (r.fld 58 1) 0 then Half.east else Half.west) →
       (s.half h = .tripped ∨ ∀ x ∈ s.pw.halfReq, x.1 ≠ h) →
       (∀ x, s.halfRefusal h (r.fld 57 1) = some x → exec (.powerSetEngineHalf k) s = .next (s.refuse k x)) ∧
       (s.halfRefusal h (r.fld 57 1) = none → r.fld 57 1 = 0 → s.half h = .on →
         exec (.powerSetEngineHalf k) s = .next (s.okReq k 0 0)) ∧
       (s.halfRefusal h (r.fld 57 1) = none → r.fld 57 1 = 0 → s.half h ≠ .on →
         ∀ t, t = (s.holdReq k (some .powerOn)).driveHalf h .on → exec (.powerSetEngineHalf k) s =
           .next (State.settleOn { t with pw := { t.pw with halfReq := t.pw.halfReq ++ [(h, .on, some k)] } })) ∧
       (s.halfRefusal h (r.fld 57 1) = none → r.fld 57 1 = 1 → s.half h = .ret →
         exec (.powerSetEngineHalf k) s = .next (s.okReq k 0 0)) ∧
       (s.halfRefusal h (r.fld 57 1) = none → r.fld 57 1 = 1 → s.half h ≠ .ret → ∀ t, t = s.holdReq k (some .halfRet) →
         exec (.powerSetEngineHalf k) s =
           .next (State.settleRet { t with pw := { t.pw with halfReq := t.pw.halfReq ++ [(h, .ret, some k)] } })) ∧
       (s.halfRefusal h (r.fld 57 1) = none → 2 ≤ r.fld 57 1 →
         exec (.powerSetEngineHalf k) s = .next ((((s.driveHalf h .off).setHalf h .off).emptyHalf h).parkHinges.okReq k 0 0))) ∧
     (r.fld 56 1 = 2 → s.run? k = none → exec (.powerSetPowerLimit k) s = .next (ended
       { s with pw := { s.pw with limit := r.fld 60 2, efflim := if s.pw.cphot then min 500 (r.fld 60 2) else r.fld 60 2 } }
       k Status.ok 0 0))) ∧
  (∀ (s : State) (h : Half) (v : Nat),
     (s.halfEnabled h = false → s.halfRefusal h v = some (Refuse.field 58 0)) ∧
     (s.halfEnabled h = true → v = 0 → s.half h = .tripped → s.tripHot h = true → s.halfRefusal h v = some (Refuse.field 57 0)) ∧
     (s.halfEnabled h = true → v = 0 → s.half h ≠ .on → s.vinGood h = false → s.halfRefusal h v = some (Refuse.field 57 0)) ∧
     (s.halfEnabled h = true → v = 0 → s.half h = .on → s.halfRefusal h v = none) ∧
     (s.halfEnabled h = true → v ≠ 0 → ∀ l, s.hingeUser = some l →
       s.halfRefusal h v = some (Refuse.placement (Refuse.report 0x0D false false 0 0 l))) ∧
     (s.halfEnabled h = true → v = 2 → s.hingeUser = none → s.halfAllocated h = true →
       s.halfRefusal h v = some (Refuse.placement (Refuse.report 0x01 false false (if h = .west then 0 else 16) 0 0))))

/-- The events of power and heat (18 R475-R478). A hot engine goes down one operating point and is throttled; an
overshooting one is held, at a share of the tick that the spec leaves open (log entry 13). A trip of an engine's sensor
turns its half off and that of a hub or manager both, and drives THERM_TRIP_N; a half that trips shows in PW_EVT; a half
whose supply falls loses its contents as in OFF, but in HIBERNATE and HIBERNATE-M, where the board may remove it (21 R512).
-/
def Obligations.PowerAndHeatEvents : Prop :=
  ∀ s : State,
    (∀ i, i < 40 → (s.site i).dstate = .on →
      exec (.engineThrottle i) s = .next (s.updSite i fun x => { x with point := x.point - 1, throttled := true })) ∧
    (∀ i, i < 40 → (s.site i).dstate = .on → (s.site i).overshoot = false → ∃ v,
      exec (.powerOvershoot i) s = .next
        (State.updSite { s with free := s.free + 1 } i fun x => { x with overshoot := true, frac := v })) ∧
    (∀ x t, t = { s with pw := { s.pw with
        tripLine := true
        tripSensors := if s.pw.tripSensors.contains x then s.pw.tripSensors else s.pw.tripSensors ++ [x] } } →
      (∀ i, x = .engine i → i < 40 → exec (.thermalTrip x) s = .next (t.tripHalf (State.siteHalf i))) ∧
      (x = .hubOrManager → exec (.thermalTrip x) s = .next ((t.tripHalf .west).tripHalf .east))) ∧
    (∀ h, s.half h ≠ .tripped → ∀ t, t = (s.setHalf h .tripped).losePower h →
      s.tripHalf h = (match h with
        | .west => { t with pw := { t.pw with evTripW := true } }
        | .east => { t with pw := { t.pw with evTripE := true } })) ∧
    (s.pw.mstate ≠ .hibernate → s.pw.mstate ≠ .hibernateM → ∀ h t,
      t = ((if s.half h = .tripped then s else s.setHalf h .off).losePower h).parkHinges →
      exec (.vinEngLoss h) s = .next (match h with
        | .west => { t with pw := { t.pw with vinW := false, evVinW := true } }
        | .east => { t with pw := { t.pw with vinE := false, evVinE := true } })) ∧
    (s.pw.mstate = .hibernate ∨ s.pw.mstate = .hibernateM → ∀ h, exec (.vinEngLoss h) s = .next (match h with
      | .west => { s with pw := { s.pw with vinW := false } }
      | .east => { s with pw := { s.pw with vinE := false } }))

/-- What the checks of an engine site lead to (03 R83-R87; 12 R350): a corrected word of a site that is ON is counted, and
an uncorrectable one has the effect of its place: a word of a slice, of VSCALE, of chain memory or one that nothing holds is
recorded, a word of the footprint of a replica-block that runs fails its request, and an engine-wide record that is bad in
both copies has the site declared failed; three logic faults within 1,000 ticks, or a word that recurs after it was
rewritten, make firmware declare the site failed; the zero clear and the scrub after RET end by leaving the words found and
letting a half that waits for them be ON. ENGINE_RETIRE declares its site failed and ends; ENGINE_REPAIR takes up the shift
that runs in its half-row, or starts the pending one, and ends with it (07 R198-R202). A spare shift pauses its half-row
once the runs of its contexts hold and its lanes are empty, and migration control takes its service positions. When it
resumes, the failed site is retired and off, the spare is used, the pause is recorded, migration control leaves, held runs
and resets that waited go on, and the contexts that owned unreadable words are reset with cause 0x8 (07 R190, R199-R202). -/
def Obligations.SiteChecksAndRepair : Prop :=
  (∀ (s : State) (site : Nat),
     (∀ place addr, site < 40 → (s.site site).dstate = .on →
       exec (.patrolScrub site place addr .corrected) s = .next (s.countSramCorr site) ∧
       exec (.patrolScrub site place addr .uncorrectable) s = .next (s.badWord site place addr)) ∧
     (∀ place addr, (∃ su, place = .store su) ∨ place = .vscale ∨ place = .scratch ∨ (∃ c, place = .chain c) →
       s.badWord site place addr = s.noteBadWord site place addr) ∧
     (∀ rblk addr le t i n b u, s.leOf site = some le → t = s.noteBadWord site (.footprint rblk) addr →
       t.rblock? le rblk = some (i, n, b) → t.runOn i = some u → b.replica < u.reps →
       s.badWord site (.footprint rblk) addr = t.failRun u le 2 b.su addr 0 rblk) ∧
     (∀ addr, s.badWord site (.engineRecord true) addr = (s.noteBadWord site (.engineRecord true) addr).declareFailed site) ∧
     (State.threeFaults (s.site site).logic = true ∨ State.recurred (s.site site).badWords = true →
       exec (.siteFailure site) s = .next (s.declareFailed site)) ∧
     ((s.site site).clearing = true →
       exec (.engineClearEnd site) s =
         .next (State.settleOn (s.updSite site fun x => { x with clearing := false, badWords := [] }))) ∧
     ((s.site site).scrub = true → ∀ bad, exec (.wakeScrubEnd site bad) s =
       .next (State.settleOn ((bad.foldl (fun t w => t.badWord site w.1 w.2) s).updSite site fun x => { x with scrub := false })))) ∧
  (∀ (s : State) (k : ReqKey) (r : Request),
     (s.ready? k Op.engineRetire = some r →
       exec (.engineRetire k) s = .next ((s.declareFailed (r.fld 56 1)).okReq k 0 0)) ∧
     (s.ready? k Op.engineRepair = some r →
       (∀ x, (s.hrow (r.fld 56 1)).shift = some x → x.req = none → exec (.engineRepair k) s =
         .next ((s.holdReq k (some .spareShift)).updHrow (r.fld 56 1) fun h => { h with shift := some { x with req := some k } })) ∧
       ((s.hrow (r.fld 56 1)).shift = none → ∀ p, p < 4 → (s.site (State.siteAt (r.fld 56 1) p)).failed = true →
         (∀ j, j < p → (s.site (State.siteAt (r.fld 56 1) j)).failed = false) → (s.hrow (r.fld 56 1)).spareok = true →
         exec (.engineRepair k) s = .next ((s.startShift (r.fld 56 1) p (some k)).holdReq k (some .spareShift))) ∧
       ((s.hrow (r.fld 56 1)).shift = none → (∀ p, p < 4 → (s.site (State.siteAt (r.fld 56 1) p)).failed = false) →
         s.run? k = none → exec (.engineRepair k) s = .next (ended s k Status.ok 0 0)))) ∧
  (∀ (s : State) (h : Nat) (x : Shift), (s.hrow h).shift = some x →
     (x.paused = false → (∀ u ∈ s.runsOnRow h, s.turning u = false) → s.rowQuiet h = true → ∀ bad,
       exec (.spareShiftPause h bad) s =
         .next ((s.updHrow h fun r => { r with shift := some { x with paused := true, unreadable := bad } }).startMigration h)) ∧
     (x.paused = true → ∀ pause cols t,
       cols = ((List.range 5).filter fun p => decide (x.pos ≤ p)).foldl
         (fun t p => t.updSite (State.siteAt h p) fun y => { y with badWords := [] }) s →
       t = ((cols.updSite (State.siteAt h x.pos) State.retireSite).updHrow h fun r =>
           { r with
             failpos := x.pos, spareok := false, pauses := satInc 8 r.pauses, lastpause := pause % 65536, shift := none }) →
       exec (.spareShiftResume h pause) s = .next (State.nextFailed
         ((sortBy (fun a b => decide (a ≤ b)) (x.unreadable ++ s.badOwners h x.pos).eraseDups).foldl
           (fun t id => t.moduleReset id 0x8 (4 * h) 0 (State.siteAt h x.pos))
           (State.endMigration (match x.req with
             | some k => t.okReq k (BitVec.ofNat 64 (pause % 65536)) 0
             | none => t)).resumeRuns.carryResets) h)))

/-- SITE_BIND checks its context, record, model handle and parameter block in this order and, where the block is read clean,
binds the record, which then is its owner's with no sample; unbound, the record is released, its group and its buffers freed
(10 R296; 15 R409, R410). -/
def Obligations.SiteBindAndUnbind : Prop :=
  ∀ (s : State) (k : ReqKey) (r : Request) (source : SourceFind), s.ready? k Op.siteBind = some r →
    ∀ tag rec_, tag = State.payloadTag r →
    rec_ = r.fld 60 4 →
    (bitAt (r.fld 59 1) 0 = false → s.tagLive tag = true → s.recordFree rec_ tag = true →
      ∀ target d, s.bindTarget tag (r.fld 64 8) = .ok target → s.reachOk r (r.fld 72 8) 128 false = .ok () →
      s.transferUp (r.fld 72 8) = true →
      s.reachOk r (r.fld 72 8) (State.paramLen (s.readSpace r (r.fld 72 8) 128)) false = .ok () →
      d = s.readSpace r (r.fld 72 8) (State.paramLen (s.readSpace r (r.fld 72 8) 128)) →
      s.shiftOver (2 ^ r.fld 80 1) = false → s.accepts (r.fld 80 1) = true →
      ∀ u, s.bindMet r tag d (State.paramLen (s.readSpace r (r.fld 72 8) 128)) source = (u, .clean) →
      State.paramReserved d d.length = none → 1 ≤ field d 0 1 → field d 0 1 ≤ 4 →
      ∀ sized mfmt, u.paramTarget d target = (some sized, mfmt) →
      leastOf (u.paramInvalid tag d target (((u.stream? rec_).map (·.gen)).getD 0) sized mfmt) = none →
      ∀ t, t = (if (u.stream? rec_).any fun x => decide (x.state = 2) then u.releaseStream rec_ else u) →
      t.bindRefusal tag d (r.fld 80 1)
        (t.streamEngines (State.boundStream none tag r.queue d (target.getD 0) (r.fld 80 1) [])) = none →
      exec (.siteBind k source) s = .next ((t.bindStream rec_ tag r.queue (((u.queue? r.queue).map (·.homeb)).getD false) d
        (target.getD 0) (r.fld 80 1)).okReq k (BitVec.ofNat 64 rec_) 0)) ∧
    (bitAt (r.fld 59 1) 0 = true → s.tagLive tag = true → ∀ x, s.stream? rec_ = some x → x.state ≠ 0 → x.tag = tag →
      exec (.siteUnbind k) s = .next ((s.releaseStream rec_).okReq k (BitVec.ofNat 64 rec_) 0)) ∧
    (bitAt (r.fld 59 1) 0 = true → s.tagLive tag = true → s.stream? rec_ = none →
      exec (.siteUnbind k) s = .next (s.refuse k (Refuse.field 60 0)))

/-- SCALE_POLICY sets or clears the policy of the group that it names and ends (06 R171). A decision for a group that awaits
it moves the scales of its channels as its policy says, counts the moves dropped, and closes the block; the block of a group
that has stopped is closed with its scales as they are (R165, R172, R173). -/
def Obligations.ScalePolicyActs : Prop :=
  (∀ (s : State) (k : ReqKey) (r : Request) (areaOk : Bool) (o : GroupOwner), s.ready? k Op.scalePolicy = some r →
    s.policyGroup r = .ok o →
    (bitAt (r.fld 57 1) 0 = false → exec (.scalePolicy k areaOk) s = .next ((s.setPolicy o none areaOk).okReq k 0 0)) ∧
    (bitAt (r.fld 57 1) 0 = true → exec (.scalePolicy k areaOk) s = .next ((s.setPolicy o (some
      { n := r.fld 58 1, floor := BitVec.ofNat 16 (r.fld 60 2), ceil := BitVec.ofNat 16 (r.fld 62 2) }) areaOk).okReq k 0 0))) ∧
  (∀ (s : State) (le base : Nat) (areaOk : Bool) (g : Group) (p : Policy),
    (s.groups.find? fun g => decide (g.le = le) && decide (g.gbase = base) && g.awaiting) = some g → g.policy = some p →
    ∀ rs, (g.stopped = true → rs = g.chans.map fun c => (0, c, 0)) →
      (g.stopped = false → rs = mapIdxFrom (g.decide1 p) 0 g.chans) →
      exec (.scalePolicyDecision le base areaOk) s = .next ((s.updGroup g.owner fun _ =>
        { g with
          awaiting := false, chans := rs.map (·.2.1)
          dropped := g.dropped + (rs.map (·.2.2)).sum }).closeBlock g.owner (rs.map (·.1)) areaOk))

/-- The home engine converts the front sample of a bound record (06 R158, R170; 15 R414-R416): it leaves the buffer, the
group takes its new state, the converted vector is queued on the service position of lane 3, and the values go to the store
or wait at the model; a sample whose block the group cannot take stops the record, which drops and counts those it has still
buffered. The next raw sample of an APPEND is converted in the same way for its request. -/
def Obligations.SampleConversionActs : Prop :=
  ∀ (s : State) (g g' : Group) (vs : List Int) (areaOk : Bool), s.converts g = true →
    (∀ n x y rest t les, s.stream? n = some x → s.group? (.stream n) = some g → x.buffer = y :: rest → x.state = 1 →
      (x.kind = 1 ∨ x.kind = 2) → s.served x.tag = true → les = s.streamEngines x → s.vectorRouted g les = true →
      t = s.updStream n (fun z => { z with buffer := rest }) →
      (g.convert y.block y.raws x.width = .ok (vs, g') → ∀ u,
        u = ((t.putGroup g' g.block areaOk).bump (.controller g.le) none 1).sendVector x.target g les
          (State.vectorBytes (State.elemBytes g) vs) →
        (x.kind = 1 → exec (.sampleConversion (.stream n) areaOk) s = .next (u.streamAppend n x g vs y.stamp)) ∧
        (x.kind = 2 → exec (.sampleConversion (.stream n) areaOk) s = .next (u.streamBias n x vs))) ∧
      (∀ e, g.convert y.block y.raws x.width = .error (e, g') →
        exec (.sampleConversion (.stream n) areaOk) s = .next ((t.updGroup g.owner fun _ => g').stopStream n))) ∧
    (∀ n, (s.stopStream n).stream? n = (s.stream? n).map fun x =>
      { x with state := 2, full := satAdd 8 x.full x.buffer.length, buffer := [] }) ∧
    (∀ k r a number raws rest h les, s.req? k = some r → r.append = some a → r.samples = (number, raws) :: rest →
      r.op = Op.append → s.group? (.model a.store (r.fld 82 2)) = some g → s.store? a.store = some h →
      r.state = .dispatched → s.served r.tag = true → les = State.enginesOf (((s.model? a.store).map (·.mask)).getD 0) →
      s.vectorRouted g les = true → g.convert number raws h.width = .ok (vs, g') →
      exec (.sampleConversion (.request k) areaOk) s = .next (((((s.putGroup g' g.block areaOk).bump (.controller g.le)
        none 1).sendVector a.store g les (State.vectorBytes (State.elemBytes g) vs)).updReq k fun r =>
        { r with samples := rest }).appendNext k vs))

/-- A frame of more than 9,216 bytes on a lane that is up is discarded and counted (15 R406). One that is no second PRP copy
goes to the record that it matches: one of another generation is counted STALE, one with a bad header or range MALFORM, and
else its segment joins the sample under way; a frame that matches nothing is discarded and counted (15 R407, R411-R413).
Scale records enter the queue of the data record's group all together (15 R417). -/
def Obligations.InboundFrames : Prop :=
  ∀ (s : State) (l : Nat) (f : SiteFrame), s.laneUp l = true →
   (9216 < State.frameLength f → exec (.sampleSegment l f) s = .next ((s.atInstant f.now).discard l) ∧
     exec (.scaleRecords l f) s = .next ((s.atInstant f.now).discard l)) ∧
   (State.frameLength f ≤ 9216 → ∀ t, (s.atInstant f.now).dedup l f = (t, false) →
    (t.matching f = none → exec (.sampleSegment l f) s = .next (t.discard l) ∧ exec (.scaleRecords l f) s = .next (t.discard l)) ∧
    (∀ n x, t.matching f = some (n, x) → x.gen ≠ field f.payload 5 1 →
      exec (.sampleSegment l f) s = .next (t.updStream n fun y => { y with stale := satInc 8 y.stale }) ∧
      exec (.scaleRecords l f) s = .next (t.updStream n fun y => { y with stale := satInc 8 y.stale })) ∧
    (∀ n x, t.matching f = some (n, x) → x.gen = field f.payload 5 1 → State.badHeader f.payload 1 = false → x.kind ≤ 2 →
      field f.payload 12 4 < x.width → field f.payload 12 4 + field f.payload 26 2 ≤ x.width →
      32 + field f.payload 26 2 * x.rawWidth ≤ f.payload.length →
      exec (.sampleSegment l f) s = .next (t.updStream n fun y => y.segment (field f.payload 8 4) (field f.payload 6 2)
        (field f.payload 12 4) (field f.payload 26 2) (f.payload.drop 32) f.now (t.heldSamples n x))) ∧
    (∀ n x g g', t.matching f = some (n, x) → x.gen = field f.payload 5 1 → State.badHeader f.payload 2 = false → x.kind = 3 →
      field f.payload 12 4 = 0 → 32 + 16 * field f.payload 26 2 ≤ f.payload.length → t.group? (.stream (x.p 56 2)) = some g →
      g.stopped = false →
      (∀ r ∈ State.messageRecords f.payload (field f.payload 26 2), scaleRecordBad g.chans.length r = none) →
      g.queueRecords ((State.messageRecords f.payload (field f.payload 26 2)).map scaleRecord) = .ok g' →
      exec (.scaleRecords l f) s = .next (t.updGroup (.stream (x.p 56 2)) fun _ => g')))

/-- The lanes of the site port (15 R406-R408, R422): responders answer on the lane, other frames are counted as discarded, a
gPTP message makes its lane's port a slave or not, and the timebase follows the first lane that is; PRP supervision leaves
on both LANs under one sequence number; a lane that goes down is no slave any more; an edge of a discrete input is recorded
with its instant and signalled where it is enabled. A setpoint leaves on a lane that is up when it is the head of a queue,
its launch instant has come, the lane is idle and its frame ends before the queue's gate closes; it is gone once it has left
on each of its lanes (15 R418-R420). At the end of an interval the entry of the lane's cycle at that instant comes into
force (Table 15.15). -/
def Obligations.SiteLanesAndSetpoints : Prop :=
  (∀ (s : State) (l : Nat),
     (s.laneUp l = true → ∀ kind request, exec (.responderFrame l kind request) s =
       .next { s with st := { s.st with out := s.st.out ++ [⟨l, State.responderKind kind, s.st.time, none, request⟩] } }) ∧
     (s.laneUp l = true → exec (.frameDiscard l) s = .next (s.updSiteLane l fun n => { n with disc := satInc 16 n.disc })) ∧
     (s.laneUp l = true → ∀ slave time t, t = (s.updSiteLane l fun n => { n with slave := slave }).steer →
       exec (.ptpMessage l slave time) s =
         .next (if t.st.tstate = l + 1 then { t with st := { t.st with time := time / 8 * 8 } } else t)) ∧
     (s.prpLanes ≠ [] → exec .prpSupervision s = .next
       { s with st := { s.st with
           prpSeq := (s.st.prpSeq + 1) % 65536
           out := s.st.out ++ s.prpLanes.map fun l => ⟨l, 1, s.st.time, some s.st.prpSeq, slice s.rs.option (24 + 6 * l) 6⟩ } }) ∧
     (s.laneUp l = true → exec (.siteLaneDown l) s =
       .next (State.steer (s.updSiteLane l fun n => { n with state := 1, slave := false }))) ∧
     (l < 2 → (s.siteLane l).state = 1 → s.rs.clkSite = true →
       exec (.siteLaneUp l) s = .next (s.updSiteLane l fun n => { n with state := 2 })) ∧
     (∀ bit level now t, bit < 8 → bitAt s.st.diLevel.toNat bit = !level →
       t = { s with st := { s.st with
         time := now / 8 * 8
         diLevel := if level then s.st.diLevel ||| BitVec.ofNat 8 (2 ^ bit) else s.st.diLevel &&& ~~~(BitVec.ofNat 8 (2 ^ bit))
         diLast := bit, diEdge := true, diTs := BitVec.ofNat 44 (now / 8) } } →
       exec (.siteDiEdge bit level now) s = .next (if bitAt s.st.diEdgeEn.toNat bit then t.eventSignal else t))) ∧
  (∀ (s : State) (l now : Nat),
     (∀ y x done, s.laneUp l = true →
       [7, 6, 5, 4, 3, 2, 1, 0].findSome? (fun q => (s.atInstant now).maySend l q (State.instant now)) = some (y, x, done) →
       exec (.setpointSend l now) s = .next (((State.updSiteLane
         { s with st := { s.st with
           time := State.instant now
           out := s.st.out ++ [⟨l, 0, State.instant now, y.rct,
             State.setpointPayload x y (State.instant now) (decide (s.st.tstate = 3))⟩]
           setpoints := s.st.setpoints.filterMap fun z =>
             if z = y then
               (if (y.lanes.filter fun m => decide (m ≠ l)).isEmpty then none
                else some { z with lanes := y.lanes.filter fun m => decide (m ≠ l) })
             else some z } } l fun n => { n with busyTill := done })).updStream y.recNo fun z =>
           { z with lastOut := some (State.firstRaw x y) })) ∧
     (∀ cycle total k left, l < 2 → cycle = State.cycleOf (s.siteLane l).gcl → total = (cycle.map (·.2)).sum → total ≠ 0 →
       State.entryAt 0 cycle (State.instant now % total) = (k, left) →
       exec (.gateListEntry l now) s = .next ((s.atInstant now).updSiteLane l fun n =>
         { n with gclAt := k, gclNext := State.instant now + left })))

/-- The memory hubs (12 R330-R341). A patrol read of a package that is served notes a burst that two bits or its address tag
show bad, and a unit still bad from before, counts a corrected one, and counts the pass at the package's last unit; a first
channel that is found failed fails the runs with transfers there, costs the contexts of the package their work and retrains
it within the cap of the option block; a second fails the package, a hub's failure loses the engines of its half, and
zeroing ends with no capacity unclean. -/
def Obligations.HubsAndPackages : Prop :=
  ∀ (s : State) (k : Nat),
    (s.pkgServed k = true → s.scrubs = true → ∀ unit read, unit < State.packageUnits (s.pkg k) →
      ∀ t, t = s.scrubUnit k unit read →
      (unit + 1 ≠ State.packageUnits (s.pkg k) → exec (.hubPatrolScrub k unit read) s = .next t) ∧
      (unit + 1 = State.packageUnits (s.pkg k) →
        exec (.hubPatrolScrub k unit read) s = .next (t.updPkg k fun p => { p with passes := satInc 16 p.passes }))) ∧
    (∀ unit read,
      (∀ b, s.stillBad k unit read.place = some b → s.scrubUnit k unit read = s.noteBurst b 0) ∧
      (s.stillBad k unit read.place = none → ∀ t b, t = s.updPkg k (Package.rewriteUnit unit) →
        b = { pkg := k, unit := unit, place := read.place, double := read.double, atag := read.atag } →
        (burstBad b = true → s.scrubUnit k unit read = t.noteBurst b 0) ∧
        (burstBad b = false → read.corrected = true → s.scrubUnit k unit read = t.countBurstCorr k) ∧
        (burstBad b = false → read.corrected = false → s.scrubUnit k unit read = t))) ∧
    (∀ ch rate parity, k < 32 → ch < 4 → (s.pkg k).state = 0 → bitAt (s.pkg k).failch.toNat ch = false → rate < 3 →
      parity = true ∨ ch ∈ (s.pkg k).recurred ∨ 4 ≤ ((s.pkg k).bursts.filter fun b => decide (b.1 = ch)).length →
      ∀ t u, t = (s.runs.filter (State.writesInto k)).foldl (State.failTransfer k) s →
      u = (t.modelsIn k).foldl (State.loseModel 0 k) t →
      exec (.channelFailure k ch rate parity) s = .next (((s.ctxsIn k).foldl (fun t id => t.noteContext (t.tagOf id) 6 k 0 0)
        (u.releasePages k)).eventSignal.resumeRuns.updPkg k fun p =>
          { p with
            state := 1, failch := p.failch ||| BitVec.ofNat 4 (2 ^ ch), rate := max rate (field s.rs.option 17 1)
            unclean := true, zeroing := 0, bad := [], rewritten := [], bursts := [], recurred := [] })) ∧
    (∀ ch rate parity, k < 32 → ch < 4 → (s.pkg k).state = 1 → bitAt (s.pkg k).failch.toNat ch = false →
      State.channelFailed (s.pkg k) ch parity = true →
      exec (.channelFailure k ch rate parity) s = .next (State.packageLost
        (s.updPkg k fun p => { p with failch := p.failch ||| BitVec.ofNat 4 (2 ^ ch) }) k)) ∧
    exec (.packageFailure k false) s = .next (s.packageLost k) ∧
    exec (.packageFailure k true) s = .next ((s.packageLost (2 * (k / 2))).packageLost (2 * (k / 2) + 1)) ∧
    (k < 32 → (s.pkg k).state ≠ 2 → s.packageLost k = State.loseEngine (s.updPkg k fun p =>
      { p with state := 2, zeroing := 0, bad := [], rewritten := [], bursts := [], recurred := [] }) k) ∧
    (s.hb.hubW ≠ 3 → exec (.hubFailure .west) s = .next ((List.range 16).foldl (fun t i => t.loseEngine (0 + i))
      { s with hb := { s.hb with hubW := 3 } })) ∧
    (s.hb.hubE ≠ 3 → exec (.hubFailure .east) s = .next ((List.range 16).foldl (fun t i => t.loseEngine (16 + i))
      { s with hb := { s.hb with hubE := 3 } })) ∧
    (s.pkgServed k = true → exec (.lpddr6ZeroingEnd k) s =
      .next ((s.updPkg k fun p => { p with zeroing := 0, unclean := false }).rewriteUnits k State.isFree))

/-- Accesses of common SRAM by a port whose link is up, while it is not being cleared (12 R344-R348; 13 R367). The three
windows of module space show the same bytes. A write in the plain window stores; one in an alias window sets or clears bits
in a BITALIAS region and is dropped and counted elsewhere; an atomic in an ATOMIC region answers the old value and leaves
the new one, and answers an error elsewhere; a read answers the bytes. While common SRAM is cleared its accesses are held,
and at the end of the clear they proceed in the order in which they came, each under the mode that its region had when it
came (12 R347, R352); an access that does not fit its line is dropped or answered with an error, and counted (13 R367). -/
def Obligations.CommonSramAccesses : Prop :=
  ((∀ o, o < 8388608 → State.csWindow (0x01000000 + o) = some (.plain, o) ∧ State.csWindow (0x01800000 + o) = some (.setBits, o) ∧
     State.csWindow (0x02000000 + o) = some (.clearBits, o)) ∧
   ∀ (s u : State) (p : Port), s.linkUp p = true → s.csReach = true → u = s.wakeLink p → u.cs.clearing = false →
     (∀ addr off data, State.csFits addr data.length = true → State.csWindow addr = some (.plain, off) →
       exec (.csramPlainWrite p addr data) s = .next { u with
         cs := { u.cs with
           mem := Mem.store u.cs.mem off data
           bad := u.cs.bad.filter fun w => !(decide (off ≤ 8 * w) && decide (8 * w + 8 ≤ off + data.length)) } }) ∧
     (∀ (set : Bool) addr off data, State.csFits addr data.length = true →
       State.csWindow addr = some (if set then .setBits else .clearBits, off) →
       (u.csMode off ≠ .bitalias → ∀ find, exec (.csramAliasWrite p addr data find) s =
         .next { u with cs := { u.cs with aliasdrop := satInc 8 u.cs.aliasdrop } }) ∧
       (u.csMode off = .bitalias → u.csBad off data.length .clean = [] →
         exec (.csramAliasWrite p addr data .clean) s = .next { u with cs := { u.cs with
           mem := (List.range data.length).foldl (fun m i => Mem.put m (off + i)
             (if set then Mem.read m (off + i) ||| data.getD i 0 else Mem.read m (off + i) &&& ~~~(data.getD i 0)))
               u.cs.mem } })) ∧
     (∀ op addr off size value compare, size = 4 ∨ size = 8 → addr % size = 0 → State.csWindow addr = some (.plain, off) →
       (u.csMode off ≠ .atomic → ∀ find, exec (.csramAtomic p op addr size value compare find) s =
         .next (State.answer { u with cs := { u.cs with atomrej := satInc 8 u.cs.atomrej } } p .error)) ∧
       (u.csMode off = .atomic → u.csBad off size .clean = [] → ∀ old, old = leNat (Mem.bytes u.cs.mem off size) →
         exec (.csramAtomic p op addr size value compare .clean) s = .next ((u.csStore off (leBytes size (match op with
           | .fetchAdd => (old + value.toNat) % 2 ^ (8 * size)
           | .swap => value.toNat % 2 ^ (8 * size)
           | .compareSwap =>
             if old = compare.toNat % 2 ^ (8 * size) then value.toNat % 2 ^ (8 * size) else old))).answer p
               (.value (BitVec.ofNat 64 old))))) ∧
     (∀ addr w off len, State.csFits addr len = true → State.csWindow addr = some (w, off) → u.csBad off len .clean = [] →
       exec (.csramRead p addr len .clean) s = .next (u.answer p (.data (Mem.bytes u.cs.mem off len))))) ∧
  (∀ s : State,
     (∀ p addr data, s.linkUp p = true → s.csReach = true → (s.wakeLink p).cs.clearing = true →
       State.csFits addr data.length = true →
       exec (.csramPlainWrite p addr data) s = .next { s.wakeLink p with cs := { (s.wakeLink p).cs with
         held := (s.wakeLink p).cs.held ++
           [{ cmd := .csramPlainWrite p addr data, mode := (s.wakeLink p).csMode (State.csOffset addr) }] } }) ∧
     (s.cs.clearing = true → exec .csramClearEnd s = .next
       (s.cs.held.foldl (fun t h => t.csAtBank h.cmd h.mode) { s with cs := { s.cs with clearing := false, held := [] } })) ∧
     (∀ p addr data, s.linkUp p = true → State.csFits addr data.length = false →
       exec (.csramPlainWrite p addr data) s = .next (s.wakeLink p).dropAccess) ∧
     (∀ p addr len find, s.linkUp p = true → State.csFits addr len = false →
       exec (.csramRead p addr len find) s = .next ((s.wakeLink p).badAccess p)))

/-- Conditioned blocks go to the instance of the generator that waits for seed material, three to an instance, and else to
the queue while it has room for both words; only in state OK is anything conditioned, and only raw bits that pass both
health tests (16 R424, R425, R429, R432). A health test that fails in state OK flushes the queue and the instances, is
counted and signalled, and leaves the source in its new startup test (log entry 106); one that fails a startup test is
counted. A pass leads to OK, counted after a failure, but under LATCH a source that failed is FAILED until it is released
(R425-R428). Reads of the entropy windows and the release of a latched source, by a port whose access is answered: RN_DATA
gives the oldest word of the queue and takes it, RN_DRBG the output of one generate call of the window's instance, which is
reseeded after 65,536 calls; where there is none, both give 0 and set ERR of the window (16 R428, R433, R434). RELEASE acts
for the holder of Hasp 0, and for another port is dropped and recorded (13 R371). -/
def Obligations.EntropyService : Prop :=
  (∀ s : State,
     (∀ raw f, s.rn.state = .ok → s.rawFault raw = some f →
       exec (.conditionerBlock raw) s = exec (.healthTestFailure f) s) ∧
     (∀ raw r, s.rn.state = .ok → s.rawFault raw = none →
       r = { s.rn with runBit := (s.runScan raw).1, run := (s.runScan raw).2.1 } →
       (s.needsSeed = none → s.rn.queue.length + 2 ≤ 512 → ∀ b, b = State.condition raw →
         exec (.conditionerBlock raw) s = .next { s with rn := { r with
           queue := s.rn.queue ++ [BitVec.ofNat 64 (b.toNat % 2 ^ 64), BitVec.ofNat 64 (b.toNat / 2 ^ 64)] } }) ∧
       (∀ i, s.needsSeed = some i → s.rn.seedBlocks.length < 2 → exec (.conditionerBlock raw) s =
         .next { s with rn := { r with seedBlocks := s.rn.seedBlocks ++ [State.condition raw] } }) ∧
       (∀ i, s.needsSeed = some i → s.rn.seedBlocks.length = 2 → exec (.conditionerBlock raw) s =
         .next (State.instantiate { s with rn := r } i (s.rn.seedBlocks ++ [State.condition raw])))) ∧
     (s.rn.state = .ok → ∀ f : Bool, exec (.healthTestFailure f) s = .next (State.eventSignal { s with rn := { s.rn with
       queue := [], seedBlocks := [], fw := none, win0 := none, win1 := none, run := 0, state := .startup, fallen := true
       testOk := false
       rctFail := if f then s.rn.rctFail else satInc 16 s.rn.rctFail
       aptFail := if f then satInc 16 s.rn.aptFail else s.rn.aptFail } })) ∧
     (s.rn.state = .startup → ∀ f : Bool, exec (.healthTestFailure f) s =
       .next { s with rn := { s.rn with testOk := false, startFail := satInc 16 s.rn.startFail } }) ∧
     (s.rn.state = .failed → ∀ f : Bool, exec (.healthTestFailure f) s = .next { s with rn := { s.rn with
       state := .startup, fallen := true, testOk := false, startFail := satInc 16 s.rn.startFail } }) ∧
     (s.rn.state = .startup → s.rn.fallen = false → exec .startupTestPass s =
       .next { s with rn := { s.rn with state := .ok, testOk := false, fallen := false } }) ∧
     (s.rn.state = .startup → s.rn.fallen = true → s.rn.latch = true → exec .startupTestPass s =
       .next { s with rn := { s.rn with state := .failed, testOk := true } }) ∧
     (s.rn.state = .startup ∧ s.rn.fallen = true ∨ s.rn.state = .failed → s.rn.latch = false → exec .startupTestPass s =
       .next { s with rn := { s.rn with
         state := .ok, testOk := false, fallen := false, returns := satInc 16 s.rn.returns } }) ∧
     (s.rn.state = .failed → s.rn.latch = true → exec .startupTestPass s = .next { s with rn := { s.rn with testOk := true } })) ∧
  (∀ (s u : State) (p : Port), u = s.wakeLink p →
     (∀ w, w ≤ 1 → s.regReach p (0x30000 + 0x40 * w) = .open_ →
       (∀ x rest, u.rn.state = .ok → u.rn.queue = x :: rest → exec (.rnDataRead p w) s =
         .next (State.answer { u with rn := { u.rn with queue := rest } } p (.value x))) ∧
       (u.rn.state ≠ .ok ∨ u.rn.queue = [] → exec (.rnDataRead p w) s = .next ((u.setErr w).answer p (.value 0)))) ∧
     (∀ w, w ≤ 1 → s.regReach p (0x30010 + 0x40 * w) = .open_ →
       (∀ d out d', u.rn.state = .ok → u.window w = some d → d.calls < 65536 → d.generate 8 = (out, d') →
         exec (.rnDrbgRead p w) s = .next ((u.setWindow w d').answer p (.value (BitVec.ofNat 64 (leNat out))))) ∧
       (∀ d out d', u.rn.state = .ok → u.window w = some d → 65536 ≤ d.calls → 6 ≤ u.rn.queue.length →
         (d.reseed ((u.rn.queue.take 6).flatMap fun x => leBytes 8 x.toNat)).generate 8 = (out, d') →
         exec (.rnDrbgRead p w) s =
           .next ((State.setWindow { u with rn := { u.rn with queue := u.rn.queue.drop 6 } } w d').answer p
           (.value (BitVec.ofNat 64 (leNat out))))) ∧
       (u.rn.state ≠ .ok ∨ u.window w = none →
         exec (.rnDrbgRead p w) s = .next ((u.setErr w).answer p (.value 0)))) ∧
     (s.regReach p 0x30080 = .open_ →
       (u.holdsSetup p = true → u.rn.state = .failed → u.rn.testOk = true → exec (.release p) s =
         .next { u with rn := { u.rn with state := .ok, testOk := false, fallen := false, returns := satInc 16 u.rn.returns } }) ∧
       (u.holdsSetup p = true → ¬(u.rn.state = .failed ∧ u.rn.testOk = true) →
         exec (.release p) s = .next u) ∧
       (u.holdsSetup p = false → exec (.release p) s =
         .next { u with hp := { u.hp with rwldrop := true, rwlPort := some p, rwlOff := 0x30080 / 4 } })))

/-- A training of a host port whose link may train and which its option does not disable (13 R353, R354, R365): one without
encryption is up, at the narrower of both widths, the lower of both versions and the base that the host gave, and the queues
whose watch waits have it installed again; an encrypted one takes a nonce and its session keys with it, and stays KEYLESS
without a key; a failure is a link-down event, and the third in a row leaves the port FAILED. A host link that goes down (13
R358, R359, R365, R372; 09 R253; 19 R488): the port shows it and counts it, its Hasps are free, a challenge of that port
lapses, the signal writes that the host had not acknowledged go out by the other port, the queues that the port watched are
read again, and the event signal goes out; a flit whose tag fails, on an encrypted link, is counted as well. -/
def Obligations.HostLinks : Prop :=
  (∀ (s : State) (p : Port), s.mayTrain (s.port p).state = true → s.hostWidth p ≠ 3 →
     (s.hostEncrypted p = false → ∀ width version base n,
       exec (.hostLinkTraining p (.trained width version base n)) s =
         .next ((s.fe.queues.map (·.1)).foldl State.keepWatch (s.setPort p { s.port p with
           state := .up, width := max (s.hostWidth p) (min width 2), ver := min version 1, base := base / 2 ^ 26 * 2 ^ 26
           attempts := 0, sec := none, asked := 0, again := 0 }))) ∧
     (s.hostEncrypted p = true → s.hostKey p = none → ∀ t,
       exec (.hostLinkTraining p t) s = .next (s.setPort p { s.port p with state := .keyless })) ∧
     (s.hostEncrypted p = true → ∀ key n t, s.hostKey p = some key → s.drawFw 16 = some (n, t) → ∀ width version base far,
       exec (.hostLinkTraining p (.trained width version base far)) s = .next (t.hostUpWith p width version base
         (some (State.session key far (BitVec.ofNat 128 (beNat n)) false 1)))) ∧
     (s.hostEncrypted p = false → exec (.hostLinkTraining p .failed) s = .next (s.hostDown p { s.port p with
       attempts := (s.port p).attempts + 1, state := if 3 ≤ (s.port p).attempts + 1 then .failed else .training } 0))) ∧
  (∀ (s : State) (p : Port) (tagFail : Bool) (unacked : Nat) (t : State), s.linkUp p = true →
     (tagFail = true → (s.port p).sec ≠ none) →
     t = (s.setPort p { s.port p with
       tagfail := if tagFail then satInc 8 (s.port p).tagfail else (s.port p).tagfail
       state := .down, downs := satInc 8 (s.port p).downs, attempts := 0, asked := 0, again := 0 }).freeHasps p →
     (∀ u, (s.dw.chalPort ≠ some p → u = t) → (s.dw.chalPort = some p → u = t.lapseChallenge) →
       exec (.hostLinkDown p tagFail unacked) s = .next (State.eventSignal ((s.watchedBy p).foldl State.rewatch
         ((s.lastSignals p unacked).foldl (fun t v => t.sendSignal p v) u)))) ∧
     (∀ n, t.hp.hasps.getD n none ≠ some p))

/-- Flits asked for again are counted, and a flit that was asked for 8 times in a row retrains its link, which stays up with
what both ends settle, or goes down where that fails (13 R356-R358). An encrypted link takes new keys from new nonces, in
the next epoch (R365). -/
def Obligations.ReplayRetrainRekey : Prop :=
  ∀ s : State,
    (∀ p seq newest, s.linkUp p = true → (newest - seq).toNat + 1 ≤ 128 →
      exec (.flitReplayRequest (.host p) seq newest) s = .next (s.setPort p { s.port p with
        replay := satAdd 16 (s.port p).replay ((newest - seq).toNat + 1), asked := seq
        again := if (s.port p).asked = seq then (s.port p).again + 1 else 1 })) ∧
    (∀ l seq newest, s.peerUp l = true → (newest - seq).toNat + 1 ≤ 128 →
      exec (.flitReplayRequest (.peer l) seq newest) s = .next (s.updPeer l fun x =>
        { x with
          replay := satAdd 16 x.replay ((newest - seq).toNat + 1), asked := seq
          again := if x.asked = seq then x.again + 1 else 1 })) ∧
    (∀ p unacked, s.linkUp p = true → 8 ≤ (s.port p).again →
      ∀ t, t = s.setPort p { s.port p with retrain := satInc 8 (s.port p).retrain, again := 0 } →
      (∀ width version base far sec u, t.hostSession p far = some (sec, u) →
        exec (.linkRetrain (.host p) (.trained width version base far) unacked) s = .next (u.setPort p { u.port p with
          state := .up, width := max (u.hostWidth p) (min width 2), ver := min version 1
          attempts := 0, sec := sec, asked := 0, again := 0 })) ∧
      exec (.linkRetrain (.host p) .failed unacked) s = .next (t.hostLost p unacked)) ∧
    (∀ l unacked, s.peerUp l = true → 8 ≤ (s.peer l).again →
      (∀ width version base far sec u, s.peerSession l (s.peer l).peer far = some (sec, u) →
        exec (.linkRetrain (.peer l) (.trained width version base far) unacked) s =
          .next (u.updPeer l fun x => { x with again := 0, asked := 0, sec := sec })) ∧
      exec (.linkRetrain (.peer l) .failed unacked) s = .next (s.peerLost l)) ∧
    (∀ p sec key n t far, s.linkUp p = true → (s.port p).sec = some sec → s.hostKey p = some key → s.drawFw 16 = some (n, t) →
      exec (.linkRekey (.host p) far) s = .next (t.setPort p { t.port p with
        sec := some (State.session key far (BitVec.ofNat 128 (beNat n)) false (sec.epoch + 1)) })) ∧
    (∀ l sec key n t far, s.peerUp l = true → (s.peer l).sec = some sec → s.peerKey = some key → s.drawFw 16 = some (n, t) →
      exec (.linkRekey (.peer l) far) s = .next (t.updPeer l fun x => { x with
        sec := some (if s.pr.nodeid < (s.peer l).peer then
          State.session key (BitVec.ofNat 128 (beNat n)) far true (sec.epoch + 1)
        else State.session key far (BitVec.ofNat 128 (beNat n)) false (sec.epoch + 1)) }))

/-- The Hasps (13 R369-R373). A read of a free one acquires it and gives 0; a read of a held one gives HELD, its port and
whether that is the reader; the holder's write of 0 frees it; a port breaks one that the other port holds, which is shown
and signalled on both ports; every other write of a Hasp or break is ignored and counted. -/
def Obligations.HaspAccesses : Prop :=
  ∀ (s u : State) (p : Port) (n : Nat), u = s.wakeLink p → n < 64 →
    (s.regReach p (0x1100 + 8 * n) = .open_ →
      (u.hp.hasps.getD n none = none → exec (.hpHaspRead p n) s =
        .next (State.answer { u with hp := { u.hp with hasps := u.hp.hasps.set n (some p) } } p (.value 0))) ∧
      (∀ q, u.hp.hasps.getD n none = some q → exec (.hpHaspRead p n) s =
        .next (u.answer p (.value (pack [(0, 1, 1), (1, 1, State.portNo q), (2, 1, b2n (q = p))])))) ∧
      (u.hp.hasps.getD n none = some p → exec (.hpHaspWrite p n 0) s =
        .next { u with hp := { u.hp with hasps := u.hp.hasps.set n none } }) ∧
      (∀ v, u.hp.hasps.getD n none ≠ some p ∨ v ≠ 0 → exec (.hpHaspWrite p n v) s =
        .next { u with hp := { u.hp with hasperr := satInc 8 u.hp.hasperr } })) ∧
    (s.regReach p 0x1310 = .open_ → ∀ v : W64, bitAt v.toNat 6 = true → v.toNat % 64 = n →
      (∀ q, u.hp.hasps.getD n none = some q → q ≠ p → exec (.haspBreak p v) s = .next (State.eventBoth
        { u with hp := { u.hp with hasps := u.hp.hasps.set n none, broke := true, lastbrk := n } })) ∧
      (u.hp.hasps.getD n none = none ∨ u.hp.hasps.getD n none = some p → exec (.haspBreak p v) s =
        .next { u with hp := { u.hp with hasperr := satInc 8 u.hp.hasperr } }))

/-- Register accesses (13 R366-R371, R376; 20 R499). A write of a register that stands and answers has that register's
effect, and with an RWL field only for the holder of Hasp 0; a read gives the whole value and clears the register's RC
fields; a write of an offset where no register stands is dropped and a read of one answered with an error, and so is an
access of other than 64 aligned bits, and each is counted. During a core reset a read is answered RESETTING and a write is
dropped without count. -/
def Obligations.RegisterAccesses : Prop :=
  ∀ (s u : State) (p : Port) (off : Nat), u = s.wakeLink p → off % 8 = 0 →
    State.haspAt off = none → State.rnAt off = none → off ≠ 0x1310 →
    (∀ v : W64, s.regReach p off = .open_ → s.regThere p off = true → State.rwlReg off = false →
      exec (.registerWrite p off 8 v) s = .next (u.regWritten p off v.toNat)) ∧
    (∀ v : W64, s.regReach p off = .open_ → s.regThere p off = true → State.rwlReg off = true → u.holdsSetup p = true →
      exec (.registerWrite p off 8 v) s = .next (u.regWritten p off v.toNat)) ∧
    (∀ v : W64, s.regReach p off = .open_ → s.regThere p off = true → State.rwlReg off = true → u.holdsSetup p = false →
      exec (.registerWrite p off 8 v) s =
        .next { u with hp := { u.hp with rwldrop := true, rwlPort := some p, rwlOff := off / 4 } }) ∧
    (∀ v : W64, s.regReach p off = .open_ → s.regThere p off = false → exec (.registerWrite p off 8 v) s =
      .next { u with hp := { u.hp with badacc := satInc 8 u.hp.badacc } }) ∧
    (∀ v, s.regReach p off = .open_ → u.regValue (some p) off = some v →
      exec (.rcRead p off 8) s = .next ((u.regCleared (some p) off).answer p (.value v))) ∧
    (s.regReach p off = .open_ → u.regValue (some p) off = none → exec (.rcRead p off 8) s =
      .next (State.answer { u with hp := { u.hp with badacc := satInc 8 u.hp.badacc } } p .error)) ∧
    (s.regReach p off = .resetting → exec (.rcRead p off 8) s = .next (u.answer p .resetting) ∧
      (∀ v : W64, State.rwlReg off = false → exec (.registerWrite p off 8 v) s = .next u)) ∧
    (∀ at_ size, size ≠ 8 ∨ at_ % 8 ≠ 0 → s.regReach p at_ = .open_ →
      (∀ v : W64, exec (.registerWrite p at_ size v) s = .next { u with hp := { u.hp with badacc := satInc 8 u.hp.badacc } }) ∧
      exec (.rcRead p at_ size) s =
        .next (State.answer { u with hp := { u.hp with badacc := satInc 8 u.hp.badacc } } p .error))

/-- The loss of a clock (21 R514): with REFCLK_LINK every host and peer link that is up goes down, with REFCLK_SITE both
site lanes, and the timebase shows HOLDOVER; TCXO_AON is a management-plane fault of cause 1 once a start is past order 2,
and the hubs that run fail. A clock that returns starts nothing. The watchdog, a failed cross-check of the cores and a word
of the memories that SECDED cannot correct are management-plane faults of cause 1, 2 and 3, the first of which stands in
CX_GSTAT and drives nALERT (11 R324). -/
def Obligations.ClocksAndManagementFaults : Prop :=
  ∀ s : State,
    (s.rs.clkLink = true → exec .refclkLinkLoss s = .next ((List.range 8).foldl State.clockPeer
      (({ s with rs := { s.rs with clkLink := false } } : State).clockHost .a |>.clockHost .b))) ∧
    (s.rs.clkSite = true → ∀ t, t = (({ s with rs := { s.rs with clkSite := false } } : State).siteLaneDown 0).siteLaneDown 1 →
      exec .refclkSiteLoss s = .next { t with st := { t.st with tstate := 3 } }) ∧
    (s.rs.clkTcxo = true → ∀ t : State, t = { s with rs := { s.rs with clkTcxo := false } } →
      exec .tcxoAonLoss s = .next (if s.rs.phase ≤ 2 then t else ((t.managementFault 1).dropHub .west).dropHub .east)) ∧
    exec (.clockReturn .link) s = .next { s with rs := { s.rs with clkLink := true } } ∧
    exec (.clockReturn .site) s = .next { s with rs := { s.rs with clkSite := true } } ∧
    exec (.clockReturn .tcxo) s = .next { s with rs := { s.rs with clkTcxo := true } } ∧
    (s.rs.phase = 10 → s.cx.mpfault = false →
      exec .watchdogExpiry s = .next { s with
        cx := { s.cx with mpfault := true, mpcause := 1 }, rs := { s.rs with alert := true } } ∧
      (s.now % 16 = 0 → exec (.coreCrossCheck .coresDiffer) s = .next { s with
        cx := { s.cx with mpfault := true, mpcause := 2 }, rs := { s.rs with alert := true } }) ∧
      exec (.coreCrossCheck .memoryBad) s = .next { s with
        cx := { s.cx with mpfault := true, mpcause := 3 }, rs := { s.rs with alert := true } }) ∧
    (∀ cause, s.cx.mpfault = true → s.managementFault cause = s)

/-- The sideband (20 R505; 21 R517): a read of a register that it may read gives its value and clears its RC fields; a write
reaches its own copy of PW_ENGSEL and nothing else; every other access is refused, and one whose check fails is answered so.
-/
def Obligations.SidebandAccesses : Prop :=
  ∀ (s : State) (off : Nat) (v : W64),
    (State.sidebandReads.contains off = true → s.regValue none off = some v →
      exec (.sidebandRead off true) s = .next { s.regCleared none off with sideband := .status 0 v }) ∧
    (State.sidebandReads.contains off = false → exec (.sidebandRead off true) s = .next { s with sideband := .status 1 0 }) ∧
    exec (.sidebandRead off false) s = .next { s with sideband := .status 2 0 } ∧
    exec (.sidebandWrite 0x31020 v true) s =
      .next { s with pw := { s.pw with selS := v.toNat % 64 }, sideband := .status 0 0 } ∧
    (off ≠ 0x31020 → exec (.sidebandWrite off v true) s = .next { s with sideband := .status 1 0 }) ∧
    exec (.sidebandWrite off v false) s = .next { s with sideband := .status 2 0 }

/-- A peer link that is enabled and may train (14 R379, R380): trained without encryption it is up with the node that it
met, and the end nearer to node 0 enumerates beyond it; encrypted, its keys come of both ends' nonces, the lower node ID
first; without its key it is KEYLESS; a third failure in a row leaves it FAILED. One that goes down makes the routes through
it UNREACH and aborts the jobs that use it (R385, R401). -/
def Obligations.PeerLinksTrainAndFall : Prop :=
  ∀ (s : State) (l peer : Nat),
    (s.peerEnabled l = true → s.mayTrain (s.peer l).state = true →
      (s.peerEncrypted l = false → ∀ width version base far,
        exec (.peerLinkTraining l (.trained width version base far) peer) s = .next ((s.updPeer l fun x =>
          { x with state := .up, peer := peer % 64, attempts := 0, sec := none, asked := 0, again := 0 }).enumBeyond l)) ∧
      (s.peerEncrypted l = true → ∀ key n t width version base far, s.peerKey = some key → s.drawFw 16 = some (n, t) →
        exec (.peerLinkTraining l (.trained width version base far) peer) s = .next ((t.updPeer l fun x =>
          { x with
            state := .up, peer := peer % 64, attempts := 0
            sec := some (if s.pr.nodeid < peer then State.session key (BitVec.ofNat 128 (beNat n)) far true 1
              else State.session key far (BitVec.ofNat 128 (beNat n)) false 1)
            asked := 0, again := 0 }).enumBeyond l)) ∧
      (s.peerEncrypted l = true → s.peerKey = none → ∀ t,
        exec (.peerLinkTraining l t peer) s = .next (s.updPeer l fun x => { x with state := .keyless })) ∧
      (s.peerEncrypted l = false → exec (.peerLinkTraining l .failed peer) s = .next (s.updPeer l fun x =>
        { x with attempts := x.attempts + 1, state := if 3 ≤ x.attempts + 1 then .failed else .training }))) ∧
    (s.peerUp l = true → ∀ f : Bool, (f = true → (s.peer l).sec ≠ none) → s.jobsBy l = [] → s.pr.jobs = [] →
      exec (.peerLinkDown l f) s = .next
        { s with pr := { s.pr with
          links := updAt s.pr.links l fun x => { x with state := .down, attempts := 0, asked := 0, again := 0 }
          routes := mapIdxFrom (fun n (r : Route) => if (s.nodesBy l).contains n then { r with unreach := true } else r) 0
            s.pr.routes } })

/-- Enumeration (14 R381-R385; Table 14.1). The first ENUM makes its link the parent and goes out on every other link that
is up and not REDUNDANT; one on another link marks it REDUNDANT. A reply marks its link a child and is kept, also where a
child has enumerated its subtree again; a link whose reply has not come in 10 ticks is UNUSED. Once none is awaited the
manager admits, or the worker answers its parent. ROUTE makes a worker READY with a route for every node that it names; one
for a worker beyond it is passed on by the route to that worker. -/
def Obligations.EnumerationProceeds : Prop :=
  ∀ (s : State) (l : Nat),
    (∀ depth t, s.peerUp l = true → s.pr.role = 2 → s.pr.parent = 15 ∨ s.pr.parent = l →
      t = ({ s.markLink l 1 with pr := { (s.markLink l 1).pr with
        parent := l, depth := depth + 1, state := 1, awaiting := [], replies := [] } } : State) →
      exec (.enum l depth) s = .next ((((List.range 8).filter fun i =>
        t.peerUp i && decide (i ≠ l) && (t.peer i).kind != 3).foldl (State.sendEnum (depth + 1)) t).finishEnum)) ∧
    (∀ depth, s.peerUp l = true → s.pr.role ≠ 0 → ¬(s.pr.role = 2 ∧ (s.pr.parent = 15 ∨ s.pr.parent = l)) →
      ((∃ x ∈ s.pr.awaiting, x.1 = l) → exec (.enum l depth) s = .next (s.markLink l 3).finishEnum) ∧
      ((¬∃ x ∈ s.pr.awaiting, x.1 = l) → exec (.enum l depth) s = .next (s.markLink l 3))) ∧
    (∀ nodes, (∃ x ∈ s.pr.awaiting, x.1 = l) ∨ (s.peer l).kind = 2 → s.peerUp l = true →
      exec (.enumReply l nodes) s = .next (State.finishEnum { s.markLink l 2 with
        pr := { (s.markLink l 2).pr with replies := Tbl.put (s.markLink l 2).pr.replies l nodes } })) ∧
    ((∃ x ∈ s.pr.awaiting, x.1 = l ∧ x.2 + 10 ≤ s.now) →
      exec (.enumReplyTimeout l) s = .next (State.finishEnum { s.markLink l 0 with
        pr := { (s.markLink l 0).pr with replies := Tbl.erase (s.markLink l 0).pr.replies l } })) ∧
    (∀ items, s.pr.role = 2 → s.pr.parent = l → s.peerUp l = true →
      exec (.route l s.pr.nodeid items) s = .next { s with pr := { s.pr with
        routes := State.routesOf s.pr.routes s.pr.nodeid ((items.map fun x => (x.node, x.child.getD l)) ++ [(0, l)])
        state := 2 } }) ∧
    (∀ items dst r, s.pr.role = 2 → s.pr.parent = l → s.peerUp l = true → dst ≠ s.pr.nodeid → s.pr.routes[dst]? = some r →
      r.valid = true → r.here = false → r.unreach = false →
      exec (.route l dst items) s = .next { s with pr := { s.pr with out := s.pr.out ++
        [{ cls := 0x01, link := r.link, src := 0, node := dst, job := 0, gen := 0
           words := 2 :: items.flatMap fun x => [x.node, (x.child.map (· + 1)).getD 0], bytes := [] }] } })

/-- A message of a job that this module does not take part in, or of a generation of the job that is not the current one, is
dropped and counted; one for another node is passed on by its route, whether or not this module has a part of the job (14
R384, R387). -/
def Obligations.StaleJobMessagesAreDropped : Prop :=
  ∀ (s t : State) (id gen : Nat), t = { s with pr := { s.pr with stale := satInc 16 s.pr.stale } } →
    (s.job? id = none ∨ gen ≠ s.jobGen id →
      (∀ l turn, exec (.credit l id gen turn) s = .next t) ∧ (∀ l words, exec (.cuff l id gen words) s = .next t) ∧
      (∀ l msg, exec (.boundary l id gen msg) s = .next t) ∧ exec (.unload s.pr.nodeid id gen) s = .next t ∧
      (s.pr.nodeid = 0 →
        (∀ node turn values moved, exec (.partialEnergy node id gen turn values moved) s = .next t) ∧
        (∀ node item bytes, exec (.result node id gen item bytes) s = .next t) ∧
        (∀ node status loc, exec (.fault node id gen status loc) s = .next t) ∧
        (∀ node, exec (.abortDone node id gen) s = .next t) ∧ (∀ node, exec (.unloaded node id gen) s = .next t) ∧
        (∀ node status w0 w1 shape, exec (.loaded node id gen status w0 w1 shape) s = .next t))) ∧
    (s.pr.nodeid ≠ 0 → (∃ j, s.job? id = some j) → gen ≠ s.jobGen id →
      (∀ node item bytes, exec (.result node id gen item bytes) s = .next t) ∧
      (∀ node, exec (.abortDone node id gen) s = .next t)) ∧
    (∀ r, s.pr.nodeid ≠ 0 → s.job? id = none ∨ gen = s.jobGen id → s.pr.routes[0]? = some r → r.valid = true →
      r.here = false → r.unreach = false →
      ∀ u : Nat → List Nat → Bytes → State, (∀ cls words bytes, u cls words bytes = { s with pr := { s.pr with
        out := s.pr.out ++ [{ cls := cls, link := r.link, src := (words.head?).getD 0, node := 0, job := id, gen := gen
                              words := words, bytes := bytes }] } }) →
      (∀ node item bytes, exec (.result node id gen item bytes) s = .next (u 0x17 [node, item] bytes)) ∧
      (∀ node status loc, exec (.fault node id gen status loc) s = .next (u 0x18 [node, status, loc.toNat] [])) ∧
      (∀ node, exec (.abortDone node id gen) s = .next (u 0x21 [node] [])) ∧
      (∀ node, exec (.unloaded node id gen) s = .next (u 0x22 [node] [])))

/-- A part of a job arrives at its node: it is loaded in a job context and LOADED answers with the status, both words and
the part's shape (14 R390, R391). LOADED of a part that a load waits for ends that load with the worker's words where it
failed, and lets the part join its job; one that none waits for has no effect. The table of the parts has every module on
the way reserve its Cuff regions, and the last answer ends the last load (R396). -/
def Obligations.PartsAreLoaded : Prop :=
  (∀ (s t : State) (id gen ctx : Nat) (d : Bytes) (table : List PartShape) (w : State.LoadFor), s.pr.role = 2 → id ≠ 0 →
    gen ≠ 0 → d ≠ [] → s.job? id = none → s.loadWaits (Img.mask d) = false →
    t = { s with pr := { s.pr with jobGens := Tbl.put s.pr.jobGens id gen } } → ctx = t.highestFree.getD 0 →
    w = { len := d.length, jobField := id + 65536 * gen, charge := t.tagOf ctx, grant := State.fullGrant s.pr.peermask.toNat
          owner := t.tagOf ctx, fabric := t.tagOf ctx, job := id, nodeZero := false, partOk := Img.node d == s.pr.nodeid
          queue := 0, homeb := false, common := none, short := t.contextShort } →
    (∀ u x, t.loadImage d w = (u, .error x) →
      exec (.image s.pr.nodeid id gen d table) s = .next (u.sendLoaded id gen x.status x.w0 x.w1 none)) ∧
    (∀ u i n shape, t.loadImage d w = (u, .ok i) → u.net? i = some n → shape = State.partShape s.pr.nodeid n →
      exec (.image s.pr.nodeid id gen d table) s = .next (((u.takeJobContext ctx id w.grant).putJob id
        { State.withPart (State.newJob 0 (Img.modules d)) shape none with jctx := ctx, model := some i }).sendLoaded id gen
          Status.ok 0 (BitVec.ofNat 64 d.length) (some shape)))) ∧
  (∀ (s : State) (id gen node : Nat) (j : Job) (w0 w1 : W64) (shape : Option PartShape), s.job? id = some j →
    gen = s.jobGen id → s.pr.nodeid = 0 → j.state ≠ .aborting →
    (j.reserving = none →
      (s.loadOf id node = none → ∀ status, exec (.loaded node id gen status w0 w1 shape) s = .next s) ∧
      (∀ r status, s.loadOf id node = some r → status ≠ Status.ok →
        exec (.loaded node id gen status w0 w1 shape) s = .next (((s.updJob id fun j =>
          { j with sent := j.sent.filter fun x => decide (x.1 ≠ node) }).endReq r.key status Stop.none w0 w1
            0xFFFF).dropEmptyJob id)) ∧
      (∀ r p c, s.loadOf id node = some r → shape = some p → c = (j.sent.find? fun x => decide (x.1 = node)).map (·.2) →
        (c.bind fun c => leastOf (State.differAt j.common c)) = none →
        exec (.loaded node id gen Status.ok w0 w1 shape) s =
          .next ((s.putJob id (State.withPart j { p with node := node } c)).partLoaded r.key id node 0 w1))) ∧
    (∀ v r, j.reserving = some v → s.loadOf id v.node = some r → node ∈ v.left →
      (∀ status, status ≠ Status.ok → exec (.loaded node id gen status w0 w1 shape) s =
        .next (((s.undoPart id v.node).endReq r.key status Stop.none w0 w1 0xFFFF).dropEmptyJob id)) ∧
      (∀ left, left = (v.left.filter fun n => decide (n ≠ node)) →
        (left ≠ [] → exec (.loaded node id gen Status.ok w0 w1 shape) s =
          .next (s.updJob id fun j => { j with reserving := some { v with left := left } })) ∧
        (left = [] → exec (.loaded node id gen Status.ok w0 w1 shape) s =
          .next ((s.updJob id fun j => { j with reserving := none, state := .loaded }).okReq r.key v.word0 v.word1))))) ∧
  (∀ (s : State) (id gen : Nat) (table : List PartShape), s.pr.role = 2 → id ≠ 0 → gen ≠ 0 → table ≠ [] →
    s.job? id = none ∨ gen = s.jobGen id →
    (∀ x, s.cuffShort id table = some x →
      exec (.image s.pr.nodeid id gen [] table) s = .next (s.sendLoaded id gen x.status x.w0 x.w1 none)) ∧
    (s.cuffShort id table = none → exec (.image s.pr.nodeid id gen [] table) s = .next (State.sendLoaded
      (State.putJob { s with pr := { s.pr with jobGens := Tbl.put s.pr.jobGens id gen } } id
        { (s.job? id).getD (State.newJob 0 table.length) with
          parts := table, cuff := s.cuffNeed table, state := .loaded }) id gen Status.ok 0 0 none)))

/-- The run of a job (14 R393, R394, R396-R399): credit is held and goes on; a module whose units have passed order 1 sends
the Cuff words of the turn once it holds credit on every link that they use; words that arrive are held where this part
lists them and copied on to the parts that list them, and a message with a word that is none of Table 14.3 has no effect;
node 0 keeps each part's partial and goes on when every part has sent one, and takes a part's results to their place. RUN
begins the part's run on a worker and sends the partials of its start boundary to node 0; BOUNDARY is copied on toward the
parts beyond this module and begins the part's next turn, holds it where a spare shift or an engine half does, or ends the
run, as the word says (14 R393; 04 R95, Table 4.2 order 7). -/
def Obligations.JobRunProceeds : Prop :=
  (∀ (s : State) (id gen : Nat) (j : Job) (i : Nat) (u : Run), s.job? id = some j → gen = s.jobGen id → j.model = some i →
     s.runOn i = some u →
     (∀ l turn, exec (.credit l id gen turn) s = .next (State.grantCredit (s.updJob id fun x =>
       { x with credits := if x.credits.contains (l, turn) then x.credits else x.credits ++ [(l, turn)] }) id turn)) ∧
     (∀ n, s.net? i = some n → s.turning u = true → u.stopped = 0 → n.rblocks.all (n.done u) = true →
       j.sentTurn = u.turn → s.sendLinks j.parts ≠ [] → (∀ l ∈ s.sendLinks j.parts, (l, u.turn) ∈ j.credits) →
       exec (.cuffSend id) s = .next (((s.sendLinks j.parts).foldl (fun t l => t.sendCuff id s.pr.nodeid l
           (State.cuffFor (s.outward j.parts l) (s.cuffWordsOf u n j.parts))) s).updJob id fun x =>
         { x with
           sentTurn := u.turn + 1, credits := x.credits.filter fun c => decide (u.turn ≤ c.2)
           granted := x.granted.filter fun c => decide (u.turn ≤ c.2) })) ∧
     (∀ l words, (words.all State.cuffOk = false → exec (.cuff l id gen words) s = .next s) ∧
       (words.all State.cuffOk = true → ∀ held t, held = State.cuffFor (s.wanted j.parts) words →
         (held = [] → t = s) → (held ≠ [] →
           t = { s with pr := { s.pr with cuffs := State.joinCuff l id (State.cuffTurn u) held s.pr.cuffs } }) →
         exec (.cuff l id gen words) s = .next (((List.range 8).filter fun o => decide (o ≠ l)).foldl (fun t o =>
           t.sendCuff id ((words.head?.map State.cuffNode).getD 0) o
             (State.cuffFor ((s.outward j.parts o).filter fun x => s.beyondLink l x.1) words)) t))) ∧
     (s.pr.nodeid = 0 → u.landing = none → u.stopped = 0 → ∀ node values moved, (∀ p ∈ u.partials, p.1 ≠ node) →
       exec (.partialEnergy node id gen u.turn values moved) s = .next (State.ladderReady (s.updRun u.key fun v =>
         { v with partials := v.partials ++ [(node, values, moved)] }) u.key)) ∧
     (s.pr.nodeid = 0 → ∀ m n r, s.model? u.model = some m → s.net? u.model = some n → s.req? u.key = some r →
       ∀ node bytes,
       exec (.result node id gen 0x1FFFF bytes) s = .next (State.closeRun (s.updRun u.key fun v =>
         { v with partials := v.partials ++ [(node, [], false)] }) u.key) ∧
       (∀ item region off, item ≠ 0x1FFFF → item ≠ 0x10003 → s.resultPlace m n u node item = some (region, off) →
         exec (.result node id gen item bytes) s = .next (s.putOut r region off bytes)))) ∧
  (∀ (s : State) (id gen i : Nat) (j : Job) (m : Model) (n : Net), s.job? id = some j → gen = s.jobGen id → j.model = some i →
     s.model? i = some m → s.net? i = some n →
     (∀ op block seed model ladder sched init hems w u sts t tw,
       s.pr.nodeid ≠ 0 → j.state = .loaded → m.unloading = none → s.runOn i = none → s.enginesReady m.mask = true →
       w = State.partSpec op block ladder sched init → u = State.newRun (State.partKey id) i op w seed model →
       sts = State.startStates n n.imageBytes w.reps w.init → s.damageOf m = none →
       ∀ n1 n2 v, n1 = s.startNet m n u model sts hems w.cont →
       n2 = (if w.init.isSome then { n1 with valid := mapIdxFrom (fun r v => if r < w.reps then true else v) 0 n1.valid }
         else n1) →
       v = State.openCuffs (State.startOn (State.clearLanes
         { s with runs := s.runs ++ [{ u with lastState := sts, bestState := sts }] } i) m.mask) id →
       v.startPart u n2 m.mask = .ok (t, tw) →
       exec (.run s.pr.nodeid id gen op block seed model ladder sched init hems) s =
         .next ((t.updRun u.key fun x => { x with barrier := true }).sendPartial id 0 false tw)) ∧
     (∀ l msg u, s.run? (State.partKey id) = some u → u.model = i → ∀ b, b = s.sendForked 0x16 id gen (some l)
         (State.boundaryWords msg.turn msg.stop msg.rungOf msg.betas msg.newBest) →
       (msg.stop = true → msg.rungOf = [] → exec (.boundary l id gen msg) s = .next (b.endPart id u u.sums)) ∧
       (u.barrier = true → u.pause = false → msg.rungOf ≠ [] → ∀ v, v = { u with
           turn := msg.turn, rungOf := msg.rungOf, lastRung := u.rungOf, betas := msg.betas, sums := n.sums
           frozen := State.frozenOf n u.reps, due := some []
           lastState := (List.range u.reps).map n.stateOf
           bestState := (List.range u.reps).map fun r =>
             if msg.newBest.getD r false then n.stateOf r else u.bestState.getD r [] } →
         ∀ t, t = (b.updRun u.key fun _ => v).sendBest id v n msg.newBest →
         (msg.stop = true → exec (.boundary l id gen msg) s = .next (t.endPart id v n.sums)) ∧
         (msg.stop = false → t.boundaryHold v msg.turn false = none →
           exec (.boundary l id gen msg) s = .next (t.goOn u.key)) ∧
         (∀ h, msg.stop = false → t.boundaryHold v msg.turn false = some h →
           exec (.boundary l id gen msg) s = .next (t.updRun u.key fun x => { x with pause := true })))))

/-- A FAULT of a part fails the run's request at node 0 with the part's status and locator, names the context, and stops the
other parts (14 R393; 11 R311). ABORT floods on and aborts the job here; ABORT_DONE is kept, and the job ends once every
part has answered (R401, R402). UNLOAD unloads the part, and UNLOADED of every part lets the unload at node 0 go on (R400).
-/
def Obligations.JobsEnd : Prop :=
  ∀ (s : State) (id gen : Nat) (j : Job), s.job? id = some j → gen = s.jobGen id →
    (∀ i u r node status loc, s.pr.nodeid = 0 → j.model = some i → s.runOn i = some u → s.req? u.key = some r →
      exec (.fault node id gen status loc) s = .next (State.resumeRuns (State.endReq
        ((((s.stopParts u).invalidateKept u.model).noteContext r.tag 6 0 0 0).updJob id fun x => { x with lastNode := node })
        u.key status Stop.none loc 0 0xFFFF))) ∧
    (∀ l origin, exec (.abort l origin id gen) s = .next (s.abortJob id origin (some l))) ∧
    (s.pr.nodeid = 0 → j.state = .aborting → ∀ node, exec (.abortDone node id gen) s = .next ((s.updJob id fun x =>
      { x with doneFrom := if x.doneFrom.contains node then x.doneFrom else x.doneFrom ++ [node] }).jobDone id)) ∧
    (s.pr.nodeid ≠ 0 → j.state ≠ .aborting →
      (∀ i, j.model = some i → exec (.unload s.pr.nodeid id gen) s = .next (s.beginUnload i [] false)) ∧
      (j.model = none →
        exec (.unload s.pr.nodeid id gen) s = .next ((s.endJob id).sendPeer 0x22 0 id gen [s.pr.nodeid] []))) ∧
    (s.pr.nodeid = 0 → ∀ i node, j.model = some i → exec (.unloaded node id gen) s = .next ((s.updJob id fun x =>
      { x with unloadFrom := x.unloadFrom.filter fun n => decide (n ≠ node) }).finishUnload i))

/-- nRST and the power-on monitors (17 R443-R448). nRST low for 200 ns asserts reach C, from HIBERNATE reach S and from
HIBERNATE-M a wake; held for the escalation time it asserts reach S; its release sets PULSE, and the cause of a reset or
wake that it was. A rail that fails, where it may not be removed, asserts reach P, is named in MONRAIL, and ends the reset
when it is good again. What the reaches keep (17 R447, Table 17.11). Reach C keeps the option store, the key store, the
tick, the NOR image, the Hasps and the state of the links, and gives the watched lines back (13 R376); reach S the option
store, the key store, the reset causes, the tick and the NOR image; after either no model, run, request or queue is left,
and firmware is to be loaded again. -/
def Obligations.ResetSources : Prop :=
  (∀ s : State,
     (s.rs.nrstLow = false → s.pw.mstate ≠ .hibernate → s.pw.mstate ≠ .hibernateM →
       exec .nrstAssert s = .next { s.clearC with rs := { s.clearC.rs with
         nrstLow := true, escalated := false, wakeFrom := s.rs.wakeFrom, reach := max s.clearC.rs.reach 1 } }) ∧
     (s.rs.nrstLow = false → ∀ keep, s.pw.mstate = (if keep then .hibernateM else .hibernate) →
       exec .nrstAssert s = .next { s.clearS with rs := { s.clearS.rs with
         nrstLow := true, escalated := false, wakeFrom := some keep, reach := max s.clearS.rs.reach 2 } }) ∧
     (s.rs.nrstLow = true → s.rs.escalated = false → exec .nrstEscalation s = .next { s.clearS with
       mg := { s.clearS.mg with nrsts := true }
       rs := { s.clearS.rs with
         reach := max s.clearS.rs.reach 2, escalated := true
         wakeFrom := if s.rs.wakeFrom = some true then none else s.rs.wakeFrom } }) ∧
     (s.rs.nrstLow = true → ∀ us, exec (.nrstRelease us) s = .next { s with
       mg := { s.mg with
         pulse := BitVec.ofNat 24 (min us 0xFFFFFF)
         nrstc := s.mg.nrstc || (!s.rs.escalated && s.rs.wakeFrom.isNone)
         wake := s.mg.wake || s.rs.wakeFrom == some false, wakem := s.mg.wakem || s.rs.wakeFrom == some true }
       rs := { s.rs with nrstLow := false, escalated := false } }) ∧
     (∀ r, State.removable s.pw.mstate r = false → ∃ t, exec (.railFail r) s = .next t ∧ t.mg.mon = true ∧
       t.mg.monrail = (if s.rs.rails = [] then 0 else s.mg.monrail) ||| State.railBit r ∧ t.rs.reach = 3 ∧ r ∈ t.rs.rails ∧
       t.mg.tick = 0 ∧ t.rs.copyA = s.rs.copyA ∧ t.rs.copyB = s.rs.copyB ∧ t.rs.keys = s.rs.keys ∧ t.mg.nor = s.mg.nor ∧
       t.models = [] ∧ t.runs = []) ∧
     (s.rs.rails ≠ [] → ∀ dbg strap, exec (.pRelease dbg strap) s =
       .next { s with dw := { s.dw with dbgOpen := dbg }, rs := { s.rs with rails := [], strap := strap } })) ∧
  (∀ (s t : State), t = s.clearC ∨ t = s.clearS →
     t.rs.copyA = s.rs.copyA ∧ t.rs.copyB = s.rs.copyB ∧ t.rs.keys = s.rs.keys ∧ t.mg.tick = s.mg.tick ∧ t.mg.nor = s.mg.nor ∧
     t.mg.por = s.mg.por ∧ t.rs.retired = s.rs.retired ∧ t.models = [] ∧ t.runs = [] ∧ t.groups = [] ∧ t.fe.requests = [] ∧
     t.fe.queues = [] ∧ t.mg.running = none ∧ t.host = s.host ∧
     (t = s.clearC → t.hp.hasps = s.hp.hasps ∧ t.hp.portA = s.hp.portA ∧ t.hp.portB = s.hp.portB ∧ t.cs = s.cs ∧
       t.hb.hubW = s.hb.hubW ∧ t.rs.phase = 1 ∧ t.rs.ready = false ∧ t.hp.evicts = s.hp.evicts ++ s.evictions))

/-- START_SEQUENCE while no source of reset is asserted (17 R448, R452-R460; 21 R514): after P it holds at order 2 without
TCXO_AON; else order 3 selects an option copy, sets the Ward and runs the erase that is due; with neither copy valid a start
of reach S or P goes into recovery mode; the counter rule may do so too; and orders 4 to 9 end in READY or a halt. Orders 4
to 9 of a start that nothing halts end in READY with firmware running and nALERT high; each failure halts with its own
cause: 3 for a read of NOR that fails, 2 for no image or one that does not verify, 4 for one too long, 5 for the self-test
(17 R454, R455, R457). -/
def Obligations.StartRunsItsOrders : Prop :=
  (∀ (s : State) (seen : StartSeen), s.mayStart = true →
     (s.rs.reach = 3 → s.rs.clkTcxo = false →
       exec (.startSequence seen) s = .next { s with rs := { s.rs with phase := 2 } }) ∧
     (s.rs.reach ≠ 3 ∨ s.rs.clkTcxo = true → ∀ a t u : State, a = { s with rs := { s.rs with phase := 3 } } →
       t = (if 2 ≤ s.rs.reach then a.selectOption else a).wardFromOption (s.rs.reach == 3) →
       t.eraseDue (s.rs.reach == 3) = false → u = { t with rs := { t.rs with reach := min 2 t.rs.reach } } →
       (2 ≤ s.rs.reach → t.rs.optdef = true → exec (.startSequence seen) s = .next (u.enterRecovery 1)) ∧
       (¬(2 ≤ s.rs.reach ∧ t.rs.optdef = true) → u.counterRule.rs.recovery = true →
         exec (.startSequence seen) s = .next u.counterRule) ∧
       (¬(2 ≤ s.rs.reach ∧ t.rs.optdef = true) → u.counterRule.rs.recovery = false →
         exec (.startSequence seen) s = .next (u.counterRule.startFrom4 seen (decide (2 ≤ s.rs.reach)))))) ∧
  (∀ (s t : State) (seen : StartSeen) (whole : Bool), t = s.startFrom4 seen whole →
     (seen.flashOk = false ∨ seen.norReadOk = false → t.rs.phase = 0xE ∧ t.rs.halt = 3) ∧
     (seen.flashOk = true → seen.norReadOk = true → s.mg.nor = none → t.rs.phase = 0xE ∧ t.rs.halt = 2) ∧
     (∀ d, seen.flashOk = true → seen.norReadOk = true → s.mg.nor = some d → 16777216 < d.length →
       t.rs.phase = 0xE ∧ t.rs.halt = 4) ∧
     (∀ d, seen.flashOk = true → seen.norReadOk = true → s.mg.nor = some d → d.length ≤ 16777216 →
       if Config.fwVerifies d = false then t.rs.phase = 0xE ∧ t.rs.halt = 2
       else if seen.selfTest = false then t.rs.phase = 0xE ∧ t.rs.halt = 5
       else t.rs.phase = 0xA ∧ t.rs.ready = true ∧ t.rs.alert = false ∧ t.rs.counter = 0 ∧ t.rs.core = false))

/-- The operations of recovery mode and COMMIT, by the holder of Hasp 0 (17 R453, R462): COMMIT writes a staged block that
its checks accept to the copy that is not selected, and else shows what they found; LOAD_RUN runs an image from order 6,
WRITE_NOR writes one, each after the image that the host offers is checked; CLEAR_CNT clears the start counter. -/
def Obligations.CommitAndRecovery : Prop :=
  ∀ (s u : State) (p : Port), u = s.wakeLink p → u.holdsSetup p = true →
    (s.regReach p 0x33008 = .open_ →
      (u.commitCheck ≠ 0 → ∀ ok, exec (.commit p ok) s = .next { u with rs := { u.rs with optStatus := u.commitCheck } }) ∧
      (u.commitCheck = 0 → exec (.commit p true) s = .next { u.writeOther u.rs.stage with
        rs := { (u.writeOther u.rs.stage).rs with optStatus := 0, optCopy := !u.rs.optsel } })) ∧
    (s.regReach p 0x33020 = .open_ → ∀ op t, t = { u with rs := { u.rs with rcvOp := op } } →
      (op = 3 → exec (.clearCnt p) s = .next { t with rs := { t.rs with counter := 0, rcvStatus := 0 } }) ∧
      (op = 1 → ∀ hostOk seen, exec (.loadRun p hostOk seen) s = .next
        (match t.offered t.rs.rcvAddr t.rs.rcvLen hostOk with
        | .error b => { t with rs := { t.rs with rcvStatus := b } }
        | .ok d => ((({ t with rs := { t.rs with
            recovery := false, phase := 6, halt := 0
            option := if t.rs.optdef then optDefaults else t.rs.mirror } } : State).startRom.runFirmware d).startFrom6 seen
              true).rcvStatus 0)) ∧
      (op = 2 → ∀ hostOk, exec (.rcvWriteNor p hostOk true) s = .next
        (match t.offered t.rs.rcvAddr t.rs.rcvLen hostOk with
        | .error b => { t with rs := { t.rs with rcvStatus := b } }
        | .ok d => { t with mg := { t.mg with nor := some d }, rs := { t.rs with rcvStatus := 0 } })))

/-- The firmware operations, by the holder of Hasp 0 (18 R481-R483): VERIFY stages an image that is read whole and verifies
and shows its version, and else, but for a length that is too great, discards what was staged; WRITE_NOR writes the staged
image and ACTIVATE runs it, unless its microcode interface differs or it fails the check of the records; without a staged
image both show 0x06. -/
def Obligations.FirmwareOperations : Prop :=
  ∀ (s u : State) (p : Port), u = s.wakeLink p → u.holdsSetup p = true → s.regReach p 0x28 = .open_ →
    ∀ op t, t = { u with mg := { u.mg with fwOp := op } } →
    (op = 1 → ∀ hostOk, exec (.verify p hostOk) s = .next (match t.offered t.mg.fwAddr t.mg.fwLen hostOk with
      | .ok d => { t with mg := { t.mg with staged := some d, fwSver := Config.fwVersion d, fwStatus := 0 } }
      | .error 4 => { t with mg := { t.mg with fwStatus := 4 } }
      | .error b => { t with mg := { t.mg with staged := none, fwSver := 0, fwStatus := b } })) ∧
    (op = 2 → t.mg.staged = none → ∀ ok, exec (.fwWriteNor p ok) s = .next { t with mg := { t.mg with fwStatus := 6 } }) ∧
    (op = 2 → ∀ d, t.mg.staged = some d → exec (.fwWriteNor p true) s = .next { t with mg := { t.mg with
      nor := some d, fwNor := Config.fwVersion d, nordiff := decide (t.mg.running ≠ some d), fwStatus := 0 } }) ∧
    (op = 3 → t.mg.staged = none → ∀ ok, exec (.activate p ok) s = .next { t with mg := { t.mg with fwStatus := 6 } }) ∧
    (op = 3 → ∀ d, t.mg.staged = some d →
      (Config.fwUcif d ≠ t.mg.ucif → ∀ ok, exec (.activate p ok) s = .next { t with mg := { t.mg with fwStatus := 7 } }) ∧
      (Config.fwUcif d = t.mg.ucif → exec (.activate p false) s = .next { t with mg := { t.mg with fwStatus := 8 } }) ∧
      (Config.fwUcif d = t.mg.ucif → exec (.activate p true) s = .next { t with
        mg := { t.mg with
          running := some d, fwRun := Config.fwVersion d, nordiff := decide (t.mg.nor ≠ some d), fwStatus := 0 }
        cx := { t.cx with progress := t.cx.progress.map fun x => { x with tr := t.now } } }))

/-- The Ward (19 R486-R496), for the holder of Hasp 0: CHAL of a CLOSED Ward gives a challenge of the firmware generator;
OPEN with a signature for it erases the module and opens the Ward, and with another counts a failure and lapses the
challenge; PROVISION of an OPEN Ward takes a bundle into the key store, and closes the Ward where CLOSE is set; a challenge
lapses after 10,000 ticks. ATTEST signs with the attestation key, and needs no Hasp. -/
def Obligations.WardOperations : Prop :=
  ∀ (s u : State) (p : Port), u = s.wakeLink p → s.regReach p 0x32008 = .open_ →
    (u.holdsSetup p = true → ∀ op t, t = { u with dw := { u.dw with op := op } } →
      (op = 1 → ∀ c v, t.dw.state = .closed → t.dw.fails < 8 → t.busyModule = false → t.rn.state = .ok →
        t.drawFw 32 = some (c, v) → exec (.chal p) s = .next { v with dw := { v.dw with
          state := .challenged, chal := some (BitVec.ofNat 256 (leNat c)), chalTick := v.now, chalPort := some p
          status := 0 } }) ∧
      (op = 1 → t.dw.state ≠ .closed → exec (.chal p) s = .next { t with dw := { t.dw with status := 8 } }) ∧
      (op = 2 → t.dw.state ≠ .challenged → ∀ seen, exec (.openWard p seen) s =
        .next { t with dw := { t.dw with status := 8 } }) ∧
      (op = 2 → t.dw.state = .challenged → t.dw.chalTick + 10000 < t.now → ∀ seen, exec (.openWard p seen) s =
        .next { t with dw := { t.dw with state := .closed, chal := none, chalPort := none, status := 8 } }) ∧
      (op = 2 → t.dw.state = .challenged → t.now ≤ t.dw.chalTick + 10000 → ∀ seen, exec (.openWard p seen) s = .next
        (if t.wardOpens then (t.eraseAll seen).wardStatus 0
        else { t with dw := { t.dw with
          fails := min 8 (t.dw.fails + 1), state := .closed, chal := none, chalPort := none, status := 1 } })) ∧
      (op = 3 → t.dw.state ≠ .open → ∀ a b, exec (.provision p a b) s = .next { t with dw := { t.dw with status := 8 } }) ∧
      (op = 3 → t.dw.state = .open → ∀ d, d = Mem.bytes t.host (t.dw.addr.toNat * 64) 16384 → State.bundleOk d = true →
        t.dw.close = false → exec (.provision p true true) s =
          .next { t with rs := { t.rs with keys := Mem.store [] 0 d }, dw := { t.dw with status := 0 } })) ∧
    (u.holdsSetup p = false → (Mem.bytes u.rs.keys 0x40 128).all (· == 0) = true →
      exec (.attest p) s = .next { u with dw := { u.dw with status := 6 } }) ∧
    (u.holdsSetup p = false → (Mem.bytes u.rs.keys 0x40 128).all (· == 0) = false → ∃ k,
      exec (.attest p) s = .next { u with
        free := u.free + 1
        dw := { u.dw with
          resp := State.respOf (ecdsaSign (beNat ((Mem.bytes u.rs.keys 0x40 128).take 48)) (sha384 (u.respBytes.take 32 ++
            u.identBytes ++ leBytes 8 u.regFwVer.toNat)) k)
          status := 0 } }) ∧
    (s.dw.state = .challenged → s.dw.chalTick + 10000 ≤ s.now → exec .challengeLapse s =
      .next { s with dw := { s.dw with state := .closed, chal := none, chalPort := none } })

/-- The JTAG instructions of Table 19.1 act in every state of the Ward (19 R484, R485; 21 R518): each is shown as the
current one and shifts out its own answer, and EXTEST alone drives the SITE_DO pins. A code outside the table acts as BYPASS
and is counted while the Ward is not OPEN. While it is, no rule says what the code does, and it is refused by name. -/
def Obligations.JtagInstructions : Prop :=
  ∀ (s : State) (t : Byte → Answer → State),
    (∀ code out, t code out = { s with dw := { s.dw with jtagIr := code, jtagOut := out }, st := { s.st with doExtest := none } }) →
    exec .bypass s = .next (t 0xFF .silent) ∧ exec .idcode s = .next (t 1 (.value 0x03240D97)) ∧
    (∀ pins, exec (.samplePreload pins) s = .next (t 2 (.data [pins]))) ∧
    exec .wardstat s = .next (t 0x10 (.value s.regWard)) ∧
    (∀ cells, exec (.extest cells) s = .next { s with
      dw := { s.dw with jtagIr := 3, jtagOut := .silent }, st := { s.st with doExtest := some cells } }) ∧
    (∀ code, State.outsideWard code = false →
      (s.dw.state ≠ .open → exec (.internalDebug code) s = .next { t code .silent with
        dw := { (t code .silent).dw with denied := satInc 16 s.dw.denied } }) ∧
      (s.dw.state = .open → exec (.internalDebug code) s = .refused .internalDebugUnstated))
end

