-- ==== Sys2Proof/Laws/Requests.lean ====
section
/-! SUPPORT. What the operations over requests, contexts and tables answer. -/

namespace Sys2Proof.Machine

/-- A request without a run leaves the runs as they are. -/
theorem State.dropRun_none {s : State} {k : ReqKey} (h : s.run? k = none) : s.dropRun k = s := by
  unfold State.dropRun; unfold State.run? at h; rw [h]

/-- A request without a run that completes OK holds its record, and nothing else changes. -/
theorem State.okReq_ended {s : State} {k : ReqKey} (h : s.run? k = none)
    (a b : W64) : s.okReq k a b = ended s k Status.ok a b := by
  unfold State.okReq State.endReq
  rw [dropRun_none h]
  unfold State.run? at h
  rw [h]
  rfl

/-- A request without a run that ends holds its record, and nothing else changes. -/
theorem State.endReq_ended {s : State} {k : ReqKey} (h : s.run? k = none) (st : Nat)
    (a b : W64) : s.endReq k st Stop.none a b 0xFFFF = ended s k st a b := by
  unfold State.endReq
  rw [dropRun_none h]
  unfold State.run? at h
  rw [h]
  rfl

/-- Dropping requests one after another drops them all, and nothing else changes. -/
theorem State.foldl_dropReq (l : List ReqKey) (s : State) : l.foldl State.dropReq s =
    { s with fe := { s.fe with requests := s.fe.requests.filter fun o => !l.contains o.key } } := by
  induction l generalizing s with
  | nil =>
    have : (s.fe.requests.filter fun _ => true) = s.fe.requests := List.filter_eq_self.2 (by simp)
    simp [this]
  | cons a l ih =>
    rw [List.foldl_cons, ih]
    simp only [State.dropReq, List.filter_filter]
    congr 2
    apply List.filter_congr
    intro x _
    by_cases h : x.key = a <;> simp [h, Bool.and_comm]

/-- A change of requests that keeps their keys keeps which request a key finds. -/
theorem find?_map_key (l : List Request) (k : ReqKey) (f : Request → Request) (hf : ∀ q, (f q).key = q.key) :
    (l.map f).find? (fun q => decide (q.key = k)) = (l.find? fun q => decide (q.key = k)).map f := by
  induction l with
  | nil => rfl
  | cons a l ih => simp only [List.map_cons, List.find?_cons, hf]; split <;> simp [*]

/-- The request a key finds after another (or the same) request has ended. -/
theorem req_ended (s : State) (k k' : ReqKey) (st : Nat) (a b : W64) :
    (ended s k st a b).req? k' = (s.req? k').map fun q =>
      if q.key = k then
        { q with state := .ended, hold := none, status := st, stop := 0, word0 := a, word1 := b, faultLe := 0xFFFF, best := none }
      else q := by
  exact find?_map_key _ _ _ (fun q => by split <;> rfl)

/-- A change of some members of a list, written as a filter. -/
theorem filterMap_some_if {α : Type} (p : α → Prop) [DecidablePred p] (f : α → α) (l : List α) :
    (l.filterMap fun o => if p o then some (f o) else some o) = l.map fun o => if p o then f o else o := by
  induction l with
  | nil => rfl
  | cons a l ih =>
    by_cases h : p a <;> simp [h, ih]

/-- With no request held for a patch, an end of a patch releases none. -/
theorem State.releasePatched_id {s : State} {n : Nat}
    (h : ∀ q ∈ s.fe.requests, q.state ≠ .heldPatch) : s.releasePatched n = s := by
  unfold State.releasePatched
  have : (s.fe.requests.filter fun r => r.state == .heldPatch && r.patches.all fun o => o.value.isSome || o.failed.isSome) = [] := by
    rw [List.filter_eq_nil_iff]
    intro q hq
    simp [h q hq]
  rw [this]; rfl

/-- A request that names no engine waits for none. -/
theorem State.enginesReady_zero (s : State) : s.enginesReady 0 = true := by
  simp [State.enginesReady, State.shiftOver, bitAt]

/-- A request that names no engine starts none. -/
theorem State.startOn_zero (s : State) : s.startOn 0 = s := by
  have : ∀ l : List Nat, ∀ t : State, l.foldl (fun t le => if bitAt 0 le then t.bump (.controller le) none 1 else t) t = t := by
    intro l; induction l with
    | nil => intro t; rfl
    | cons a l ih => intro t; rw [List.foldl_cons, if_neg (by simp [bitAt])]; exact ih t
  unfold State.startOn
  generalize List.range 32 = l
  exact this l s

/-- One operand in host memory names no engine. -/
theorem State.maskOf_one {a : Nat} (ha : addrSpace a = 0) : State.maskOf [a] = 0 := by
  unfold State.maskOf
  rw [List.foldl_cons, List.foldl_nil, if_neg (by rw [ha]; simp)]

/-- Two operands in host memory name no engine. -/
theorem State.maskOf_two {a b : Nat} (ha : addrSpace a = 0) (hb : addrSpace b = 0) : State.maskOf [a, b] = 0 := by
  unfold State.maskOf
  rw [List.foldl_cons, List.foldl_cons, List.foldl_nil, if_neg (by rw [hb]; simp), if_neg (by rw [ha]; simp)]

/-- A destination in host memory opens without a check. -/
theorem State.openWrite_host {s : State} {r : Request} {off a n : Nat} (a3 : addrSpace a = 0)
    (a4 : addrLe a = 0) : s.openWrite r off a n = .ok s := by
  have h0 : s.reachOk r a n false = .ok () := by
    unfold State.reachOk
    simp only [a3, a4, if_true]
  have h1 : s.hitsChain r.tag a n = false := by
    unfold State.hitsChain
    rw [a3]; rfl
  have h2 : s.freshPages r a n = [] := by
    unfold State.freshPages
    rw [a3]; exact if_neg (by simp)
  have h3 : s.pageRefusal r a n = none := by
    unfold State.pageRefusal
    rw [h2]; rfl
  unfold State.openWrite
  rw [h0]; dsimp only; rw [h1, h3]
  unfold State.takePages
  rw [h2]; rfl

/-- The lowest free place is free and lies in its range. -/
theorem Tbl.lowestFree_spec {α : Type} (t : Tbl α) (a n i : Nat)
    (h : t.lowestFree a n = some i) : Tbl.get? t i = none ∧ i < a + n := by
  induction n generalizing a with
  | zero => simp [Tbl.lowestFree] at h
  | succ n ih =>
    unfold Tbl.lowestFree at h
    split at h
    · cases h; rename_i h; exact ⟨by simpa using h, by omega⟩
    · have := ih _ h; exact ⟨this.1, by omega⟩

/-- A place just written reads as what was written. -/
theorem Tbl.get?_put {α : Type} (t : Tbl α) (i : Nat) (v : α) : Tbl.get? (Tbl.put t i v) i = some v := by
  induction t with
  | nil => simp [Tbl.put, Tbl.get?]
  | cons p t ih =>
    obtain ⟨k, w⟩ := p
    unfold Tbl.put
    split
    · simp [Tbl.get?]
    · split
      · simp [Tbl.get?]
      · simp only [Tbl.get?]; rw [if_neg (by omega)]; exact ih

/-- A change of a context leaves the runs alone. -/
theorem State.updCtx_runs_eq (s : State) (i : Nat) (f : Ctx → Ctx) : (s.updCtx i f).runs = s.runs := by
  unfold State.updCtx; split <;> rfl

/-- The first number from 1 that has a property. -/
theorem range_find {p : Nat → Bool} (n i : Nat) (h1 : 1 ≤ i) (h2 : i ≤ n) (hp : p i = true)
    (hn : ∀ j, 1 ≤ j → j < i → p j = false) :
    ((List.range n).map (· + 1)).find? p = some i := by
  induction n generalizing i with
  | zero => omega
  | succ n ih =>
    rw [List.range_succ, List.map_append, List.find?_append]
    by_cases hi : i ≤ n
    · rw [ih i h1 hi hp hn]; rfl
    · have : i = n + 1 := by omega
      subst this
      have : ((List.range n).map (· + 1)).find? p = none := by
        rw [List.find?_eq_none]
        intro x hx
        simp only [List.mem_map, List.mem_range] at hx
        obtain ⟨a, ha, rfl⟩ := hx
        rw [hn _ (by omega) (by omega)]; simp
      rw [this]
      simp [hp]

/-- The first number from 0 that has a property. -/
theorem find_first (n p : Nat) (f : Nat → Bool) (h : p < n) (hp : f p = true) (hn : ∀ j, j < p → f j = false) :
    (List.range n).find? f = some p := by
  induction n with
  | zero => omega
  | succ n ih =>
    rw [List.range_succ, List.find?_append]
    by_cases hi : p < n
    · rw [ih hi]; rfl
    · have : p = n := by omega
      subst this
      have : (List.range p).find? f = none := by
        rw [List.find?_eq_none]; intro x hx; rw [hn x (List.mem_range.1 hx)]; simp
      rw [this]; simp [hp]

/-- A little-endian number has the length asked for. -/
theorem leBytes_length (n v : Nat) : (leBytes n v).length = n := by
  induction n generalizing v with
  | zero => rfl
  | succ n ih => simp [leBytes, ih]

/-- A job named with its current generation runs the operation on it. -/
theorem State.onJob_current {s : State} {id gen : Nat} {j : Job} (h : s.job? id = some j) (hg : gen = s.jobGen id)
    (f : Job → State) :
    s.onJob id gen f = f j := by unfold State.onJob; rw [h]; simp [hg]

/-- What every pass of a loop leaves alone, the loop leaves alone. -/
theorem foldl_keeps_proj {α β : Type} (f : State → α → State) (P : State → β) (h : ∀ s a, P (f s a) = P s)
    (l : List α) (s : State) :
    P (l.foldl f s) = P s := by
  induction l generalizing s with
  | nil => rfl
  | cons a l ih => rw [List.foldl_cons, ih, h]

/-- A loop whose every pass changes nothing changes nothing. -/
theorem foldl_noop {α β : Type} (f : β → α → β) (l : List α) (h : ∀ a ∈ l, ∀ b, f b a = b) (b : β) : l.foldl f b = b := by
  induction l generalizing b with
  | nil => rfl
  | cons a l ih => rw [List.foldl_cons, h a (List.mem_cons_self)]; exact ih (fun x hx => h x (List.mem_cons_of_mem _ hx)) b

end Sys2Proof.Machine
end

