-- ==== Sys2Proof/Laws/State.lean ====
section
/-! SUPPORT. What each named update of the state leaves alone: one lemma per field per update, so that no later proof unfolds a
record update. -/

namespace Sys2Proof.Machine


/-! ### setPort -/

@[simp] theorem State.setPort_mg (s : State) (p : Port) (h : HostPort) :
    (s.setPort p h).mg = s.mg := by unfold State.setPort; split <;> rfl

@[simp] theorem State.setPort_hp_rwldrop (s : State) (p : Port) (h : HostPort) :
    (s.setPort p h).hp.rwldrop = s.hp.rwldrop := by unfold State.setPort; split <;> rfl

@[simp] theorem State.setPort_hp_rwlPort (s : State) (p : Port) (h : HostPort) :
    (s.setPort p h).hp.rwlPort = s.hp.rwlPort := by unfold State.setPort; split <;> rfl

@[simp] theorem State.setPort_hp_rwlOff (s : State) (p : Port) (h : HostPort) :
    (s.setPort p h).hp.rwlOff = s.hp.rwlOff := by unfold State.setPort; split <;> rfl

@[simp] theorem State.setPort_hp_hasperr (s : State) (p : Port) (h : HostPort) :
    (s.setPort p h).hp.hasperr = s.hp.hasperr := by unfold State.setPort; split <;> rfl

@[simp] theorem State.setPort_hp_badacc (s : State) (p : Port) (h : HostPort) :
    (s.setPort p h).hp.badacc = s.hp.badacc := by unfold State.setPort; split <;> rfl

@[simp] theorem State.setPort_hp_cachereq (s : State) (p : Port) (h : HostPort) :
    (s.setPort p h).hp.cachereq = s.hp.cachereq := by unfold State.setPort; split <;> rfl

@[simp] theorem State.setPort_hp_hasps (s : State) (p : Port) (h : HostPort) :
    (s.setPort p h).hp.hasps = s.hp.hasps := by unfold State.setPort; split <;> rfl

@[simp] theorem State.setPort_hp_downA (s : State) (p : Port) (h : HostPort) :
    (s.setPort p h).hp.downA = s.hp.downA := by unfold State.setPort; split <;> rfl

@[simp] theorem State.setPort_hp_downB (s : State) (p : Port) (h : HostPort) :
    (s.setPort p h).hp.downB = s.hp.downB := by unfold State.setPort; split <;> rfl

@[simp] theorem State.setPort_hp_freedA (s : State) (p : Port) (h : HostPort) :
    (s.setPort p h).hp.freedA = s.hp.freedA := by unfold State.setPort; split <;> rfl

@[simp] theorem State.setPort_hp_freedB (s : State) (p : Port) (h : HostPort) :
    (s.setPort p h).hp.freedB = s.hp.freedB := by unfold State.setPort; split <;> rfl

@[simp] theorem State.setPort_hp_broke (s : State) (p : Port) (h : HostPort) :
    (s.setPort p h).hp.broke = s.hp.broke := by unfold State.setPort; split <;> rfl

@[simp] theorem State.setPort_hp_lastbrk (s : State) (p : Port) (h : HostPort) :
    (s.setPort p h).hp.lastbrk = s.hp.lastbrk := by unfold State.setPort; split <;> rfl

@[simp] theorem State.setPort_hp_evicts (s : State) (p : Port) (h : HostPort) :
    (s.setPort p h).hp.evicts = s.hp.evicts := by unfold State.setPort; split <;> rfl

@[simp] theorem State.setPort_hp_ansA (s : State) (p : Port) (h : HostPort) :
    (s.setPort p h).hp.ansA = s.hp.ansA := by unfold State.setPort; split <;> rfl

@[simp] theorem State.setPort_hp_ansB (s : State) (p : Port) (h : HostPort) :
    (s.setPort p h).hp.ansB = s.hp.ansB := by unfold State.setPort; split <;> rfl

@[simp] theorem State.setPort_fe (s : State) (p : Port) (h : HostPort) :
    (s.setPort p h).fe = s.fe := by unfold State.setPort; split <;> rfl

@[simp] theorem State.setPort_cx (s : State) (p : Port) (h : HostPort) :
    (s.setPort p h).cx = s.cx := by unfold State.setPort; split <;> rfl

@[simp] theorem State.setPort_sites (s : State) (p : Port) (h : HostPort) :
    (s.setPort p h).sites = s.sites := by unfold State.setPort; split <;> rfl

@[simp] theorem State.setPort_groups (s : State) (p : Port) (h : HostPort) :
    (s.setPort p h).groups = s.groups := by unfold State.setPort; split <;> rfl

@[simp] theorem State.setPort_mgens (s : State) (p : Port) (h : HostPort) :
    (s.setPort p h).mgens = s.mgens := by unfold State.setPort; split <;> rfl

@[simp] theorem State.setPort_models (s : State) (p : Port) (h : HostPort) :
    (s.setPort p h).models = s.models := by unfold State.setPort; split <;> rfl

@[simp] theorem State.setPort_runs (s : State) (p : Port) (h : HostPort) :
    (s.setPort p h).runs = s.runs := by unfold State.setPort; split <;> rfl

@[simp] theorem State.setPort_hb (s : State) (p : Port) (h : HostPort) :
    (s.setPort p h).hb = s.hb := by unfold State.setPort; split <;> rfl

@[simp] theorem State.setPort_fb (s : State) (p : Port) (h : HostPort) :
    (s.setPort p h).fb = s.fb := by unfold State.setPort; split <;> rfl

@[simp] theorem State.setPort_pr (s : State) (p : Port) (h : HostPort) :
    (s.setPort p h).pr = s.pr := by unfold State.setPort; split <;> rfl

@[simp] theorem State.setPort_st (s : State) (p : Port) (h : HostPort) :
    (s.setPort p h).st = s.st := by unfold State.setPort; split <;> rfl

@[simp] theorem State.setPort_rn (s : State) (p : Port) (h : HostPort) :
    (s.setPort p h).rn = s.rn := by unfold State.setPort; split <;> rfl

@[simp] theorem State.setPort_pw (s : State) (p : Port) (h : HostPort) :
    (s.setPort p h).pw = s.pw := by unfold State.setPort; split <;> rfl

@[simp] theorem State.setPort_dw (s : State) (p : Port) (h : HostPort) :
    (s.setPort p h).dw = s.dw := by unfold State.setPort; split <;> rfl

@[simp] theorem State.setPort_rs (s : State) (p : Port) (h : HostPort) :
    (s.setPort p h).rs = s.rs := by unfold State.setPort; split <;> rfl

@[simp] theorem State.setPort_cs (s : State) (p : Port) (h : HostPort) :
    (s.setPort p h).cs = s.cs := by unfold State.setPort; split <;> rfl

@[simp] theorem State.setPort_host (s : State) (p : Port) (h : HostPort) :
    (s.setPort p h).host = s.host := by unfold State.setPort; split <;> rfl

@[simp] theorem State.setPort_signals (s : State) (p : Port) (h : HostPort) :
    (s.setPort p h).signals = s.signals := by unfold State.setPort; split <;> rfl

@[simp] theorem State.setPort_sideband (s : State) (p : Port) (h : HostPort) :
    (s.setPort p h).sideband = s.sideband := by unfold State.setPort; split <;> rfl

@[simp] theorem State.setPort_free (s : State) (p : Port) (h : HostPort) :
    (s.setPort p h).free = s.free := by unfold State.setPort; split <;> rfl

@[simp] theorem State.setPort_pending (s : State) (p : Port) (h : HostPort) :
    (s.setPort p h).pending = s.pending := by unfold State.setPort; split <;> rfl

/-! ### wakeLink -/

@[simp] theorem State.wakeLink_mg (s : State) (p : Port) :
    (s.wakeLink p).mg = s.mg := by unfold State.wakeLink State.setPort; repeat' (first | rfl | split)

@[simp] theorem State.wakeLink_hp_rwldrop (s : State) (p : Port) :
    (s.wakeLink p).hp.rwldrop = s.hp.rwldrop := by unfold State.wakeLink State.setPort; repeat' (first | rfl | split)

@[simp] theorem State.wakeLink_hp_rwlPort (s : State) (p : Port) :
    (s.wakeLink p).hp.rwlPort = s.hp.rwlPort := by unfold State.wakeLink State.setPort; repeat' (first | rfl | split)

@[simp] theorem State.wakeLink_hp_rwlOff (s : State) (p : Port) :
    (s.wakeLink p).hp.rwlOff = s.hp.rwlOff := by unfold State.wakeLink State.setPort; repeat' (first | rfl | split)

@[simp] theorem State.wakeLink_hp_hasperr (s : State) (p : Port) :
    (s.wakeLink p).hp.hasperr = s.hp.hasperr := by unfold State.wakeLink State.setPort; repeat' (first | rfl | split)

@[simp] theorem State.wakeLink_hp_badacc (s : State) (p : Port) :
    (s.wakeLink p).hp.badacc = s.hp.badacc := by unfold State.wakeLink State.setPort; repeat' (first | rfl | split)

@[simp] theorem State.wakeLink_hp_cachereq (s : State) (p : Port) :
    (s.wakeLink p).hp.cachereq = s.hp.cachereq := by unfold State.wakeLink State.setPort; repeat' (first | rfl | split)

@[simp] theorem State.wakeLink_hp_hasps (s : State) (p : Port) :
    (s.wakeLink p).hp.hasps = s.hp.hasps := by unfold State.wakeLink State.setPort; repeat' (first | rfl | split)

@[simp] theorem State.wakeLink_hp_downA (s : State) (p : Port) :
    (s.wakeLink p).hp.downA = s.hp.downA := by unfold State.wakeLink State.setPort; repeat' (first | rfl | split)

@[simp] theorem State.wakeLink_hp_downB (s : State) (p : Port) :
    (s.wakeLink p).hp.downB = s.hp.downB := by unfold State.wakeLink State.setPort; repeat' (first | rfl | split)

@[simp] theorem State.wakeLink_hp_freedA (s : State) (p : Port) :
    (s.wakeLink p).hp.freedA = s.hp.freedA := by unfold State.wakeLink State.setPort; repeat' (first | rfl | split)

@[simp] theorem State.wakeLink_hp_freedB (s : State) (p : Port) :
    (s.wakeLink p).hp.freedB = s.hp.freedB := by unfold State.wakeLink State.setPort; repeat' (first | rfl | split)

@[simp] theorem State.wakeLink_hp_broke (s : State) (p : Port) :
    (s.wakeLink p).hp.broke = s.hp.broke := by unfold State.wakeLink State.setPort; repeat' (first | rfl | split)

@[simp] theorem State.wakeLink_hp_lastbrk (s : State) (p : Port) :
    (s.wakeLink p).hp.lastbrk = s.hp.lastbrk := by unfold State.wakeLink State.setPort; repeat' (first | rfl | split)

@[simp] theorem State.wakeLink_hp_evicts (s : State) (p : Port) :
    (s.wakeLink p).hp.evicts = s.hp.evicts := by unfold State.wakeLink State.setPort; repeat' (first | rfl | split)

@[simp] theorem State.wakeLink_hp_ansA (s : State) (p : Port) :
    (s.wakeLink p).hp.ansA = s.hp.ansA := by unfold State.wakeLink State.setPort; repeat' (first | rfl | split)

@[simp] theorem State.wakeLink_hp_ansB (s : State) (p : Port) :
    (s.wakeLink p).hp.ansB = s.hp.ansB := by unfold State.wakeLink State.setPort; repeat' (first | rfl | split)

@[simp] theorem State.wakeLink_fe (s : State) (p : Port) :
    (s.wakeLink p).fe = s.fe := by unfold State.wakeLink State.setPort; repeat' (first | rfl | split)

@[simp] theorem State.wakeLink_cx (s : State) (p : Port) :
    (s.wakeLink p).cx = s.cx := by unfold State.wakeLink State.setPort; repeat' (first | rfl | split)

@[simp] theorem State.wakeLink_sites (s : State) (p : Port) :
    (s.wakeLink p).sites = s.sites := by unfold State.wakeLink State.setPort; repeat' (first | rfl | split)

@[simp] theorem State.wakeLink_groups (s : State) (p : Port) :
    (s.wakeLink p).groups = s.groups := by unfold State.wakeLink State.setPort; repeat' (first | rfl | split)

@[simp] theorem State.wakeLink_mgens (s : State) (p : Port) :
    (s.wakeLink p).mgens = s.mgens := by unfold State.wakeLink State.setPort; repeat' (first | rfl | split)

@[simp] theorem State.wakeLink_models (s : State) (p : Port) :
    (s.wakeLink p).models = s.models := by unfold State.wakeLink State.setPort; repeat' (first | rfl | split)

@[simp] theorem State.wakeLink_runs (s : State) (p : Port) :
    (s.wakeLink p).runs = s.runs := by unfold State.wakeLink State.setPort; repeat' (first | rfl | split)

@[simp] theorem State.wakeLink_hb (s : State) (p : Port) :
    (s.wakeLink p).hb = s.hb := by unfold State.wakeLink State.setPort; repeat' (first | rfl | split)

@[simp] theorem State.wakeLink_fb (s : State) (p : Port) :
    (s.wakeLink p).fb = s.fb := by unfold State.wakeLink State.setPort; repeat' (first | rfl | split)

@[simp] theorem State.wakeLink_pr (s : State) (p : Port) :
    (s.wakeLink p).pr = s.pr := by unfold State.wakeLink State.setPort; repeat' (first | rfl | split)

@[simp] theorem State.wakeLink_st (s : State) (p : Port) :
    (s.wakeLink p).st = s.st := by unfold State.wakeLink State.setPort; repeat' (first | rfl | split)

@[simp] theorem State.wakeLink_rn (s : State) (p : Port) :
    (s.wakeLink p).rn = s.rn := by unfold State.wakeLink State.setPort; repeat' (first | rfl | split)

@[simp] theorem State.wakeLink_pw (s : State) (p : Port) :
    (s.wakeLink p).pw = s.pw := by unfold State.wakeLink State.setPort; repeat' (first | rfl | split)

@[simp] theorem State.wakeLink_dw (s : State) (p : Port) :
    (s.wakeLink p).dw = s.dw := by unfold State.wakeLink State.setPort; repeat' (first | rfl | split)

@[simp] theorem State.wakeLink_rs (s : State) (p : Port) :
    (s.wakeLink p).rs = s.rs := by unfold State.wakeLink State.setPort; repeat' (first | rfl | split)

@[simp] theorem State.wakeLink_cs (s : State) (p : Port) :
    (s.wakeLink p).cs = s.cs := by unfold State.wakeLink State.setPort; repeat' (first | rfl | split)

@[simp] theorem State.wakeLink_host (s : State) (p : Port) :
    (s.wakeLink p).host = s.host := by unfold State.wakeLink State.setPort; repeat' (first | rfl | split)

@[simp] theorem State.wakeLink_signals (s : State) (p : Port) :
    (s.wakeLink p).signals = s.signals := by unfold State.wakeLink State.setPort; repeat' (first | rfl | split)

@[simp] theorem State.wakeLink_sideband (s : State) (p : Port) :
    (s.wakeLink p).sideband = s.sideband := by unfold State.wakeLink State.setPort; repeat' (first | rfl | split)

@[simp] theorem State.wakeLink_free (s : State) (p : Port) :
    (s.wakeLink p).free = s.free := by unfold State.wakeLink State.setPort; repeat' (first | rfl | split)

@[simp] theorem State.wakeLink_pending (s : State) (p : Port) :
    (s.wakeLink p).pending = s.pending := by unfold State.wakeLink State.setPort; repeat' (first | rfl | split)

/-! ### touchHost -/

@[simp] theorem State.touchHost_mg (s : State) (p : Port) :
    (s.touchHost p).mg = s.mg := by unfold State.touchHost State.wakeLink State.setPort; repeat' (first | rfl | split)

@[simp] theorem State.touchHost_hp_rwldrop (s : State) (p : Port) :
    (s.touchHost p).hp.rwldrop = s.hp.rwldrop := by unfold State.touchHost State.wakeLink State.setPort; repeat' (first | rfl | split)

@[simp] theorem State.touchHost_hp_rwlPort (s : State) (p : Port) :
    (s.touchHost p).hp.rwlPort = s.hp.rwlPort := by unfold State.touchHost State.wakeLink State.setPort; repeat' (first | rfl | split)

@[simp] theorem State.touchHost_hp_rwlOff (s : State) (p : Port) :
    (s.touchHost p).hp.rwlOff = s.hp.rwlOff := by unfold State.touchHost State.wakeLink State.setPort; repeat' (first | rfl | split)

@[simp] theorem State.touchHost_hp_hasperr (s : State) (p : Port) :
    (s.touchHost p).hp.hasperr = s.hp.hasperr := by unfold State.touchHost State.wakeLink State.setPort; repeat' (first | rfl | split)

@[simp] theorem State.touchHost_hp_badacc (s : State) (p : Port) :
    (s.touchHost p).hp.badacc = s.hp.badacc := by unfold State.touchHost State.wakeLink State.setPort; repeat' (first | rfl | split)

@[simp] theorem State.touchHost_hp_cachereq (s : State) (p : Port) :
    (s.touchHost p).hp.cachereq = s.hp.cachereq := by unfold State.touchHost State.wakeLink State.setPort; repeat' (first | rfl | split)

@[simp] theorem State.touchHost_hp_hasps (s : State) (p : Port) :
    (s.touchHost p).hp.hasps = s.hp.hasps := by unfold State.touchHost State.wakeLink State.setPort; repeat' (first | rfl | split)

@[simp] theorem State.touchHost_hp_downA (s : State) (p : Port) :
    (s.touchHost p).hp.downA = s.hp.downA := by unfold State.touchHost State.wakeLink State.setPort; repeat' (first | rfl | split)

@[simp] theorem State.touchHost_hp_downB (s : State) (p : Port) :
    (s.touchHost p).hp.downB = s.hp.downB := by unfold State.touchHost State.wakeLink State.setPort; repeat' (first | rfl | split)

@[simp] theorem State.touchHost_hp_freedA (s : State) (p : Port) :
    (s.touchHost p).hp.freedA = s.hp.freedA := by unfold State.touchHost State.wakeLink State.setPort; repeat' (first | rfl | split)

@[simp] theorem State.touchHost_hp_freedB (s : State) (p : Port) :
    (s.touchHost p).hp.freedB = s.hp.freedB := by unfold State.touchHost State.wakeLink State.setPort; repeat' (first | rfl | split)

@[simp] theorem State.touchHost_hp_broke (s : State) (p : Port) :
    (s.touchHost p).hp.broke = s.hp.broke := by unfold State.touchHost State.wakeLink State.setPort; repeat' (first | rfl | split)

@[simp] theorem State.touchHost_hp_lastbrk (s : State) (p : Port) :
    (s.touchHost p).hp.lastbrk = s.hp.lastbrk := by unfold State.touchHost State.wakeLink State.setPort; repeat' (first | rfl | split)

@[simp] theorem State.touchHost_hp_evicts (s : State) (p : Port) :
    (s.touchHost p).hp.evicts = s.hp.evicts := by unfold State.touchHost State.wakeLink State.setPort; repeat' (first | rfl | split)

@[simp] theorem State.touchHost_hp_ansA (s : State) (p : Port) :
    (s.touchHost p).hp.ansA = s.hp.ansA := by unfold State.touchHost State.wakeLink State.setPort; repeat' (first | rfl | split)

@[simp] theorem State.touchHost_hp_ansB (s : State) (p : Port) :
    (s.touchHost p).hp.ansB = s.hp.ansB := by unfold State.touchHost State.wakeLink State.setPort; repeat' (first | rfl | split)

@[simp] theorem State.touchHost_fe (s : State) (p : Port) :
    (s.touchHost p).fe = s.fe := by unfold State.touchHost State.wakeLink State.setPort; repeat' (first | rfl | split)

@[simp] theorem State.touchHost_cx (s : State) (p : Port) :
    (s.touchHost p).cx = s.cx := by unfold State.touchHost State.wakeLink State.setPort; repeat' (first | rfl | split)

@[simp] theorem State.touchHost_sites (s : State) (p : Port) :
    (s.touchHost p).sites = s.sites := by unfold State.touchHost State.wakeLink State.setPort; repeat' (first | rfl | split)

@[simp] theorem State.touchHost_groups (s : State) (p : Port) :
    (s.touchHost p).groups = s.groups := by unfold State.touchHost State.wakeLink State.setPort; repeat' (first | rfl | split)

@[simp] theorem State.touchHost_mgens (s : State) (p : Port) :
    (s.touchHost p).mgens = s.mgens := by unfold State.touchHost State.wakeLink State.setPort; repeat' (first | rfl | split)

@[simp] theorem State.touchHost_models (s : State) (p : Port) :
    (s.touchHost p).models = s.models := by unfold State.touchHost State.wakeLink State.setPort; repeat' (first | rfl | split)

@[simp] theorem State.touchHost_runs (s : State) (p : Port) :
    (s.touchHost p).runs = s.runs := by unfold State.touchHost State.wakeLink State.setPort; repeat' (first | rfl | split)

@[simp] theorem State.touchHost_hb (s : State) (p : Port) :
    (s.touchHost p).hb = s.hb := by unfold State.touchHost State.wakeLink State.setPort; repeat' (first | rfl | split)

@[simp] theorem State.touchHost_fb (s : State) (p : Port) :
    (s.touchHost p).fb = s.fb := by unfold State.touchHost State.wakeLink State.setPort; repeat' (first | rfl | split)

@[simp] theorem State.touchHost_pr (s : State) (p : Port) :
    (s.touchHost p).pr = s.pr := by unfold State.touchHost State.wakeLink State.setPort; repeat' (first | rfl | split)

@[simp] theorem State.touchHost_st (s : State) (p : Port) :
    (s.touchHost p).st = s.st := by unfold State.touchHost State.wakeLink State.setPort; repeat' (first | rfl | split)

@[simp] theorem State.touchHost_rn (s : State) (p : Port) :
    (s.touchHost p).rn = s.rn := by unfold State.touchHost State.wakeLink State.setPort; repeat' (first | rfl | split)

@[simp] theorem State.touchHost_pw (s : State) (p : Port) :
    (s.touchHost p).pw = s.pw := by unfold State.touchHost State.wakeLink State.setPort; repeat' (first | rfl | split)

@[simp] theorem State.touchHost_dw (s : State) (p : Port) :
    (s.touchHost p).dw = s.dw := by unfold State.touchHost State.wakeLink State.setPort; repeat' (first | rfl | split)

@[simp] theorem State.touchHost_rs (s : State) (p : Port) :
    (s.touchHost p).rs = s.rs := by unfold State.touchHost State.wakeLink State.setPort; repeat' (first | rfl | split)

@[simp] theorem State.touchHost_cs (s : State) (p : Port) :
    (s.touchHost p).cs = s.cs := by unfold State.touchHost State.wakeLink State.setPort; repeat' (first | rfl | split)

@[simp] theorem State.touchHost_host (s : State) (p : Port) :
    (s.touchHost p).host = s.host := by unfold State.touchHost State.wakeLink State.setPort; repeat' (first | rfl | split)

@[simp] theorem State.touchHost_signals (s : State) (p : Port) :
    (s.touchHost p).signals = s.signals := by unfold State.touchHost State.wakeLink State.setPort; repeat' (first | rfl | split)

@[simp] theorem State.touchHost_sideband (s : State) (p : Port) :
    (s.touchHost p).sideband = s.sideband := by unfold State.touchHost State.wakeLink State.setPort; repeat' (first | rfl | split)

@[simp] theorem State.touchHost_free (s : State) (p : Port) :
    (s.touchHost p).free = s.free := by unfold State.touchHost State.wakeLink State.setPort; repeat' (first | rfl | split)

@[simp] theorem State.touchHost_pending (s : State) (p : Port) :
    (s.touchHost p).pending = s.pending := by unfold State.touchHost State.wakeLink State.setPort; repeat' (first | rfl | split)

/-! ### answer -/

@[simp] theorem State.answer_mg (s : State) (p : Port) (r : Answer) :
    (s.answer p r).mg = s.mg := by unfold State.answer; split <;> rfl

@[simp] theorem State.answer_hp_portA (s : State) (p : Port) (r : Answer) :
    (s.answer p r).hp.portA = s.hp.portA := by unfold State.answer; split <;> rfl

@[simp] theorem State.answer_hp_portB (s : State) (p : Port) (r : Answer) :
    (s.answer p r).hp.portB = s.hp.portB := by unfold State.answer; split <;> rfl

@[simp] theorem State.answer_hp_rwldrop (s : State) (p : Port) (r : Answer) :
    (s.answer p r).hp.rwldrop = s.hp.rwldrop := by unfold State.answer; split <;> rfl

@[simp] theorem State.answer_hp_rwlPort (s : State) (p : Port) (r : Answer) :
    (s.answer p r).hp.rwlPort = s.hp.rwlPort := by unfold State.answer; split <;> rfl

@[simp] theorem State.answer_hp_rwlOff (s : State) (p : Port) (r : Answer) :
    (s.answer p r).hp.rwlOff = s.hp.rwlOff := by unfold State.answer; split <;> rfl

@[simp] theorem State.answer_hp_hasperr (s : State) (p : Port) (r : Answer) :
    (s.answer p r).hp.hasperr = s.hp.hasperr := by unfold State.answer; split <;> rfl

@[simp] theorem State.answer_hp_badacc (s : State) (p : Port) (r : Answer) :
    (s.answer p r).hp.badacc = s.hp.badacc := by unfold State.answer; split <;> rfl

@[simp] theorem State.answer_hp_cachereq (s : State) (p : Port) (r : Answer) :
    (s.answer p r).hp.cachereq = s.hp.cachereq := by unfold State.answer; split <;> rfl

@[simp] theorem State.answer_hp_hasps (s : State) (p : Port) (r : Answer) :
    (s.answer p r).hp.hasps = s.hp.hasps := by unfold State.answer; split <;> rfl

@[simp] theorem State.answer_hp_downA (s : State) (p : Port) (r : Answer) :
    (s.answer p r).hp.downA = s.hp.downA := by unfold State.answer; split <;> rfl

@[simp] theorem State.answer_hp_downB (s : State) (p : Port) (r : Answer) :
    (s.answer p r).hp.downB = s.hp.downB := by unfold State.answer; split <;> rfl

@[simp] theorem State.answer_hp_freedA (s : State) (p : Port) (r : Answer) :
    (s.answer p r).hp.freedA = s.hp.freedA := by unfold State.answer; split <;> rfl

@[simp] theorem State.answer_hp_freedB (s : State) (p : Port) (r : Answer) :
    (s.answer p r).hp.freedB = s.hp.freedB := by unfold State.answer; split <;> rfl

@[simp] theorem State.answer_hp_broke (s : State) (p : Port) (r : Answer) :
    (s.answer p r).hp.broke = s.hp.broke := by unfold State.answer; split <;> rfl

@[simp] theorem State.answer_hp_lastbrk (s : State) (p : Port) (r : Answer) :
    (s.answer p r).hp.lastbrk = s.hp.lastbrk := by unfold State.answer; split <;> rfl

@[simp] theorem State.answer_hp_evicts (s : State) (p : Port) (r : Answer) :
    (s.answer p r).hp.evicts = s.hp.evicts := by unfold State.answer; split <;> rfl

@[simp] theorem State.answer_fe (s : State) (p : Port) (r : Answer) :
    (s.answer p r).fe = s.fe := by unfold State.answer; split <;> rfl

@[simp] theorem State.answer_cx (s : State) (p : Port) (r : Answer) :
    (s.answer p r).cx = s.cx := by unfold State.answer; split <;> rfl

@[simp] theorem State.answer_sites (s : State) (p : Port) (r : Answer) :
    (s.answer p r).sites = s.sites := by unfold State.answer; split <;> rfl

@[simp] theorem State.answer_groups (s : State) (p : Port) (r : Answer) :
    (s.answer p r).groups = s.groups := by unfold State.answer; split <;> rfl

@[simp] theorem State.answer_mgens (s : State) (p : Port) (r : Answer) :
    (s.answer p r).mgens = s.mgens := by unfold State.answer; split <;> rfl

@[simp] theorem State.answer_models (s : State) (p : Port) (r : Answer) :
    (s.answer p r).models = s.models := by unfold State.answer; split <;> rfl

@[simp] theorem State.answer_runs (s : State) (p : Port) (r : Answer) :
    (s.answer p r).runs = s.runs := by unfold State.answer; split <;> rfl

@[simp] theorem State.answer_hb (s : State) (p : Port) (r : Answer) :
    (s.answer p r).hb = s.hb := by unfold State.answer; split <;> rfl

@[simp] theorem State.answer_fb (s : State) (p : Port) (r : Answer) :
    (s.answer p r).fb = s.fb := by unfold State.answer; split <;> rfl

@[simp] theorem State.answer_pr (s : State) (p : Port) (r : Answer) :
    (s.answer p r).pr = s.pr := by unfold State.answer; split <;> rfl

@[simp] theorem State.answer_st (s : State) (p : Port) (r : Answer) :
    (s.answer p r).st = s.st := by unfold State.answer; split <;> rfl

@[simp] theorem State.answer_rn (s : State) (p : Port) (r : Answer) :
    (s.answer p r).rn = s.rn := by unfold State.answer; split <;> rfl

@[simp] theorem State.answer_pw (s : State) (p : Port) (r : Answer) :
    (s.answer p r).pw = s.pw := by unfold State.answer; split <;> rfl

@[simp] theorem State.answer_dw (s : State) (p : Port) (r : Answer) :
    (s.answer p r).dw = s.dw := by unfold State.answer; split <;> rfl

@[simp] theorem State.answer_rs (s : State) (p : Port) (r : Answer) :
    (s.answer p r).rs = s.rs := by unfold State.answer; split <;> rfl

@[simp] theorem State.answer_cs (s : State) (p : Port) (r : Answer) :
    (s.answer p r).cs = s.cs := by unfold State.answer; split <;> rfl

@[simp] theorem State.answer_host (s : State) (p : Port) (r : Answer) :
    (s.answer p r).host = s.host := by unfold State.answer; split <;> rfl

@[simp] theorem State.answer_signals (s : State) (p : Port) (r : Answer) :
    (s.answer p r).signals = s.signals := by unfold State.answer; split <;> rfl

@[simp] theorem State.answer_sideband (s : State) (p : Port) (r : Answer) :
    (s.answer p r).sideband = s.sideband := by unfold State.answer; split <;> rfl

@[simp] theorem State.answer_free (s : State) (p : Port) (r : Answer) :
    (s.answer p r).free = s.free := by unfold State.answer; split <;> rfl

@[simp] theorem State.answer_pending (s : State) (p : Port) (r : Answer) :
    (s.answer p r).pending = s.pending := by unfold State.answer; split <;> rfl

/-! ### dropAccess -/

@[simp] theorem State.dropAccess_mg (s : State) :
    (s.dropAccess).mg = s.mg := rfl

@[simp] theorem State.dropAccess_hp_portA (s : State) :
    (s.dropAccess).hp.portA = s.hp.portA := rfl

@[simp] theorem State.dropAccess_hp_portB (s : State) :
    (s.dropAccess).hp.portB = s.hp.portB := rfl

@[simp] theorem State.dropAccess_hp_rwldrop (s : State) :
    (s.dropAccess).hp.rwldrop = s.hp.rwldrop := rfl

@[simp] theorem State.dropAccess_hp_rwlPort (s : State) :
    (s.dropAccess).hp.rwlPort = s.hp.rwlPort := rfl

@[simp] theorem State.dropAccess_hp_rwlOff (s : State) :
    (s.dropAccess).hp.rwlOff = s.hp.rwlOff := rfl

@[simp] theorem State.dropAccess_hp_hasperr (s : State) :
    (s.dropAccess).hp.hasperr = s.hp.hasperr := rfl

@[simp] theorem State.dropAccess_hp_cachereq (s : State) :
    (s.dropAccess).hp.cachereq = s.hp.cachereq := rfl

@[simp] theorem State.dropAccess_hp_hasps (s : State) :
    (s.dropAccess).hp.hasps = s.hp.hasps := rfl

@[simp] theorem State.dropAccess_hp_downA (s : State) :
    (s.dropAccess).hp.downA = s.hp.downA := rfl

@[simp] theorem State.dropAccess_hp_downB (s : State) :
    (s.dropAccess).hp.downB = s.hp.downB := rfl

@[simp] theorem State.dropAccess_hp_freedA (s : State) :
    (s.dropAccess).hp.freedA = s.hp.freedA := rfl

@[simp] theorem State.dropAccess_hp_freedB (s : State) :
    (s.dropAccess).hp.freedB = s.hp.freedB := rfl

@[simp] theorem State.dropAccess_hp_broke (s : State) :
    (s.dropAccess).hp.broke = s.hp.broke := rfl

@[simp] theorem State.dropAccess_hp_lastbrk (s : State) :
    (s.dropAccess).hp.lastbrk = s.hp.lastbrk := rfl

@[simp] theorem State.dropAccess_hp_evicts (s : State) :
    (s.dropAccess).hp.evicts = s.hp.evicts := rfl

@[simp] theorem State.dropAccess_hp_ansA (s : State) :
    (s.dropAccess).hp.ansA = s.hp.ansA := rfl

@[simp] theorem State.dropAccess_hp_ansB (s : State) :
    (s.dropAccess).hp.ansB = s.hp.ansB := rfl

@[simp] theorem State.dropAccess_fe (s : State) :
    (s.dropAccess).fe = s.fe := rfl

@[simp] theorem State.dropAccess_cx (s : State) :
    (s.dropAccess).cx = s.cx := rfl

@[simp] theorem State.dropAccess_sites (s : State) :
    (s.dropAccess).sites = s.sites := rfl

@[simp] theorem State.dropAccess_groups (s : State) :
    (s.dropAccess).groups = s.groups := rfl

@[simp] theorem State.dropAccess_mgens (s : State) :
    (s.dropAccess).mgens = s.mgens := rfl

@[simp] theorem State.dropAccess_models (s : State) :
    (s.dropAccess).models = s.models := rfl

@[simp] theorem State.dropAccess_runs (s : State) :
    (s.dropAccess).runs = s.runs := rfl

@[simp] theorem State.dropAccess_hb (s : State) :
    (s.dropAccess).hb = s.hb := rfl

@[simp] theorem State.dropAccess_fb (s : State) :
    (s.dropAccess).fb = s.fb := rfl

@[simp] theorem State.dropAccess_pr (s : State) :
    (s.dropAccess).pr = s.pr := rfl

@[simp] theorem State.dropAccess_st (s : State) :
    (s.dropAccess).st = s.st := rfl

@[simp] theorem State.dropAccess_rn (s : State) :
    (s.dropAccess).rn = s.rn := rfl

@[simp] theorem State.dropAccess_pw (s : State) :
    (s.dropAccess).pw = s.pw := rfl

@[simp] theorem State.dropAccess_dw (s : State) :
    (s.dropAccess).dw = s.dw := rfl

@[simp] theorem State.dropAccess_rs (s : State) :
    (s.dropAccess).rs = s.rs := rfl

@[simp] theorem State.dropAccess_cs (s : State) :
    (s.dropAccess).cs = s.cs := rfl

@[simp] theorem State.dropAccess_host (s : State) :
    (s.dropAccess).host = s.host := rfl

@[simp] theorem State.dropAccess_signals (s : State) :
    (s.dropAccess).signals = s.signals := rfl

@[simp] theorem State.dropAccess_sideband (s : State) :
    (s.dropAccess).sideband = s.sideband := rfl

@[simp] theorem State.dropAccess_free (s : State) :
    (s.dropAccess).free = s.free := rfl

@[simp] theorem State.dropAccess_pending (s : State) :
    (s.dropAccess).pending = s.pending := rfl

/-! ### badAccess -/

@[simp] theorem State.badAccess_mg (s : State) (p : Port) :
    (s.badAccess p).mg = s.mg := by cases p <;> rfl

@[simp] theorem State.badAccess_hp_portA (s : State) (p : Port) :
    (s.badAccess p).hp.portA = s.hp.portA := by cases p <;> rfl

@[simp] theorem State.badAccess_hp_portB (s : State) (p : Port) :
    (s.badAccess p).hp.portB = s.hp.portB := by cases p <;> rfl

@[simp] theorem State.badAccess_hp_rwldrop (s : State) (p : Port) :
    (s.badAccess p).hp.rwldrop = s.hp.rwldrop := by cases p <;> rfl

@[simp] theorem State.badAccess_hp_rwlPort (s : State) (p : Port) :
    (s.badAccess p).hp.rwlPort = s.hp.rwlPort := by cases p <;> rfl

@[simp] theorem State.badAccess_hp_rwlOff (s : State) (p : Port) :
    (s.badAccess p).hp.rwlOff = s.hp.rwlOff := by cases p <;> rfl

@[simp] theorem State.badAccess_hp_hasperr (s : State) (p : Port) :
    (s.badAccess p).hp.hasperr = s.hp.hasperr := by cases p <;> rfl

@[simp] theorem State.badAccess_hp_cachereq (s : State) (p : Port) :
    (s.badAccess p).hp.cachereq = s.hp.cachereq := by cases p <;> rfl

@[simp] theorem State.badAccess_hp_hasps (s : State) (p : Port) :
    (s.badAccess p).hp.hasps = s.hp.hasps := by cases p <;> rfl

@[simp] theorem State.badAccess_hp_downA (s : State) (p : Port) :
    (s.badAccess p).hp.downA = s.hp.downA := by cases p <;> rfl

@[simp] theorem State.badAccess_hp_downB (s : State) (p : Port) :
    (s.badAccess p).hp.downB = s.hp.downB := by cases p <;> rfl

@[simp] theorem State.badAccess_hp_freedA (s : State) (p : Port) :
    (s.badAccess p).hp.freedA = s.hp.freedA := by cases p <;> rfl

@[simp] theorem State.badAccess_hp_freedB (s : State) (p : Port) :
    (s.badAccess p).hp.freedB = s.hp.freedB := by cases p <;> rfl

@[simp] theorem State.badAccess_hp_broke (s : State) (p : Port) :
    (s.badAccess p).hp.broke = s.hp.broke := by cases p <;> rfl

@[simp] theorem State.badAccess_hp_lastbrk (s : State) (p : Port) :
    (s.badAccess p).hp.lastbrk = s.hp.lastbrk := by cases p <;> rfl

@[simp] theorem State.badAccess_hp_evicts (s : State) (p : Port) :
    (s.badAccess p).hp.evicts = s.hp.evicts := by cases p <;> rfl

@[simp] theorem State.badAccess_fe (s : State) (p : Port) :
    (s.badAccess p).fe = s.fe := by cases p <;> rfl

@[simp] theorem State.badAccess_cx (s : State) (p : Port) :
    (s.badAccess p).cx = s.cx := by cases p <;> rfl

@[simp] theorem State.badAccess_sites (s : State) (p : Port) :
    (s.badAccess p).sites = s.sites := by cases p <;> rfl

@[simp] theorem State.badAccess_groups (s : State) (p : Port) :
    (s.badAccess p).groups = s.groups := by cases p <;> rfl

@[simp] theorem State.badAccess_mgens (s : State) (p : Port) :
    (s.badAccess p).mgens = s.mgens := by cases p <;> rfl

@[simp] theorem State.badAccess_models (s : State) (p : Port) :
    (s.badAccess p).models = s.models := by cases p <;> rfl

@[simp] theorem State.badAccess_runs (s : State) (p : Port) :
    (s.badAccess p).runs = s.runs := by cases p <;> rfl

@[simp] theorem State.badAccess_hb (s : State) (p : Port) :
    (s.badAccess p).hb = s.hb := by cases p <;> rfl

@[simp] theorem State.badAccess_fb (s : State) (p : Port) :
    (s.badAccess p).fb = s.fb := by cases p <;> rfl

@[simp] theorem State.badAccess_pr (s : State) (p : Port) :
    (s.badAccess p).pr = s.pr := by cases p <;> rfl

@[simp] theorem State.badAccess_st (s : State) (p : Port) :
    (s.badAccess p).st = s.st := by cases p <;> rfl

@[simp] theorem State.badAccess_rn (s : State) (p : Port) :
    (s.badAccess p).rn = s.rn := by cases p <;> rfl

@[simp] theorem State.badAccess_pw (s : State) (p : Port) :
    (s.badAccess p).pw = s.pw := by cases p <;> rfl

@[simp] theorem State.badAccess_dw (s : State) (p : Port) :
    (s.badAccess p).dw = s.dw := by cases p <;> rfl

@[simp] theorem State.badAccess_rs (s : State) (p : Port) :
    (s.badAccess p).rs = s.rs := by cases p <;> rfl

@[simp] theorem State.badAccess_cs (s : State) (p : Port) :
    (s.badAccess p).cs = s.cs := by cases p <;> rfl

@[simp] theorem State.badAccess_host (s : State) (p : Port) :
    (s.badAccess p).host = s.host := by cases p <;> rfl

@[simp] theorem State.badAccess_signals (s : State) (p : Port) :
    (s.badAccess p).signals = s.signals := by cases p <;> rfl

@[simp] theorem State.badAccess_sideband (s : State) (p : Port) :
    (s.badAccess p).sideband = s.sideband := by cases p <;> rfl

@[simp] theorem State.badAccess_free (s : State) (p : Port) :
    (s.badAccess p).free = s.free := by cases p <;> rfl

@[simp] theorem State.badAccess_pending (s : State) (p : Port) :
    (s.badAccess p).pending = s.pending := by cases p <;> rfl

/-! ### sendSignal -/

@[simp] theorem State.sendSignal_mg (s : State) (p : Port) (vector : Nat) :
    (s.sendSignal p vector).mg = s.mg := by unfold State.sendSignal State.wakeLink State.setPort; repeat' (first | rfl | split)

@[simp] theorem State.sendSignal_hp_rwldrop (s : State) (p : Port) (vector : Nat) :
    (s.sendSignal p vector).hp.rwldrop = s.hp.rwldrop := by unfold State.sendSignal State.wakeLink State.setPort; repeat' (first | rfl | split)

@[simp] theorem State.sendSignal_hp_rwlPort (s : State) (p : Port) (vector : Nat) :
    (s.sendSignal p vector).hp.rwlPort = s.hp.rwlPort := by unfold State.sendSignal State.wakeLink State.setPort; repeat' (first | rfl | split)

@[simp] theorem State.sendSignal_hp_rwlOff (s : State) (p : Port) (vector : Nat) :
    (s.sendSignal p vector).hp.rwlOff = s.hp.rwlOff := by unfold State.sendSignal State.wakeLink State.setPort; repeat' (first | rfl | split)

@[simp] theorem State.sendSignal_hp_hasperr (s : State) (p : Port) (vector : Nat) :
    (s.sendSignal p vector).hp.hasperr = s.hp.hasperr := by unfold State.sendSignal State.wakeLink State.setPort; repeat' (first | rfl | split)

@[simp] theorem State.sendSignal_hp_badacc (s : State) (p : Port) (vector : Nat) :
    (s.sendSignal p vector).hp.badacc = s.hp.badacc := by unfold State.sendSignal State.wakeLink State.setPort; repeat' (first | rfl | split)

@[simp] theorem State.sendSignal_hp_cachereq (s : State) (p : Port) (vector : Nat) :
    (s.sendSignal p vector).hp.cachereq = s.hp.cachereq := by unfold State.sendSignal State.wakeLink State.setPort; repeat' (first | rfl | split)

@[simp] theorem State.sendSignal_hp_hasps (s : State) (p : Port) (vector : Nat) :
    (s.sendSignal p vector).hp.hasps = s.hp.hasps := by unfold State.sendSignal State.wakeLink State.setPort; repeat' (first | rfl | split)

@[simp] theorem State.sendSignal_hp_downA (s : State) (p : Port) (vector : Nat) :
    (s.sendSignal p vector).hp.downA = s.hp.downA := by unfold State.sendSignal State.wakeLink State.setPort; repeat' (first | rfl | split)

@[simp] theorem State.sendSignal_hp_downB (s : State) (p : Port) (vector : Nat) :
    (s.sendSignal p vector).hp.downB = s.hp.downB := by unfold State.sendSignal State.wakeLink State.setPort; repeat' (first | rfl | split)

@[simp] theorem State.sendSignal_hp_freedA (s : State) (p : Port) (vector : Nat) :
    (s.sendSignal p vector).hp.freedA = s.hp.freedA := by unfold State.sendSignal State.wakeLink State.setPort; repeat' (first | rfl | split)

@[simp] theorem State.sendSignal_hp_freedB (s : State) (p : Port) (vector : Nat) :
    (s.sendSignal p vector).hp.freedB = s.hp.freedB := by unfold State.sendSignal State.wakeLink State.setPort; repeat' (first | rfl | split)

@[simp] theorem State.sendSignal_hp_broke (s : State) (p : Port) (vector : Nat) :
    (s.sendSignal p vector).hp.broke = s.hp.broke := by unfold State.sendSignal State.wakeLink State.setPort; repeat' (first | rfl | split)

@[simp] theorem State.sendSignal_hp_lastbrk (s : State) (p : Port) (vector : Nat) :
    (s.sendSignal p vector).hp.lastbrk = s.hp.lastbrk := by unfold State.sendSignal State.wakeLink State.setPort; repeat' (first | rfl | split)

@[simp] theorem State.sendSignal_hp_evicts (s : State) (p : Port) (vector : Nat) :
    (s.sendSignal p vector).hp.evicts = s.hp.evicts := by unfold State.sendSignal State.wakeLink State.setPort; repeat' (first | rfl | split)

@[simp] theorem State.sendSignal_hp_ansA (s : State) (p : Port) (vector : Nat) :
    (s.sendSignal p vector).hp.ansA = s.hp.ansA := by unfold State.sendSignal State.wakeLink State.setPort; repeat' (first | rfl | split)

@[simp] theorem State.sendSignal_hp_ansB (s : State) (p : Port) (vector : Nat) :
    (s.sendSignal p vector).hp.ansB = s.hp.ansB := by unfold State.sendSignal State.wakeLink State.setPort; repeat' (first | rfl | split)

@[simp] theorem State.sendSignal_fe (s : State) (p : Port) (vector : Nat) :
    (s.sendSignal p vector).fe = s.fe := by unfold State.sendSignal State.wakeLink State.setPort; repeat' (first | rfl | split)

@[simp] theorem State.sendSignal_cx (s : State) (p : Port) (vector : Nat) :
    (s.sendSignal p vector).cx = s.cx := by unfold State.sendSignal State.wakeLink State.setPort; repeat' (first | rfl | split)

@[simp] theorem State.sendSignal_sites (s : State) (p : Port) (vector : Nat) :
    (s.sendSignal p vector).sites = s.sites := by unfold State.sendSignal State.wakeLink State.setPort; repeat' (first | rfl | split)

@[simp] theorem State.sendSignal_groups (s : State) (p : Port) (vector : Nat) :
    (s.sendSignal p vector).groups = s.groups := by unfold State.sendSignal State.wakeLink State.setPort; repeat' (first | rfl | split)

@[simp] theorem State.sendSignal_mgens (s : State) (p : Port) (vector : Nat) :
    (s.sendSignal p vector).mgens = s.mgens := by unfold State.sendSignal State.wakeLink State.setPort; repeat' (first | rfl | split)

@[simp] theorem State.sendSignal_models (s : State) (p : Port) (vector : Nat) :
    (s.sendSignal p vector).models = s.models := by unfold State.sendSignal State.wakeLink State.setPort; repeat' (first | rfl | split)

@[simp] theorem State.sendSignal_runs (s : State) (p : Port) (vector : Nat) :
    (s.sendSignal p vector).runs = s.runs := by unfold State.sendSignal State.wakeLink State.setPort; repeat' (first | rfl | split)

@[simp] theorem State.sendSignal_hb (s : State) (p : Port) (vector : Nat) :
    (s.sendSignal p vector).hb = s.hb := by unfold State.sendSignal State.wakeLink State.setPort; repeat' (first | rfl | split)

@[simp] theorem State.sendSignal_fb (s : State) (p : Port) (vector : Nat) :
    (s.sendSignal p vector).fb = s.fb := by unfold State.sendSignal State.wakeLink State.setPort; repeat' (first | rfl | split)

@[simp] theorem State.sendSignal_pr (s : State) (p : Port) (vector : Nat) :
    (s.sendSignal p vector).pr = s.pr := by unfold State.sendSignal State.wakeLink State.setPort; repeat' (first | rfl | split)

@[simp] theorem State.sendSignal_st (s : State) (p : Port) (vector : Nat) :
    (s.sendSignal p vector).st = s.st := by unfold State.sendSignal State.wakeLink State.setPort; repeat' (first | rfl | split)

@[simp] theorem State.sendSignal_rn (s : State) (p : Port) (vector : Nat) :
    (s.sendSignal p vector).rn = s.rn := by unfold State.sendSignal State.wakeLink State.setPort; repeat' (first | rfl | split)

@[simp] theorem State.sendSignal_pw (s : State) (p : Port) (vector : Nat) :
    (s.sendSignal p vector).pw = s.pw := by unfold State.sendSignal State.wakeLink State.setPort; repeat' (first | rfl | split)

@[simp] theorem State.sendSignal_dw (s : State) (p : Port) (vector : Nat) :
    (s.sendSignal p vector).dw = s.dw := by unfold State.sendSignal State.wakeLink State.setPort; repeat' (first | rfl | split)

@[simp] theorem State.sendSignal_rs (s : State) (p : Port) (vector : Nat) :
    (s.sendSignal p vector).rs = s.rs := by unfold State.sendSignal State.wakeLink State.setPort; repeat' (first | rfl | split)

@[simp] theorem State.sendSignal_cs (s : State) (p : Port) (vector : Nat) :
    (s.sendSignal p vector).cs = s.cs := by unfold State.sendSignal State.wakeLink State.setPort; repeat' (first | rfl | split)

@[simp] theorem State.sendSignal_host (s : State) (p : Port) (vector : Nat) :
    (s.sendSignal p vector).host = s.host := by unfold State.sendSignal State.wakeLink State.setPort; repeat' (first | rfl | split)

@[simp] theorem State.sendSignal_sideband (s : State) (p : Port) (vector : Nat) :
    (s.sendSignal p vector).sideband = s.sideband := by unfold State.sendSignal State.wakeLink State.setPort; repeat' (first | rfl | split)

@[simp] theorem State.sendSignal_free (s : State) (p : Port) (vector : Nat) :
    (s.sendSignal p vector).free = s.free := by unfold State.sendSignal State.wakeLink State.setPort; repeat' (first | rfl | split)

@[simp] theorem State.sendSignal_pending (s : State) (p : Port) (vector : Nat) :
    (s.sendSignal p vector).pending = s.pending := by unfold State.sendSignal State.wakeLink State.setPort; repeat' (first | rfl | split)

/-! ### eventSignal -/



/-! ### updCtx -/

@[simp] theorem State.updCtx_mg (s : State) (id : Nat) (f : Ctx → Ctx) :
    (s.updCtx id f).mg = s.mg := by unfold State.updCtx; split <;> rfl

@[simp] theorem State.updCtx_hp (s : State) (id : Nat) (f : Ctx → Ctx) :
    (s.updCtx id f).hp = s.hp := by unfold State.updCtx; split <;> rfl

@[simp] theorem State.updCtx_fe (s : State) (id : Nat) (f : Ctx → Ctx) :
    (s.updCtx id f).fe = s.fe := by unfold State.updCtx; split <;> rfl

@[simp] theorem State.updCtx_cx_window (s : State) (id : Nat) (f : Ctx → Ctx) :
    (s.updCtx id f).cx.window = s.cx.window := by unfold State.updCtx; split <;> rfl

@[simp] theorem State.updCtx_cx_k (s : State) (id : Nat) (f : Ctx → Ctx) :
    (s.updCtx id f).cx.k = s.cx.k := by unfold State.updCtx; split <;> rfl

@[simp] theorem State.updCtx_cx_auto (s : State) (id : Nat) (f : Ctx → Ctx) :
    (s.updCtx id f).cx.auto = s.cx.auto := by unfold State.updCtx; split <;> rfl

@[simp] theorem State.updCtx_cx_fTag (s : State) (id : Nat) (f : Ctx → Ctx) :
    (s.updCtx id f).cx.fTag = s.cx.fTag := by unfold State.updCtx; split <;> rfl

@[simp] theorem State.updCtx_cx_fCause (s : State) (id : Nat) (f : Ctx → Ctx) :
    (s.updCtx id f).cx.fCause = s.cx.fCause := by unfold State.updCtx; split <;> rfl

@[simp] theorem State.updCtx_cx_fValid (s : State) (id : Nat) (f : Ctx → Ctx) :
    (s.updCtx id f).cx.fValid = s.cx.fValid := by unfold State.updCtx; split <;> rfl

@[simp] theorem State.updCtx_cx_fMore (s : State) (id : Nat) (f : Ctx → Ctx) :
    (s.updCtx id f).cx.fMore = s.cx.fMore := by unfold State.updCtx; split <;> rfl

@[simp] theorem State.updCtx_cx_fLe (s : State) (id : Nat) (f : Ctx → Ctx) :
    (s.updCtx id f).cx.fLe = s.cx.fLe := by unfold State.updCtx; split <;> rfl

@[simp] theorem State.updCtx_cx_fSu (s : State) (id : Nat) (f : Ctx → Ctx) :
    (s.updCtx id f).cx.fSu = s.cx.fSu := by unfold State.updCtx; split <;> rfl

@[simp] theorem State.updCtx_cx_fIdx (s : State) (id : Nat) (f : Ctx → Ctx) :
    (s.updCtx id f).cx.fIdx = s.cx.fIdx := by unfold State.updCtx; split <;> rfl

@[simp] theorem State.updCtx_cx_fTick (s : State) (id : Nat) (f : Ctx → Ctx) :
    (s.updCtx id f).cx.fTick = s.cx.fTick := by unfold State.updCtx; split <;> rfl

@[simp] theorem State.updCtx_cx_mpfault (s : State) (id : Nat) (f : Ctx → Ctx) :
    (s.updCtx id f).cx.mpfault = s.cx.mpfault := by unfold State.updCtx; split <;> rfl

@[simp] theorem State.updCtx_cx_mpcause (s : State) (id : Nat) (f : Ctx → Ctx) :
    (s.updCtx id f).cx.mpcause = s.cx.mpcause := by unfold State.updCtx; split <;> rfl

@[simp] theorem State.updCtx_cx_autorst (s : State) (id : Nat) (f : Ctx → Ctx) :
    (s.updCtx id f).cx.autorst = s.cx.autorst := by unfold State.updCtx; split <;> rfl

@[simp] theorem State.updCtx_cx_stale (s : State) (id : Nat) (f : Ctx → Ctx) :
    (s.updCtx id f).cx.stale = s.cx.stale := by unfold State.updCtx; split <;> rfl

@[simp] theorem State.updCtx_cx_hungSet (s : State) (id : Nat) (f : Ctx → Ctx) :
    (s.updCtx id f).cx.hungSet = s.cx.hungSet := by unfold State.updCtx; split <;> rfl

@[simp] theorem State.updCtx_cx_selA (s : State) (id : Nat) (f : Ctx → Ctx) :
    (s.updCtx id f).cx.selA = s.cx.selA := by unfold State.updCtx; split <;> rfl

@[simp] theorem State.updCtx_cx_selB (s : State) (id : Nat) (f : Ctx → Ctx) :
    (s.updCtx id f).cx.selB = s.cx.selB := by unfold State.updCtx; split <;> rfl

@[simp] theorem State.updCtx_cx_pselA (s : State) (id : Nat) (f : Ctx → Ctx) :
    (s.updCtx id f).cx.pselA = s.cx.pselA := by unfold State.updCtx; split <;> rfl

@[simp] theorem State.updCtx_cx_pselB (s : State) (id : Nat) (f : Ctx → Ctx) :
    (s.updCtx id f).cx.pselB = s.cx.pselB := by unfold State.updCtx; split <;> rfl

@[simp] theorem State.updCtx_cx_progress (s : State) (id : Nat) (f : Ctx → Ctx) :
    (s.updCtx id f).cx.progress = s.cx.progress := by unfold State.updCtx; split <;> rfl

@[simp] theorem State.updCtx_sites (s : State) (id : Nat) (f : Ctx → Ctx) :
    (s.updCtx id f).sites = s.sites := by unfold State.updCtx; split <;> rfl

@[simp] theorem State.updCtx_groups (s : State) (id : Nat) (f : Ctx → Ctx) :
    (s.updCtx id f).groups = s.groups := by unfold State.updCtx; split <;> rfl

@[simp] theorem State.updCtx_mgens (s : State) (id : Nat) (f : Ctx → Ctx) :
    (s.updCtx id f).mgens = s.mgens := by unfold State.updCtx; split <;> rfl

@[simp] theorem State.updCtx_models (s : State) (id : Nat) (f : Ctx → Ctx) :
    (s.updCtx id f).models = s.models := by unfold State.updCtx; split <;> rfl

@[simp] theorem State.updCtx_runs (s : State) (id : Nat) (f : Ctx → Ctx) :
    (s.updCtx id f).runs = s.runs := by unfold State.updCtx; split <;> rfl

@[simp] theorem State.updCtx_hb (s : State) (id : Nat) (f : Ctx → Ctx) :
    (s.updCtx id f).hb = s.hb := by unfold State.updCtx; split <;> rfl

@[simp] theorem State.updCtx_fb (s : State) (id : Nat) (f : Ctx → Ctx) :
    (s.updCtx id f).fb = s.fb := by unfold State.updCtx; split <;> rfl

@[simp] theorem State.updCtx_pr (s : State) (id : Nat) (f : Ctx → Ctx) :
    (s.updCtx id f).pr = s.pr := by unfold State.updCtx; split <;> rfl

@[simp] theorem State.updCtx_st (s : State) (id : Nat) (f : Ctx → Ctx) :
    (s.updCtx id f).st = s.st := by unfold State.updCtx; split <;> rfl

@[simp] theorem State.updCtx_rn (s : State) (id : Nat) (f : Ctx → Ctx) :
    (s.updCtx id f).rn = s.rn := by unfold State.updCtx; split <;> rfl

@[simp] theorem State.updCtx_pw (s : State) (id : Nat) (f : Ctx → Ctx) :
    (s.updCtx id f).pw = s.pw := by unfold State.updCtx; split <;> rfl

@[simp] theorem State.updCtx_dw (s : State) (id : Nat) (f : Ctx → Ctx) :
    (s.updCtx id f).dw = s.dw := by unfold State.updCtx; split <;> rfl

@[simp] theorem State.updCtx_rs (s : State) (id : Nat) (f : Ctx → Ctx) :
    (s.updCtx id f).rs = s.rs := by unfold State.updCtx; split <;> rfl

@[simp] theorem State.updCtx_cs (s : State) (id : Nat) (f : Ctx → Ctx) :
    (s.updCtx id f).cs = s.cs := by unfold State.updCtx; split <;> rfl

@[simp] theorem State.updCtx_host (s : State) (id : Nat) (f : Ctx → Ctx) :
    (s.updCtx id f).host = s.host := by unfold State.updCtx; split <;> rfl

@[simp] theorem State.updCtx_signals (s : State) (id : Nat) (f : Ctx → Ctx) :
    (s.updCtx id f).signals = s.signals := by unfold State.updCtx; split <;> rfl

@[simp] theorem State.updCtx_sideband (s : State) (id : Nat) (f : Ctx → Ctx) :
    (s.updCtx id f).sideband = s.sideband := by unfold State.updCtx; split <;> rfl

@[simp] theorem State.updCtx_free (s : State) (id : Nat) (f : Ctx → Ctx) :
    (s.updCtx id f).free = s.free := by unfold State.updCtx; split <;> rfl

@[simp] theorem State.updCtx_pending (s : State) (id : Nat) (f : Ctx → Ctx) :
    (s.updCtx id f).pending = s.pending := by unfold State.updCtx; split <;> rfl

/-! ### updSite -/

@[simp] theorem State.updSite_mg (s : State) (i : Nat) (f : Site → Site) :
    (s.updSite i f).mg = s.mg := rfl

@[simp] theorem State.updSite_hp (s : State) (i : Nat) (f : Site → Site) :
    (s.updSite i f).hp = s.hp := rfl

@[simp] theorem State.updSite_fe (s : State) (i : Nat) (f : Site → Site) :
    (s.updSite i f).fe = s.fe := rfl

@[simp] theorem State.updSite_cx (s : State) (i : Nat) (f : Site → Site) :
    (s.updSite i f).cx = s.cx := rfl

@[simp] theorem State.updSite_groups (s : State) (i : Nat) (f : Site → Site) :
    (s.updSite i f).groups = s.groups := rfl

@[simp] theorem State.updSite_mgens (s : State) (i : Nat) (f : Site → Site) :
    (s.updSite i f).mgens = s.mgens := rfl

@[simp] theorem State.updSite_models (s : State) (i : Nat) (f : Site → Site) :
    (s.updSite i f).models = s.models := rfl

@[simp] theorem State.updSite_runs (s : State) (i : Nat) (f : Site → Site) :
    (s.updSite i f).runs = s.runs := rfl

@[simp] theorem State.updSite_hb (s : State) (i : Nat) (f : Site → Site) :
    (s.updSite i f).hb = s.hb := rfl

@[simp] theorem State.updSite_fb (s : State) (i : Nat) (f : Site → Site) :
    (s.updSite i f).fb = s.fb := rfl

@[simp] theorem State.updSite_pr (s : State) (i : Nat) (f : Site → Site) :
    (s.updSite i f).pr = s.pr := rfl

@[simp] theorem State.updSite_st (s : State) (i : Nat) (f : Site → Site) :
    (s.updSite i f).st = s.st := rfl

@[simp] theorem State.updSite_rn (s : State) (i : Nat) (f : Site → Site) :
    (s.updSite i f).rn = s.rn := rfl

@[simp] theorem State.updSite_pw (s : State) (i : Nat) (f : Site → Site) :
    (s.updSite i f).pw = s.pw := rfl

@[simp] theorem State.updSite_dw (s : State) (i : Nat) (f : Site → Site) :
    (s.updSite i f).dw = s.dw := rfl

@[simp] theorem State.updSite_rs (s : State) (i : Nat) (f : Site → Site) :
    (s.updSite i f).rs = s.rs := rfl

@[simp] theorem State.updSite_cs (s : State) (i : Nat) (f : Site → Site) :
    (s.updSite i f).cs = s.cs := rfl

@[simp] theorem State.updSite_host (s : State) (i : Nat) (f : Site → Site) :
    (s.updSite i f).host = s.host := rfl

@[simp] theorem State.updSite_signals (s : State) (i : Nat) (f : Site → Site) :
    (s.updSite i f).signals = s.signals := rfl

@[simp] theorem State.updSite_sideband (s : State) (i : Nat) (f : Site → Site) :
    (s.updSite i f).sideband = s.sideband := rfl

@[simp] theorem State.updSite_free (s : State) (i : Nat) (f : Site → Site) :
    (s.updSite i f).free = s.free := rfl

@[simp] theorem State.updSite_pending (s : State) (i : Nat) (f : Site → Site) :
    (s.updSite i f).pending = s.pending := rfl

/-! ### updQueue -/

@[simp] theorem State.updQueue_mg (s : State) (n : Nat) (f : Queue → Queue) :
    (s.updQueue n f).mg = s.mg := rfl

@[simp] theorem State.updQueue_hp (s : State) (n : Nat) (f : Queue → Queue) :
    (s.updQueue n f).hp = s.hp := rfl

@[simp] theorem State.updQueue_fe_kqAddr (s : State) (n : Nat) (f : Queue → Queue) :
    (s.updQueue n f).fe.kqAddr = s.fe.kqAddr := rfl

@[simp] theorem State.updQueue_fe_kqStatus (s : State) (n : Nat) (f : Queue → Queue) :
    (s.updQueue n f).fe.kqStatus = s.fe.kqStatus := rfl

@[simp] theorem State.updQueue_fe_kqQueue (s : State) (n : Nat) (f : Queue → Queue) :
    (s.updQueue n f).fe.kqQueue = s.fe.kqQueue := rfl

@[simp] theorem State.updQueue_fe_kqGen (s : State) (n : Nat) (f : Queue → Queue) :
    (s.updQueue n f).fe.kqGen = s.fe.kqGen := rfl

@[simp] theorem State.updQueue_fe_slice (s : State) (n : Nat) (f : Queue → Queue) :
    (s.updQueue n f).fe.slice = s.fe.slice := rfl

@[simp] theorem State.updQueue_fe_age (s : State) (n : Nat) (f : Queue → Queue) :
    (s.updQueue n f).fe.age = s.fe.age := rfl

@[simp] theorem State.updQueue_fe_qselA (s : State) (n : Nat) (f : Queue → Queue) :
    (s.updQueue n f).fe.qselA = s.fe.qselA := rfl

@[simp] theorem State.updQueue_fe_qselB (s : State) (n : Nat) (f : Queue → Queue) :
    (s.updQueue n f).fe.qselB = s.fe.qselB := rfl

@[simp] theorem State.updQueue_fe_qerrValid (s : State) (n : Nat) (f : Queue → Queue) :
    (s.updQueue n f).fe.qerrValid = s.fe.qerrValid := rfl

@[simp] theorem State.updQueue_fe_qerrQueue (s : State) (n : Nat) (f : Queue → Queue) :
    (s.updQueue n f).fe.qerrQueue = s.fe.qerrQueue := rfl

@[simp] theorem State.updQueue_fe_qerrCause (s : State) (n : Nat) (f : Queue → Queue) :
    (s.updQueue n f).fe.qerrCause = s.fe.qerrCause := rfl

@[simp] theorem State.updQueue_fe_qerrLost (s : State) (n : Nat) (f : Queue → Queue) :
    (s.updQueue n f).fe.qerrLost = s.fe.qerrLost := rfl

@[simp] theorem State.updQueue_fe_qerrStale (s : State) (n : Nat) (f : Queue → Queue) :
    (s.updQueue n f).fe.qerrStale = s.fe.qerrStale := rfl

@[simp] theorem State.updQueue_fe_evVector (s : State) (n : Nat) (f : Queue → Queue) :
    (s.updQueue n f).fe.evVector = s.fe.evVector := rfl

@[simp] theorem State.updQueue_fe_evPortB (s : State) (n : Nat) (f : Queue → Queue) :
    (s.updQueue n f).fe.evPortB = s.fe.evPortB := rfl

@[simp] theorem State.updQueue_fe_evEn (s : State) (n : Nat) (f : Queue → Queue) :
    (s.updQueue n f).fe.evEn = s.fe.evEn := rfl

@[simp] theorem State.updQueue_fe_slots (s : State) (n : Nat) (f : Queue → Queue) :
    (s.updQueue n f).fe.slots = s.fe.slots := rfl

@[simp] theorem State.updQueue_fe_qgens (s : State) (n : Nat) (f : Queue → Queue) :
    (s.updQueue n f).fe.qgens = s.fe.qgens := rfl

@[simp] theorem State.updQueue_fe_requests (s : State) (n : Nat) (f : Queue → Queue) :
    (s.updQueue n f).fe.requests = s.fe.requests := rfl

@[simp] theorem State.updQueue_fe_chains (s : State) (n : Nat) (f : Queue → Queue) :
    (s.updQueue n f).fe.chains = s.fe.chains := rfl

@[simp] theorem State.updQueue_fe_overlay (s : State) (n : Nat) (f : Queue → Queue) :
    (s.updQueue n f).fe.overlay = s.fe.overlay := rfl

@[simp] theorem State.updQueue_fe_fenced (s : State) (n : Nat) (f : Queue → Queue) :
    (s.updQueue n f).fe.fenced = s.fe.fenced := rfl

@[simp] theorem State.updQueue_cx (s : State) (n : Nat) (f : Queue → Queue) :
    (s.updQueue n f).cx = s.cx := rfl

@[simp] theorem State.updQueue_sites (s : State) (n : Nat) (f : Queue → Queue) :
    (s.updQueue n f).sites = s.sites := rfl

@[simp] theorem State.updQueue_groups (s : State) (n : Nat) (f : Queue → Queue) :
    (s.updQueue n f).groups = s.groups := rfl

@[simp] theorem State.updQueue_mgens (s : State) (n : Nat) (f : Queue → Queue) :
    (s.updQueue n f).mgens = s.mgens := rfl

@[simp] theorem State.updQueue_models (s : State) (n : Nat) (f : Queue → Queue) :
    (s.updQueue n f).models = s.models := rfl

@[simp] theorem State.updQueue_runs (s : State) (n : Nat) (f : Queue → Queue) :
    (s.updQueue n f).runs = s.runs := rfl

@[simp] theorem State.updQueue_hb (s : State) (n : Nat) (f : Queue → Queue) :
    (s.updQueue n f).hb = s.hb := rfl

@[simp] theorem State.updQueue_fb (s : State) (n : Nat) (f : Queue → Queue) :
    (s.updQueue n f).fb = s.fb := rfl

@[simp] theorem State.updQueue_pr (s : State) (n : Nat) (f : Queue → Queue) :
    (s.updQueue n f).pr = s.pr := rfl

@[simp] theorem State.updQueue_st (s : State) (n : Nat) (f : Queue → Queue) :
    (s.updQueue n f).st = s.st := rfl

@[simp] theorem State.updQueue_rn (s : State) (n : Nat) (f : Queue → Queue) :
    (s.updQueue n f).rn = s.rn := rfl

@[simp] theorem State.updQueue_pw (s : State) (n : Nat) (f : Queue → Queue) :
    (s.updQueue n f).pw = s.pw := rfl

@[simp] theorem State.updQueue_dw (s : State) (n : Nat) (f : Queue → Queue) :
    (s.updQueue n f).dw = s.dw := rfl

@[simp] theorem State.updQueue_rs (s : State) (n : Nat) (f : Queue → Queue) :
    (s.updQueue n f).rs = s.rs := rfl

@[simp] theorem State.updQueue_cs (s : State) (n : Nat) (f : Queue → Queue) :
    (s.updQueue n f).cs = s.cs := rfl

@[simp] theorem State.updQueue_host (s : State) (n : Nat) (f : Queue → Queue) :
    (s.updQueue n f).host = s.host := rfl

@[simp] theorem State.updQueue_signals (s : State) (n : Nat) (f : Queue → Queue) :
    (s.updQueue n f).signals = s.signals := rfl

@[simp] theorem State.updQueue_sideband (s : State) (n : Nat) (f : Queue → Queue) :
    (s.updQueue n f).sideband = s.sideband := rfl

@[simp] theorem State.updQueue_free (s : State) (n : Nat) (f : Queue → Queue) :
    (s.updQueue n f).free = s.free := rfl

@[simp] theorem State.updQueue_pending (s : State) (n : Nat) (f : Queue → Queue) :
    (s.updQueue n f).pending = s.pending := rfl

/-! ### updReq -/

@[simp] theorem State.updReq_mg (s : State) (k : ReqKey) (f : Request → Request) :
    (s.updReq k f).mg = s.mg := rfl

@[simp] theorem State.updReq_hp (s : State) (k : ReqKey) (f : Request → Request) :
    (s.updReq k f).hp = s.hp := rfl

@[simp] theorem State.updReq_fe_kqAddr (s : State) (k : ReqKey) (f : Request → Request) :
    (s.updReq k f).fe.kqAddr = s.fe.kqAddr := rfl

@[simp] theorem State.updReq_fe_kqStatus (s : State) (k : ReqKey) (f : Request → Request) :
    (s.updReq k f).fe.kqStatus = s.fe.kqStatus := rfl

@[simp] theorem State.updReq_fe_kqQueue (s : State) (k : ReqKey) (f : Request → Request) :
    (s.updReq k f).fe.kqQueue = s.fe.kqQueue := rfl

@[simp] theorem State.updReq_fe_kqGen (s : State) (k : ReqKey) (f : Request → Request) :
    (s.updReq k f).fe.kqGen = s.fe.kqGen := rfl

@[simp] theorem State.updReq_fe_slice (s : State) (k : ReqKey) (f : Request → Request) :
    (s.updReq k f).fe.slice = s.fe.slice := rfl

@[simp] theorem State.updReq_fe_age (s : State) (k : ReqKey) (f : Request → Request) :
    (s.updReq k f).fe.age = s.fe.age := rfl

@[simp] theorem State.updReq_fe_qselA (s : State) (k : ReqKey) (f : Request → Request) :
    (s.updReq k f).fe.qselA = s.fe.qselA := rfl

@[simp] theorem State.updReq_fe_qselB (s : State) (k : ReqKey) (f : Request → Request) :
    (s.updReq k f).fe.qselB = s.fe.qselB := rfl

@[simp] theorem State.updReq_fe_qerrValid (s : State) (k : ReqKey) (f : Request → Request) :
    (s.updReq k f).fe.qerrValid = s.fe.qerrValid := rfl

@[simp] theorem State.updReq_fe_qerrQueue (s : State) (k : ReqKey) (f : Request → Request) :
    (s.updReq k f).fe.qerrQueue = s.fe.qerrQueue := rfl

@[simp] theorem State.updReq_fe_qerrCause (s : State) (k : ReqKey) (f : Request → Request) :
    (s.updReq k f).fe.qerrCause = s.fe.qerrCause := rfl

@[simp] theorem State.updReq_fe_qerrLost (s : State) (k : ReqKey) (f : Request → Request) :
    (s.updReq k f).fe.qerrLost = s.fe.qerrLost := rfl

@[simp] theorem State.updReq_fe_qerrStale (s : State) (k : ReqKey) (f : Request → Request) :
    (s.updReq k f).fe.qerrStale = s.fe.qerrStale := rfl

@[simp] theorem State.updReq_fe_evVector (s : State) (k : ReqKey) (f : Request → Request) :
    (s.updReq k f).fe.evVector = s.fe.evVector := rfl

@[simp] theorem State.updReq_fe_evPortB (s : State) (k : ReqKey) (f : Request → Request) :
    (s.updReq k f).fe.evPortB = s.fe.evPortB := rfl

@[simp] theorem State.updReq_fe_evEn (s : State) (k : ReqKey) (f : Request → Request) :
    (s.updReq k f).fe.evEn = s.fe.evEn := rfl

@[simp] theorem State.updReq_fe_slots (s : State) (k : ReqKey) (f : Request → Request) :
    (s.updReq k f).fe.slots = s.fe.slots := rfl

@[simp] theorem State.updReq_fe_qgens (s : State) (k : ReqKey) (f : Request → Request) :
    (s.updReq k f).fe.qgens = s.fe.qgens := rfl

@[simp] theorem State.updReq_fe_queues (s : State) (k : ReqKey) (f : Request → Request) :
    (s.updReq k f).fe.queues = s.fe.queues := rfl

@[simp] theorem State.updReq_fe_chains (s : State) (k : ReqKey) (f : Request → Request) :
    (s.updReq k f).fe.chains = s.fe.chains := rfl

@[simp] theorem State.updReq_fe_overlay (s : State) (k : ReqKey) (f : Request → Request) :
    (s.updReq k f).fe.overlay = s.fe.overlay := rfl

@[simp] theorem State.updReq_fe_fenced (s : State) (k : ReqKey) (f : Request → Request) :
    (s.updReq k f).fe.fenced = s.fe.fenced := rfl

@[simp] theorem State.updReq_cx (s : State) (k : ReqKey) (f : Request → Request) :
    (s.updReq k f).cx = s.cx := rfl

@[simp] theorem State.updReq_sites (s : State) (k : ReqKey) (f : Request → Request) :
    (s.updReq k f).sites = s.sites := rfl

@[simp] theorem State.updReq_groups (s : State) (k : ReqKey) (f : Request → Request) :
    (s.updReq k f).groups = s.groups := rfl

@[simp] theorem State.updReq_mgens (s : State) (k : ReqKey) (f : Request → Request) :
    (s.updReq k f).mgens = s.mgens := rfl

@[simp] theorem State.updReq_models (s : State) (k : ReqKey) (f : Request → Request) :
    (s.updReq k f).models = s.models := rfl

@[simp] theorem State.updReq_runs (s : State) (k : ReqKey) (f : Request → Request) :
    (s.updReq k f).runs = s.runs := rfl

@[simp] theorem State.updReq_hb (s : State) (k : ReqKey) (f : Request → Request) :
    (s.updReq k f).hb = s.hb := rfl

@[simp] theorem State.updReq_fb (s : State) (k : ReqKey) (f : Request → Request) :
    (s.updReq k f).fb = s.fb := rfl

@[simp] theorem State.updReq_pr (s : State) (k : ReqKey) (f : Request → Request) :
    (s.updReq k f).pr = s.pr := rfl

@[simp] theorem State.updReq_st (s : State) (k : ReqKey) (f : Request → Request) :
    (s.updReq k f).st = s.st := rfl

@[simp] theorem State.updReq_rn (s : State) (k : ReqKey) (f : Request → Request) :
    (s.updReq k f).rn = s.rn := rfl

@[simp] theorem State.updReq_pw (s : State) (k : ReqKey) (f : Request → Request) :
    (s.updReq k f).pw = s.pw := rfl

@[simp] theorem State.updReq_dw (s : State) (k : ReqKey) (f : Request → Request) :
    (s.updReq k f).dw = s.dw := rfl

@[simp] theorem State.updReq_rs (s : State) (k : ReqKey) (f : Request → Request) :
    (s.updReq k f).rs = s.rs := rfl

@[simp] theorem State.updReq_cs (s : State) (k : ReqKey) (f : Request → Request) :
    (s.updReq k f).cs = s.cs := rfl

@[simp] theorem State.updReq_host (s : State) (k : ReqKey) (f : Request → Request) :
    (s.updReq k f).host = s.host := rfl

@[simp] theorem State.updReq_signals (s : State) (k : ReqKey) (f : Request → Request) :
    (s.updReq k f).signals = s.signals := rfl

@[simp] theorem State.updReq_sideband (s : State) (k : ReqKey) (f : Request → Request) :
    (s.updReq k f).sideband = s.sideband := rfl

@[simp] theorem State.updReq_free (s : State) (k : ReqKey) (f : Request → Request) :
    (s.updReq k f).free = s.free := rfl

@[simp] theorem State.updReq_pending (s : State) (k : ReqKey) (f : Request → Request) :
    (s.updReq k f).pending = s.pending := rfl

/-! ### updModel -/

@[simp] theorem State.updModel_mg (s : State) (i : Nat) (f : Model → Model) :
    (s.updModel i f).mg = s.mg := rfl

@[simp] theorem State.updModel_hp (s : State) (i : Nat) (f : Model → Model) :
    (s.updModel i f).hp = s.hp := rfl

@[simp] theorem State.updModel_fe (s : State) (i : Nat) (f : Model → Model) :
    (s.updModel i f).fe = s.fe := rfl

@[simp] theorem State.updModel_cx (s : State) (i : Nat) (f : Model → Model) :
    (s.updModel i f).cx = s.cx := rfl

@[simp] theorem State.updModel_sites (s : State) (i : Nat) (f : Model → Model) :
    (s.updModel i f).sites = s.sites := rfl

@[simp] theorem State.updModel_groups (s : State) (i : Nat) (f : Model → Model) :
    (s.updModel i f).groups = s.groups := rfl

@[simp] theorem State.updModel_mgens (s : State) (i : Nat) (f : Model → Model) :
    (s.updModel i f).mgens = s.mgens := rfl

@[simp] theorem State.updModel_runs (s : State) (i : Nat) (f : Model → Model) :
    (s.updModel i f).runs = s.runs := rfl

@[simp] theorem State.updModel_hb (s : State) (i : Nat) (f : Model → Model) :
    (s.updModel i f).hb = s.hb := rfl

@[simp] theorem State.updModel_fb (s : State) (i : Nat) (f : Model → Model) :
    (s.updModel i f).fb = s.fb := rfl

@[simp] theorem State.updModel_pr (s : State) (i : Nat) (f : Model → Model) :
    (s.updModel i f).pr = s.pr := rfl

@[simp] theorem State.updModel_st (s : State) (i : Nat) (f : Model → Model) :
    (s.updModel i f).st = s.st := rfl

@[simp] theorem State.updModel_rn (s : State) (i : Nat) (f : Model → Model) :
    (s.updModel i f).rn = s.rn := rfl

@[simp] theorem State.updModel_pw (s : State) (i : Nat) (f : Model → Model) :
    (s.updModel i f).pw = s.pw := rfl

@[simp] theorem State.updModel_dw (s : State) (i : Nat) (f : Model → Model) :
    (s.updModel i f).dw = s.dw := rfl

@[simp] theorem State.updModel_rs (s : State) (i : Nat) (f : Model → Model) :
    (s.updModel i f).rs = s.rs := rfl

@[simp] theorem State.updModel_cs (s : State) (i : Nat) (f : Model → Model) :
    (s.updModel i f).cs = s.cs := rfl

@[simp] theorem State.updModel_host (s : State) (i : Nat) (f : Model → Model) :
    (s.updModel i f).host = s.host := rfl

@[simp] theorem State.updModel_signals (s : State) (i : Nat) (f : Model → Model) :
    (s.updModel i f).signals = s.signals := rfl

@[simp] theorem State.updModel_sideband (s : State) (i : Nat) (f : Model → Model) :
    (s.updModel i f).sideband = s.sideband := rfl

@[simp] theorem State.updModel_free (s : State) (i : Nat) (f : Model → Model) :
    (s.updModel i f).free = s.free := rfl

@[simp] theorem State.updModel_pending (s : State) (i : Nat) (f : Model → Model) :
    (s.updModel i f).pending = s.pending := rfl

/-! ### updNet -/

@[simp] theorem State.updNet_mg (s : State) (i : Nat) (f : Net → Net) :
    (s.updNet i f).mg = s.mg := rfl

@[simp] theorem State.updNet_hp (s : State) (i : Nat) (f : Net → Net) :
    (s.updNet i f).hp = s.hp := rfl

@[simp] theorem State.updNet_fe (s : State) (i : Nat) (f : Net → Net) :
    (s.updNet i f).fe = s.fe := rfl

@[simp] theorem State.updNet_cx (s : State) (i : Nat) (f : Net → Net) :
    (s.updNet i f).cx = s.cx := rfl

@[simp] theorem State.updNet_sites (s : State) (i : Nat) (f : Net → Net) :
    (s.updNet i f).sites = s.sites := rfl

@[simp] theorem State.updNet_groups (s : State) (i : Nat) (f : Net → Net) :
    (s.updNet i f).groups = s.groups := rfl

@[simp] theorem State.updNet_mgens (s : State) (i : Nat) (f : Net → Net) :
    (s.updNet i f).mgens = s.mgens := rfl

@[simp] theorem State.updNet_runs (s : State) (i : Nat) (f : Net → Net) :
    (s.updNet i f).runs = s.runs := rfl

@[simp] theorem State.updNet_hb (s : State) (i : Nat) (f : Net → Net) :
    (s.updNet i f).hb = s.hb := rfl

@[simp] theorem State.updNet_fb (s : State) (i : Nat) (f : Net → Net) :
    (s.updNet i f).fb = s.fb := rfl

@[simp] theorem State.updNet_pr (s : State) (i : Nat) (f : Net → Net) :
    (s.updNet i f).pr = s.pr := rfl

@[simp] theorem State.updNet_st (s : State) (i : Nat) (f : Net → Net) :
    (s.updNet i f).st = s.st := rfl

@[simp] theorem State.updNet_rn (s : State) (i : Nat) (f : Net → Net) :
    (s.updNet i f).rn = s.rn := rfl

@[simp] theorem State.updNet_pw (s : State) (i : Nat) (f : Net → Net) :
    (s.updNet i f).pw = s.pw := rfl

@[simp] theorem State.updNet_dw (s : State) (i : Nat) (f : Net → Net) :
    (s.updNet i f).dw = s.dw := rfl

@[simp] theorem State.updNet_rs (s : State) (i : Nat) (f : Net → Net) :
    (s.updNet i f).rs = s.rs := rfl

@[simp] theorem State.updNet_cs (s : State) (i : Nat) (f : Net → Net) :
    (s.updNet i f).cs = s.cs := rfl

@[simp] theorem State.updNet_host (s : State) (i : Nat) (f : Net → Net) :
    (s.updNet i f).host = s.host := rfl

@[simp] theorem State.updNet_signals (s : State) (i : Nat) (f : Net → Net) :
    (s.updNet i f).signals = s.signals := rfl

@[simp] theorem State.updNet_sideband (s : State) (i : Nat) (f : Net → Net) :
    (s.updNet i f).sideband = s.sideband := rfl

@[simp] theorem State.updNet_free (s : State) (i : Nat) (f : Net → Net) :
    (s.updNet i f).free = s.free := rfl

@[simp] theorem State.updNet_pending (s : State) (i : Nat) (f : Net → Net) :
    (s.updNet i f).pending = s.pending := rfl

/-! ### updStore -/

@[simp] theorem State.updStore_mg (s : State) (i : Nat) (f : Store → Store) :
    (s.updStore i f).mg = s.mg := rfl

@[simp] theorem State.updStore_hp (s : State) (i : Nat) (f : Store → Store) :
    (s.updStore i f).hp = s.hp := rfl

@[simp] theorem State.updStore_fe (s : State) (i : Nat) (f : Store → Store) :
    (s.updStore i f).fe = s.fe := rfl

@[simp] theorem State.updStore_cx (s : State) (i : Nat) (f : Store → Store) :
    (s.updStore i f).cx = s.cx := rfl

@[simp] theorem State.updStore_sites (s : State) (i : Nat) (f : Store → Store) :
    (s.updStore i f).sites = s.sites := rfl

@[simp] theorem State.updStore_groups (s : State) (i : Nat) (f : Store → Store) :
    (s.updStore i f).groups = s.groups := rfl

@[simp] theorem State.updStore_mgens (s : State) (i : Nat) (f : Store → Store) :
    (s.updStore i f).mgens = s.mgens := rfl

@[simp] theorem State.updStore_runs (s : State) (i : Nat) (f : Store → Store) :
    (s.updStore i f).runs = s.runs := rfl

@[simp] theorem State.updStore_hb (s : State) (i : Nat) (f : Store → Store) :
    (s.updStore i f).hb = s.hb := rfl

@[simp] theorem State.updStore_fb (s : State) (i : Nat) (f : Store → Store) :
    (s.updStore i f).fb = s.fb := rfl

@[simp] theorem State.updStore_pr (s : State) (i : Nat) (f : Store → Store) :
    (s.updStore i f).pr = s.pr := rfl

@[simp] theorem State.updStore_st (s : State) (i : Nat) (f : Store → Store) :
    (s.updStore i f).st = s.st := rfl

@[simp] theorem State.updStore_rn (s : State) (i : Nat) (f : Store → Store) :
    (s.updStore i f).rn = s.rn := rfl

@[simp] theorem State.updStore_pw (s : State) (i : Nat) (f : Store → Store) :
    (s.updStore i f).pw = s.pw := rfl

@[simp] theorem State.updStore_dw (s : State) (i : Nat) (f : Store → Store) :
    (s.updStore i f).dw = s.dw := rfl

@[simp] theorem State.updStore_rs (s : State) (i : Nat) (f : Store → Store) :
    (s.updStore i f).rs = s.rs := rfl

@[simp] theorem State.updStore_cs (s : State) (i : Nat) (f : Store → Store) :
    (s.updStore i f).cs = s.cs := rfl

@[simp] theorem State.updStore_host (s : State) (i : Nat) (f : Store → Store) :
    (s.updStore i f).host = s.host := rfl

@[simp] theorem State.updStore_signals (s : State) (i : Nat) (f : Store → Store) :
    (s.updStore i f).signals = s.signals := rfl

@[simp] theorem State.updStore_sideband (s : State) (i : Nat) (f : Store → Store) :
    (s.updStore i f).sideband = s.sideband := rfl

@[simp] theorem State.updStore_free (s : State) (i : Nat) (f : Store → Store) :
    (s.updStore i f).free = s.free := rfl

@[simp] theorem State.updStore_pending (s : State) (i : Nat) (f : Store → Store) :
    (s.updStore i f).pending = s.pending := rfl

/-! ### updRun -/

@[simp] theorem State.updRun_mg (s : State) (k : ReqKey) (f : Run → Run) :
    (s.updRun k f).mg = s.mg := rfl

@[simp] theorem State.updRun_hp (s : State) (k : ReqKey) (f : Run → Run) :
    (s.updRun k f).hp = s.hp := rfl

@[simp] theorem State.updRun_fe (s : State) (k : ReqKey) (f : Run → Run) :
    (s.updRun k f).fe = s.fe := rfl

@[simp] theorem State.updRun_cx (s : State) (k : ReqKey) (f : Run → Run) :
    (s.updRun k f).cx = s.cx := rfl

@[simp] theorem State.updRun_sites (s : State) (k : ReqKey) (f : Run → Run) :
    (s.updRun k f).sites = s.sites := rfl

@[simp] theorem State.updRun_groups (s : State) (k : ReqKey) (f : Run → Run) :
    (s.updRun k f).groups = s.groups := rfl

@[simp] theorem State.updRun_mgens (s : State) (k : ReqKey) (f : Run → Run) :
    (s.updRun k f).mgens = s.mgens := rfl

@[simp] theorem State.updRun_models (s : State) (k : ReqKey) (f : Run → Run) :
    (s.updRun k f).models = s.models := rfl

@[simp] theorem State.updRun_hb (s : State) (k : ReqKey) (f : Run → Run) :
    (s.updRun k f).hb = s.hb := rfl

@[simp] theorem State.updRun_fb (s : State) (k : ReqKey) (f : Run → Run) :
    (s.updRun k f).fb = s.fb := rfl

@[simp] theorem State.updRun_pr (s : State) (k : ReqKey) (f : Run → Run) :
    (s.updRun k f).pr = s.pr := rfl

@[simp] theorem State.updRun_st (s : State) (k : ReqKey) (f : Run → Run) :
    (s.updRun k f).st = s.st := rfl

@[simp] theorem State.updRun_rn (s : State) (k : ReqKey) (f : Run → Run) :
    (s.updRun k f).rn = s.rn := rfl

@[simp] theorem State.updRun_pw (s : State) (k : ReqKey) (f : Run → Run) :
    (s.updRun k f).pw = s.pw := rfl

@[simp] theorem State.updRun_dw (s : State) (k : ReqKey) (f : Run → Run) :
    (s.updRun k f).dw = s.dw := rfl

@[simp] theorem State.updRun_rs (s : State) (k : ReqKey) (f : Run → Run) :
    (s.updRun k f).rs = s.rs := rfl

@[simp] theorem State.updRun_cs (s : State) (k : ReqKey) (f : Run → Run) :
    (s.updRun k f).cs = s.cs := rfl

@[simp] theorem State.updRun_host (s : State) (k : ReqKey) (f : Run → Run) :
    (s.updRun k f).host = s.host := rfl

@[simp] theorem State.updRun_signals (s : State) (k : ReqKey) (f : Run → Run) :
    (s.updRun k f).signals = s.signals := rfl

@[simp] theorem State.updRun_sideband (s : State) (k : ReqKey) (f : Run → Run) :
    (s.updRun k f).sideband = s.sideband := rfl

@[simp] theorem State.updRun_free (s : State) (k : ReqKey) (f : Run → Run) :
    (s.updRun k f).free = s.free := rfl

@[simp] theorem State.updRun_pending (s : State) (k : ReqKey) (f : Run → Run) :
    (s.updRun k f).pending = s.pending := rfl

/-! ### updGroup -/

@[simp] theorem State.updGroup_mg (s : State) (o : GroupOwner) (f : Group → Group) :
    (s.updGroup o f).mg = s.mg := rfl

@[simp] theorem State.updGroup_hp (s : State) (o : GroupOwner) (f : Group → Group) :
    (s.updGroup o f).hp = s.hp := rfl

@[simp] theorem State.updGroup_fe (s : State) (o : GroupOwner) (f : Group → Group) :
    (s.updGroup o f).fe = s.fe := rfl

@[simp] theorem State.updGroup_cx (s : State) (o : GroupOwner) (f : Group → Group) :
    (s.updGroup o f).cx = s.cx := rfl

@[simp] theorem State.updGroup_sites (s : State) (o : GroupOwner) (f : Group → Group) :
    (s.updGroup o f).sites = s.sites := rfl

@[simp] theorem State.updGroup_mgens (s : State) (o : GroupOwner) (f : Group → Group) :
    (s.updGroup o f).mgens = s.mgens := rfl

@[simp] theorem State.updGroup_models (s : State) (o : GroupOwner) (f : Group → Group) :
    (s.updGroup o f).models = s.models := rfl

@[simp] theorem State.updGroup_runs (s : State) (o : GroupOwner) (f : Group → Group) :
    (s.updGroup o f).runs = s.runs := rfl

@[simp] theorem State.updGroup_hb (s : State) (o : GroupOwner) (f : Group → Group) :
    (s.updGroup o f).hb = s.hb := rfl

@[simp] theorem State.updGroup_fb (s : State) (o : GroupOwner) (f : Group → Group) :
    (s.updGroup o f).fb = s.fb := rfl

@[simp] theorem State.updGroup_pr (s : State) (o : GroupOwner) (f : Group → Group) :
    (s.updGroup o f).pr = s.pr := rfl

@[simp] theorem State.updGroup_st (s : State) (o : GroupOwner) (f : Group → Group) :
    (s.updGroup o f).st = s.st := rfl

@[simp] theorem State.updGroup_rn (s : State) (o : GroupOwner) (f : Group → Group) :
    (s.updGroup o f).rn = s.rn := rfl

@[simp] theorem State.updGroup_pw (s : State) (o : GroupOwner) (f : Group → Group) :
    (s.updGroup o f).pw = s.pw := rfl

@[simp] theorem State.updGroup_dw (s : State) (o : GroupOwner) (f : Group → Group) :
    (s.updGroup o f).dw = s.dw := rfl

@[simp] theorem State.updGroup_rs (s : State) (o : GroupOwner) (f : Group → Group) :
    (s.updGroup o f).rs = s.rs := rfl

@[simp] theorem State.updGroup_cs (s : State) (o : GroupOwner) (f : Group → Group) :
    (s.updGroup o f).cs = s.cs := rfl

@[simp] theorem State.updGroup_host (s : State) (o : GroupOwner) (f : Group → Group) :
    (s.updGroup o f).host = s.host := rfl

@[simp] theorem State.updGroup_signals (s : State) (o : GroupOwner) (f : Group → Group) :
    (s.updGroup o f).signals = s.signals := rfl

@[simp] theorem State.updGroup_sideband (s : State) (o : GroupOwner) (f : Group → Group) :
    (s.updGroup o f).sideband = s.sideband := rfl

@[simp] theorem State.updGroup_free (s : State) (o : GroupOwner) (f : Group → Group) :
    (s.updGroup o f).free = s.free := rfl

@[simp] theorem State.updGroup_pending (s : State) (o : GroupOwner) (f : Group → Group) :
    (s.updGroup o f).pending = s.pending := rfl

/-! ### updLane -/

@[simp] theorem State.updLane_mg (s : State) (l i : Nat) (f : Lane → Lane) :
    (s.updLane l i f).mg = s.mg := rfl

@[simp] theorem State.updLane_hp (s : State) (l i : Nat) (f : Lane → Lane) :
    (s.updLane l i f).hp = s.hp := rfl

@[simp] theorem State.updLane_fe (s : State) (l i : Nat) (f : Lane → Lane) :
    (s.updLane l i f).fe = s.fe := rfl

@[simp] theorem State.updLane_cx (s : State) (l i : Nat) (f : Lane → Lane) :
    (s.updLane l i f).cx = s.cx := rfl

@[simp] theorem State.updLane_sites (s : State) (l i : Nat) (f : Lane → Lane) :
    (s.updLane l i f).sites = s.sites := rfl

@[simp] theorem State.updLane_groups (s : State) (l i : Nat) (f : Lane → Lane) :
    (s.updLane l i f).groups = s.groups := rfl

@[simp] theorem State.updLane_mgens (s : State) (l i : Nat) (f : Lane → Lane) :
    (s.updLane l i f).mgens = s.mgens := rfl

@[simp] theorem State.updLane_models (s : State) (l i : Nat) (f : Lane → Lane) :
    (s.updLane l i f).models = s.models := rfl

@[simp] theorem State.updLane_runs (s : State) (l i : Nat) (f : Lane → Lane) :
    (s.updLane l i f).runs = s.runs := rfl

@[simp] theorem State.updLane_hb (s : State) (l i : Nat) (f : Lane → Lane) :
    (s.updLane l i f).hb = s.hb := rfl

@[simp] theorem State.updLane_fb_lselA (s : State) (l i : Nat) (f : Lane → Lane) :
    (s.updLane l i f).fb.lselA = s.fb.lselA := rfl

@[simp] theorem State.updLane_fb_laneA (s : State) (l i : Nat) (f : Lane → Lane) :
    (s.updLane l i f).fb.laneA = s.fb.laneA := rfl

@[simp] theorem State.updLane_fb_lselB (s : State) (l i : Nat) (f : Lane → Lane) :
    (s.updLane l i f).fb.lselB = s.fb.lselB := rfl

@[simp] theorem State.updLane_fb_laneB (s : State) (l i : Nat) (f : Lane → Lane) :
    (s.updLane l i f).fb.laneB = s.fb.laneB := rfl

@[simp] theorem State.updLane_fb_fltLink (s : State) (l i : Nat) (f : Lane → Lane) :
    (s.updLane l i f).fb.fltLink = s.fb.fltLink := rfl

@[simp] theorem State.updLane_fb_fltLane (s : State) (l i : Nat) (f : Lane → Lane) :
    (s.updLane l i f).fb.fltLane = s.fb.fltLane := rfl

@[simp] theorem State.updLane_fb_fltValid (s : State) (l i : Nat) (f : Lane → Lane) :
    (s.updLane l i f).fb.fltValid = s.fb.fltValid := rfl

@[simp] theorem State.updLane_fb_fltCause (s : State) (l i : Nat) (f : Lane → Lane) :
    (s.updLane l i f).fb.fltCause = s.fb.fltCause := rfl

@[simp] theorem State.updLane_fb_fltHpwr (s : State) (l i : Nat) (f : Lane → Lane) :
    (s.updLane l i f).fb.fltHpwr = s.fb.fltHpwr := rfl

@[simp] theorem State.updLane_fb_fltCount (s : State) (l i : Nat) (f : Lane → Lane) :
    (s.updLane l i f).fb.fltCount = s.fb.fltCount := rfl

@[simp] theorem State.updLane_fb_auto (s : State) (l i : Nat) (f : Lane → Lane) :
    (s.updLane l i f).fb.auto = s.fb.auto := rfl

@[simp] theorem State.updLane_fb_service (s : State) (l i : Nat) (f : Lane → Lane) :
    (s.updLane l i f).fb.service = s.fb.service := rfl

@[simp] theorem State.updLane_fb_hrows (s : State) (l i : Nat) (f : Lane → Lane) :
    (s.updLane l i f).fb.hrows = s.fb.hrows := rfl

@[simp] theorem State.updLane_fb_hinges (s : State) (l i : Nat) (f : Lane → Lane) :
    (s.updLane l i f).fb.hinges = s.fb.hinges := rfl

@[simp] theorem State.updLane_fb_lost (s : State) (l i : Nat) (f : Lane → Lane) :
    (s.updLane l i f).fb.lost = s.fb.lost := rfl

@[simp] theorem State.updLane_pr (s : State) (l i : Nat) (f : Lane → Lane) :
    (s.updLane l i f).pr = s.pr := rfl

@[simp] theorem State.updLane_st (s : State) (l i : Nat) (f : Lane → Lane) :
    (s.updLane l i f).st = s.st := rfl

@[simp] theorem State.updLane_rn (s : State) (l i : Nat) (f : Lane → Lane) :
    (s.updLane l i f).rn = s.rn := rfl

@[simp] theorem State.updLane_pw (s : State) (l i : Nat) (f : Lane → Lane) :
    (s.updLane l i f).pw = s.pw := rfl

@[simp] theorem State.updLane_dw (s : State) (l i : Nat) (f : Lane → Lane) :
    (s.updLane l i f).dw = s.dw := rfl

@[simp] theorem State.updLane_rs (s : State) (l i : Nat) (f : Lane → Lane) :
    (s.updLane l i f).rs = s.rs := rfl

@[simp] theorem State.updLane_cs (s : State) (l i : Nat) (f : Lane → Lane) :
    (s.updLane l i f).cs = s.cs := rfl

@[simp] theorem State.updLane_host (s : State) (l i : Nat) (f : Lane → Lane) :
    (s.updLane l i f).host = s.host := rfl

@[simp] theorem State.updLane_signals (s : State) (l i : Nat) (f : Lane → Lane) :
    (s.updLane l i f).signals = s.signals := rfl

@[simp] theorem State.updLane_sideband (s : State) (l i : Nat) (f : Lane → Lane) :
    (s.updLane l i f).sideband = s.sideband := rfl

@[simp] theorem State.updLane_free (s : State) (l i : Nat) (f : Lane → Lane) :
    (s.updLane l i f).free = s.free := rfl

@[simp] theorem State.updLane_pending (s : State) (l i : Nat) (f : Lane → Lane) :
    (s.updLane l i f).pending = s.pending := rfl

/-! ### updSlot -/

@[simp] theorem State.updSlot_mg (s : State) (i : Nat) (f : Slot → Slot) :
    (s.updSlot i f).mg = s.mg := rfl

@[simp] theorem State.updSlot_hp (s : State) (i : Nat) (f : Slot → Slot) :
    (s.updSlot i f).hp = s.hp := rfl

@[simp] theorem State.updSlot_fe_kqAddr (s : State) (i : Nat) (f : Slot → Slot) :
    (s.updSlot i f).fe.kqAddr = s.fe.kqAddr := rfl

@[simp] theorem State.updSlot_fe_kqStatus (s : State) (i : Nat) (f : Slot → Slot) :
    (s.updSlot i f).fe.kqStatus = s.fe.kqStatus := rfl

@[simp] theorem State.updSlot_fe_kqQueue (s : State) (i : Nat) (f : Slot → Slot) :
    (s.updSlot i f).fe.kqQueue = s.fe.kqQueue := rfl

@[simp] theorem State.updSlot_fe_kqGen (s : State) (i : Nat) (f : Slot → Slot) :
    (s.updSlot i f).fe.kqGen = s.fe.kqGen := rfl

@[simp] theorem State.updSlot_fe_slice (s : State) (i : Nat) (f : Slot → Slot) :
    (s.updSlot i f).fe.slice = s.fe.slice := rfl

@[simp] theorem State.updSlot_fe_age (s : State) (i : Nat) (f : Slot → Slot) :
    (s.updSlot i f).fe.age = s.fe.age := rfl

@[simp] theorem State.updSlot_fe_qselA (s : State) (i : Nat) (f : Slot → Slot) :
    (s.updSlot i f).fe.qselA = s.fe.qselA := rfl

@[simp] theorem State.updSlot_fe_qselB (s : State) (i : Nat) (f : Slot → Slot) :
    (s.updSlot i f).fe.qselB = s.fe.qselB := rfl

@[simp] theorem State.updSlot_fe_qerrValid (s : State) (i : Nat) (f : Slot → Slot) :
    (s.updSlot i f).fe.qerrValid = s.fe.qerrValid := rfl

@[simp] theorem State.updSlot_fe_qerrQueue (s : State) (i : Nat) (f : Slot → Slot) :
    (s.updSlot i f).fe.qerrQueue = s.fe.qerrQueue := rfl

@[simp] theorem State.updSlot_fe_qerrCause (s : State) (i : Nat) (f : Slot → Slot) :
    (s.updSlot i f).fe.qerrCause = s.fe.qerrCause := rfl

@[simp] theorem State.updSlot_fe_qerrLost (s : State) (i : Nat) (f : Slot → Slot) :
    (s.updSlot i f).fe.qerrLost = s.fe.qerrLost := rfl

@[simp] theorem State.updSlot_fe_qerrStale (s : State) (i : Nat) (f : Slot → Slot) :
    (s.updSlot i f).fe.qerrStale = s.fe.qerrStale := rfl

@[simp] theorem State.updSlot_fe_evVector (s : State) (i : Nat) (f : Slot → Slot) :
    (s.updSlot i f).fe.evVector = s.fe.evVector := rfl

@[simp] theorem State.updSlot_fe_evPortB (s : State) (i : Nat) (f : Slot → Slot) :
    (s.updSlot i f).fe.evPortB = s.fe.evPortB := rfl

@[simp] theorem State.updSlot_fe_evEn (s : State) (i : Nat) (f : Slot → Slot) :
    (s.updSlot i f).fe.evEn = s.fe.evEn := rfl

@[simp] theorem State.updSlot_fe_qgens (s : State) (i : Nat) (f : Slot → Slot) :
    (s.updSlot i f).fe.qgens = s.fe.qgens := rfl

@[simp] theorem State.updSlot_fe_queues (s : State) (i : Nat) (f : Slot → Slot) :
    (s.updSlot i f).fe.queues = s.fe.queues := rfl

@[simp] theorem State.updSlot_fe_requests (s : State) (i : Nat) (f : Slot → Slot) :
    (s.updSlot i f).fe.requests = s.fe.requests := rfl

@[simp] theorem State.updSlot_fe_chains (s : State) (i : Nat) (f : Slot → Slot) :
    (s.updSlot i f).fe.chains = s.fe.chains := rfl

@[simp] theorem State.updSlot_fe_overlay (s : State) (i : Nat) (f : Slot → Slot) :
    (s.updSlot i f).fe.overlay = s.fe.overlay := rfl

@[simp] theorem State.updSlot_fe_fenced (s : State) (i : Nat) (f : Slot → Slot) :
    (s.updSlot i f).fe.fenced = s.fe.fenced := rfl

@[simp] theorem State.updSlot_cx (s : State) (i : Nat) (f : Slot → Slot) :
    (s.updSlot i f).cx = s.cx := rfl

@[simp] theorem State.updSlot_sites (s : State) (i : Nat) (f : Slot → Slot) :
    (s.updSlot i f).sites = s.sites := rfl

@[simp] theorem State.updSlot_groups (s : State) (i : Nat) (f : Slot → Slot) :
    (s.updSlot i f).groups = s.groups := rfl

@[simp] theorem State.updSlot_mgens (s : State) (i : Nat) (f : Slot → Slot) :
    (s.updSlot i f).mgens = s.mgens := rfl

@[simp] theorem State.updSlot_models (s : State) (i : Nat) (f : Slot → Slot) :
    (s.updSlot i f).models = s.models := rfl

@[simp] theorem State.updSlot_runs (s : State) (i : Nat) (f : Slot → Slot) :
    (s.updSlot i f).runs = s.runs := rfl

@[simp] theorem State.updSlot_hb (s : State) (i : Nat) (f : Slot → Slot) :
    (s.updSlot i f).hb = s.hb := rfl

@[simp] theorem State.updSlot_fb (s : State) (i : Nat) (f : Slot → Slot) :
    (s.updSlot i f).fb = s.fb := rfl

@[simp] theorem State.updSlot_pr (s : State) (i : Nat) (f : Slot → Slot) :
    (s.updSlot i f).pr = s.pr := rfl

@[simp] theorem State.updSlot_st (s : State) (i : Nat) (f : Slot → Slot) :
    (s.updSlot i f).st = s.st := rfl

@[simp] theorem State.updSlot_rn (s : State) (i : Nat) (f : Slot → Slot) :
    (s.updSlot i f).rn = s.rn := rfl

@[simp] theorem State.updSlot_pw (s : State) (i : Nat) (f : Slot → Slot) :
    (s.updSlot i f).pw = s.pw := rfl

@[simp] theorem State.updSlot_dw (s : State) (i : Nat) (f : Slot → Slot) :
    (s.updSlot i f).dw = s.dw := rfl

@[simp] theorem State.updSlot_rs (s : State) (i : Nat) (f : Slot → Slot) :
    (s.updSlot i f).rs = s.rs := rfl

@[simp] theorem State.updSlot_cs (s : State) (i : Nat) (f : Slot → Slot) :
    (s.updSlot i f).cs = s.cs := rfl

@[simp] theorem State.updSlot_host (s : State) (i : Nat) (f : Slot → Slot) :
    (s.updSlot i f).host = s.host := rfl

@[simp] theorem State.updSlot_signals (s : State) (i : Nat) (f : Slot → Slot) :
    (s.updSlot i f).signals = s.signals := rfl

@[simp] theorem State.updSlot_sideband (s : State) (i : Nat) (f : Slot → Slot) :
    (s.updSlot i f).sideband = s.sideband := rfl

@[simp] theorem State.updSlot_free (s : State) (i : Nat) (f : Slot → Slot) :
    (s.updSlot i f).free = s.free := rfl

@[simp] theorem State.updSlot_pending (s : State) (i : Nat) (f : Slot → Slot) :
    (s.updSlot i f).pending = s.pending := rfl

/-! ### updJob -/

@[simp] theorem State.updJob_mg (s : State) (id : Nat) (f : Job → Job) :
    (s.updJob id f).mg = s.mg := rfl

@[simp] theorem State.updJob_hp (s : State) (id : Nat) (f : Job → Job) :
    (s.updJob id f).hp = s.hp := rfl

@[simp] theorem State.updJob_fe (s : State) (id : Nat) (f : Job → Job) :
    (s.updJob id f).fe = s.fe := rfl

@[simp] theorem State.updJob_cx (s : State) (id : Nat) (f : Job → Job) :
    (s.updJob id f).cx = s.cx := rfl

@[simp] theorem State.updJob_sites (s : State) (id : Nat) (f : Job → Job) :
    (s.updJob id f).sites = s.sites := rfl

@[simp] theorem State.updJob_groups (s : State) (id : Nat) (f : Job → Job) :
    (s.updJob id f).groups = s.groups := rfl

@[simp] theorem State.updJob_mgens (s : State) (id : Nat) (f : Job → Job) :
    (s.updJob id f).mgens = s.mgens := rfl

@[simp] theorem State.updJob_models (s : State) (id : Nat) (f : Job → Job) :
    (s.updJob id f).models = s.models := rfl

@[simp] theorem State.updJob_runs (s : State) (id : Nat) (f : Job → Job) :
    (s.updJob id f).runs = s.runs := rfl

@[simp] theorem State.updJob_hb (s : State) (id : Nat) (f : Job → Job) :
    (s.updJob id f).hb = s.hb := rfl

@[simp] theorem State.updJob_fb (s : State) (id : Nat) (f : Job → Job) :
    (s.updJob id f).fb = s.fb := rfl

@[simp] theorem State.updJob_pr_role (s : State) (id : Nat) (f : Job → Job) :
    (s.updJob id f).pr.role = s.pr.role := rfl

@[simp] theorem State.updJob_pr_nodeid (s : State) (id : Nat) (f : Job → Job) :
    (s.updJob id f).pr.nodeid = s.pr.nodeid := rfl

@[simp] theorem State.updJob_pr_depth (s : State) (id : Nat) (f : Job → Job) :
    (s.updJob id f).pr.depth = s.pr.depth := rfl

@[simp] theorem State.updJob_pr_parent (s : State) (id : Nat) (f : Job → Job) :
    (s.updJob id f).pr.parent = s.pr.parent := rfl

@[simp] theorem State.updJob_pr_state (s : State) (id : Nat) (f : Job → Job) :
    (s.updJob id f).pr.state = s.pr.state := rfl

@[simp] theorem State.updJob_pr_nodes (s : State) (id : Nat) (f : Job → Job) :
    (s.updJob id f).pr.nodes = s.pr.nodes := rfl

@[simp] theorem State.updJob_pr_links (s : State) (id : Nat) (f : Job → Job) :
    (s.updJob id f).pr.links = s.pr.links := rfl

@[simp] theorem State.updJob_pr_routes (s : State) (id : Nat) (f : Job → Job) :
    (s.updJob id f).pr.routes = s.pr.routes := rfl

@[simp] theorem State.updJob_pr_jselA (s : State) (id : Nat) (f : Job → Job) :
    (s.updJob id f).pr.jselA = s.pr.jselA := rfl

@[simp] theorem State.updJob_pr_jselB (s : State) (id : Nat) (f : Job → Job) :
    (s.updJob id f).pr.jselB = s.pr.jselB := rfl

@[simp] theorem State.updJob_pr_stale (s : State) (id : Nat) (f : Job → Job) :
    (s.updJob id f).pr.stale = s.pr.stale := rfl

@[simp] theorem State.updJob_pr_aborts (s : State) (id : Nat) (f : Job → Job) :
    (s.updJob id f).pr.aborts = s.pr.aborts := rfl

@[simp] theorem State.updJob_pr_enumerr (s : State) (id : Nat) (f : Job → Job) :
    (s.updJob id f).pr.enumerr = s.pr.enumerr := rfl

@[simp] theorem State.updJob_pr_peermask (s : State) (id : Nat) (f : Job → Job) :
    (s.updJob id f).pr.peermask = s.pr.peermask := rfl

@[simp] theorem State.updJob_pr_jobGens (s : State) (id : Nat) (f : Job → Job) :
    (s.updJob id f).pr.jobGens = s.pr.jobGens := rfl

@[simp] theorem State.updJob_pr_cuffs (s : State) (id : Nat) (f : Job → Job) :
    (s.updJob id f).pr.cuffs = s.pr.cuffs := rfl

@[simp] theorem State.updJob_pr_awaiting (s : State) (id : Nat) (f : Job → Job) :
    (s.updJob id f).pr.awaiting = s.pr.awaiting := rfl

@[simp] theorem State.updJob_pr_replies (s : State) (id : Nat) (f : Job → Job) :
    (s.updJob id f).pr.replies = s.pr.replies := rfl

@[simp] theorem State.updJob_pr_out (s : State) (id : Nat) (f : Job → Job) :
    (s.updJob id f).pr.out = s.pr.out := rfl

@[simp] theorem State.updJob_st (s : State) (id : Nat) (f : Job → Job) :
    (s.updJob id f).st = s.st := rfl

@[simp] theorem State.updJob_rn (s : State) (id : Nat) (f : Job → Job) :
    (s.updJob id f).rn = s.rn := rfl

@[simp] theorem State.updJob_pw (s : State) (id : Nat) (f : Job → Job) :
    (s.updJob id f).pw = s.pw := rfl

@[simp] theorem State.updJob_dw (s : State) (id : Nat) (f : Job → Job) :
    (s.updJob id f).dw = s.dw := rfl

@[simp] theorem State.updJob_rs (s : State) (id : Nat) (f : Job → Job) :
    (s.updJob id f).rs = s.rs := rfl

@[simp] theorem State.updJob_cs (s : State) (id : Nat) (f : Job → Job) :
    (s.updJob id f).cs = s.cs := rfl

@[simp] theorem State.updJob_host (s : State) (id : Nat) (f : Job → Job) :
    (s.updJob id f).host = s.host := rfl

@[simp] theorem State.updJob_signals (s : State) (id : Nat) (f : Job → Job) :
    (s.updJob id f).signals = s.signals := rfl

@[simp] theorem State.updJob_sideband (s : State) (id : Nat) (f : Job → Job) :
    (s.updJob id f).sideband = s.sideband := rfl

@[simp] theorem State.updJob_free (s : State) (id : Nat) (f : Job → Job) :
    (s.updJob id f).free = s.free := rfl

@[simp] theorem State.updJob_pending (s : State) (id : Nat) (f : Job → Job) :
    (s.updJob id f).pending = s.pending := rfl

/-! ### updStream -/

@[simp] theorem State.updStream_mg (s : State) (rec_ : Nat) (f : Stream → Stream) :
    (s.updStream rec_ f).mg = s.mg := rfl

@[simp] theorem State.updStream_hp (s : State) (rec_ : Nat) (f : Stream → Stream) :
    (s.updStream rec_ f).hp = s.hp := rfl

@[simp] theorem State.updStream_fe (s : State) (rec_ : Nat) (f : Stream → Stream) :
    (s.updStream rec_ f).fe = s.fe := rfl

@[simp] theorem State.updStream_cx (s : State) (rec_ : Nat) (f : Stream → Stream) :
    (s.updStream rec_ f).cx = s.cx := rfl

@[simp] theorem State.updStream_sites (s : State) (rec_ : Nat) (f : Stream → Stream) :
    (s.updStream rec_ f).sites = s.sites := rfl

@[simp] theorem State.updStream_groups (s : State) (rec_ : Nat) (f : Stream → Stream) :
    (s.updStream rec_ f).groups = s.groups := rfl

@[simp] theorem State.updStream_mgens (s : State) (rec_ : Nat) (f : Stream → Stream) :
    (s.updStream rec_ f).mgens = s.mgens := rfl

@[simp] theorem State.updStream_models (s : State) (rec_ : Nat) (f : Stream → Stream) :
    (s.updStream rec_ f).models = s.models := rfl

@[simp] theorem State.updStream_runs (s : State) (rec_ : Nat) (f : Stream → Stream) :
    (s.updStream rec_ f).runs = s.runs := rfl

@[simp] theorem State.updStream_hb (s : State) (rec_ : Nat) (f : Stream → Stream) :
    (s.updStream rec_ f).hb = s.hb := rfl

@[simp] theorem State.updStream_fb (s : State) (rec_ : Nat) (f : Stream → Stream) :
    (s.updStream rec_ f).fb = s.fb := rfl

@[simp] theorem State.updStream_pr (s : State) (rec_ : Nat) (f : Stream → Stream) :
    (s.updStream rec_ f).pr = s.pr := rfl

@[simp] theorem State.updStream_st_lane0 (s : State) (rec_ : Nat) (f : Stream → Stream) :
    (s.updStream rec_ f).st.lane0 = s.st.lane0 := rfl

@[simp] theorem State.updStream_st_lane1 (s : State) (rec_ : Nat) (f : Stream → Stream) :
    (s.updStream rec_ f).st.lane1 = s.st.lane1 := rfl

@[simp] theorem State.updStream_st_tstate (s : State) (rec_ : Nat) (f : Stream → Stream) :
    (s.updStream rec_ f).st.tstate = s.st.tstate := rfl

@[simp] theorem State.updStream_st_time (s : State) (rec_ : Nat) (f : Stream → Stream) :
    (s.updStream rec_ f).st.time = s.st.time := rfl

@[simp] theorem State.updStream_st_doVal (s : State) (rec_ : Nat) (f : Stream → Stream) :
    (s.updStream rec_ f).st.doVal = s.st.doVal := rfl

@[simp] theorem State.updStream_st_doSrc (s : State) (rec_ : Nat) (f : Stream → Stream) :
    (s.updStream rec_ f).st.doSrc = s.st.doSrc := rfl

@[simp] theorem State.updStream_st_doStrm (s : State) (rec_ : Nat) (f : Stream → Stream) :
    (s.updStream rec_ f).st.doStrm = s.st.doStrm := rfl

@[simp] theorem State.updStream_st_doExtest (s : State) (rec_ : Nat) (f : Stream → Stream) :
    (s.updStream rec_ f).st.doExtest = s.st.doExtest := rfl

@[simp] theorem State.updStream_st_diLevel (s : State) (rec_ : Nat) (f : Stream → Stream) :
    (s.updStream rec_ f).st.diLevel = s.st.diLevel := rfl

@[simp] theorem State.updStream_st_diEdgeEn (s : State) (rec_ : Nat) (f : Stream → Stream) :
    (s.updStream rec_ f).st.diEdgeEn = s.st.diEdgeEn := rfl

@[simp] theorem State.updStream_st_diLast (s : State) (rec_ : Nat) (f : Stream → Stream) :
    (s.updStream rec_ f).st.diLast = s.st.diLast := rfl

@[simp] theorem State.updStream_st_diEdge (s : State) (rec_ : Nat) (f : Stream → Stream) :
    (s.updStream rec_ f).st.diEdge = s.st.diEdge := rfl

@[simp] theorem State.updStream_st_diTs (s : State) (rec_ : Nat) (f : Stream → Stream) :
    (s.updStream rec_ f).st.diTs = s.st.diTs := rfl

@[simp] theorem State.updStream_st_sselA (s : State) (rec_ : Nat) (f : Stream → Stream) :
    (s.updStream rec_ f).st.sselA = s.st.sselA := rfl

@[simp] theorem State.updStream_st_sselB (s : State) (rec_ : Nat) (f : Stream → Stream) :
    (s.updStream rec_ f).st.sselB = s.st.sselB := rfl

@[simp] theorem State.updStream_st_setpoints (s : State) (rec_ : Nat) (f : Stream → Stream) :
    (s.updStream rec_ f).st.setpoints = s.st.setpoints := rfl

@[simp] theorem State.updStream_st_prpSeen (s : State) (rec_ : Nat) (f : Stream → Stream) :
    (s.updStream rec_ f).st.prpSeen = s.st.prpSeen := rfl

@[simp] theorem State.updStream_st_prpSeq (s : State) (rec_ : Nat) (f : Stream → Stream) :
    (s.updStream rec_ f).st.prpSeq = s.st.prpSeq := rfl

@[simp] theorem State.updStream_st_out (s : State) (rec_ : Nat) (f : Stream → Stream) :
    (s.updStream rec_ f).st.out = s.st.out := rfl

@[simp] theorem State.updStream_rn (s : State) (rec_ : Nat) (f : Stream → Stream) :
    (s.updStream rec_ f).rn = s.rn := rfl

@[simp] theorem State.updStream_pw (s : State) (rec_ : Nat) (f : Stream → Stream) :
    (s.updStream rec_ f).pw = s.pw := rfl

@[simp] theorem State.updStream_dw (s : State) (rec_ : Nat) (f : Stream → Stream) :
    (s.updStream rec_ f).dw = s.dw := rfl

@[simp] theorem State.updStream_rs (s : State) (rec_ : Nat) (f : Stream → Stream) :
    (s.updStream rec_ f).rs = s.rs := rfl

@[simp] theorem State.updStream_cs (s : State) (rec_ : Nat) (f : Stream → Stream) :
    (s.updStream rec_ f).cs = s.cs := rfl

@[simp] theorem State.updStream_host (s : State) (rec_ : Nat) (f : Stream → Stream) :
    (s.updStream rec_ f).host = s.host := rfl

@[simp] theorem State.updStream_signals (s : State) (rec_ : Nat) (f : Stream → Stream) :
    (s.updStream rec_ f).signals = s.signals := rfl

@[simp] theorem State.updStream_sideband (s : State) (rec_ : Nat) (f : Stream → Stream) :
    (s.updStream rec_ f).sideband = s.sideband := rfl

@[simp] theorem State.updStream_free (s : State) (rec_ : Nat) (f : Stream → Stream) :
    (s.updStream rec_ f).free = s.free := rfl

@[simp] theorem State.updStream_pending (s : State) (rec_ : Nat) (f : Stream → Stream) :
    (s.updStream rec_ f).pending = s.pending := rfl

/-! ### updSiteLane -/

@[simp] theorem State.updSiteLane_mg (s : State) (l : Nat) (f : SiteLane → SiteLane) :
    (s.updSiteLane l f).mg = s.mg := by unfold State.updSiteLane; repeat' (first | rfl | split)

@[simp] theorem State.updSiteLane_hp (s : State) (l : Nat) (f : SiteLane → SiteLane) :
    (s.updSiteLane l f).hp = s.hp := by unfold State.updSiteLane; repeat' (first | rfl | split)

@[simp] theorem State.updSiteLane_fe (s : State) (l : Nat) (f : SiteLane → SiteLane) :
    (s.updSiteLane l f).fe = s.fe := by unfold State.updSiteLane; repeat' (first | rfl | split)

@[simp] theorem State.updSiteLane_cx (s : State) (l : Nat) (f : SiteLane → SiteLane) :
    (s.updSiteLane l f).cx = s.cx := by unfold State.updSiteLane; repeat' (first | rfl | split)

@[simp] theorem State.updSiteLane_sites (s : State) (l : Nat) (f : SiteLane → SiteLane) :
    (s.updSiteLane l f).sites = s.sites := by unfold State.updSiteLane; repeat' (first | rfl | split)

@[simp] theorem State.updSiteLane_groups (s : State) (l : Nat) (f : SiteLane → SiteLane) :
    (s.updSiteLane l f).groups = s.groups := by unfold State.updSiteLane; repeat' (first | rfl | split)

@[simp] theorem State.updSiteLane_mgens (s : State) (l : Nat) (f : SiteLane → SiteLane) :
    (s.updSiteLane l f).mgens = s.mgens := by unfold State.updSiteLane; repeat' (first | rfl | split)

@[simp] theorem State.updSiteLane_models (s : State) (l : Nat) (f : SiteLane → SiteLane) :
    (s.updSiteLane l f).models = s.models := by unfold State.updSiteLane; repeat' (first | rfl | split)

@[simp] theorem State.updSiteLane_runs (s : State) (l : Nat) (f : SiteLane → SiteLane) :
    (s.updSiteLane l f).runs = s.runs := by unfold State.updSiteLane; repeat' (first | rfl | split)

@[simp] theorem State.updSiteLane_hb (s : State) (l : Nat) (f : SiteLane → SiteLane) :
    (s.updSiteLane l f).hb = s.hb := by unfold State.updSiteLane; repeat' (first | rfl | split)

@[simp] theorem State.updSiteLane_fb (s : State) (l : Nat) (f : SiteLane → SiteLane) :
    (s.updSiteLane l f).fb = s.fb := by unfold State.updSiteLane; repeat' (first | rfl | split)

@[simp] theorem State.updSiteLane_pr (s : State) (l : Nat) (f : SiteLane → SiteLane) :
    (s.updSiteLane l f).pr = s.pr := by unfold State.updSiteLane; repeat' (first | rfl | split)

@[simp] theorem State.updSiteLane_st_tstate (s : State) (l : Nat) (f : SiteLane → SiteLane) :
    (s.updSiteLane l f).st.tstate = s.st.tstate := by unfold State.updSiteLane; repeat' (first | rfl | split)

@[simp] theorem State.updSiteLane_st_time (s : State) (l : Nat) (f : SiteLane → SiteLane) :
    (s.updSiteLane l f).st.time = s.st.time := by unfold State.updSiteLane; repeat' (first | rfl | split)

@[simp] theorem State.updSiteLane_st_doVal (s : State) (l : Nat) (f : SiteLane → SiteLane) :
    (s.updSiteLane l f).st.doVal = s.st.doVal := by unfold State.updSiteLane; repeat' (first | rfl | split)

@[simp] theorem State.updSiteLane_st_doSrc (s : State) (l : Nat) (f : SiteLane → SiteLane) :
    (s.updSiteLane l f).st.doSrc = s.st.doSrc := by unfold State.updSiteLane; repeat' (first | rfl | split)

@[simp] theorem State.updSiteLane_st_doStrm (s : State) (l : Nat) (f : SiteLane → SiteLane) :
    (s.updSiteLane l f).st.doStrm = s.st.doStrm := by unfold State.updSiteLane; repeat' (first | rfl | split)

@[simp] theorem State.updSiteLane_st_doExtest (s : State) (l : Nat) (f : SiteLane → SiteLane) :
    (s.updSiteLane l f).st.doExtest = s.st.doExtest := by unfold State.updSiteLane; repeat' (first | rfl | split)

@[simp] theorem State.updSiteLane_st_diLevel (s : State) (l : Nat) (f : SiteLane → SiteLane) :
    (s.updSiteLane l f).st.diLevel = s.st.diLevel := by unfold State.updSiteLane; repeat' (first | rfl | split)

@[simp] theorem State.updSiteLane_st_diEdgeEn (s : State) (l : Nat) (f : SiteLane → SiteLane) :
    (s.updSiteLane l f).st.diEdgeEn = s.st.diEdgeEn := by unfold State.updSiteLane; repeat' (first | rfl | split)

@[simp] theorem State.updSiteLane_st_diLast (s : State) (l : Nat) (f : SiteLane → SiteLane) :
    (s.updSiteLane l f).st.diLast = s.st.diLast := by unfold State.updSiteLane; repeat' (first | rfl | split)

@[simp] theorem State.updSiteLane_st_diEdge (s : State) (l : Nat) (f : SiteLane → SiteLane) :
    (s.updSiteLane l f).st.diEdge = s.st.diEdge := by unfold State.updSiteLane; repeat' (first | rfl | split)

@[simp] theorem State.updSiteLane_st_diTs (s : State) (l : Nat) (f : SiteLane → SiteLane) :
    (s.updSiteLane l f).st.diTs = s.st.diTs := by unfold State.updSiteLane; repeat' (first | rfl | split)

@[simp] theorem State.updSiteLane_st_sselA (s : State) (l : Nat) (f : SiteLane → SiteLane) :
    (s.updSiteLane l f).st.sselA = s.st.sselA := by unfold State.updSiteLane; repeat' (first | rfl | split)

@[simp] theorem State.updSiteLane_st_sselB (s : State) (l : Nat) (f : SiteLane → SiteLane) :
    (s.updSiteLane l f).st.sselB = s.st.sselB := by unfold State.updSiteLane; repeat' (first | rfl | split)

@[simp] theorem State.updSiteLane_st_streams (s : State) (l : Nat) (f : SiteLane → SiteLane) :
    (s.updSiteLane l f).st.streams = s.st.streams := by unfold State.updSiteLane; repeat' (first | rfl | split)

@[simp] theorem State.updSiteLane_st_setpoints (s : State) (l : Nat) (f : SiteLane → SiteLane) :
    (s.updSiteLane l f).st.setpoints = s.st.setpoints := by unfold State.updSiteLane; repeat' (first | rfl | split)

@[simp] theorem State.updSiteLane_st_prpSeen (s : State) (l : Nat) (f : SiteLane → SiteLane) :
    (s.updSiteLane l f).st.prpSeen = s.st.prpSeen := by unfold State.updSiteLane; repeat' (first | rfl | split)

@[simp] theorem State.updSiteLane_st_prpSeq (s : State) (l : Nat) (f : SiteLane → SiteLane) :
    (s.updSiteLane l f).st.prpSeq = s.st.prpSeq := by unfold State.updSiteLane; repeat' (first | rfl | split)

@[simp] theorem State.updSiteLane_st_out (s : State) (l : Nat) (f : SiteLane → SiteLane) :
    (s.updSiteLane l f).st.out = s.st.out := by unfold State.updSiteLane; repeat' (first | rfl | split)

@[simp] theorem State.updSiteLane_rn (s : State) (l : Nat) (f : SiteLane → SiteLane) :
    (s.updSiteLane l f).rn = s.rn := by unfold State.updSiteLane; repeat' (first | rfl | split)

@[simp] theorem State.updSiteLane_pw (s : State) (l : Nat) (f : SiteLane → SiteLane) :
    (s.updSiteLane l f).pw = s.pw := by unfold State.updSiteLane; repeat' (first | rfl | split)

@[simp] theorem State.updSiteLane_dw (s : State) (l : Nat) (f : SiteLane → SiteLane) :
    (s.updSiteLane l f).dw = s.dw := by unfold State.updSiteLane; repeat' (first | rfl | split)

@[simp] theorem State.updSiteLane_rs (s : State) (l : Nat) (f : SiteLane → SiteLane) :
    (s.updSiteLane l f).rs = s.rs := by unfold State.updSiteLane; repeat' (first | rfl | split)

@[simp] theorem State.updSiteLane_cs (s : State) (l : Nat) (f : SiteLane → SiteLane) :
    (s.updSiteLane l f).cs = s.cs := by unfold State.updSiteLane; repeat' (first | rfl | split)

@[simp] theorem State.updSiteLane_host (s : State) (l : Nat) (f : SiteLane → SiteLane) :
    (s.updSiteLane l f).host = s.host := by unfold State.updSiteLane; repeat' (first | rfl | split)

@[simp] theorem State.updSiteLane_signals (s : State) (l : Nat) (f : SiteLane → SiteLane) :
    (s.updSiteLane l f).signals = s.signals := by unfold State.updSiteLane; repeat' (first | rfl | split)

@[simp] theorem State.updSiteLane_sideband (s : State) (l : Nat) (f : SiteLane → SiteLane) :
    (s.updSiteLane l f).sideband = s.sideband := by unfold State.updSiteLane; repeat' (first | rfl | split)

@[simp] theorem State.updSiteLane_free (s : State) (l : Nat) (f : SiteLane → SiteLane) :
    (s.updSiteLane l f).free = s.free := by unfold State.updSiteLane; repeat' (first | rfl | split)

@[simp] theorem State.updSiteLane_pending (s : State) (l : Nat) (f : SiteLane → SiteLane) :
    (s.updSiteLane l f).pending = s.pending := by unfold State.updSiteLane; repeat' (first | rfl | split)

/-! ### updPeer -/

@[simp] theorem State.updPeer_mg (s : State) (l : Nat) (f : PeerLink → PeerLink) :
    (s.updPeer l f).mg = s.mg := rfl

@[simp] theorem State.updPeer_hp (s : State) (l : Nat) (f : PeerLink → PeerLink) :
    (s.updPeer l f).hp = s.hp := rfl

@[simp] theorem State.updPeer_fe (s : State) (l : Nat) (f : PeerLink → PeerLink) :
    (s.updPeer l f).fe = s.fe := rfl

@[simp] theorem State.updPeer_cx (s : State) (l : Nat) (f : PeerLink → PeerLink) :
    (s.updPeer l f).cx = s.cx := rfl

@[simp] theorem State.updPeer_sites (s : State) (l : Nat) (f : PeerLink → PeerLink) :
    (s.updPeer l f).sites = s.sites := rfl

@[simp] theorem State.updPeer_groups (s : State) (l : Nat) (f : PeerLink → PeerLink) :
    (s.updPeer l f).groups = s.groups := rfl

@[simp] theorem State.updPeer_mgens (s : State) (l : Nat) (f : PeerLink → PeerLink) :
    (s.updPeer l f).mgens = s.mgens := rfl

@[simp] theorem State.updPeer_models (s : State) (l : Nat) (f : PeerLink → PeerLink) :
    (s.updPeer l f).models = s.models := rfl

@[simp] theorem State.updPeer_runs (s : State) (l : Nat) (f : PeerLink → PeerLink) :
    (s.updPeer l f).runs = s.runs := rfl

@[simp] theorem State.updPeer_hb (s : State) (l : Nat) (f : PeerLink → PeerLink) :
    (s.updPeer l f).hb = s.hb := rfl

@[simp] theorem State.updPeer_fb (s : State) (l : Nat) (f : PeerLink → PeerLink) :
    (s.updPeer l f).fb = s.fb := rfl

@[simp] theorem State.updPeer_pr_role (s : State) (l : Nat) (f : PeerLink → PeerLink) :
    (s.updPeer l f).pr.role = s.pr.role := rfl

@[simp] theorem State.updPeer_pr_nodeid (s : State) (l : Nat) (f : PeerLink → PeerLink) :
    (s.updPeer l f).pr.nodeid = s.pr.nodeid := rfl

@[simp] theorem State.updPeer_pr_depth (s : State) (l : Nat) (f : PeerLink → PeerLink) :
    (s.updPeer l f).pr.depth = s.pr.depth := rfl

@[simp] theorem State.updPeer_pr_parent (s : State) (l : Nat) (f : PeerLink → PeerLink) :
    (s.updPeer l f).pr.parent = s.pr.parent := rfl

@[simp] theorem State.updPeer_pr_state (s : State) (l : Nat) (f : PeerLink → PeerLink) :
    (s.updPeer l f).pr.state = s.pr.state := rfl

@[simp] theorem State.updPeer_pr_nodes (s : State) (l : Nat) (f : PeerLink → PeerLink) :
    (s.updPeer l f).pr.nodes = s.pr.nodes := rfl

@[simp] theorem State.updPeer_pr_routes (s : State) (l : Nat) (f : PeerLink → PeerLink) :
    (s.updPeer l f).pr.routes = s.pr.routes := rfl

@[simp] theorem State.updPeer_pr_jselA (s : State) (l : Nat) (f : PeerLink → PeerLink) :
    (s.updPeer l f).pr.jselA = s.pr.jselA := rfl

@[simp] theorem State.updPeer_pr_jselB (s : State) (l : Nat) (f : PeerLink → PeerLink) :
    (s.updPeer l f).pr.jselB = s.pr.jselB := rfl

@[simp] theorem State.updPeer_pr_stale (s : State) (l : Nat) (f : PeerLink → PeerLink) :
    (s.updPeer l f).pr.stale = s.pr.stale := rfl

@[simp] theorem State.updPeer_pr_aborts (s : State) (l : Nat) (f : PeerLink → PeerLink) :
    (s.updPeer l f).pr.aborts = s.pr.aborts := rfl

@[simp] theorem State.updPeer_pr_enumerr (s : State) (l : Nat) (f : PeerLink → PeerLink) :
    (s.updPeer l f).pr.enumerr = s.pr.enumerr := rfl

@[simp] theorem State.updPeer_pr_peermask (s : State) (l : Nat) (f : PeerLink → PeerLink) :
    (s.updPeer l f).pr.peermask = s.pr.peermask := rfl

@[simp] theorem State.updPeer_pr_jobGens (s : State) (l : Nat) (f : PeerLink → PeerLink) :
    (s.updPeer l f).pr.jobGens = s.pr.jobGens := rfl

@[simp] theorem State.updPeer_pr_jobs (s : State) (l : Nat) (f : PeerLink → PeerLink) :
    (s.updPeer l f).pr.jobs = s.pr.jobs := rfl

@[simp] theorem State.updPeer_pr_cuffs (s : State) (l : Nat) (f : PeerLink → PeerLink) :
    (s.updPeer l f).pr.cuffs = s.pr.cuffs := rfl

@[simp] theorem State.updPeer_pr_awaiting (s : State) (l : Nat) (f : PeerLink → PeerLink) :
    (s.updPeer l f).pr.awaiting = s.pr.awaiting := rfl

@[simp] theorem State.updPeer_pr_replies (s : State) (l : Nat) (f : PeerLink → PeerLink) :
    (s.updPeer l f).pr.replies = s.pr.replies := rfl

@[simp] theorem State.updPeer_pr_out (s : State) (l : Nat) (f : PeerLink → PeerLink) :
    (s.updPeer l f).pr.out = s.pr.out := rfl

@[simp] theorem State.updPeer_st (s : State) (l : Nat) (f : PeerLink → PeerLink) :
    (s.updPeer l f).st = s.st := rfl

@[simp] theorem State.updPeer_rn (s : State) (l : Nat) (f : PeerLink → PeerLink) :
    (s.updPeer l f).rn = s.rn := rfl

@[simp] theorem State.updPeer_pw (s : State) (l : Nat) (f : PeerLink → PeerLink) :
    (s.updPeer l f).pw = s.pw := rfl

@[simp] theorem State.updPeer_dw (s : State) (l : Nat) (f : PeerLink → PeerLink) :
    (s.updPeer l f).dw = s.dw := rfl

@[simp] theorem State.updPeer_rs (s : State) (l : Nat) (f : PeerLink → PeerLink) :
    (s.updPeer l f).rs = s.rs := rfl

@[simp] theorem State.updPeer_cs (s : State) (l : Nat) (f : PeerLink → PeerLink) :
    (s.updPeer l f).cs = s.cs := rfl

@[simp] theorem State.updPeer_host (s : State) (l : Nat) (f : PeerLink → PeerLink) :
    (s.updPeer l f).host = s.host := rfl

@[simp] theorem State.updPeer_signals (s : State) (l : Nat) (f : PeerLink → PeerLink) :
    (s.updPeer l f).signals = s.signals := rfl

@[simp] theorem State.updPeer_sideband (s : State) (l : Nat) (f : PeerLink → PeerLink) :
    (s.updPeer l f).sideband = s.sideband := rfl

@[simp] theorem State.updPeer_free (s : State) (l : Nat) (f : PeerLink → PeerLink) :
    (s.updPeer l f).free = s.free := rfl

@[simp] theorem State.updPeer_pending (s : State) (l : Nat) (f : PeerLink → PeerLink) :
    (s.updPeer l f).pending = s.pending := rfl

/-! ### updPkg -/

@[simp] theorem State.updPkg_mg (s : State) (k : Nat) (f : Package → Package) :
    (s.updPkg k f).mg = s.mg := rfl

@[simp] theorem State.updPkg_hp (s : State) (k : Nat) (f : Package → Package) :
    (s.updPkg k f).hp = s.hp := rfl

@[simp] theorem State.updPkg_fe (s : State) (k : Nat) (f : Package → Package) :
    (s.updPkg k f).fe = s.fe := rfl

@[simp] theorem State.updPkg_cx (s : State) (k : Nat) (f : Package → Package) :
    (s.updPkg k f).cx = s.cx := rfl

@[simp] theorem State.updPkg_sites (s : State) (k : Nat) (f : Package → Package) :
    (s.updPkg k f).sites = s.sites := rfl

@[simp] theorem State.updPkg_groups (s : State) (k : Nat) (f : Package → Package) :
    (s.updPkg k f).groups = s.groups := rfl

@[simp] theorem State.updPkg_mgens (s : State) (k : Nat) (f : Package → Package) :
    (s.updPkg k f).mgens = s.mgens := rfl

@[simp] theorem State.updPkg_models (s : State) (k : Nat) (f : Package → Package) :
    (s.updPkg k f).models = s.models := rfl

@[simp] theorem State.updPkg_runs (s : State) (k : Nat) (f : Package → Package) :
    (s.updPkg k f).runs = s.runs := rfl

@[simp] theorem State.updPkg_hb_pselA (s : State) (k : Nat) (f : Package → Package) :
    (s.updPkg k f).hb.pselA = s.hb.pselA := rfl

@[simp] theorem State.updPkg_hb_pselB (s : State) (k : Nat) (f : Package → Package) :
    (s.updPkg k f).hb.pselB = s.hb.pselB := rfl

@[simp] theorem State.updPkg_hb_logUnit (s : State) (k : Nat) (f : Package → Package) :
    (s.updPkg k f).hb.logUnit = s.hb.logUnit := rfl

@[simp] theorem State.updPkg_hb_logPkg (s : State) (k : Nat) (f : Package → Package) :
    (s.updPkg k f).hb.logPkg = s.hb.logPkg := rfl

@[simp] theorem State.updPkg_hb_logCh (s : State) (k : Nat) (f : Package → Package) :
    (s.updPkg k f).hb.logCh = s.hb.logCh := rfl

@[simp] theorem State.updPkg_hb_logSub (s : State) (k : Nat) (f : Package → Package) :
    (s.updPkg k f).hb.logSub = s.hb.logSub := rfl

@[simp] theorem State.updPkg_hb_logKind (s : State) (k : Nat) (f : Package → Package) :
    (s.updPkg k f).hb.logKind = s.hb.logKind := rfl

@[simp] theorem State.updPkg_hb_logValid (s : State) (k : Nat) (f : Package → Package) :
    (s.updPkg k f).hb.logValid = s.hb.logValid := rfl

@[simp] theorem State.updPkg_hb_logCtx (s : State) (k : Nat) (f : Package → Package) :
    (s.updPkg k f).hb.logCtx = s.hb.logCtx := rfl

@[simp] theorem State.updPkg_hb_hubW (s : State) (k : Nat) (f : Package → Package) :
    (s.updPkg k f).hb.hubW = s.hb.hubW := rfl

@[simp] theorem State.updPkg_hb_hubE (s : State) (k : Nat) (f : Package → Package) :
    (s.updPkg k f).hb.hubE = s.hb.hubE := rfl

@[simp] theorem State.updPkg_fb (s : State) (k : Nat) (f : Package → Package) :
    (s.updPkg k f).fb = s.fb := rfl

@[simp] theorem State.updPkg_pr (s : State) (k : Nat) (f : Package → Package) :
    (s.updPkg k f).pr = s.pr := rfl

@[simp] theorem State.updPkg_st (s : State) (k : Nat) (f : Package → Package) :
    (s.updPkg k f).st = s.st := rfl

@[simp] theorem State.updPkg_rn (s : State) (k : Nat) (f : Package → Package) :
    (s.updPkg k f).rn = s.rn := rfl

@[simp] theorem State.updPkg_pw (s : State) (k : Nat) (f : Package → Package) :
    (s.updPkg k f).pw = s.pw := rfl

@[simp] theorem State.updPkg_dw (s : State) (k : Nat) (f : Package → Package) :
    (s.updPkg k f).dw = s.dw := rfl

@[simp] theorem State.updPkg_rs (s : State) (k : Nat) (f : Package → Package) :
    (s.updPkg k f).rs = s.rs := rfl

@[simp] theorem State.updPkg_cs (s : State) (k : Nat) (f : Package → Package) :
    (s.updPkg k f).cs = s.cs := rfl

@[simp] theorem State.updPkg_host (s : State) (k : Nat) (f : Package → Package) :
    (s.updPkg k f).host = s.host := rfl

@[simp] theorem State.updPkg_signals (s : State) (k : Nat) (f : Package → Package) :
    (s.updPkg k f).signals = s.signals := rfl

@[simp] theorem State.updPkg_sideband (s : State) (k : Nat) (f : Package → Package) :
    (s.updPkg k f).sideband = s.sideband := rfl

@[simp] theorem State.updPkg_free (s : State) (k : Nat) (f : Package → Package) :
    (s.updPkg k f).free = s.free := rfl

@[simp] theorem State.updPkg_pending (s : State) (k : Nat) (f : Package → Package) :
    (s.updPkg k f).pending = s.pending := rfl

/-! ### updHrow -/

@[simp] theorem State.updHrow_mg (s : State) (h : Nat) (f : HalfRow → HalfRow) :
    (s.updHrow h f).mg = s.mg := rfl

@[simp] theorem State.updHrow_hp (s : State) (h : Nat) (f : HalfRow → HalfRow) :
    (s.updHrow h f).hp = s.hp := rfl

@[simp] theorem State.updHrow_fe (s : State) (h : Nat) (f : HalfRow → HalfRow) :
    (s.updHrow h f).fe = s.fe := rfl

@[simp] theorem State.updHrow_cx (s : State) (h : Nat) (f : HalfRow → HalfRow) :
    (s.updHrow h f).cx = s.cx := rfl

@[simp] theorem State.updHrow_sites (s : State) (h : Nat) (f : HalfRow → HalfRow) :
    (s.updHrow h f).sites = s.sites := rfl

@[simp] theorem State.updHrow_groups (s : State) (h : Nat) (f : HalfRow → HalfRow) :
    (s.updHrow h f).groups = s.groups := rfl

@[simp] theorem State.updHrow_mgens (s : State) (h : Nat) (f : HalfRow → HalfRow) :
    (s.updHrow h f).mgens = s.mgens := rfl

@[simp] theorem State.updHrow_models (s : State) (h : Nat) (f : HalfRow → HalfRow) :
    (s.updHrow h f).models = s.models := rfl

@[simp] theorem State.updHrow_runs (s : State) (h : Nat) (f : HalfRow → HalfRow) :
    (s.updHrow h f).runs = s.runs := rfl

@[simp] theorem State.updHrow_hb (s : State) (h : Nat) (f : HalfRow → HalfRow) :
    (s.updHrow h f).hb = s.hb := rfl

@[simp] theorem State.updHrow_fb_lselA (s : State) (h : Nat) (f : HalfRow → HalfRow) :
    (s.updHrow h f).fb.lselA = s.fb.lselA := rfl

@[simp] theorem State.updHrow_fb_laneA (s : State) (h : Nat) (f : HalfRow → HalfRow) :
    (s.updHrow h f).fb.laneA = s.fb.laneA := rfl

@[simp] theorem State.updHrow_fb_lselB (s : State) (h : Nat) (f : HalfRow → HalfRow) :
    (s.updHrow h f).fb.lselB = s.fb.lselB := rfl

@[simp] theorem State.updHrow_fb_laneB (s : State) (h : Nat) (f : HalfRow → HalfRow) :
    (s.updHrow h f).fb.laneB = s.fb.laneB := rfl

@[simp] theorem State.updHrow_fb_fltLink (s : State) (h : Nat) (f : HalfRow → HalfRow) :
    (s.updHrow h f).fb.fltLink = s.fb.fltLink := rfl

@[simp] theorem State.updHrow_fb_fltLane (s : State) (h : Nat) (f : HalfRow → HalfRow) :
    (s.updHrow h f).fb.fltLane = s.fb.fltLane := rfl

@[simp] theorem State.updHrow_fb_fltValid (s : State) (h : Nat) (f : HalfRow → HalfRow) :
    (s.updHrow h f).fb.fltValid = s.fb.fltValid := rfl

@[simp] theorem State.updHrow_fb_fltCause (s : State) (h : Nat) (f : HalfRow → HalfRow) :
    (s.updHrow h f).fb.fltCause = s.fb.fltCause := rfl

@[simp] theorem State.updHrow_fb_fltHpwr (s : State) (h : Nat) (f : HalfRow → HalfRow) :
    (s.updHrow h f).fb.fltHpwr = s.fb.fltHpwr := rfl

@[simp] theorem State.updHrow_fb_fltCount (s : State) (h : Nat) (f : HalfRow → HalfRow) :
    (s.updHrow h f).fb.fltCount = s.fb.fltCount := rfl

@[simp] theorem State.updHrow_fb_auto (s : State) (h : Nat) (f : HalfRow → HalfRow) :
    (s.updHrow h f).fb.auto = s.fb.auto := rfl

@[simp] theorem State.updHrow_fb_links (s : State) (h : Nat) (f : HalfRow → HalfRow) :
    (s.updHrow h f).fb.links = s.fb.links := rfl

@[simp] theorem State.updHrow_fb_service (s : State) (h : Nat) (f : HalfRow → HalfRow) :
    (s.updHrow h f).fb.service = s.fb.service := rfl

@[simp] theorem State.updHrow_fb_hinges (s : State) (h : Nat) (f : HalfRow → HalfRow) :
    (s.updHrow h f).fb.hinges = s.fb.hinges := rfl

@[simp] theorem State.updHrow_fb_lost (s : State) (h : Nat) (f : HalfRow → HalfRow) :
    (s.updHrow h f).fb.lost = s.fb.lost := rfl

@[simp] theorem State.updHrow_pr (s : State) (h : Nat) (f : HalfRow → HalfRow) :
    (s.updHrow h f).pr = s.pr := rfl

@[simp] theorem State.updHrow_st (s : State) (h : Nat) (f : HalfRow → HalfRow) :
    (s.updHrow h f).st = s.st := rfl

@[simp] theorem State.updHrow_rn (s : State) (h : Nat) (f : HalfRow → HalfRow) :
    (s.updHrow h f).rn = s.rn := rfl

@[simp] theorem State.updHrow_pw (s : State) (h : Nat) (f : HalfRow → HalfRow) :
    (s.updHrow h f).pw = s.pw := rfl

@[simp] theorem State.updHrow_dw (s : State) (h : Nat) (f : HalfRow → HalfRow) :
    (s.updHrow h f).dw = s.dw := rfl

@[simp] theorem State.updHrow_rs (s : State) (h : Nat) (f : HalfRow → HalfRow) :
    (s.updHrow h f).rs = s.rs := rfl

@[simp] theorem State.updHrow_cs (s : State) (h : Nat) (f : HalfRow → HalfRow) :
    (s.updHrow h f).cs = s.cs := rfl

@[simp] theorem State.updHrow_host (s : State) (h : Nat) (f : HalfRow → HalfRow) :
    (s.updHrow h f).host = s.host := rfl

@[simp] theorem State.updHrow_signals (s : State) (h : Nat) (f : HalfRow → HalfRow) :
    (s.updHrow h f).signals = s.signals := rfl

@[simp] theorem State.updHrow_sideband (s : State) (h : Nat) (f : HalfRow → HalfRow) :
    (s.updHrow h f).sideband = s.sideband := rfl

@[simp] theorem State.updHrow_free (s : State) (h : Nat) (f : HalfRow → HalfRow) :
    (s.updHrow h f).free = s.free := rfl

@[simp] theorem State.updHrow_pending (s : State) (h : Nat) (f : HalfRow → HalfRow) :
    (s.updHrow h f).pending = s.pending := rfl

/-! ### setHalf -/

@[simp] theorem State.setHalf_mg (s : State) (h : Half) (x : HalfState) :
    (s.setHalf h x).mg = s.mg := by unfold State.setHalf; split <;> rfl

@[simp] theorem State.setHalf_hp (s : State) (h : Half) (x : HalfState) :
    (s.setHalf h x).hp = s.hp := by unfold State.setHalf; split <;> rfl

@[simp] theorem State.setHalf_fe (s : State) (h : Half) (x : HalfState) :
    (s.setHalf h x).fe = s.fe := by unfold State.setHalf; split <;> rfl

@[simp] theorem State.setHalf_cx (s : State) (h : Half) (x : HalfState) :
    (s.setHalf h x).cx = s.cx := by unfold State.setHalf; split <;> rfl

@[simp] theorem State.setHalf_sites (s : State) (h : Half) (x : HalfState) :
    (s.setHalf h x).sites = s.sites := by unfold State.setHalf; split <;> rfl

@[simp] theorem State.setHalf_groups (s : State) (h : Half) (x : HalfState) :
    (s.setHalf h x).groups = s.groups := by unfold State.setHalf; split <;> rfl

@[simp] theorem State.setHalf_mgens (s : State) (h : Half) (x : HalfState) :
    (s.setHalf h x).mgens = s.mgens := by unfold State.setHalf; split <;> rfl

@[simp] theorem State.setHalf_models (s : State) (h : Half) (x : HalfState) :
    (s.setHalf h x).models = s.models := by unfold State.setHalf; split <;> rfl

@[simp] theorem State.setHalf_runs (s : State) (h : Half) (x : HalfState) :
    (s.setHalf h x).runs = s.runs := by unfold State.setHalf; split <;> rfl

@[simp] theorem State.setHalf_hb (s : State) (h : Half) (x : HalfState) :
    (s.setHalf h x).hb = s.hb := by unfold State.setHalf; split <;> rfl

@[simp] theorem State.setHalf_fb (s : State) (h : Half) (x : HalfState) :
    (s.setHalf h x).fb = s.fb := by unfold State.setHalf; split <;> rfl

@[simp] theorem State.setHalf_pr (s : State) (h : Half) (x : HalfState) :
    (s.setHalf h x).pr = s.pr := by unfold State.setHalf; split <;> rfl

@[simp] theorem State.setHalf_st (s : State) (h : Half) (x : HalfState) :
    (s.setHalf h x).st = s.st := by unfold State.setHalf; split <;> rfl

@[simp] theorem State.setHalf_rn (s : State) (h : Half) (x : HalfState) :
    (s.setHalf h x).rn = s.rn := by unfold State.setHalf; split <;> rfl

@[simp] theorem State.setHalf_pw_stbyoff (s : State) (h : Half) (x : HalfState) :
    (s.setHalf h x).pw.stbyoff = s.pw.stbyoff := by unfold State.setHalf; split <;> rfl

@[simp] theorem State.setHalf_pw_autowake (s : State) (h : Half) (x : HalfState) :
    (s.setHalf h x).pw.autowake = s.pw.autowake := by unfold State.setHalf; split <;> rfl

@[simp] theorem State.setHalf_pw_mstate (s : State) (h : Half) (x : HalfState) :
    (s.setHalf h x).pw.mstate = s.pw.mstate := by unfold State.setHalf; split <;> rfl

@[simp] theorem State.setHalf_pw_enW (s : State) (h : Half) (x : HalfState) :
    (s.setHalf h x).pw.enW = s.pw.enW := by unfold State.setHalf; split <;> rfl

@[simp] theorem State.setHalf_pw_enE (s : State) (h : Half) (x : HalfState) :
    (s.setHalf h x).pw.enE = s.pw.enE := by unfold State.setHalf; split <;> rfl

@[simp] theorem State.setHalf_pw_limit (s : State) (h : Half) (x : HalfState) :
    (s.setHalf h x).pw.limit = s.pw.limit := by unfold State.setHalf; split <;> rfl

@[simp] theorem State.setHalf_pw_efflim (s : State) (h : Half) (x : HalfState) :
    (s.setHalf h x).pw.efflim = s.pw.efflim := by unfold State.setHalf; split <;> rfl

@[simp] theorem State.setHalf_pw_cphot (s : State) (h : Half) (x : HalfState) :
    (s.setHalf h x).pw.cphot = s.pw.cphot := by unfold State.setHalf; split <;> rfl

@[simp] theorem State.setHalf_pw_modpwr (s : State) (h : Half) (x : HalfState) :
    (s.setHalf h x).pw.modpwr = s.pw.modpwr := by unfold State.setHalf; split <;> rfl

@[simp] theorem State.setHalf_pw_cptemp (s : State) (h : Half) (x : HalfState) :
    (s.setHalf h x).pw.cptemp = s.pw.cptemp := by unfold State.setHalf; split <;> rfl

@[simp] theorem State.setHalf_pw_evTripW (s : State) (h : Half) (x : HalfState) :
    (s.setHalf h x).pw.evTripW = s.pw.evTripW := by unfold State.setHalf; split <;> rfl

@[simp] theorem State.setHalf_pw_evTripE (s : State) (h : Half) (x : HalfState) :
    (s.setHalf h x).pw.evTripE = s.pw.evTripE := by unfold State.setHalf; split <;> rfl

@[simp] theorem State.setHalf_pw_evVinW (s : State) (h : Half) (x : HalfState) :
    (s.setHalf h x).pw.evVinW = s.pw.evVinW := by unfold State.setHalf; split <;> rfl

@[simp] theorem State.setHalf_pw_evVinE (s : State) (h : Half) (x : HalfState) :
    (s.setHalf h x).pw.evVinE = s.pw.evVinE := by unfold State.setHalf; split <;> rfl

@[simp] theorem State.setHalf_pw_evHotHub (s : State) (h : Half) (x : HalfState) :
    (s.setHalf h x).pw.evHotHub = s.pw.evHotHub := by unfold State.setHalf; split <;> rfl

@[simp] theorem State.setHalf_pw_evRange (s : State) (h : Half) (x : HalfState) :
    (s.setHalf h x).pw.evRange = s.pw.evRange := by unfold State.setHalf; split <;> rfl

@[simp] theorem State.setHalf_pw_selA (s : State) (h : Half) (x : HalfState) :
    (s.setHalf h x).pw.selA = s.pw.selA := by unfold State.setHalf; split <;> rfl

@[simp] theorem State.setHalf_pw_selB (s : State) (h : Half) (x : HalfState) :
    (s.setHalf h x).pw.selB = s.pw.selB := by unfold State.setHalf; split <;> rfl

@[simp] theorem State.setHalf_pw_selS (s : State) (h : Half) (x : HalfState) :
    (s.setHalf h x).pw.selS = s.pw.selS := by unfold State.setHalf; split <;> rfl

@[simp] theorem State.setHalf_pw_hotHub (s : State) (h : Half) (x : HalfState) :
    (s.setHalf h x).pw.hotHub = s.pw.hotHub := by unfold State.setHalf; split <;> rfl

@[simp] theorem State.setHalf_pw_tripLine (s : State) (h : Half) (x : HalfState) :
    (s.setHalf h x).pw.tripLine = s.pw.tripLine := by unfold State.setHalf; split <;> rfl

@[simp] theorem State.setHalf_pw_tripSensors (s : State) (h : Half) (x : HalfState) :
    (s.setHalf h x).pw.tripSensors = s.pw.tripSensors := by unfold State.setHalf; split <;> rfl

@[simp] theorem State.setHalf_pw_tjHub (s : State) (h : Half) (x : HalfState) :
    (s.setHalf h x).pw.tjHub = s.pw.tjHub := by unfold State.setHalf; split <;> rfl

@[simp] theorem State.setHalf_pw_vinW (s : State) (h : Half) (x : HalfState) :
    (s.setHalf h x).pw.vinW = s.pw.vinW := by unfold State.setHalf; split <;> rfl

@[simp] theorem State.setHalf_pw_vinE (s : State) (h : Half) (x : HalfState) :
    (s.setHalf h x).pw.vinE = s.pw.vinE := by unfold State.setHalf; split <;> rfl

@[simp] theorem State.setHalf_pw_entry (s : State) (h : Half) (x : HalfState) :
    (s.setHalf h x).pw.entry = s.pw.entry := by unfold State.setHalf; split <;> rfl

@[simp] theorem State.setHalf_pw_stbyW (s : State) (h : Half) (x : HalfState) :
    (s.setHalf h x).pw.stbyW = s.pw.stbyW := by unfold State.setHalf; split <;> rfl

@[simp] theorem State.setHalf_pw_stbyE (s : State) (h : Half) (x : HalfState) :
    (s.setHalf h x).pw.stbyE = s.pw.stbyE := by unfold State.setHalf; split <;> rfl

@[simp] theorem State.setHalf_pw_halfReq (s : State) (h : Half) (x : HalfState) :
    (s.setHalf h x).pw.halfReq = s.pw.halfReq := by unfold State.setHalf; split <;> rfl

@[simp] theorem State.setHalf_dw (s : State) (h : Half) (x : HalfState) :
    (s.setHalf h x).dw = s.dw := by unfold State.setHalf; split <;> rfl

@[simp] theorem State.setHalf_rs (s : State) (h : Half) (x : HalfState) :
    (s.setHalf h x).rs = s.rs := by unfold State.setHalf; split <;> rfl

@[simp] theorem State.setHalf_cs (s : State) (h : Half) (x : HalfState) :
    (s.setHalf h x).cs = s.cs := by unfold State.setHalf; split <;> rfl

@[simp] theorem State.setHalf_host (s : State) (h : Half) (x : HalfState) :
    (s.setHalf h x).host = s.host := by unfold State.setHalf; split <;> rfl

@[simp] theorem State.setHalf_signals (s : State) (h : Half) (x : HalfState) :
    (s.setHalf h x).signals = s.signals := by unfold State.setHalf; split <;> rfl

@[simp] theorem State.setHalf_sideband (s : State) (h : Half) (x : HalfState) :
    (s.setHalf h x).sideband = s.sideband := by unfold State.setHalf; split <;> rfl

@[simp] theorem State.setHalf_free (s : State) (h : Half) (x : HalfState) :
    (s.setHalf h x).free = s.free := by unfold State.setHalf; split <;> rfl

@[simp] theorem State.setHalf_pending (s : State) (h : Half) (x : HalfState) :
    (s.setHalf h x).pending = s.pending := by unfold State.setHalf; split <;> rfl

/-! ### writeHost -/

@[simp] theorem State.writeHost_mg (s : State) (p : Port) (addr : Nat) (bs : Bytes) :
    (s.writeHost p addr bs).mg = s.mg := by unfold State.writeHost State.touchHost State.wakeLink State.setPort; repeat' (first | rfl | split)

@[simp] theorem State.writeHost_hp_rwldrop (s : State) (p : Port) (addr : Nat) (bs : Bytes) :
    (s.writeHost p addr bs).hp.rwldrop = s.hp.rwldrop := by unfold State.writeHost State.touchHost State.wakeLink State.setPort; repeat' (first | rfl | split)

@[simp] theorem State.writeHost_hp_rwlPort (s : State) (p : Port) (addr : Nat) (bs : Bytes) :
    (s.writeHost p addr bs).hp.rwlPort = s.hp.rwlPort := by unfold State.writeHost State.touchHost State.wakeLink State.setPort; repeat' (first | rfl | split)

@[simp] theorem State.writeHost_hp_rwlOff (s : State) (p : Port) (addr : Nat) (bs : Bytes) :
    (s.writeHost p addr bs).hp.rwlOff = s.hp.rwlOff := by unfold State.writeHost State.touchHost State.wakeLink State.setPort; repeat' (first | rfl | split)

@[simp] theorem State.writeHost_hp_hasperr (s : State) (p : Port) (addr : Nat) (bs : Bytes) :
    (s.writeHost p addr bs).hp.hasperr = s.hp.hasperr := by unfold State.writeHost State.touchHost State.wakeLink State.setPort; repeat' (first | rfl | split)

@[simp] theorem State.writeHost_hp_badacc (s : State) (p : Port) (addr : Nat) (bs : Bytes) :
    (s.writeHost p addr bs).hp.badacc = s.hp.badacc := by unfold State.writeHost State.touchHost State.wakeLink State.setPort; repeat' (first | rfl | split)

@[simp] theorem State.writeHost_hp_cachereq (s : State) (p : Port) (addr : Nat) (bs : Bytes) :
    (s.writeHost p addr bs).hp.cachereq = s.hp.cachereq := by unfold State.writeHost State.touchHost State.wakeLink State.setPort; repeat' (first | rfl | split)

@[simp] theorem State.writeHost_hp_hasps (s : State) (p : Port) (addr : Nat) (bs : Bytes) :
    (s.writeHost p addr bs).hp.hasps = s.hp.hasps := by unfold State.writeHost State.touchHost State.wakeLink State.setPort; repeat' (first | rfl | split)

@[simp] theorem State.writeHost_hp_downA (s : State) (p : Port) (addr : Nat) (bs : Bytes) :
    (s.writeHost p addr bs).hp.downA = s.hp.downA := by unfold State.writeHost State.touchHost State.wakeLink State.setPort; repeat' (first | rfl | split)

@[simp] theorem State.writeHost_hp_downB (s : State) (p : Port) (addr : Nat) (bs : Bytes) :
    (s.writeHost p addr bs).hp.downB = s.hp.downB := by unfold State.writeHost State.touchHost State.wakeLink State.setPort; repeat' (first | rfl | split)

@[simp] theorem State.writeHost_hp_freedA (s : State) (p : Port) (addr : Nat) (bs : Bytes) :
    (s.writeHost p addr bs).hp.freedA = s.hp.freedA := by unfold State.writeHost State.touchHost State.wakeLink State.setPort; repeat' (first | rfl | split)

@[simp] theorem State.writeHost_hp_freedB (s : State) (p : Port) (addr : Nat) (bs : Bytes) :
    (s.writeHost p addr bs).hp.freedB = s.hp.freedB := by unfold State.writeHost State.touchHost State.wakeLink State.setPort; repeat' (first | rfl | split)

@[simp] theorem State.writeHost_hp_broke (s : State) (p : Port) (addr : Nat) (bs : Bytes) :
    (s.writeHost p addr bs).hp.broke = s.hp.broke := by unfold State.writeHost State.touchHost State.wakeLink State.setPort; repeat' (first | rfl | split)

@[simp] theorem State.writeHost_hp_lastbrk (s : State) (p : Port) (addr : Nat) (bs : Bytes) :
    (s.writeHost p addr bs).hp.lastbrk = s.hp.lastbrk := by unfold State.writeHost State.touchHost State.wakeLink State.setPort; repeat' (first | rfl | split)

@[simp] theorem State.writeHost_hp_evicts (s : State) (p : Port) (addr : Nat) (bs : Bytes) :
    (s.writeHost p addr bs).hp.evicts = s.hp.evicts := by unfold State.writeHost State.touchHost State.wakeLink State.setPort; repeat' (first | rfl | split)

@[simp] theorem State.writeHost_hp_ansA (s : State) (p : Port) (addr : Nat) (bs : Bytes) :
    (s.writeHost p addr bs).hp.ansA = s.hp.ansA := by unfold State.writeHost State.touchHost State.wakeLink State.setPort; repeat' (first | rfl | split)

@[simp] theorem State.writeHost_hp_ansB (s : State) (p : Port) (addr : Nat) (bs : Bytes) :
    (s.writeHost p addr bs).hp.ansB = s.hp.ansB := by unfold State.writeHost State.touchHost State.wakeLink State.setPort; repeat' (first | rfl | split)

@[simp] theorem State.writeHost_fe (s : State) (p : Port) (addr : Nat) (bs : Bytes) :
    (s.writeHost p addr bs).fe = s.fe := by unfold State.writeHost State.touchHost State.wakeLink State.setPort; repeat' (first | rfl | split)

@[simp] theorem State.writeHost_cx (s : State) (p : Port) (addr : Nat) (bs : Bytes) :
    (s.writeHost p addr bs).cx = s.cx := by unfold State.writeHost State.touchHost State.wakeLink State.setPort; repeat' (first | rfl | split)

@[simp] theorem State.writeHost_sites (s : State) (p : Port) (addr : Nat) (bs : Bytes) :
    (s.writeHost p addr bs).sites = s.sites := by unfold State.writeHost State.touchHost State.wakeLink State.setPort; repeat' (first | rfl | split)

@[simp] theorem State.writeHost_groups (s : State) (p : Port) (addr : Nat) (bs : Bytes) :
    (s.writeHost p addr bs).groups = s.groups := by unfold State.writeHost State.touchHost State.wakeLink State.setPort; repeat' (first | rfl | split)

@[simp] theorem State.writeHost_mgens (s : State) (p : Port) (addr : Nat) (bs : Bytes) :
    (s.writeHost p addr bs).mgens = s.mgens := by unfold State.writeHost State.touchHost State.wakeLink State.setPort; repeat' (first | rfl | split)

@[simp] theorem State.writeHost_models (s : State) (p : Port) (addr : Nat) (bs : Bytes) :
    (s.writeHost p addr bs).models = s.models := by unfold State.writeHost State.touchHost State.wakeLink State.setPort; repeat' (first | rfl | split)

@[simp] theorem State.writeHost_runs (s : State) (p : Port) (addr : Nat) (bs : Bytes) :
    (s.writeHost p addr bs).runs = s.runs := by unfold State.writeHost State.touchHost State.wakeLink State.setPort; repeat' (first | rfl | split)

@[simp] theorem State.writeHost_hb (s : State) (p : Port) (addr : Nat) (bs : Bytes) :
    (s.writeHost p addr bs).hb = s.hb := by unfold State.writeHost State.touchHost State.wakeLink State.setPort; repeat' (first | rfl | split)

@[simp] theorem State.writeHost_fb (s : State) (p : Port) (addr : Nat) (bs : Bytes) :
    (s.writeHost p addr bs).fb = s.fb := by unfold State.writeHost State.touchHost State.wakeLink State.setPort; repeat' (first | rfl | split)

@[simp] theorem State.writeHost_pr (s : State) (p : Port) (addr : Nat) (bs : Bytes) :
    (s.writeHost p addr bs).pr = s.pr := by unfold State.writeHost State.touchHost State.wakeLink State.setPort; repeat' (first | rfl | split)

@[simp] theorem State.writeHost_st (s : State) (p : Port) (addr : Nat) (bs : Bytes) :
    (s.writeHost p addr bs).st = s.st := by unfold State.writeHost State.touchHost State.wakeLink State.setPort; repeat' (first | rfl | split)

@[simp] theorem State.writeHost_rn (s : State) (p : Port) (addr : Nat) (bs : Bytes) :
    (s.writeHost p addr bs).rn = s.rn := by unfold State.writeHost State.touchHost State.wakeLink State.setPort; repeat' (first | rfl | split)

@[simp] theorem State.writeHost_pw (s : State) (p : Port) (addr : Nat) (bs : Bytes) :
    (s.writeHost p addr bs).pw = s.pw := by unfold State.writeHost State.touchHost State.wakeLink State.setPort; repeat' (first | rfl | split)

@[simp] theorem State.writeHost_dw (s : State) (p : Port) (addr : Nat) (bs : Bytes) :
    (s.writeHost p addr bs).dw = s.dw := by unfold State.writeHost State.touchHost State.wakeLink State.setPort; repeat' (first | rfl | split)

@[simp] theorem State.writeHost_rs (s : State) (p : Port) (addr : Nat) (bs : Bytes) :
    (s.writeHost p addr bs).rs = s.rs := by unfold State.writeHost State.touchHost State.wakeLink State.setPort; repeat' (first | rfl | split)

@[simp] theorem State.writeHost_cs (s : State) (p : Port) (addr : Nat) (bs : Bytes) :
    (s.writeHost p addr bs).cs = s.cs := by unfold State.writeHost State.touchHost State.wakeLink State.setPort; repeat' (first | rfl | split)

@[simp] theorem State.writeHost_signals (s : State) (p : Port) (addr : Nat) (bs : Bytes) :
    (s.writeHost p addr bs).signals = s.signals := by unfold State.writeHost State.touchHost State.wakeLink State.setPort; repeat' (first | rfl | split)

@[simp] theorem State.writeHost_sideband (s : State) (p : Port) (addr : Nat) (bs : Bytes) :
    (s.writeHost p addr bs).sideband = s.sideband := by unfold State.writeHost State.touchHost State.wakeLink State.setPort; repeat' (first | rfl | split)

@[simp] theorem State.writeHost_free (s : State) (p : Port) (addr : Nat) (bs : Bytes) :
    (s.writeHost p addr bs).free = s.free := by unfold State.writeHost State.touchHost State.wakeLink State.setPort; repeat' (first | rfl | split)

@[simp] theorem State.writeHost_pending (s : State) (p : Port) (addr : Nat) (bs : Bytes) :
    (s.writeHost p addr bs).pending = s.pending := by unfold State.writeHost State.touchHost State.wakeLink State.setPort; repeat' (first | rfl | split)

/-! ### wardStatus -/

@[simp] theorem State.wardStatus_mg (s : State) (b : Byte) :
    (s.wardStatus b).mg = s.mg := rfl

@[simp] theorem State.wardStatus_hp (s : State) (b : Byte) :
    (s.wardStatus b).hp = s.hp := rfl

@[simp] theorem State.wardStatus_fe (s : State) (b : Byte) :
    (s.wardStatus b).fe = s.fe := rfl

@[simp] theorem State.wardStatus_cx (s : State) (b : Byte) :
    (s.wardStatus b).cx = s.cx := rfl

@[simp] theorem State.wardStatus_sites (s : State) (b : Byte) :
    (s.wardStatus b).sites = s.sites := rfl

@[simp] theorem State.wardStatus_groups (s : State) (b : Byte) :
    (s.wardStatus b).groups = s.groups := rfl

@[simp] theorem State.wardStatus_mgens (s : State) (b : Byte) :
    (s.wardStatus b).mgens = s.mgens := rfl

@[simp] theorem State.wardStatus_models (s : State) (b : Byte) :
    (s.wardStatus b).models = s.models := rfl

@[simp] theorem State.wardStatus_runs (s : State) (b : Byte) :
    (s.wardStatus b).runs = s.runs := rfl

@[simp] theorem State.wardStatus_hb (s : State) (b : Byte) :
    (s.wardStatus b).hb = s.hb := rfl

@[simp] theorem State.wardStatus_fb (s : State) (b : Byte) :
    (s.wardStatus b).fb = s.fb := rfl

@[simp] theorem State.wardStatus_pr (s : State) (b : Byte) :
    (s.wardStatus b).pr = s.pr := rfl

@[simp] theorem State.wardStatus_st (s : State) (b : Byte) :
    (s.wardStatus b).st = s.st := rfl

@[simp] theorem State.wardStatus_rn (s : State) (b : Byte) :
    (s.wardStatus b).rn = s.rn := rfl

@[simp] theorem State.wardStatus_pw (s : State) (b : Byte) :
    (s.wardStatus b).pw = s.pw := rfl

@[simp] theorem State.wardStatus_dw_state (s : State) (b : Byte) :
    (s.wardStatus b).dw.state = s.dw.state := rfl

@[simp] theorem State.wardStatus_dw_fails (s : State) (b : Byte) :
    (s.wardStatus b).dw.fails = s.dw.fails := rfl

@[simp] theorem State.wardStatus_dw_unzero (s : State) (b : Byte) :
    (s.wardStatus b).dw.unzero = s.dw.unzero := rfl

@[simp] theorem State.wardStatus_dw_denied (s : State) (b : Byte) :
    (s.wardStatus b).dw.denied = s.dw.denied := rfl

@[simp] theorem State.wardStatus_dw_op (s : State) (b : Byte) :
    (s.wardStatus b).dw.op = s.dw.op := rfl

@[simp] theorem State.wardStatus_dw_close (s : State) (b : Byte) :
    (s.wardStatus b).dw.close = s.dw.close := rfl

@[simp] theorem State.wardStatus_dw_addr (s : State) (b : Byte) :
    (s.wardStatus b).dw.addr = s.dw.addr := rfl

@[simp] theorem State.wardStatus_dw_chal (s : State) (b : Byte) :
    (s.wardStatus b).dw.chal = s.dw.chal := rfl

@[simp] theorem State.wardStatus_dw_chalTick (s : State) (b : Byte) :
    (s.wardStatus b).dw.chalTick = s.dw.chalTick := rfl

@[simp] theorem State.wardStatus_dw_chalPort (s : State) (b : Byte) :
    (s.wardStatus b).dw.chalPort = s.dw.chalPort := rfl

@[simp] theorem State.wardStatus_dw_resp (s : State) (b : Byte) :
    (s.wardStatus b).dw.resp = s.dw.resp := rfl

@[simp] theorem State.wardStatus_dw_dbgOpen (s : State) (b : Byte) :
    (s.wardStatus b).dw.dbgOpen = s.dw.dbgOpen := rfl

@[simp] theorem State.wardStatus_dw_jtagIr (s : State) (b : Byte) :
    (s.wardStatus b).dw.jtagIr = s.dw.jtagIr := rfl

@[simp] theorem State.wardStatus_dw_jtagOut (s : State) (b : Byte) :
    (s.wardStatus b).dw.jtagOut = s.dw.jtagOut := rfl

@[simp] theorem State.wardStatus_rs (s : State) (b : Byte) :
    (s.wardStatus b).rs = s.rs := rfl

@[simp] theorem State.wardStatus_cs (s : State) (b : Byte) :
    (s.wardStatus b).cs = s.cs := rfl

@[simp] theorem State.wardStatus_host (s : State) (b : Byte) :
    (s.wardStatus b).host = s.host := rfl

@[simp] theorem State.wardStatus_signals (s : State) (b : Byte) :
    (s.wardStatus b).signals = s.signals := rfl

@[simp] theorem State.wardStatus_sideband (s : State) (b : Byte) :
    (s.wardStatus b).sideband = s.sideband := rfl

@[simp] theorem State.wardStatus_free (s : State) (b : Byte) :
    (s.wardStatus b).free = s.free := rfl

@[simp] theorem State.wardStatus_pending (s : State) (b : Byte) :
    (s.wardStatus b).pending = s.pending := rfl

/-! ### fwStatus -/

@[simp] theorem State.fwStatus_mg_grade (s : State) (b : Byte) :
    (s.fwStatus b).mg.grade = s.mg.grade := rfl

@[simp] theorem State.fwStatus_mg_tick (s : State) (b : Byte) :
    (s.fwStatus b).mg.tick = s.mg.tick := rfl

@[simp] theorem State.fwStatus_mg_por (s : State) (b : Byte) :
    (s.fwStatus b).mg.por = s.mg.por := rfl

@[simp] theorem State.fwStatus_mg_mon (s : State) (b : Byte) :
    (s.fwStatus b).mg.mon = s.mg.mon := rfl

@[simp] theorem State.fwStatus_mg_nrstc (s : State) (b : Byte) :
    (s.fwStatus b).mg.nrstc = s.mg.nrstc := rfl

@[simp] theorem State.fwStatus_mg_nrsts (s : State) (b : Byte) :
    (s.fwStatus b).mg.nrsts = s.mg.nrsts := rfl

@[simp] theorem State.fwStatus_mg_wake (s : State) (b : Byte) :
    (s.fwStatus b).mg.wake = s.mg.wake := rfl

@[simp] theorem State.fwStatus_mg_wakem (s : State) (b : Byte) :
    (s.fwStatus b).mg.wakem = s.mg.wakem := rfl

@[simp] theorem State.fwStatus_mg_recov (s : State) (b : Byte) :
    (s.fwStatus b).mg.recov = s.mg.recov := rfl

@[simp] theorem State.fwStatus_mg_monrail (s : State) (b : Byte) :
    (s.fwStatus b).mg.monrail = s.mg.monrail := rfl

@[simp] theorem State.fwStatus_mg_pulse (s : State) (b : Byte) :
    (s.fwStatus b).mg.pulse = s.mg.pulse := rfl

@[simp] theorem State.fwStatus_mg_fwRun (s : State) (b : Byte) :
    (s.fwStatus b).mg.fwRun = s.mg.fwRun := rfl

@[simp] theorem State.fwStatus_mg_fwNor (s : State) (b : Byte) :
    (s.fwStatus b).mg.fwNor = s.mg.fwNor := rfl

@[simp] theorem State.fwStatus_mg_ucif (s : State) (b : Byte) :
    (s.fwStatus b).mg.ucif = s.mg.ucif := rfl

@[simp] theorem State.fwStatus_mg_nordiff (s : State) (b : Byte) :
    (s.fwStatus b).mg.nordiff = s.mg.nordiff := rfl

@[simp] theorem State.fwStatus_mg_fwOp (s : State) (b : Byte) :
    (s.fwStatus b).mg.fwOp = s.mg.fwOp := rfl

@[simp] theorem State.fwStatus_mg_fwSver (s : State) (b : Byte) :
    (s.fwStatus b).mg.fwSver = s.mg.fwSver := rfl

@[simp] theorem State.fwStatus_mg_fwAddr (s : State) (b : Byte) :
    (s.fwStatus b).mg.fwAddr = s.mg.fwAddr := rfl

@[simp] theorem State.fwStatus_mg_fwLen (s : State) (b : Byte) :
    (s.fwStatus b).mg.fwLen = s.mg.fwLen := rfl

@[simp] theorem State.fwStatus_mg_staged (s : State) (b : Byte) :
    (s.fwStatus b).mg.staged = s.mg.staged := rfl

@[simp] theorem State.fwStatus_mg_nor (s : State) (b : Byte) :
    (s.fwStatus b).mg.nor = s.mg.nor := rfl

@[simp] theorem State.fwStatus_mg_running (s : State) (b : Byte) :
    (s.fwStatus b).mg.running = s.mg.running := rfl

@[simp] theorem State.fwStatus_hp (s : State) (b : Byte) :
    (s.fwStatus b).hp = s.hp := rfl

@[simp] theorem State.fwStatus_fe (s : State) (b : Byte) :
    (s.fwStatus b).fe = s.fe := rfl

@[simp] theorem State.fwStatus_cx (s : State) (b : Byte) :
    (s.fwStatus b).cx = s.cx := rfl

@[simp] theorem State.fwStatus_sites (s : State) (b : Byte) :
    (s.fwStatus b).sites = s.sites := rfl

@[simp] theorem State.fwStatus_groups (s : State) (b : Byte) :
    (s.fwStatus b).groups = s.groups := rfl

@[simp] theorem State.fwStatus_mgens (s : State) (b : Byte) :
    (s.fwStatus b).mgens = s.mgens := rfl

@[simp] theorem State.fwStatus_models (s : State) (b : Byte) :
    (s.fwStatus b).models = s.models := rfl

@[simp] theorem State.fwStatus_runs (s : State) (b : Byte) :
    (s.fwStatus b).runs = s.runs := rfl

@[simp] theorem State.fwStatus_hb (s : State) (b : Byte) :
    (s.fwStatus b).hb = s.hb := rfl

@[simp] theorem State.fwStatus_fb (s : State) (b : Byte) :
    (s.fwStatus b).fb = s.fb := rfl

@[simp] theorem State.fwStatus_pr (s : State) (b : Byte) :
    (s.fwStatus b).pr = s.pr := rfl

@[simp] theorem State.fwStatus_st (s : State) (b : Byte) :
    (s.fwStatus b).st = s.st := rfl

@[simp] theorem State.fwStatus_rn (s : State) (b : Byte) :
    (s.fwStatus b).rn = s.rn := rfl

@[simp] theorem State.fwStatus_pw (s : State) (b : Byte) :
    (s.fwStatus b).pw = s.pw := rfl

@[simp] theorem State.fwStatus_dw (s : State) (b : Byte) :
    (s.fwStatus b).dw = s.dw := rfl

@[simp] theorem State.fwStatus_rs (s : State) (b : Byte) :
    (s.fwStatus b).rs = s.rs := rfl

@[simp] theorem State.fwStatus_cs (s : State) (b : Byte) :
    (s.fwStatus b).cs = s.cs := rfl

@[simp] theorem State.fwStatus_host (s : State) (b : Byte) :
    (s.fwStatus b).host = s.host := rfl

@[simp] theorem State.fwStatus_signals (s : State) (b : Byte) :
    (s.fwStatus b).signals = s.signals := rfl

@[simp] theorem State.fwStatus_sideband (s : State) (b : Byte) :
    (s.fwStatus b).sideband = s.sideband := rfl

@[simp] theorem State.fwStatus_free (s : State) (b : Byte) :
    (s.fwStatus b).free = s.free := rfl

@[simp] theorem State.fwStatus_pending (s : State) (b : Byte) :
    (s.fwStatus b).pending = s.pending := rfl

/-! ### rcvStatus -/

@[simp] theorem State.rcvStatus_mg (s : State) (b : Byte) :
    (s.rcvStatus b).mg = s.mg := rfl

@[simp] theorem State.rcvStatus_hp (s : State) (b : Byte) :
    (s.rcvStatus b).hp = s.hp := rfl

@[simp] theorem State.rcvStatus_fe (s : State) (b : Byte) :
    (s.rcvStatus b).fe = s.fe := rfl

@[simp] theorem State.rcvStatus_cx (s : State) (b : Byte) :
    (s.rcvStatus b).cx = s.cx := rfl

@[simp] theorem State.rcvStatus_sites (s : State) (b : Byte) :
    (s.rcvStatus b).sites = s.sites := rfl

@[simp] theorem State.rcvStatus_groups (s : State) (b : Byte) :
    (s.rcvStatus b).groups = s.groups := rfl

@[simp] theorem State.rcvStatus_mgens (s : State) (b : Byte) :
    (s.rcvStatus b).mgens = s.mgens := rfl

@[simp] theorem State.rcvStatus_models (s : State) (b : Byte) :
    (s.rcvStatus b).models = s.models := rfl

@[simp] theorem State.rcvStatus_runs (s : State) (b : Byte) :
    (s.rcvStatus b).runs = s.runs := rfl

@[simp] theorem State.rcvStatus_hb (s : State) (b : Byte) :
    (s.rcvStatus b).hb = s.hb := rfl

@[simp] theorem State.rcvStatus_fb (s : State) (b : Byte) :
    (s.rcvStatus b).fb = s.fb := rfl

@[simp] theorem State.rcvStatus_pr (s : State) (b : Byte) :
    (s.rcvStatus b).pr = s.pr := rfl

@[simp] theorem State.rcvStatus_st (s : State) (b : Byte) :
    (s.rcvStatus b).st = s.st := rfl

@[simp] theorem State.rcvStatus_rn (s : State) (b : Byte) :
    (s.rcvStatus b).rn = s.rn := rfl

@[simp] theorem State.rcvStatus_pw (s : State) (b : Byte) :
    (s.rcvStatus b).pw = s.pw := rfl

@[simp] theorem State.rcvStatus_dw (s : State) (b : Byte) :
    (s.rcvStatus b).dw = s.dw := rfl

@[simp] theorem State.rcvStatus_rs_phase (s : State) (b : Byte) :
    (s.rcvStatus b).rs.phase = s.rs.phase := rfl

@[simp] theorem State.rcvStatus_rs_halt (s : State) (b : Byte) :
    (s.rcvStatus b).rs.halt = s.rs.halt := rfl

@[simp] theorem State.rcvStatus_rs_recovery (s : State) (b : Byte) :
    (s.rcvStatus b).rs.recovery = s.rs.recovery := rfl

@[simp] theorem State.rcvStatus_rs_optsel (s : State) (b : Byte) :
    (s.rcvStatus b).rs.optsel = s.rs.optsel := rfl

@[simp] theorem State.rcvStatus_rs_optAok (s : State) (b : Byte) :
    (s.rcvStatus b).rs.optAok = s.rs.optAok := rfl

@[simp] theorem State.rcvStatus_rs_optBok (s : State) (b : Byte) :
    (s.rcvStatus b).rs.optBok = s.rs.optBok := rfl

@[simp] theorem State.rcvStatus_rs_optdef (s : State) (b : Byte) :
    (s.rcvStatus b).rs.optdef = s.rs.optdef := rfl

@[simp] theorem State.rcvStatus_rs_optStatus (s : State) (b : Byte) :
    (s.rcvStatus b).rs.optStatus = s.rs.optStatus := rfl

@[simp] theorem State.rcvStatus_rs_optCopy (s : State) (b : Byte) :
    (s.rcvStatus b).rs.optCopy = s.rs.optCopy := rfl

@[simp] theorem State.rcvStatus_rs_rcvAddr (s : State) (b : Byte) :
    (s.rcvStatus b).rs.rcvAddr = s.rs.rcvAddr := rfl

@[simp] theorem State.rcvStatus_rs_rcvLen (s : State) (b : Byte) :
    (s.rcvStatus b).rs.rcvLen = s.rs.rcvLen := rfl

@[simp] theorem State.rcvStatus_rs_rcvOp (s : State) (b : Byte) :
    (s.rcvStatus b).rs.rcvOp = s.rs.rcvOp := rfl

@[simp] theorem State.rcvStatus_rs_mirror (s : State) (b : Byte) :
    (s.rcvStatus b).rs.mirror = s.rs.mirror := rfl

@[simp] theorem State.rcvStatus_rs_stage (s : State) (b : Byte) :
    (s.rcvStatus b).rs.stage = s.rs.stage := rfl

@[simp] theorem State.rcvStatus_rs_copyA (s : State) (b : Byte) :
    (s.rcvStatus b).rs.copyA = s.rs.copyA := rfl

@[simp] theorem State.rcvStatus_rs_copyB (s : State) (b : Byte) :
    (s.rcvStatus b).rs.copyB = s.rs.copyB := rfl

@[simp] theorem State.rcvStatus_rs_counter (s : State) (b : Byte) :
    (s.rcvStatus b).rs.counter = s.rs.counter := rfl

@[simp] theorem State.rcvStatus_rs_retired (s : State) (b : Byte) :
    (s.rcvStatus b).rs.retired = s.rs.retired := rfl

@[simp] theorem State.rcvStatus_rs_keys (s : State) (b : Byte) :
    (s.rcvStatus b).rs.keys = s.rs.keys := rfl

@[simp] theorem State.rcvStatus_rs_option (s : State) (b : Byte) :
    (s.rcvStatus b).rs.option = s.rs.option := rfl

@[simp] theorem State.rcvStatus_rs_reach (s : State) (b : Byte) :
    (s.rcvStatus b).rs.reach = s.rs.reach := rfl

@[simp] theorem State.rcvStatus_rs_wakeFrom (s : State) (b : Byte) :
    (s.rcvStatus b).rs.wakeFrom = s.rs.wakeFrom := rfl

@[simp] theorem State.rcvStatus_rs_nrstLow (s : State) (b : Byte) :
    (s.rcvStatus b).rs.nrstLow = s.rs.nrstLow := rfl

@[simp] theorem State.rcvStatus_rs_escalated (s : State) (b : Byte) :
    (s.rcvStatus b).rs.escalated = s.rs.escalated := rfl

@[simp] theorem State.rcvStatus_rs_rails (s : State) (b : Byte) :
    (s.rcvStatus b).rs.rails = s.rs.rails := rfl

@[simp] theorem State.rcvStatus_rs_core (s : State) (b : Byte) :
    (s.rcvStatus b).rs.core = s.rs.core := rfl

@[simp] theorem State.rcvStatus_rs_strap (s : State) (b : Byte) :
    (s.rcvStatus b).rs.strap = s.rs.strap := rfl

@[simp] theorem State.rcvStatus_rs_ready (s : State) (b : Byte) :
    (s.rcvStatus b).rs.ready = s.rs.ready := rfl

@[simp] theorem State.rcvStatus_rs_alert (s : State) (b : Byte) :
    (s.rcvStatus b).rs.alert = s.rs.alert := rfl

@[simp] theorem State.rcvStatus_rs_safeKnown (s : State) (b : Byte) :
    (s.rcvStatus b).rs.safeKnown = s.rs.safeKnown := rfl

@[simp] theorem State.rcvStatus_rs_rcvPorts (s : State) (b : Byte) :
    (s.rcvStatus b).rs.rcvPorts = s.rs.rcvPorts := rfl

@[simp] theorem State.rcvStatus_rs_clkLink (s : State) (b : Byte) :
    (s.rcvStatus b).rs.clkLink = s.rs.clkLink := rfl

@[simp] theorem State.rcvStatus_rs_clkSite (s : State) (b : Byte) :
    (s.rcvStatus b).rs.clkSite = s.rs.clkSite := rfl

@[simp] theorem State.rcvStatus_rs_clkTcxo (s : State) (b : Byte) :
    (s.rcvStatus b).rs.clkTcxo = s.rs.clkTcxo := rfl

@[simp] theorem State.rcvStatus_cs (s : State) (b : Byte) :
    (s.rcvStatus b).cs = s.cs := rfl

@[simp] theorem State.rcvStatus_host (s : State) (b : Byte) :
    (s.rcvStatus b).host = s.host := rfl

@[simp] theorem State.rcvStatus_signals (s : State) (b : Byte) :
    (s.rcvStatus b).signals = s.signals := rfl

@[simp] theorem State.rcvStatus_sideband (s : State) (b : Byte) :
    (s.rcvStatus b).sideband = s.sideband := rfl

@[simp] theorem State.rcvStatus_free (s : State) (b : Byte) :
    (s.rcvStatus b).free = s.free := rfl

@[simp] theorem State.rcvStatus_pending (s : State) (b : Byte) :
    (s.rcvStatus b).pending = s.pending := rfl

/-! ### atInstant -/

@[simp] theorem State.atInstant_mg (s : State) (now : Nat) :
    (s.atInstant now).mg = s.mg := rfl

@[simp] theorem State.atInstant_hp (s : State) (now : Nat) :
    (s.atInstant now).hp = s.hp := rfl

@[simp] theorem State.atInstant_fe (s : State) (now : Nat) :
    (s.atInstant now).fe = s.fe := rfl

@[simp] theorem State.atInstant_cx (s : State) (now : Nat) :
    (s.atInstant now).cx = s.cx := rfl

@[simp] theorem State.atInstant_sites (s : State) (now : Nat) :
    (s.atInstant now).sites = s.sites := rfl

@[simp] theorem State.atInstant_groups (s : State) (now : Nat) :
    (s.atInstant now).groups = s.groups := rfl

@[simp] theorem State.atInstant_mgens (s : State) (now : Nat) :
    (s.atInstant now).mgens = s.mgens := rfl

@[simp] theorem State.atInstant_models (s : State) (now : Nat) :
    (s.atInstant now).models = s.models := rfl

@[simp] theorem State.atInstant_runs (s : State) (now : Nat) :
    (s.atInstant now).runs = s.runs := rfl

@[simp] theorem State.atInstant_hb (s : State) (now : Nat) :
    (s.atInstant now).hb = s.hb := rfl

@[simp] theorem State.atInstant_fb (s : State) (now : Nat) :
    (s.atInstant now).fb = s.fb := rfl

@[simp] theorem State.atInstant_pr (s : State) (now : Nat) :
    (s.atInstant now).pr = s.pr := rfl

@[simp] theorem State.atInstant_st_lane0 (s : State) (now : Nat) :
    (s.atInstant now).st.lane0 = s.st.lane0 := rfl

@[simp] theorem State.atInstant_st_lane1 (s : State) (now : Nat) :
    (s.atInstant now).st.lane1 = s.st.lane1 := rfl

@[simp] theorem State.atInstant_st_tstate (s : State) (now : Nat) :
    (s.atInstant now).st.tstate = s.st.tstate := rfl

@[simp] theorem State.atInstant_st_doVal (s : State) (now : Nat) :
    (s.atInstant now).st.doVal = s.st.doVal := rfl

@[simp] theorem State.atInstant_st_doSrc (s : State) (now : Nat) :
    (s.atInstant now).st.doSrc = s.st.doSrc := rfl

@[simp] theorem State.atInstant_st_doStrm (s : State) (now : Nat) :
    (s.atInstant now).st.doStrm = s.st.doStrm := rfl

@[simp] theorem State.atInstant_st_doExtest (s : State) (now : Nat) :
    (s.atInstant now).st.doExtest = s.st.doExtest := rfl

@[simp] theorem State.atInstant_st_diLevel (s : State) (now : Nat) :
    (s.atInstant now).st.diLevel = s.st.diLevel := rfl

@[simp] theorem State.atInstant_st_diEdgeEn (s : State) (now : Nat) :
    (s.atInstant now).st.diEdgeEn = s.st.diEdgeEn := rfl

@[simp] theorem State.atInstant_st_diLast (s : State) (now : Nat) :
    (s.atInstant now).st.diLast = s.st.diLast := rfl

@[simp] theorem State.atInstant_st_diEdge (s : State) (now : Nat) :
    (s.atInstant now).st.diEdge = s.st.diEdge := rfl

@[simp] theorem State.atInstant_st_diTs (s : State) (now : Nat) :
    (s.atInstant now).st.diTs = s.st.diTs := rfl

@[simp] theorem State.atInstant_st_sselA (s : State) (now : Nat) :
    (s.atInstant now).st.sselA = s.st.sselA := rfl

@[simp] theorem State.atInstant_st_sselB (s : State) (now : Nat) :
    (s.atInstant now).st.sselB = s.st.sselB := rfl

@[simp] theorem State.atInstant_st_streams (s : State) (now : Nat) :
    (s.atInstant now).st.streams = s.st.streams := rfl

@[simp] theorem State.atInstant_st_setpoints (s : State) (now : Nat) :
    (s.atInstant now).st.setpoints = s.st.setpoints := rfl

@[simp] theorem State.atInstant_st_prpSeen (s : State) (now : Nat) :
    (s.atInstant now).st.prpSeen = s.st.prpSeen := rfl

@[simp] theorem State.atInstant_st_prpSeq (s : State) (now : Nat) :
    (s.atInstant now).st.prpSeq = s.st.prpSeq := rfl

@[simp] theorem State.atInstant_st_out (s : State) (now : Nat) :
    (s.atInstant now).st.out = s.st.out := rfl

@[simp] theorem State.atInstant_rn (s : State) (now : Nat) :
    (s.atInstant now).rn = s.rn := rfl

@[simp] theorem State.atInstant_pw (s : State) (now : Nat) :
    (s.atInstant now).pw = s.pw := rfl

@[simp] theorem State.atInstant_dw (s : State) (now : Nat) :
    (s.atInstant now).dw = s.dw := rfl

@[simp] theorem State.atInstant_rs (s : State) (now : Nat) :
    (s.atInstant now).rs = s.rs := rfl

@[simp] theorem State.atInstant_cs (s : State) (now : Nat) :
    (s.atInstant now).cs = s.cs := rfl

@[simp] theorem State.atInstant_host (s : State) (now : Nat) :
    (s.atInstant now).host = s.host := rfl

@[simp] theorem State.atInstant_signals (s : State) (now : Nat) :
    (s.atInstant now).signals = s.signals := rfl

@[simp] theorem State.atInstant_sideband (s : State) (now : Nat) :
    (s.atInstant now).sideband = s.sideband := rfl

@[simp] theorem State.atInstant_free (s : State) (now : Nat) :
    (s.atInstant now).free = s.free := rfl

@[simp] theorem State.atInstant_pending (s : State) (now : Nat) :
    (s.atInstant now).pending = s.pending := rfl

end Sys2Proof.Machine
end

