-- ==== Sys2Proof/Laws/Access.lean ====
section
/-! SUPPORT. What an access to an open register does, what a transaction with the host does to its link, and small lemmas of tables,
peer messages, common SRAM and loads. -/

namespace Sys2Proof.Machine

/-- A write of an open register with an RWL field, by the holder of Hasp 0, runs the operation on the woken state. -/
theorem onRwl_eq {s u : State} {p : Port} {off : Nat} (hu : u = s.wakeLink p) (ho : s.regReach p off = .open_)
    (hh : u.holdsSetup p = true) (f : State → State) : s.onRwl p off f = f u := by
  unfold State.onRwl State.onWrite
  rw [ho]
  dsimp only
  rw [← hu, hh]
  rfl

/-- Waking a link changes no link between up and down. -/
theorem State.wakeLink_linkUp (s : State) (p q : Port) : (s.wakeLink p).linkUp q = s.linkUp q := by
  unfold State.wakeLink; split
  · rename_i h
    cases p <;> cases q <;> simp_all [State.linkUp, State.setPort, State.port]
  · rfl

/-- A woken link leaves the way of every transaction. -/
theorem State.wakeLink_viaPort (s : State) (p q : Port) : (s.wakeLink p).viaPort q = s.viaPort q := by
  simp only [State.viaPort, State.wakeLink_linkUp]

/-- A woken link leaves whether the host can be reached. -/
theorem State.wakeLink_hostUp (s : State) (p : Port) : (s.wakeLink p).hostUp = s.hostUp := by
  simp only [State.hostUp, State.wakeLink_linkUp]

/-- A transaction changes no link between up and down. -/
theorem State.touchHost_linkUp (s : State) (p q : Port) : (s.touchHost p).linkUp q = s.linkUp q := by
  unfold State.touchHost; split
  · exact State.wakeLink_linkUp _ _ _
  · rfl

/-- A transaction leaves the way of every other. -/
theorem State.touchHost_viaPort (s : State) (p q : Port) : (s.touchHost p).viaPort q = s.viaPort q := by
  simp only [State.viaPort, State.touchHost_linkUp]

/-- A transaction leaves whether the host can be reached. -/
theorem State.touchHost_hostUp (s : State) (p : Port) : (s.touchHost p).hostUp = s.hostUp := by
  simp only [State.hostUp, State.touchHost_linkUp]

/-- A link is woken once. -/
theorem State.wakeLink_idem (s : State) (p : Port) : (s.wakeLink p).wakeLink p = s.wakeLink p := by
  have key : ∀ t : State, (t.port p).state ≠ .lowPower → t.wakeLink p = t := by
    intro t h; unfold State.wakeLink; exact if_neg h
  apply key
  unfold State.wakeLink
  split
  · cases p <;> simp [State.port, State.setPort]
  · assumption

/-- Two transactions on one link wake it as one does. -/
theorem State.touchHost_idem (s : State) (p : Port) : (s.touchHost p).touchHost p = s.touchHost p := by
  cases h : s.viaPort p with
  | none =>
    have e : s.touchHost p = s := by unfold State.touchHost; rw [h]
    rw [e, e]
  | some q =>
    have e : s.touchHost p = s.wakeLink q := by unfold State.touchHost; rw [h]
    rw [e]
    unfold State.touchHost
    rw [State.wakeLink_viaPort, h]
    exact State.wakeLink_idem _ _

/-- A transaction has a way only where the host can be reached. -/
theorem State.viaPort_up {s : State} {p q : Port} (hp : s.viaPort p = some q) : s.hostUp = true := by
  unfold State.viaPort at hp
  unfold State.hostUp
  cases ha : s.linkUp .a <;> cases hbb : s.linkUp .b <;> split at hp <;> simp_all

/-- A transaction leaves the home port of every queue. -/
theorem State.touchHost_homeOf (s : State) (p : Port) (n : Nat) : (s.touchHost p).homeOf n = s.homeOf n := by
  unfold State.homeOf State.queue?; rw [State.touchHost_fe]

/-- A write to host memory while a link is up: the link that carries it is awake, and the bytes stand. -/
theorem State.writeHost_eq {s : State} (h : s.hostUp = true) (p : Port) (a : Nat) (bs : Bytes) :
    s.writeHost p a bs = { s.touchHost p with host := Mem.store s.host a bs } := by
  unfold State.writeHost; exact if_pos h

/-- A write for a queue while a link is up. -/
theorem State.writeFor_eq {s : State} (h : s.hostUp = true) (n a : Nat) (bs : Bytes) :
    s.writeFor n a bs = { s.touchHost (s.homeOf n) with host := Mem.store s.host a bs } := by
  unfold State.writeFor; rw [if_pos h, State.writeHost_eq h]

/-- A transaction and a change of host memory do not depend on each other. -/
theorem State.touchHost_host_with (s : State) (p : Port) (m : Mem) :
    (({ s with host := m } : State).touchHost p) = { s.touchHost p with host := m } := by
  unfold State.touchHost
  rw [show ({ s with host := m } : State).viaPort p = s.viaPort p from rfl]
  cases s.viaPort p with
  | none => rfl
  | some q => unfold State.wakeLink State.setPort; dsimp only; rw [show ({ s with host := m } : State).port q = s.port q from rfl]; split <;> cases q <;> rfl

/-- A message that is copied at forks adds to what goes out on the peer links, and changes nothing else. -/
theorem State.sendForked_out (s : State) (cls job gen : Nat) (a : Option Nat) (ws : List Nat) :
    ∃ o, s.sendForked cls job gen a ws = { s with pr := { s.pr with out := o } } := by
  unfold State.sendForked
  suffices h : ∀ (l : List Nat) (t : State) (f : State → Nat → State), (∀ t x, ∃ o, f t x = { t with pr := { t.pr with out := o } }) →
      ∃ o, l.foldl f t = { t with pr := { t.pr with out := o } } by
    apply h
    intro t x
    split
    · split
      · exact ⟨t.pr.out, rfl⟩
      · exact ⟨_, rfl⟩
    · exact ⟨t.pr.out, rfl⟩
  intro l
  induction l with
  | nil => intro t f _; exact ⟨t.pr.out, rfl⟩
  | cons x l ih =>
    intro t f hf
    obtain ⟨o, ho⟩ := hf t x
    obtain ⟨o2, h2⟩ := ih (f t x) f hf
    exact ⟨o2, by rw [List.foldl_cons, h2, ho]⟩

/-- Binding the links of a model leaves every load generation and every model. -/
theorem State.bindLinks_mgens (s : State) (d : Bytes) (i : Nat) (f) : (s.bindLinks d i f).mgens = s.mgens ∧ (s.bindLinks d i f).models = s.models := by
  unfold State.bindLinks
  generalize s.usedLinks d = l
  have : ∀ t : State, (l.foldl (fun t x => State.bindLink i f (State.linkCount d x) t x) t).mgens = t.mgens ∧ (l.foldl (fun t x => State.bindLink i f (State.linkCount d x) t x) t).models = t.models := by
    induction l with
    | nil => exact fun t => ⟨rfl, rfl⟩
    | cons a l ih =>
      intro t
      rw [List.foldl_cons]
      have h1 := ih (State.bindLink i f (State.linkCount d a) t a)
      have h2 : (State.bindLink i f (State.linkCount d a) t a).mgens = t.mgens ∧ (State.bindLink i f (State.linkCount d a) t a).models = t.models := by
        unfold State.bindLink
        dsimp only
        split <;> exact ⟨rfl, rfl⟩
      exact ⟨h1.1.trans h2.1, h1.2.trans h2.2⟩
  exact this s

/-- Making room for a model leaves every load generation. -/
theorem State.makeRoom_mgens (s : State) (d : Bytes) : (s.makeRoom d).mgens = s.mgens := by
  have hr : ∀ (a : Model → List Alloc) (b) (o l : Nat) (m) (n) (t : State) (le su : Nat), (State.roomFor a b o l m n t le su).mgens = t.mgens := by
    intro a b o l m n t le su
    unfold State.roomFor; dsimp only; split
    · rfl
    · rfl
  unfold State.makeRoom
  dsimp only
  rw [foldl_keeps_proj _ State.mgens (fun s a => hr _ _ _ _ _ _ _ _ _), foldl_keeps_proj _ State.mgens (fun s a => by simp only [hr])]

/-- Writing the rows of a model leaves every load generation and every model. -/
theorem State.rewriteModel_frame (s : State) (m : Model) : (s.rewriteModel m).mgens = s.mgens ∧ (s.rewriteModel m).models = s.models := by
  unfold State.rewriteModel
  exact ⟨foldl_keeps_proj (fun t le => t.rewriteWords (t.siteOf le) (State.heldWord m le)) State.mgens (fun _ _ => rfl) _ _,
    foldl_keeps_proj (fun t le => t.rewriteWords (t.siteOf le) (State.heldWord m le)) State.models (fun _ _ => rfl) _ _⟩

/-- The plain offset of an address that lies in a window. -/
theorem State.csOffset_of {addr : Nat} {w : CsWindow} {off : Nat} (h : State.csWindow addr = some (w, off)) :
    State.csOffset addr = off := by
  simp [State.csOffset, h]

/-- What an update of a table leaves at its key. -/
theorem Tbl.get?_upd {α : Type} (t : Tbl α) (i : Nat) (f : α → α) : Tbl.get? (Tbl.upd t i f) i = (Tbl.get? t i).map f := by
  induction t with
  | nil => rfl
  | cons p t ih =>
    obtain ⟨k, w⟩ := p
    simp only [Tbl.upd, List.map_cons] at ih ⊢
    by_cases hk : k = i
    · simp [hk, Tbl.get?]
    · simp only [hk, if_false, Tbl.get?, ih]

/-- What an update of a stream record leaves of it. -/
theorem State.stream?_updStream (s : State) (n : Nat) (f : Stream → Stream) :
    (s.updStream n f).stream? n = (s.stream? n).map f := Tbl.get?_upd _ _ _

end Sys2Proof.Machine
end

