-- ==== Sys2Proof/Laws/Memory.lean ====
section
/-! SUPPORT. Memories and tables: a read after a store, a store leaves every other byte alone, and every store keeps the
canonical form. -/

namespace Sys2Proof.Machine

/-! ### Memories -/

theorem Mem.wfFrom_mono {m : Mem} {lo lo' : Nat} (le : lo' ≤ lo) (h : Mem.wfFrom lo m = true) : Mem.wfFrom lo' m = true := by
  cases m with
  | nil => rfl
  | cons c m =>
    obtain ⟨a, v⟩ := c
    simp only [Mem.wfFrom, Bool.and_eq_true, decide_eq_true_eq] at h ⊢
    exact ⟨⟨by omega, h.1.2⟩, h.2⟩

theorem Mem.wfFrom_cons {lo a : Nat} {v : Byte} {m : Mem} :
    Mem.wfFrom lo ((a, v) :: m) = true ↔ lo ≤ a ∧ v ≠ 0 ∧ Mem.wfFrom (a + 1) m = true := by
  simp only [Mem.wfFrom, Bool.and_eq_true, decide_eq_true_eq, bne_iff_ne, and_assoc]

theorem Mem.put_wfFrom {m : Mem} {lo a : Nat} (v : Byte) (le : lo ≤ a) (h : Mem.wfFrom lo m = true) :
    Mem.wfFrom lo (Mem.put m a v) = true := by
  induction m generalizing lo with
  | nil =>
    unfold Mem.put
    split
    · rfl
    · exact Mem.wfFrom_cons.2 ⟨le, ‹_›, rfl⟩
  | cons c m ih =>
    obtain ⟨b, w⟩ := c
    obtain ⟨h1, h2, h3⟩ := Mem.wfFrom_cons.1 h
    unfold Mem.put
    split
    · split
      · exact h
      · exact Mem.wfFrom_cons.2 ⟨le, ‹_›, Mem.wfFrom_cons.2 ⟨‹_›, h2, h3⟩⟩
    · split
      · subst_vars
        split
        · exact Mem.wfFrom_mono (by omega) h3
        · exact Mem.wfFrom_cons.2 ⟨le, ‹_›, h3⟩
      · exact Mem.wfFrom_cons.2 ⟨h1, h2, ih (by omega) h3⟩

/-- A write of one byte keeps the canonical form. -/
theorem Mem.put_wf {m : Mem} (a : Nat) (v : Byte) (h : Mem.wf m = true) : Mem.wf (Mem.put m a v) = true :=
  Mem.put_wfFrom v (Nat.zero_le a) h

/-- A write of a byte string keeps the canonical form. -/
theorem Mem.store_wf {m : Mem} (a : Nat) (bs : Bytes) (h : Mem.wf m = true) : Mem.wf (Mem.store m a bs) = true := by
  induction bs generalizing m a with
  | nil => exact h
  | cons v bs ih => exact ih _ (Mem.put_wf a v h)

theorem Mem.put_mem {m : Mem} {a : Nat} {v : Byte} {c : Host.Cell} (h : c ∈ Mem.put m a v) : c.1 = a ∨ c ∈ m := by
  induction m with
  | nil =>
    unfold Mem.put at h
    split at h
    · exact absurd h List.not_mem_nil
    · exact .inl (congrArg (·.1) (List.mem_singleton.1 h))
  | cons d m ih =>
    obtain ⟨b, w⟩ := d
    simp only [Mem.put] at h
    split at h
    · split at h
      · exact .inr h
      · rcases List.mem_cons.1 h with h | h
        · exact .inl (h ▸ rfl)
        · exact .inr h
    · split at h
      · split at h
        · exact .inr (List.mem_cons_of_mem _ h)
        · rcases List.mem_cons.1 h with h | h
          · exact .inl (h ▸ rfl)
          · exact .inr (List.mem_cons_of_mem _ h)
      · rcases List.mem_cons.1 h with h | h
        · exact .inr (h ▸ List.mem_cons_self)
        · exact (ih h).imp id (List.mem_cons_of_mem _)

/-- A store lists no address outside its own range that was not listed before. -/
theorem Mem.store_mem {m : Mem} {a : Nat} {bs : Bytes} {c : Host.Cell} (h : c ∈ Mem.store m a bs) :
    (a ≤ c.1 ∧ c.1 < a + bs.length) ∨ c ∈ m := by
  induction bs generalizing m a with
  | nil => exact .inr h
  | cons v bs ih =>
    rcases ih h with h | h
    · exact .inl ⟨by omega, by simp only [List.length_cons]; omega⟩
    · exact (Mem.put_mem h).imp (fun e => ⟨by omega, by simp only [List.length_cons]; omega⟩) id

theorem Mem.read_of_wfFrom {m : Mem} {lo a : Nat} (h : Mem.wfFrom lo m = true) (lt : a < lo) : Mem.read m a = 0 := by
  induction m generalizing lo with
  | nil => rfl
  | cons c m ih =>
    obtain ⟨b, w⟩ := c
    simp only [Mem.wfFrom, Bool.and_eq_true, decide_eq_true_eq] at h
    simp only [Mem.read]
    rw [if_neg (by omega)]
    exact ih h.2 (by omega)

/-- A byte written is read back, and every other byte reads as before. -/
theorem Mem.read_put {m : Mem} {lo : Nat} (h : Mem.wfFrom lo m = true) (a : Nat) (v : Byte) (x : Nat) :
    Mem.read (Mem.put m a v) x = if x = a then v else Mem.read m x := by
  induction m generalizing lo with
  | nil =>
    by_cases hv : v = 0
    · simp [Mem.put, hv, Mem.read]
    · simp only [Mem.put, hv, if_false, Mem.read, eq_comm]
  | cons c m ih =>
    obtain ⟨b, w⟩ := c
    simp only [Mem.wfFrom, Bool.and_eq_true, decide_eq_true_eq] at h
    have hz : ∀ y, y < b + 1 → Mem.read m y = 0 := fun y hy => Mem.read_of_wfFrom h.2 hy
    simp only [Mem.put]
    split
    · split
      · by_cases hx : x = a
        · subst hx; simp [Mem.read, show ¬ b = x by omega, hz x (by omega), *]
        · simp [hx]
      · by_cases hx : x = a
        · subst hx; simp [Mem.read]
        · simp [hx, Mem.read, show ¬ a = x by omega]
    · split
      · subst_vars
        split
        · by_cases hx : x = b
          · subst hx; simp [hz x (by omega), *]
          · simp [hx, Mem.read, show ¬ b = x by omega]
        · by_cases hx : x = b
          · subst hx; simp [Mem.read]
          · simp [hx, Mem.read, show ¬ b = x by omega]
      · simp only [Mem.read, ih h.2]
        by_cases hb : b = x
        · subst hb; simp [show ¬ b = a by omega]
        · simp [hb]

/-- A store leaves every byte outside its range as it was. -/
theorem Mem.read_store_outside {m : Mem} (h : Mem.wf m = true) {a x : Nat} (bs : Bytes) (out : x < a ∨ a + bs.length ≤ x) :
    Mem.read (Mem.store m a bs) x = Mem.read m x := by
  induction bs generalizing m a with
  | nil => rfl
  | cons v bs ih =>
    simp only [List.length_cons] at out
    rw [Mem.store, ih (Mem.put_wf a v h) (by omega), Mem.read_put h, if_neg (by omega)]

/-- A store is read back byte by byte. -/
theorem Mem.read_store_inside {m : Mem} (h : Mem.wf m = true) {a i : Nat} {bs : Bytes} (lt : i < bs.length) :
    Mem.read (Mem.store m a bs) (a + i) = bs[i] := by
  induction bs generalizing m a i with
  | nil => exact absurd lt (Nat.not_lt_zero i)
  | cons v bs ih =>
    cases i with
    | zero =>
      rw [Mem.store, Mem.read_store_outside (Mem.put_wf a v h) bs (by omega), Mem.read_put h, if_pos (by omega)]
      rfl
    | succ i =>
      have := ih (Mem.put_wf a v h) (a := a + 1) (i := i) (by simpa using lt)
      simpa only [Mem.store, List.getElem_cons_succ, Nat.add_assoc, Nat.add_comm 1 i] using this

/-! ### Tables by number -/

theorem Tbl.put_mem {α : Type} {t : Tbl α} {i : Nat} {v : α} {p : Nat × α} (h : p ∈ Tbl.put t i v) : p = (i, v) ∨ p ∈ t := by
  induction t with
  | nil => exact .inl (List.mem_singleton.1 h)
  | cons q t ih =>
    obtain ⟨k, w⟩ := q
    simp only [Tbl.put] at h
    split at h
    · exact List.mem_cons.1 h
    · split at h
      · exact (List.mem_cons.1 h).imp id (List.mem_cons_of_mem _)
      · rcases List.mem_cons.1 h with h | h
        · exact .inr (h ▸ List.mem_cons_self)
        · exact (ih h).imp id (List.mem_cons_of_mem _)

end Sys2Proof.Machine
end

