-- ==== Sys2Proof/Laws/Keeps.lean ====
section
/-! SUPPORT. What a change of the module keeps: `Keeps bk bg s t` says that from `s` to `t` the queue of waiting commands
stays, the key store stays (where `bk`), the load generations stay (where `bg`), and a canonical state stays canonical. Each
operation of the machine has a lemma of this form under its own name with `_keeps`, in the files Laws/Keeps1 and on. -/

namespace Sys2Proof.Machine

/-- What stays from one state to another. -/
structure Keeps (bk bg : Bool) (s t : State) : Prop where
  pending : t.pending = s.pending
  keys : bk = true → t.rs.keys = s.rs.keys
  gens : bg = true → t.mgens = s.mgens
  canonical : s.Canonical → t.Canonical

theorem Keeps.refl (bk bg : Bool) (s : State) : Keeps bk bg s s := ⟨rfl, fun _ => rfl, fun _ => rfl, id⟩

theorem Keeps.trans {bk bg : Bool} {s t u : State} (h : Keeps bk bg s t) (k : Keeps bk bg t u) : Keeps bk bg s u :=
  ⟨k.pending.trans h.pending, fun e => (k.keys e).trans (h.keys e), fun e => (k.gens e).trans (h.gens e), fun c => k.canonical (h.canonical c)⟩

/-- A state given by its fields, under a name of its own: `State.mk` is also every state's own form. -/
def State.made (a1 : Mg) (a2 : Hp) (a3 : Fe) (a4 : Cx) (a5 : List Site) (a6 : List Group) (a7 : Tbl Nat) (a8 : Tbl Model)
    (a9 : List Run) (a10 : Hb) (a11 : Fb) (a12 : Pr) (a13 : St) (a14 : Rn) (a15 : Pw) (a16 : Dw) (a17 : Rs) (a18 : Cs)
    (a19 : Mem) (a20 : List Signal) (a21 : Answer) (a22 : Nat) (a23 : List Instr) : State := State.mk a1 a2 a3 a4 a5 a6 a7 a8 a9 a10 a11 a12 a13 a14 a15 a16 a17 a18 a19 a20 a21 a22 a23

theorem State.made_eq (bk bg : Bool) (s0 : State) (a1 : Mg) (a2 : Hp) (a3 : Fe) (a4 : Cx) (a5 : List Site)
    (a6 : List Group) (a7 : Tbl Nat) (a8 : Tbl Model)
    (a9 : List Run) (a10 : Hb) (a11 : Fb) (a12 : Pr) (a13 : St) (a14 : Rn) (a15 : Pw) (a16 : Dw) (a17 : Rs) (a18 : Cs)
    (a19 : Mem) (a20 : List Signal) (a21 : Answer) (a22 : Nat) (a23 : List Instr) :
    Keeps bk bg s0 (State.mk a1 a2 a3 a4 a5 a6 a7 a8 a9 a10 a11 a12 a13 a14 a15 a16 a17 a18 a19 a20 a21 a22 a23) = Keeps bk bg s0 (State.made a1 a2 a3 a4 a5 a6 a7 a8 a9 a10 a11 a12 a13 a14 a15 a16 a17 a18 a19 a20 a21 a22 a23) := rfl

theorem State.made_keeps {bk bg : Bool} {s0 t : State} {a1 : Mg} {a2 : Hp} {a3 : Fe} {a4 : Cx} {a5 : List Site}
    {a6 : List Group} {a8 : Tbl Model}
    {a9 : List Run} {a10 : Hb} {a11 : Fb} {a12 : Pr} {a13 : St} {a14 : Rn} {a15 : Pw} {a16 : Dw} {a17 : Rs} {a18 : Cs}
    {a20 : List Signal} {a21 : Answer} {a22 : Nat} (h : Keeps bk bg s0 t) (hr : a17.keys = t.rs.keys) (hc : a18.mem = t.cs.mem) :
    Keeps bk bg s0 (State.made a1 a2 a3 a4 a5 a6 t.mgens a8 a9 a10 a11 a12 a13 a14 a15 a16 a17 a18 t.host a20 a21 a22 t.pending) :=
  ⟨h.pending, fun e => hr.trans (h.keys e), fun e => h.gens e, fun c => by
    have := h.canonical c
    simpa only [State.Canonical, State.made, hr, hc] using this⟩

theorem State.ite_keeps {bk bg : Bool} {s0 : State} {c : Prop} [Decidable c] {t e : State} (ht : Keeps bk bg s0 t)
    (he : Keeps bk bg s0 e) :
    Keeps bk bg s0 (if c then t else e) := by
  split
  · exact ht
  · exact he

theorem State.foldl_keeps {α : Type} {bk bg : Bool} {s0 : State} {f : State → α → State}
    (h : ∀ t a, Keeps bk bg s0 t → Keeps bk bg s0 (f t a))
    {l : List α} {s : State} (k : Keeps bk bg s0 s) : Keeps bk bg s0 (l.foldl f s) := by
  induction l generalizing s with
  | nil => exact k
  | cons a l ih => exact ih (h s a k)

/-- A change of host memory by a store. -/
theorem State.host_keeps {bk bg : Bool} {s0 s : State} (a : Nat) (bs : Bytes) (h : Keeps bk bg s0 s) :
    Keeps bk bg s0 { s with host := Mem.store s.host a bs } :=
  ⟨h.pending, h.keys, h.gens, fun c => ⟨Mem.store_wf a bs (h.canonical c).1, (h.canonical c).2⟩⟩

/-- A change of common SRAM to another canonical memory. -/
theorem State.cs_keeps {bk bg : Bool} {s0 s : State} {c : Cs} (h : Keeps bk bg s0 s)
    (w : Mem.wf s.cs.mem = true → Mem.wf c.mem = true) : Keeps bk bg s0 { s with cs := c } :=
  ⟨h.pending, h.keys, h.gens, fun k => ⟨(h.canonical k).1, w (h.canonical k).2.1, (h.canonical k).2.2⟩⟩

end Sys2Proof.Machine
end

