-- ==== Sys2Proof/Laws/Keeps1.lean ====
section
/-! SUPPORT. What the operations and commands of these files of the machine keep (Laws/Keeps): Ops, Access, Account, Flags, Models, Requests, Engine, History. -/

namespace Sys2Proof.Machine

/-! ### Ops -/

theorem State.takeFree_keeps {bk bg : Bool} {s0 s : State} {x : Nat} {t : State} (e : State.takeFree s = (x, t))
    (h : Keeps bk bg s0 s) : Keeps bk bg s0 t := by
  unfold State.takeFree at e
  repeat' first
    | (with_reducible assumption)
    | (cases e)
    | (simp only [State.made_eq]; with_reducible refine State.made_keeps ?_ ?_ ?_)
    | with_reducible rfl

theorem State.takeFree_snd_keeps {bk bg : Bool} {s0 s : State} (h : Keeps bk bg s0 s) : Keeps bk bg s0
    (State.takeFree s).2 :=
  State.takeFree_keeps rfl h

theorem State.answer_keeps {bk bg : Bool} {s0 s : State} {x1 : Port} {x2 : Answer}
    (h : Keeps bk bg s0 s) : Keeps bk bg s0 (State.answer s x1 x2) := by
  unfold State.answer
  repeat' first
    | (with_reducible assumption)
    | (simp only [State.made_eq]; with_reducible refine State.made_keeps ?_ ?_ ?_)
    | with_reducible rfl
    | split

theorem State.updCtx_keeps {bk bg : Bool} {s0 s : State} {x1 : Nat} {x2 : Ctx → Ctx}
    (h : Keeps bk bg s0 s) : Keeps bk bg s0 (State.updCtx s x1 x2) := by
  unfold State.updCtx
  repeat' first
    | (with_reducible assumption)
    | (with_reducible refine State.ite_keeps ?_ ?_)
    | (simp only [State.made_eq]; with_reducible refine State.made_keeps ?_ ?_ ?_)
    | with_reducible rfl

theorem State.dropAccess_keeps {bk bg : Bool} {s0 s : State} (h : Keeps bk bg s0 s) : Keeps bk bg s0 (State.dropAccess s) :=
  ⟨h.pending, h.keys, h.gens, h.canonical⟩

theorem State.updSite_keeps {bk bg : Bool} {s0 s : State} {x1 : Nat} {x2 : Site → Site}
    (h : Keeps bk bg s0 s) : Keeps bk bg s0 (State.updSite s x1 x2) :=
  ⟨h.pending, h.keys, h.gens, h.canonical⟩

theorem State.badAccess_keeps {bk bg : Bool} {s0 s : State} {x1 : Port} (h : Keeps bk bg s0 s) : Keeps bk bg s0
    (State.badAccess s x1) := by
  unfold State.badAccess
  repeat' first
    | (with_reducible assumption)
    | (with_reducible refine State.answer_keeps ?_)
    | (with_reducible refine State.dropAccess_keeps ?_)

theorem State.setPort_keeps {bk bg : Bool} {s0 s : State} {x1 : Port} {x2 : HostPort}
    (h : Keeps bk bg s0 s) : Keeps bk bg s0 (State.setPort s x1 x2) := by
  unfold State.setPort
  repeat' first
    | (with_reducible assumption)
    | (simp only [State.made_eq]; with_reducible refine State.made_keeps ?_ ?_ ?_)
    | with_reducible rfl
    | split

theorem State.wakeLink_keeps {bk bg : Bool} {s0 s : State} {x1 : Port} (h : Keeps bk bg s0 s) : Keeps bk bg s0
    (State.wakeLink s x1) := by
  unfold State.wakeLink
  repeat' first
    | (with_reducible assumption)
    | (with_reducible refine State.ite_keeps ?_ ?_)
    | (with_reducible refine State.setPort_keeps ?_)

theorem State.touchHost_keeps {bk bg : Bool} {s0 s : State} {x1 : Port} (h : Keeps bk bg s0 s) : Keeps bk bg s0
    (State.touchHost s x1) := by
  unfold State.touchHost
  repeat' first
    | (with_reducible assumption)
    | (with_reducible refine State.wakeLink_keeps ?_)
    | split

theorem State.sendSignal_keeps {bk bg : Bool} {s0 s : State} {x1 : Port} {x2 : Nat}
    (h : Keeps bk bg s0 s) : Keeps bk bg s0 (State.sendSignal s x1 x2) := by
  unfold State.sendSignal
  repeat' first
    | (with_reducible assumption)
    | (with_reducible refine State.wakeLink_keeps ?_)
    | (simp only [State.made_eq]; with_reducible refine State.made_keeps ?_ ?_ ?_)
    | with_reducible rfl
    | split

theorem State.eventSignal_keeps {bk bg : Bool} {s0 s : State} (h : Keeps bk bg s0 s) : Keeps bk bg s0
    (State.eventSignal s) := by
  unfold State.eventSignal
  repeat' first
    | (with_reducible assumption)
    | (with_reducible refine State.ite_keeps ?_ ?_)
    | (with_reducible refine State.sendSignal_keeps ?_)

/-! ### Access -/

theorem State.onRead_keeps {bk bg : Bool} {s0 s : State} {x1 : Port} {x2 : Nat} {x3 : State → State}
    (hx3 : ∀ t, Keeps bk bg s0 t → Keeps bk bg s0 (x3 t)) (h : Keeps bk bg s0 s) : Keeps bk bg s0
    (State.onRead s x1 x2 x3) := by
  unfold State.onRead
  repeat' first
    | (with_reducible assumption)
    | (with_reducible refine State.wakeLink_keeps ?_)
    | (with_reducible refine State.answer_keeps ?_)
    | (with_reducible refine State.badAccess_keeps ?_)
    | (with_reducible refine hx3 _ ?_)
    | split

theorem State.onWrite_keeps {bk bg : Bool} {s0 s : State} {x1 : Port} {x2 : Nat} {x3 : State → State}
    (hx3 : ∀ t, Keeps bk bg s0 t → Keeps bk bg s0 (x3 t)) (h : Keeps bk bg s0 s) : Keeps bk bg s0
    (State.onWrite s x1 x2 x3) := by
  unfold State.onWrite
  repeat' first
    | (with_reducible assumption)
    | (with_reducible refine State.wakeLink_keeps ?_)
    | (with_reducible refine State.dropAccess_keeps ?_)
    | (with_reducible refine hx3 _ ?_)
    | split

theorem State.onRwl_keeps {bk bg : Bool} {s0 s : State} {x1 : Port} {x2 : Nat} {x3 : State → State}
    (hx3 : ∀ t, Keeps bk bg s0 t → Keeps bk bg s0 (x3 t)) (h : Keeps bk bg s0 s) : Keeps bk bg s0
    (State.onRwl s x1 x2 x3) := by
  unfold State.onRwl
  repeat' first
    | (with_reducible assumption)
    | (with_reducible refine State.ite_keeps ?_ ?_)
    | (with_reducible refine State.onWrite_keeps (fun t h => ?_) ?_)
    | (with_reducible refine hx3 _ ?_)
    | (simp only [State.made_eq]; with_reducible refine State.made_keeps ?_ ?_ ?_)
    | with_reducible rfl

/-! ### Account -/

theorem State.bindLink_keeps {bk bg : Bool} {s0 s : State} {x0 : Nat} {x1 : BitVec 24} {x2 : Nat} {x4 : Nat}
    (h : Keeps bk bg s0 s) : Keeps bk bg s0 (State.bindLink x0 x1 x2 s x4) := by
  unfold State.bindLink
  repeat' first
    | (with_reducible assumption)
    | (simp only [State.made_eq]; with_reducible refine State.made_keeps ?_ ?_ ?_)
    | with_reducible rfl
    | split

theorem State.bindLinks_keeps {bk bg : Bool} {s0 s : State} {x1 : Bytes} {x2 : Nat} {x3 : BitVec 24}
    (h : Keeps bk bg s0 s) : Keeps bk bg s0 (State.bindLinks s x1 x2 x3) := by
  unfold State.bindLinks
  repeat' first
    | (with_reducible assumption)
    | (with_reducible refine State.bindLink_keeps ?_)
    | (with_reducible refine State.foldl_keeps (fun t a h => ?_) ?_)

/-! ### Flags -/

theorem State.noteContext_keeps {bk bg : Bool} {s0 s : State} {x1 : BitVec 24} {x2 : Nat} {x3 : Nat} {x4 : Nat}
    {x5 : Nat} (h : Keeps bk bg s0 s) : Keeps bk bg s0 (State.noteContext s x1 x2 x3 x4 x5) := by
  unfold State.noteContext
  repeat' first
    | (with_reducible assumption)
    | (with_reducible refine State.ite_keeps ?_ ?_)
    | (simp only [State.made_eq]; with_reducible refine State.made_keeps ?_ ?_ ?_)
    | with_reducible rfl

theorem State.countSramCorr_keeps {bk bg : Bool} {s0 s : State} {x1 : Nat} (h : Keeps bk bg s0 s) : Keeps bk bg s0
    (State.countSramCorr s x1) := by
  unfold State.countSramCorr
  repeat' first
    | (with_reducible assumption)
    | (with_reducible refine State.updSite_keeps ?_)

theorem State.countLogCorr_keeps {bk bg : Bool} {s0 s : State} {x1 : Nat} (h : Keeps bk bg s0 s) : Keeps bk bg s0
    (State.countLogCorr s x1) := by
  unfold State.countLogCorr
  repeat' first
    | (with_reducible assumption)
    | (with_reducible refine State.updSite_keeps ?_)

theorem State.noteSiteFault_keeps {bk bg : Bool} {s0 s : State} {x1 : Nat} {x2 : Nat} {x3 : Nat} {x4 : W64}
    (h : Keeps bk bg s0 s) : Keeps bk bg s0 (State.noteSiteFault s x1 x2 x3 x4) := by
  unfold State.noteSiteFault
  repeat' first
    | (with_reducible assumption)
    | (with_reducible refine State.updSite_keeps ?_)

/-! ### Models -/

theorem State.slide_keeps {bk bg : Bool} {s0 s : State} {x0 : Model → List Alloc} {x1 : Model → List Alloc → Model}
    {x2 : Nat} {x3 : ScrubPlace → Bool} {x5 : Nat} {x6 : Nat} (h : Keeps bk bg s0 s) : Keeps bk bg s0
    (State.slide x0 x1 x2 x3 s x5 x6) := by
  unfold State.slide
  repeat' first
    | (with_reducible assumption)
    | (with_reducible refine State.updSite_keeps ?_)
    | (simp only [State.made_eq]; with_reducible refine State.made_keeps ?_ ?_ ?_)
    | with_reducible rfl

theorem State.noteBadWord_keeps {bk bg : Bool} {s0 s : State} {x1 : Nat} {x2 : ScrubPlace} {x3 : Nat}
    (h : Keeps bk bg s0 s) : Keeps bk bg s0 (State.noteBadWord s x1 x2 x3) := by
  unfold State.noteBadWord
  repeat' first
    | (with_reducible assumption)
    | (with_reducible refine State.updSite_keeps ?_)

theorem State.rewriteWords_keeps {bk bg : Bool} {s0 s : State} {x1 : Nat} {x2 : ScrubPlace → Nat → Bool}
    (h : Keeps bk bg s0 s) : Keeps bk bg s0 (State.rewriteWords s x1 x2) := by
  unfold State.rewriteWords
  repeat' first
    | (with_reducible assumption)
    | (with_reducible refine State.updSite_keeps ?_)

theorem State.roomFor_keeps {bk bg : Bool} {s0 s : State} {x0 : Model → List Alloc} {x1 : Model → List Alloc → Model}
    {x2 : Nat} {x3 : Nat} {x4 : ScrubPlace → Bool} {x5 : State → List Alloc} {x7 : Nat} {x8 : Nat}
    (h : Keeps bk bg s0 s) : Keeps bk bg s0 (State.roomFor x0 x1 x2 x3 x4 x5 s x7 x8) := by
  unfold State.roomFor
  repeat' first
    | (with_reducible assumption)
    | (with_reducible refine State.ite_keeps ?_ ?_)
    | (with_reducible refine State.slide_keeps ?_)

theorem State.makeRoom_keeps {bk bg : Bool} {s0 s : State} {x1 : Bytes} (h : Keeps bk bg s0 s) : Keeps bk bg s0
    (State.makeRoom s x1) := by
  unfold State.makeRoom
  repeat' first
    | (with_reducible assumption)
    | (with_reducible refine State.roomFor_keeps ?_)
    | (with_reducible refine State.foldl_keeps (fun t a h => ?_) ?_)

theorem State.rewriteModel_keeps {bk bg : Bool} {s0 s : State} {x1 : Model} (h : Keeps bk bg s0 s) : Keeps bk bg s0
    (State.rewriteModel s x1) := by
  unfold State.rewriteModel
  repeat' first
    | (with_reducible assumption)
    | (with_reducible refine State.rewriteWords_keeps ?_)
    | (with_reducible refine State.foldl_keeps (fun t a h => ?_) ?_)

theorem State.nextModelGen_range (g : Nat) : 1 ≤ State.nextModelGen g ∧ State.nextModelGen g ≤ 65535 := by
  unfold State.nextModelGen
  split <;> omega

theorem State.install_keeps {bk : Bool} {s0 s : State} {x1 : Sys2Proof.Machine.Bytes}
    {x2 : Sys2Proof.Machine.State.LoadFor} {x3 : Nat} (h : Keeps bk false s0 s) : Keeps bk false s0
    (State.install s x1 x2 x3) := by
  unfold State.install
  have h := State.makeRoom_keeps (x1 := x1) h
  refine State.rewriteModel_keeps (State.bindLinks_keeps ⟨h.pending, h.keys, Bool.noConfusion, fun c => ?_⟩)
  have k := h.canonical c
  exact ⟨k.1, k.2.1, k.2.2.1, k.2.2.2.1, fun p m => (Tbl.put_mem m).elim (fun e => e ▸ State.nextModelGen_range _) (k.2.2.2.2 p)⟩

theorem State.loadImage_keeps {bk : Bool} {s0 s : State} {x1 : Sys2Proof.Machine.Bytes}
    {x2 : Sys2Proof.Machine.State.LoadFor} {t : State} {x : Except Sys2Proof.Machine.Refuse Nat}
    (e : State.loadImage s x1 x2 = (t, x)) (h : Keeps bk false s0 s) : Keeps bk false s0 t := by
  unfold State.loadImage at e
  split at e
  · cases e; exact h
  · split at e
    · cases e; exact h
    · split at e
      · cases e
        refine ⟨h.pending, h.keys, Bool.noConfusion, fun c => ?_⟩
        have k := h.canonical c
        exact ⟨k.1, k.2.1, k.2.2.1, k.2.2.2.1,
          fun p m => (Tbl.put_mem m).elim (fun e => e ▸ State.nextModelGen_range _) (k.2.2.2.2 p)⟩
      · cases e
        exact State.install_keeps h

/-! ### Requests -/

theorem State.updRun_keeps {bk bg : Bool} {s0 s : State} {x1 : ReqKey} {x2 : Run → Run}
    (h : Keeps bk bg s0 s) : Keeps bk bg s0 (State.updRun s x1 x2) :=
  ⟨h.pending, h.keys, h.gens, h.canonical⟩

theorem State.resolveEdges_keeps {bk bg : Bool} {s0 s : State} {x1 : W64} {x2 : EdgeOut}
    (h : Keeps bk bg s0 s) : Keeps bk bg s0 (State.resolveEdges s x1 x2) :=
  ⟨h.pending, h.keys, h.gens, h.canonical⟩

theorem State.dropReq_keeps {bk bg : Bool} {s0 s : State} {x1 : ReqKey} (h : Keeps bk bg s0 s) : Keeps bk bg s0
    (State.dropReq s x1) :=
  ⟨h.pending, h.keys, h.gens, h.canonical⟩

theorem State.releaseUnits_keeps {bk bg : Bool} {s0 s : State} {x1 : UnitPlace → Bool}
    (h : Keeps bk bg s0 s) : Keeps bk bg s0 (State.releaseUnits s x1) :=
  ⟨h.pending, h.keys, h.gens, h.canonical⟩

theorem State.settlePatches_keeps {bk bg : Bool} {s0 s : State} {x1 : Nat} {x2 : Nat} {x3 : Overlay → Option Overlay}
    (h : Keeps bk bg s0 s) : Keeps bk bg s0 (State.settlePatches s x1 x2 x3) :=
  ⟨h.pending, h.keys, h.gens, h.canonical⟩

theorem State.noteBurst_keeps {bk bg : Bool} {s0 s : State} {x1 : Burst} {x2 : Nat}
    (h : Keeps bk bg s0 s) : Keeps bk bg s0 (State.noteBurst s x1 x2) :=
  ⟨h.pending, h.keys, h.gens, h.canonical⟩

theorem State.closeCuffs_keeps {bk bg : Bool} {s0 s : State} {x1 : Nat} (h : Keeps bk bg s0 s) : Keeps bk bg s0
    (State.closeCuffs s x1) := by
  unfold State.closeCuffs
  repeat' first
    | (with_reducible assumption)
    | (with_reducible refine State.ite_keeps ?_ ?_)
    | (simp only [State.made_eq]; with_reducible refine State.made_keeps ?_ ?_ ?_)
    | with_reducible rfl

theorem State.countWordCorr_keeps {bk bg : Bool} {s0 s : State} (h : Keeps bk bg s0 s) : Keeps bk bg s0
    (State.countWordCorr s) :=
  ⟨h.pending, h.keys, h.gens, h.canonical⟩

theorem State.csStore_keeps {bk bg : Bool} {s0 s : State} {x1 : Nat} {x2 : Sys2Proof.Machine.Bytes}
    (h : Keeps bk bg s0 s) : Keeps bk bg s0 (State.csStore s x1 x2) := by
  exact State.cs_keeps h (Mem.store_wf _ _)

theorem State.failDependents_keeps {bk bg : Bool} {s0 s : State} (h : Keeps bk bg s0 s) : Keeps bk bg s0
    (State.failDependents s) :=
  ⟨h.pending, h.keys, h.gens, h.canonical⟩

theorem State.updQueue_keeps {bk bg : Bool} {s0 s : State} {x1 : Nat} {x2 : Queue → Queue}
    (h : Keeps bk bg s0 s) : Keeps bk bg s0 (State.updQueue s x1 x2) :=
  ⟨h.pending, h.keys, h.gens, h.canonical⟩

theorem State.updPkg_keeps {bk bg : Bool} {s0 s : State} {x1 : Nat} {x2 : Package → Package}
    (h : Keeps bk bg s0 s) : Keeps bk bg s0 (State.updPkg s x1 x2) :=
  ⟨h.pending, h.keys, h.gens, h.canonical⟩

theorem State.countBurstCorr_keeps {bk bg : Bool} {s0 s : State} {x1 : Nat} (h : Keeps bk bg s0 s) : Keeps bk bg s0
    (State.countBurstCorr s x1) := by
  unfold State.countBurstCorr
  repeat' first
    | (with_reducible assumption)
    | (with_reducible refine State.updPkg_keeps ?_)

theorem State.updReq_keeps {bk bg : Bool} {s0 s : State} {x1 : ReqKey} {x2 : Request → Request}
    (h : Keeps bk bg s0 s) : Keeps bk bg s0 (State.updReq s x1 x2) :=
  ⟨h.pending, h.keys, h.gens, h.canonical⟩

theorem State.updModel_keeps {bk bg : Bool} {s0 s : State} {x1 : Nat} {x2 : Model → Model}
    (h : Keeps bk bg s0 s) : Keeps bk bg s0 (State.updModel s x1 x2) :=
  ⟨h.pending, h.keys, h.gens, h.canonical⟩

theorem State.dropRun_keeps {bk bg : Bool} {s0 s : State} {x1 : ReqKey} (h : Keeps bk bg s0 s) : Keeps bk bg s0
    (State.dropRun s x1) := by
  unfold State.dropRun
  repeat' first
    | (with_reducible assumption)
    | (with_reducible refine State.closeCuffs_keeps ?_)
    | (simp only [State.made_eq]; with_reducible refine State.made_keeps ?_ ?_ ?_)
    | with_reducible rfl
    | split

theorem State.reserveOverlay_keeps {bk bg : Bool} {s0 s : State} {x1 : Request}
    (h : Keeps bk bg s0 s) : Keeps bk bg s0 (State.reserveOverlay s x1) :=
  ⟨h.pending, h.keys, h.gens, h.canonical⟩

theorem State.updNet_keeps {bk bg : Bool} {s0 s : State} {x1 : Nat} {x2 : Net → Net}
    (h : Keeps bk bg s0 s) : Keeps bk bg s0 (State.updNet s x1 x2) := by
  unfold State.updNet
  repeat' first
    | (with_reducible assumption)
    | (with_reducible refine State.updModel_keeps ?_)

theorem State.endReq_keeps {bk bg : Bool} {s0 s : State} {x1 : ReqKey} {x2 : Nat} {x3 : Nat} {x4 : W64} {x5 : W64}
    {x6 : Nat} (h : Keeps bk bg s0 s) : Keeps bk bg s0 (State.endReq s x1 x2 x3 x4 x5 x6) := by
  unfold State.endReq
  repeat' first
    | (with_reducible assumption)
    | (with_reducible refine State.updReq_keeps ?_)
    | (with_reducible refine State.dropRun_keeps ?_)

theorem State.updStore_keeps {bk bg : Bool} {s0 s : State} {x1 : Nat} {x2 : Store → Store}
    (h : Keeps bk bg s0 s) : Keeps bk bg s0 (State.updStore s x1 x2) := by
  unfold State.updStore
  repeat' first
    | (with_reducible assumption)
    | (with_reducible refine State.updModel_keeps ?_)

theorem State.okReq_keeps {bk bg : Bool} {s0 s : State} {x1 : ReqKey} {x2 : W64} {x3 : W64}
    (h : Keeps bk bg s0 s) : Keeps bk bg s0 (State.okReq s x1 x2 x3) := by
  unfold State.okReq
  repeat' first
    | (with_reducible assumption)
    | (with_reducible refine State.endReq_keeps ?_)

theorem State.holdReq_keeps {bk bg : Bool} {s0 s : State} {x1 : ReqKey} {x2 : Option Hold}
    (h : Keeps bk bg s0 s) : Keeps bk bg s0 (State.holdReq s x1 x2) := by
  unfold State.holdReq
  repeat' first
    | (with_reducible assumption)
    | (with_reducible refine State.updReq_keeps ?_)

theorem State.invalidateKept_keeps {bk bg : Bool} {s0 s : State} {x1 : Nat} (h : Keeps bk bg s0 s) : Keeps bk bg s0
    (State.invalidateKept s x1) := by
  unfold State.invalidateKept
  repeat' first
    | (with_reducible assumption)
    | (with_reducible refine State.updNet_keeps ?_)

theorem State.failQueueEdges_keeps {bk bg : Bool} {s0 s : State} {x1 : Nat} {x2 : Nat} {x3 : Nat}
    (h : Keeps bk bg s0 s) : Keeps bk bg s0 (State.failQueueEdges s x1 x2 x3) := by
  unfold State.failQueueEdges
  repeat' first
    | (with_reducible assumption)
    | (with_reducible refine State.failDependents_keeps ?_)
    | (simp only [State.made_eq]; with_reducible refine State.made_keeps ?_ ?_ ?_)
    | with_reducible rfl

theorem State.rewriteUnits_keeps {bk bg : Bool} {s0 s : State} {x1 : Nat} {x2 : UnitPlace → Bool}
    (h : Keeps bk bg s0 s) : Keeps bk bg s0 (State.rewriteUnits s x1 x2) := by
  unfold State.rewriteUnits
  repeat' first
    | (with_reducible assumption)
    | (with_reducible refine State.updPkg_keeps ?_)

theorem State.refuse_keeps {bk bg : Bool} {s0 s : State} {x1 : ReqKey} {x2 : Refuse}
    (h : Keeps bk bg s0 s) : Keeps bk bg s0 (State.refuse s x1 x2) := by
  unfold State.refuse
  repeat' first
    | (with_reducible assumption)
    | (with_reducible refine State.endReq_keeps ?_)

theorem State.joinAbort_keeps {bk bg : Bool} {s0 s : State} {x1 : ReqKey} {x2 : Nat}
    (h : Keeps bk bg s0 s) : Keeps bk bg s0 (State.joinAbort s x1 x2) := by
  unfold State.joinAbort
  repeat' first
    | (with_reducible assumption)
    | (with_reducible refine State.holdReq_keeps ?_)
    | (simp only [State.made_eq]; with_reducible refine State.made_keeps ?_ ?_ ?_)
    | with_reducible rfl

theorem State.enter_keeps {bk bg : Bool} {s0 s : State} {x1 : ReqKey} {x2 : Nat}
    (h : Keeps bk bg s0 s) : Keeps bk bg s0 (State.enter s x1 x2) := by
  unfold State.enter
  repeat' first
    | (with_reducible assumption)
    | (with_reducible refine State.ite_keeps ?_ ?_)
    | (with_reducible refine State.refuse_keeps ?_)
    | (with_reducible refine State.reserveOverlay_keeps ?_)
    | (with_reducible refine State.failDependents_keeps ?_)
    | (with_reducible refine State.updReq_keeps ?_)
    | split

theorem State.rewriteRange_keeps {bk bg : Bool} {s0 s : State} {x1 : Nat} {x2 : Nat} {x3 : Nat}
    (h : Keeps bk bg s0 s) : Keeps bk bg s0 (State.rewriteRange s x1 x2 x3) := by
  unfold State.rewriteRange
  repeat' first
    | (with_reducible assumption)
    | (with_reducible refine State.ite_keeps ?_ ?_)
    | (with_reducible refine State.rewriteUnits_keeps ?_)

theorem State.releaseOne_keeps {bk bg : Bool} {s0 s : State} {x0 : Nat} {x2 : ReqKey}
    (h : Keeps bk bg s0 s) : Keeps bk bg s0 (State.releaseOne x0 s x2) := by
  unfold State.releaseOne
  repeat' first
    | (with_reducible assumption)
    | (with_reducible refine State.ite_keeps ?_ ?_)
    | (with_reducible refine State.enter_keeps ?_)
    | (with_reducible refine State.updReq_keeps ?_)
    | (with_reducible refine State.reserveOverlay_keeps ?_)
    | split

theorem State.badHandle_keeps {bk bg : Bool} {s0 s : State} {x1 : ReqKey} {x2 : Request} {x3 : Nat}
    (h : Keeps bk bg s0 s) : Keeps bk bg s0 (State.badHandle s x1 x2 x3) := by
  unfold State.badHandle
  repeat' first
    | (with_reducible assumption)
    | (with_reducible refine State.joinAbort_keeps ?_)
    | (with_reducible refine State.refuse_keeps ?_)
    | split

theorem State.faultData_keeps {bk bg : Bool} {s0 s : State} {x1 : ReqKey} {x2 : Nat} {x3 : Nat} {x4 : Nat} {x5 : Nat}
    {x6 : Nat} {x7 : Nat} (h : Keeps bk bg s0 s) : Keeps bk bg s0 (State.faultData s x1 x2 x3 x4 x5 x6 x7) := by
  unfold State.faultData
  repeat' first
    | (with_reducible assumption)
    | (with_reducible refine State.invalidateKept_keeps ?_)
    | (with_reducible refine State.endReq_keeps ?_)
    | (with_reducible refine State.noteContext_keeps ?_)
    | (with_reducible refine State.noteSiteFault_keeps ?_)
    | split

theorem State.writeHost_keeps {bk bg : Bool} {s0 s : State} {x1 : Sys2Proof.Port} {x2 : Nat}
    {x3 : Sys2Proof.Machine.Bytes} (h : Keeps bk bg s0 s) : Keeps bk bg s0 (State.writeHost s x1 x2 x3) := by
  unfold State.writeHost
  split
  · have e : (s.touchHost x1).host = s.host := by
      unfold State.touchHost State.wakeLink State.setPort
      repeat' split
      all_goals rfl
    rw [← e]
    exact State.host_keeps _ _ (State.touchHost_keeps h)
  · exact h

theorem State.faultMemory_keeps {bk bg : Bool} {s0 s : State} {x1 : ReqKey} {x2 : Nat}
    (h : Keeps bk bg s0 s) : Keeps bk bg s0 (State.faultMemory s x1 x2) := by
  unfold State.faultMemory
  repeat' first
    | (with_reducible assumption)
    | (with_reducible refine State.invalidateKept_keeps ?_)
    | (with_reducible refine State.endReq_keeps ?_)
    | (with_reducible refine State.noteContext_keeps ?_)
    | split

theorem State.noteQueueError_keeps {bk bg : Bool} {s0 s : State} {x1 : Nat} {x2 : Nat}
    (h : Keeps bk bg s0 s) : Keeps bk bg s0 (State.noteQueueError s x1 x2) := by
  unfold State.noteQueueError
  repeat' first
    | (with_reducible assumption)
    | (with_reducible refine State.eventSignal_keeps ?_)
    | (simp only [State.made_eq]; with_reducible refine State.made_keeps ?_ ?_ ?_)
    | with_reducible rfl

theorem State.sourceMet_keeps {bk bg : Bool} {s0 s : State} {x1 : Sys2Proof.Machine.Request} {x2 : List (Nat × Nat)}
    {x3 : Sys2Proof.SourceFind} {t : State} {x : Sys2Proof.Machine.State.Met}
    (e : State.sourceMet s x1 x2 x3 = (t, x)) (h : Keeps bk bg s0 s) : Keeps bk bg s0 t := by
  unfold State.sourceMet at e
  extract_lets u at e
  have hu : Keeps bk bg s0 u := State.ite_keeps (State.touchHost_keeps h) h
  clear_value u
  repeat' first
    | (with_reducible assumption)
    | split at e
    | cases e
    | (with_reducible refine State.ite_keeps ?_ ?_)
    | (with_reducible refine State.countBurstCorr_keeps ?_)
    | (with_reducible refine State.countWordCorr_keeps ?_)
    | (with_reducible refine State.countSramCorr_keeps ?_)

theorem State.writePages_keeps {bk bg : Bool} {s0 s : State} {x1 : Nat} {x2 : Nat} {x3 : Bytes}
    (h : Keeps bk bg s0 s) : Keeps bk bg s0 (State.writePages s x1 x2 x3) := by
  unfold State.writePages
  repeat' first
    | (with_reducible assumption)
    | (with_reducible refine State.rewriteRange_keeps ?_)
    | (with_reducible refine State.updCtx_keeps ?_)

theorem State.csError_keeps {bk bg : Bool} {s0 s : State} {x1 : Bool} {x2 : Bool} {x3 : Nat}
    (h : Keeps bk bg s0 s) : Keeps bk bg s0 (State.csError s x1 x2 x3) := by
  unfold State.csError
  repeat' first
    | (with_reducible assumption)
    | (with_reducible refine State.eventSignal_keeps ?_)
    | (simp only [State.made_eq]; with_reducible refine State.made_keeps ?_ ?_ ?_)
    | with_reducible rfl

theorem State.releasePatched_keeps {bk bg : Bool} {s0 s : State} {x1 : Nat} (h : Keeps bk bg s0 s) : Keeps bk bg s0
    (State.releasePatched s x1) := by
  unfold State.releasePatched
  repeat' first
    | (with_reducible assumption)
    | (with_reducible refine State.releaseOne_keeps ?_)
    | (with_reducible refine State.foldl_keeps (fun t a h => ?_) ?_)

theorem State.faultLpddr_keeps {bk bg : Bool} {s0 s : State} {x1 : ReqKey} {x2 : Burst}
    (h : Keeps bk bg s0 s) : Keeps bk bg s0 (State.faultLpddr s x1 x2) := by
  unfold State.faultLpddr
  repeat' first
    | (with_reducible assumption)
    | (with_reducible refine State.faultMemory_keeps ?_)
    | (with_reducible refine State.noteBurst_keeps ?_)
    | split

theorem State.writeLine_keeps {bk bg : Bool} {s0 s : State} {x1 : Nat} (h : Keeps bk bg s0 s) : Keeps bk bg s0
    (State.writeLine s x1) := by
  unfold State.writeLine
  repeat' first
    | (with_reducible assumption)
    | (with_reducible refine State.ite_keeps ?_ ?_)
    | (with_reducible refine State.writeHost_keeps ?_)
    | (with_reducible refine State.noteQueueError_keeps ?_)
    | (with_reducible refine State.updQueue_keeps ?_)
    | split

theorem State.failMet_keeps {bk bg : Bool} {s0 s : State} {x1 : ReqKey} {x2 : State.Met}
    (h : Keeps bk bg s0 s) : Keeps bk bg s0 (State.failMet s x1 x2) := by
  unfold State.failMet
  repeat' first
    | (with_reducible assumption)
    | (with_reducible refine State.faultLpddr_keeps ?_)
    | (with_reducible refine State.faultMemory_keeps ?_)
    | (with_reducible refine State.csError_keeps ?_)
    | (with_reducible refine State.faultData_keeps ?_)
    | split

theorem State.queueError_keeps {bk bg : Bool} {s0 s : State} {x1 : Nat} {x2 : Nat}
    (h : Keeps bk bg s0 s) : Keeps bk bg s0 (State.queueError s x1 x2) := by
  unfold State.queueError
  repeat' first
    | (with_reducible assumption)
    | (with_reducible refine State.ite_keeps ?_ ?_)
    | (with_reducible refine State.noteQueueError_keeps ?_)
    | (with_reducible refine State.writeLine_keeps ?_)
    | (with_reducible refine State.updQueue_keeps ?_)
    | split

theorem State.writeFor_keeps {bk bg : Bool} {s0 s : State} {x1 : Nat} {x2 : Nat} {x3 : Bytes}
    (h : Keeps bk bg s0 s) : Keeps bk bg s0 (State.writeFor s x1 x2 x3) := by
  unfold State.writeFor
  repeat' first
    | (with_reducible assumption)
    | (with_reducible refine State.ite_keeps ?_ ?_)
    | (with_reducible refine State.writeHost_keeps ?_)
    | (with_reducible refine State.queueError_keeps ?_)

theorem State.writeSpace_keeps {bk bg : Bool} {s0 s : State} {x1 : Request} {x2 : Nat} {x3 : Bytes}
    (h : Keeps bk bg s0 s) : Keeps bk bg s0 (State.writeSpace s x1 x2 x3) := by
  unfold State.writeSpace
  repeat' first
    | (with_reducible assumption)
    | (with_reducible refine State.ite_keeps ?_ ?_)
    | (with_reducible refine State.writeFor_keeps ?_)
    | (with_reducible refine State.writePages_keeps ?_)
    | (with_reducible refine State.updCtx_keeps ?_)
    | (with_reducible refine State.csStore_keeps ?_)

/-! ### Engine -/

theorem State.sendPeer_keeps {bk bg : Bool} {s0 s : State} {x1 : Nat} {x2 : Nat} {x3 : Nat} {x4 : Nat}
    {x5 : List Nat} {x6 : Bytes} (h : Keeps bk bg s0 s) : Keeps bk bg s0 (State.sendPeer s x1 x2 x3 x4 x5 x6) :=
  ⟨h.pending, h.keys, h.gens, h.canonical⟩

theorem State.bump_keeps {bk bg : Bool} {s0 s : State} {x1 : HwUnit} {x2 : Option Nat} {x3 : Nat}
    (h : Keeps bk bg s0 s) : Keeps bk bg s0 (State.bump s x1 x2 x3) :=
  ⟨h.pending, h.keys, h.gens, h.canonical⟩

theorem State.sendForked_keeps {bk bg : Bool} {s0 s : State} {x1 : Nat} {x2 : Nat} {x3 : Nat} {x4 : Option Nat}
    {x5 : List Nat} (h : Keeps bk bg s0 s) : Keeps bk bg s0 (State.sendForked s x1 x2 x3 x4 x5) := by
  unfold State.sendForked
  repeat' first
    | (with_reducible assumption)
    | (with_reducible refine State.ite_keeps ?_ ?_)
    | (with_reducible refine State.sendPeer_keeps ?_)
    | (with_reducible refine State.foldl_keeps (fun t a h => ?_) ?_)
    | split

theorem State.startOn_keeps {bk bg : Bool} {s0 s : State} {x1 : Nat} (h : Keeps bk bg s0 s) : Keeps bk bg s0
    (State.startOn s x1) := by
  unfold State.startOn
  repeat' first
    | (with_reducible assumption)
    | (with_reducible refine State.ite_keeps ?_ ?_)
    | (with_reducible refine State.bump_keeps ?_)
    | (with_reducible refine State.foldl_keeps (fun t a h => ?_) ?_)

theorem State.clearLanes_keeps {bk bg : Bool} {s0 s : State} {x1 : Nat} (h : Keeps bk bg s0 s) : Keeps bk bg s0
    (State.clearLanes s x1) :=
  ⟨h.pending, h.keys, h.gens, h.canonical⟩

theorem State.noteLastNode_keeps {bk bg : Bool} {s0 s : State} {x1 : Run} {x2 : Nat}
    (h : Keeps bk bg s0 s) : Keeps bk bg s0 (State.noteLastNode s x1 x2) := by
  unfold State.noteLastNode
  repeat' first
    | (with_reducible assumption)
    | (with_reducible refine State.ite_keeps ?_ ?_)
    | (simp only [State.made_eq]; with_reducible refine State.made_keeps ?_ ?_ ?_)
    | with_reducible rfl
    | split

theorem State.stopParts_keeps {bk bg : Bool} {s0 s : State} {x1 : Run} (h : Keeps bk bg s0 s) : Keeps bk bg s0
    (State.stopParts s x1) := by
  unfold State.stopParts
  repeat' first
    | (with_reducible assumption)
    | (with_reducible refine State.ite_keeps ?_ ?_)
    | (with_reducible refine State.sendForked_keeps ?_)
    | split

theorem State.countStale_keeps {bk bg : Bool} {s0 s : State} (h : Keeps bk bg s0 s) : Keeps bk bg s0 (State.countStale s) :=
  ⟨h.pending, h.keys, h.gens, h.canonical⟩

theorem State.updLane_keeps {bk bg : Bool} {s0 s : State} {x1 : Nat} {x2 : Nat} {x3 : Lane → Lane}
    (h : Keeps bk bg s0 s) : Keeps bk bg s0 (State.updLane s x1 x2 x3) :=
  ⟨h.pending, h.keys, h.gens, h.canonical⟩

theorem State.noteFill_keeps {bk bg : Bool} {s0 s : State} {x1 : Nat} {x2 : Dir} {x3 : Nat}
    (h : Keeps bk bg s0 s) : Keeps bk bg s0 (State.noteFill s x1 x2 x3) := by
  unfold State.noteFill
  repeat' first
    | (with_reducible assumption)
    | (with_reducible refine State.ite_keeps ?_ ?_)
    | (simp only [State.made_eq]; with_reducible refine State.made_keeps ?_ ?_ ?_)
    | with_reducible rfl

theorem State.moveLane_keeps {bk bg : Bool} {s0 s : State} {x1 : Nat} {x2 : Nat} {x3 : Dir}
    (h : Keeps bk bg s0 s) : Keeps bk bg s0 (State.moveLane s x1 x2 x3) := by
  unfold State.moveLane
  repeat' first
    | (with_reducible assumption)
    | (with_reducible refine State.ite_keeps ?_ ?_)
    | (with_reducible refine State.noteFill_keeps ?_)
    | (with_reducible refine State.updLane_keeps ?_)

theorem State.queueOn_keeps {bk bg : Bool} {s0 s : State} {x0 : BitVec 24} {x1 : List W64} {x3 : Nat × Dir}
    (h : Keeps bk bg s0 s) : Keeps bk bg s0 (State.queueOn x0 x1 s x3) := by
  unfold State.queueOn
  repeat' first
    | (with_reducible assumption)
    | (with_reducible refine State.noteFill_keeps ?_)
    | (simp only [State.made_eq]; with_reducible refine State.made_keeps ?_ ?_ ?_)
    | with_reducible rfl

theorem State.failParts_keeps {bk bg : Bool} {s0 s : State} {x1 : Run} (h : Keeps bk bg s0 s) : Keeps bk bg s0
    (State.failParts s x1) := by
  unfold State.failParts
  repeat' first
    | (with_reducible assumption)
    | (with_reducible refine State.noteLastNode_keeps ?_)
    | (with_reducible refine State.stopParts_keeps ?_)

theorem State.setPending_keeps {bk bg : Bool} {s0 s : State} {x1 : Nat} {x2 : Nat} {x3 : Nat} {x4 : Nat} {x5 : Nat}
    {x6 : Nat} (h : Keeps bk bg s0 s) : Keeps bk bg s0 (State.setPending s x1 x2 x3 x4 x5 x6) := by
  unfold State.setPending
  repeat' first
    | (with_reducible assumption)
    | (with_reducible refine State.updNet_keeps ?_)

theorem State.queueTransfer_keeps {bk bg : Bool} {s0 s : State} {x1 : List (Nat × Dir)} {x2 : BitVec 24} {x3 : Bytes}
    (h : Keeps bk bg s0 s) : Keeps bk bg s0 (State.queueTransfer s x1 x2 x3) := by
  unfold State.queueTransfer
  repeat' first
    | (with_reducible assumption)
    | (with_reducible refine State.queueOn_keeps ?_)
    | (with_reducible refine State.foldl_keeps (fun t a h => ?_) ?_)

theorem State.pushWord_keeps {bk bg : Bool} {s0 s : State} {x1 : Nat} {x2 : Nat} {x3 : Dir}
    {x4 : Option (Nat ⊕ Nat × Nat)} {x5 : Nat} {x6 : W64} (h : Keeps bk bg s0 s) : Keeps bk bg s0
    (State.pushWord s x1 x2 x3 x4 x5 x6) := by
  unfold State.pushWord
  repeat' first
    | (with_reducible assumption)
    | (with_reducible refine State.ite_keeps ?_ ?_)
    | (with_reducible refine State.moveLane_keeps ?_)
    | (with_reducible refine State.updLane_keeps ?_)

theorem State.failPart_keeps {bk bg : Bool} {s0 s : State} {x1 : Run} {x2 : W64}
    (h : Keeps bk bg s0 s) : Keeps bk bg s0 (State.failPart s x1 x2) := by
  unfold State.failPart
  repeat' first
    | (with_reducible assumption)
    | (with_reducible refine State.sendPeer_keeps ?_)
    | (with_reducible refine State.dropRun_keeps ?_)
    | (with_reducible refine State.invalidateKept_keeps ?_)
    | split

theorem State.receive_keeps {bk bg : Bool} {s0 s : State} {x1 : Sys2Proof.LaneWord} {t : State}
    {x : Option (Nat × Nat × Sys2Proof.Machine.LinkEntry)} (e : State.receive s x1 = (t, x))
    (h : Keeps bk bg s0 s) : Keeps bk bg s0 t := by
  unfold State.receive at e
  dsimp only at e
  repeat' first
    | (with_reducible assumption)
    | split at e
    | cases e
    | (with_reducible refine State.moveLane_keeps ?_)
    | (with_reducible refine State.updLane_keeps ?_)
    | (with_reducible refine State.countStale_keeps ?_)

theorem State.wordFault_keeps {bk bg : Bool} {s0 s : State} {x1 : Nat} {x2 : Nat}
    (h : Keeps bk bg s0 s) : Keeps bk bg s0 (State.wordFault s x1 x2) := by
  unfold State.wordFault
  repeat' first
    | (with_reducible assumption)
    | (apply State.takeFree_keeps; assumption)
    | (with_reducible refine State.endReq_keeps ?_)
    | (with_reducible refine State.noteContext_keeps ?_)
    | (with_reducible refine State.noteSiteFault_keeps ?_)
    | (with_reducible refine State.invalidateKept_keeps ?_)
    | (with_reducible refine State.failParts_keeps ?_)
    | (with_reducible refine State.failPart_keeps ?_)
    | split

theorem State.emptyStitch_keeps {bk bg : Bool} {s0 s : State} {x1 : LaneWord} (h : Keeps bk bg s0 s) : Keeps bk bg s0
    (State.emptyStitch s x1) := by
  unfold State.emptyStitch
  repeat' first
    | (with_reducible assumption)
    | (with_reducible refine State.ite_keeps ?_ ?_)
    | (with_reducible refine State.updLane_keeps ?_)
    | (with_reducible refine State.wordFault_keeps ?_)
    | split
    | dsimp only

theorem State.failRun_keeps {bk bg : Bool} {s0 s : State} {x1 : Run} {x2 : Nat} {x3 : Nat} {x4 : Nat} {x5 : Nat}
    {x6 : Nat} {x7 : Nat} (h : Keeps bk bg s0 s) : Keeps bk bg s0 (State.failRun s x1 x2 x3 x4 x5 x6 x7) := by
  unfold State.failRun
  repeat' first
    | (with_reducible assumption)
    | (with_reducible refine State.faultData_keeps ?_)
    | (with_reducible refine State.failParts_keeps ?_)
    | (with_reducible refine State.failPart_keeps ?_)
    | (with_reducible refine State.noteContext_keeps ?_)
    | (with_reducible refine State.noteSiteFault_keeps ?_)
    | split

theorem State.sendFrom_keeps {bk bg : Bool} {s0 s : State} {x1 : Nat} {x2 : Nat} {x3 : Nat ⊕ Nat × Nat} {x4 : W64}
    (h : Keeps bk bg s0 s) : Keeps bk bg s0 (State.sendFrom s x1 x2 x3 x4) := by
  unfold State.sendFrom
  repeat' first
    | (with_reducible assumption)
    | (with_reducible refine State.pushWord_keeps ?_)
    | (with_reducible refine State.foldl_keeps (fun t a h => ?_) ?_)
    | split

theorem State.presentTurnEnds_keeps {bk bg : Bool} {s0 s : State} {x1 : ReqKey}
    (h : Keeps bk bg s0 s) : Keeps bk bg s0 (State.presentTurnEnds s x1) := by
  unfold State.presentTurnEnds
  repeat' first
    | (with_reducible assumption)
    | (with_reducible refine State.updRun_keeps ?_)
    | (with_reducible refine State.sendFrom_keeps ?_)
    | (with_reducible refine State.foldl_keeps (fun t a h => ?_) ?_)
    | split

theorem State.hemFlip_keeps {bk bg : Bool} {s0 s : State} {x1 : LaneWord} (h : Keeps bk bg s0 s) : Keeps bk bg s0
    (State.hemFlip s x1) := by
  unfold State.hemFlip
  repeat' first
    | (with_reducible assumption)
    | (with_reducible refine State.ite_keeps ?_ ?_)
    | (with_reducible refine State.emptyStitch_keeps ?_)
    | (apply State.receive_keeps; assumption)
    | (with_reducible refine State.wordFault_keeps ?_)
    | (with_reducible refine State.sendFrom_keeps ?_)
    | (with_reducible refine State.setPending_keeps ?_)
    | split

theorem State.turnEndStitch_keeps {bk bg : Bool} {s0 s : State} {x1 : LaneWord}
    (h : Keeps bk bg s0 s) : Keeps bk bg s0 (State.turnEndStitch s x1) := by
  unfold State.turnEndStitch
  repeat' first
    | (with_reducible assumption)
    | (with_reducible refine State.ite_keeps ?_ ?_)
    | (apply State.receive_keeps; assumption)
    | (with_reducible refine State.wordFault_keeps ?_)
    | (with_reducible refine State.sendFrom_keeps ?_)
    | (with_reducible refine State.updNet_keeps ?_)
    | split

theorem execHemFlip_keeps {bk bg : Bool} {s0 s : State} {x0 : LaneWord} {t : State} (e : execHemFlip x0 s = .next t)
    (h : Keeps bk bg s0 s) : Keeps bk bg s0 t := by
  cases e
  exact State.hemFlip_keeps h

theorem State.evaluate_keeps {bk bg : Bool} {s0 s : State} {x1 : Run} {x2 : Net} {x3 : RBlock} {x4 : FlipFind}
    (h : Keeps bk bg s0 s) : Keeps bk bg s0 (State.evaluate s x1 x2 x3 x4) := by
  unfold State.evaluate
  repeat' first
    | (with_reducible assumption)
    | (with_reducible refine State.ite_keeps ?_ ?_)
    | (with_reducible refine State.updNet_keeps ?_)
    | (with_reducible refine State.failRun_keeps ?_)
    | (with_reducible refine State.countLogCorr_keeps ?_)
    | (with_reducible refine State.presentTurnEnds_keeps ?_)
    | (with_reducible refine State.setPending_keeps ?_)
    | (with_reducible refine State.sendFrom_keeps ?_)
    | (with_reducible refine State.bump_keeps ?_)
    | split

theorem execTurnEndStitch_keeps {bk bg : Bool} {s0 s : State} {x0 : LaneWord} {t : State}
    (e : execTurnEndStitch x0 s = .next t) (h : Keeps bk bg s0 s) : Keeps bk bg s0 t := by
  cases e
  exact State.turnEndStitch_keeps h

theorem State.afterUpdate_keeps {bk bg : Bool} {s0 s : State} {x1 : Run} {x2 : Net} {x3 : RBlock}
    {x4 : Except Nat RBlock} {x5 : FlipFind} (h : Keeps bk bg s0 s) : Keeps bk bg s0
    (State.afterUpdate s x1 x2 x3 x4 x5) := by
  unfold State.afterUpdate
  repeat' first
    | (with_reducible assumption)
    | (with_reducible refine State.failRun_keeps ?_)
    | (with_reducible refine State.evaluate_keeps ?_)
    | split

theorem State.flip_keeps {bk bg : Bool} {s0 s : State} {x1 : Nat} {x2 : Nat} {x3 : FlipFind}
    (h : Keeps bk bg s0 s) : Keeps bk bg s0 (State.flip s x1 x2 x3) := by
  unfold State.flip
  repeat' first
    | (with_reducible assumption)
    | (with_reducible refine State.ite_keeps ?_ ?_)
    | (with_reducible refine State.presentTurnEnds_keeps ?_)
    | (with_reducible refine State.updNet_keeps ?_)
    | (with_reducible refine State.noteBadWord_keeps ?_)
    | (with_reducible refine State.afterUpdate_keeps ?_)
    | (with_reducible refine State.countSramCorr_keeps ?_)
    | (with_reducible refine State.failRun_keeps ?_)
    | (with_reducible refine State.takeFree_snd_keeps ?_)
    | (with_reducible refine State.countLogCorr_keeps ?_)
    | split

theorem execFlip_keeps {bk bg : Bool} {s0 s : State} {x0 : Nat} {x1 : Nat} {x2 : FlipFind} {t : State}
    (e : execFlip x0 x1 x2 s = .next t) (h : Keeps bk bg s0 s) : Keeps bk bg s0 t := by
  cases e
  exact State.flip_keeps h

/-! ### History -/

theorem State.takePositions_keeps {bk bg : Bool} {s0 s : State} {x1 : ReqKey} {x2 : Nat} {x3 : Store} {x4 : Nat}
    {x5 : List (Nat × Bytes)} (h : Keeps bk bg s0 s) : Keeps bk bg s0 (State.takePositions s x1 x2 x3 x4 x5) := by
  unfold State.takePositions
  repeat' first
    | (with_reducible assumption)
    | (with_reducible refine State.updReq_keeps ?_)
    | (with_reducible refine State.updStore_keeps ?_)

theorem State.appendDone_keeps {bk bg : Bool} {s0 s : State} {x1 : ReqKey} (h : Keeps bk bg s0 s) : Keeps bk bg s0
    (State.appendDone s x1) := by
  unfold State.appendDone
  repeat' first
    | (with_reducible assumption)
    | (with_reducible refine State.ite_keeps ?_ ?_)
    | (with_reducible refine State.okReq_keeps ?_)
    | split

theorem State.putEntry_keeps {bk bg : Bool} {s0 s : State} {x1 : Nat} {x2 : Nat} {x3 : List Int}
    (h : Keeps bk bg s0 s) : Keeps bk bg s0 (State.putEntry s x1 x2 x3) := by
  unfold State.putEntry
  repeat' first
    | (with_reducible assumption)
    | (with_reducible refine State.ite_keeps ?_ ?_)
    | (with_reducible refine State.updStore_keeps ?_)
    | (with_reducible refine State.rewriteUnits_keeps ?_)
    | (with_reducible refine State.rewriteWords_keeps ?_)
    | split

theorem State.giveEntry_keeps {bk bg : Bool} {s0 s : State} {x1 : Nat} {x2 : Appender} {x3 : Nat} {x4 : List Int}
    (h : Keeps bk bg s0 s) : Keeps bk bg s0 (State.giveEntry s x1 x2 x3 x4) := by
  unfold State.giveEntry
  repeat' first
    | (with_reducible assumption)
    | (with_reducible refine State.ite_keeps ?_ ?_)
    | (with_reducible refine State.putEntry_keeps ?_)
    | (with_reducible refine State.updStore_keeps ?_)

theorem State.fillRest_keeps {bk bg : Bool} {s0 s : State} {x1 : ReqKey} {x2 : Bool}
    (h : Keeps bk bg s0 s) : Keeps bk bg s0 (State.fillRest s x1 x2) := by
  unfold State.fillRest
  repeat' first
    | (with_reducible assumption)
    | (with_reducible refine State.ite_keeps ?_ ?_)
    | (with_reducible refine State.updStore_keeps ?_)
    | (with_reducible refine State.updReq_keeps ?_)
    | (with_reducible refine State.giveEntry_keeps ?_)
    | (with_reducible refine State.foldl_keeps (fun t a h => ?_) ?_)
    | split

theorem State.ringAppendWrite_keeps {bk bg : Bool} {s0 s : State} {x1 : Appender}
    (h : Keeps bk bg s0 s) : Keeps bk bg s0 (State.ringAppendWrite s x1) := by
  unfold State.ringAppendWrite
  repeat' first
    | (with_reducible assumption)
    | (with_reducible refine State.ite_keeps ?_ ?_)
    | (with_reducible refine State.updStore_keeps ?_)
    | (with_reducible refine State.putEntry_keeps ?_)
    | (with_reducible refine State.appendDone_keeps ?_)
    | split

theorem State.appendNext_keeps {bk bg : Bool} {s0 s : State} {x1 : ReqKey} {x2 : List Int}
    (h : Keeps bk bg s0 s) : Keeps bk bg s0 (State.appendNext s x1 x2) := by
  unfold State.appendNext
  repeat' first
    | (with_reducible assumption)
    | (with_reducible refine State.appendDone_keeps ?_)
    | (with_reducible refine State.updReq_keeps ?_)
    | (with_reducible refine State.giveEntry_keeps ?_)
    | split

theorem State.startAppend_keeps {bk bg : Bool} {s0 s : State} {x1 : ReqKey} {x2 : Nat} {x3 : Store}
    {x4 : Option Group} {x5 : Bytes} {x6 : Nat} (h : Keeps bk bg s0 s) : Keeps bk bg s0
    (State.startAppend s x1 x2 x3 x4 x5 x6) := by
  unfold State.startAppend
  repeat' first
    | (with_reducible assumption)
    | (with_reducible refine State.takePositions_keeps ?_)
    | (with_reducible refine State.appendNext_keeps ?_)
    | (with_reducible refine State.foldl_keeps (fun t a h => ?_) ?_)
    | split

theorem State.dispatchAppend_keeps {bk bg : Bool} {s0 s : State} {x1 : ReqKey} {x2 : SourceFind}
    (h : Keeps bk bg s0 s) : Keeps bk bg s0 (State.dispatchAppend s x1 x2) := by
  unfold State.dispatchAppend
  repeat' first
    | (with_reducible assumption)
    | (with_reducible refine State.ite_keeps ?_ ?_)
    | (with_reducible refine State.refuse_keeps ?_)
    | (with_reducible refine State.okReq_keeps ?_)
    | (apply State.sourceMet_keeps; assumption)
    | (with_reducible refine State.startAppend_keeps ?_)
    | (with_reducible refine State.startOn_keeps ?_)
    | (with_reducible refine State.failMet_keeps ?_)
    | (with_reducible refine State.fillRest_keeps ?_)
    | (with_reducible refine State.takePositions_keeps ?_)
    | split
    | dsimp only

theorem execRingAppendWrite_keeps {bk bg : Bool} {s0 s : State} {x0 : Appender} {t : State}
    (e : execRingAppendWrite x0 s = .next t) (h : Keeps bk bg s0 s) : Keeps bk bg s0 t := by
  cases e
  exact State.ringAppendWrite_keeps h

theorem execAppend_keeps {bk bg : Bool} {s0 s : State} {x0 : ReqKey} {x1 : SourceFind} {t : State}
    (e : execAppend x0 x1 s = .next t) (h : Keeps bk bg s0 s) : Keeps bk bg s0 t := by
  cases e
  exact State.dispatchAppend_keeps h

theorem State.runRetrieve_keeps {bk bg : Bool} {s0 s : State} {x1 : ReqKey} {x2 : Nat} {x3 : Model} {x4 : Store}
    {x5 : Nat} {x6 : Nat} {x7 : List (List Int)} {x8 : RetrieveFind} (h : Keeps bk bg s0 s) : Keeps bk bg s0
    (State.runRetrieve s x1 x2 x3 x4 x5 x6 x7 x8) := by
  unfold State.runRetrieve
  repeat' first
    | (with_reducible assumption)
    | (with_reducible refine State.ite_keeps ?_ ?_)
    | (with_reducible refine State.faultData_keeps ?_)
    | (with_reducible refine State.faultLpddr_keeps ?_)
    | (with_reducible refine State.bump_keeps ?_)
    | (with_reducible refine State.okReq_keeps ?_)
    | (with_reducible refine State.writeSpace_keeps ?_)
    | (with_reducible refine State.countSramCorr_keeps ?_)
    | (with_reducible refine State.countLogCorr_keeps ?_)
    | (with_reducible refine State.noteBadWord_keeps ?_)
    | (with_reducible refine State.countBurstCorr_keeps ?_)
    | (with_reducible refine State.foldl_keeps (fun t a h => ?_) ?_)
    | split
    | dsimp only

theorem State.openRetrieve_keeps {bk bg : Bool} {s0 s : State} {x1 : ReqKey} {x2 : Request} {x3 : Nat} {x4 : Model}
    {x5 : Store} {x6 : Option Group} {x7 : Nat} {x8 : RetrieveFind} (h : Keeps bk bg s0 s) : Keeps bk bg s0
    (State.openRetrieve s x1 x2 x3 x4 x5 x6 x7 x8) := by
  unfold State.openRetrieve
  repeat' first
    | (with_reducible assumption)
    | (with_reducible refine State.updReq_keeps ?_)
    | (with_reducible refine State.startOn_keeps ?_)
    | (with_reducible refine State.refuse_keeps ?_)
    | (with_reducible refine State.runRetrieve_keeps ?_)
    | split
    | dsimp only

theorem State.startRetrieve_keeps {bk bg : Bool} {s0 s : State} {x1 : ReqKey} {x2 : Request} {x3 : SourceFind}
    {x4 : RetrieveFind} (h : Keeps bk bg s0 s) : Keeps bk bg s0 (State.startRetrieve s x1 x2 x3 x4) := by
  unfold State.startRetrieve
  repeat' first
    | (with_reducible assumption)
    | (with_reducible refine State.ite_keeps ?_ ?_)
    | (with_reducible refine State.refuse_keeps ?_)
    | (apply State.sourceMet_keeps; assumption)
    | (with_reducible refine State.openRetrieve_keeps ?_)
    | (with_reducible refine State.failMet_keeps ?_)
    | split
    | dsimp only

theorem State.retrieve_keeps {bk bg : Bool} {s0 s : State} {x1 : ReqKey} {x2 : SourceFind} {x3 : RetrieveFind}
    (h : Keeps bk bg s0 s) : Keeps bk bg s0 (State.retrieve s x1 x2 x3) := by
  unfold State.retrieve
  repeat' first
    | (with_reducible assumption)
    | (with_reducible refine State.ite_keeps ?_ ?_)
    | (with_reducible refine State.startRetrieve_keeps ?_)
    | (with_reducible refine State.runRetrieve_keeps ?_)
    | split

theorem execRetrieve_keeps {bk bg : Bool} {s0 s : State} {x0 : ReqKey} {x1 : SourceFind} {x2 : RetrieveFind}
    {t : State} (e : execRetrieve x0 x1 x2 s = .next t) (h : Keeps bk bg s0 s) : Keeps bk bg s0 t := by
  cases e
  exact State.retrieve_keeps h

end Sys2Proof.Machine
end

