-- ==== Sys2Proof/Laws/Keeps2.lean ====
section
/-! SUPPORT. What the operations and commands of these files of the machine keep (Laws/Keeps): Release, Entropy, RunIO, Runs, Data. -/

namespace Sys2Proof.Machine

/-! ### Release -/

theorem State.releaseStream_keeps {bk bg : Bool} {s0 s : State} {x1 : Nat} (h : Keeps bk bg s0 s) : Keeps bk bg s0
    (State.releaseStream s x1) :=
  ⟨h.pending, h.keys, h.gens, h.canonical⟩

theorem State.updJob_keeps {bk bg : Bool} {s0 s : State} {x1 : Nat} {x2 : Job → Job}
    (h : Keeps bk bg s0 s) : Keeps bk bg s0 (State.updJob s x1 x2) :=
  ⟨h.pending, h.keys, h.gens, h.canonical⟩

theorem State.pruneProgress_keeps {bk bg : Bool} {s0 s : State} (h : Keeps bk bg s0 s) : Keeps bk bg s0
    (State.pruneProgress s) :=
  ⟨h.pending, h.keys, h.gens, h.canonical⟩

theorem State.dropEmptyJob_keeps {bk bg : Bool} {s0 s : State} {x1 : Nat} (h : Keeps bk bg s0 s) : Keeps bk bg s0
    (State.dropEmptyJob s x1) := by
  unfold State.dropEmptyJob
  repeat' first
    | (with_reducible assumption)
    | (with_reducible refine State.ite_keeps ?_ ?_)
    | (simp only [State.made_eq]; with_reducible refine State.made_keeps ?_ ?_ ?_)
    | with_reducible rfl

theorem State.freeOne_keeps {bk bg : Bool} {s0 s : State} {x1 : Nat} {x2 : Nat}
    (h : Keeps bk bg s0 s) : Keeps bk bg s0 (State.freeOne s x1 x2) :=
  ⟨h.pending, h.keys, h.gens, h.canonical⟩

theorem State.tellParts_keeps {bk bg : Bool} {s0 s : State} {x1 : Nat} {x2 : List PartShape} {x3 : List Nat}
    (h : Keeps bk bg s0 s) : Keeps bk bg s0 (State.tellParts s x1 x2 x3) := by
  unfold State.tellParts
  repeat' first
    | (with_reducible assumption)
    | (with_reducible refine State.sendPeer_keeps ?_)
    | (with_reducible refine State.foldl_keeps (fun t a h => ?_) ?_)

theorem State.dropJobContext_keeps {bk bg : Bool} {s0 s : State} {x1 : Nat} (h : Keeps bk bg s0 s) : Keeps bk bg s0
    (State.dropJobContext s x1) := by
  unfold State.dropJobContext
  repeat' first
    | (with_reducible assumption)
    | (with_reducible refine State.updCtx_keeps ?_)

theorem State.endJob_keeps {bk bg : Bool} {s0 s : State} {x1 : Nat} (h : Keeps bk bg s0 s) : Keeps bk bg s0
    (State.endJob s x1) := by
  unfold State.endJob
  repeat' first
    | (with_reducible assumption)
    | (with_reducible refine State.ite_keeps ?_ ?_)
    | (with_reducible refine State.dropJobContext_keeps ?_)
    | (simp only [State.made_eq]; with_reducible refine State.made_keeps ?_ ?_ ?_)
    | with_reducible rfl
    | split

theorem State.takeJobContext_keeps {bk bg : Bool} {s0 s : State} {x1 : Nat} {x2 : Nat} {x3 : Grant}
    (h : Keeps bk bg s0 s) : Keeps bk bg s0 (State.takeJobContext s x1 x2 x3) := by
  unfold State.takeJobContext
  repeat' first
    | (with_reducible assumption)
    | (with_reducible refine State.updCtx_keeps ?_)

theorem State.endReserving_keeps {bk bg : Bool} {s0 s : State} {x1 : Nat} (h : Keeps bk bg s0 s) : Keeps bk bg s0
    (State.endReserving s x1) := by
  unfold State.endReserving
  repeat' first
    | (with_reducible assumption)
    | (with_reducible refine State.ite_keeps ?_ ?_)
    | (with_reducible refine State.updJob_keeps ?_)
    | (with_reducible refine State.tellParts_keeps ?_)
    | split

theorem State.drainEntry_keeps {bk bg : Bool} {s0 s : State} {x1 : Nat × Nat} (h : Keeps bk bg s0 s) : Keeps bk bg s0
    (State.drainEntry s x1) := by
  unfold State.drainEntry
  repeat' first
    | (with_reducible assumption)
    | (with_reducible refine State.ite_keeps ?_ ?_)
    | (with_reducible refine State.freeOne_keeps ?_)
    | (with_reducible refine State.pushWord_keeps ?_)
    | (simp only [State.made_eq]; with_reducible refine State.made_keeps ?_ ?_ ?_)
    | with_reducible rfl

theorem State.startDrain_keeps {bk bg : Bool} {s0 s : State} {x1 : Nat} (h : Keeps bk bg s0 s) : Keeps bk bg s0
    (State.startDrain s x1) := by
  unfold State.startDrain
  repeat' first
    | (with_reducible assumption)
    | (with_reducible refine State.drainEntry_keeps ?_)
    | (with_reducible refine State.foldl_keeps (fun t a h => ?_) ?_)

theorem State.releaseData_keeps {bk bg : Bool} {s0 s : State} {x1 : Nat} (h : Keeps bk bg s0 s) : Keeps bk bg s0
    (State.releaseData s x1) := by
  unfold State.releaseData
  repeat' first
    | (with_reducible assumption)
    | (with_reducible refine State.releaseStream_keeps ?_)
    | (with_reducible refine State.releaseUnits_keeps ?_)
    | (with_reducible refine State.rewriteModel_keeps ?_)
    | (with_reducible refine State.foldl_keeps (fun t a h => ?_) ?_)
    | (simp only [State.made_eq]; with_reducible refine State.made_keeps ?_ ?_ ?_)
    | with_reducible rfl
    | split

theorem State.releasePart_keeps {bk bg : Bool} {s0 s : State} {x1 : Nat} (h : Keeps bk bg s0 s) : Keeps bk bg s0
    (State.releasePart s x1) := by
  unfold State.releasePart
  repeat' first
    | (with_reducible assumption)
    | (with_reducible refine State.ite_keeps ?_ ?_)
    | (with_reducible refine State.freeOne_keeps ?_)
    | (with_reducible refine State.releaseData_keeps ?_)
    | (with_reducible refine State.pruneProgress_keeps ?_)
    | (with_reducible refine State.dropJobContext_keeps ?_)
    | (with_reducible refine State.updJob_keeps ?_)
    | (with_reducible refine State.foldl_keeps (fun t a h => ?_) ?_)
    | (simp only [State.made_eq]; with_reducible refine State.made_keeps ?_ ?_ ?_)
    | with_reducible rfl
    | split

theorem State.undoPart_keeps {bk bg : Bool} {s0 s : State} {x1 : Nat} {x2 : Nat}
    (h : Keeps bk bg s0 s) : Keeps bk bg s0 (State.undoPart s x1 x2) := by
  unfold State.undoPart
  repeat' first
    | (with_reducible assumption)
    | (with_reducible refine State.ite_keeps ?_ ?_)
    | (with_reducible refine State.endReserving_keeps ?_)
    | (with_reducible refine State.releasePart_keeps ?_)
    | (with_reducible refine State.sendPeer_keeps ?_)
    | (with_reducible refine State.updJob_keeps ?_)

theorem State.recallPart_keeps {bk bg : Bool} {s0 s : State} {x1 : Request} (h : Keeps bk bg s0 s) : Keeps bk bg s0
    (State.recallPart s x1) := by
  unfold State.recallPart
  repeat' first
    | (with_reducible assumption)
    | (with_reducible refine State.ite_keeps ?_ ?_)
    | (with_reducible refine State.undoPart_keeps ?_)
    | (with_reducible refine State.endJob_keeps ?_)
    | split

/-! ### Entropy -/

theorem State.setErr_keeps {bk bg : Bool} {s0 s : State} {x1 : Nat} (h : Keeps bk bg s0 s) : Keeps bk bg s0
    (State.setErr s x1) := by
  unfold State.setErr
  repeat' first
    | (with_reducible assumption)
    | (with_reducible refine State.ite_keeps ?_ ?_)
    | (simp only [State.made_eq]; with_reducible refine State.made_keeps ?_ ?_ ?_)
    | with_reducible rfl

theorem State.setWindow_keeps {bk bg : Bool} {s0 s : State} {x1 : Nat} {x2 : Drbg}
    (h : Keeps bk bg s0 s) : Keeps bk bg s0 (State.setWindow s x1 x2) := by
  unfold State.setWindow
  repeat' first
    | (with_reducible assumption)
    | (with_reducible refine State.ite_keeps ?_ ?_)
    | (simp only [State.made_eq]; with_reducible refine State.made_keeps ?_ ?_ ?_)
    | with_reducible rfl

theorem State.drawFw_keeps {bk bg : Bool} {s0 s : State} {x1 : Nat} {x : Bytes} {t : State}
    (e : State.drawFw s x1 = some (x, t)) (h : Keeps bk bg s0 s) : Keeps bk bg s0 t := by
  unfold State.drawFw at e
  repeat' first
    | (with_reducible assumption)
    | (cases e; done)
    | split at e
    | (cases e)
    | (simp only [State.made_eq]; with_reducible refine State.made_keeps ?_ ?_ ?_)
    | with_reducible rfl

theorem State.instantiate_keeps {bk bg : Bool} {s0 s : State} {x1 : Fin 3} {x2 : List (BitVec 128)}
    (h : Keeps bk bg s0 s) : Keeps bk bg s0 (State.instantiate s x1 x2) := by
  unfold State.instantiate
  repeat' first
    | (with_reducible assumption)
    | (simp only [State.made_eq]; with_reducible refine State.made_keeps ?_ ?_ ?_)
    | with_reducible rfl
    | split

theorem State.conditioned_keeps {bk bg : Bool} {s0 s : State} {x1 : BitVec 128}
    (h : Keeps bk bg s0 s) : Keeps bk bg s0 (State.conditioned s x1) := by
  unfold State.conditioned
  repeat' first
    | (with_reducible assumption)
    | (with_reducible refine State.ite_keeps ?_ ?_)
    | (with_reducible refine State.instantiate_keeps ?_)
    | (simp only [State.made_eq]; with_reducible refine State.made_keeps ?_ ?_ ?_)
    | with_reducible rfl
    | split

theorem State.entropyOn_keeps {bk bg : Bool} {s0 s : State} (h : Keeps bk bg s0 s) : Keeps bk bg s0 (State.entropyOn s) :=
  ⟨h.pending, h.keys, h.gens, h.canonical⟩

theorem State.entropyOk_keeps {bk bg : Bool} {s0 s : State} {x1 : Bool} (h : Keeps bk bg s0 s) : Keeps bk bg s0
    (State.entropyOk s x1) :=
  ⟨h.pending, h.keys, h.gens, h.canonical⟩

theorem State.flushEntropy_keeps {bk bg : Bool} {s0 s : State} (h : Keeps bk bg s0 s) : Keeps bk bg s0
    (State.flushEntropy s) :=
  ⟨h.pending, h.keys, h.gens, h.canonical⟩

theorem State.startupPass_keeps {bk bg : Bool} {s0 s : State} (h : Keeps bk bg s0 s) : Keeps bk bg s0
    (State.startupPass s) := by
  unfold State.startupPass
  repeat' first
    | (with_reducible assumption)
    | (with_reducible refine State.ite_keeps ?_ ?_)
    | (with_reducible refine State.entropyOk_keeps ?_)
    | (simp only [State.made_eq]; with_reducible refine State.made_keeps ?_ ?_ ?_)
    | with_reducible rfl
    | split

theorem execStartupTestPass_keeps {bk bg : Bool} {s0 s : State} {t : State} (e : execStartupTestPass s = .next t)
    (h : Keeps bk bg s0 s) : Keeps bk bg s0 t := by
  cases e
  exact State.startupPass_keeps h

theorem State.releaseEntropy_keeps {bk bg : Bool} {s0 s : State} (h : Keeps bk bg s0 s) : Keeps bk bg s0
    (State.releaseEntropy s) := by
  unfold State.releaseEntropy
  repeat' first
    | (with_reducible assumption)
    | (with_reducible refine State.ite_keeps ?_ ?_)
    | (with_reducible refine State.entropyOk_keeps ?_)

theorem State.rnDrbg_keeps {bk bg : Bool} {s0 s : State} {x1 : Port} {x2 : Nat}
    (h : Keeps bk bg s0 s) : Keeps bk bg s0 (State.rnDrbg s x1 x2) := by
  unfold State.rnDrbg
  repeat' first
    | (with_reducible assumption)
    | (with_reducible refine State.ite_keeps ?_ ?_)
    | (with_reducible refine State.onRead_keeps (fun t h => ?_) ?_)
    | (with_reducible refine State.answer_keeps ?_)
    | (with_reducible refine State.setWindow_keeps ?_)
    | (with_reducible refine State.setErr_keeps ?_)
    | (simp only [State.made_eq]; with_reducible refine State.made_keeps ?_ ?_ ?_)
    | with_reducible rfl
    | split

theorem State.rnData_keeps {bk bg : Bool} {s0 s : State} {x1 : Port} {x2 : Nat}
    (h : Keeps bk bg s0 s) : Keeps bk bg s0 (State.rnData s x1 x2) := by
  unfold State.rnData
  repeat' first
    | (with_reducible assumption)
    | (with_reducible refine State.ite_keeps ?_ ?_)
    | (with_reducible refine State.onRead_keeps (fun t h => ?_) ?_)
    | (with_reducible refine State.answer_keeps ?_)
    | (with_reducible refine State.setErr_keeps ?_)
    | (simp only [State.made_eq]; with_reducible refine State.made_keeps ?_ ?_ ?_)
    | with_reducible rfl
    | split

theorem execRnDrbgRead_keeps {bk bg : Bool} {s0 s : State} {x0 : Port} {x1 : Nat} {t : State}
    (e : execRnDrbgRead x0 x1 s = .next t) (h : Keeps bk bg s0 s) : Keeps bk bg s0 t := by
  cases e
  exact State.rnDrbg_keeps h

theorem execRelease_keeps {bk bg : Bool} {s0 s : State} {x0 : Port} {t : State} (e : execRelease x0 s = .next t)
    (h : Keeps bk bg s0 s) : Keeps bk bg s0 t := by
  unfold execRelease at e
  repeat' first
    | (with_reducible assumption)
    | (cases e)
    | (with_reducible refine State.onRwl_keeps (fun t h => ?_) ?_)
    | (with_reducible refine State.releaseEntropy_keeps ?_)

theorem State.healthFailure_keeps {bk bg : Bool} {s0 s : State} {x1 : Bool} (h : Keeps bk bg s0 s) : Keeps bk bg s0
    (State.healthFailure s x1) := by
  unfold State.healthFailure
  repeat' first
    | (with_reducible assumption)
    | (with_reducible refine State.flushEntropy_keeps ?_)
    | (with_reducible refine State.eventSignal_keeps ?_)
    | (simp only [State.made_eq]; with_reducible refine State.made_keeps ?_ ?_ ?_)
    | with_reducible rfl
    | split

theorem execHealthTestFailure_keeps {bk bg : Bool} {s0 s : State} {x0 : Bool} {t : State}
    (e : execHealthTestFailure x0 s = .next t) (h : Keeps bk bg s0 s) : Keeps bk bg s0 t := by
  cases e
  exact State.healthFailure_keeps h

theorem State.conditionerBlock_keeps {bk bg : Bool} {s0 s : State} {x1 : BitVec 1024}
    (h : Keeps bk bg s0 s) : Keeps bk bg s0 (State.conditionerBlock s x1) := by
  unfold State.conditionerBlock
  split
  · cases s.rawFault x1 with
    | some f => exact State.healthFailure_keeps h
    | none => exact State.conditioned_keeps (State.made_keeps h rfl rfl)
  · exact h

theorem execRnDataRead_keeps {bk bg : Bool} {s0 s : State} {x0 : Port} {x1 : Nat} {t : State}
    (e : execRnDataRead x0 x1 s = .next t) (h : Keeps bk bg s0 s) : Keeps bk bg s0 t := by
  cases e
  exact State.rnData_keeps h

theorem execConditionerBlock_keeps {bk bg : Bool} {s0 s : State} {x0 : BitVec 1024} {t : State}
    (e : execConditionerBlock x0 s = .next t) (h : Keeps bk bg s0 s) : Keeps bk bg s0 t := by
  cases e
  exact State.conditionerBlock_keeps h

/-! ### RunIO -/

theorem State.putOut_keeps {bk bg : Bool} {s0 s : State} {x1 : Request} {x2 : W64} {x3 : Nat} {x4 : Bytes}
    (h : Keeps bk bg s0 s) : Keeps bk bg s0 (State.putOut s x1 x2 x3 x4) := by
  unfold State.putOut
  repeat' first
    | (with_reducible assumption)
    | (with_reducible refine State.writeSpace_keeps ?_)

theorem State.writeBest_keeps {bk bg : Bool} {s0 s : State} {x1 : Request} {x2 : Run} {x3 : Net} {x4 : Nat}
    {x5 : List Bool} (h : Keeps bk bg s0 s) : Keeps bk bg s0 (State.writeBest s x1 x2 x3 x4 x5) := by
  unfold State.writeBest
  repeat' first
    | (with_reducible assumption)
    | (with_reducible refine State.ite_keeps ?_ ?_)
    | (with_reducible refine State.putOut_keeps ?_)
    | (with_reducible refine State.foldl_keeps (fun t a h => ?_) ?_)

theorem State.writeRun_keeps {bk bg : Bool} {s0 s : State} {x1 : Request} {x2 : Run} {x3 : Model} {x4 : Net}
    {x5 : Sums} (h : Keeps bk bg s0 s) : Keeps bk bg s0 (State.writeRun s x1 x2 x3 x4 x5) := by
  unfold State.writeRun
  repeat' first
    | (with_reducible assumption)
    | (with_reducible refine State.ite_keeps ?_ ?_)
    | (with_reducible refine State.putOut_keeps ?_)
    | (with_reducible refine State.foldl_keeps (fun t a h => ?_) ?_)

/-! ### Runs -/

theorem State.grantCredit_keeps {bk bg : Bool} {s0 s : State} {x1 : Nat} {x2 : Nat}
    (h : Keeps bk bg s0 s) : Keeps bk bg s0 (State.grantCredit s x1 x2) := by
  unfold State.grantCredit
  repeat' first
    | (with_reducible assumption)
    | (simp only [State.made_eq]; with_reducible refine State.made_keeps ?_ ?_ ?_)
    | with_reducible rfl
    | split

theorem State.sendRun_keeps {bk bg : Bool} {s0 s : State} {x1 : Model} {x2 : Net} {x3 : Run} {x4 : Bytes}
    {x5 : Option Bytes} {x6 : List (List (List Nat))} (h : Keeps bk bg s0 s) : Keeps bk bg s0
    (State.sendRun s x1 x2 x3 x4 x5 x6) := by
  unfold State.sendRun
  repeat' first
    | (with_reducible assumption)
    | (with_reducible refine State.ite_keeps ?_ ?_)
    | (with_reducible refine State.sendPeer_keeps ?_)
    | (with_reducible refine State.foldl_keeps (fun t a h => ?_) ?_)

theorem State.sendBoundary_keeps {bk bg : Bool} {s0 s : State} {x1 : Run} {x2 : Bool} {x3 : List Bool}
    (h : Keeps bk bg s0 s) : Keeps bk bg s0 (State.sendBoundary s x1 x2 x3) := by
  unfold State.sendBoundary
  repeat' first
    | (with_reducible assumption)
    | (with_reducible refine State.ite_keeps ?_ ?_)
    | (with_reducible refine State.sendForked_keeps ?_)
    | split

theorem State.setHalf_keeps {bk bg : Bool} {s0 s : State} {x1 : Half} {x2 : HalfState}
    (h : Keeps bk bg s0 s) : Keeps bk bg s0 (State.setHalf s x1 x2) := by
  unfold State.setHalf
  repeat' first
    | (with_reducible assumption)
    | (simp only [State.made_eq]; with_reducible refine State.made_keeps ?_ ?_ ?_)
    | with_reducible rfl
    | split

theorem State.parkHinges_keeps {bk bg : Bool} {s0 s : State} (h : Keeps bk bg s0 s) : Keeps bk bg s0 (State.parkHinges s) :=
  ⟨h.pending, h.keys, h.gens, h.canonical⟩

theorem State.openCuffs_keeps {bk bg : Bool} {s0 s : State} {x1 : Nat} (h : Keeps bk bg s0 s) : Keeps bk bg s0
    (State.openCuffs s x1) := by
  unfold State.openCuffs
  repeat' first
    | (with_reducible assumption)
    | (with_reducible refine State.ite_keeps ?_ ?_)
    | (with_reducible refine State.grantCredit_keeps ?_)

theorem State.driveHalf_keeps {bk bg : Bool} {s0 s : State} {x1 : Half} {x2 : DState}
    (h : Keeps bk bg s0 s) : Keeps bk bg s0 (State.driveHalf s x1 x2) := by
  unfold State.driveHalf
  repeat' first
    | (with_reducible assumption)
    | (with_reducible refine State.updSite_keeps ?_)
    | (with_reducible refine State.foldl_keeps (fun t a h => ?_) ?_)

theorem State.boundaryCount_keeps {bk bg : Bool} {s0 s : State} {x1 : Run} {x2 : Net} {x3 : Model}
    {x4 : BoundaryFind} (h : Keeps bk bg s0 s) : Keeps bk bg s0 (State.boundaryCount s x1 x2 x3 x4) := by
  unfold State.boundaryCount
  repeat' first
    | (with_reducible assumption)
    | (with_reducible refine State.ite_keeps ?_ ?_)
    | (with_reducible refine State.countSramCorr_keeps ?_)
    | (with_reducible refine State.countLogCorr_keeps ?_)
    | (with_reducible refine State.countBurstCorr_keeps ?_)
    | split

theorem State.rewriteRows_keeps {bk bg : Bool} {s0 s : State} {x1 : Nat} {x2 : RowUpdate}
    (h : Keeps bk bg s0 s) : Keeps bk bg s0 (State.rewriteRows s x1 x2) := by
  unfold State.rewriteRows
  repeat' first
    | (with_reducible assumption)
    | (with_reducible refine State.ite_keeps ?_ ?_)
    | (with_reducible refine State.rewriteWords_keeps ?_)
    | (with_reducible refine State.foldl_keeps (fun t a h => ?_) ?_)
    | split

theorem State.applyCuffs_keeps {bk bg : Bool} {s0 s : State} {x1 : Nat} {x2 : Nat}
    (h : Keeps bk bg s0 s) : Keeps bk bg s0 (State.applyCuffs s x1 x2) := by
  unfold State.applyCuffs
  repeat' first
    | (with_reducible assumption)
    | (with_reducible refine State.ite_keeps ?_ ?_)
    | (with_reducible refine State.updNet_keeps ?_)
    | (with_reducible refine State.grantCredit_keeps ?_)
    | (with_reducible refine State.foldl_keeps (fun t a h => ?_) ?_)
    | (simp only [State.made_eq]; with_reducible refine State.made_keeps ?_ ?_ ?_)
    | with_reducible rfl
    | split

theorem State.keepStates_keeps {bk bg : Bool} {s0 s : State} {x1 : Nat} {x2 : List (List (List Nat))}
    (h : Keeps bk bg s0 s) : Keeps bk bg s0 (State.keepStates s x1 x2) := by
  unfold State.keepStates
  repeat' first
    | (with_reducible assumption)
    | (with_reducible refine State.updNet_keeps ?_)

theorem State.endHalfReq_keeps {bk bg : Bool} {s0 s : State} {x1 : Half} {x2 : HalfState}
    (h : Keeps bk bg s0 s) : Keeps bk bg s0 (State.endHalfReq s x1 x2) := by
  unfold State.endHalfReq
  repeat' first
    | (with_reducible assumption)
    | (with_reducible refine State.okReq_keeps ?_)
    | (with_reducible refine State.foldl_keeps (fun t a h => ?_) ?_)
    | (simp only [State.made_eq]; with_reducible refine State.made_keeps ?_ ?_ ?_)
    | with_reducible rfl
    | split

theorem State.writeUpdate_keeps {bk bg : Bool} {s0 s : State} {x1 : Nat} {x2 : RowUpdate}
    (h : Keeps bk bg s0 s) : Keeps bk bg s0 (State.writeUpdate s x1 x2) := by
  unfold State.writeUpdate
  repeat' first
    | (with_reducible assumption)
    | (with_reducible refine State.updNet_keeps ?_)
    | (with_reducible refine State.rewriteRows_keeps ?_)

theorem State.rewriteHems_keeps {bk bg : Bool} {s0 s : State} {x1 : Run} {x2 : Net} {x3 : Nat}
    (h : Keeps bk bg s0 s) : Keeps bk bg s0 (State.rewriteHems s x1 x2 x3) := by
  unfold State.rewriteHems
  repeat' first
    | (with_reducible assumption)
    | (with_reducible refine State.rewriteUnits_keeps ?_)
    | (with_reducible refine State.foldl_keeps (fun t a h => ?_) ?_)

theorem State.applyUpdates_keeps {bk bg : Bool} {s0 s : State} {x1 : Nat} (h : Keeps bk bg s0 s) : Keeps bk bg s0
    (State.applyUpdates s x1) := by
  unfold State.applyUpdates
  repeat' first
    | (with_reducible assumption)
    | (with_reducible refine State.ite_keeps ?_ ?_)
    | (with_reducible refine State.writeUpdate_keeps ?_)
    | (with_reducible refine State.okReq_keeps ?_)
    | (with_reducible refine State.updNet_keeps ?_)
    | (with_reducible refine State.foldl_keeps (fun t a h => ?_) ?_)
    | split

theorem State.afterRun_keeps {bk bg : Bool} {s0 s : State} {x1 : Nat} (h : Keeps bk bg s0 s) : Keeps bk bg s0
    (State.afterRun s x1) := by
  unfold State.afterRun
  repeat' first
    | (with_reducible assumption)
    | (with_reducible refine State.applyUpdates_keeps ?_)

theorem State.settleRet_keeps {bk bg : Bool} {s0 s : State} (h : Keeps bk bg s0 s) : Keeps bk bg s0 (State.settleRet s) := by
  unfold State.settleRet
  repeat' first
    | (with_reducible assumption)
    | (with_reducible refine State.ite_keeps ?_ ?_)
    | (with_reducible refine State.endHalfReq_keeps ?_)
    | (with_reducible refine State.parkHinges_keeps ?_)
    | (with_reducible refine State.setHalf_keeps ?_)
    | (with_reducible refine State.driveHalf_keeps ?_)
    | (with_reducible refine State.foldl_keeps (fun t a h => ?_) ?_)

theorem State.updateRun_keeps {bk bg : Bool} {s0 s : State} {x1 : Run} {x2 : RowUpdate}
    (h : Keeps bk bg s0 s) : Keeps bk bg s0 (State.updateRun s x1 x2) := by
  unfold State.updateRun
  repeat' first
    | (with_reducible assumption)
    | (with_reducible refine State.ite_keeps ?_ ?_)
    | (with_reducible refine State.writeUpdate_keeps ?_)
    | (with_reducible refine State.failRun_keeps ?_)
    | (with_reducible refine State.updRun_keeps ?_)
    | (with_reducible refine State.updNet_keeps ?_)
    | split
    | dsimp only

theorem State.failHems_keeps {bk bg : Bool} {s0 s : State} {x1 : Run} {x2 : Burst}
    (h : Keeps bk bg s0 s) : Keeps bk bg s0 (State.failHems s x1 x2) := by
  unfold State.failHems
  repeat' first
    | (with_reducible assumption)
    | (with_reducible refine State.faultLpddr_keeps ?_)
    | (with_reducible refine State.failParts_keeps ?_)
    | (with_reducible refine State.failPart_keeps ?_)
    | (with_reducible refine State.noteContext_keeps ?_)
    | (with_reducible refine State.noteBurst_keeps ?_)
    | split

theorem State.startTurn_keeps {bk bg : Bool} {s0 s : State} {x1 : ReqKey} (h : Keeps bk bg s0 s) : Keeps bk bg s0
    (State.startTurn s x1) := by
  unfold State.startTurn
  repeat' first
    | (with_reducible assumption)
    | (with_reducible refine State.presentTurnEnds_keeps ?_)
    | (with_reducible refine State.updRun_keeps ?_)
    | (with_reducible refine State.updNet_keeps ?_)
    | split

theorem State.boundaryFault_keeps {bk bg : Bool} {s0 s : State} {x1 : Sys2Proof.Machine.Run}
    {x2 : Sys2Proof.Machine.Net} {x3 : Sys2Proof.Machine.Model} {x4 : Sys2Proof.BoundaryFind} {t : State}
    (e : State.boundaryFault s x1 x2 x3 x4 = some t) (h : Keeps bk bg s0 s) : Keeps bk bg s0 t := by
  unfold State.boundaryFault at e
  dsimp only at e
  repeat' first
    | (with_reducible assumption)
    | split at e
    | cases e
    | (with_reducible refine State.failHems_keeps ?_)
    | (obtain ⟨d, _, rfl⟩ := Option.map_eq_some_iff.1 e)
    | (with_reducible refine State.failRun_keeps ?_)
    | (with_reducible refine State.noteBadWord_keeps ?_)

theorem State.goOn_keeps {bk bg : Bool} {s0 s : State} {x1 : ReqKey} (h : Keeps bk bg s0 s) : Keeps bk bg s0
    (State.goOn s x1) := by
  unfold State.goOn
  repeat' first
    | (with_reducible assumption)
    | (with_reducible refine State.startTurn_keeps ?_)
    | (with_reducible refine State.updRun_keeps ?_)
    | (with_reducible refine State.sendBoundary_keeps ?_)
    | split

theorem State.traceStep_keeps {bk bg : Bool} {s0 s : State} {x1 : Request} {x2 : Run} {x3 : Nat} {x4 : Nat}
    {x5 : Bool} {t : State} {x : Run} (e : State.traceStep s x1 x2 x3 x4 x5 = (t, x))
    (h : Keeps bk bg s0 s) : Keeps bk bg s0 t := by
  unfold State.traceStep at e
  repeat' first
    | (with_reducible assumption)
    | split at e
    | (cases e)
    | (with_reducible refine State.putOut_keeps ?_)

theorem State.rewriteBest_keeps {bk bg : Bool} {s0 s : State} {x1 : ReqKey} (h : Keeps bk bg s0 s) : Keeps bk bg s0
    (State.rewriteBest s x1) := by
  unfold State.rewriteBest
  repeat' first
    | (with_reducible assumption)
    | (with_reducible refine State.updRun_keeps ?_)
    | (with_reducible refine State.writeBest_keeps ?_)
    | split

theorem State.applyHeldUpdate_keeps {bk bg : Bool} {s0 s : State} {x1 : ReqKey}
    (h : Keeps bk bg s0 s) : Keeps bk bg s0 (State.applyHeldUpdate s x1) := by
  unfold State.applyHeldUpdate
  repeat' first
    | (with_reducible assumption)
    | (with_reducible refine State.updNet_keeps ?_)
    | (with_reducible refine State.rewriteBest_keeps ?_)
    | (with_reducible refine State.updateRun_keeps ?_)
    | (with_reducible refine State.okReq_keeps ?_)
    | (with_reducible refine State.goOn_keeps ?_)
    | (with_reducible refine State.holdReq_keeps ?_)
    | split
    | dsimp only

theorem State.landRun_keeps {bk bg : Bool} {s0 s : State} {x1 : ReqKey} {x2 : Nat} {x3 : Nat} {x4 : W64} {x5 : W64}
    (h : Keeps bk bg s0 s) : Keeps bk bg s0 (State.landRun s x1 x2 x3 x4 x5) := by
  unfold State.landRun
  repeat' first
    | (with_reducible assumption)
    | (with_reducible refine State.ite_keeps ?_ ?_)
    | (with_reducible refine State.updNet_keeps ?_)
    | (with_reducible refine State.writeRun_keeps ?_)
    | (with_reducible refine State.stopParts_keeps ?_)
    | (with_reducible refine State.keepStates_keeps ?_)
    | (with_reducible refine State.holdReq_keeps ?_)
    | (with_reducible refine State.updRun_keeps ?_)
    | (with_reducible refine State.afterRun_keeps ?_)
    | (with_reducible refine State.endReq_keeps ?_)
    | split

theorem State.applyBias_keeps {bk bg : Bool} {s0 s : State} {x1 : ReqKey} (h : Keeps bk bg s0 s) : Keeps bk bg s0
    (State.applyBias s x1) := by
  unfold State.applyBias
  repeat' first
    | (with_reducible assumption)
    | (with_reducible refine State.rewriteBest_keeps ?_)
    | (with_reducible refine State.updateRun_keeps ?_)
    | (with_reducible refine State.updNet_keeps ?_)
    | (with_reducible refine State.foldl_keeps (fun t a h => ?_) ?_)
    | split

theorem State.holdOrGo_keeps {bk bg : Bool} {s0 s : State} {x1 : ReqKey} {x2 : Option Hold}
    (h : Keeps bk bg s0 s) : Keeps bk bg s0 (State.holdOrGo s x1 x2) := by
  unfold State.holdOrGo
  repeat' first
    | (with_reducible assumption)
    | (with_reducible refine State.applyHeldUpdate_keeps ?_)
    | (with_reducible refine State.holdReq_keeps ?_)
    | (with_reducible refine State.goOn_keeps ?_)
    | split

theorem State.finishRun_keeps {bk bg : Bool} {s0 s : State} {x1 : ReqKey} {x2 : Nat}
    (h : Keeps bk bg s0 s) : Keeps bk bg s0 (State.finishRun s x1 x2) := by
  unfold State.finishRun
  repeat' first
    | (with_reducible assumption)
    | (with_reducible refine State.ite_keeps ?_ ?_)
    | (with_reducible refine State.keepStates_keeps ?_)
    | (with_reducible refine State.writeRun_keeps ?_)
    | (with_reducible refine State.updNet_keeps ?_)
    | (with_reducible refine State.afterRun_keeps ?_)
    | (with_reducible refine State.endReq_keeps ?_)
    | split

theorem State.ladder_keeps {bk bg : Bool} {s0 s : State} {x1 : Sys2Proof.ReqKey} {x2 : List Int} {x3 : Nat}
    {x4 : Bool} {x5 : Bool} (h : Keeps bk bg s0 s) : Keeps bk bg s0 (State.ladder s x1 x2 x3 x4 x5) := by
  unfold State.ladder
  split
  · split
    · split
      · exact State.failRun_keeps h
      · extract_lets image
        clear_value image
        split
        split
        rename_i s1 u2 he
        have h1 : Keeps bk bg s0 s1 := State.traceStep_keeps he h
        extract_lets u3 stop round u4 u5 s2
        have h2 : Keeps bk bg s0 s2 := State.writeBest_keeps (State.updRun_keeps h1)
        clear_value s2
        split
        · split
          · exact State.holdReq_keeps (State.updRun_keeps (State.sendBoundary_keeps h2))
          · exact State.finishRun_keeps (State.sendBoundary_keeps h2)
        · exact State.holdOrGo_keeps (State.updReq_keeps (State.applyBias_keeps (State.updRun_keeps h2)))
    · exact h
  · exact h

theorem State.ladderReady_keeps {bk bg : Bool} {s0 s : State} {x1 : ReqKey} (h : Keeps bk bg s0 s) : Keeps bk bg s0
    (State.ladderReady s x1) := by
  unfold State.ladderReady
  repeat' first
    | (with_reducible assumption)
    | (with_reducible refine State.ite_keeps ?_ ?_)
    | (with_reducible refine State.ladder_keeps ?_)
    | (with_reducible refine State.updRun_keeps ?_)
    | split

theorem State.startPart_keeps {bk bg : Bool} {s0 s : State} {u : Run} {n : Net} {mask : Nat} (h : Keeps bk bg s0 s) :
    (∀ t, s.startPart u n mask = .error t → Keeps bk bg s0 t) ∧ ∀ t p, s.startPart u n mask = .ok (t, p) → Keeps bk bg s0 t := by
  unfold State.startPart
  extract_lets t0
  have hc : Keeps bk bg s0 t0 := State.updNet_keeps (State.rewriteHems_keeps h)
  clear_value t0
  split
  · exact ⟨fun t e => by cases e; exact State.failHems_keeps hc, fun t p e => by cases e⟩
  · split
    · exact ⟨fun t e => by cases e; exact State.failRun_keeps hc, fun t p e => by cases e⟩
    · exact ⟨fun t e => (by cases e), fun t p e => by cases e; exact State.updNet_keeps hc⟩

theorem State.startPart_error_keeps {bk bg : Bool} {s0 s t : State} {u : Run} {n : Net} {mask : Nat}
    (e : s.startPart u n mask = .error t)
    (h : Keeps bk bg s0 s) : Keeps bk bg s0 t := (State.startPart_keeps h).1 _ e

theorem State.startPart_ok_keeps {bk bg : Bool} {s0 s t : State} {u : Run} {n : Net} {mask : Nat} {p : List Int}
    (e : s.startPart u n mask = .ok (t, p)) (h : Keeps bk bg s0 s) : Keeps bk bg s0 t := (State.startPart_keeps h).2 _ _ e

theorem State.beginRun_keeps {bk bg : Bool} {s0 s : State} {x1 : ReqKey} {x2 : Nat} {x3 : Model} {x4 : Net}
    {x5 : Nat} {x6 : RunSpec} {x7 : W64} {x8 : Bytes} (h : Keeps bk bg s0 s) : Keeps bk bg s0
    (State.beginRun s x1 x2 x3 x4 x5 x6 x7 x8) := by
  unfold State.beginRun
  repeat' first
    | (with_reducible assumption)
    | (with_reducible refine State.ite_keeps ?_ ?_)
    | (with_reducible refine State.clearLanes_keeps ?_)
    | (with_reducible refine State.startOn_keeps ?_)
    | (with_reducible refine State.holdReq_keeps ?_)
    | (with_reducible refine State.sendRun_keeps ?_)
    | (with_reducible refine State.openCuffs_keeps ?_)
    | (with_reducible refine State.updRun_keeps ?_)
    | (with_reducible refine State.ladder_keeps ?_)
    | (apply State.startPart_error_keeps; assumption)
    | (apply State.startPart_ok_keeps; assumption)
    | (simp only [State.made_eq]; with_reducible refine State.made_keeps ?_ ?_ ?_)
    | with_reducible rfl
    | split
    | dsimp only

theorem State.farStates_keeps {bk bg : Bool} {s0 s : State} {n : Net} (h : Keeps bk bg s0 s) :
    Keeps bk bg s0 (s.farStates n).2 := by
  unfold State.farStates
  split
  · exact h
  · exact State.takeFree_snd_keeps h

theorem State.boundaryPart_keeps {bk bg : Bool} {s0 s : State} {u : Run} {n : Net} {redo : Option (Nat × Nat)}
    (h : Keeps bk bg s0 s) :
    (∀ t, s.boundaryPart u n redo = .error t → Keeps bk bg s0 t) ∧
      ∀ t p m, s.boundaryPart u n redo = .ok (t, p, m) → Keeps bk bg s0 t := by
  unfold State.boundaryPart
  extract_lets again run
  clear_value run
  split
  · exact ⟨fun t e => by cases e; exact State.failRun_keeps h, fun t p m e => by cases e⟩
  · split
    · exact ⟨fun t e => by cases e; exact State.failRun_keeps h, fun t p m e => by cases e⟩
    · extract_lets moved n1 part
      split
      rename_i far t0 he
      have h0 : Keeps bk bg s0 t0 := by
        split at he
        · have k := State.farStates_keeps (n := n) h
          rw [he] at k
          exact k
        · cases he; exact h
      extract_lets sums n2
      split
      · exact ⟨fun t e => by cases e; exact State.failRun_keeps h, fun t p m e => by cases e⟩
      · exact ⟨fun t e => (by cases e), fun t p m e => by cases e; exact State.updNet_keeps h0⟩

theorem State.boundaryPart_error_keeps {bk bg : Bool} {s0 s t : State} {u : Run} {n : Net} {redo : Option (Nat × Nat)}
    (e : s.boundaryPart u n redo = .error t) (h : Keeps bk bg s0 s) :
    Keeps bk bg s0 t := (State.boundaryPart_keeps h).1 _ e

theorem State.boundaryPart_ok_keeps {bk bg : Bool} {s0 s t : State} {u : Run} {n : Net} {redo : Option (Nat × Nat)}
    {p : List Int} {m : Bool}
    (e : s.boundaryPart u n redo = .ok (t, p, m)) (h : Keeps bk bg s0 s) : Keeps bk bg s0 t := (State.boundaryPart_keeps h).2 _ _ _ e

theorem State.turnBoundary_keeps {bk bg : Bool} {s0 s : State} {x1 : ReqKey} {x2 : BoundaryFind}
    (h : Keeps bk bg s0 s) : Keeps bk bg s0 (State.turnBoundary s x1 x2) := by
  unfold State.turnBoundary
  repeat' first
    | (with_reducible assumption)
    | (with_reducible refine State.ite_keeps ?_ ?_)
    | (with_reducible refine State.applyCuffs_keeps ?_)
    | (apply State.boundaryFault_keeps; assumption)
    | (with_reducible refine State.boundaryCount_keeps ?_)
    | (with_reducible refine State.sendPeer_keeps ?_)
    | (with_reducible refine State.updRun_keeps ?_)
    | (with_reducible refine State.ladderReady_keeps ?_)
    | (with_reducible refine State.ladder_keeps ?_)
    | (apply State.boundaryPart_error_keeps; assumption)
    | (apply State.boundaryPart_ok_keeps; assumption)
    | split
    | dsimp only

theorem execTurnBoundary_keeps {bk bg : Bool} {s0 s : State} {x0 : ReqKey} {x1 : BoundaryFind} {t : State}
    (e : execTurnBoundary x0 x1 s = .next t) (h : Keeps bk bg s0 s) : Keeps bk bg s0 t := by
  unfold execTurnBoundary at e
  repeat' first
    | (with_reducible assumption)
    | (cases e)
    | (with_reducible refine State.settleRet_keeps ?_)
    | (with_reducible refine State.turnBoundary_keeps ?_)

theorem State.openRun_keeps {bk bg : Bool} {s0 s : State} {x1 : ReqKey} {x2 : Request} {x3 : Nat} {x4 : Model}
    {x5 : Net} {x6 : Nat} (h : Keeps bk bg s0 s) : Keeps bk bg s0 (State.openRun s x1 x2 x3 x4 x5 x6) := by
  unfold State.openRun
  repeat' first
    | (with_reducible assumption)
    | (with_reducible refine State.ite_keeps ?_ ?_)
    | (with_reducible refine State.refuse_keeps ?_)
    | (with_reducible refine State.faultData_keeps ?_)
    | (with_reducible refine State.beginRun_keeps ?_)
    | (apply State.drawFw_keeps; assumption)
    | split

theorem State.dispatchRun_keeps {bk bg : Bool} {s0 s : State} {x1 : ReqKey} {x2 : Nat} {x3 : SourceFind}
    (h : Keeps bk bg s0 s) : Keeps bk bg s0 (State.dispatchRun s x1 x2 x3) := by
  unfold State.dispatchRun
  repeat' first
    | (with_reducible assumption)
    | (with_reducible refine State.ite_keeps ?_ ?_)
    | (with_reducible refine State.refuse_keeps ?_)
    | (with_reducible refine State.badHandle_keeps ?_)
    | (apply State.sourceMet_keeps; assumption)
    | (with_reducible refine State.openRun_keeps ?_)
    | (with_reducible refine State.failMet_keeps ?_)
    | split

theorem execScore_keeps {bk bg : Bool} {s0 s : State} {x0 : ReqKey} {x1 : SourceFind} {t : State}
    (e : execScore x0 x1 s = .next t) (h : Keeps bk bg s0 s) : Keeps bk bg s0 t := by
  cases e
  exact State.dispatchRun_keeps h

theorem execSample_keeps {bk bg : Bool} {s0 s : State} {x0 : ReqKey} {x1 : SourceFind} {t : State}
    (e : execSample x0 x1 s = .next t) (h : Keeps bk bg s0 s) : Keeps bk bg s0 t := by
  cases e
  exact State.dispatchRun_keeps h

theorem execSolve_keeps {bk bg : Bool} {s0 s : State} {x0 : ReqKey} {x1 : SourceFind} {t : State}
    (e : execSolve x0 x1 s = .next t) (h : Keeps bk bg s0 s) : Keeps bk bg s0 t := by
  cases e
  exact State.dispatchRun_keeps h

/-! ### Data -/

theorem State.withdraw_keeps {bk bg : Bool} {s0 s : State} {x1 : ReqKey} (h : Keeps bk bg s0 s) : Keeps bk bg s0
    (State.withdraw s x1) :=
  ⟨h.pending, h.keys, h.gens, h.canonical⟩

theorem State.takePages_keeps {bk bg : Bool} {s0 s : State} {x1 : Request} {x2 : Nat} {x3 : Nat}
    (h : Keeps bk bg s0 s) : Keeps bk bg s0 (State.takePages s x1 x2 x3) := by
  unfold State.takePages
  repeat' first
    | (with_reducible assumption)
    | (with_reducible refine State.ite_keeps ?_ ?_)
    | (with_reducible refine State.updCtx_keeps ?_)

theorem State.nop_keeps {bk bg : Bool} {s0 s : State} {x1 : ReqKey} (h : Keeps bk bg s0 s) : Keeps bk bg s0
    (State.nop s x1) := by
  unfold State.nop
  repeat' first
    | (with_reducible assumption)
    | (with_reducible refine State.ite_keeps ?_ ?_)
    | (with_reducible refine State.okReq_keeps ?_)
    | (with_reducible refine State.dropReq_keeps ?_)
    | (with_reducible refine State.foldl_keeps (fun t a h => ?_) ?_)
    | split

theorem State.openWrite_keeps {bk bg : Bool} {s0 s : State} {x1 : Request} {x2 : Nat} {x3 : Nat} {x4 : Nat}
    {t : State} (e : State.openWrite s x1 x2 x3 x4 = .ok t) (h : Keeps bk bg s0 s) : Keeps bk bg s0 t := by
  unfold State.openWrite at e
  repeat' first
    | (with_reducible assumption)
    | (cases e; done)
    | split at e
    | (cases e)
    | (with_reducible refine State.takePages_keeps ?_)

theorem State.join_keeps {bk bg : Bool} {s0 s : State} {x1 : ReqKey} (h : Keeps bk bg s0 s) : Keeps bk bg s0
    (State.join s x1) := by
  unfold State.join
  repeat' first
    | (with_reducible assumption)
    | (with_reducible refine State.okReq_keeps ?_)
    | split

theorem execNop_keeps {bk bg : Bool} {s0 s : State} {x0 : ReqKey} {t : State} (e : execNop x0 s = .next t)
    (h : Keeps bk bg s0 s) : Keeps bk bg s0 t := by
  cases e
  exact State.nop_keeps h

theorem execJoin_keeps {bk bg : Bool} {s0 s : State} {x0 : ReqKey} {t : State} (e : execJoin x0 s = .next t)
    (h : Keeps bk bg s0 s) : Keeps bk bg s0 t := by
  cases e
  exact State.join_keeps h

theorem State.patch_keeps {bk bg : Bool} {s0 s : State} {x1 : ReqKey} (h : Keeps bk bg s0 s) : Keeps bk bg s0
    (State.patch s x1) := by
  unfold State.patch
  repeat' first
    | (with_reducible assumption)
    | (with_reducible refine State.takeFree_snd_keeps ?_)
    | (with_reducible refine State.releasePatched_keeps ?_)
    | (with_reducible refine State.okReq_keeps ?_)
    | (with_reducible refine State.settlePatches_keeps ?_)
    | split

theorem execPatch_keeps {bk bg : Bool} {s0 s : State} {x0 : ReqKey} {t : State} (e : execPatch x0 s = .next t)
    (h : Keeps bk bg s0 s) : Keeps bk bg s0 t := by
  cases e
  exact State.patch_keeps h

theorem State.signalReq_keeps {bk bg : Bool} {s0 s : State} {x1 : ReqKey} (h : Keeps bk bg s0 s) : Keeps bk bg s0
    (State.signalReq s x1) := by
  unfold State.signalReq
  repeat' first
    | (with_reducible assumption)
    | (with_reducible refine State.ite_keeps ?_ ?_)
    | (with_reducible refine State.refuse_keeps ?_)
    | (with_reducible refine State.writeFor_keeps ?_)
    | (with_reducible refine State.okReq_keeps ?_)
    | (with_reducible refine State.sendSignal_keeps ?_)
    | split

theorem execSignal_keeps {bk bg : Bool} {s0 s : State} {x0 : ReqKey} {t : State} (e : execSignal x0 s = .next t)
    (h : Keeps bk bg s0 s) : Keeps bk bg s0 t := by
  cases e
  exact State.signalReq_keeps h

theorem State.copy_keeps {bk bg : Bool} {s0 s : State} {x1 : ReqKey} {x2 : SourceFind}
    (h : Keeps bk bg s0 s) : Keeps bk bg s0 (State.copy s x1 x2) := by
  unfold State.copy
  repeat' first
    | (with_reducible assumption)
    | (with_reducible refine State.ite_keeps ?_ ?_)
    | (with_reducible refine State.okReq_keeps ?_)
    | (with_reducible refine State.refuse_keeps ?_)
    | (apply State.sourceMet_keeps; assumption)
    | (with_reducible refine State.writeSpace_keeps ?_)
    | (with_reducible refine State.queueTransfer_keeps ?_)
    | (with_reducible refine State.startOn_keeps ?_)
    | (with_reducible refine State.takePages_keeps ?_)
    | (with_reducible refine State.failMet_keeps ?_)
    | split

theorem State.fill_keeps {bk bg : Bool} {s0 s : State} {x1 : ReqKey} (h : Keeps bk bg s0 s) : Keeps bk bg s0
    (State.fill s x1) := by
  unfold State.fill
  repeat' first
    | (with_reducible assumption)
    | (with_reducible refine State.ite_keeps ?_ ?_)
    | (with_reducible refine State.okReq_keeps ?_)
    | (apply State.openWrite_keeps; assumption)
    | (with_reducible refine State.refuse_keeps ?_)
    | (with_reducible refine State.writeSpace_keeps ?_)
    | (with_reducible refine State.startOn_keeps ?_)
    | split

theorem execCopy_keeps {bk bg : Bool} {s0 s : State} {x0 : ReqKey} {x1 : SourceFind} {t : State}
    (e : execCopy x0 x1 s = .next t) (h : Keeps bk bg s0 s) : Keeps bk bg s0 t := by
  cases e
  exact State.copy_keeps h

theorem execFill_keeps {bk bg : Bool} {s0 s : State} {x0 : ReqKey} {t : State} (e : execFill x0 s = .next t)
    (h : Keeps bk bg s0 s) : Keeps bk bg s0 t := by
  cases e
  exact State.fill_keeps h

theorem State.resumeRuns_keeps {bk bg : Bool} {s0 s : State} (h : Keeps bk bg s0 s) : Keeps bk bg s0
    (State.resumeRuns s) := by
  unfold State.resumeRuns
  repeat' first
    | (with_reducible assumption)
    | (with_reducible refine State.ite_keeps ?_ ?_)
    | (with_reducible refine State.goOn_keeps ?_)
    | (with_reducible refine State.holdReq_keeps ?_)
    | (with_reducible refine State.holdOrGo_keeps ?_)
    | (with_reducible refine State.foldl_keeps (fun t a h => ?_) ?_)
    | split

theorem State.stopReq_keeps {bk bg : Bool} {s0 s : State} {x1 : ReqKey} {x2 : Nat} {x3 : Option W64}
    (h : Keeps bk bg s0 s) : Keeps bk bg s0 (State.stopReq s x1 x2 x3) := by
  unfold State.stopReq
  repeat' first
    | (with_reducible assumption)
    | (with_reducible refine State.ite_keeps ?_ ?_)
    | (with_reducible refine State.withdraw_keeps ?_)
    | (with_reducible refine State.resumeRuns_keeps ?_)
    | (with_reducible refine State.landRun_keeps ?_)
    | (with_reducible refine State.recallPart_keeps ?_)
    | (with_reducible refine State.endReq_keeps ?_)
    | (with_reducible refine State.fillRest_keeps ?_)
    | split

theorem State.stopChain_keeps {bk bg : Bool} {s0 s : State} {x1 : W64} {x2 : Nat} {x3 : Option W64}
    (h : Keeps bk bg s0 s) : Keeps bk bg s0 (State.stopChain s x1 x2 x3) := by
  unfold State.stopChain
  repeat' first
    | (with_reducible assumption)
    | (with_reducible refine State.stopReq_keeps ?_)
    | (with_reducible refine State.foldl_keeps (fun t a h => ?_) ?_)
    | (simp only [State.made_eq]; with_reducible refine State.made_keeps ?_ ?_ ?_)
    | with_reducible rfl

theorem State.cancelReq_keeps {bk bg : Bool} {s0 s : State} {x1 : ReqKey} (h : Keeps bk bg s0 s) : Keeps bk bg s0
    (State.cancelReq s x1) := by
  unfold State.cancelReq
  repeat' first
    | (with_reducible assumption)
    | (with_reducible refine State.ite_keeps ?_ ?_)
    | (with_reducible refine State.refuse_keeps ?_)
    | (with_reducible refine State.okReq_keeps ?_)
    | (with_reducible refine State.stopReq_keeps ?_)
    | (with_reducible refine State.stopChain_keeps ?_)
    | split

theorem execCancel_keeps {bk bg : Bool} {s0 s : State} {x0 : ReqKey} {t : State} (e : execCancel x0 s = .next t)
    (h : Keeps bk bg s0 s) : Keeps bk bg s0 t := by
  cases e
  exact State.cancelReq_keeps h

end Sys2Proof.Machine
end

