-- ==== Sys2Proof/Laws/Keeps3.lean ====
section
/-! SUPPORT. What the operations and commands of these files of the machine keep (Laws/Keeps): Queues, Contexts, Links, Loads. -/

namespace Sys2Proof.Machine

/-! ### Queues -/

theorem State.updSlot_keeps {bk bg : Bool} {s0 s : State} {x1 : Nat} {x2 : Slot → Slot}
    (h : Keeps bk bg s0 s) : Keeps bk bg s0 (State.updSlot s x1 x2) :=
  ⟨h.pending, h.keys, h.gens, h.canonical⟩

theorem State.countSlice_keeps {bk bg : Bool} {s0 s : State} (h : Keeps bk bg s0 s) : Keeps bk bg s0 (State.countSlice s) :=
  ⟨h.pending, h.keys, h.gens, h.canonical⟩

theorem State.clearSlot_keeps {bk bg : Bool} {s0 s : State} {x1 : Nat} (h : Keeps bk bg s0 s) : Keeps bk bg s0
    (State.clearSlot s x1) := by
  unfold State.clearSlot
  repeat' first
    | (with_reducible assumption)
    | (with_reducible refine State.updSlot_keeps ?_)

theorem State.wakeSlot_keeps {bk bg : Bool} {s0 s : State} {x1 : Nat} (h : Keeps bk bg s0 s) : Keeps bk bg s0
    (State.wakeSlot s x1) := by
  unfold State.wakeSlot
  repeat' first
    | (with_reducible assumption)
    | (with_reducible refine State.updSlot_keeps ?_)

theorem State.insertFetched_keeps {bk bg : Bool} {s0 s : State} {x1 : Nat} {x2 : Queue} {x3 : Request}
    (h : Keeps bk bg s0 s) : Keeps bk bg s0 (State.insertFetched s x1 x2 x3) :=
  ⟨h.pending, h.keys, h.gens, h.canonical⟩

theorem State.mapSlot_keeps {bk bg : Bool} {s0 s : State} {x1 : Nat} {x2 : Nat} {x3 : Queue}
    (h : Keeps bk bg s0 s) : Keeps bk bg s0 (State.mapSlot s x1 x2 x3) := by
  unfold State.mapSlot
  repeat' first
    | (with_reducible assumption)
    | (with_reducible refine State.updQueue_keeps ?_)
    | (with_reducible refine State.updSlot_keeps ?_)

theorem State.remap_keeps {bk bg : Bool} {s0 s : State} {x1 : Bool} (h : Keeps bk bg s0 s) : Keeps bk bg s0
    (State.remap s x1) := by
  unfold State.remap
  repeat' first
    | (with_reducible assumption)
    | (with_reducible refine State.ite_keeps ?_ ?_)
    | (with_reducible refine State.updSlot_keeps ?_)
    | (with_reducible refine State.mapSlot_keeps ?_)
    | (with_reducible refine State.foldl_keeps (fun t a h => ?_) ?_)
    | split

theorem State.assignOne_keeps {bk bg : Bool} {s0 s : State} {x0 : Bool} (h : Keeps bk bg s0 s) : Keeps bk bg s0
    (State.assignOne x0 s) := by
  unfold State.assignOne
  repeat' first
    | (with_reducible assumption)
    | (with_reducible refine State.mapSlot_keeps ?_)
    | split

theorem State.cacheable_keeps {bk bg : Bool} {s0 s : State} {x1 : Port} (h : Keeps bk bg s0 s) : Keeps bk bg s0
    (State.cacheable s x1) := by
  unfold State.cacheable
  repeat' first
    | (with_reducible assumption)
    | (with_reducible refine State.ite_keeps ?_ ?_)
    | (with_reducible refine State.answer_keeps ?_)
    | (with_reducible refine State.wakeLink_keeps ?_)
    | (simp only [State.made_eq]; with_reducible refine State.made_keeps ?_ ?_ ?_)
    | with_reducible rfl

theorem execCacheableRequest_keeps {bk bg : Bool} {s0 s : State} {x0 : Port} {t : State}
    (e : execCacheableRequest x0 s = .next t) (h : Keeps bk bg s0 s) : Keeps bk bg s0 t := by
  cases e
  exact State.cacheable_keeps h

theorem State.assignSlots_keeps {bk bg : Bool} {s0 s : State} (h : Keeps bk bg s0 s) : Keeps bk bg s0
    (State.assignSlots s) := by
  unfold State.assignSlots
  repeat' first
    | (with_reducible assumption)
    | (with_reducible refine State.assignOne_keeps ?_)
    | (with_reducible refine State.foldl_keeps (fun t a h => ?_) ?_)

theorem State.dropSlotOf_keeps {bk bg : Bool} {s0 s : State} {x1 : Nat} (h : Keeps bk bg s0 s) : Keeps bk bg s0
    (State.dropSlotOf s x1) := by
  unfold State.dropSlotOf
  repeat' first
    | (with_reducible assumption)
    | (with_reducible refine State.assignSlots_keeps ?_)
    | (with_reducible refine State.clearSlot_keeps ?_)
    | split

theorem State.freeQueue_keeps {bk bg : Bool} {s0 s : State} {x1 : Nat} (h : Keeps bk bg s0 s) : Keeps bk bg s0
    (State.freeQueue s x1) := by
  unfold State.freeQueue
  repeat' first
    | (with_reducible assumption)
    | (with_reducible refine State.takeFree_snd_keeps ?_)
    | (with_reducible refine State.failQueueEdges_keeps ?_)
    | (with_reducible refine State.dropSlotOf_keeps ?_)
    | (simp only [State.made_eq]; with_reducible refine State.made_keeps ?_ ?_ ?_)
    | with_reducible rfl
    | split

theorem State.afterRead_keeps {bk bg : Bool} {s0 s : State} {x1 : Nat} {x2 : Nat} {x3 : Nat}
    (h : Keeps bk bg s0 s) : Keeps bk bg s0 (State.afterRead s x1 x2 x3) := by
  unfold State.afterRead
  repeat' first
    | (with_reducible assumption)
    | (with_reducible refine State.ite_keeps ?_ ?_)
    | (with_reducible refine State.assignSlots_keeps ?_)
    | (with_reducible refine State.clearSlot_keeps ?_)
    | (with_reducible refine State.updSlot_keeps ?_)
    | (with_reducible refine State.assignOne_keeps ?_)
    | (with_reducible refine State.writeLine_keeps ?_)
    | split

theorem State.lineAt64_keeps {bk bg : Bool} {s0 s : State} {x1 : Nat} {x2 : Nat}
    (h : Keeps bk bg s0 s) : Keeps bk bg s0 (State.lineAt64 s x1 x2) := by
  unfold State.lineAt64
  repeat' first
    | (with_reducible assumption)
    | (with_reducible refine State.ite_keeps ?_ ?_)
    | (with_reducible refine State.writeLine_keeps ?_)

theorem State.readDoorbell_keeps {bk bg : Bool} {s0 s : State} {x1 : Nat} (h : Keeps bk bg s0 s) : Keeps bk bg s0
    (State.readDoorbell s x1) := by
  unfold State.readDoorbell
  repeat' first
    | (with_reducible assumption)
    | (with_reducible refine State.ite_keeps ?_ ?_)
    | (with_reducible refine State.updQueue_keeps ?_)
    | (with_reducible refine State.touchHost_keeps ?_)
    | (with_reducible refine State.queueError_keeps ?_)
    | split

theorem State.rewatch_keeps {bk bg : Bool} {s0 s : State} {x1 : Nat} (h : Keeps bk bg s0 s) : Keeps bk bg s0
    (State.rewatch s x1) := by
  unfold State.rewatch
  repeat' first
    | (with_reducible assumption)
    | (with_reducible refine State.ite_keeps ?_ ?_)
    | (with_reducible refine State.readDoorbell_keeps ?_)
    | (with_reducible refine State.assignSlots_keeps ?_)
    | (with_reducible refine State.clearSlot_keeps ?_)
    | (with_reducible refine State.wakeSlot_keeps ?_)
    | split
    | dsimp only

theorem State.doorbellRead_keeps {bk bg : Bool} {s0 s : State} {x1 : Nat} (h : Keeps bk bg s0 s) : Keeps bk bg s0
    (State.doorbellRead s x1) := by
  unfold State.doorbellRead
  repeat' first
    | (with_reducible assumption)
    | (with_reducible refine State.ite_keeps ?_ ?_)
    | (with_reducible refine State.afterRead_keeps ?_)
    | (with_reducible refine State.readDoorbell_keeps ?_)
    | split
    | dsimp only

theorem State.keepWatch_keeps {bk bg : Bool} {s0 s : State} {x1 : Nat} (h : Keeps bk bg s0 s) : Keeps bk bg s0
    (State.keepWatch s x1) := by
  unfold State.keepWatch
  repeat' first
    | (with_reducible assumption)
    | (with_reducible refine State.ite_keeps ?_ ?_)
    | (with_reducible refine State.readDoorbell_keeps ?_)
    | split

theorem State.createQueue_keeps {bk bg : Bool} {s0 s : State} {x1 : Bytes} {x2 : Nat}
    (h : Keeps bk bg s0 s) : Keeps bk bg s0 (State.createQueue s x1 x2) := by
  unfold State.createQueue
  repeat' first
    | (with_reducible assumption)
    | (with_reducible refine State.readDoorbell_keeps ?_)
    | (with_reducible refine State.writeLine_keeps ?_)
    | (simp only [State.made_eq]; with_reducible refine State.made_keeps ?_ ?_ ?_)
    | with_reducible rfl

theorem execDoorbellRead_keeps {bk bg : Bool} {s0 s : State} {x0 : Nat} {t : State}
    (e : execDoorbellRead x0 s = .next t) (h : Keeps bk bg s0 s) : Keeps bk bg s0 t := by
  cases e
  exact State.doorbellRead_keeps h

theorem State.readStarved_keeps {bk bg : Bool} {s0 s : State} {x1 : Nat} (h : Keeps bk bg s0 s) : Keeps bk bg s0
    (State.readStarved s x1) := by
  unfold State.readStarved
  repeat' first
    | (with_reducible assumption)
    | (with_reducible refine State.ite_keeps ?_ ?_)
    | (with_reducible refine State.assignSlots_keeps ?_)
    | (with_reducible refine State.readDoorbell_keeps ?_)
    | split

theorem State.descriptorFetch_keeps {bk bg : Bool} {s0 s : State} {x1 : Nat} (h : Keeps bk bg s0 s) : Keeps bk bg s0
    (State.descriptorFetch s x1) := by
  unfold State.descriptorFetch
  repeat' first
    | (with_reducible assumption)
    | (with_reducible refine State.ite_keeps ?_ ?_)
    | (with_reducible refine State.assignSlots_keeps ?_)
    | (with_reducible refine State.clearSlot_keeps ?_)
    | (with_reducible refine State.queueError_keeps ?_)
    | (with_reducible refine State.takeFree_snd_keeps ?_)
    | (with_reducible refine State.touchHost_keeps ?_)
    | (with_reducible refine State.updSlot_keeps ?_)
    | (with_reducible refine State.updQueue_keeps ?_)
    | (with_reducible refine State.insertFetched_keeps ?_)
    | (with_reducible refine State.lineAt64_keeps ?_)
    | (with_reducible refine State.releasePatched_keeps ?_)
    | (with_reducible refine State.reserveOverlay_keeps ?_)
    | split

theorem execDescriptorFetch_keeps {bk bg : Bool} {s0 s : State} {x0 : Nat} {t : State}
    (e : execDescriptorFetch x0 s = .next t) (h : Keeps bk bg s0 s) : Keeps bk bg s0 t := by
  cases e
  exact State.descriptorFetch_keeps h

theorem State.kqcmdGo_keeps {bk bg : Bool} {s0 s : State} (h : Keeps bk bg s0 s) : Keeps bk bg s0 (State.kqcmdGo s) := by
  unfold State.kqcmdGo
  repeat' first
    | (with_reducible assumption)
    | (with_reducible refine State.createQueue_keeps ?_)
    | (simp only [State.made_eq]; with_reducible refine State.made_keeps ?_ ?_ ?_)
    | with_reducible rfl
    | split
    | dsimp only

theorem State.sliceEnd_keeps {bk bg : Bool} {s0 s : State} (h : Keeps bk bg s0 s) : Keeps bk bg s0 (State.sliceEnd s) := by
  unfold State.sliceEnd
  repeat' first
    | (with_reducible assumption)
    | (with_reducible refine State.remap_keeps ?_)
    | (with_reducible refine State.countSlice_keeps ?_)
    | (with_reducible refine State.readStarved_keeps ?_)
    | (with_reducible refine State.foldl_keeps (fun t a h => ?_) ?_)

theorem State.fireWatch_keeps {bk bg : Bool} {s0 s : State} {x1 : Nat} (h : Keeps bk bg s0 s) : Keeps bk bg s0
    (State.fireWatch s x1) := by
  unfold State.fireWatch
  repeat' first
    | (with_reducible assumption)
    | (with_reducible refine State.ite_keeps ?_ ?_)
    | (with_reducible refine State.readDoorbell_keeps ?_)
    | (with_reducible refine State.updQueue_keeps ?_)
    | (with_reducible refine State.wakeSlot_keeps ?_)
    | (with_reducible refine State.updSlot_keeps ?_)
    | (with_reducible refine State.readStarved_keeps ?_)
    | (with_reducible refine State.assignSlots_keeps ?_)
    | split

theorem State.snooped_keeps {bk bg : Bool} {s0 s : State} {x1 : Sys2Proof.Port} {x2 : Nat}
    {x3 : Sys2Proof.Machine.Bytes} (h : Keeps bk bg s0 s) : Keeps bk bg s0 (State.snooped s x1 x2 x3) := by
  unfold State.snooped
  dsimp only
  split
  · exact State.answer_keeps (State.foldl_keeps (fun t a h => State.fireWatch_keeps h) (State.wakeLink_keeps (State.host_keeps _ _ h)))
  · exact State.host_keeps _ _ h

theorem execSnoop_keeps {bk bg : Bool} {s0 s : State} {x0 : Port} {x1 : Nat} {x2 : List Byte} {t : State}
    (e : execSnoop x0 x1 x2 s = .next t) (h : Keeps bk bg s0 s) : Keeps bk bg s0 t := by
  cases e
  exact State.snooped_keeps h

theorem execSliceEnd_keeps {bk bg : Bool} {s0 s : State} {t : State} (e : execSliceEnd s = .next t)
    (h : Keeps bk bg s0 s) : Keeps bk bg s0 t := by
  cases e
  exact State.sliceEnd_keeps h

/-! ### Contexts -/

theorem State.zeroLpddr_keeps {bk bg : Bool} {s0 s : State} {x1 : List (Nat × Nat)}
    (h : Keeps bk bg s0 s) : Keeps bk bg s0 (State.zeroLpddr s x1) :=
  ⟨h.pending, h.keys, h.gens, h.canonical⟩

theorem State.clearStream_keeps {bk bg : Bool} {s0 s : State} {x1 : Nat} (h : Keeps bk bg s0 s) : Keeps bk bg s0
    (State.clearStream s x1) := by
  unfold State.clearStream
  repeat' first
    | (with_reducible assumption)
    | (with_reducible refine State.releaseStream_keeps ?_)
    | (simp only [State.made_eq]; with_reducible refine State.made_keeps ?_ ?_ ?_)
    | with_reducible rfl

theorem State.floodAbort_keeps {bk bg : Bool} {s0 s : State} {x1 : Nat} {x2 : Nat} {x3 : Option Nat}
    (h : Keeps bk bg s0 s) : Keeps bk bg s0 (State.floodAbort s x1 x2 x3) :=
  ⟨h.pending, h.keys, h.gens, h.canonical⟩

theorem State.reviveContext_keeps {bk bg : Bool} {s0 s : State} {x1 : Nat} {x2 : Bool}
    (h : Keeps bk bg s0 s) : Keeps bk bg s0 (State.reviveContext s x1 x2) := by
  unfold State.reviveContext
  repeat' first
    | (with_reducible assumption)
    | (with_reducible refine State.updCtx_keeps ?_)
    | (simp only [State.made_eq]; with_reducible refine State.made_keeps ?_ ?_ ?_)
    | with_reducible rfl

theorem State.ctxGrant_keeps {bk bg : Bool} {s0 s : State} {x1 : ReqKey} (h : Keeps bk bg s0 s) : Keeps bk bg s0
    (State.ctxGrant s x1) := by
  unfold State.ctxGrant
  repeat' first
    | (with_reducible assumption)
    | (with_reducible refine State.ite_keeps ?_ ?_)
    | (with_reducible refine State.refuse_keeps ?_)
    | (with_reducible refine State.okReq_keeps ?_)
    | (with_reducible refine State.updCtx_keeps ?_)
    | split

theorem State.parkRequest_keeps {bk bg : Bool} {s0 s : State} {x1 : Nat} {x2 : ReqKey}
    (h : Keeps bk bg s0 s) : Keeps bk bg s0 (State.parkRequest s x1 x2) := by
  unfold State.parkRequest
  repeat' first
    | (with_reducible assumption)
    | (with_reducible refine State.invalidateKept_keeps ?_)
    | (with_reducible refine State.updJob_keeps ?_)
    | (with_reducible refine State.holdReq_keeps ?_)
    | (with_reducible refine State.dropRun_keeps ?_)
    | (with_reducible refine State.withdraw_keeps ?_)
    | split

theorem execCtxGrant_keeps {bk bg : Bool} {s0 s : State} {x0 : ReqKey} {t : State} (e : execCtxGrant x0 s = .next t)
    (h : Keeps bk bg s0 s) : Keeps bk bg s0 t := by
  cases e
  exact State.ctxGrant_keeps h

theorem State.ctxCreate_keeps {bk bg : Bool} {s0 s : State} {x1 : ReqKey} (h : Keeps bk bg s0 s) : Keeps bk bg s0
    (State.ctxCreate s x1) := by
  unfold State.ctxCreate
  repeat' first
    | (with_reducible assumption)
    | (with_reducible refine State.refuse_keeps ?_)
    | (with_reducible refine State.updCtx_keeps ?_)
    | (with_reducible refine State.okReq_keeps ?_)
    | split

theorem State.jobDone_keeps {bk bg : Bool} {s0 s : State} {x1 : Nat} (h : Keeps bk bg s0 s) : Keeps bk bg s0
    (State.jobDone s x1) := by
  unfold State.jobDone
  repeat' first
    | (with_reducible assumption)
    | (with_reducible refine State.ite_keeps ?_ ?_)
    | (with_reducible refine State.endJob_keeps ?_)
    | (with_reducible refine State.refuse_keeps ?_)
    | (with_reducible refine State.foldl_keeps (fun t a h => ?_) ?_)
    | split

theorem execCtxCreate_keeps {bk bg : Bool} {s0 s : State} {x0 : ReqKey} {t : State}
    (e : execCtxCreate x0 s = .next t) (h : Keeps bk bg s0 s) : Keeps bk bg s0 t := by
  cases e
  exact State.ctxCreate_keeps h

theorem State.releaseContext_keeps {bk bg : Bool} {s0 s : State} {x1 : Nat} (h : Keeps bk bg s0 s) : Keeps bk bg s0
    (State.releaseContext s x1) := by
  unfold State.releaseContext
  repeat' first
    | (with_reducible assumption)
    | (with_reducible refine State.clearStream_keeps ?_)
    | (with_reducible refine State.releaseData_keeps ?_)
    | (with_reducible refine State.updCtx_keeps ?_)
    | (with_reducible refine State.releaseUnits_keeps ?_)
    | (with_reducible refine State.zeroLpddr_keeps ?_)
    | (with_reducible refine State.foldl_keeps (fun t a h => ?_) ?_)
    | (simp only [State.made_eq]; with_reducible refine State.made_keeps ?_ ?_ ?_)
    | with_reducible rfl

theorem State.closeQueue_keeps {bk bg : Bool} {s0 s : State} {x1 : Nat} (h : Keeps bk bg s0 s) : Keeps bk bg s0
    (State.closeQueue s x1) := by
  unfold State.closeQueue
  repeat' first
    | (with_reducible assumption)
    | (with_reducible refine State.writeLine_keeps ?_)
    | (with_reducible refine State.updQueue_keeps ?_)
    | (with_reducible refine State.freeQueue_keeps ?_)
    | (with_reducible refine State.okReq_keeps ?_)
    | (with_reducible refine State.foldl_keeps (fun t a h => ?_) ?_)
    | split

theorem State.answerAbort_keeps {bk bg : Bool} {s0 s : State} {x1 : Nat} (h : Keeps bk bg s0 s) : Keeps bk bg s0
    (State.answerAbort s x1) := by
  unfold State.answerAbort
  repeat' first
    | (with_reducible assumption)
    | (with_reducible refine State.ite_keeps ?_ ?_)
    | (with_reducible refine State.updJob_keeps ?_)
    | (with_reducible refine State.jobDone_keeps ?_)
    | (with_reducible refine State.sendPeer_keeps ?_)
    | (with_reducible refine State.endJob_keeps ?_)
    | split

theorem State.contextResetEnd_keeps {bk bg : Bool} {s0 s : State} {x1 : Nat} (h : Keeps bk bg s0 s) : Keeps bk bg s0
    (State.contextResetEnd s x1) := by
  unfold State.contextResetEnd
  repeat' first
    | (with_reducible assumption)
    | (with_reducible refine State.ite_keeps ?_ ?_)
    | (with_reducible refine State.releaseContext_keeps ?_)
    | (with_reducible refine State.reviveContext_keeps ?_)
    | (with_reducible refine State.closeQueue_keeps ?_)
    | (with_reducible refine State.okReq_keeps ?_)
    | (with_reducible refine State.pruneProgress_keeps ?_)
    | (with_reducible refine State.answerAbort_keeps ?_)
    | (with_reducible refine State.foldl_keeps (fun t a h => ?_) ?_)
    | split

theorem execContextResetEnd_keeps {bk bg : Bool} {s0 s : State} {x0 : Nat} {t : State}
    (e : execContextResetEnd x0 s = .next t) (h : Keeps bk bg s0 s) : Keeps bk bg s0 t := by
  cases e
  exact State.contextResetEnd_keeps h

theorem State.carryReset_keeps {bk bg : Bool} {s0 s : State} {x1 : Nat} (h : Keeps bk bg s0 s) : Keeps bk bg s0
    (State.carryReset s x1) := by
  unfold State.carryReset
  repeat' first
    | (with_reducible assumption)
    | (with_reducible refine State.ite_keeps ?_ ?_)
    | (with_reducible refine State.updCtx_keeps ?_)
    | (with_reducible refine State.stopReq_keeps ?_)
    | (with_reducible refine State.dropRun_keeps ?_)
    | (with_reducible refine State.startDrain_keeps ?_)
    | (with_reducible refine State.foldl_keeps (fun t a h => ?_) ?_)
    | (simp only [State.made_eq]; with_reducible refine State.made_keeps ?_ ?_ ?_)
    | with_reducible rfl
    | split

theorem State.beginReset_keeps {bk bg : Bool} {s0 s : State} {x1 : Nat} {x2 : Option ReqKey} {x3 : Bool}
    (h : Keeps bk bg s0 s) : Keeps bk bg s0 (State.beginReset s x1 x2 x3) := by
  unfold State.beginReset
  repeat' first
    | (with_reducible assumption)
    | (with_reducible refine State.ite_keeps ?_ ?_)
    | (with_reducible refine State.updCtx_keeps ?_)
    | (with_reducible refine State.carryReset_keeps ?_)
    | split

theorem State.abortJob_keeps {bk bg : Bool} {s0 s : State} {x1 : Nat} {x2 : Nat} {x3 : Option Nat}
    (h : Keeps bk bg s0 s) : Keeps bk bg s0 (State.abortJob s x1 x2 x3) := by
  unfold State.abortJob
  repeat' first
    | (with_reducible assumption)
    | (with_reducible refine State.ite_keeps ?_ ?_)
    | (with_reducible refine State.updJob_keeps ?_)
    | (with_reducible refine State.floodAbort_keeps ?_)
    | (with_reducible refine State.parkRequest_keeps ?_)
    | (with_reducible refine State.updModel_keeps ?_)
    | (with_reducible refine State.jobDone_keeps ?_)
    | (with_reducible refine State.endJob_keeps ?_)
    | (with_reducible refine State.beginReset_keeps ?_)
    | (with_reducible refine State.foldl_keeps (fun t a h => ?_) ?_)
    | (simp only [State.made_eq]; with_reducible refine State.made_keeps ?_ ?_ ?_)
    | with_reducible rfl
    | split

theorem State.carryResets_keeps {bk bg : Bool} {s0 s : State} (h : Keeps bk bg s0 s) : Keeps bk bg s0
    (State.carryResets s) := by
  unfold State.carryResets
  repeat' first
    | (with_reducible assumption)
    | (with_reducible refine State.ite_keeps ?_ ?_)
    | (with_reducible refine State.abortJob_keeps ?_)
    | (with_reducible refine State.carryReset_keeps ?_)
    | (with_reducible refine State.foldl_keeps (fun t a h => ?_) ?_)

theorem State.resetContext_keeps {bk bg : Bool} {s0 s : State} {x1 : Nat} {x2 : Option ReqKey} {x3 : Bool}
    (h : Keeps bk bg s0 s) : Keeps bk bg s0 (State.resetContext s x1 x2 x3) := by
  unfold State.resetContext
  repeat' first
    | (with_reducible assumption)
    | (with_reducible refine State.ite_keeps ?_ ?_)
    | (with_reducible refine State.beginReset_keeps ?_)
    | (with_reducible refine State.abortJob_keeps ?_)
    | (with_reducible refine State.foldl_keeps (fun t a h => ?_) ?_)

theorem State.resetFor_keeps {bk bg : Bool} {s0 s : State} {x1 : ReqKey} {x2 : Request} {x3 : Bool}
    (h : Keeps bk bg s0 s) : Keeps bk bg s0 (State.resetFor s x1 x2 x3) := by
  unfold State.resetFor
  repeat' first
    | (with_reducible assumption)
    | (with_reducible refine State.ite_keeps ?_ ?_)
    | (with_reducible refine State.resetContext_keeps ?_)
    | (with_reducible refine State.holdReq_keeps ?_)
    | (with_reducible refine State.refuse_keeps ?_)

theorem State.moduleReset_keeps {bk bg : Bool} {s0 s : State} {x1 : Nat} {x2 : Nat} {x3 : Nat} {x4 : Nat} {x5 : Nat}
    (h : Keeps bk bg s0 s) : Keeps bk bg s0 (State.moduleReset s x1 x2 x3 x4 x5) := by
  unfold State.moduleReset
  repeat' first
    | (with_reducible assumption)
    | (with_reducible refine State.ite_keeps ?_ ?_)
    | (with_reducible refine State.noteContext_keeps ?_)
    | (with_reducible refine State.resetContext_keeps ?_)
    | (simp only [State.made_eq]; with_reducible refine State.made_keeps ?_ ?_ ?_)
    | with_reducible rfl

theorem State.ctxReset_keeps {bk bg : Bool} {s0 s : State} {x1 : ReqKey} (h : Keeps bk bg s0 s) : Keeps bk bg s0
    (State.ctxReset s x1) := by
  unfold State.ctxReset
  repeat' first
    | (with_reducible assumption)
    | (with_reducible refine State.resetFor_keeps ?_)
    | split

theorem execCtxReset_keeps {bk bg : Bool} {s0 s : State} {x0 : ReqKey} {t : State} (e : execCtxReset x0 s = .next t)
    (h : Keeps bk bg s0 s) : Keeps bk bg s0 t := by
  cases e
  exact State.ctxReset_keeps h

theorem State.ctxDestroy_keeps {bk bg : Bool} {s0 s : State} {x1 : ReqKey} (h : Keeps bk bg s0 s) : Keeps bk bg s0
    (State.ctxDestroy s x1) := by
  unfold State.ctxDestroy
  repeat' first
    | (with_reducible assumption)
    | (with_reducible refine State.resetFor_keeps ?_)
    | split

theorem execCtxDestroy_keeps {bk bg : Bool} {s0 s : State} {x0 : ReqKey} {t : State}
    (e : execCtxDestroy x0 s = .next t) (h : Keeps bk bg s0 s) : Keeps bk bg s0 t := by
  cases e
  exact State.ctxDestroy_keeps h

/-! ### Links -/

theorem State.haspError_keeps {bk bg : Bool} {s0 s : State} (h : Keeps bk bg s0 s) : Keeps bk bg s0 (State.haspError s) :=
  ⟨h.pending, h.keys, h.gens, h.canonical⟩

theorem State.updPeer_keeps {bk bg : Bool} {s0 s : State} {x1 : Nat} {x2 : PeerLink → PeerLink}
    (h : Keeps bk bg s0 s) : Keeps bk bg s0 (State.updPeer s x1 x2) :=
  ⟨h.pending, h.keys, h.gens, h.canonical⟩

theorem State.lapseChallenge_keeps {bk bg : Bool} {s0 s : State} (h : Keeps bk bg s0 s) : Keeps bk bg s0
    (State.lapseChallenge s) := by
  unfold State.lapseChallenge
  repeat' first
    | (with_reducible assumption)
    | (with_reducible refine State.ite_keeps ?_ ?_)
    | (simp only [State.made_eq]; with_reducible refine State.made_keeps ?_ ?_ ?_)
    | with_reducible rfl

theorem State.peerSession_keeps {bk bg : Bool} {s0 s : State} {x1 : Nat} {x2 : Nat} {x3 : BitVec 128}
    {x : Option Sys2Proof.Machine.LinkSec} {t : State} (e : State.peerSession s x1 x2 x3 = some (x, t))
    (h : Keeps bk bg s0 s) : Keeps bk bg s0 t := by
  unfold State.peerSession at e
  split at e
  · obtain ⟨a, ha, he⟩ := Option.map_eq_some_iff.1 e
    cases he
    exact State.drawFw_keeps (x := a.1) ha h
  · cases e
    exact h

theorem State.hostSession_keeps {bk bg : Bool} {s0 s : State} {x1 : Sys2Proof.Port} {x2 : BitVec 128}
    {x : Option Sys2Proof.Machine.LinkSec} {t : State} (e : State.hostSession s x1 x2 = some (x, t))
    (h : Keeps bk bg s0 s) : Keeps bk bg s0 t := by
  unfold State.hostSession at e
  split at e
  · obtain ⟨a, ha, he⟩ := Option.map_eq_some_iff.1 e
    cases he
    exact State.drawFw_keeps (x := a.1) ha h
  · cases e
    exact h

theorem State.freeHasps_keeps {bk bg : Bool} {s0 s : State} {x1 : Port} (h : Keeps bk bg s0 s) : Keeps bk bg s0
    (State.freeHasps s x1) := by
  unfold State.freeHasps
  repeat' first
    | (with_reducible assumption)
    | (simp only [State.made_eq]; with_reducible refine State.made_keeps ?_ ?_ ?_)
    | with_reducible rfl
    | split

theorem State.flitReplay_keeps {bk bg : Bool} {s0 s : State} {x1 : LinkName} {x2 : BitVec 10} {x3 : BitVec 10}
    (h : Keeps bk bg s0 s) : Keeps bk bg s0 (State.flitReplay s x1 x2 x3) := by
  unfold State.flitReplay
  repeat' first
    | (with_reducible assumption)
    | (with_reducible refine State.ite_keeps ?_ ?_)
    | (with_reducible refine State.setPort_keeps ?_)
    | (with_reducible refine State.updPeer_keeps ?_)
    | split

theorem State.rekey_keeps {bk bg : Bool} {s0 s : State} {x1 : LinkName} {x2 : BitVec 128}
    (h : Keeps bk bg s0 s) : Keeps bk bg s0 (State.rekey s x1 x2) := by
  unfold State.rekey
  repeat' first
    | (with_reducible assumption)
    | (with_reducible refine State.ite_keeps ?_ ?_)
    | (apply State.drawFw_keeps; assumption)
    | (with_reducible refine State.setPort_keeps ?_)
    | (with_reducible refine State.updPeer_keeps ?_)
    | split

theorem execFlitReplayRequest_keeps {bk bg : Bool} {s0 s : State} {x0 : LinkName} {x1 : BitVec 10} {x2 : BitVec 10}
    {t : State} (e : execFlitReplayRequest x0 x1 x2 s = .next t) (h : Keeps bk bg s0 s) : Keeps bk bg s0 t := by
  cases e
  exact State.flitReplay_keeps h

theorem execLinkRekey_keeps {bk bg : Bool} {s0 s : State} {x0 : LinkName} {x1 : BitVec 128} {t : State}
    (e : execLinkRekey x0 x1 s = .next t) (h : Keeps bk bg s0 s) : Keeps bk bg s0 t := by
  cases e
  exact State.rekey_keeps h

theorem State.haspRead_keeps {bk bg : Bool} {s0 s : State} {x1 : Port} {x2 : Nat}
    (h : Keeps bk bg s0 s) : Keeps bk bg s0 (State.haspRead s x1 x2) := by
  unfold State.haspRead
  repeat' first
    | (with_reducible assumption)
    | (with_reducible refine State.ite_keeps ?_ ?_)
    | (with_reducible refine State.onRead_keeps (fun t h => ?_) ?_)
    | (with_reducible refine State.answer_keeps ?_)
    | (simp only [State.made_eq]; with_reducible refine State.made_keeps ?_ ?_ ?_)
    | with_reducible rfl
    | split

theorem execHpHaspRead_keeps {bk bg : Bool} {s0 s : State} {x0 : Port} {x1 : Nat} {t : State}
    (e : execHpHaspRead x0 x1 s = .next t) (h : Keeps bk bg s0 s) : Keeps bk bg s0 t := by
  cases e
  exact State.haspRead_keeps h

theorem State.eventBoth_keeps {bk bg : Bool} {s0 s : State} (h : Keeps bk bg s0 s) : Keeps bk bg s0 (State.eventBoth s) := by
  unfold State.eventBoth
  repeat' first
    | (with_reducible assumption)
    | (with_reducible refine State.ite_keeps ?_ ?_)
    | (with_reducible refine State.sendSignal_keeps ?_)

theorem State.haspWrite_keeps {bk bg : Bool} {s0 s : State} {x1 : Port} {x2 : Nat} {x3 : W64}
    (h : Keeps bk bg s0 s) : Keeps bk bg s0 (State.haspWrite s x1 x2 x3) := by
  unfold State.haspWrite
  repeat' first
    | (with_reducible assumption)
    | (with_reducible refine State.ite_keeps ?_ ?_)
    | (with_reducible refine State.onWrite_keeps (fun t h => ?_) ?_)
    | (with_reducible refine State.haspError_keeps ?_)
    | (simp only [State.made_eq]; with_reducible refine State.made_keeps ?_ ?_ ?_)
    | with_reducible rfl

theorem State.haspBreak_keeps {bk bg : Bool} {s0 s : State} {x1 : Port} {x2 : W64}
    (h : Keeps bk bg s0 s) : Keeps bk bg s0 (State.haspBreak s x1 x2) := by
  unfold State.haspBreak
  repeat' first
    | (with_reducible assumption)
    | (with_reducible refine State.ite_keeps ?_ ?_)
    | (with_reducible refine State.onWrite_keeps (fun t h => ?_) ?_)
    | (with_reducible refine State.haspError_keeps ?_)
    | (with_reducible refine State.eventBoth_keeps ?_)
    | (simp only [State.made_eq]; with_reducible refine State.made_keeps ?_ ?_ ?_)
    | with_reducible rfl
    | split

theorem execHpHaspWrite_keeps {bk bg : Bool} {s0 s : State} {x0 : Port} {x1 : Nat} {x2 : W64} {t : State}
    (e : execHpHaspWrite x0 x1 x2 s = .next t) (h : Keeps bk bg s0 s) : Keeps bk bg s0 t := by
  cases e
  exact State.haspWrite_keeps h

theorem State.resend_keeps {bk bg : Bool} {s0 s : State} {x1 : Port} {x2 : List Nat}
    (h : Keeps bk bg s0 s) : Keeps bk bg s0 (State.resend s x1 x2) := by
  unfold State.resend
  repeat' first
    | (with_reducible assumption)
    | (with_reducible refine State.sendSignal_keeps ?_)
    | (with_reducible refine State.foldl_keeps (fun t a h => ?_) ?_)

theorem execHaspBreak_keeps {bk bg : Bool} {s0 s : State} {x0 : Port} {x1 : W64} {t : State}
    (e : execHaspBreak x0 x1 s = .next t) (h : Keeps bk bg s0 s) : Keeps bk bg s0 t := by
  cases e
  exact State.haspBreak_keeps h

theorem State.hostDown_keeps {bk bg : Bool} {s0 s : State} {x1 : Port} {x2 : HostPort} {x3 : Nat}
    (h : Keeps bk bg s0 s) : Keeps bk bg s0 (State.hostDown s x1 x2 x3) := by
  unfold State.hostDown
  repeat' first
    | (with_reducible assumption)
    | (with_reducible refine State.ite_keeps ?_ ?_)
    | (with_reducible refine State.freeHasps_keeps ?_)
    | (with_reducible refine State.setPort_keeps ?_)
    | (with_reducible refine State.lapseChallenge_keeps ?_)
    | (with_reducible refine State.eventSignal_keeps ?_)
    | (with_reducible refine State.rewatch_keeps ?_)
    | (with_reducible refine State.resend_keeps ?_)
    | (with_reducible refine State.foldl_keeps (fun t a h => ?_) ?_)

theorem State.hostUpWith_keeps {bk bg : Bool} {s0 s : State} {x1 : Port} {x2 : Nat} {x3 : Nat} {x4 : Nat}
    {x5 : Option LinkSec} (h : Keeps bk bg s0 s) : Keeps bk bg s0 (State.hostUpWith s x1 x2 x3 x4 x5) := by
  unfold State.hostUpWith
  repeat' first
    | (with_reducible assumption)
    | (with_reducible refine State.setPort_keeps ?_)
    | (with_reducible refine State.keepWatch_keeps ?_)
    | (with_reducible refine State.foldl_keeps (fun t a h => ?_) ?_)

theorem State.hostTrainFailed_keeps {bk bg : Bool} {s0 s : State} {x1 : Port} (h : Keeps bk bg s0 s) : Keeps bk bg s0
    (State.hostTrainFailed s x1) := by
  unfold State.hostTrainFailed
  repeat' first
    | (with_reducible assumption)
    | (with_reducible refine State.hostDown_keeps ?_)

theorem State.hostLost_keeps {bk bg : Bool} {s0 s : State} {x1 : Port} {x2 : Nat}
    (h : Keeps bk bg s0 s) : Keeps bk bg s0 (State.hostLost s x1 x2) := by
  unfold State.hostLost
  repeat' first
    | (with_reducible assumption)
    | (with_reducible refine State.hostDown_keeps ?_)

theorem State.hostTraining_keeps {bk bg : Bool} {s0 s : State} {x1 : Port} {x2 : Training}
    (h : Keeps bk bg s0 s) : Keeps bk bg s0 (State.hostTraining s x1 x2) := by
  unfold State.hostTraining
  repeat' first
    | (with_reducible assumption)
    | (with_reducible refine State.ite_keeps ?_ ?_)
    | (with_reducible refine State.setPort_keeps ?_)
    | (with_reducible refine State.hostTrainFailed_keeps ?_)
    | (apply State.hostSession_keeps; assumption)
    | (with_reducible refine State.hostUpWith_keeps ?_)
    | split

theorem State.hostLinkDown_keeps {bk bg : Bool} {s0 s : State} {x1 : Port} {x2 : Bool} {x3 : Nat}
    (h : Keeps bk bg s0 s) : Keeps bk bg s0 (State.hostLinkDown s x1 x2 x3) := by
  unfold State.hostLinkDown
  repeat' first
    | (with_reducible assumption)
    | (with_reducible refine State.ite_keeps ?_ ?_)
    | (with_reducible refine State.hostLost_keeps ?_)
    | (with_reducible refine State.setPort_keeps ?_)

theorem execHostLinkTraining_keeps {bk bg : Bool} {s0 s : State} {x0 : Port} {x1 : Training} {t : State}
    (e : execHostLinkTraining x0 x1 s = .next t) (h : Keeps bk bg s0 s) : Keeps bk bg s0 t := by
  cases e
  exact State.hostTraining_keeps h

theorem execHostLinkDown_keeps {bk bg : Bool} {s0 s : State} {x0 : Port} {x1 : Bool} {x2 : Nat} {t : State}
    (e : execHostLinkDown x0 x1 x2 s = .next t) (h : Keeps bk bg s0 s) : Keeps bk bg s0 t := by
  cases e
  exact State.hostLinkDown_keeps h

theorem State.peerLost_keeps {bk bg : Bool} {s0 s : State} {x1 : Nat} (h : Keeps bk bg s0 s) : Keeps bk bg s0
    (State.peerLost s x1) := by
  unfold State.peerLost
  repeat' first
    | (with_reducible assumption)
    | (with_reducible refine State.updPeer_keeps ?_)
    | (with_reducible refine State.abortJob_keeps ?_)
    | (with_reducible refine State.jobDone_keeps ?_)
    | (with_reducible refine State.foldl_keeps (fun t a h => ?_) ?_)
    | (simp only [State.made_eq]; with_reducible refine State.made_keeps ?_ ?_ ?_)
    | with_reducible rfl

theorem State.peerLinkDown_keeps {bk bg : Bool} {s0 s : State} {x1 : Nat} {x2 : Bool}
    (h : Keeps bk bg s0 s) : Keeps bk bg s0 (State.peerLinkDown s x1 x2) := by
  unfold State.peerLinkDown
  repeat' first
    | (with_reducible assumption)
    | (with_reducible refine State.ite_keeps ?_ ?_)
    | (with_reducible refine State.peerLost_keeps ?_)

theorem State.retrain_keeps {bk bg : Bool} {s0 s : State} {x1 : LinkName} {x2 : Training} {x3 : Nat}
    (h : Keeps bk bg s0 s) : Keeps bk bg s0 (State.retrain s x1 x2 x3) := by
  unfold State.retrain
  repeat' first
    | (with_reducible assumption)
    | (with_reducible refine State.ite_keeps ?_ ?_)
    | (with_reducible refine State.setPort_keeps ?_)
    | (with_reducible refine State.hostLost_keeps ?_)
    | (apply State.hostSession_keeps; assumption)
    | (with_reducible refine State.peerLost_keeps ?_)
    | (apply State.peerSession_keeps; assumption)
    | (with_reducible refine State.updPeer_keeps ?_)
    | split
    | dsimp only

theorem execPeerLinkDown_keeps {bk bg : Bool} {s0 s : State} {x0 : Nat} {x1 : Bool} {t : State}
    (e : execPeerLinkDown x0 x1 s = .next t) (h : Keeps bk bg s0 s) : Keeps bk bg s0 t := by
  cases e
  exact State.peerLinkDown_keeps h

theorem execLinkRetrain_keeps {bk bg : Bool} {s0 s : State} {x0 : LinkName} {x1 : Training} {x2 : Nat} {t : State}
    (e : execLinkRetrain x0 x1 x2 s = .next t) (h : Keeps bk bg s0 s) : Keeps bk bg s0 t := by
  cases e
  exact State.retrain_keeps h

/-! ### Loads -/

theorem State.putJob_keeps {bk bg : Bool} {s0 s : State} {x1 : Nat} {x2 : Job}
    (h : Keeps bk bg s0 s) : Keeps bk bg s0 (State.putJob s x1 x2) :=
  ⟨h.pending, h.keys, h.gens, h.canonical⟩

theorem State.sendUnload_keeps {bk bg : Bool} {s0 s : State} {x1 : Model} (h : Keeps bk bg s0 s) : Keeps bk bg s0
    (State.sendUnload s x1) := by
  unfold State.sendUnload
  repeat' first
    | (with_reducible assumption)
    | (with_reducible refine State.ite_keeps ?_ ?_)
    | (with_reducible refine State.updJob_keeps ?_)
    | (with_reducible refine State.sendPeer_keeps ?_)
    | (with_reducible refine State.foldl_keeps (fun t a h => ?_) ?_)
    | split

theorem State.receiveTransfer_keeps {bk bg : Bool} {s0 s : State} {x1 : Nat} {x2 : Dir} {x3 : Transfer}
    {x4 : List W64} (h : Keeps bk bg s0 s) : Keeps bk bg s0 (State.receiveTransfer s x1 x2 x3 x4) :=
  ⟨h.pending, h.keys, h.gens, h.canonical⟩

theorem State.serviceTransfer_keeps {bk bg : Bool} {s0 s : State} {x1 : Nat} {x2 : Dir} {x3 : List (W64 × Byte)}
    (h : Keeps bk bg s0 s) : Keeps bk bg s0 (State.serviceTransfer s x1 x2 x3) := by
  unfold State.serviceTransfer
  repeat' first
    | (with_reducible assumption)
    | (with_reducible refine State.ite_keeps ?_ ?_)
    | (with_reducible refine State.receiveTransfer_keeps ?_)
    | (with_reducible refine State.updLane_keeps ?_)
    | (with_reducible refine State.countStale_keeps ?_)
    | split

theorem State.disableLane_keeps {bk bg : Bool} {s0 s : State} {x1 : Nat} {x2 : Nat} {x3 : Bool} {x4 : Bool}
    (h : Keeps bk bg s0 s) : Keeps bk bg s0 (State.disableLane s x1 x2 x3 x4) := by
  unfold State.disableLane
  repeat' first
    | (with_reducible assumption)
    | (with_reducible refine State.updLane_keeps ?_)
    | (simp only [State.made_eq]; with_reducible refine State.made_keeps ?_ ?_ ?_)
    | with_reducible rfl

theorem State.sendPart_keeps {bk bg : Bool} {s0 s : State} {x1 : ReqKey} {x2 : Request} {x3 : Bytes}
    (h : Keeps bk bg s0 s) : Keeps bk bg s0 (State.sendPart s x1 x2 x3) := by
  unfold State.sendPart
  repeat' first
    | (with_reducible assumption)
    | (with_reducible refine State.refuse_keeps ?_)
    | (with_reducible refine State.putJob_keeps ?_)
    | (with_reducible refine State.sendPeer_keeps ?_)
    | (with_reducible refine State.updReq_keeps ?_)
    | (with_reducible refine State.holdReq_keeps ?_)
    | split
    | dsimp only

theorem State.failUser_keeps {bk bg : Bool} {s0 s : State} {x0 : W64} {x1 : Nat} {x3 : ReqKey}
    (h : Keeps bk bg s0 s) : Keeps bk bg s0 (State.failUser x0 x1 s x3) := by
  unfold State.failUser
  repeat' first
    | (with_reducible assumption)
    | (with_reducible refine State.stopParts_keeps ?_)
    | (with_reducible refine State.endReq_keeps ?_)
    | split

theorem execServiceTransfer_keeps {bk bg : Bool} {s0 s : State} {x0 : Nat} {x1 : Dir} {x2 : List (W64 × Byte)}
    {t : State} (e : execServiceTransfer x0 x1 x2 s = .next t) (h : Keeps bk bg s0 s) : Keeps bk bg s0 t := by
  cases e
  exact State.serviceTransfer_keeps h

theorem State.finishUnload_keeps {bk bg : Bool} {s0 s : State} {x1 : Nat} (h : Keeps bk bg s0 s) : Keeps bk bg s0
    (State.finishUnload s x1) := by
  unfold State.finishUnload
  repeat' first
    | (with_reducible assumption)
    | (with_reducible refine State.ite_keeps ?_ ?_)
    | (with_reducible refine State.releaseData_keeps ?_)
    | (with_reducible refine State.pruneProgress_keeps ?_)
    | (with_reducible refine State.okReq_keeps ?_)
    | (with_reducible refine State.endJob_keeps ?_)
    | (with_reducible refine State.sendPeer_keeps ?_)
    | (with_reducible refine State.foldl_keeps (fun t a h => ?_) ?_)
    | (simp only [State.made_eq]; with_reducible refine State.made_keeps ?_ ?_ ?_)
    | with_reducible rfl
    | split

theorem State.dropModel_keeps {bk bg : Bool} {s0 s : State} {x1 : Nat} {x2 : W64} {x3 : Nat}
    (h : Keeps bk bg s0 s) : Keeps bk bg s0 (State.dropModel s x1 x2 x3) := by
  unfold State.dropModel
  repeat' first
    | (with_reducible assumption)
    | (with_reducible refine State.failUser_keeps ?_)
    | (with_reducible refine State.failPart_keeps ?_)
    | (with_reducible refine State.finishUnload_keeps ?_)
    | (with_reducible refine State.pruneProgress_keeps ?_)
    | (with_reducible refine State.updModel_keeps ?_)
    | (with_reducible refine State.releaseData_keeps ?_)
    | (with_reducible refine State.startDrain_keeps ?_)
    | (with_reducible refine State.foldl_keeps (fun t a h => ?_) ?_)
    | split

theorem State.loadPlain_keeps {bk : Bool} {s0 s : State} {x1 : ReqKey} {x2 : Request} {x3 : Bytes}
    (h : Keeps bk false s0 s) : Keeps bk false s0 (State.loadPlain s x1 x2 x3) := by
  unfold State.loadPlain
  repeat' first
    | (with_reducible assumption)
    | (apply State.loadImage_keeps; assumption)
    | (with_reducible refine State.refuse_keeps ?_)
    | (with_reducible refine State.okReq_keeps ?_)
    | split

theorem State.freeStuck_keeps {bk bg : Bool} {s0 s : State} {x1 : Nat} {x2 : Nat}
    (h : Keeps bk bg s0 s) : Keeps bk bg s0 (State.freeStuck s x1 x2) := by
  unfold State.freeStuck
  repeat' first
    | (with_reducible assumption)
    | (with_reducible refine State.ite_keeps ?_ ?_)
    | (with_reducible refine State.finishUnload_keeps ?_)
    | (with_reducible refine State.freeOne_keeps ?_)
    | (with_reducible refine State.foldl_keeps (fun t a h => ?_) ?_)
    | split

theorem State.dropModels_keeps {bk bg : Bool} {s0 s : State} {x1 : List Nat} {x2 : Nat} {x3 : W64}
    (h : Keeps bk bg s0 s) : Keeps bk bg s0 (State.dropModels s x1 x2 x3) := by
  unfold State.dropModels
  repeat' first
    | (with_reducible assumption)
    | (with_reducible refine State.dropModel_keeps ?_)
    | (with_reducible refine State.noteContext_keeps ?_)
    | (with_reducible refine State.foldl_keeps (fun t a h => ?_) ?_)
    | split

theorem State.unloadProgress_keeps {bk bg : Bool} {s0 s : State} {x1 : Nat} (h : Keeps bk bg s0 s) : Keeps bk bg s0
    (State.unloadProgress s x1) := by
  unfold State.unloadProgress
  repeat' first
    | (with_reducible assumption)
    | (with_reducible refine State.ite_keeps ?_ ?_)
    | (with_reducible refine State.finishUnload_keeps ?_)
    | (with_reducible refine State.startDrain_keeps ?_)
    | (with_reducible refine State.sendUnload_keeps ?_)
    | split

theorem State.laneFault_keeps {bk bg : Bool} {s0 s : State} {x1 : Nat} {x2 : Nat} {x3 : Bool}
    (h : Keeps bk bg s0 s) : Keeps bk bg s0 (State.laneFault s x1 x2 x3) := by
  unfold State.laneFault
  repeat' first
    | (with_reducible assumption)
    | (with_reducible refine State.ite_keeps ?_ ?_)
    | (with_reducible refine State.disableLane_keeps ?_)
    | (with_reducible refine State.freeStuck_keeps ?_)
    | (with_reducible refine State.dropModels_keeps ?_)

theorem State.drainMarker_keeps {bk bg : Bool} {s0 s : State} {x1 : LaneWord} (h : Keeps bk bg s0 s) : Keeps bk bg s0
    (State.drainMarker s x1) := by
  unfold State.drainMarker
  repeat' first
    | (with_reducible assumption)
    | (with_reducible refine State.ite_keeps ?_ ?_)
    | (with_reducible refine State.updLane_keeps ?_)
    | (with_reducible refine State.moveLane_keeps ?_)
    | (with_reducible refine State.countStale_keeps ?_)
    | (with_reducible refine State.wordFault_keeps ?_)
    | (with_reducible refine State.finishUnload_keeps ?_)
    | (with_reducible refine State.freeOne_keeps ?_)
    | (simp only [State.made_eq]; with_reducible refine State.made_keeps ?_ ?_ ?_)
    | with_reducible rfl
    | split
    | dsimp only

theorem execLaneFault_keeps {bk bg : Bool} {s0 s : State} {x0 : Nat} {x1 : Nat} {x2 : Bool} {t : State}
    (e : execLaneFault x0 x1 x2 s = .next t) (h : Keeps bk bg s0 s) : Keeps bk bg s0 t := by
  cases e
  exact State.laneFault_keeps h

theorem State.unloadAll_keeps {bk bg : Bool} {s0 s : State} (h : Keeps bk bg s0 s) : Keeps bk bg s0 (State.unloadAll s) := by
  unfold State.unloadAll
  repeat' first
    | (with_reducible assumption)
    | (with_reducible refine State.unloadProgress_keeps ?_)
    | (with_reducible refine State.foldl_keeps (fun t a h => ?_) ?_)

theorem execDrainMarker_keeps {bk bg : Bool} {s0 s : State} {x0 : LaneWord} {t : State}
    (e : execDrainMarker x0 s = .next t) (h : Keeps bk bg s0 s) : Keeps bk bg s0 t := by
  cases e
  exact State.drainMarker_keeps h

theorem State.releaseHolds_keeps {bk bg : Bool} {s0 s : State} {x1 : Nat} (h : Keeps bk bg s0 s) : Keeps bk bg s0
    (State.releaseHolds s x1) := by
  unfold State.releaseHolds
  repeat' first
    | (with_reducible assumption)
    | (with_reducible refine State.ite_keeps ?_ ?_)
    | (with_reducible refine State.goOn_keeps ?_)
    | (with_reducible refine State.holdReq_keeps ?_)
    | split

theorem State.partLoaded_keeps {bk bg : Bool} {s0 s : State} {x1 : ReqKey} {x2 : Nat} {x3 : Nat} {x4 : W64}
    {x5 : W64} (h : Keeps bk bg s0 s) : Keeps bk bg s0 (State.partLoaded s x1 x2 x3 x4 x5) := by
  unfold State.partLoaded
  repeat' first
    | (with_reducible assumption)
    | (with_reducible refine State.ite_keeps ?_ ?_)
    | (with_reducible refine State.okReq_keeps ?_)
    | (with_reducible refine State.dropEmptyJob_keeps ?_)
    | (with_reducible refine State.refuse_keeps ?_)
    | (with_reducible refine State.undoPart_keeps ?_)
    | (with_reducible refine State.updJob_keeps ?_)
    | (with_reducible refine State.tellParts_keeps ?_)
    | (with_reducible refine State.holdReq_keeps ?_)
    | split

theorem State.loadPartHere_keeps {bk : Bool} {s0 s : State} {x1 : ReqKey} {x2 : Request} {x3 : Bytes}
    (h : Keeps bk false s0 s) : Keeps bk false s0 (State.loadPartHere s x1 x2 x3) := by
  unfold State.loadPartHere
  repeat' first
    | (with_reducible assumption)
    | (apply State.loadImage_keeps; assumption)
    | (with_reducible refine State.refuse_keeps ?_)
    | (with_reducible refine State.putJob_keeps ?_)
    | (with_reducible refine State.takeJobContext_keeps ?_)
    | (with_reducible refine State.partLoaded_keeps ?_)
    | (with_reducible refine State.updReq_keeps ?_)
    | split
    | dsimp only

theorem State.openLoad_keeps {bk : Bool} {s0 s : State} {x1 : ReqKey} {x2 : Request} {x3 : Bytes}
    (h : Keeps bk false s0 s) : Keeps bk false s0 (State.openLoad s x1 x2 x3) := by
  unfold State.openLoad
  repeat' first
    | (with_reducible assumption)
    | (with_reducible refine State.ite_keeps ?_ ?_)
    | (with_reducible refine State.refuse_keeps ?_)
    | (with_reducible refine State.loadPlain_keeps ?_)
    | (with_reducible refine State.dropEmptyJob_keeps ?_)
    | (with_reducible refine State.loadPartHere_keeps ?_)
    | (with_reducible refine State.sendPart_keeps ?_)
    | split

theorem State.modelLoad_keeps {bk : Bool} {s0 s : State} {x1 : ReqKey} {x2 : SourceFind}
    (h : Keeps bk false s0 s) : Keeps bk false s0 (State.modelLoad s x1 x2) := by
  unfold State.modelLoad
  repeat' first
    | (with_reducible assumption)
    | (with_reducible refine State.ite_keeps ?_ ?_)
    | (with_reducible refine State.refuse_keeps ?_)
    | (with_reducible refine State.joinAbort_keeps ?_)
    | (apply State.sourceMet_keeps; assumption)
    | (with_reducible refine State.openLoad_keeps ?_)
    | (with_reducible refine State.failMet_keeps ?_)
    | split

theorem execModelLoad_keeps {bk : Bool} {s0 s : State} {x0 : ReqKey} {x1 : SourceFind} {t : State}
    (e : execModelLoad x0 x1 s = .next t) (h : Keeps bk false s0 s) : Keeps bk false s0 t := by
  cases e
  exact State.modelLoad_keeps h

theorem State.beginUnload_keeps {bk bg : Bool} {s0 s : State} {x1 : Nat} {x2 : List ReqKey} {x3 : Bool}
    (h : Keeps bk bg s0 s) : Keeps bk bg s0 (State.beginUnload s x1 x2 x3) := by
  unfold State.beginUnload
  repeat' first
    | (with_reducible assumption)
    | (with_reducible refine State.ite_keeps ?_ ?_)
    | (with_reducible refine State.updModel_keeps ?_)
    | (with_reducible refine State.stopReq_keeps ?_)
    | (with_reducible refine State.releaseHolds_keeps ?_)
    | (with_reducible refine State.unloadProgress_keeps ?_)
    | (with_reducible refine State.foldl_keeps (fun t a h => ?_) ?_)

theorem State.modelUnload_keeps {bk bg : Bool} {s0 s : State} {x1 : ReqKey} (h : Keeps bk bg s0 s) : Keeps bk bg s0
    (State.modelUnload s x1) := by
  unfold State.modelUnload
  repeat' first
    | (with_reducible assumption)
    | (with_reducible refine State.ite_keeps ?_ ?_)
    | (with_reducible refine State.refuse_keeps ?_)
    | (with_reducible refine State.finishUnload_keeps ?_)
    | (with_reducible refine State.updModel_keeps ?_)
    | (with_reducible refine State.holdReq_keeps ?_)
    | (with_reducible refine State.beginUnload_keeps ?_)
    | (with_reducible refine State.badHandle_keeps ?_)
    | split

theorem execModelUnload_keeps {bk bg : Bool} {s0 s : State} {x0 : ReqKey} {t : State}
    (e : execModelUnload x0 s = .next t) (h : Keeps bk bg s0 s) : Keeps bk bg s0 t := by
  cases e
  exact State.modelUnload_keeps h

end Sys2Proof.Machine
end

