-- ==== Sys2Proof/Laws/Keeps4.lean ====
section
/-! SUPPORT. What the operations and commands of these files of the machine keep (Laws/Keeps): Faults, Memory, RegRead, Quant, SitePort. -/

namespace Sys2Proof.Machine

/-! ### Faults -/

theorem State.dropTrip_keeps {bk bg : Bool} {s0 s : State} (h : Keeps bk bg s0 s) : Keeps bk bg s0 (State.dropTrip s) :=
  ⟨h.pending, h.keys, h.gens, h.canonical⟩

theorem State.endMigration_keeps {bk bg : Bool} {s0 s : State} (h : Keeps bk bg s0 s) : Keeps bk bg s0
    (State.endMigration s) :=
  ⟨h.pending, h.keys, h.gens, h.canonical⟩

theorem State.startMigration_keeps {bk bg : Bool} {s0 s : State} {x1 : Nat} (h : Keeps bk bg s0 s) : Keeps bk bg s0
    (State.startMigration s x1) :=
  ⟨h.pending, h.keys, h.gens, h.canonical⟩

theorem State.updHrow_keeps {bk bg : Bool} {s0 s : State} {x1 : Nat} {x2 : HalfRow → HalfRow}
    (h : Keeps bk bg s0 s) : Keeps bk bg s0 (State.updHrow s x1 x2) :=
  ⟨h.pending, h.keys, h.gens, h.canonical⟩

theorem State.startShift_keeps {bk bg : Bool} {s0 s : State} {x1 : Nat} {x2 : Nat} {x3 : Option ReqKey}
    (h : Keeps bk bg s0 s) : Keeps bk bg s0 (State.startShift s x1 x2 x3) := by
  unfold State.startShift
  repeat' first
    | (with_reducible assumption)
    | (with_reducible refine State.updSite_keeps ?_)
    | (with_reducible refine State.updHrow_keeps ?_)

theorem State.shiftPause_keeps {bk bg : Bool} {s0 s : State} {x1 : Nat} {x2 : List Nat}
    (h : Keeps bk bg s0 s) : Keeps bk bg s0 (State.shiftPause s x1 x2) := by
  unfold State.shiftPause
  repeat' first
    | (with_reducible assumption)
    | (with_reducible refine State.ite_keeps ?_ ?_)
    | (with_reducible refine State.startMigration_keeps ?_)
    | (with_reducible refine State.updHrow_keeps ?_)
    | split

theorem execSpareShiftPause_keeps {bk bg : Bool} {s0 s : State} {x0 : Nat} {x1 : List Nat} {t : State}
    (e : execSpareShiftPause x0 x1 s = .next t) (h : Keeps bk bg s0 s) : Keeps bk bg s0 t := by
  cases e
  exact State.shiftPause_keeps h

theorem State.engineRepair_keeps {bk bg : Bool} {s0 s : State} {x1 : ReqKey} (h : Keeps bk bg s0 s) : Keeps bk bg s0
    (State.engineRepair s x1) := by
  unfold State.engineRepair
  repeat' first
    | (with_reducible assumption)
    | (with_reducible refine State.ite_keeps ?_ ?_)
    | (with_reducible refine State.updHrow_keeps ?_)
    | (with_reducible refine State.holdReq_keeps ?_)
    | (with_reducible refine State.startShift_keeps ?_)
    | (with_reducible refine State.okReq_keeps ?_)
    | split
    | dsimp only

theorem execEngineRepair_keeps {bk bg : Bool} {s0 s : State} {x0 : ReqKey} {t : State}
    (e : execEngineRepair x0 s = .next t) (h : Keeps bk bg s0 s) : Keeps bk bg s0 t := by
  cases e
  exact State.engineRepair_keeps h

theorem State.rebuildWord_keeps {bk bg : Bool} {s0 s : State} {x1 : Nat} {x2 : ScrubPlace} {x3 : Nat}
    (h : Keeps bk bg s0 s) : Keeps bk bg s0 (State.rebuildWord s x1 x2 x3) := by
  unfold State.rebuildWord
  repeat' first
    | (with_reducible assumption)
    | (with_reducible refine State.rewriteWords_keeps ?_)

theorem State.halfOn_keeps {bk bg : Bool} {s0 s : State} {x1 : Half} (h : Keeps bk bg s0 s) : Keeps bk bg s0
    (State.halfOn s x1) := by
  unfold State.halfOn
  repeat' first
    | (with_reducible assumption)
    | (with_reducible refine State.updSite_keeps ?_)
    | (with_reducible refine State.endHalfReq_keeps ?_)
    | (with_reducible refine State.dropTrip_keeps ?_)
    | (with_reducible refine State.parkHinges_keeps ?_)
    | (with_reducible refine State.setHalf_keeps ?_)
    | (with_reducible refine State.foldl_keeps (fun t a h => ?_) ?_)

theorem State.emptyLink_keeps {bk bg : Bool} {s0 s : State} {x1 : Nat} (h : Keeps bk bg s0 s) : Keeps bk bg s0
    (State.emptyLink s x1) := by
  unfold State.emptyLink
  repeat' first
    | (with_reducible assumption)
    | (with_reducible refine State.ite_keeps ?_ ?_)
    | (with_reducible refine State.finishUnload_keeps ?_)
    | (with_reducible refine State.freeOne_keeps ?_)
    | (with_reducible refine State.foldl_keeps (fun t a h => ?_) ?_)
    | (simp only [State.made_eq]; with_reducible refine State.made_keeps ?_ ?_ ?_)
    | with_reducible rfl
    | split

theorem State.emptyHalf_keeps {bk bg : Bool} {s0 s : State} {x1 : Half} (h : Keeps bk bg s0 s) : Keeps bk bg s0
    (State.emptyHalf s x1) := by
  unfold State.emptyHalf
  repeat' first
    | (with_reducible assumption)
    | (with_reducible refine State.emptyLink_keeps ?_)
    | (with_reducible refine State.foldl_keeps (fun t a h => ?_) ?_)

theorem State.settleOn_keeps {bk bg : Bool} {s0 s : State} (h : Keeps bk bg s0 s) : Keeps bk bg s0 (State.settleOn s) := by
  unfold State.settleOn
  repeat' first
    | (with_reducible assumption)
    | (with_reducible refine State.ite_keeps ?_ ?_)
    | (with_reducible refine State.halfOn_keeps ?_)
    | (with_reducible refine State.okReq_keeps ?_)
    | (with_reducible refine State.resumeRuns_keeps ?_)
    | (with_reducible refine State.foldl_keeps (fun t a h => ?_) ?_)
    | (simp only [State.made_eq]; with_reducible refine State.made_keeps ?_ ?_ ?_)
    | with_reducible rfl
    | split

theorem State.clearEnd_keeps {bk bg : Bool} {s0 s : State} {x1 : Nat} (h : Keeps bk bg s0 s) : Keeps bk bg s0
    (State.clearEnd s x1) := by
  unfold State.clearEnd
  repeat' first
    | (with_reducible assumption)
    | (with_reducible refine State.ite_keeps ?_ ?_)
    | (with_reducible refine State.settleOn_keeps ?_)
    | (with_reducible refine State.updSite_keeps ?_)

theorem execEngineClearEnd_keeps {bk bg : Bool} {s0 s : State} {x0 : Nat} {t : State}
    (e : execEngineClearEnd x0 s = .next t) (h : Keeps bk bg s0 s) : Keeps bk bg s0 t := by
  cases e
  exact State.clearEnd_keeps h

theorem State.loseEngine_keeps {bk bg : Bool} {s0 s : State} {x1 : Nat} (h : Keeps bk bg s0 s) : Keeps bk bg s0
    (State.loseEngine s x1) := by
  unfold State.loseEngine
  repeat' first
    | (with_reducible assumption)
    | (with_reducible refine State.ite_keeps ?_ ?_)
    | (with_reducible refine State.updSite_keeps ?_)
    | (with_reducible refine State.updHrow_keeps ?_)
    | (with_reducible refine State.emptyLink_keeps ?_)
    | (with_reducible refine State.moduleReset_keeps ?_)
    | (with_reducible refine State.foldl_keeps (fun t a h => ?_) ?_)
    | (simp only [State.made_eq]; with_reducible refine State.made_keeps ?_ ?_ ?_)
    | with_reducible rfl

theorem State.handleFailed_keeps {bk bg : Bool} {s0 s : State} {x1 : Nat} (h : Keeps bk bg s0 s) : Keeps bk bg s0
    (State.handleFailed s x1) := by
  unfold State.handleFailed
  repeat' first
    | (with_reducible assumption)
    | (with_reducible refine State.ite_keeps ?_ ?_)
    | (with_reducible refine State.startShift_keeps ?_)
    | (with_reducible refine State.loseEngine_keeps ?_)
    | split

theorem State.nextFailed_keeps {bk bg : Bool} {s0 s : State} {x1 : Nat} (h : Keeps bk bg s0 s) : Keeps bk bg s0
    (State.nextFailed s x1) := by
  unfold State.nextFailed
  repeat' first
    | (with_reducible assumption)
    | (with_reducible refine State.ite_keeps ?_ ?_)
    | (with_reducible refine State.handleFailed_keeps ?_)
    | (with_reducible refine State.foldl_keeps (fun t a h => ?_) ?_)

theorem State.declareFailed_keeps {bk bg : Bool} {s0 s : State} {x1 : Nat} (h : Keeps bk bg s0 s) : Keeps bk bg s0
    (State.declareFailed s x1) := by
  unfold State.declareFailed
  repeat' first
    | (with_reducible assumption)
    | (with_reducible refine State.ite_keeps ?_ ?_)
    | (with_reducible refine State.updSite_keeps ?_)
    | (with_reducible refine State.updHrow_keeps ?_)
    | (with_reducible refine State.handleFailed_keeps ?_)
    | (simp only [State.made_eq]; with_reducible refine State.made_keeps ?_ ?_ ?_)
    | with_reducible rfl
    | split

theorem State.badWord_keeps {bk bg : Bool} {s0 s : State} {x1 : Nat} {x2 : ScrubPlace} {x3 : Nat}
    (h : Keeps bk bg s0 s) : Keeps bk bg s0 (State.badWord s x1 x2 x3) := by
  unfold State.badWord
  repeat' first
    | (with_reducible assumption)
    | (with_reducible refine State.ite_keeps ?_ ?_)
    | (with_reducible refine State.noteBadWord_keeps ?_)
    | (with_reducible refine State.failRun_keeps ?_)
    | (with_reducible refine State.rebuildWord_keeps ?_)
    | (with_reducible refine State.faultData_keeps ?_)
    | (with_reducible refine State.declareFailed_keeps ?_)
    | (with_reducible refine State.countSramCorr_keeps ?_)
    | (with_reducible refine State.foldl_keeps (fun t a h => ?_) ?_)
    | split
    | dsimp only

theorem State.patrolScrub_keeps {bk bg : Bool} {s0 s : State} {x1 : Nat} {x2 : ScrubPlace} {x3 : Nat} {x4 : ReadFind}
    (h : Keeps bk bg s0 s) : Keeps bk bg s0 (State.patrolScrub s x1 x2 x3 x4) := by
  unfold State.patrolScrub
  repeat' first
    | (with_reducible assumption)
    | (with_reducible refine State.ite_keeps ?_ ?_)
    | (with_reducible refine State.countSramCorr_keeps ?_)
    | (with_reducible refine State.badWord_keeps ?_)
    | split

theorem State.ackTimeout_keeps {bk bg : Bool} {s0 s : State} {x1 : Nat} {x2 : Nat}
    (h : Keeps bk bg s0 s) : Keeps bk bg s0 (State.ackTimeout s x1 x2) := by
  unfold State.ackTimeout
  repeat' first
    | (with_reducible assumption)
    | (with_reducible refine State.ite_keeps ?_ ?_)
    | (with_reducible refine State.updCtx_keeps ?_)
    | (with_reducible refine State.declareFailed_keeps ?_)
    | (with_reducible refine State.noteContext_keeps ?_)
    | split

theorem execPatrolScrub_keeps {bk bg : Bool} {s0 s : State} {x0 : Nat} {x1 : ScrubPlace} {x2 : Nat} {x3 : ReadFind}
    {t : State} (e : execPatrolScrub x0 x1 x2 x3 s = .next t) (h : Keeps bk bg s0 s) : Keeps bk bg s0 t := by
  cases e
  exact State.patrolScrub_keeps h

theorem State.siteFailure_keeps {bk bg : Bool} {s0 s : State} {x1 : Nat} (h : Keeps bk bg s0 s) : Keeps bk bg s0
    (State.siteFailure s x1) := by
  unfold State.siteFailure
  repeat' first
    | (with_reducible assumption)
    | (with_reducible refine State.ite_keeps ?_ ?_)
    | (with_reducible refine State.declareFailed_keeps ?_)

theorem execSiteFailure_keeps {bk bg : Bool} {s0 s : State} {x0 : Nat} {t : State}
    (e : execSiteFailure x0 s = .next t) (h : Keeps bk bg s0 s) : Keeps bk bg s0 t := by
  cases e
  exact State.siteFailure_keeps h

theorem State.engineRetire_keeps {bk bg : Bool} {s0 s : State} {x1 : ReqKey} (h : Keeps bk bg s0 s) : Keeps bk bg s0
    (State.engineRetire s x1) := by
  unfold State.engineRetire
  repeat' first
    | (with_reducible assumption)
    | (with_reducible refine State.okReq_keeps ?_)
    | (with_reducible refine State.declareFailed_keeps ?_)
    | split

theorem State.scrubEnd_keeps {bk bg : Bool} {s0 s : State} {x1 : Nat} {x2 : List (ScrubPlace × Nat)}
    (h : Keeps bk bg s0 s) : Keeps bk bg s0 (State.scrubEnd s x1 x2) := by
  unfold State.scrubEnd
  repeat' first
    | (with_reducible assumption)
    | (with_reducible refine State.ite_keeps ?_ ?_)
    | (with_reducible refine State.settleOn_keeps ?_)
    | (with_reducible refine State.updSite_keeps ?_)
    | (with_reducible refine State.badWord_keeps ?_)
    | (with_reducible refine State.foldl_keeps (fun t a h => ?_) ?_)

theorem State.shiftResume_keeps {bk bg : Bool} {s0 s : State} {x1 : Nat} {x2 : Nat}
    (h : Keeps bk bg s0 s) : Keeps bk bg s0 (State.shiftResume s x1 x2) := by
  unfold State.shiftResume
  repeat' first
    | (with_reducible assumption)
    | (with_reducible refine State.ite_keeps ?_ ?_)
    | (with_reducible refine State.updSite_keeps ?_)
    | (with_reducible refine State.updHrow_keeps ?_)
    | (with_reducible refine State.okReq_keeps ?_)
    | (with_reducible refine State.carryResets_keeps ?_)
    | (with_reducible refine State.resumeRuns_keeps ?_)
    | (with_reducible refine State.endMigration_keeps ?_)
    | (with_reducible refine State.nextFailed_keeps ?_)
    | (with_reducible refine State.moduleReset_keeps ?_)
    | (with_reducible refine State.foldl_keeps (fun t a h => ?_) ?_)
    | split

theorem execResetAckTimeout_keeps {bk bg : Bool} {s0 s : State} {x0 : Nat} {x1 : Nat} {t : State}
    (e : execResetAckTimeout x0 x1 s = .next t) (h : Keeps bk bg s0 s) : Keeps bk bg s0 t := by
  cases e
  exact State.ackTimeout_keeps h

theorem execWakeScrubEnd_keeps {bk bg : Bool} {s0 s : State} {x0 : Nat} {x1 : List (ScrubPlace × Nat)} {t : State}
    (e : execWakeScrubEnd x0 x1 s = .next t) (h : Keeps bk bg s0 s) : Keeps bk bg s0 t := by
  cases e
  exact State.scrubEnd_keeps h

theorem execEngineRetire_keeps {bk bg : Bool} {s0 s : State} {x0 : ReqKey} {t : State}
    (e : execEngineRetire x0 s = .next t) (h : Keeps bk bg s0 s) : Keeps bk bg s0 t := by
  cases e
  exact State.engineRetire_keeps h

theorem execSpareShiftResume_keeps {bk bg : Bool} {s0 s : State} {x0 : Nat} {x1 : Nat} {t : State}
    (e : execSpareShiftResume x0 x1 s = .next t) (h : Keeps bk bg s0 s) : Keeps bk bg s0 t := by
  cases e
  exact State.shiftResume_keeps h

/-! ### Memory -/

theorem State.releasePages_keeps {bk bg : Bool} {s0 s : State} {x1 : Nat} (h : Keeps bk bg s0 s) : Keeps bk bg s0
    (State.releasePages s x1) :=
  ⟨h.pending, h.keys, h.gens, h.canonical⟩

theorem State.csCorrected_keeps {bk bg : Bool} {s0 s : State} {x1 : WordFind} (h : Keeps bk bg s0 s) : Keeps bk bg s0
    (State.csCorrected s x1) := by
  unfold State.csCorrected
  repeat' first
    | (with_reducible assumption)
    | (with_reducible refine State.ite_keeps ?_ ?_)
    | (with_reducible refine State.countWordCorr_keeps ?_)

theorem State.csPlainWrite_keeps {bk bg : Bool} {s0 s : State} {x1 : Nat} {x2 : Bytes}
    (h : Keeps bk bg s0 s) : Keeps bk bg s0 (State.csPlainWrite s x1 x2) := by
  unfold State.csPlainWrite
  repeat' first
    | (with_reducible assumption)
    | (with_reducible refine State.csStore_keeps ?_)

theorem State.scrubUnit_keeps {bk bg : Bool} {s0 s : State} {x1 : Nat} {x2 : Nat} {x3 : ScrubRead}
    (h : Keeps bk bg s0 s) : Keeps bk bg s0 (State.scrubUnit s x1 x2 x3) := by
  unfold State.scrubUnit
  repeat' first
    | (with_reducible assumption)
    | (with_reducible refine State.ite_keeps ?_ ?_)
    | (with_reducible refine State.noteBurst_keeps ?_)
    | (with_reducible refine State.updPkg_keeps ?_)
    | (with_reducible refine State.countBurstCorr_keeps ?_)
    | split

theorem State.hubScrub_keeps {bk bg : Bool} {s0 s : State} {x1 : Nat} {x2 : Nat} {x3 : ScrubRead}
    (h : Keeps bk bg s0 s) : Keeps bk bg s0 (State.hubScrub s x1 x2 x3) := by
  unfold State.hubScrub
  repeat' first
    | (with_reducible assumption)
    | (with_reducible refine State.ite_keeps ?_ ?_)
    | (with_reducible refine State.scrubUnit_keeps ?_)
    | (with_reducible refine State.updPkg_keeps ?_)

theorem execHubPatrolScrub_keeps {bk bg : Bool} {s0 s : State} {x0 : Nat} {x1 : Nat} {x2 : ScrubRead} {t : State}
    (e : execHubPatrolScrub x0 x1 x2 s = .next t) (h : Keeps bk bg s0 s) : Keeps bk bg s0 t := by
  cases e
  exact State.hubScrub_keeps h

theorem State.zeroingEnd_keeps {bk bg : Bool} {s0 s : State} {x1 : Nat} (h : Keeps bk bg s0 s) : Keeps bk bg s0
    (State.zeroingEnd s x1) := by
  unfold State.zeroingEnd
  repeat' first
    | (with_reducible assumption)
    | (with_reducible refine State.ite_keeps ?_ ?_)
    | (with_reducible refine State.rewriteUnits_keeps ?_)
    | (with_reducible refine State.updPkg_keeps ?_)

theorem execLpddr6ZeroingEnd_keeps {bk bg : Bool} {s0 s : State} {x0 : Nat} {t : State}
    (e : execLpddr6ZeroingEnd x0 s = .next t) (h : Keeps bk bg s0 s) : Keeps bk bg s0 t := by
  cases e
  exact State.zeroingEnd_keeps h

theorem State.failTransfer_keeps {bk bg : Bool} {s0 s : State} {x0 : Nat} {x2 : Run}
    (h : Keeps bk bg s0 s) : Keeps bk bg s0 (State.failTransfer x0 s x2) := by
  unfold State.failTransfer
  repeat' first
    | (with_reducible assumption)
    | (with_reducible refine State.faultMemory_keeps ?_)
    | (with_reducible refine State.failParts_keeps ?_)

theorem State.csErrors_keeps {bk bg : Bool} {s0 s : State} {x1 : Port} {x2 : Bool} {x3 : List Nat}
    (h : Keeps bk bg s0 s) : Keeps bk bg s0 (State.csErrors s x1 x2 x3) := by
  unfold State.csErrors
  repeat' first
    | (with_reducible assumption)
    | (with_reducible refine State.csError_keeps ?_)
    | (with_reducible refine State.foldl_keeps (fun t a h => ?_) ?_)

theorem State.csRead_keeps {bk bg : Bool} {s0 s : State} {x1 : Port} {x2 : Nat} {x3 : Nat} {x4 : WordFind}
    (h : Keeps bk bg s0 s) : Keeps bk bg s0 (State.csRead s x1 x2 x3 x4) := by
  unfold State.csRead
  repeat' first
    | (with_reducible assumption)
    | (with_reducible refine State.answer_keeps ?_)
    | (with_reducible refine State.csCorrected_keeps ?_)
    | (with_reducible refine State.csErrors_keeps ?_)
    | split

theorem State.csAtomic_keeps {bk bg : Bool} {s0 s : State} {x1 : Port} {x2 : AtomicOp} {x3 : Nat} {x4 : Nat}
    {x5 : W64} {x6 : W64} {x7 : WordFind} {x8 : MemMode} (h : Keeps bk bg s0 s) : Keeps bk bg s0
    (State.csAtomic s x1 x2 x3 x4 x5 x6 x7 x8) := by
  unfold State.csAtomic
  repeat' first
    | (with_reducible assumption)
    | (with_reducible refine State.ite_keeps ?_ ?_)
    | (with_reducible refine State.answer_keeps ?_)
    | (with_reducible refine State.csStore_keeps ?_)
    | (with_reducible refine State.csCorrected_keeps ?_)
    | (with_reducible refine State.csErrors_keeps ?_)
    | (simp only [State.made_eq]; with_reducible refine State.made_keeps ?_ ?_ ?_)
    | with_reducible rfl
    | split

theorem State.csAliasWrite_keeps {bk bg : Bool} {s0 s : State} {x1 : Sys2Proof.Port} {x2 : Bool} {x3 : Nat}
    {x4 : Sys2Proof.Machine.Bytes} {x5 : Sys2Proof.WordFind} {x6 : Sys2Proof.Machine.MemMode}
    (h : Keeps bk bg s0 s) : Keeps bk bg s0 (State.csAliasWrite s x1 x2 x3 x4 x5 x6) := by
  unfold State.csAliasWrite
  split
  · simp only [State.made_eq]
    exact State.made_keeps h rfl rfl
  · extract_lets bad t
    have ht : Keeps bk bg s0 t := State.foldl_keeps (fun t a h => State.csError_keeps h) (State.csCorrected_keeps h)
    refine State.cs_keeps ht fun w => ?_
    dsimp only
    generalize List.range x4.length = l
    revert w
    generalize t.cs.mem = m
    intro w
    clear_value bad t
    induction l generalizing m with
    | nil => exact w
    | cons i l ih =>
      refine ih _ ?_
      dsimp only
      split
      · exact w
      · exact Mem.put_wf _ _ w

theorem State.csWriteAt_keeps {bk bg : Bool} {s0 s : State} {x1 : Port} {x2 : Nat} {x3 : Bytes} {x4 : WordFind}
    {x5 : MemMode} (h : Keeps bk bg s0 s) : Keeps bk bg s0 (State.csWriteAt s x1 x2 x3 x4 x5) := by
  unfold State.csWriteAt
  repeat' first
    | (with_reducible assumption)
    | (with_reducible refine State.csPlainWrite_keeps ?_)
    | (with_reducible refine State.csAliasWrite_keeps ?_)
    | split

theorem State.csAtBank_keeps {bk bg : Bool} {s0 s : State} {x1 : Instr} {x2 : MemMode}
    (h : Keeps bk bg s0 s) : Keeps bk bg s0 (State.csAtBank s x1 x2) := by
  unfold State.csAtBank
  repeat' first
    | (with_reducible assumption)
    | (with_reducible refine State.csWriteAt_keeps ?_)
    | (with_reducible refine State.csAtomic_keeps ?_)
    | (with_reducible refine State.csRead_keeps ?_)
    | split

theorem State.csHold_keeps {bk bg : Bool} {s0 s : State} {x1 : Nat} {x2 : Instr}
    (h : Keeps bk bg s0 s) : Keeps bk bg s0 (State.csHold s x1 x2) := by
  unfold State.csHold
  repeat' first
    | (with_reducible assumption)
    | (with_reducible refine State.ite_keeps ?_ ?_)
    | (with_reducible refine State.csAtBank_keeps ?_)
    | (simp only [State.made_eq]; with_reducible refine State.made_keeps ?_ ?_ ?_)
    | with_reducible rfl

theorem State.csClearEnd_keeps {bk bg : Bool} {s0 s : State} (h : Keeps bk bg s0 s) : Keeps bk bg s0
    (State.csClearEnd s) := by
  unfold State.csClearEnd
  repeat' first
    | (with_reducible assumption)
    | (with_reducible refine State.ite_keeps ?_ ?_)
    | (with_reducible refine State.csAtBank_keeps ?_)
    | (with_reducible refine State.foldl_keeps (fun t a h => ?_) ?_)
    | (simp only [State.made_eq]; with_reducible refine State.made_keeps ?_ ?_ ?_)
    | with_reducible rfl

theorem execCsramClearEnd_keeps {bk bg : Bool} {s0 s : State} {t : State} (e : execCsramClearEnd s = .next t)
    (h : Keeps bk bg s0 s) : Keeps bk bg s0 t := by
  cases e
  exact State.csClearEnd_keeps h

theorem State.csWriteBy_keeps {bk bg : Bool} {s0 s : State} {x1 : Port} {x2 : Nat} {x3 : Bool} {x4 : Instr}
    (h : Keeps bk bg s0 s) : Keeps bk bg s0 (State.csWriteBy s x1 x2 x3 x4) := by
  unfold State.csWriteBy
  repeat' first
    | (with_reducible assumption)
    | (with_reducible refine State.ite_keeps ?_ ?_)
    | (with_reducible refine State.csHold_keeps ?_)
    | (with_reducible refine State.wakeLink_keeps ?_)
    | (with_reducible refine State.dropAccess_keeps ?_)

theorem State.csReadBy_keeps {bk bg : Bool} {s0 s : State} {x1 : Port} {x2 : Nat} {x3 : Bool} {x4 : Instr}
    (h : Keeps bk bg s0 s) : Keeps bk bg s0 (State.csReadBy s x1 x2 x3 x4) := by
  unfold State.csReadBy
  repeat' first
    | (with_reducible assumption)
    | (with_reducible refine State.ite_keeps ?_ ?_)
    | (with_reducible refine State.csHold_keeps ?_)
    | (with_reducible refine State.wakeLink_keeps ?_)
    | (with_reducible refine State.badAccess_keeps ?_)

theorem execCsramPlainWrite_keeps {bk bg : Bool} {s0 s : State} {x0 : Port} {x1 : Nat} {x2 : List Byte} {t : State}
    (e : execCsramPlainWrite x0 x1 x2 s = .next t) (h : Keeps bk bg s0 s) : Keeps bk bg s0 t := by
  cases e
  exact State.csWriteBy_keeps h

theorem execCsramRead_keeps {bk bg : Bool} {s0 s : State} {x0 : Port} {x1 : Nat} {x2 : Nat} {x3 : WordFind}
    {t : State} (e : execCsramRead x0 x1 x2 x3 s = .next t) (h : Keeps bk bg s0 s) : Keeps bk bg s0 t := by
  cases e
  exact State.csReadBy_keeps h

theorem execCsramAtomic_keeps {bk bg : Bool} {s0 s : State} {x0 : Port} {x1 : AtomicOp} {x2 : Nat} {x3 : Nat}
    {x4 : W64} {x5 : W64} {x6 : WordFind} {t : State} (e : execCsramAtomic x0 x1 x2 x3 x4 x5 x6 s = .next t)
    (h : Keeps bk bg s0 s) : Keeps bk bg s0 t := by
  cases e
  exact State.csReadBy_keeps h

theorem execCsramAliasWrite_keeps {bk bg : Bool} {s0 s : State} {x0 : Port} {x1 : Nat} {x2 : List Byte}
    {x3 : WordFind} {t : State} (e : execCsramAliasWrite x0 x1 x2 x3 s = .next t)
    (h : Keeps bk bg s0 s) : Keeps bk bg s0 t := by
  cases e
  exact State.csWriteBy_keeps h

theorem State.loseModel_keeps {bk bg : Bool} {s0 s : State} {x0 : W64} {x1 : Nat} {x3 : Nat}
    (h : Keeps bk bg s0 s) : Keeps bk bg s0 (State.loseModel x0 x1 s x3) := by
  unfold State.loseModel
  repeat' first
    | (with_reducible assumption)
    | (with_reducible refine State.ite_keeps ?_ ?_)
    | (with_reducible refine State.dropModel_keeps ?_)
    | (with_reducible refine State.abortJob_keeps ?_)
    | split

theorem State.loseEngines_keeps {bk bg : Bool} {s0 s : State} {base : Nat} {l : List Nat} (h : Keeps bk bg s0 s) :
    Keeps bk bg s0 (l.foldl (fun t i => t.loseEngine (base + i)) s) :=
  State.foldl_keeps (fun _ _ h => State.loseEngine_keeps h) h

theorem State.hubFailed_keeps {bk bg : Bool} {s0 s : State} {x1 : Sys2Proof.Half}
    (h : Keeps bk bg s0 s) : Keeps bk bg s0 (State.hubFailed s x1) := by
  unfold State.hubFailed
  extract_lets base src hb
  clear_value base src hb
  generalize List.range 16 = l
  have hg : Keeps bk bg s0 (l.foldl (fun t i => t.loseEngine (base + i)) { s with hb := hb }) := by
    refine State.loseEngines_keeps ?_
    rw [State.made_eq]
    exact State.made_keeps h rfl rfl
  split <;> split <;> assumption

theorem execHubFailure_keeps {bk bg : Bool} {s0 s : State} {x0 : Half} {t : State}
    (e : execHubFailure x0 s = .next t) (h : Keeps bk bg s0 s) : Keeps bk bg s0 t := by
  cases e
  exact State.hubFailed_keeps h

theorem State.packageLost_keeps {bk bg : Bool} {s0 s : State} {x1 : Nat} (h : Keeps bk bg s0 s) : Keeps bk bg s0
    (State.packageLost s x1) := by
  unfold State.packageLost
  repeat' first
    | (with_reducible assumption)
    | (with_reducible refine State.ite_keeps ?_ ?_)
    | (with_reducible refine State.loseEngine_keeps ?_)
    | (with_reducible refine State.updPkg_keeps ?_)

theorem State.packageFailure_keeps {bk bg : Bool} {s0 s : State} {x1 : Nat} {x2 : Bool}
    (h : Keeps bk bg s0 s) : Keeps bk bg s0 (State.packageFailure s x1 x2) := by
  unfold State.packageFailure
  repeat' first
    | (with_reducible assumption)
    | (with_reducible refine State.ite_keeps ?_ ?_)
    | (with_reducible refine State.packageLost_keeps ?_)

theorem execPackageFailure_keeps {bk bg : Bool} {s0 s : State} {x0 : Nat} {x1 : Bool} {t : State}
    (e : execPackageFailure x0 x1 s = .next t) (h : Keeps bk bg s0 s) : Keeps bk bg s0 t := by
  cases e
  exact State.packageFailure_keeps h

theorem State.channelFailure_keeps {bk bg : Bool} {s0 s : State} {x1 : Nat} {x2 : Nat} {x3 : Nat} {x4 : Bool}
    (h : Keeps bk bg s0 s) : Keeps bk bg s0 (State.channelFailure s x1 x2 x3 x4) := by
  unfold State.channelFailure
  repeat' first
    | (with_reducible assumption)
    | (with_reducible refine State.ite_keeps ?_ ?_)
    | (with_reducible refine State.packageLost_keeps ?_)
    | (with_reducible refine State.updPkg_keeps ?_)
    | (with_reducible refine State.failTransfer_keeps ?_)
    | (with_reducible refine State.loseModel_keeps ?_)
    | (with_reducible refine State.noteContext_keeps ?_)
    | (with_reducible refine State.releasePages_keeps ?_)
    | (with_reducible refine State.resumeRuns_keeps ?_)
    | (with_reducible refine State.eventSignal_keeps ?_)
    | (with_reducible refine State.foldl_keeps (fun t a h => ?_) ?_)

theorem execChannelFailure_keeps {bk bg : Bool} {s0 s : State} {x0 : Nat} {x1 : Nat} {x2 : Nat} {x3 : Bool}
    {t : State} (e : execChannelFailure x0 x1 x2 x3 s = .next t) (h : Keeps bk bg s0 s) : Keeps bk bg s0 t := by
  cases e
  exact State.channelFailure_keeps h

/-! ### RegRead -/

theorem State.clearLow_keeps {bk bg : Bool} {s0 s : State} {x1 : Nat} (h : Keeps bk bg s0 s) : Keeps bk bg s0
    (State.clearLow s x1) := by
  unfold State.clearLow
  repeat' first
    | (with_reducible assumption)
    | (with_reducible refine State.ite_keeps ?_ ?_)
    | (simp only [State.made_eq]; with_reducible refine State.made_keeps ?_ ?_ ?_)
    | with_reducible rfl

theorem State.clearHigh_keeps {bk bg : Bool} {s0 s : State} {x1 : Agent} {x2 : Nat}
    (h : Keeps bk bg s0 s) : Keeps bk bg s0 (State.clearHigh s x1 x2) := by
  unfold State.clearHigh
  repeat' first
    | (with_reducible assumption)
    | (with_reducible refine State.ite_keeps ?_ ?_)
    | (with_reducible refine State.updSite_keeps ?_)
    | (simp only [State.made_eq]; with_reducible refine State.made_keeps ?_ ?_ ?_)
    | with_reducible rfl

theorem State.clearMid_keeps {bk bg : Bool} {s0 s : State} {x1 : Agent} {x2 : Nat}
    (h : Keeps bk bg s0 s) : Keeps bk bg s0 (State.clearMid s x1 x2) := by
  unfold State.clearMid
  repeat' first
    | (with_reducible assumption)
    | (with_reducible refine State.ite_keeps ?_ ?_)
    | (with_reducible refine State.updPkg_keeps ?_)
    | (with_reducible refine State.updLane_keeps ?_)
    | (with_reducible refine State.updPeer_keeps ?_)
    | (simp only [State.made_eq]; with_reducible refine State.made_keeps ?_ ?_ ?_)
    | with_reducible rfl

theorem State.regCleared_keeps {bk bg : Bool} {s0 s : State} {x1 : Sys2Proof.Machine.Agent} {x2 : Nat}
    (h : Keeps bk bg s0 s) : Keeps bk bg s0 (State.regCleared s x1 x2) := by
  unfold State.regCleared
  exact State.ite_keeps (State.clearLow_keeps h) (State.ite_keeps (State.ite_keeps (State.updSite_keeps h) h)
    (State.ite_keeps (State.clearMid_keeps h) (State.clearHigh_keeps h)))

/-! ### Quant -/

theorem State.updGroup_keeps {bk bg : Bool} {s0 s : State} {x1 : GroupOwner} {x2 : Group → Group}
    (h : Keeps bk bg s0 s) : Keeps bk bg s0 (State.updGroup s x1 x2) :=
  ⟨h.pending, h.keys, h.gens, h.canonical⟩

theorem State.writeArea_keeps {bk bg : Bool} {s0 s : State} {x1 : Group} {x2 : Bytes} {x3 : Bool}
    (h : Keeps bk bg s0 s) : Keeps bk bg s0 (State.writeArea s x1 x2 x3) := by
  unfold State.writeArea
  repeat' first
    | (with_reducible assumption)
    | (with_reducible refine State.ite_keeps ?_ ?_)
    | (with_reducible refine State.updGroup_keeps ?_)
    | (with_reducible refine State.writeHost_keeps ?_)
    | (with_reducible refine State.writePages_keeps ?_)

theorem State.closeBlock_keeps {bk bg : Bool} {s0 s : State} {x1 : GroupOwner} {x2 : List Nat} {x3 : Bool}
    (h : Keeps bk bg s0 s) : Keeps bk bg s0 (State.closeBlock s x1 x2 x3) := by
  unfold State.closeBlock
  repeat' first
    | (with_reducible assumption)
    | (with_reducible refine State.ite_keeps ?_ ?_)
    | (with_reducible refine State.writeArea_keeps ?_)
    | (with_reducible refine State.updGroup_keeps ?_)
    | (with_reducible refine State.sendSignal_keeps ?_)
    | split

theorem State.setPolicy_keeps {bk bg : Bool} {s0 s : State} {x1 : GroupOwner} {x2 : Option Policy} {x3 : Bool}
    (h : Keeps bk bg s0 s) : Keeps bk bg s0 (State.setPolicy s x1 x2 x3) := by
  unfold State.setPolicy
  repeat' first
    | (with_reducible assumption)
    | (with_reducible refine State.ite_keeps ?_ ?_)
    | (with_reducible refine State.updGroup_keeps ?_)
    | (with_reducible refine State.closeBlock_keeps ?_)
    | split

theorem State.policyDecision_keeps {bk bg : Bool} {s0 s : State} {x1 : Nat} {x2 : Nat} {x3 : Bool}
    (h : Keeps bk bg s0 s) : Keeps bk bg s0 (State.policyDecision s x1 x2 x3) := by
  unfold State.policyDecision
  repeat' first
    | (with_reducible assumption)
    | (with_reducible refine State.closeBlock_keeps ?_)
    | (with_reducible refine State.updGroup_keeps ?_)
    | split

theorem State.putGroup_keeps {bk bg : Bool} {s0 s : State} {x1 : Group} {x2 : Nat} {x3 : Bool}
    (h : Keeps bk bg s0 s) : Keeps bk bg s0 (State.putGroup s x1 x2 x3) := by
  unfold State.putGroup
  repeat' first
    | (with_reducible assumption)
    | (with_reducible refine State.ite_keeps ?_ ?_)
    | (with_reducible refine State.updGroup_keeps ?_)
    | (with_reducible refine State.closeBlock_keeps ?_)

theorem State.scalePolicy_keeps {bk bg : Bool} {s0 s : State} {x1 : ReqKey} {x2 : Bool}
    (h : Keeps bk bg s0 s) : Keeps bk bg s0 (State.scalePolicy s x1 x2) := by
  unfold State.scalePolicy
  repeat' first
    | (with_reducible assumption)
    | (with_reducible refine State.refuse_keeps ?_)
    | (with_reducible refine State.okReq_keeps ?_)
    | (with_reducible refine State.setPolicy_keeps ?_)
    | split

theorem execScalePolicyDecision_keeps {bk bg : Bool} {s0 s : State} {x0 : Nat} {x1 : Nat} {x2 : Bool} {t : State}
    (e : execScalePolicyDecision x0 x1 x2 s = .next t) (h : Keeps bk bg s0 s) : Keeps bk bg s0 t := by
  cases e
  exact State.policyDecision_keeps h

theorem execScalePolicy_keeps {bk bg : Bool} {s0 s : State} {x0 : ReqKey} {x1 : Bool} {t : State}
    (e : execScalePolicy x0 x1 s = .next t) (h : Keeps bk bg s0 s) : Keeps bk bg s0 t := by
  cases e
  exact State.scalePolicy_keeps h

/-! ### SitePort -/

theorem State.bindStream_keeps {bk bg : Bool} {s0 s : State} {x1 : Nat} {x2 : BitVec 24} {x3 : Nat} {x4 : Bool}
    {x5 : Bytes} {x6 : Nat} {x7 : Nat} (h : Keeps bk bg s0 s) : Keeps bk bg s0
    (State.bindStream s x1 x2 x3 x4 x5 x6 x7) := by
  unfold State.bindStream
  repeat' first
    | (with_reducible assumption)
    | (with_reducible refine State.ite_keeps ?_ ?_)
    | (simp only [State.made_eq]; with_reducible refine State.made_keeps ?_ ?_ ?_)
    | with_reducible rfl
    | split

theorem State.updSiteLane_keeps {bk bg : Bool} {s0 s : State} {x1 : Nat} {x2 : SiteLane → SiteLane}
    (h : Keeps bk bg s0 s) : Keeps bk bg s0 (State.updSiteLane s x1 x2) := by
  unfold State.updSiteLane
  repeat' first
    | (with_reducible assumption)
    | (with_reducible refine State.ite_keeps ?_ ?_)
    | (simp only [State.made_eq]; with_reducible refine State.made_keeps ?_ ?_ ?_)
    | with_reducible rfl

theorem State.prpSupervision_keeps {bk bg : Bool} {s0 s : State} (h : Keeps bk bg s0 s) : Keeps bk bg s0
    (State.prpSupervision s) := by
  unfold State.prpSupervision
  repeat' first
    | (with_reducible assumption)
    | (with_reducible refine State.ite_keeps ?_ ?_)
    | (simp only [State.made_eq]; with_reducible refine State.made_keeps ?_ ?_ ?_)
    | with_reducible rfl

theorem State.respond_keeps {bk bg : Bool} {s0 s : State} {x1 : Nat} {x2 : Responder} {x3 : Bytes}
    (h : Keeps bk bg s0 s) : Keeps bk bg s0 (State.respond s x1 x2 x3) := by
  unfold State.respond
  repeat' first
    | (with_reducible assumption)
    | (with_reducible refine State.ite_keeps ?_ ?_)
    | (simp only [State.made_eq]; with_reducible refine State.made_keeps ?_ ?_ ?_)
    | with_reducible rfl

theorem execResponderFrame_keeps {bk bg : Bool} {s0 s : State} {x0 : Nat} {x1 : Responder} {x2 : List Byte}
    {t : State} (e : execResponderFrame x0 x1 x2 s = .next t) (h : Keeps bk bg s0 s) : Keeps bk bg s0 t := by
  cases e
  exact State.respond_keeps h

theorem State.steer_keeps {bk bg : Bool} {s0 s : State} (h : Keeps bk bg s0 s) : Keeps bk bg s0 (State.steer s) :=
  ⟨h.pending, h.keys, h.gens, h.canonical⟩

theorem State.siteLaneDown_keeps {bk bg : Bool} {s0 s : State} {x1 : Nat} (h : Keeps bk bg s0 s) : Keeps bk bg s0
    (State.siteLaneDown s x1) := by
  unfold State.siteLaneDown
  repeat' first
    | (with_reducible assumption)
    | (with_reducible refine State.ite_keeps ?_ ?_)
    | (with_reducible refine State.steer_keeps ?_)
    | (with_reducible refine State.updSiteLane_keeps ?_)

theorem State.atInstant_keeps {bk bg : Bool} {s0 s : State} {x1 : Nat} (h : Keeps bk bg s0 s) : Keeps bk bg s0
    (State.atInstant s x1) :=
  ⟨h.pending, h.keys, h.gens, h.canonical⟩

theorem State.updStream_keeps {bk bg : Bool} {s0 s : State} {x1 : Nat} {x2 : Stream → Stream}
    (h : Keeps bk bg s0 s) : Keeps bk bg s0 (State.updStream s x1 x2) :=
  ⟨h.pending, h.keys, h.gens, h.canonical⟩

theorem State.gateListEntry_keeps {bk bg : Bool} {s0 s : State} {x1 : Nat} {x2 : Nat}
    (h : Keeps bk bg s0 s) : Keeps bk bg s0 (State.gateListEntry s x1 x2) := by
  unfold State.gateListEntry
  repeat' first
    | (with_reducible assumption)
    | (with_reducible refine State.ite_keeps ?_ ?_)
    | (with_reducible refine State.atInstant_keeps ?_)
    | (with_reducible refine State.updSiteLane_keeps ?_)

theorem State.siteLaneUp_keeps {bk bg : Bool} {s0 s : State} {x1 : Nat} (h : Keeps bk bg s0 s) : Keeps bk bg s0
    (State.siteLaneUp s x1) := by
  unfold State.siteLaneUp
  repeat' first
    | (with_reducible assumption)
    | (with_reducible refine State.ite_keeps ?_ ?_)
    | (with_reducible refine State.updSiteLane_keeps ?_)

theorem execPrpSupervision_keeps {bk bg : Bool} {s0 s : State} {t : State} (e : execPrpSupervision s = .next t)
    (h : Keeps bk bg s0 s) : Keeps bk bg s0 t := by
  cases e
  exact State.prpSupervision_keeps h

theorem State.malformed_keeps {bk bg : Bool} {s0 s : State} {x1 : Nat} (h : Keeps bk bg s0 s) : Keeps bk bg s0
    (State.malformed s x1) := by
  unfold State.malformed
  repeat' first
    | (with_reducible assumption)
    | (with_reducible refine State.updStream_keeps ?_)

theorem State.setpointSend_keeps {bk bg : Bool} {s0 s : State} {x1 : Nat} {x2 : Nat}
    (h : Keeps bk bg s0 s) : Keeps bk bg s0 (State.setpointSend s x1 x2) := by
  unfold State.setpointSend
  repeat' first
    | (with_reducible assumption)
    | (with_reducible refine State.ite_keeps ?_ ?_)
    | (with_reducible refine State.atInstant_keeps ?_)
    | (with_reducible refine State.updStream_keeps ?_)
    | (with_reducible refine State.updSiteLane_keeps ?_)
    | (simp only [State.made_eq]; with_reducible refine State.made_keeps ?_ ?_ ?_)
    | with_reducible rfl
    | split
    | dsimp only

theorem State.discard_keeps {bk bg : Bool} {s0 s : State} {x1 : Nat} (h : Keeps bk bg s0 s) : Keeps bk bg s0
    (State.discard s x1) := by
  unfold State.discard
  repeat' first
    | (with_reducible assumption)
    | (with_reducible refine State.updSiteLane_keeps ?_)

theorem State.dedup_keeps {bk bg : Bool} {s0 s : State} {x1 : Nat} {x2 : Sys2Proof.SiteFrame} {t : State} {x : Bool}
    (e : State.dedup s x1 x2 = (t, x)) (h : Keeps bk bg s0 s) : Keeps bk bg s0 t := by
  unfold State.dedup at e
  dsimp only at e
  repeat' first
    | (with_reducible assumption)
    | split at e
    | cases e
    | (with_reducible refine State.updSiteLane_keeps ?_)
    | (simp only [State.made_eq]; with_reducible refine State.made_keeps ?_ rfl rfl)

theorem execSiteLaneDown_keeps {bk bg : Bool} {s0 s : State} {x0 : Nat} {t : State}
    (e : execSiteLaneDown x0 s = .next t) (h : Keeps bk bg s0 s) : Keeps bk bg s0 t := by
  cases e
  exact State.siteLaneDown_keeps h

theorem State.ptpMessage_keeps {bk bg : Bool} {s0 s : State} {x1 : Nat} {x2 : Bool} {x3 : Nat}
    (h : Keeps bk bg s0 s) : Keeps bk bg s0 (State.ptpMessage s x1 x2 x3) := by
  unfold State.ptpMessage
  repeat' first
    | (with_reducible assumption)
    | (with_reducible refine State.ite_keeps ?_ ?_)
    | (with_reducible refine State.steer_keeps ?_)
    | (with_reducible refine State.updSiteLane_keeps ?_)
    | (with_reducible refine State.atInstant_keeps ?_)

theorem execPtpMessage_keeps {bk bg : Bool} {s0 s : State} {x0 : Nat} {x1 : Bool} {x2 : Nat} {t : State}
    (e : execPtpMessage x0 x1 x2 s = .next t) (h : Keeps bk bg s0 s) : Keeps bk bg s0 t := by
  cases e
  exact State.ptpMessage_keeps h

theorem State.stopStream_keeps {bk bg : Bool} {s0 s : State} {x1 : Nat} (h : Keeps bk bg s0 s) : Keeps bk bg s0
    (State.stopStream s x1) := by
  unfold State.stopStream
  repeat' first
    | (with_reducible assumption)
    | (with_reducible refine State.updStream_keeps ?_)
    | (with_reducible refine State.updGroup_keeps ?_)

theorem execSiteLaneUp_keeps {bk bg : Bool} {s0 s : State} {x0 : Nat} {t : State} (e : execSiteLaneUp x0 s = .next t)
    (h : Keeps bk bg s0 s) : Keeps bk bg s0 t := by
  cases e
  exact State.siteLaneUp_keeps h

theorem State.frameDiscard_keeps {bk bg : Bool} {s0 s : State} {x1 : Nat} (h : Keeps bk bg s0 s) : Keeps bk bg s0
    (State.frameDiscard s x1) := by
  unfold State.frameDiscard
  repeat' first
    | (with_reducible assumption)
    | (with_reducible refine State.ite_keeps ?_ ?_)
    | (with_reducible refine State.discard_keeps ?_)

theorem State.streamBias_keeps {bk bg : Bool} {s0 s : State} {x1 : Nat} {x2 : Sys2Proof.Machine.Stream}
    {x3 : List Int} (h : Keeps bk bg s0 s) : Keeps bk bg s0 (State.streamBias s x1 x2 x3) := by
  unfold State.streamBias
  split
  · exact h
  · exact State.foldl_keeps (fun t i ht => State.updStream_keeps ht) (State.updNet_keeps h)

theorem execGateListEntry_keeps {bk bg : Bool} {s0 s : State} {x0 : Nat} {x1 : Nat} {t : State}
    (e : execGateListEntry x0 x1 s = .next t) (h : Keeps bk bg s0 s) : Keeps bk bg s0 t := by
  cases e
  exact State.gateListEntry_keeps h

theorem execFrameDiscard_keeps {bk bg : Bool} {s0 s : State} {x0 : Nat} {t : State}
    (e : execFrameDiscard x0 s = .next t) (h : Keeps bk bg s0 s) : Keeps bk bg s0 t := by
  cases e
  exact State.frameDiscard_keeps h

theorem execSetpointSend_keeps {bk bg : Bool} {s0 s : State} {x0 : Nat} {x1 : Nat} {t : State}
    (e : execSetpointSend x0 x1 s = .next t) (h : Keeps bk bg s0 s) : Keeps bk bg s0 t := by
  cases e
  exact State.setpointSend_keeps h

theorem State.sendVector_keeps {bk bg : Bool} {s0 s : State} {x1 : Nat} {x2 : Group} {x3 : List Nat} {x4 : Bytes}
    (h : Keeps bk bg s0 s) : Keeps bk bg s0 (State.sendVector s x1 x2 x3 x4) := by
  unfold State.sendVector
  repeat' first
    | (with_reducible assumption)
    | (with_reducible refine State.queueTransfer_keeps ?_)
    | (with_reducible refine State.foldl_keeps (fun t a h => ?_) ?_)
    | split

theorem State.arrive_keeps {bk bg : Bool} {s0 s : State} {x1 : Nat} {x2 : SiteFrame} {t : State}
    {x : Option (Nat × Stream)} (e : State.arrive s x1 x2 = (t, x)) (h : Keeps bk bg s0 s) : Keeps bk bg s0 t := by
  unfold State.arrive at e
  repeat' first
    | (with_reducible assumption)
    | split at e
    | (cases e)
    | (with_reducible refine State.discard_keeps ?_)
    | (with_reducible refine State.atInstant_keeps ?_)
    | (apply State.dedup_keeps; assumption)
    | (with_reducible refine State.updStream_keeps ?_)

theorem State.siteUnbind_keeps {bk bg : Bool} {s0 s : State} {x1 : ReqKey} (h : Keeps bk bg s0 s) : Keeps bk bg s0
    (State.siteUnbind s x1) := by
  unfold State.siteUnbind
  repeat' first
    | (with_reducible assumption)
    | (with_reducible refine State.ite_keeps ?_ ?_)
    | (with_reducible refine State.refuse_keeps ?_)
    | (with_reducible refine State.okReq_keeps ?_)
    | (with_reducible refine State.releaseStream_keeps ?_)
    | split

theorem State.sampleSegment_keeps {bk bg : Bool} {s0 s : State} {x1 : Nat} {x2 : SiteFrame}
    (h : Keeps bk bg s0 s) : Keeps bk bg s0 (State.sampleSegment s x1 x2) := by
  unfold State.sampleSegment
  repeat' first
    | (with_reducible assumption)
    | (with_reducible refine State.ite_keeps ?_ ?_)
    | (apply State.arrive_keeps; assumption)
    | (with_reducible refine State.malformed_keeps ?_)
    | (with_reducible refine State.updStream_keeps ?_)
    | split

theorem State.siteDiEdge_keeps {bk bg : Bool} {s0 s : State} {x1 : Nat} {x2 : Bool} {x3 : Nat}
    (h : Keeps bk bg s0 s) : Keeps bk bg s0 (State.siteDiEdge s x1 x2 x3) := by
  unfold State.siteDiEdge
  repeat' first
    | (with_reducible assumption)
    | (with_reducible refine State.ite_keeps ?_ ?_)
    | (with_reducible refine State.atInstant_keeps ?_)
    | (with_reducible refine State.eventSignal_keeps ?_)
    | (simp only [State.made_eq]; with_reducible refine State.made_keeps ?_ ?_ ?_)
    | with_reducible rfl

theorem State.bindBlock_keeps {bk bg : Bool} {s0 s : State} {x1 : ReqKey} {x2 : Request} {x3 : BitVec 24} {x4 : Nat}
    {x5 : Option Nat} {x6 : Bytes} (h : Keeps bk bg s0 s) : Keeps bk bg s0 (State.bindBlock s x1 x2 x3 x4 x5 x6) := by
  unfold State.bindBlock
  repeat' first
    | (with_reducible assumption)
    | (with_reducible refine State.ite_keeps ?_ ?_)
    | (with_reducible refine State.refuse_keeps ?_)
    | (with_reducible refine State.releaseStream_keeps ?_)
    | (with_reducible refine State.okReq_keeps ?_)
    | (with_reducible refine State.bindStream_keeps ?_)
    | split
    | dsimp only

theorem execSampleSegment_keeps {bk bg : Bool} {s0 s : State} {x0 : Nat} {x1 : SiteFrame} {t : State}
    (e : execSampleSegment x0 x1 s = .next t) (h : Keeps bk bg s0 s) : Keeps bk bg s0 t := by
  cases e
  exact State.sampleSegment_keeps h

theorem State.scaleRecords_keeps {bk bg : Bool} {s0 s : State} {x1 : Nat} {x2 : SiteFrame}
    (h : Keeps bk bg s0 s) : Keeps bk bg s0 (State.scaleRecords s x1 x2) := by
  unfold State.scaleRecords
  repeat' first
    | (with_reducible assumption)
    | (with_reducible refine State.ite_keeps ?_ ?_)
    | (apply State.arrive_keeps; assumption)
    | (with_reducible refine State.malformed_keeps ?_)
    | (with_reducible refine State.stopStream_keeps ?_)
    | (with_reducible refine State.updGroup_keeps ?_)
    | split
    | dsimp only

theorem State.bindMet_keeps {bk bg : Bool} {s0 s : State} {x1 : Request} {x2 : BitVec 24} {x3 : Bytes} {x4 : Nat}
    {x5 : SourceFind} {t : State} {x : State.Met} (e : State.bindMet s x1 x2 x3 x4 x5 = (t, x))
    (h : Keeps bk bg s0 s) : Keeps bk bg s0 t := by
  unfold State.bindMet at e
  repeat' first
    | (with_reducible assumption)
    | split at e
    | (cases e)
    | (apply State.sourceMet_keeps; assumption)

theorem execSiteUnbind_keeps {bk bg : Bool} {s0 s : State} {x0 : ReqKey} {t : State}
    (e : execSiteUnbind x0 s = .next t) (h : Keeps bk bg s0 s) : Keeps bk bg s0 t := by
  cases e
  exact State.siteUnbind_keeps h

theorem State.ownerWrite_keeps {bk bg : Bool} {s0 s : State} {x1 : Group} {x2 : Nat} {x3 : Bytes}
    (h : Keeps bk bg s0 s) : Keeps bk bg s0 (State.ownerWrite s x1 x2 x3) := by
  unfold State.ownerWrite
  repeat' first
    | (with_reducible assumption)
    | (with_reducible refine State.ite_keeps ?_ ?_)
    | (with_reducible refine State.writeHost_keeps ?_)
    | (with_reducible refine State.writePages_keeps ?_)

theorem execSiteDiEdge_keeps {bk bg : Bool} {s0 s : State} {x0 : Nat} {x1 : Bool} {x2 : Nat} {t : State}
    (e : execSiteDiEdge x0 x1 x2 s = .next t) (h : Keeps bk bg s0 s) : Keeps bk bg s0 t := by
  cases e
  exact State.siteDiEdge_keeps h

theorem execScaleRecords_keeps {bk bg : Bool} {s0 s : State} {x0 : Nat} {x1 : SiteFrame} {t : State}
    (e : execScaleRecords x0 x1 s = .next t) (h : Keeps bk bg s0 s) : Keeps bk bg s0 t := by
  cases e
  exact State.scaleRecords_keeps h

theorem State.streamAppend_keeps {bk bg : Bool} {s0 s : State} {x1 : Nat} {x2 : Stream} {x3 : Group} {x4 : List Int}
    {x5 : Nat} (h : Keeps bk bg s0 s) : Keeps bk bg s0 (State.streamAppend s x1 x2 x3 x4 x5) := by
  unfold State.streamAppend
  repeat' first
    | (with_reducible assumption)
    | (with_reducible refine State.ite_keeps ?_ ?_)
    | (with_reducible refine State.updStream_keeps ?_)
    | (with_reducible refine State.giveEntry_keeps ?_)
    | (with_reducible refine State.updStore_keeps ?_)
    | (with_reducible refine State.ownerWrite_keeps ?_)
    | split

theorem State.siteBind_keeps {bk bg : Bool} {s0 s : State} {x1 : ReqKey} {x2 : SourceFind}
    (h : Keeps bk bg s0 s) : Keeps bk bg s0 (State.siteBind s x1 x2) := by
  unfold State.siteBind
  repeat' first
    | (with_reducible assumption)
    | (with_reducible refine State.ite_keeps ?_ ?_)
    | (with_reducible refine State.refuse_keeps ?_)
    | (apply State.bindMet_keeps; assumption)
    | (with_reducible refine State.bindBlock_keeps ?_)
    | (with_reducible refine State.failMet_keeps ?_)
    | split
    | dsimp only

theorem execSiteBind_keeps {bk bg : Bool} {s0 s : State} {x0 : ReqKey} {x1 : SourceFind} {t : State}
    (e : execSiteBind x0 x1 s = .next t) (h : Keeps bk bg s0 s) : Keeps bk bg s0 t := by
  cases e
  exact State.siteBind_keeps h

theorem State.convertRequest_keeps {bk bg : Bool} {s0 s : State} {x1 : ReqKey} {x2 : Bool}
    (h : Keeps bk bg s0 s) : Keeps bk bg s0 (State.convertRequest s x1 x2) := by
  unfold State.convertRequest
  repeat' first
    | (with_reducible assumption)
    | (with_reducible refine State.ite_keeps ?_ ?_)
    | (with_reducible refine State.endReq_keeps ?_)
    | (with_reducible refine State.fillRest_keeps ?_)
    | (with_reducible refine State.updGroup_keeps ?_)
    | (with_reducible refine State.updReq_keeps ?_)
    | (with_reducible refine State.sendVector_keeps ?_)
    | (with_reducible refine State.bump_keeps ?_)
    | (with_reducible refine State.putGroup_keeps ?_)
    | (with_reducible refine State.appendNext_keeps ?_)
    | split
    | dsimp only

theorem State.formSetpoint_keeps {bk bg : Bool} {s0 s : State} {x0 : Nat} {x1 : Nat} {x2 : Bool} {x3 : Net}
    {x4 : List (List Nat)} {x6 : Nat} (h : Keeps bk bg s0 s) : Keeps bk bg s0
    (State.formSetpoint x0 x1 x2 x3 x4 s x6) := by
  unfold State.formSetpoint
  repeat' first
    | (with_reducible assumption)
    | (with_reducible refine State.ite_keeps ?_ ?_)
    | (with_reducible refine State.updStream_keeps ?_)
    | (with_reducible refine State.putGroup_keeps ?_)
    | (simp only [State.made_eq]; with_reducible refine State.made_keeps ?_ ?_ ?_)
    | with_reducible rfl
    | split

theorem State.convertStream_keeps {bk bg : Bool} {s0 s : State} {x1 : Nat} {x2 : Bool}
    (h : Keeps bk bg s0 s) : Keeps bk bg s0 (State.convertStream s x1 x2) := by
  unfold State.convertStream
  repeat' first
    | (with_reducible assumption)
    | (with_reducible refine State.ite_keeps ?_ ?_)
    | (with_reducible refine State.updStream_keeps ?_)
    | (with_reducible refine State.stopStream_keeps ?_)
    | (with_reducible refine State.updGroup_keeps ?_)
    | (with_reducible refine State.sendVector_keeps ?_)
    | (with_reducible refine State.bump_keeps ?_)
    | (with_reducible refine State.putGroup_keeps ?_)
    | (with_reducible refine State.streamAppend_keeps ?_)
    | (with_reducible refine State.streamBias_keeps ?_)
    | split

theorem State.formSetpoints_keeps {bk bg : Bool} {s0 s : State} {x1 : Request} {x2 : Nat} {x3 : Nat} {x4 : Bool}
    (h : Keeps bk bg s0 s) : Keeps bk bg s0 (State.formSetpoints s x1 x2 x3 x4) := by
  unfold State.formSetpoints
  repeat' first
    | (with_reducible assumption)
    | (with_reducible refine State.ite_keeps ?_ ?_)
    | (with_reducible refine State.formSetpoint_keeps ?_)
    | (with_reducible refine State.foldl_keeps (fun t a h => ?_) ?_)
    | split

theorem State.sampleConversion_keeps {bk bg : Bool} {s0 s : State} {x1 : SampleSource} {x2 : Bool}
    (h : Keeps bk bg s0 s) : Keeps bk bg s0 (State.sampleConversion s x1 x2) := by
  unfold State.sampleConversion
  repeat' first
    | (with_reducible assumption)
    | (with_reducible refine State.convertStream_keeps ?_)
    | (with_reducible refine State.convertRequest_keeps ?_)
    | split

theorem execSampleConversion_keeps {bk bg : Bool} {s0 s : State} {x0 : SampleSource} {x1 : Bool} {t : State}
    (e : execSampleConversion x0 x1 s = .next t) (h : Keeps bk bg s0 s) : Keeps bk bg s0 t := by
  cases e
  exact State.sampleConversion_keeps h

end Sys2Proof.Machine
end

