-- ==== Sys2Proof/Laws/Keeps5.lean ====
section
/-! SUPPORT. What the operations and commands of these files of the machine keep (Laws/Keeps): Clocks, Reset, Complete, Dump, Firmware. -/

namespace Sys2Proof.Machine

/-! ### Clocks -/

theorem State.managementFault_keeps {bk bg : Bool} {s0 s : State} {x1 : Nat} (h : Keeps bk bg s0 s) : Keeps bk bg s0
    (State.managementFault s x1) := by
  unfold State.managementFault
  repeat' first
    | (with_reducible assumption)
    | (with_reducible refine State.ite_keeps ?_ ?_)
    | (simp only [State.made_eq]; with_reducible refine State.made_keeps ?_ ?_ ?_)
    | with_reducible rfl

theorem State.sidebandAnswer_keeps {bk bg : Bool} {s0 s : State} {x1 : Nat} {x2 : W64}
    (h : Keeps bk bg s0 s) : Keeps bk bg s0 (State.sidebandAnswer s x1 x2) :=
  ⟨h.pending, h.keys, h.gens, h.canonical⟩

theorem State.crossCheck_keeps {bk bg : Bool} {s0 s : State} {x1 : PlaneFind} (h : Keeps bk bg s0 s) : Keeps bk bg s0
    (State.crossCheck s x1) := by
  unfold State.crossCheck
  repeat' first
    | (with_reducible assumption)
    | (with_reducible refine State.ite_keeps ?_ ?_)
    | (with_reducible refine State.managementFault_keeps ?_)
    | split

theorem State.clockBack_keeps {bk bg : Bool} {s0 s : State} {x1 : RefClock} (h : Keeps bk bg s0 s) : Keeps bk bg s0
    (State.clockBack s x1) := by
  unfold State.clockBack
  repeat' first
    | (with_reducible assumption)
    | (simp only [State.made_eq]; with_reducible refine State.made_keeps ?_ ?_ ?_)
    | with_reducible rfl
    | split

theorem State.watchdogExpired_keeps {bk bg : Bool} {s0 s : State} (h : Keeps bk bg s0 s) : Keeps bk bg s0
    (State.watchdogExpired s) := by
  unfold State.watchdogExpired
  repeat' first
    | (with_reducible assumption)
    | (with_reducible refine State.ite_keeps ?_ ?_)
    | (with_reducible refine State.managementFault_keeps ?_)

theorem State.sidebandWrite_keeps {bk bg : Bool} {s0 s : State} {x1 : Nat} {x2 : W64} {x3 : Bool}
    (h : Keeps bk bg s0 s) : Keeps bk bg s0 (State.sidebandWrite s x1 x2 x3) := by
  unfold State.sidebandWrite
  repeat' first
    | (with_reducible assumption)
    | (with_reducible refine State.ite_keeps ?_ ?_)
    | (with_reducible refine State.sidebandAnswer_keeps ?_)
    | (simp only [State.made_eq]; with_reducible refine State.made_keeps ?_ ?_ ?_)
    | with_reducible rfl

theorem State.siteClockLost_keeps {bk bg : Bool} {s0 s : State} (h : Keeps bk bg s0 s) : Keeps bk bg s0
    (State.siteClockLost s) := by
  unfold State.siteClockLost
  repeat' first
    | (with_reducible assumption)
    | (with_reducible refine State.ite_keeps ?_ ?_)
    | (with_reducible refine State.siteLaneDown_keeps ?_)
    | (simp only [State.made_eq]; with_reducible refine State.made_keeps ?_ ?_ ?_)
    | with_reducible rfl

theorem execClockReturn_keeps {bk bg : Bool} {s0 s : State} {x0 : RefClock} {t : State}
    (e : execClockReturn x0 s = .next t) (h : Keeps bk bg s0 s) : Keeps bk bg s0 t := by
  cases e
  exact State.clockBack_keeps h

theorem execRefclkSiteLoss_keeps {bk bg : Bool} {s0 s : State} {t : State} (e : execRefclkSiteLoss s = .next t)
    (h : Keeps bk bg s0 s) : Keeps bk bg s0 t := by
  cases e
  exact State.siteClockLost_keeps h

theorem execCoreCrossCheck_keeps {bk bg : Bool} {s0 s : State} {x0 : PlaneFind} {t : State}
    (e : execCoreCrossCheck x0 s = .next t) (h : Keeps bk bg s0 s) : Keeps bk bg s0 t := by
  cases e
  exact State.crossCheck_keeps h

theorem execWatchdogExpiry_keeps {bk bg : Bool} {s0 s : State} {t : State} (e : execWatchdogExpiry s = .next t)
    (h : Keeps bk bg s0 s) : Keeps bk bg s0 t := by
  cases e
  exact State.watchdogExpired_keeps h

theorem execSidebandWrite_keeps {bk bg : Bool} {s0 s : State} {x0 : Nat} {x1 : W64} {x2 : Bool} {t : State}
    (e : execSidebandWrite x0 x1 x2 s = .next t) (h : Keeps bk bg s0 s) : Keeps bk bg s0 t := by
  cases e
  exact State.sidebandWrite_keeps h

theorem State.sidebandRead_keeps {bk bg : Bool} {s0 s : State} {x1 : Nat} {x2 : Bool}
    (h : Keeps bk bg s0 s) : Keeps bk bg s0 (State.sidebandRead s x1 x2) := by
  unfold State.sidebandRead
  repeat' first
    | (with_reducible assumption)
    | (with_reducible refine State.ite_keeps ?_ ?_)
    | (with_reducible refine State.sidebandAnswer_keeps ?_)
    | (with_reducible refine State.regCleared_keeps ?_)
    | split

theorem execSidebandRead_keeps {bk bg : Bool} {s0 s : State} {x0 : Nat} {x1 : Bool} {t : State}
    (e : execSidebandRead x0 x1 s = .next t) (h : Keeps bk bg s0 s) : Keeps bk bg s0 t := by
  cases e
  exact State.sidebandRead_keeps h

theorem State.clockHost_keeps {bk bg : Bool} {s0 s : State} {x1 : Port} (h : Keeps bk bg s0 s) : Keeps bk bg s0
    (State.clockHost s x1) := by
  unfold State.clockHost
  repeat' first
    | (with_reducible assumption)
    | (with_reducible refine State.ite_keeps ?_ ?_)
    | (with_reducible refine State.hostLost_keeps ?_)

theorem State.clockPeer_keeps {bk bg : Bool} {s0 s : State} {x1 : Nat} (h : Keeps bk bg s0 s) : Keeps bk bg s0
    (State.clockPeer s x1) := by
  unfold State.clockPeer
  repeat' first
    | (with_reducible assumption)
    | (with_reducible refine State.ite_keeps ?_ ?_)
    | (with_reducible refine State.peerLost_keeps ?_)

theorem State.linkClockLost_keeps {bk bg : Bool} {s0 s : State} (h : Keeps bk bg s0 s) : Keeps bk bg s0
    (State.linkClockLost s) := by
  unfold State.linkClockLost
  repeat' first
    | (with_reducible assumption)
    | (with_reducible refine State.ite_keeps ?_ ?_)
    | (with_reducible refine State.clockPeer_keeps ?_)
    | (with_reducible refine State.clockHost_keeps ?_)
    | (with_reducible refine State.foldl_keeps (fun t a h => ?_) ?_)
    | (simp only [State.made_eq]; with_reducible refine State.made_keeps ?_ ?_ ?_)
    | with_reducible rfl

theorem execRefclkLinkLoss_keeps {bk bg : Bool} {s0 s : State} {t : State} (e : execRefclkLinkLoss s = .next t)
    (h : Keeps bk bg s0 s) : Keeps bk bg s0 t := by
  cases e
  exact State.linkClockLost_keeps h

theorem State.dropHub_keeps {bk bg : Bool} {s0 s : State} {x1 : Half} (h : Keeps bk bg s0 s) : Keeps bk bg s0
    (State.dropHub s x1) := by
  unfold State.dropHub
  repeat' first
    | (with_reducible assumption)
    | (with_reducible refine State.ite_keeps ?_ ?_)
    | (with_reducible refine State.hubFailed_keeps ?_)

theorem State.tcxoLost_keeps {bk bg : Bool} {s0 s : State} (h : Keeps bk bg s0 s) : Keeps bk bg s0 (State.tcxoLost s) := by
  unfold State.tcxoLost
  repeat' first
    | (with_reducible assumption)
    | (with_reducible refine State.ite_keeps ?_ ?_)
    | (with_reducible refine State.dropHub_keeps ?_)
    | (with_reducible refine State.managementFault_keeps ?_)
    | (simp only [State.made_eq]; with_reducible refine State.made_keeps ?_ ?_ ?_)
    | with_reducible rfl

theorem execTcxoAonLoss_keeps {bk bg : Bool} {s0 s : State} {t : State} (e : execTcxoAonLoss s = .next t)
    (h : Keeps bk bg s0 s) : Keeps bk bg s0 t := by
  cases e
  exact State.tcxoLost_keeps h

/-! ### Reset -/

theorem State.clearStreams_keeps {bk bg : Bool} {s0 s : State} (h : Keeps bk bg s0 s) : Keeps bk bg s0
    (State.clearStreams s) := by
  unfold State.clearStreams
  repeat' first
    | (with_reducible assumption)
    | (with_reducible refine State.releaseStream_keeps ?_)
    | (with_reducible refine State.foldl_keeps (fun t a h => ?_) ?_)
    | (simp only [State.made_eq]; with_reducible refine State.made_keeps ?_ ?_ ?_)
    | with_reducible rfl

theorem State.widen_keeps {bk bg : Bool} {s0 s : State} {x1 : Nat} (h : Keeps bk bg s0 s) : Keeps bk bg s0
    (State.widen s x1) :=
  ⟨h.pending, h.keys, h.gens, h.canonical⟩

theorem State.pRelease_keeps {bk bg : Bool} {s0 s : State} {x1 : Bool} {x2 : BitVec 2}
    (h : Keeps bk bg s0 s) : Keeps bk bg s0 (State.pRelease s x1 x2) := by
  unfold State.pRelease
  repeat' first
    | (with_reducible assumption)
    | (with_reducible refine State.ite_keeps ?_ ?_)
    | (simp only [State.made_eq]; with_reducible refine State.made_keeps ?_ ?_ ?_)
    | with_reducible rfl

theorem State.answerCleared_keeps {bk bg : Bool} {s0 s : State} {x1 : Nat} (h : Keeps bk bg s0 s) : Keeps bk bg s0
    (State.answerCleared s x1) := by
  unfold State.answerCleared
  repeat' first
    | (with_reducible assumption)
    | (with_reducible refine State.ite_keeps ?_ ?_)
    | (with_reducible refine State.sendPeer_keeps ?_)
    | (simp only [State.made_eq]; with_reducible refine State.made_keeps ?_ ?_ ?_)
    | with_reducible rfl

theorem State.clearS_keeps {bk : Bool} {s0 s : State} (h : Keeps bk false s0 s) : Keeps bk false s0 (State.clearS s) := by
  refine ⟨h.pending, h.keys, Bool.noConfusion, fun c => ?_⟩
  have k := h.canonical c
  exact ⟨k.1, rfl, k.2.2.1, k.2.2.2.1, fun p m => absurd m List.not_mem_nil⟩

theorem State.nrstRelease_keeps {bk bg : Bool} {s0 s : State} {x1 : Nat} (h : Keeps bk bg s0 s) : Keeps bk bg s0
    (State.nrstRelease s x1) := by
  unfold State.nrstRelease
  repeat' first
    | (with_reducible assumption)
    | (with_reducible refine State.ite_keeps ?_ ?_)
    | (simp only [State.made_eq]; with_reducible refine State.made_keeps ?_ ?_ ?_)
    | with_reducible rfl

theorem execPRelease_keeps {bk bg : Bool} {s0 s : State} {x0 : Bool} {x1 : BitVec 2} {t : State}
    (e : execPRelease x0 x1 s = .next t) (h : Keeps bk bg s0 s) : Keeps bk bg s0 t := by
  cases e
  exact State.pRelease_keeps h

theorem execNrstRelease_keeps {bk bg : Bool} {s0 s : State} {x0 : Nat} {t : State}
    (e : execNrstRelease x0 s = .next t) (h : Keeps bk bg s0 s) : Keeps bk bg s0 t := by
  cases e
  exact State.nrstRelease_keeps h

theorem State.enterHibernate_keeps {bk : Bool} {s0 s : State} {x1 : Bool}
    (h : Keeps bk false s0 s) : Keeps bk false s0 (State.enterHibernate s x1) := by
  unfold State.enterHibernate
  repeat' first
    | (with_reducible assumption)
    | (with_reducible refine State.clearS_keeps ?_)
    | (simp only [State.made_eq]; with_reducible refine State.made_keeps ?_ ?_ ?_)
    | with_reducible rfl

theorem State.abortEveryJob_keeps {bk bg : Bool} {s0 s : State} (h : Keeps bk bg s0 s) : Keeps bk bg s0
    (State.abortEveryJob s) := by
  unfold State.abortEveryJob
  repeat' first
    | (with_reducible assumption)
    | (with_reducible refine State.floodAbort_keeps ?_)
    | (with_reducible refine State.foldl_keeps (fun t a h => ?_) ?_)

theorem State.clearP_keeps {bk : Bool} {s0 s : State} (h : Keeps bk false s0 s) : Keeps bk false s0 (State.clearP s) := by
  unfold State.clearP
  repeat' first
    | (with_reducible assumption)
    | (with_reducible refine State.clearS_keeps ?_)
    | (simp only [State.made_eq]; with_reducible refine State.made_keeps ?_ ?_ ?_)
    | with_reducible rfl

theorem State.nrstEscalation_keeps {bk : Bool} {s0 s : State} (h : Keeps bk false s0 s) : Keeps bk false s0
    (State.nrstEscalation s) := by
  unfold State.nrstEscalation
  repeat' first
    | (with_reducible assumption)
    | (with_reducible refine State.ite_keeps ?_ ?_)
    | (with_reducible refine State.widen_keeps ?_)
    | (with_reducible refine State.clearS_keeps ?_)
    | (simp only [State.made_eq]; with_reducible refine State.made_keeps ?_ ?_ ?_)
    | with_reducible rfl

theorem State.railFail_keeps {bk : Bool} {s0 s : State} {x1 : Rail} (h : Keeps bk false s0 s) : Keeps bk false s0
    (State.railFail s x1) := by
  unfold State.railFail
  repeat' first
    | (with_reducible assumption)
    | (with_reducible refine State.ite_keeps ?_ ?_)
    | (with_reducible refine State.clearP_keeps ?_)
    | (simp only [State.made_eq]; with_reducible refine State.made_keeps ?_ ?_ ?_)
    | with_reducible rfl

theorem execNrstEscalation_keeps {bk : Bool} {s0 s : State} {t : State} (e : execNrstEscalation s = .next t)
    (h : Keeps bk false s0 s) : Keeps bk false s0 t := by
  cases e
  exact State.nrstEscalation_keeps h

theorem State.clearC_keeps {bk bg : Bool} {s0 s : State} (h : Keeps bk bg s0 s) : Keeps bk bg s0 (State.clearC s) := by
  unfold State.clearC
  repeat' first
    | (with_reducible assumption)
    | (with_reducible refine State.clearStreams_keeps ?_)
    | (with_reducible refine State.abortEveryJob_keeps ?_)
    | (with_reducible refine State.answerCleared_keeps ?_)
    | (with_reducible refine State.foldl_keeps (fun t a h => ?_) ?_)
    | (simp only [State.made_eq]; with_reducible refine State.made_keeps ?_ ?_ ?_)
    | with_reducible rfl
    | rfl

theorem State.nrstAssert_keeps {bk : Bool} {s0 s : State} (h : Keeps bk false s0 s) : Keeps bk false s0
    (State.nrstAssert s) := by
  unfold State.nrstAssert
  repeat' first
    | (with_reducible assumption)
    | (with_reducible refine State.ite_keeps ?_ ?_)
    | (with_reducible refine State.widen_keeps ?_)
    | (with_reducible refine State.clearS_keeps ?_)
    | (with_reducible refine State.clearC_keeps ?_)
    | (simp only [State.made_eq]; with_reducible refine State.made_keeps ?_ ?_ ?_)
    | with_reducible rfl
    | split

theorem execRailFail_keeps {bk : Bool} {s0 s : State} {x0 : Rail} {t : State} (e : execRailFail x0 s = .next t)
    (h : Keeps bk false s0 s) : Keeps bk false s0 t := by
  cases e
  exact State.railFail_keeps h

theorem execNrstAssert_keeps {bk : Bool} {s0 s : State} {t : State} (e : execNrstAssert s = .next t)
    (h : Keeps bk false s0 s) : Keeps bk false s0 t := by
  cases e
  exact State.nrstAssert_keeps h

/-! ### Complete -/

theorem State.followChain_keeps {bk bg : Bool} {s0 s : State} {x1 : Request} (h : Keeps bk bg s0 s) : Keeps bk bg s0
    (State.followChain s x1) := by
  unfold State.followChain
  repeat' first
    | (with_reducible assumption)
    | (with_reducible refine State.ite_keeps ?_ ?_)
    | (simp only [State.made_eq]; with_reducible refine State.made_keeps ?_ ?_ ?_)
    | with_reducible rfl
    | split

theorem State.enterLink_keeps {bk bg : Bool} {s0 s : State} {x1 : Chain} {x2 : Request}
    (h : Keeps bk bg s0 s) : Keeps bk bg s0 (State.enterLink s x1 x2) :=
  ⟨h.pending, h.keys, h.gens, h.canonical⟩

theorem State.settleSource_keeps {bk bg : Bool} {s0 s : State} {x1 : Request} (h : Keeps bk bg s0 s) : Keeps bk bg s0
    (State.settleSource s x1) := by
  unfold State.settleSource
  repeat' first
    | (with_reducible assumption)
    | (with_reducible refine State.ite_keeps ?_ ?_)
    | (with_reducible refine State.settlePatches_keeps ?_)

theorem State.openLoaded_keeps {bk bg : Bool} {s0 s : State} {x1 : Request} (h : Keeps bk bg s0 s) : Keeps bk bg s0
    (State.openLoaded s x1) := by
  unfold State.openLoaded
  repeat' first
    | (with_reducible assumption)
    | (with_reducible refine State.ite_keeps ?_ ?_)
    | (with_reducible refine State.updModel_keeps ?_)

theorem State.retire_keeps {bk bg : Bool} {s0 s : State} {x1 : Request} (h : Keeps bk bg s0 s) : Keeps bk bg s0
    (State.retire s x1) := by
  unfold State.retire
  repeat' first
    | (with_reducible assumption)
    | (with_reducible refine State.ite_keeps ?_ ?_)
    | (with_reducible refine State.dropReq_keeps ?_)
    | (with_reducible refine State.updReq_keeps ?_)

theorem State.recordSignal_keeps {bk bg : Bool} {s0 s : State} {x1 : Queue} {x2 : Request}
    (h : Keeps bk bg s0 s) : Keeps bk bg s0 (State.recordSignal s x1 x2) := by
  unfold State.recordSignal
  repeat' first
    | (with_reducible assumption)
    | (with_reducible refine State.ite_keeps ?_ ?_)
    | (with_reducible refine State.sendSignal_keeps ?_)

theorem State.checkLink_keeps {bk bg : Bool} {s0 s : State} {x1 : Chain} {x2 : Request}
    (h : Keeps bk bg s0 s) : Keeps bk bg s0 (State.checkLink s x1 x2) := by
  unfold State.checkLink
  repeat' first
    | (with_reducible assumption)
    | (with_reducible refine State.refuse_keeps ?_)
    | split

theorem State.chainNext_keeps {bk bg : Bool} {s0 s : State} {x1 : W64} {x2 : ChainFind}
    (h : Keeps bk bg s0 s) : Keeps bk bg s0 (State.chainNext s x1 x2) := by
  unfold State.chainNext
  repeat' first
    | (with_reducible assumption)
    | (with_reducible refine State.ite_keeps ?_ ?_)
    | (with_reducible refine State.refuse_keeps ?_)
    | (with_reducible refine State.enterLink_keeps ?_)
    | (with_reducible refine State.bump_keeps ?_)
    | (with_reducible refine State.faultData_keeps ?_)
    | (with_reducible refine State.noteBadWord_keeps ?_)
    | (with_reducible refine State.checkLink_keeps ?_)
    | (with_reducible refine State.countSramCorr_keeps ?_)
    | split

theorem State.settleUpdates_keeps {bk bg : Bool} {s0 s : State} (h : Keeps bk bg s0 s) : Keeps bk bg s0
    (State.settleUpdates s) := by
  unfold State.settleUpdates
  repeat' first
    | (with_reducible assumption)
    | (with_reducible refine State.applyUpdates_keeps ?_)
    | (with_reducible refine State.foldl_keeps (fun t a h => ?_) ?_)

theorem State.release_keeps {bk bg : Bool} {s0 s : State} {x1 : Sys2Proof.Machine.Request}
    (h : Keeps bk bg s0 s) : Keeps bk bg s0 (State.release s x1) := by
  unfold State.release
  split
  rename_i v t he
  have h1 : Keeps bk bg s0 (t.settleSource x1) := State.settleSource_keeps (State.takeFree_keeps he h)
  extract_lets t1 t2
  refine State.releasePatched_keeps ?_
  unfold t2
  split
  · exact h1
  · exact State.failDependents_keeps (State.resolveEdges_keeps h1)

theorem State.queueDestroyEnd_keeps {bk bg : Bool} {s0 s : State} {x1 : Nat} (h : Keeps bk bg s0 s) : Keeps bk bg s0
    (State.queueDestroyEnd s x1) := by
  unfold State.queueDestroyEnd
  repeat' first
    | (with_reducible assumption)
    | (with_reducible refine State.ite_keeps ?_ ?_)
    | (with_reducible refine State.okReq_keeps ?_)
    | (with_reducible refine State.freeQueue_keeps ?_)
    | (with_reducible refine State.foldl_keeps (fun t a h => ?_) ?_)
    | split

theorem execChainNext_keeps {bk bg : Bool} {s0 s : State} {x0 : W64} {x1 : ChainFind} {t : State}
    (e : execChainNext x0 x1 s = .next t) (h : Keeps bk bg s0 s) : Keeps bk bg s0 t := by
  cases e
  exact State.chainNext_keeps h

theorem execQueueDestroyEnd_keeps {bk bg : Bool} {s0 s : State} {x0 : Nat} {t : State}
    (e : execQueueDestroyEnd x0 s = .next t) (h : Keeps bk bg s0 s) : Keeps bk bg s0 t := by
  cases e
  exact State.queueDestroyEnd_keeps h

theorem State.putRecord_keeps {bk bg : Bool} {s0 s : State} {x1 : Nat} {x2 : Queue} {x3 : Request}
    (h : Keeps bk bg s0 s) : Keeps bk bg s0 (State.putRecord s x1 x2 x3) := by
  unfold State.putRecord
  repeat' first
    | (with_reducible assumption)
    | (with_reducible refine State.ite_keeps ?_ ?_)
    | (with_reducible refine State.updQueue_keeps ?_)
    | (with_reducible refine State.writeHost_keeps ?_)
    | (with_reducible refine State.writeLine_keeps ?_)
    | (with_reducible refine State.queueError_keeps ?_)
    | (simp only [State.made_eq]; with_reducible refine State.made_keeps ?_ ?_ ?_)
    | with_reducible rfl

theorem State.queueCreate_keeps {bk bg : Bool} {s0 s : State} {x1 : ReqKey} (h : Keeps bk bg s0 s) : Keeps bk bg s0
    (State.queueCreate s x1) := by
  unfold State.queueCreate
  repeat' first
    | (with_reducible assumption)
    | (with_reducible refine State.ite_keeps ?_ ?_)
    | (with_reducible refine State.refuse_keeps ?_)
    | (with_reducible refine State.touchHost_keeps ?_)
    | (with_reducible refine State.createQueue_keeps ?_)
    | (with_reducible refine State.okReq_keeps ?_)
    | (with_reducible refine State.assignSlots_keeps ?_)
    | split
    | dsimp only

theorem execQueueCreate_keeps {bk bg : Bool} {s0 s : State} {x0 : ReqKey} {t : State}
    (e : execQueueCreate x0 s = .next t) (h : Keeps bk bg s0 s) : Keeps bk bg s0 t := by
  cases e
  exact State.queueCreate_keeps h

theorem State.feKqcmdGo_keeps {bk bg : Bool} {s0 s : State} {x1 : Port} (h : Keeps bk bg s0 s) : Keeps bk bg s0
    (State.feKqcmdGo s x1) := by
  unfold State.feKqcmdGo
  repeat' first
    | (with_reducible assumption)
    | (with_reducible refine State.ite_keeps ?_ ?_)
    | (with_reducible refine State.onWrite_keeps (fun t h => ?_) ?_)
    | (with_reducible refine State.assignSlots_keeps ?_)
    | (with_reducible refine State.kqcmdGo_keeps ?_)

theorem execFeKqcmdGo_keeps {bk bg : Bool} {s0 s : State} {x0 : Port} {t : State} (e : execFeKqcmdGo x0 s = .next t)
    (h : Keeps bk bg s0 s) : Keeps bk bg s0 t := by
  cases e
  exact State.feKqcmdGo_keeps h

theorem State.abortQueue_keeps {bk bg : Bool} {s0 s : State} {x1 : Nat} (h : Keeps bk bg s0 s) : Keeps bk bg s0
    (State.abortQueue s x1) := by
  unfold State.abortQueue
  repeat' first
    | (with_reducible assumption)
    | (with_reducible refine State.stopReq_keeps ?_)
    | (with_reducible refine State.stopChain_keeps ?_)
    | (with_reducible refine State.foldl_keeps (fun t a h => ?_) ?_)
    | split

theorem State.complete_keeps {bk : Bool} {s0 s : State} {x1 : Sys2Proof.ReqKey} {x2 : Nat} {x3 : Nat} {x4 : Bool}
    (h : Keeps bk false s0 s) : Keeps bk false s0 (State.complete s x1 x2 x3 x4) := by
  unfold State.complete
  split
  · split
    · exact ⟨h.pending, h.keys, h.gens, h.canonical⟩
    · exact h
  · rename_i r _
    split
    · exact h
    · rename_i q _
      extract_lets setpoints
      clear_value setpoints
      split
      · exact h
      · have h1 : Keeps bk false s0 (if r.recorded = true then (s.putRecord r.queue q r).recordSignal q r else s) := by
          split
          · exact State.recordSignal_keeps (State.putRecord_keeps h)
          · exact h
        have h2 := State.formSetpoints_keeps (x1 := r) (x2 := x2) (x3 := x3) (x4 := x4) (State.openLoaded_keeps (x1 := r) h1)
        have h3 := State.settleOn_keeps (State.settleRet_keeps (State.settleUpdates_keeps (State.unloadAll_keeps (State.followChain_keeps (x1 := r)
          (State.release_keeps (x1 := r) (State.retire_keeps (x1 := r) h2))))))
        split
        · exact State.enterHibernate_keeps h3
        · exact h3

theorem State.queueDestroy_keeps {bk bg : Bool} {s0 s : State} {x1 : ReqKey} (h : Keeps bk bg s0 s) : Keeps bk bg s0
    (State.queueDestroy s x1) := by
  unfold State.queueDestroy
  repeat' first
    | (with_reducible assumption)
    | (with_reducible refine State.ite_keeps ?_ ?_)
    | (with_reducible refine State.refuse_keeps ?_)
    | (with_reducible refine State.updQueue_keeps ?_)
    | (with_reducible refine State.holdReq_keeps ?_)
    | (with_reducible refine State.dropSlotOf_keeps ?_)
    | (with_reducible refine State.keepWatch_keeps ?_)
    | (with_reducible refine State.writeLine_keeps ?_)
    | (with_reducible refine State.abortQueue_keeps ?_)
    | split
    | dsimp only

theorem execRequestComplete_keeps {bk : Bool} {s0 s : State} {x0 : ReqKey} {x1 : Nat} {x2 : Nat} {x3 : Bool}
    {t : State} (e : execRequestComplete x0 x1 x2 x3 s = .next t)
    (h : Keeps bk false s0 s) : Keeps bk false s0 t := by
  cases e
  exact State.complete_keeps h

theorem execQueueDestroy_keeps {bk bg : Bool} {s0 s : State} {x0 : ReqKey} {t : State}
    (e : execQueueDestroy x0 s = .next t) (h : Keeps bk bg s0 s) : Keeps bk bg s0 t := by
  cases e
  exact State.queueDestroy_keeps h

/-! ### Dump -/

theorem State.dumpTimeout_keeps {bk bg : Bool} {s0 s : State} {x1 : Nat} {x2 : HwUnit}
    (h : Keeps bk bg s0 s) : Keeps bk bg s0 (State.dumpTimeout s x1 x2) := by
  unfold State.dumpTimeout
  repeat' first
    | (with_reducible assumption)
    | (with_reducible refine State.ite_keeps ?_ ?_)
    | (with_reducible refine State.updCtx_keeps ?_)
    | split

theorem execDumpAckTimeout_keeps {bk bg : Bool} {s0 s : State} {x0 : Nat} {x1 : HwUnit} {t : State}
    (e : execDumpAckTimeout x0 x1 s = .next t) (h : Keeps bk bg s0 s) : Keeps bk bg s0 t := by
  cases e
  exact State.dumpTimeout_keeps h

theorem State.startDump_keeps {bk bg : Bool} {s0 s : State} {x1 : ReqKey} {x2 : Nat}
    (h : Keeps bk bg s0 s) : Keeps bk bg s0 (State.startDump s x1 x2) := by
  unfold State.startDump
  repeat' first
    | (with_reducible assumption)
    | (with_reducible refine State.ite_keeps ?_ ?_)
    | (with_reducible refine State.updCtx_keeps ?_)

theorem State.ctxDump_keeps {bk bg : Bool} {s0 s : State} {x1 : ReqKey} (h : Keeps bk bg s0 s) : Keeps bk bg s0
    (State.ctxDump s x1) := by
  unfold State.ctxDump
  repeat' first
    | (with_reducible assumption)
    | (with_reducible refine State.ite_keeps ?_ ?_)
    | (with_reducible refine State.refuse_keeps ?_)
    | (with_reducible refine State.startDump_keeps ?_)
    | (with_reducible refine State.holdReq_keeps ?_)
    | split

theorem execCtxDump_keeps {bk bg : Bool} {s0 s : State} {x0 : ReqKey} {t : State} (e : execCtxDump x0 s = .next t)
    (h : Keeps bk bg s0 s) : Keeps bk bg s0 t := by
  cases e
  exact State.ctxDump_keeps h

theorem State.counterReadAll_keeps {bk bg : Bool} {s0 s : State} {x1 : ReqKey}
    (h : Keeps bk bg s0 s) : Keeps bk bg s0 (State.counterReadAll s x1) := by
  unfold State.counterReadAll
  repeat' first
    | (with_reducible assumption)
    | (with_reducible refine State.okReq_keeps ?_)
    | (with_reducible refine State.writeFor_keeps ?_)
    | split

theorem execCounterReadAll_keeps {bk bg : Bool} {s0 s : State} {x0 : ReqKey} {t : State}
    (e : execCounterReadAll x0 s = .next t) (h : Keeps bk bg s0 s) : Keeps bk bg s0 t := by
  cases e
  exact State.counterReadAll_keeps h

theorem State.dumpWrite_keeps {bk bg : Bool} {s0 s : State} {x1 : Nat} (h : Keeps bk bg s0 s) : Keeps bk bg s0
    (State.dumpWrite s x1) := by
  unfold State.dumpWrite
  repeat' first
    | (with_reducible assumption)
    | (with_reducible refine State.ite_keeps ?_ ?_)
    | (with_reducible refine State.updCtx_keeps ?_)
    | (with_reducible refine State.writeFor_keeps ?_)
    | (with_reducible refine State.okReq_keeps ?_)
    | split

theorem execDumpWrite_keeps {bk bg : Bool} {s0 s : State} {x0 : Nat} {t : State} (e : execDumpWrite x0 s = .next t)
    (h : Keeps bk bg s0 s) : Keeps bk bg s0 t := by
  cases e
  exact State.dumpWrite_keeps h

/-! ### Firmware -/

theorem State.setNor_keeps {bk bg : Bool} {s0 s : State} {x1 : Option Bytes} (h : Keeps bk bg s0 s) : Keeps bk bg s0
    (State.setNor s x1) :=
  ⟨h.pending, h.keys, h.gens, h.canonical⟩

theorem State.restartPairs_keeps {bk bg : Bool} {s0 s : State} (h : Keeps bk bg s0 s) : Keeps bk bg s0
    (State.restartPairs s) :=
  ⟨h.pending, h.keys, h.gens, h.canonical⟩

theorem State.fwStatus_keeps {bk bg : Bool} {s0 s : State} {x1 : Byte} (h : Keeps bk bg s0 s) : Keeps bk bg s0
    (State.fwStatus s x1) :=
  ⟨h.pending, h.keys, h.gens, h.canonical⟩

theorem State.fwOp_keeps {bk bg : Bool} {s0 s : State} {x1 : Port} {x2 : BitVec 4} {x3 : State → State}
    (hx3 : ∀ t, Keeps bk bg s0 t → Keeps bk bg s0 (x3 t)) (h : Keeps bk bg s0 s) : Keeps bk bg s0
    (State.fwOp s x1 x2 x3) := by
  unfold State.fwOp
  repeat' first
    | (with_reducible assumption)
    | (with_reducible refine State.onRwl_keeps (fun t h => ?_) ?_)
    | (with_reducible refine hx3 _ ?_)
    | (simp only [State.made_eq]; with_reducible refine State.made_keeps ?_ ?_ ?_)
    | with_reducible rfl

theorem State.writeNor_keeps {bk bg : Bool} {s0 s : State} {x1 : Port} {x2 : Bool}
    (h : Keeps bk bg s0 s) : Keeps bk bg s0 (State.writeNor s x1 x2) := by
  unfold State.writeNor
  repeat' first
    | (with_reducible assumption)
    | (with_reducible refine State.ite_keeps ?_ ?_)
    | (with_reducible refine State.fwOp_keeps (fun t h => ?_) ?_)
    | (with_reducible refine State.fwStatus_keeps ?_)
    | (with_reducible refine State.setNor_keeps ?_)
    | split

theorem execFwWriteNor_keeps {bk bg : Bool} {s0 s : State} {x0 : Port} {x1 : Bool} {t : State}
    (e : execFwWriteNor x0 x1 s = .next t) (h : Keeps bk bg s0 s) : Keeps bk bg s0 t := by
  cases e
  exact State.writeNor_keeps h

theorem State.verify_keeps {bk bg : Bool} {s0 s : State} {x1 : Port} {x2 : Bool}
    (h : Keeps bk bg s0 s) : Keeps bk bg s0 (State.verify s x1 x2) := by
  unfold State.verify
  repeat' first
    | (with_reducible assumption)
    | (with_reducible refine State.fwOp_keeps (fun t h => ?_) ?_)
    | (with_reducible refine State.fwStatus_keeps ?_)
    | (simp only [State.made_eq]; with_reducible refine State.made_keeps ?_ ?_ ?_)
    | with_reducible rfl
    | split

theorem State.activate_keeps {bk bg : Bool} {s0 s : State} {x1 : Port} {x2 : Bool}
    (h : Keeps bk bg s0 s) : Keeps bk bg s0 (State.activate s x1 x2) := by
  unfold State.activate
  repeat' first
    | (with_reducible assumption)
    | (with_reducible refine State.ite_keeps ?_ ?_)
    | (with_reducible refine State.fwOp_keeps (fun t h => ?_) ?_)
    | (with_reducible refine State.fwStatus_keeps ?_)
    | (with_reducible refine State.restartPairs_keeps ?_)
    | (simp only [State.made_eq]; with_reducible refine State.made_keeps ?_ ?_ ?_)
    | with_reducible rfl
    | split

theorem execActivate_keeps {bk bg : Bool} {s0 s : State} {x0 : Port} {x1 : Bool} {t : State}
    (e : execActivate x0 x1 s = .next t) (h : Keeps bk bg s0 s) : Keeps bk bg s0 t := by
  cases e
  exact State.activate_keeps h

theorem execVerify_keeps {bk bg : Bool} {s0 s : State} {x0 : Port} {x1 : Bool} {t : State}
    (e : execVerify x0 x1 s = .next t) (h : Keeps bk bg s0 s) : Keeps bk bg s0 t := by
  cases e
  exact State.verify_keeps h

end Sys2Proof.Machine
end

