-- ==== Sys2Proof/Laws/Keeps6.lean ====
section
/-! SUPPORT. What the operations and commands of these files of the machine keep (Laws/Keeps): Peers, Power, RegWrite. -/

namespace Sys2Proof.Machine

/-! ### Peers -/

theorem State.sendResult_keeps {bk bg : Bool} {s0 s : State} {x1 : Nat} {x2 : Nat} {x3 : Bytes}
    (h : Keeps bk bg s0 s) : Keeps bk bg s0 (State.sendResult s x1 x2 x3) := by
  unfold State.sendResult
  repeat' first
    | (with_reducible assumption)
    | (with_reducible refine State.sendPeer_keeps ?_)

theorem State.passOn_keeps {bk bg : Bool} {s0 s : State} {x1 : Nat} {x2 : Nat} {x3 : Nat} {x4 : Nat} {x5 : Nat}
    {x6 : List Nat} {x7 : Bytes} (h : Keeps bk bg s0 s) : Keeps bk bg s0 (State.passOn s x1 x2 x3 x4 x5 x6 x7) := by
  unfold State.passOn
  repeat' first
    | (with_reducible assumption)
    | (with_reducible refine State.ite_keeps ?_ ?_)
    | (simp only [State.made_eq]; with_reducible refine State.made_keeps ?_ ?_ ?_)
    | with_reducible rfl

theorem State.sendLoaded_keeps {bk bg : Bool} {s0 s : State} {x1 : Nat} {x2 : Nat} {x3 : Nat} {x4 : W64} {x5 : W64}
    {x6 : Option PartShape} (h : Keeps bk bg s0 s) : Keeps bk bg s0 (State.sendLoaded s x1 x2 x3 x4 x5 x6) := by
  unfold State.sendLoaded
  repeat' first
    | (with_reducible assumption)
    | (with_reducible refine State.sendPeer_keeps ?_)

theorem State.sendPartial_keeps {bk bg : Bool} {s0 s : State} {x1 : Nat} {x2 : Nat} {x3 : Bool} {x4 : List Int}
    (h : Keeps bk bg s0 s) : Keeps bk bg s0 (State.sendPartial s x1 x2 x3 x4) := by
  unfold State.sendPartial
  repeat' first
    | (with_reducible assumption)
    | (with_reducible refine State.sendPeer_keeps ?_)

theorem State.sendOn_keeps {bk bg : Bool} {s0 s : State} {x1 : Nat} {x2 : List Nat}
    (h : Keeps bk bg s0 s) : Keeps bk bg s0 (State.sendOn s x1 x2) :=
  ⟨h.pending, h.keys, h.gens, h.canonical⟩

theorem State.dropPeer_keeps {bk bg : Bool} {s0 s : State} (h : Keeps bk bg s0 s) : Keeps bk bg s0 (State.dropPeer s) :=
  ⟨h.pending, h.keys, h.gens, h.canonical⟩

theorem State.tableArrives_keeps {bk bg : Bool} {s0 s : State} {x1 : Nat} {x2 : Nat} {x3 : List PartShape}
    (h : Keeps bk bg s0 s) : Keeps bk bg s0 (State.tableArrives s x1 x2 x3) := by
  unfold State.tableArrives
  repeat' first
    | (with_reducible assumption)
    | (with_reducible refine State.ite_keeps ?_ ?_)
    | (with_reducible refine State.dropPeer_keeps ?_)
    | (with_reducible refine State.updJob_keeps ?_)
    | (with_reducible refine State.sendLoaded_keeps ?_)
    | (with_reducible refine State.putJob_keeps ?_)
    | (simp only [State.made_eq]; with_reducible refine State.made_keeps ?_ ?_ ?_)
    | with_reducible rfl
    | split

theorem State.markLink_keeps {bk bg : Bool} {s0 s : State} {x1 : Nat} {x2 : Nat}
    (h : Keeps bk bg s0 s) : Keeps bk bg s0 (State.markLink s x1 x2) := by
  unfold State.markLink
  repeat' first
    | (with_reducible assumption)
    | (with_reducible refine State.updPeer_keeps ?_)
    | (simp only [State.made_eq]; with_reducible refine State.made_keeps ?_ ?_ ?_)
    | with_reducible rfl

theorem State.sendCuff_keeps {bk bg : Bool} {s0 s : State} {x1 : Nat} {x2 : Nat} {x3 : Nat} {x4 : List W64}
    (h : Keeps bk bg s0 s) : Keeps bk bg s0 (State.sendCuff s x1 x2 x3 x4) := by
  unfold State.sendCuff
  repeat' first
    | (with_reducible assumption)
    | (with_reducible refine State.ite_keeps ?_ ?_)
    | (simp only [State.made_eq]; with_reducible refine State.made_keeps ?_ ?_ ?_)
    | with_reducible rfl

theorem State.sendStats_keeps {bk bg : Bool} {s0 s : State} {x1 : Nat} {x2 : Sys2Proof.Machine.Run}
    {x3 : Sys2Proof.Machine.Sums} (h : Keeps bk bg s0 s) : Keeps bk bg s0 (State.sendStats s x1 x2 x3) := by
  unfold State.sendStats
  extract_lets frozen t
  have ht : Keeps bk bg s0 t := by
    unfold t
    split
    · exact State.sendResult_keeps (State.sendResult_keeps (State.sendResult_keeps h))
    · exact h
  exact State.sendResult_keeps (State.sendResult_keeps ht)

theorem State.routeArrives_keeps {bk bg : Bool} {s0 s : State} {x1 : Nat} {x2 : Nat} {x3 : List RouteItem}
    (h : Keeps bk bg s0 s) : Keeps bk bg s0 (State.routeArrives s x1 x2 x3) := by
  unfold State.routeArrives
  repeat' first
    | (with_reducible assumption)
    | (with_reducible refine State.ite_keeps ?_ ?_)
    | (with_reducible refine State.passOn_keeps ?_)
    | (simp only [State.made_eq]; with_reducible refine State.made_keeps ?_ ?_ ?_)
    | with_reducible rfl

theorem State.sendBest_keeps {bk bg : Bool} {s0 s : State} {x1 : Nat} {x2 : Run} {x3 : Net} {x4 : List Bool}
    (h : Keeps bk bg s0 s) : Keeps bk bg s0 (State.sendBest s x1 x2 x3 x4) := by
  unfold State.sendBest
  repeat' first
    | (with_reducible assumption)
    | (with_reducible refine State.ite_keeps ?_ ?_)
    | (with_reducible refine State.sendResult_keeps ?_)
    | (with_reducible refine State.foldl_keeps (fun t a h => ?_) ?_)

theorem State.takeIn_keeps {bk bg : Bool} {s0 s : State} (h : Keeps bk bg s0 s) : Keeps bk bg s0 (State.takeIn s) := by
  unfold State.takeIn
  repeat' first
    | (with_reducible assumption)
    | (with_reducible refine State.sendPeer_keeps ?_)
    | (with_reducible refine State.foldl_keeps (fun t a h => ?_) ?_)
    | (simp only [State.made_eq]; with_reducible refine State.made_keeps ?_ ?_ ?_)
    | with_reducible rfl

theorem State.past_keeps {bk bg : Bool} {s0 s : State} {x1 : Nat} {x2 : Nat} {x3 : Nat} {x4 : Nat} {x5 : Nat}
    {x6 : List Nat} {x7 : Bytes} (h : Keeps bk bg s0 s) : Keeps bk bg s0 (State.past s x1 x2 x3 x4 x5 x6 x7) := by
  unfold State.past
  repeat' first
    | (with_reducible assumption)
    | (with_reducible refine State.ite_keeps ?_ ?_)
    | (with_reducible refine State.dropPeer_keeps ?_)
    | (with_reducible refine State.passOn_keeps ?_)

theorem State.sendEnum_keeps {bk bg : Bool} {s0 s : State} {x0 : Nat} {x2 : Nat}
    (h : Keeps bk bg s0 s) : Keeps bk bg s0 (State.sendEnum x0 s x2) := by
  unfold State.sendEnum
  repeat' first
    | (with_reducible assumption)
    | (with_reducible refine State.sendOn_keeps ?_)
    | (simp only [State.made_eq]; with_reducible refine State.made_keeps ?_ ?_ ?_)
    | with_reducible rfl

theorem State.onJob_keeps {bk bg : Bool} {s0 s : State} {x1 : Nat} {x2 : Nat}
    {x3 : Sys2Proof.Machine.Job → Sys2Proof.Machine.State} (hx3 : ∀ j, Keeps bk bg s0 (x3 j))
    (h : Keeps bk bg s0 s) : Keeps bk bg s0 (State.onJob s x1 x2 x3) := by
  unfold State.onJob
  split
  · split
    · exact hx3 _
    · exact State.dropPeer_keeps h
  · exact State.dropPeer_keeps h

theorem State.enumBeyond_keeps {bk bg : Bool} {s0 s : State} {x1 : Nat} (h : Keeps bk bg s0 s) : Keeps bk bg s0
    (State.enumBeyond s x1) := by
  unfold State.enumBeyond
  repeat' first
    | (with_reducible assumption)
    | (with_reducible refine State.ite_keeps ?_ ?_)
    | (with_reducible refine State.sendEnum_keeps ?_)

theorem State.cuffSend_keeps {bk bg : Bool} {s0 s : State} {x1 : Nat} (h : Keeps bk bg s0 s) : Keeps bk bg s0
    (State.cuffSend s x1) := by
  unfold State.cuffSend
  repeat' first
    | (with_reducible assumption)
    | (with_reducible refine State.ite_keeps ?_ ?_)
    | (with_reducible refine State.sendCuff_keeps ?_)
    | (with_reducible refine State.updJob_keeps ?_)
    | (with_reducible refine State.foldl_keeps (fun t a h => ?_) ?_)
    | split

theorem State.peerTraining_keeps {bk bg : Bool} {s0 s : State} {x1 : Nat} {x2 : Training} {x3 : Nat}
    (h : Keeps bk bg s0 s) : Keeps bk bg s0 (State.peerTraining s x1 x2 x3) := by
  unfold State.peerTraining
  repeat' first
    | (with_reducible assumption)
    | (with_reducible refine State.ite_keeps ?_ ?_)
    | (with_reducible refine State.updPeer_keeps ?_)
    | (apply State.peerSession_keeps; assumption)
    | (with_reducible refine State.enumBeyond_keeps ?_)
    | split

theorem State.finishEnum_keeps {bk bg : Bool} {s0 s : State} (h : Keeps bk bg s0 s) : Keeps bk bg s0
    (State.finishEnum s) := by
  unfold State.finishEnum
  repeat' first
    | (with_reducible assumption)
    | (with_reducible refine State.ite_keeps ?_ ?_)
    | (with_reducible refine State.takeIn_keeps ?_)
    | (with_reducible refine State.sendOn_keeps ?_)
    | (simp only [State.made_eq]; with_reducible refine State.made_keeps ?_ ?_ ?_)
    | with_reducible rfl

theorem State.enumReply_keeps {bk bg : Bool} {s0 s : State} {x1 : Nat} {x2 : List EnumNode}
    (h : Keeps bk bg s0 s) : Keeps bk bg s0 (State.enumReply s x1 x2) := by
  unfold State.enumReply
  repeat' first
    | (with_reducible assumption)
    | (with_reducible refine State.ite_keeps ?_ ?_)
    | (with_reducible refine State.markLink_keeps ?_)
    | (with_reducible refine State.finishEnum_keeps ?_)
    | (simp only [State.made_eq]; with_reducible refine State.made_keeps ?_ ?_ ?_)
    | with_reducible rfl

theorem State.creditArrives_keeps {bk bg : Bool} {s0 s : State} {x1 : Nat} {x2 : Nat} {x3 : Nat} {x4 : Nat}
    (h : Keeps bk bg s0 s) : Keeps bk bg s0 (State.creditArrives s x1 x2 x3 x4) := by
  unfold State.creditArrives
  repeat' first
    | (with_reducible assumption)
    | (with_reducible refine State.onJob_keeps (fun j => ?_) ?_)
    | (with_reducible refine State.grantCredit_keeps ?_)
    | (with_reducible refine State.updJob_keeps ?_)

theorem State.cuffArrives_keeps {bk bg : Bool} {s0 s : State} {x1 : Nat} {x2 : Nat} {x3 : Nat} {x4 : List W64}
    (h : Keeps bk bg s0 s) : Keeps bk bg s0 (State.cuffArrives s x1 x2 x3 x4) := by
  unfold State.cuffArrives
  repeat' first
    | (with_reducible assumption)
    | (with_reducible refine State.ite_keeps ?_ ?_)
    | (with_reducible refine State.onJob_keeps (fun j => ?_) ?_)
    | (with_reducible refine State.sendCuff_keeps ?_)
    | (with_reducible refine State.foldl_keeps (fun t a h => ?_) ?_)
    | (simp only [State.made_eq]; with_reducible refine State.made_keeps ?_ ?_ ?_)
    | with_reducible rfl
    | split

theorem execCuffSend_keeps {bk bg : Bool} {s0 s : State} {x0 : Nat} {t : State} (e : execCuffSend x0 s = .next t)
    (h : Keeps bk bg s0 s) : Keeps bk bg s0 t := by
  cases e
  exact State.cuffSend_keeps h

theorem execRoute_keeps {bk bg : Bool} {s0 s : State} {x0 : Nat} {x1 : Nat} {x2 : List RouteItem} {t : State}
    (e : execRoute x0 x1 x2 s = .next t) (h : Keeps bk bg s0 s) : Keeps bk bg s0 t := by
  cases e
  exact State.routeArrives_keeps h

theorem execPeerLinkTraining_keeps {bk bg : Bool} {s0 s : State} {x0 : Nat} {x1 : Training} {x2 : Nat} {t : State}
    (e : execPeerLinkTraining x0 x1 x2 s = .next t) (h : Keeps bk bg s0 s) : Keeps bk bg s0 t := by
  cases e
  exact State.peerTraining_keeps h

theorem execCuff_keeps {bk bg : Bool} {s0 s : State} {x0 : Nat} {x1 : Nat} {x2 : Nat} {x3 : List W64} {t : State}
    (e : execCuff x0 x1 x2 x3 s = .next t) (h : Keeps bk bg s0 s) : Keeps bk bg s0 t := by
  cases e
  exact State.cuffArrives_keeps h

theorem State.enumArrives_keeps {bk bg : Bool} {s0 s : State} {x1 : Nat} {x2 : Nat}
    (h : Keeps bk bg s0 s) : Keeps bk bg s0 (State.enumArrives s x1 x2) := by
  unfold State.enumArrives
  repeat' first
    | (with_reducible assumption)
    | (with_reducible refine State.ite_keeps ?_ ?_)
    | (with_reducible refine State.markLink_keeps ?_)
    | (with_reducible refine State.finishEnum_keeps ?_)
    | (with_reducible refine State.sendEnum_keeps ?_)
    | (with_reducible refine State.foldl_keeps (fun t a h => ?_) ?_)
    | (simp only [State.made_eq]; with_reducible refine State.made_keeps ?_ ?_ ?_)
    | with_reducible rfl

theorem execEnumReply_keeps {bk bg : Bool} {s0 s : State} {x0 : Nat} {x1 : List EnumNode} {t : State}
    (e : execEnumReply x0 x1 s = .next t) (h : Keeps bk bg s0 s) : Keeps bk bg s0 t := by
  cases e
  exact State.enumReply_keeps h

theorem State.endPart_keeps {bk bg : Bool} {s0 s : State} {x1 : Nat} {x2 : Run} {x3 : Sums}
    (h : Keeps bk bg s0 s) : Keeps bk bg s0 (State.endPart s x1 x2 x3) := by
  unfold State.endPart
  repeat' first
    | (with_reducible assumption)
    | (with_reducible refine State.updNet_keeps ?_)
    | (with_reducible refine State.keepStates_keeps ?_)
    | (with_reducible refine State.dropRun_keeps ?_)
    | (with_reducible refine State.sendStats_keeps ?_)

theorem execEnum_keeps {bk bg : Bool} {s0 s : State} {x0 : Nat} {x1 : Nat} {t : State}
    (e : execEnum x0 x1 s = .next t) (h : Keeps bk bg s0 s) : Keeps bk bg s0 t := by
  cases e
  exact State.enumArrives_keeps h

theorem State.enumTimeout_keeps {bk bg : Bool} {s0 s : State} {x1 : Nat} (h : Keeps bk bg s0 s) : Keeps bk bg s0
    (State.enumTimeout s x1) := by
  unfold State.enumTimeout
  repeat' first
    | (with_reducible assumption)
    | (with_reducible refine State.ite_keeps ?_ ?_)
    | (with_reducible refine State.markLink_keeps ?_)
    | (with_reducible refine State.finishEnum_keeps ?_)
    | (simp only [State.made_eq]; with_reducible refine State.made_keeps ?_ ?_ ?_)
    | with_reducible rfl

theorem execCredit_keeps {bk bg : Bool} {s0 s : State} {x0 : Nat} {x1 : Nat} {x2 : Nat} {x3 : Nat} {t : State}
    (e : execCredit x0 x1 x2 x3 s = .next t) (h : Keeps bk bg s0 s) : Keeps bk bg s0 t := by
  cases e
  exact State.creditArrives_keeps h

theorem execEnumReplyTimeout_keeps {bk bg : Bool} {s0 s : State} {x0 : Nat} {t : State}
    (e : execEnumReplyTimeout x0 s = .next t) (h : Keeps bk bg s0 s) : Keeps bk bg s0 t := by
  cases e
  exact State.enumTimeout_keeps h

theorem State.abortDone_keeps {bk bg : Bool} {s0 s : State} {x1 : Nat} {x2 : Nat} {x3 : Nat}
    (h : Keeps bk bg s0 s) : Keeps bk bg s0 (State.abortDone s x1 x2 x3) := by
  unfold State.abortDone
  repeat' first
    | (with_reducible assumption)
    | (with_reducible refine State.ite_keeps ?_ ?_)
    | (with_reducible refine State.past_keeps ?_)
    | (with_reducible refine State.onJob_keeps (fun j => ?_) ?_)
    | (with_reducible refine State.jobDone_keeps ?_)
    | (with_reducible refine State.updJob_keeps ?_)

theorem State.unloadedArrives_keeps {bk bg : Bool} {s0 s : State} {x1 : Nat} {x2 : Nat} {x3 : Nat}
    (h : Keeps bk bg s0 s) : Keeps bk bg s0 (State.unloadedArrives s x1 x2 x3) := by
  unfold State.unloadedArrives
  repeat' first
    | (with_reducible assumption)
    | (with_reducible refine State.ite_keeps ?_ ?_)
    | (with_reducible refine State.past_keeps ?_)
    | (with_reducible refine State.onJob_keeps (fun j => ?_) ?_)
    | (with_reducible refine State.updJob_keeps ?_)
    | (with_reducible refine State.finishUnload_keeps ?_)
    | split

theorem execAbortDone_keeps {bk bg : Bool} {s0 s : State} {x0 : Nat} {x1 : Nat} {x2 : Nat} {t : State}
    (e : execAbortDone x0 x1 x2 s = .next t) (h : Keeps bk bg s0 s) : Keeps bk bg s0 t := by
  cases e
  exact State.abortDone_keeps h

theorem State.partArrives_keeps {bk : Bool} {s0 s : State} {x1 : Nat} {x2 : Nat} {x3 : Bytes}
    (h : Keeps bk false s0 s) : Keeps bk false s0 (State.partArrives s x1 x2 x3) := by
  unfold State.partArrives
  repeat' first
    | (with_reducible assumption)
    | (with_reducible refine State.ite_keeps ?_ ?_)
    | (with_reducible refine State.sendLoaded_keeps ?_)
    | (with_reducible refine State.dropPeer_keeps ?_)
    | (apply State.loadImage_keeps; assumption)
    | (with_reducible refine State.putJob_keeps ?_)
    | (with_reducible refine State.takeJobContext_keeps ?_)
    | (simp only [State.made_eq]; with_reducible refine State.made_keeps ?_ ?_ ?_)
    | with_reducible rfl
    | split
    | dsimp only

theorem State.reserved_keeps {bk bg : Bool} {s0 s : State} {x1 : Nat} {x2 : Nat} {x3 : Nat} {x4 : W64} {x5 : W64}
    {x6 : Reserving} (h : Keeps bk bg s0 s) : Keeps bk bg s0 (State.reserved s x1 x2 x3 x4 x5 x6) := by
  unfold State.reserved
  repeat' first
    | (with_reducible assumption)
    | (with_reducible refine State.ite_keeps ?_ ?_)
    | (with_reducible refine State.dropEmptyJob_keeps ?_)
    | (with_reducible refine State.endReq_keeps ?_)
    | (with_reducible refine State.undoPart_keeps ?_)
    | (with_reducible refine State.okReq_keeps ?_)
    | (with_reducible refine State.updJob_keeps ?_)
    | split

theorem execUnloaded_keeps {bk bg : Bool} {s0 s : State} {x0 : Nat} {x1 : Nat} {x2 : Nat} {t : State}
    (e : execUnloaded x0 x1 x2 s = .next t) (h : Keeps bk bg s0 s) : Keeps bk bg s0 t := by
  cases e
  exact State.unloadedArrives_keeps h

theorem State.imageArrives_keeps {bk : Bool} {s0 s : State} {x1 : Nat} {x2 : Nat} {x3 : Nat} {x4 : Bytes}
    {x5 : List PartShape} (h : Keeps bk false s0 s) : Keeps bk false s0 (State.imageArrives s x1 x2 x3 x4 x5) := by
  unfold State.imageArrives
  repeat' first
    | (with_reducible assumption)
    | (with_reducible refine State.ite_keeps ?_ ?_)
    | (with_reducible refine State.past_keeps ?_)
    | (with_reducible refine State.tableArrives_keeps ?_)
    | (with_reducible refine State.partArrives_keeps ?_)

theorem State.runHere_keeps {bk bg : Bool} {s0 s : State} {x1 : Nat} {x2 : Nat} {x3 : Nat} {x4 : Bytes} {x5 : W64}
    {x6 : W64} {x7 : Bytes} {x8 : Bytes} {x9 : Bytes} {x10 : List (Nat × Nat × Nat)}
    (h : Keeps bk bg s0 s) : Keeps bk bg s0 (State.runHere s x1 x2 x3 x4 x5 x6 x7 x8 x9 x10) := by
  unfold State.runHere
  repeat' first
    | (with_reducible assumption)
    | (with_reducible refine State.ite_keeps ?_ ?_)
    | (with_reducible refine State.onJob_keeps (fun j => ?_) ?_)
    | (with_reducible refine State.startOn_keeps ?_)
    | (with_reducible refine State.clearLanes_keeps ?_)
    | (with_reducible refine State.failRun_keeps ?_)
    | (with_reducible refine State.openCuffs_keeps ?_)
    | (with_reducible refine State.sendPartial_keeps ?_)
    | (with_reducible refine State.updRun_keeps ?_)
    | (apply State.startPart_error_keeps; assumption)
    | (apply State.startPart_ok_keeps; assumption)
    | (simp only [State.made_eq]; with_reducible refine State.made_keeps ?_ ?_ ?_)
    | with_reducible rfl
    | split
    | dsimp only

theorem State.loaded_keeps {bk bg : Bool} {s0 s : State} {x1 : Nat} {x2 : Nat} {x3 : Nat} {x4 : Nat} {x5 : W64}
    {x6 : W64} {x7 : Option PartShape} (h : Keeps bk bg s0 s) : Keeps bk bg s0
    (State.loaded s x1 x2 x3 x4 x5 x6 x7) := by
  unfold State.loaded
  repeat' first
    | (with_reducible assumption)
    | (with_reducible refine State.ite_keeps ?_ ?_)
    | (with_reducible refine State.past_keeps ?_)
    | (with_reducible refine State.onJob_keeps (fun j => ?_) ?_)
    | (with_reducible refine State.reserved_keeps ?_)
    | (with_reducible refine State.dropEmptyJob_keeps ?_)
    | (with_reducible refine State.endReq_keeps ?_)
    | (with_reducible refine State.updJob_keeps ?_)
    | (with_reducible refine State.refuse_keeps ?_)
    | (with_reducible refine State.undoPart_keeps ?_)
    | (with_reducible refine State.partLoaded_keeps ?_)
    | (with_reducible refine State.putJob_keeps ?_)
    | split
    | dsimp only

theorem execImage_keeps {bk : Bool} {s0 s : State} {x0 : Nat} {x1 : Nat} {x2 : Nat} {x3 : List Byte}
    {x4 : List PartShape} {t : State} (e : execImage x0 x1 x2 x3 x4 s = .next t)
    (h : Keeps bk false s0 s) : Keeps bk false s0 t := by
  cases e
  exact State.imageArrives_keeps h

theorem State.boundaryHere_keeps {bk bg : Bool} {s0 s : State} {x1 : Nat} {x2 : BoundaryMsg}
    (h : Keeps bk bg s0 s) : Keeps bk bg s0 (State.boundaryHere s x1 x2) := by
  unfold State.boundaryHere
  repeat' first
    | (with_reducible assumption)
    | (with_reducible refine State.ite_keeps ?_ ?_)
    | (with_reducible refine State.closeCuffs_keeps ?_)
    | (with_reducible refine State.endPart_keeps ?_)
    | (with_reducible refine State.sendBest_keeps ?_)
    | (with_reducible refine State.updRun_keeps ?_)
    | (with_reducible refine State.goOn_keeps ?_)
    | split

theorem State.runArrives_keeps {bk bg : Bool} {s0 s : State} {x1 : Nat} {x2 : Nat} {x3 : Nat} {x4 : Nat} {x5 : Bytes}
    {x6 : W64} {x7 : W64} {x8 : Bytes} {x9 : Bytes} {x10 : Bytes} {x11 : List (Nat × Nat × Nat)}
    (h : Keeps bk bg s0 s) : Keeps bk bg s0 (State.runArrives s x1 x2 x3 x4 x5 x6 x7 x8 x9 x10 x11) := by
  unfold State.runArrives
  repeat' first
    | (with_reducible assumption)
    | (with_reducible refine State.ite_keeps ?_ ?_)
    | (with_reducible refine State.runHere_keeps ?_)
    | (with_reducible refine State.past_keeps ?_)

theorem execRun_keeps {bk bg : Bool} {s0 s : State} {x0 : Nat} {x1 : Nat} {x2 : Nat} {x3 : Nat} {x4 : List Byte}
    {x5 : W64} {x6 : W64} {x7 : List Byte} {x8 : List Byte} {x9 : List Byte} {x10 : List (Nat × Nat × Nat)}
    {t : State} (e : execRun x0 x1 x2 x3 x4 x5 x6 x7 x8 x9 x10 s = .next t)
    (h : Keeps bk bg s0 s) : Keeps bk bg s0 t := by
  cases e
  exact State.runArrives_keeps h

theorem execLoaded_keeps {bk bg : Bool} {s0 s : State} {x0 : Nat} {x1 : Nat} {x2 : Nat} {x3 : Nat} {x4 : W64}
    {x5 : W64} {x6 : Option PartShape} {t : State} (e : execLoaded x0 x1 x2 x3 x4 x5 x6 s = .next t)
    (h : Keeps bk bg s0 s) : Keeps bk bg s0 t := by
  cases e
  exact State.loaded_keeps h

theorem State.boundaryArrives_keeps {bk bg : Bool} {s0 s : State} {x1 : Nat} {x2 : Nat} {x3 : Nat} {x4 : BoundaryMsg}
    (h : Keeps bk bg s0 s) : Keeps bk bg s0 (State.boundaryArrives s x1 x2 x3 x4) := by
  unfold State.boundaryArrives
  repeat' first
    | (with_reducible assumption)
    | (with_reducible refine State.onJob_keeps (fun j => ?_) ?_)
    | (with_reducible refine State.boundaryHere_keeps ?_)
    | (with_reducible refine State.sendForked_keeps ?_)

theorem execBoundary_keeps {bk bg : Bool} {s0 s : State} {x0 : Nat} {x1 : Nat} {x2 : Nat} {x3 : BoundaryMsg}
    {t : State} (e : execBoundary x0 x1 x2 x3 s = .next t) (h : Keeps bk bg s0 s) : Keeps bk bg s0 t := by
  cases e
  exact State.boundaryArrives_keeps h

theorem State.faultArrives_keeps {bk bg : Bool} {s0 s : State} {x1 : Nat} {x2 : Nat} {x3 : Nat} {x4 : Nat} {x5 : W64}
    (h : Keeps bk bg s0 s) : Keeps bk bg s0 (State.faultArrives s x1 x2 x3 x4 x5) := by
  unfold State.faultArrives
  repeat' first
    | (with_reducible assumption)
    | (with_reducible refine State.ite_keeps ?_ ?_)
    | (with_reducible refine State.past_keeps ?_)
    | (with_reducible refine State.onJob_keeps (fun j => ?_) ?_)
    | (with_reducible refine State.noteContext_keeps ?_)
    | (with_reducible refine State.invalidateKept_keeps ?_)
    | (with_reducible refine State.stopParts_keeps ?_)
    | (with_reducible refine State.resumeRuns_keeps ?_)
    | (with_reducible refine State.endReq_keeps ?_)
    | (with_reducible refine State.updJob_keeps ?_)
    | split

theorem State.unloadArrives_keeps {bk bg : Bool} {s0 s : State} {x1 : Nat} {x2 : Nat} {x3 : Nat}
    (h : Keeps bk bg s0 s) : Keeps bk bg s0 (State.unloadArrives s x1 x2 x3) := by
  unfold State.unloadArrives
  repeat' first
    | (with_reducible assumption)
    | (with_reducible refine State.ite_keeps ?_ ?_)
    | (with_reducible refine State.past_keeps ?_)
    | (with_reducible refine State.endJob_keeps ?_)
    | (with_reducible refine State.onJob_keeps (fun j => ?_) ?_)
    | (with_reducible refine State.beginUnload_keeps ?_)
    | (with_reducible refine State.sendPeer_keeps ?_)
    | split

theorem execFault_keeps {bk bg : Bool} {s0 s : State} {x0 : Nat} {x1 : Nat} {x2 : Nat} {x3 : Nat} {x4 : W64}
    {t : State} (e : execFault x0 x1 x2 x3 x4 s = .next t) (h : Keeps bk bg s0 s) : Keeps bk bg s0 t := by
  cases e
  exact State.faultArrives_keeps h

theorem State.closeRun_keeps {bk bg : Bool} {s0 s : State} {x1 : ReqKey} (h : Keeps bk bg s0 s) : Keeps bk bg s0
    (State.closeRun s x1) := by
  unfold State.closeRun
  repeat' first
    | (with_reducible assumption)
    | (with_reducible refine State.ite_keeps ?_ ?_)
    | (with_reducible refine State.resumeRuns_keeps ?_)
    | (with_reducible refine State.afterRun_keeps ?_)
    | (with_reducible refine State.endReq_keeps ?_)
    | (with_reducible refine State.writeRun_keeps ?_)
    | (with_reducible refine State.finishRun_keeps ?_)
    | (with_reducible refine State.updNet_keeps ?_)
    | split

theorem State.resultArrives_keeps {bk bg : Bool} {s0 s : State} {x1 : Nat} {x2 : Nat} {x3 : Nat} {x4 : Nat}
    {x5 : Bytes} (h : Keeps bk bg s0 s) : Keeps bk bg s0 (State.resultArrives s x1 x2 x3 x4 x5) := by
  unfold State.resultArrives
  repeat' first
    | (with_reducible assumption)
    | (with_reducible refine State.ite_keeps ?_ ?_)
    | (with_reducible refine State.past_keeps ?_)
    | (with_reducible refine State.onJob_keeps (fun j => ?_) ?_)
    | (with_reducible refine State.closeRun_keeps ?_)
    | (with_reducible refine State.updRun_keeps ?_)
    | (with_reducible refine State.putOut_keeps ?_)
    | split

theorem State.partialArrives_keeps {bk bg : Bool} {s0 s : State} {x1 : Nat} {x2 : Nat} {x3 : Nat} {x4 : Nat}
    {x5 : List Int} {x6 : Bool} (h : Keeps bk bg s0 s) : Keeps bk bg s0
    (State.partialArrives s x1 x2 x3 x4 x5 x6) := by
  unfold State.partialArrives
  repeat' first
    | (with_reducible assumption)
    | (with_reducible refine State.ite_keeps ?_ ?_)
    | (with_reducible refine State.past_keeps ?_)
    | (with_reducible refine State.onJob_keeps (fun j => ?_) ?_)
    | (with_reducible refine State.ladderReady_keeps ?_)
    | (with_reducible refine State.updRun_keeps ?_)
    | split

theorem execUnload_keeps {bk bg : Bool} {s0 s : State} {x0 : Nat} {x1 : Nat} {x2 : Nat} {t : State}
    (e : execUnload x0 x1 x2 s = .next t) (h : Keeps bk bg s0 s) : Keeps bk bg s0 t := by
  cases e
  exact State.unloadArrives_keeps h

theorem execPartialEnergy_keeps {bk bg : Bool} {s0 s : State} {x0 : Nat} {x1 : Nat} {x2 : Nat} {x3 : Nat}
    {x4 : List Int} {x5 : Bool} {t : State} (e : execPartialEnergy x0 x1 x2 x3 x4 x5 s = .next t)
    (h : Keeps bk bg s0 s) : Keeps bk bg s0 t := by
  cases e
  exact State.partialArrives_keeps h

theorem execResult_keeps {bk bg : Bool} {s0 s : State} {x0 : Nat} {x1 : Nat} {x2 : Nat} {x3 : Nat} {x4 : List Byte}
    {t : State} (e : execResult x0 x1 x2 x3 x4 s = .next t) (h : Keeps bk bg s0 s) : Keeps bk bg s0 t := by
  cases e
  exact State.resultArrives_keeps h

theorem State.abortArrives_keeps {bk bg : Bool} {s0 s : State} {x1 : Nat} {x2 : Nat} {x3 : Nat} {x4 : Nat}
    (h : Keeps bk bg s0 s) : Keeps bk bg s0 (State.abortArrives s x1 x2 x3 x4) := by
  unfold State.abortArrives
  repeat' first
    | (with_reducible assumption)
    | (with_reducible refine State.ite_keeps ?_ ?_)
    | (with_reducible refine State.abortJob_keeps ?_)
    | (with_reducible refine State.dropPeer_keeps ?_)
    | (with_reducible refine State.floodAbort_keeps ?_)
    | split

theorem execAbort_keeps {bk bg : Bool} {s0 s : State} {x0 : Nat} {x1 : Nat} {x2 : Nat} {x3 : Nat} {t : State}
    (e : execAbort x0 x1 x2 x3 s = .next t) (h : Keeps bk bg s0 s) : Keeps bk bg s0 t := by
  cases e
  exact State.abortArrives_keeps h

/-! ### Power -/

theorem State.mapLinks_keeps {bk bg : Bool} {s0 s : State} {x1 : LinkState → LinkState}
    (h : Keeps bk bg s0 s) : Keeps bk bg s0 (State.mapLinks s x1) :=
  ⟨h.pending, h.keys, h.gens, h.canonical⟩

theorem State.throttle_keeps {bk bg : Bool} {s0 s : State} {x1 : Nat} (h : Keeps bk bg s0 s) : Keeps bk bg s0
    (State.throttle s x1) := by
  unfold State.throttle
  repeat' first
    | (with_reducible assumption)
    | (with_reducible refine State.ite_keeps ?_ ?_)
    | (with_reducible refine State.updSite_keeps ?_)

theorem execEngineThrottle_keeps {bk bg : Bool} {s0 s : State} {x0 : Nat} {t : State}
    (e : execEngineThrottle x0 s = .next t) (h : Keeps bk bg s0 s) : Keeps bk bg s0 t := by
  cases e
  exact State.throttle_keeps h

theorem State.overshoot_keeps {bk bg : Bool} {s0 s : State} {x1 : Nat} (h : Keeps bk bg s0 s) : Keeps bk bg s0
    (State.overshoot s x1) := by
  unfold State.overshoot
  repeat' first
    | (with_reducible assumption)
    | (with_reducible refine State.ite_keeps ?_ ?_)
    | (with_reducible refine State.takeFree_snd_keeps ?_)
    | (with_reducible refine State.updSite_keeps ?_)

theorem State.unpowerHalf_keeps {bk bg : Bool} {s0 s : State} {x1 : Half} (h : Keeps bk bg s0 s) : Keeps bk bg s0
    (State.unpowerHalf s x1) := by
  unfold State.unpowerHalf
  repeat' first
    | (with_reducible assumption)
    | (with_reducible refine State.updSite_keeps ?_)
    | (with_reducible refine State.foldl_keeps (fun t a h => ?_) ?_)

theorem execPowerOvershoot_keeps {bk bg : Bool} {s0 s : State} {x0 : Nat} {t : State}
    (e : execPowerOvershoot x0 s = .next t) (h : Keeps bk bg s0 s) : Keeps bk bg s0 t := by
  cases e
  exact State.overshoot_keeps h

theorem State.enterStandbyHalf_keeps {bk bg : Bool} {s0 s : State} {x1 : Half}
    (h : Keeps bk bg s0 s) : Keeps bk bg s0 (State.enterStandbyHalf s x1) := by
  unfold State.enterStandbyHalf
  repeat' first
    | (with_reducible assumption)
    | (with_reducible refine State.setHalf_keeps ?_)
    | (with_reducible refine State.driveHalf_keeps ?_)
    | split

theorem State.loseLink_keeps {bk bg : Bool} {s0 s : State} {x1 : Request} (h : Keeps bk bg s0 s) : Keeps bk bg s0
    (State.loseLink s x1) := by
  unfold State.loseLink
  repeat' first
    | (with_reducible assumption)
    | (with_reducible refine State.invalidateKept_keeps ?_)
    | (with_reducible refine State.failParts_keeps ?_)
    | (with_reducible refine State.failUser_keeps ?_)
    | (with_reducible refine State.noteContext_keeps ?_)
    | split

theorem State.powerLimit_keeps {bk bg : Bool} {s0 s : State} {x1 : ReqKey} (h : Keeps bk bg s0 s) : Keeps bk bg s0
    (State.powerLimit s x1) := by
  unfold State.powerLimit
  repeat' first
    | (with_reducible assumption)
    | (with_reducible refine State.ite_keeps ?_ ?_)
    | (with_reducible refine State.okReq_keeps ?_)
    | (simp only [State.made_eq]; with_reducible refine State.made_keeps ?_ ?_ ?_)
    | with_reducible rfl
    | split

theorem State.loseChains_keeps {bk bg : Bool} {s0 s : State} {x1 : Half} (h : Keeps bk bg s0 s) : Keeps bk bg s0
    (State.loseChains s x1) := by
  unfold State.loseChains
  repeat' first
    | (with_reducible assumption)
    | (with_reducible refine State.loseLink_keeps ?_)
    | (with_reducible refine State.foldl_keeps (fun t a h => ?_) ?_)
    | (simp only [State.made_eq]; with_reducible refine State.made_keeps ?_ ?_ ?_)
    | with_reducible rfl

theorem State.wakeHalf_keeps {bk bg : Bool} {s0 s : State} {x1 : Half} {x2 : Bool}
    (h : Keeps bk bg s0 s) : Keeps bk bg s0 (State.wakeHalf s x1 x2) := by
  unfold State.wakeHalf
  repeat' first
    | (with_reducible assumption)
    | (with_reducible refine State.ite_keeps ?_ ?_)
    | (with_reducible refine State.driveHalf_keeps ?_)
    | (simp only [State.made_eq]; with_reducible refine State.made_keeps ?_ ?_ ?_)
    | with_reducible rfl

theorem State.standbyEntry_keeps {bk bg : Bool} {s0 s : State} (h : Keeps bk bg s0 s) : Keeps bk bg s0
    (State.standbyEntry s) := by
  unfold State.standbyEntry
  repeat' first
    | (with_reducible assumption)
    | (with_reducible refine State.ite_keeps ?_ ?_)
    | (with_reducible refine State.parkHinges_keeps ?_)
    | (with_reducible refine State.enterStandbyHalf_keeps ?_)
    | (with_reducible refine State.okReq_keeps ?_)
    | (with_reducible refine State.mapLinks_keeps ?_)
    | (simp only [State.made_eq]; with_reducible refine State.made_keeps ?_ ?_ ?_)
    | with_reducible rfl
    | split

theorem execStandbyEntry_keeps {bk bg : Bool} {s0 s : State} {t : State} (e : execStandbyEntry s = .next t)
    (h : Keeps bk bg s0 s) : Keeps bk bg s0 t := by
  cases e
  exact State.standbyEntry_keeps h

theorem execPowerSetPowerLimit_keeps {bk bg : Bool} {s0 s : State} {x0 : ReqKey} {t : State}
    (e : execPowerSetPowerLimit x0 s = .next t) (h : Keeps bk bg s0 s) : Keeps bk bg s0 t := by
  cases e
  exact State.powerLimit_keeps h

theorem State.leaveStandby_keeps {bk bg : Bool} {s0 s : State} {x1 : Option ReqKey}
    (h : Keeps bk bg s0 s) : Keeps bk bg s0 (State.leaveStandby s x1) := by
  unfold State.leaveStandby
  repeat' first
    | (with_reducible assumption)
    | (with_reducible refine State.settleOn_keeps ?_)
    | (with_reducible refine State.wakeHalf_keeps ?_)
    | (with_reducible refine State.mapLinks_keeps ?_)
    | (simp only [State.made_eq]; with_reducible refine State.made_keeps ?_ ?_ ?_)
    | with_reducible rfl

theorem State.changeHalf_keeps {bk bg : Bool} {s0 s : State} {x1 : ReqKey} {x2 : Half} {x3 : Nat}
    (h : Keeps bk bg s0 s) : Keeps bk bg s0 (State.changeHalf s x1 x2 x3) := by
  unfold State.changeHalf
  repeat' first
    | (with_reducible assumption)
    | (with_reducible refine State.ite_keeps ?_ ?_)
    | (with_reducible refine State.okReq_keeps ?_)
    | (with_reducible refine State.settleOn_keeps ?_)
    | (with_reducible refine State.driveHalf_keeps ?_)
    | (with_reducible refine State.holdReq_keeps ?_)
    | (with_reducible refine State.settleRet_keeps ?_)
    | (with_reducible refine State.parkHinges_keeps ?_)
    | (with_reducible refine State.emptyHalf_keeps ?_)
    | (with_reducible refine State.setHalf_keeps ?_)
    | (simp only [State.made_eq]; with_reducible refine State.made_keeps ?_ ?_ ?_)
    | with_reducible rfl

theorem State.powerModule_keeps {bk bg : Bool} {s0 s : State} {x1 : ReqKey} (h : Keeps bk bg s0 s) : Keeps bk bg s0
    (State.powerModule s x1) := by
  unfold State.powerModule
  repeat' first
    | (with_reducible assumption)
    | (with_reducible refine State.ite_keeps ?_ ?_)
    | (with_reducible refine State.leaveStandby_keeps ?_)
    | (with_reducible refine State.holdReq_keeps ?_)
    | (with_reducible refine State.okReq_keeps ?_)
    | (with_reducible refine State.refuse_keeps ?_)
    | (simp only [State.made_eq]; with_reducible refine State.made_keeps ?_ ?_ ?_)
    | with_reducible rfl
    | split

theorem State.powerHalf_keeps {bk bg : Bool} {s0 s : State} {x1 : ReqKey} (h : Keeps bk bg s0 s) : Keeps bk bg s0
    (State.powerHalf s x1) := by
  unfold State.powerHalf
  repeat' first
    | (with_reducible assumption)
    | (with_reducible refine State.ite_keeps ?_ ?_)
    | (with_reducible refine State.refuse_keeps ?_)
    | (with_reducible refine State.changeHalf_keeps ?_)
    | split

theorem State.autowake_keeps {bk bg : Bool} {s0 s : State} (h : Keeps bk bg s0 s) : Keeps bk bg s0 (State.autowake s) := by
  unfold State.autowake
  repeat' first
    | (with_reducible assumption)
    | (with_reducible refine State.ite_keeps ?_ ?_)
    | (with_reducible refine State.leaveStandby_keeps ?_)

theorem execPowerSetModuleState_keeps {bk bg : Bool} {s0 s : State} {x0 : ReqKey} {t : State}
    (e : execPowerSetModuleState x0 s = .next t) (h : Keeps bk bg s0 s) : Keeps bk bg s0 t := by
  cases e
  exact State.powerModule_keeps h

theorem execPowerSetEngineHalf_keeps {bk bg : Bool} {s0 s : State} {x0 : ReqKey} {t : State}
    (e : execPowerSetEngineHalf x0 s = .next t) (h : Keeps bk bg s0 s) : Keeps bk bg s0 t := by
  cases e
  exact State.powerHalf_keeps h

theorem execAutowake_keeps {bk bg : Bool} {s0 s : State} {t : State} (e : execAutowake s = .next t)
    (h : Keeps bk bg s0 s) : Keeps bk bg s0 t := by
  cases e
  exact State.autowake_keeps h

theorem State.loseHinged_keeps {bk bg : Bool} {s0 s : State} {x1 : Nat} (h : Keeps bk bg s0 s) : Keeps bk bg s0
    (State.loseHinged s x1) := by
  unfold State.loseHinged
  repeat' first
    | (with_reducible assumption)
    | (with_reducible refine State.ite_keeps ?_ ?_)
    | (with_reducible refine State.noteContext_keeps ?_)
    | (with_reducible refine State.loseModel_keeps ?_)
    | (simp only [State.made_eq]; with_reducible refine State.made_keeps ?_ ?_ ?_)
    | with_reducible rfl
    | split

theorem State.losePowered_keeps {bk bg : Bool} {s0 s : State} {x0 : Half} {x2 : Nat}
    (h : Keeps bk bg s0 s) : Keeps bk bg s0 (State.losePowered x0 s x2) := by
  unfold State.losePowered
  repeat' first
    | (with_reducible assumption)
    | (with_reducible refine State.ite_keeps ?_ ?_)
    | (with_reducible refine State.noteContext_keeps ?_)
    | (with_reducible refine State.loseModel_keeps ?_)
    | split

theorem State.losePower_keeps {bk bg : Bool} {s0 s : State} {x1 : Half} (h : Keeps bk bg s0 s) : Keeps bk bg s0
    (State.losePower s x1) := by
  unfold State.losePower
  repeat' first
    | (with_reducible assumption)
    | (with_reducible refine State.losePowered_keeps ?_)
    | (with_reducible refine State.unpowerHalf_keeps ?_)
    | (with_reducible refine State.loseChains_keeps ?_)
    | (with_reducible refine State.loseHinged_keeps ?_)
    | (with_reducible refine State.emptyHalf_keeps ?_)
    | (with_reducible refine State.eventSignal_keeps ?_)
    | (with_reducible refine State.foldl_keeps (fun t a h => ?_) ?_)
    | (simp only [State.made_eq]; with_reducible refine State.made_keeps ?_ ?_ ?_)
    | with_reducible rfl

theorem State.vinLoss_keeps {bk bg : Bool} {s0 s : State} {x1 : Sys2Proof.Half}
    (h : Keeps bk bg s0 s) : Keeps bk bg s0 (State.vinLoss s x1) := by
  unfold State.vinLoss
  have ht : Keeps bk bg s0 (((if s.half x1 = .tripped then s else s.setHalf x1 .off).losePower x1).parkHinges) :=
    State.parkHinges_keeps (State.losePower_keeps (State.ite_keeps h (State.setHalf_keeps h)))
  revert ht
  dsimp only
  generalize State.parkHinges _ = t
  intro ht
  cases x1 <;> dsimp only <;> split <;> rw [State.made_eq]
  all_goals first
    | exact State.made_keeps h rfl rfl
    | exact State.made_keeps ht rfl rfl

theorem State.tripHalf_keeps {bk bg : Bool} {s0 s : State} {x1 : Sys2Proof.Half}
    (h : Keeps bk bg s0 s) : Keeps bk bg s0 (State.tripHalf s x1) := by
  unfold State.tripHalf
  refine State.ite_keeps h ?_
  have ht : Keeps bk bg s0 ((s.setHalf x1 .tripped).losePower x1) := State.losePower_keeps (State.setHalf_keeps h)
  revert ht
  dsimp only
  generalize State.losePower _ _ = t
  intro ht
  split
  · rw [State.made_eq]
    exact State.made_keeps ht rfl rfl
  · rw [State.made_eq]
    exact State.made_keeps ht rfl rfl

theorem State.thermalTrip_keeps {bk bg : Bool} {s0 s : State} {x1 : TripSensor}
    (h : Keeps bk bg s0 s) : Keeps bk bg s0 (State.thermalTrip s x1) := by
  unfold State.thermalTrip
  repeat' first
    | (with_reducible assumption)
    | (with_reducible refine State.ite_keeps ?_ ?_)
    | (with_reducible refine State.tripHalf_keeps ?_)
    | (simp only [State.made_eq]; with_reducible refine State.made_keeps ?_ ?_ ?_)
    | with_reducible rfl
    | split

theorem execVinEngLoss_keeps {bk bg : Bool} {s0 s : State} {x0 : Half} {t : State}
    (e : execVinEngLoss x0 s = .next t) (h : Keeps bk bg s0 s) : Keeps bk bg s0 t := by
  cases e
  exact State.vinLoss_keeps h

theorem execThermalTrip_keeps {bk bg : Bool} {s0 s : State} {x0 : TripSensor} {t : State}
    (e : execThermalTrip x0 s = .next t) (h : Keeps bk bg s0 s) : Keeps bk bg s0 t := by
  cases e
  exact State.thermalTrip_keeps h

/-! ### RegWrite -/

theorem State.writeDw_keeps {bk bg : Bool} {s0 s : State} {x1 : Nat} {x2 : Nat}
    (h : Keeps bk bg s0 s) : Keeps bk bg s0 (State.writeDw s x1 x2) := by
  unfold State.writeDw
  repeat' first
    | (with_reducible assumption)
    | (with_reducible refine State.ite_keeps ?_ ?_)
    | (simp only [State.made_eq]; with_reducible refine State.made_keeps ?_ ?_ ?_)
    | with_reducible rfl

theorem State.clearHung_keeps {bk bg : Bool} {s0 s : State} {x1 : Nat} {x2 : W64}
    (h : Keeps bk bg s0 s) : Keeps bk bg s0 (State.clearHung s x1 x2) :=
  ⟨h.pending, h.keys, h.gens, h.canonical⟩

theorem State.writeHb_keeps {bk bg : Bool} {s0 s : State} {x1 : Port} {x2 : Nat} {x3 : Nat}
    (h : Keeps bk bg s0 s) : Keeps bk bg s0 (State.writeHb s x1 x2 x3) := by
  unfold State.writeHb
  repeat' first
    | (with_reducible assumption)
    | (with_reducible refine State.ite_keeps ?_ ?_)
    | (simp only [State.made_eq]; with_reducible refine State.made_keeps ?_ ?_ ?_)
    | with_reducible rfl

theorem State.writeSt_keeps {bk bg : Bool} {s0 s : State} {x1 : Port} {x2 : Nat} {x3 : Nat}
    (h : Keeps bk bg s0 s) : Keeps bk bg s0 (State.writeSt s x1 x2 x3) := by
  unfold State.writeSt
  repeat' first
    | (with_reducible assumption)
    | (with_reducible refine State.ite_keeps ?_ ?_)
    | (simp only [State.made_eq]; with_reducible refine State.made_keeps ?_ ?_ ?_)
    | with_reducible rfl

theorem State.writeFb_keeps {bk bg : Bool} {s0 s : State} {x1 : Port} {x2 : Nat} {x3 : Nat}
    (h : Keeps bk bg s0 s) : Keeps bk bg s0 (State.writeFb s x1 x2 x3) := by
  unfold State.writeFb
  repeat' first
    | (with_reducible assumption)
    | (with_reducible refine State.ite_keeps ?_ ?_)
    | (simp only [State.made_eq]; with_reducible refine State.made_keeps ?_ ?_ ?_)
    | with_reducible rfl

theorem State.writeCs_keeps {bk bg : Bool} {s0 s : State} {x1 : Nat} {x2 : Nat}
    (h : Keeps bk bg s0 s) : Keeps bk bg s0 (State.writeCs s x1 x2) := by
  unfold State.writeCs
  repeat' first
    | (with_reducible assumption)
    | (with_reducible refine State.ite_keeps ?_ ?_)
    | (simp only [State.made_eq]; with_reducible refine State.made_keeps ?_ ?_ ?_)
    | with_reducible rfl

theorem State.writeRs_keeps {bk bg : Bool} {s0 s : State} {x1 : Nat} {x2 : Nat}
    (h : Keeps bk bg s0 s) : Keeps bk bg s0 (State.writeRs s x1 x2) := by
  unfold State.writeRs
  repeat' first
    | (with_reducible assumption)
    | (with_reducible refine State.ite_keeps ?_ ?_)
    | (simp only [State.made_eq]; with_reducible refine State.made_keeps ?_ ?_ ?_)
    | with_reducible rfl

theorem State.writeHp_keeps {bk bg : Bool} {s0 s : State} {x1 : Nat} {x2 : Nat}
    (h : Keeps bk bg s0 s) : Keeps bk bg s0 (State.writeHp s x1 x2) := by
  unfold State.writeHp
  repeat' first
    | (with_reducible assumption)
    | (with_reducible refine State.ite_keeps ?_ ?_)
    | (simp only [State.made_eq]; with_reducible refine State.made_keeps ?_ ?_ ?_)
    | with_reducible rfl

theorem State.writeCx_keeps {bk bg : Bool} {s0 s : State} {x1 : Port} {x2 : Nat} {x3 : Nat}
    (h : Keeps bk bg s0 s) : Keeps bk bg s0 (State.writeCx s x1 x2 x3) := by
  unfold State.writeCx
  repeat' first
    | (with_reducible assumption)
    | (with_reducible refine State.ite_keeps ?_ ?_)
    | (with_reducible refine State.clearHung_keeps ?_)
    | (simp only [State.made_eq]; with_reducible refine State.made_keeps ?_ ?_ ?_)
    | with_reducible rfl

theorem State.writeMg_keeps {bk bg : Bool} {s0 s : State} {x1 : Nat} {x2 : Nat}
    (h : Keeps bk bg s0 s) : Keeps bk bg s0 (State.writeMg s x1 x2) := by
  unfold State.writeMg
  repeat' first
    | (with_reducible assumption)
    | (with_reducible refine State.ite_keeps ?_ ?_)
    | (simp only [State.made_eq]; with_reducible refine State.made_keeps ?_ ?_ ?_)
    | with_reducible rfl

theorem State.writePw_keeps {bk bg : Bool} {s0 s : State} {x1 : Port} {x2 : Nat} {x3 : Nat}
    (h : Keeps bk bg s0 s) : Keeps bk bg s0 (State.writePw s x1 x2 x3) := by
  unfold State.writePw
  repeat' first
    | (with_reducible assumption)
    | (with_reducible refine State.ite_keeps ?_ ?_)
    | (with_reducible refine State.updSite_keeps ?_)
    | (with_reducible refine State.foldl_keeps (fun t a h => ?_) ?_)
    | (simp only [State.made_eq]; with_reducible refine State.made_keeps ?_ ?_ ?_)
    | with_reducible rfl

theorem State.writeSite_keeps {bk bg : Bool} {s0 s : State} {x1 : Port} {x2 : Nat} {x3 : Nat} {x4 : Nat}
    (h : Keeps bk bg s0 s) : Keeps bk bg s0 (State.writeSite s x1 x2 x3 x4) := by
  unfold State.writeSite
  repeat' first
    | (with_reducible assumption)
    | (with_reducible refine State.ite_keeps ?_ ?_)
    | (with_reducible refine State.updSite_keeps ?_)

theorem State.writePr_keeps {bk bg : Bool} {s0 s : State} {x1 : Port} {x2 : Nat} {x3 : Nat}
    (h : Keeps bk bg s0 s) : Keeps bk bg s0 (State.writePr s x1 x2 x3) := by
  unfold State.writePr
  repeat' first
    | (with_reducible assumption)
    | (with_reducible refine State.ite_keeps ?_ ?_)
    | (simp only [State.made_eq]; with_reducible refine State.made_keeps ?_ ?_ ?_)
    | with_reducible rfl

theorem State.writeRn_keeps {bk bg : Bool} {s0 s : State} {x1 : Nat} {x2 : Nat}
    (h : Keeps bk bg s0 s) : Keeps bk bg s0 (State.writeRn s x1 x2) := by
  unfold State.writeRn
  repeat' first
    | (with_reducible assumption)
    | (with_reducible refine State.ite_keeps ?_ ?_)
    | (with_reducible refine State.releaseEntropy_keeps ?_)
    | (simp only [State.made_eq]; with_reducible refine State.made_keeps ?_ ?_ ?_)
    | with_reducible rfl

theorem State.registerRead_keeps {bk bg : Bool} {s0 s : State} {x1 : Port} {x2 : Nat} {x3 : Nat}
    (h : Keeps bk bg s0 s) : Keeps bk bg s0 (State.registerRead s x1 x2 x3) := by
  unfold State.registerRead
  repeat' first
    | (with_reducible assumption)
    | (with_reducible refine State.ite_keeps ?_ ?_)
    | (with_reducible refine State.onRead_keeps (fun t h => ?_) ?_)
    | (with_reducible refine State.badAccess_keeps ?_)
    | (with_reducible refine State.haspRead_keeps ?_)
    | (with_reducible refine State.rnData_keeps ?_)
    | (with_reducible refine State.rnDrbg_keeps ?_)
    | (with_reducible refine State.answer_keeps ?_)
    | (with_reducible refine State.regCleared_keeps ?_)
    | split

theorem execRcRead_keeps {bk bg : Bool} {s0 s : State} {x0 : Port} {x1 : Nat} {x2 : Nat} {t : State}
    (e : execRcRead x0 x1 x2 s = .next t) (h : Keeps bk bg s0 s) : Keeps bk bg s0 t := by
  cases e
  exact State.registerRead_keeps h

theorem State.writeFe_keeps {bk bg : Bool} {s0 s : State} {x1 : Port} {x2 : Nat} {x3 : Nat}
    (h : Keeps bk bg s0 s) : Keeps bk bg s0 (State.writeFe s x1 x2 x3) := by
  unfold State.writeFe
  repeat' first
    | (with_reducible assumption)
    | (with_reducible refine State.ite_keeps ?_ ?_)
    | (with_reducible refine State.assignSlots_keeps ?_)
    | (with_reducible refine State.kqcmdGo_keeps ?_)
    | (simp only [State.made_eq]; with_reducible refine State.made_keeps ?_ ?_ ?_)
    | with_reducible rfl

theorem State.regWritten_keeps {bk bg : Bool} {s0 s : State} {x1 : Port} {x2 : Nat} {x3 : Nat}
    (h : Keeps bk bg s0 s) : Keeps bk bg s0 (State.regWritten s x1 x2 x3) := by
  unfold State.regWritten
  repeat' first
    | (with_reducible assumption)
    | (with_reducible refine State.ite_keeps ?_ ?_)
    | (with_reducible refine State.writeMg_keeps ?_)
    | (with_reducible refine State.writeHp_keeps ?_)
    | (with_reducible refine State.writeFe_keeps ?_)
    | (with_reducible refine State.writeCx_keeps ?_)
    | (with_reducible refine State.writeSite_keeps ?_)
    | (with_reducible refine State.writeHb_keeps ?_)
    | (with_reducible refine State.writeFb_keeps ?_)
    | (with_reducible refine State.writePr_keeps ?_)
    | (with_reducible refine State.writeSt_keeps ?_)
    | (with_reducible refine State.writeRn_keeps ?_)
    | (with_reducible refine State.writePw_keeps ?_)
    | (with_reducible refine State.writeDw_keeps ?_)
    | (with_reducible refine State.writeRs_keeps ?_)
    | (with_reducible refine State.writeCs_keeps ?_)

theorem State.registerWrite_keeps {bk bg : Bool} {s0 s : State} {x1 : Port} {x2 : Nat} {x3 : Nat} {x4 : W64}
    (h : Keeps bk bg s0 s) : Keeps bk bg s0 (State.registerWrite s x1 x2 x3 x4) := by
  unfold State.registerWrite
  repeat' first
    | (with_reducible assumption)
    | (with_reducible refine State.ite_keeps ?_ ?_)
    | (with_reducible refine State.onWrite_keeps (fun t h => ?_) ?_)
    | (with_reducible refine State.dropAccess_keeps ?_)
    | (with_reducible refine State.haspWrite_keeps ?_)
    | (with_reducible refine State.haspBreak_keeps ?_)
    | (with_reducible refine State.onRwl_keeps (fun t h => ?_) ?_)
    | (with_reducible refine State.regWritten_keeps ?_)
    | split

theorem execRegisterWrite_keeps {bk bg : Bool} {s0 s : State} {x0 : Port} {x1 : Nat} {x2 : Nat} {x3 : W64}
    {t : State} (e : execRegisterWrite x0 x1 x2 x3 s = .next t) (h : Keeps bk bg s0 s) : Keeps bk bg s0 t := by
  cases e
  exact State.registerWrite_keeps h

end Sys2Proof.Machine
end

