-- ==== Sys2Proof/Laws/Keeps7.lean ====
section
/-! SUPPORT. What the operations and commands of these files of the machine keep (Laws/Keeps): Start, Ticks, Updates, Ward. -/

namespace Sys2Proof.Machine

/-! ### Start -/

theorem State.haltStart_keeps {bk bg : Bool} {s0 s : State} {x1 : Nat} (h : Keeps bk bg s0 s) : Keeps bk bg s0
    (State.haltStart s x1) :=
  ⟨h.pending, h.keys, h.gens, h.canonical⟩

theorem State.writeOther_keeps {bk bg : Bool} {s0 s : State} {x1 : Bytes} (h : Keeps bk bg s0 s) : Keeps bk bg s0
    (State.writeOther s x1) := by
  unfold State.writeOther
  repeat' first
    | (with_reducible assumption)
    | (with_reducible refine State.ite_keeps ?_ ?_)
    | (simp only [State.made_eq]; with_reducible refine State.made_keeps ?_ ?_ ?_)
    | with_reducible rfl

theorem State.selectOption_keeps {bk bg : Bool} {s0 s : State} (h : Keeps bk bg s0 s) : Keeps bk bg s0
    (State.selectOption s) := by
  unfold State.selectOption
  repeat' first
    | (with_reducible assumption)
    | (with_reducible refine State.ite_keeps ?_ ?_)
    | (simp only [State.made_eq]; with_reducible refine State.made_keeps ?_ ?_ ?_)
    | with_reducible rfl

theorem State.startReady_keeps {bk bg : Bool} {s0 s : State} {x1 : StartSeen} (h : Keeps bk bg s0 s) : Keeps bk bg s0
    (State.startReady s x1) := by
  unfold State.startReady
  repeat' first
    | (with_reducible assumption)
    | (with_reducible refine State.ite_keeps ?_ ?_)
    | (with_reducible refine State.haltStart_keeps ?_)
    | (simp only [State.made_eq]; with_reducible refine State.made_keeps ?_ ?_ ?_)
    | with_reducible rfl

theorem State.wardFromOption_keeps {bk bg : Bool} {s0 s : State} {x1 : Bool} (h : Keeps bk bg s0 s) : Keeps bk bg s0
    (State.wardFromOption s x1) := by
  unfold State.wardFromOption
  repeat' first
    | (with_reducible assumption)
    | (with_reducible refine State.ite_keeps ?_ ?_)
    | (simp only [State.made_eq]; with_reducible refine State.made_keeps ?_ ?_ ?_)
    | with_reducible rfl

theorem State.startRom_keeps {bk bg : Bool} {s0 s : State} (h : Keeps bk bg s0 s) : Keeps bk bg s0 (State.startRom s) := by
  unfold State.startRom
  repeat' first
    | (with_reducible assumption)
    | (with_reducible refine State.ite_keeps ?_ ?_)
    | (with_reducible refine State.entropyOn_keeps ?_)

theorem State.enterRecovery_keeps {bk bg : Bool} {s0 s : State} {x1 : Nat} (h : Keeps bk bg s0 s) : Keeps bk bg s0
    (State.enterRecovery s x1) :=
  ⟨h.pending, h.keys, h.gens, h.canonical⟩

theorem State.runFirmware_keeps {bk bg : Bool} {s0 s : State} {x1 : Bytes} (h : Keeps bk bg s0 s) : Keeps bk bg s0
    (State.runFirmware s x1) :=
  ⟨h.pending, h.keys, h.gens, h.canonical⟩

theorem State.rcvStatus_keeps {bk bg : Bool} {s0 s : State} {x1 : Byte} (h : Keeps bk bg s0 s) : Keeps bk bg s0
    (State.rcvStatus s x1) :=
  ⟨h.pending, h.keys, h.gens, h.canonical⟩

theorem State.startPeer_keeps {bk bg : Bool} {s0 s : State} {x1 : Nat} (h : Keeps bk bg s0 s) : Keeps bk bg s0
    (State.startPeer s x1) := by
  unfold State.startPeer
  repeat' first
    | (with_reducible assumption)
    | (with_reducible refine State.ite_keeps ?_ ?_)
    | (with_reducible refine State.updPeer_keeps ?_)

theorem State.counterRule_keeps {bk bg : Bool} {s0 s : State} (h : Keeps bk bg s0 s) : Keeps bk bg s0
    (State.counterRule s) := by
  unfold State.counterRule
  repeat' first
    | (with_reducible assumption)
    | (with_reducible refine State.ite_keeps ?_ ?_)
    | (with_reducible refine State.enterRecovery_keeps ?_)
    | (simp only [State.made_eq]; with_reducible refine State.made_keeps ?_ ?_ ?_)
    | with_reducible rfl

theorem State.wardCommit_keeps {bk bg : Bool} {s0 s : State} {x1 : Byte} (h : Keeps bk bg s0 s) : Keeps bk bg s0
    (State.wardCommit s x1) := by
  unfold State.wardCommit
  repeat' first
    | (with_reducible assumption)
    | (with_reducible refine State.ite_keeps ?_ ?_)
    | (with_reducible refine State.writeOther_keeps ?_)
    | (simp only [State.made_eq]; with_reducible refine State.made_keeps ?_ ?_ ?_)
    | with_reducible rfl

theorem State.startPort_keeps {bk bg : Bool} {s0 s : State} {x1 : Port} (h : Keeps bk bg s0 s) : Keeps bk bg s0
    (State.startPort s x1) := by
  unfold State.startPort
  repeat' first
    | (with_reducible assumption)
    | (with_reducible refine State.ite_keeps ?_ ?_)
    | (with_reducible refine State.setPort_keeps ?_)

theorem State.startHalf_keeps {bk bg : Bool} {s0 s : State} {x1 : Half} (h : Keeps bk bg s0 s) : Keeps bk bg s0
    (State.startHalf s x1) := by
  unfold State.startHalf
  repeat' first
    | (with_reducible assumption)
    | (with_reducible refine State.ite_keeps ?_ ?_)
    | (with_reducible refine State.updSite_keeps ?_)
    | (with_reducible refine State.setHalf_keeps ?_)
    | (with_reducible refine State.foldl_keeps (fun t a h => ?_) ?_)

theorem State.startFirmware_keeps {bk bg : Bool} {s0 s : State} {x1 : Bool} {t : State}
    (e : State.startFirmware s x1 = .ok t) (h : Keeps bk bg s0 s) : Keeps bk bg s0 t := by
  unfold State.startFirmware at e
  repeat' first
    | (with_reducible assumption)
    | (cases e; done)
    | split at e
    | (cases e)
    | (with_reducible refine State.runFirmware_keeps ?_)

theorem State.eraseStore_keeps {bg : Bool} {s0 s : State} (h : Keeps false bg s0 s) : Keeps false bg s0
    (State.eraseStore s) := by
  unfold State.eraseStore
  refine State.wardCommit_keeps ?_
  have h1 : Keeps false bg s0 ({ s with
      rs := { s.rs with keys := [] }
      cs := { s.cs with modes := List.replicate 128 .plain, mem := [], bad := [] }
      hb := { s.hb with pkgs := s.hb.pkgs.map fun p => { p with unclean := false, zeroing := 0, bad := [] } }
      dw := { s.dw with state := .open } } : State).flushEntropy := by
    refine State.flushEntropy_keeps ⟨h.pending, Bool.noConfusion, h.gens, fun c => ?_⟩
    have k := h.canonical c
    exact ⟨k.1, rfl, rfl, fun _ m => absurd m List.not_mem_nil, k.2.2.2.2⟩
  split
  · exact h1
  · exact State.entropyOn_keeps h1

theorem State.commit_keeps {bk bg : Bool} {s0 s : State} {x1 : Port} {x2 : Bool}
    (h : Keeps bk bg s0 s) : Keeps bk bg s0 (State.commit s x1 x2) := by
  unfold State.commit
  repeat' first
    | (with_reducible assumption)
    | (with_reducible refine State.ite_keeps ?_ ?_)
    | (with_reducible refine State.onRwl_keeps (fun t h => ?_) ?_)
    | (with_reducible refine State.takeFree_snd_keeps ?_)
    | (with_reducible refine State.writeOther_keeps ?_)
    | (simp only [State.made_eq]; with_reducible refine State.made_keeps ?_ ?_ ?_)
    | with_reducible rfl

theorem State.startPorts_keeps {bk bg : Bool} {s0 s : State} (h : Keeps bk bg s0 s) : Keeps bk bg s0
    (State.startPorts s) := by
  unfold State.startPorts
  generalize List.range 8 = l
  have h1 : Keeps bk bg s0 ({ s with
      pr := { s.pr with role := s.opt 4, nodeid := if s.opt 4 = 2 then s.opt 5 % 64 else 0 }
      st := { s.st with lane0 := s.startLane 0 s.st.lane0, lane1 := s.startLane 1 s.st.lane1 } } : State) := by
    rw [State.made_eq]
    exact State.made_keeps h rfl rfl
  have h2 := State.foldl_keeps (f := State.startPeer) (l := l) (fun t a h => State.startPeer_keeps h)
    (State.startPort_keeps (x1 := .b) (State.startPort_keeps (x1 := .a) h1))
  revert h2
  dsimp only
  generalize List.foldl _ _ _ = u
  intro h2
  split
  · refine State.finishEnum_keeps ?_
    rw [State.made_eq]
    exact State.made_keeps h2 rfl rfl
  · exact h2

theorem execCommit_keeps {bk bg : Bool} {s0 s : State} {x0 : Port} {x1 : Bool} {t : State}
    (e : execCommit x0 x1 s = .next t) (h : Keeps bk bg s0 s) : Keeps bk bg s0 t := by
  cases e
  exact State.commit_keeps h

theorem State.recover_keeps {bk bg : Bool} {s0 s : State} {x1 : Port} {x2 : BitVec 4} {x3 : State → State}
    (hx3 : ∀ t, Keeps bk bg s0 t → Keeps bk bg s0 (x3 t)) (h : Keeps bk bg s0 s) : Keeps bk bg s0
    (State.recover s x1 x2 x3) := by
  unfold State.recover
  repeat' first
    | (with_reducible assumption)
    | (with_reducible refine State.onRwl_keeps (fun t h => ?_) ?_)
    | (with_reducible refine hx3 _ ?_)
    | (simp only [State.made_eq]; with_reducible refine State.made_keeps ?_ ?_ ?_)
    | with_reducible rfl

theorem State.rcvWriteNor_keeps {bk bg : Bool} {s0 s : State} {x1 : Port} {x2 : Bool} {x3 : Bool}
    (h : Keeps bk bg s0 s) : Keeps bk bg s0 (State.rcvWriteNor s x1 x2 x3) := by
  unfold State.rcvWriteNor
  repeat' first
    | (with_reducible assumption)
    | (with_reducible refine State.ite_keeps ?_ ?_)
    | (with_reducible refine State.recover_keeps (fun t h => ?_) ?_)
    | (with_reducible refine State.rcvStatus_keeps ?_)
    | (simp only [State.made_eq]; with_reducible refine State.made_keeps ?_ ?_ ?_)
    | with_reducible rfl
    | split

theorem State.clearCnt_keeps {bk bg : Bool} {s0 s : State} {x1 : Port} (h : Keeps bk bg s0 s) : Keeps bk bg s0
    (State.clearCnt s x1) := by
  unfold State.clearCnt
  repeat' first
    | (with_reducible assumption)
    | (with_reducible refine State.recover_keeps (fun t h => ?_) ?_)
    | (with_reducible refine State.rcvStatus_keeps ?_)
    | (simp only [State.made_eq]; with_reducible refine State.made_keeps ?_ ?_ ?_)
    | with_reducible rfl

theorem execRcvWriteNor_keeps {bk bg : Bool} {s0 s : State} {x0 : Port} {x1 : Bool} {x2 : Bool} {t : State}
    (e : execRcvWriteNor x0 x1 x2 s = .next t) (h : Keeps bk bg s0 s) : Keeps bk bg s0 t := by
  cases e
  exact State.rcvWriteNor_keeps h

theorem execClearCnt_keeps {bk bg : Bool} {s0 s : State} {x0 : Port} {t : State} (e : execClearCnt x0 s = .next t)
    (h : Keeps bk bg s0 s) : Keeps bk bg s0 t := by
  cases e
  exact State.clearCnt_keeps h

theorem State.retireAtStart_keeps {bk bg : Bool} {s0 s : State} {x1 : Nat} (h : Keeps bk bg s0 s) : Keeps bk bg s0
    (State.retireAtStart s x1) := by
  unfold State.retireAtStart
  repeat' first
    | (with_reducible assumption)
    | (with_reducible refine State.ite_keeps ?_ ?_)
    | (with_reducible refine State.updSite_keeps ?_)
    | (with_reducible refine State.updHrow_keeps ?_)
    | (with_reducible refine State.loseEngine_keeps ?_)
    | split

theorem State.startHubs_keeps {bk bg : Bool} {s0 s : State} {x1 : Sys2Proof.StartSeen}
    (h : Keeps bk bg s0 s) : Keeps bk bg s0 (State.startHubs s x1) := by
  unfold State.startHubs
  refine State.foldl_keeps (fun t a h => ?_) ?_
  · split
    · exact State.loseEngine_keeps h
    · exact h
  · rw [State.made_eq]
    exact State.made_keeps h rfl rfl

theorem State.startEngines_keeps {bk bg : Bool} {s0 s : State} {x1 : StartSeen} {x2 : Bool}
    (h : Keeps bk bg s0 s) : Keeps bk bg s0 (State.startEngines s x1 x2) := by
  unfold State.startEngines
  repeat' first
    | (with_reducible assumption)
    | (with_reducible refine State.retireAtStart_keeps ?_)
    | (with_reducible refine State.dropTrip_keeps ?_)
    | (with_reducible refine State.parkHinges_keeps ?_)
    | (with_reducible refine State.startHalf_keeps ?_)
    | (with_reducible refine State.foldl_keeps (fun t a h => ?_) ?_)
    | (simp only [State.made_eq]; with_reducible refine State.made_keeps ?_ ?_ ?_)
    | with_reducible rfl

theorem State.startFrom6_keeps {bk bg : Bool} {s0 s : State} {x1 : Sys2Proof.StartSeen} {x2 : Bool}
    (h : Keeps bk bg s0 s) : Keeps bk bg s0 (State.startFrom6 s x1 x2) := by
  unfold State.startFrom6
  have h1 : Keeps bk bg s0 (if x2 = true then s.startHubs x1 else s) := by
    split
    · exact State.startHubs_keeps h
    · exact h
  extract_lets t1 t2
  have h2 : Keeps bk bg s0 t2 := State.startEngines_keeps h1
  clear_value t1 t2
  refine State.startReady_keeps ?_
  split
  · exact State.startPorts_keeps h2
  · exact h2

theorem State.loadRun_keeps {bk bg : Bool} {s0 s : State} {x1 : Port} {x2 : Bool} {x3 : StartSeen}
    (h : Keeps bk bg s0 s) : Keeps bk bg s0 (State.loadRun s x1 x2 x3) := by
  unfold State.loadRun
  repeat' first
    | (with_reducible assumption)
    | (with_reducible refine State.recover_keeps (fun t h => ?_) ?_)
    | (with_reducible refine State.rcvStatus_keeps ?_)
    | (with_reducible refine State.startFrom6_keeps ?_)
    | (with_reducible refine State.runFirmware_keeps ?_)
    | (with_reducible refine State.startRom_keeps ?_)
    | (simp only [State.made_eq]; with_reducible refine State.made_keeps ?_ ?_ ?_)
    | with_reducible rfl
    | split

theorem State.startFrom4_keeps {bk bg : Bool} {s0 s : State} {x1 : StartSeen} {x2 : Bool}
    (h : Keeps bk bg s0 s) : Keeps bk bg s0 (State.startFrom4 s x1 x2) := by
  unfold State.startFrom4
  repeat' first
    | (with_reducible assumption)
    | (with_reducible refine State.ite_keeps ?_ ?_)
    | (with_reducible refine State.startRom_keeps ?_)
    | (with_reducible refine State.haltStart_keeps ?_)
    | (apply State.startFirmware_keeps; assumption)
    | (with_reducible refine State.startFrom6_keeps ?_)
    | split

theorem execLoadRun_keeps {bk bg : Bool} {s0 s : State} {x0 : Port} {x1 : Bool} {x2 : StartSeen} {t : State}
    (e : execLoadRun x0 x1 x2 s = .next t) (h : Keeps bk bg s0 s) : Keeps bk bg s0 t := by
  cases e
  exact State.loadRun_keeps h

theorem State.startFrom3_keeps {bg : Bool} {s0 s : State} {x1 : StartSeen}
    (h : Keeps false bg s0 s) : Keeps false bg s0 (State.startFrom3 s x1) := by
  unfold State.startFrom3
  repeat' first
    | (with_reducible assumption)
    | (with_reducible refine State.ite_keeps ?_ ?_)
    | (with_reducible refine State.wardFromOption_keeps ?_)
    | (with_reducible refine State.selectOption_keeps ?_)
    | (with_reducible refine State.eraseStore_keeps ?_)
    | (with_reducible refine State.enterRecovery_keeps ?_)
    | (with_reducible refine State.counterRule_keeps ?_)
    | (with_reducible refine State.startFrom4_keeps ?_)
    | (simp only [State.made_eq]; with_reducible refine State.made_keeps ?_ ?_ ?_)
    | with_reducible rfl

theorem State.startSequence_keeps {bg : Bool} {s0 s : State} {x1 : StartSeen}
    (h : Keeps false bg s0 s) : Keeps false bg s0 (State.startSequence s x1) := by
  unfold State.startSequence
  repeat' first
    | (with_reducible assumption)
    | (with_reducible refine State.ite_keeps ?_ ?_)
    | (with_reducible refine State.startFrom3_keeps ?_)
    | (simp only [State.made_eq]; with_reducible refine State.made_keeps ?_ ?_ ?_)
    | with_reducible rfl

theorem execStartSequence_keeps {bg : Bool} {s0 s : State} {x0 : StartSeen} {t : State}
    (e : execStartSequence x0 s = .next t) (h : Keeps false bg s0 s) : Keeps false bg s0 t := by
  cases e
  exact State.startSequence_keeps h

/-! ### Ticks -/

theorem State.takeSites_keeps {bk bg : Bool} {s0 s : State} {x1 : Telemetry} (h : Keeps bk bg s0 s) : Keeps bk bg s0
    (State.takeSites s x1) :=
  ⟨h.pending, h.keys, h.gens, h.canonical⟩

theorem State.setAudits_keeps {bk bg : Bool} {s0 s : State} (h : Keeps bk bg s0 s) : Keeps bk bg s0 (State.setAudits s) :=
  ⟨h.pending, h.keys, h.gens, h.canonical⟩

theorem State.newTick_keeps {bk bg : Bool} {s0 s : State} (h : Keeps bk bg s0 s) : Keeps bk bg s0 (State.newTick s) :=
  ⟨h.pending, h.keys, h.gens, h.canonical⟩

theorem State.mirrorAll_keeps {bk bg : Bool} {s0 s : State} {x1 : Telemetry} (h : Keeps bk bg s0 s) : Keeps bk bg s0
    (State.mirrorAll s x1) :=
  ⟨h.pending, h.keys, h.gens, h.canonical⟩

theorem State.takeModule_keeps {bk bg : Bool} {s0 s : State} {x1 : Telemetry} (h : Keeps bk bg s0 s) : Keeps bk bg s0
    (State.takeModule s x1) :=
  ⟨h.pending, h.keys, h.gens, h.canonical⟩

theorem State.govern_keeps {bk bg : Bool} {s0 s : State} {x1 : Telemetry} (h : Keeps bk bg s0 s) : Keeps bk bg s0
    (State.govern s x1) := by
  unfold State.govern
  repeat' first
    | (with_reducible assumption)
    | (with_reducible refine State.updSite_keeps ?_)
    | (with_reducible refine State.foldl_keeps (fun t a h => ?_) ?_)

theorem State.checkRange_keeps {bk bg : Bool} {s0 s : State} {x1 : Telemetry} (h : Keeps bk bg s0 s) : Keeps bk bg s0
    (State.checkRange s x1) := by
  unfold State.checkRange
  repeat' first
    | (with_reducible assumption)
    | (with_reducible refine State.ite_keeps ?_ ?_)
    | (with_reducible refine State.eventSignal_keeps ?_)
    | (simp only [State.made_eq]; with_reducible refine State.made_keeps ?_ ?_ ?_)
    | with_reducible rfl

theorem State.managementTick_keeps {bk bg : Bool} {s0 s : State} {x1 : Sys2Proof.Telemetry}
    (h : Keeps bk bg s0 s) : Keeps bk bg s0 (State.managementTick s x1) := by
  unfold State.managementTick
  split
  · exact h
  · extract_lets u
    have hu : Keeps bk bg s0 u := State.newTick_keeps h
    clear_value u
    split
    · exact hu
    · exact State.settleOn_keeps (State.settleRet_keeps (State.setAudits_keeps (State.govern_keeps (State.checkRange_keeps
        (State.takeModule_keeps (State.takeSites_keeps (State.mirrorAll_keeps hu)))))))

theorem execManagementTick_keeps {bk bg : Bool} {s0 s : State} {x0 : Telemetry} {t : State}
    (e : execManagementTick x0 s = .next t) (h : Keeps bk bg s0 s) : Keeps bk bg s0 t := by
  cases e
  exact State.managementTick_keeps h

theorem State.hangDetected_keeps {bk bg : Bool} {s0 s : State} {x1 : Nat} {x2 : HwUnit}
    (h : Keeps bk bg s0 s) : Keeps bk bg s0 (State.hangDetected s x1 x2) := by
  unfold State.hangDetected
  repeat' first
    | (with_reducible assumption)
    | (with_reducible refine State.ite_keeps ?_ ?_)
    | (with_reducible refine State.updCtx_keeps ?_)
    | (with_reducible refine State.eventSignal_keeps ?_)
    | (with_reducible refine State.noteContext_keeps ?_)
    | (with_reducible refine State.resetContext_keeps ?_)
    | (simp only [State.made_eq]; with_reducible refine State.made_keeps ?_ ?_ ?_)
    | with_reducible rfl

theorem execHangDetected_keeps {bk bg : Bool} {s0 s : State} {x0 : Nat} {x1 : HwUnit} {t : State}
    (e : execHangDetected x0 x1 s = .next t) (h : Keeps bk bg s0 s) : Keeps bk bg s0 t := by
  cases e
  exact State.hangDetected_keeps h

/-! ### Updates -/

theorem State.queueScales_keeps {bk bg : Bool} {s0 s t : State} {i : Nat} {l : List (Nat × List (Nat × Bytes))}
    (e : State.queueScales s i l = .ok t) (h : Keeps bk bg s0 s) : Keeps bk bg s0 t := by
  induction l generalizing s with
  | nil => cases e; exact h
  | cons x l ih =>
    obtain ⟨g, recs⟩ := x
    unfold State.queueScales at e
    split at e
    · exact ih e h
    · split at e
      · cases e
      · exact ih e (State.updGroup_keeps h)

theorem State.placeUpdate_keeps {bk bg : Bool} {s0 s : State} {x1 : ReqKey} {x2 : Nat} {x3 : RowUpdate}
    (h : Keeps bk bg s0 s) : Keeps bk bg s0 (State.placeUpdate s x1 x2 x3) := by
  unfold State.placeUpdate
  repeat' first
    | (with_reducible assumption)
    | (with_reducible refine State.ite_keeps ?_ ?_)
    | (with_reducible refine State.holdReq_keeps ?_)
    | (with_reducible refine State.updNet_keeps ?_)
    | (with_reducible refine State.applyUpdates_keeps ?_)
    | (with_reducible refine State.applyHeldUpdate_keeps ?_)
    | split

theorem State.openRows_keeps {bk bg : Bool} {s0 s : State} {x1 : ReqKey} {x2 : Request} {x3 : Nat} {x4 : Model}
    {x5 : Net} (h : Keeps bk bg s0 s) : Keeps bk bg s0 (State.openRows s x1 x2 x3 x4 x5) := by
  unfold State.openRows
  repeat' first
    | (with_reducible assumption)
    | (with_reducible refine State.refuse_keeps ?_)
    | (apply State.queueScales_keeps; assumption)
    | (with_reducible refine State.endReq_keeps ?_)
    | (with_reducible refine State.placeUpdate_keeps ?_)
    | (with_reducible refine State.startOn_keeps ?_)
    | split
    | dsimp only

theorem State.updateRows_keeps {bk bg : Bool} {s0 s : State} {x1 : ReqKey} {x2 : SourceFind}
    (h : Keeps bk bg s0 s) : Keeps bk bg s0 (State.updateRows s x1 x2) := by
  unfold State.updateRows
  repeat' first
    | (with_reducible assumption)
    | (with_reducible refine State.ite_keeps ?_ ?_)
    | (with_reducible refine State.refuse_keeps ?_)
    | (with_reducible refine State.badHandle_keeps ?_)
    | (apply State.sourceMet_keeps; assumption)
    | (with_reducible refine State.openRows_keeps ?_)
    | (with_reducible refine State.failMet_keeps ?_)
    | split
    | dsimp only

theorem execModelUpdateRows_keeps {bk bg : Bool} {s0 s : State} {x0 : ReqKey} {x1 : SourceFind} {t : State}
    (e : execModelUpdateRows x0 x1 s = .next t) (h : Keeps bk bg s0 s) : Keeps bk bg s0 t := by
  cases e
  exact State.updateRows_keeps h

/-! ### Ward -/

theorem State.wardStatus_keeps {bk bg : Bool} {s0 s : State} {x1 : Byte} (h : Keeps bk bg s0 s) : Keeps bk bg s0
    (State.wardStatus s x1) :=
  ⟨h.pending, h.keys, h.gens, h.canonical⟩

theorem State.extestPins_keeps {bk bg : Bool} {s0 s : State} {x1 : Byte} (h : Keeps bk bg s0 s) : Keeps bk bg s0
    (State.extestPins s x1) :=
  ⟨h.pending, h.keys, h.gens, h.canonical⟩

theorem State.jtag_keeps {bk bg : Bool} {s0 s : State} {x1 : Byte} {x2 : Answer}
    (h : Keeps bk bg s0 s) : Keeps bk bg s0 (State.jtag s x1 x2) :=
  ⟨h.pending, h.keys, h.gens, h.canonical⟩

theorem State.deniedDebug_keeps {bk bg : Bool} {s0 s : State} {x1 : Byte} (h : Keeps bk bg s0 s) : Keeps bk bg s0
    (State.deniedDebug s x1) := by
  unfold State.deniedDebug
  repeat' first
    | (with_reducible assumption)
    | (with_reducible refine State.jtag_keeps ?_)
    | (simp only [State.made_eq]; with_reducible refine State.made_keeps ?_ ?_ ?_)
    | with_reducible rfl

theorem State.challengeLapse_keeps {bk bg : Bool} {s0 s : State} (h : Keeps bk bg s0 s) : Keeps bk bg s0
    (State.challengeLapse s) := by
  unfold State.challengeLapse
  repeat' first
    | (with_reducible assumption)
    | (with_reducible refine State.ite_keeps ?_ ?_)
    | (with_reducible refine State.lapseChallenge_keeps ?_)

theorem execChallengeLapse_keeps {bk bg : Bool} {s0 s : State} {t : State} (e : execChallengeLapse s = .next t)
    (h : Keeps bk bg s0 s) : Keeps bk bg s0 t := by
  cases e
  exact State.challengeLapse_keeps h

theorem execSamplePreload_keeps {bk bg : Bool} {s0 s : State} {x0 : Byte} {t : State}
    (e : execSamplePreload x0 s = .next t) (h : Keeps bk bg s0 s) : Keeps bk bg s0 t := by
  cases e
  exact State.jtag_keeps h

theorem execExtest_keeps {bk bg : Bool} {s0 s : State} {x0 : Byte} {t : State} (e : execExtest x0 s = .next t)
    (h : Keeps bk bg s0 s) : Keeps bk bg s0 t := by
  cases e
  exact State.extestPins_keeps h

theorem execWardstat_keeps {bk bg : Bool} {s0 s : State} {t : State} (e : execWardstat s = .next t)
    (h : Keeps bk bg s0 s) : Keeps bk bg s0 t := by
  cases e
  exact State.jtag_keeps h

theorem execIdcode_keeps {bk bg : Bool} {s0 s : State} {t : State} (e : execIdcode s = .next t)
    (h : Keeps bk bg s0 s) : Keeps bk bg s0 t := by
  cases e
  exact State.jtag_keeps h

theorem execBypass_keeps {bk bg : Bool} {s0 s : State} {t : State} (e : execBypass s = .next t)
    (h : Keeps bk bg s0 s) : Keeps bk bg s0 t := by
  cases e
  exact State.jtag_keeps h

theorem execInternalDebug_keeps {bk bg : Bool} {s0 s : State} {x0 : Sys2Proof.Byte} {t : State}
    (e : execInternalDebug x0 s = .next t) (h : Keeps bk bg s0 s) : Keeps bk bg s0 t := by
  unfold execInternalDebug at e
  split at e
  · cases e
    exact h
  · split at e
    · cases e
    · cases e
      exact State.deniedDebug_keeps h

theorem State.attest_keeps {bk bg : Bool} {s0 s : State} {x1 : Port} (h : Keeps bk bg s0 s) : Keeps bk bg s0
    (State.attest s x1) := by
  unfold State.attest
  repeat' first
    | (with_reducible assumption)
    | (with_reducible refine State.ite_keeps ?_ ?_)
    | (with_reducible refine State.onWrite_keeps (fun t h => ?_) ?_)
    | (with_reducible refine State.wardStatus_keeps ?_)
    | (with_reducible refine State.takeFree_snd_keeps ?_)
    | (simp only [State.made_eq]; with_reducible refine State.made_keeps ?_ ?_ ?_)
    | with_reducible rfl

theorem State.wardOp_keeps {bk bg : Bool} {s0 s : State} {x1 : Port} {x2 : BitVec 4} {x3 : State → State}
    (hx3 : ∀ t, Keeps bk bg s0 t → Keeps bk bg s0 (x3 t)) (h : Keeps bk bg s0 s) : Keeps bk bg s0
    (State.wardOp s x1 x2 x3) := by
  unfold State.wardOp
  repeat' first
    | (with_reducible assumption)
    | (with_reducible refine State.onRwl_keeps (fun t h => ?_) ?_)
    | (with_reducible refine hx3 _ ?_)
    | (simp only [State.made_eq]; with_reducible refine State.made_keeps ?_ ?_ ?_)
    | with_reducible rfl

theorem State.chal_keeps {bk bg : Bool} {s0 s : State} {x1 : Port} (h : Keeps bk bg s0 s) : Keeps bk bg s0
    (State.chal s x1) := by
  unfold State.chal
  repeat' first
    | (with_reducible assumption)
    | (with_reducible refine State.wardOp_keeps (fun t h => ?_) ?_)
    | (apply State.drawFw_keeps; assumption)
    | (with_reducible refine State.wardStatus_keeps ?_)
    | (simp only [State.made_eq]; with_reducible refine State.made_keeps ?_ ?_ ?_)
    | with_reducible rfl
    | split

theorem execAttest_keeps {bk bg : Bool} {s0 s : State} {x0 : Port} {t : State} (e : execAttest x0 s = .next t)
    (h : Keeps bk bg s0 s) : Keeps bk bg s0 t := by
  cases e
  exact State.attest_keeps h

theorem execChal_keeps {bk bg : Bool} {s0 s : State} {x0 : Port} {t : State} (e : execChal x0 s = .next t)
    (h : Keeps bk bg s0 s) : Keeps bk bg s0 t := by
  cases e
  exact State.chal_keeps h

theorem Mem.bytes_length (m : Mem) (a n : Nat) : (Mem.bytes m a n).length = n := by
  induction n generalizing a with
  | zero => rfl
  | succ n ih => rw [Mem.bytes, List.length_cons, ih]

/-- The key store written from a byte string of at most 16,384 bytes. -/
theorem State.keys_keeps {bg : Bool} {s0 s : State} {bs : Bytes} (h : Keeps false bg s0 s) (le : bs.length ≤ 16384) :
    Keeps false bg s0 { s with rs := { s.rs with keys := Mem.store [] 0 bs } } := by
  refine ⟨h.pending, Bool.noConfusion, h.gens, fun c => ?_⟩
  have k := h.canonical c
  refine ⟨k.1, k.2.1, Mem.store_wf _ _ rfl, fun c m => ?_, k.2.2.2.2⟩
  rcases Mem.store_mem m with h | h
  · omega
  · exact absurd h List.not_mem_nil

theorem State.provision_keeps {bg : Bool} {s0 s : State} {x1 : Sys2Proof.Port} {x2 : Bool} {x3 : Bool}
    (h : Keeps false bg s0 s) : Keeps false bg s0 (State.provision s x1 x2 x3) := by
  unfold State.provision
  refine State.wardOp_keeps (fun t h => ?_) h
  refine State.ite_keeps (State.wardStatus_keeps h) (State.ite_keeps (State.wardStatus_keeps h) ?_)
  dsimp only
  refine State.ite_keeps (State.wardStatus_keeps h) (State.ite_keeps ?_ ?_)
  · have hu := State.takeFree_snd_keeps h
    refine State.wardStatus_keeps (State.keys_keeps hu ?_)
    rw [List.length_take]
    exact Nat.min_le_left _ _
  · have hu : Keeps false bg s0 { t with rs := { t.rs with keys := Mem.store [] 0 (Mem.bytes t.host (t.dw.addr.toNat * 64) 16384) } } :=
      State.keys_keeps h (Nat.le_of_eq (Mem.bytes_length _ _ _))
    refine State.wardStatus_keeps (State.ite_keeps ?_ hu)
    rw [State.made_eq]
    exact State.made_keeps (State.wardCommit_keeps hu) rfl rfl

theorem execProvision_keeps {bg : Bool} {s0 s : State} {x0 : Port} {x1 : Bool} {x2 : Bool} {t : State}
    (e : execProvision x0 x1 x2 s = .next t) (h : Keeps false bg s0 s) : Keeps false bg s0 t := by
  cases e
  exact State.provision_keeps h

theorem State.hostKeyless_keeps {bk bg : Bool} {s0 s : State} {x1 : Port} (h : Keeps bk bg s0 s) : Keeps bk bg s0
    (State.hostKeyless s x1) := by
  unfold State.hostKeyless
  repeat' first
    | (with_reducible assumption)
    | (with_reducible refine State.ite_keeps ?_ ?_)
    | (with_reducible refine State.hostLost_keeps ?_)
    | (with_reducible refine State.setPort_keeps ?_)

theorem State.peerKeyless_keeps {bk bg : Bool} {s0 s : State} {x1 : Nat} (h : Keeps bk bg s0 s) : Keeps bk bg s0
    (State.peerKeyless s x1) := by
  unfold State.peerKeyless
  repeat' first
    | (with_reducible assumption)
    | (with_reducible refine State.ite_keeps ?_ ?_)
    | (with_reducible refine State.updPeer_keeps ?_)
    | (with_reducible refine State.peerLost_keeps ?_)

theorem State.eraseAll_keeps {bg : Bool} {s0 s : State} {x1 : StartSeen}
    (h : Keeps false bg s0 s) : Keeps false bg s0 (State.eraseAll s x1) := by
  unfold State.eraseAll
  repeat' first
    | (with_reducible assumption)
    | (with_reducible refine State.clearC_keeps ?_)
    | (with_reducible refine State.eraseStore_keeps ?_)
    | (with_reducible refine State.peerKeyless_keeps ?_)
    | (with_reducible refine State.hostKeyless_keeps ?_)
    | (with_reducible refine State.startFrom4_keeps ?_)
    | (with_reducible refine State.foldl_keeps (fun t a h => ?_) ?_)
    | (simp only [State.made_eq]; with_reducible refine State.made_keeps ?_ ?_ ?_)
    | with_reducible rfl

theorem State.openWard_keeps {bg : Bool} {s0 s : State} {x1 : Port} {x2 : StartSeen}
    (h : Keeps false bg s0 s) : Keeps false bg s0 (State.openWard s x1 x2) := by
  unfold State.openWard
  repeat' first
    | (with_reducible assumption)
    | (with_reducible refine State.ite_keeps ?_ ?_)
    | (with_reducible refine State.wardOp_keeps (fun t h => ?_) ?_)
    | (with_reducible refine State.wardStatus_keeps ?_)
    | (with_reducible refine State.lapseChallenge_keeps ?_)
    | (with_reducible refine State.eraseAll_keeps ?_)
    | (simp only [State.made_eq]; with_reducible refine State.made_keeps ?_ ?_ ?_)
    | with_reducible rfl

theorem execOpenWard_keeps {bg : Bool} {s0 s : State} {x0 : Port} {x1 : StartSeen} {t : State}
    (e : execOpenWard x0 x1 s = .next t) (h : Keeps false bg s0 s) : Keeps false bg s0 t := by
  cases e
  exact State.openWard_keeps h

end Sys2Proof.Machine
end

