-- ==== Sys2Proof/Laws/Reset.lean ====
section
/-! SUPPORT. What the parts of a reset change: the fields each writes, and no other. -/

namespace Sys2Proof.Machine

/-- A context that answers as cleared changes the spoke fabric alone. -/
theorem answerCleared_eq (s : State) (id : Nat) : ∃ x, s.answerCleared id = { s with pr := x } := by
  unfold State.answerCleared
  dsimp only
  split
  · exact ⟨_, rfl⟩
  · exact ⟨_, rfl⟩

/-- So do several contexts. -/
theorem answerAll_eq (l : List Nat) (s : State) : ∃ x, l.foldl State.answerCleared s = { s with pr := x } := by
  induction l generalizing s with
  | nil => exact ⟨s.pr, rfl⟩
  | cons a l ih =>
    obtain ⟨x, hx⟩ := answerCleared_eq s a
    obtain ⟨y, hy⟩ := ih (s.answerCleared a)
    exact ⟨y, by rw [List.foldl_cons, hy, hx]⟩

/-- Ending every worker job changes the spoke fabric alone. -/
theorem abortEvery_eq (s : State) : ∃ x, s.abortEveryJob = { s with pr := x } := by
  unfold State.abortEveryJob
  generalize s.pr.jobs.map (·.1) = l
  suffices ∀ t : State, ∃ x, l.foldl (fun t id => t.floodAbort id (s.jobGen id) none) t = { t with pr := x } from this s
  induction l with
  | nil => intro t; exact ⟨t.pr, rfl⟩
  | cons a l ih =>
    intro t
    obtain ⟨y, hy⟩ := ih (t.floodAbort a (s.jobGen a) none)
    exact ⟨y, by rw [List.foldl_cons, hy]; rfl⟩

/-- Clearing the streams changes the site port and the group records alone. -/
theorem clearStreams_eq (s : State) : ∃ x y, s.clearStreams = { s with st := x, groups := y } := by
  unfold State.clearStreams
  suffices ∀ (l : List Nat) (t : State), ∃ x y, l.foldl State.releaseStream t = { t with st := x, groups := y } by
    obtain ⟨x, y, h⟩ := this (s.st.streams.map (·.1)) s
    dsimp only
    rw [h]
    exact ⟨_, _, rfl⟩
  intro l
  induction l with
  | nil => intro t; exact ⟨t.st, t.groups, rfl⟩
  | cons a l ih =>
    intro t
    obtain ⟨x, y, h⟩ := ih (t.releaseStream a)
    exact ⟨x, y, by rw [List.foldl_cons, h]; rfl⟩

/-- What a core reset clears. -/
theorem clearC_eq (s : State) : ∃ x y, s.clearC = { s with
    mg := s.mg.coreReset, hp := { s.hp.coreReset with evicts := s.hp.evicts ++ s.evictions }
    fe := { Fe.reset with qgens := s.fe.qgens }
    cx := { Cx.reset with ctxs := Tbl.mapVals s.cx.ctxs fun _ c => c.freed }
    sites := s.sites.map Site.coreReset, groups := [], models := [], runs := [], hb := s.hb.coreReset, fb := s.fb.coreReset
    pr := x, st := y, rn := { s.rn with fw := none }, pw := s.pw.coreReset, dw := s.dw.lapsed, rs := s.rs.coreReset } := by
  unfold State.clearC
  dsimp only
  obtain ⟨a, ha⟩ := abortEvery_eq s
  obtain ⟨b, c, hb⟩ := clearStreams_eq s.abortEveryJob
  rw [hb, ha]
  dsimp only
  obtain ⟨d, hd⟩ := answerAll_eq (s.pr.jobs.map (·.1)) { s with
      mg := s.mg.coreReset, hp := { s.hp.coreReset with evicts := s.hp.evicts ++ s.evictions }
      fe := { Fe.reset with qgens := s.fe.qgens }
      cx := { Cx.reset with ctxs := Tbl.mapVals s.cx.ctxs fun _ c => c.freed }
      sites := s.sites.map Site.coreReset, groups := [], models := [], runs := [], hb := s.hb.coreReset, fb := s.fb.coreReset
      pr := a.coreReset, st := b, rn := { s.rn with fw := none }, pw := s.pw.coreReset, dw := s.dw.lapsed, rs := s.rs.coreReset }
  exact ⟨d, b, hd⟩

end Sys2Proof.Machine
end

