-- ==== Sys2Proof/Tests/Slice0.lean ====
section
/-! SUPPORT. The tests of this model: ill-formed commands are refused by the well-formedness check, each command does what
the spec's own examples and tables give on a small state, and for every statement with hypotheses a state meets them. -/

namespace Sys2Proof.Tests

open Sys2Proof Sys2Proof.Machine

set_option Elab.async false

/-! ### Small states -/

/-- A field put into bytes, little-endian. -/
def putField (b : Bytes) (f : Nat × Nat × Nat) : Bytes := b.take f.1 ++ leBytes f.2.1 f.2.2 ++ b.drop (f.1 + f.2.1)

/-- A descriptor of an opcode, version 1, with fields (offset, bytes, value). -/
def desc (op : Nat) (fs : List (Nat × Nat × Nat)) : Bytes :=
  fs.foldl putField (putField (List.replicate 128 0) (0, 2, op + 256))

/-- A request name of queue 1 (of a context) or 0 (of the kernel) at generation 1. -/
def key (queue seq : Nat) : ReqKey := ⟨mkName 1 queue seq, 0⟩

/-- A request of queue 1 that waits for nothing. -/
def req (seq : Nat) (d : Bytes) : Request :=
  { key := key 1 seq, queue := 1, tag := 0x101, kernel := false, desc := d, edges := [], patches := [], state := .waiting
    hold := none, status := 0, stop := 0, faultLe := 0xFFFF, word0 := 0, word1 := 0, turns := 0, append := none
    samples := [], reads := none, place := none, best := none }

/-- A request of the kernel queue 0. -/
def kreq (seq : Nat) (d : Bytes) : Request := { req seq d with key := key 0 seq, queue := 0, tag := 0, kernel := true }

/-- A queue whose areas lie at 4 KiB steps of host memory, with every count 0. -/
def que (kernel : Bool) (base : Nat) : Queue :=
  { ring := base, comp := base + 0x1000, door := base + 0x2000, line := base + 0x2040, ringN := 16, compN := 16
    tag := if kernel then 0 else 0x101, cls := 0, kernel := kernel, sigerr := false, homeb := false, vector := 3, gen := 1
    state := .active, cause := 0, fhead := 0, ctail := 0, tail := 0, chead := 0, watch := true, fired := false, unserved := 0
    readyRun := 0, destroys := [] }

/-- A grant of everything. -/
def grant : Grant :=
  { mask := 0xFFFFFFFF, slices := 256, lanes := 512, scratch := 2 ^ 24, lpddr := 2 ^ 40, history := 2 ^ 40, streams := 8, chain := 2 }

/-- Context 1, LIVE at generation 1. -/
def ctx1 : Ctx := { Ctx.reset with state := .live, grant := grant }

/-- An engine site that accepts dispatch. -/
def onSite : Site := { Site.reset with dstate := .on, target := .on, ucode := true, point := 3 }

/-- A module that is READY: firmware runs, both halves are ON, port A is up, context 1 is LIVE with queue 1, the kernel has
queue 0. -/
def ready : State :=
  { State.reset with
    mg := { Mg.reset with running := some [0] }
    hp := { Hp.reset with portA := { HostPort.reset with state := .up } }
    fe := { Fe.reset with
      queues := [(0, que true 0x10000), (1, que false 0x20000)], qgens := [(0, 1), (1, 1)], evEn := true, evVector := 7 }
    cx := { Cx.reset with ctxs := [(1, ctx1)] }
    sites := List.replicate 40 onSite
    hb := { Hb.reset with hubW := 2, hubE := 2, pkgs := List.replicate 32 { Package.reset with state := 0 } }
    st := { St.reset with lane0 := { SiteLane.reset with state := 2 } }
    rn := { Rn.reset with state := .ok, queue := [5, 6, 7, 8, 9, 10, 11], fw := some ⟨1, 2, 0⟩, win0 := some ⟨3, 4, 0⟩ }
    pw := { Pw.reset with halfW := .on, halfE := .on }
    rs := { Rs.reset with phase := 10, ready := true, alert := false, reach := 0 }
    cs := { Cs.reset with clearing := false } }

/-- The module with requests in its table. -/
def withReqs (s : State) (rs : List Request) : State := { s with fe := { s.fe with requests := rs } }

/-- The module with one waiting request of queue 1, or of the kernel. -/
def user (op : Nat) (fs : List (Nat × Nat × Nat)) : State := withReqs ready [req 0 (desc op fs)]
def kern (op : Nat) (fs : List (Nat × Nat × Nat)) : State := withReqs ready [kreq 0 (desc op fs)]

/-- The request of `user` and of `kern`. -/
def ur (op : Nat) (fs : List (Nat × Nat × Nat)) : Request := req 0 (desc op fs)
def kr (op : Nat) (fs : List (Nat × Nat × Nat)) : Request := kreq 0 (desc op fs)

/-- The state that a command answers. -/
def after (o : Host.Outcome State Fault Refusal) : State :=
  match o with
  | .next t => t
  | _ => State.reset

/-- There is a value, and it satisfies `p`. -/
def got {α : Type} (o : Option α) (p : α → Prop) [DecidablePred p] : Bool :=
  match o with
  | some a => decide (p a)
  | none => false

/-- The checks accept, and what they answer satisfies `p`. -/
def gotOk {ε α : Type} (x : Except ε α) (p : α → Prop) [DecidablePred p] : Bool :=
  match x with
  | .ok a => decide (p a)
  | .error _ => false

theorem got_some {α : Type} {o : Option α} {p : α → Prop} [DecidablePred p] (h : got o p = true) : ∃ a, o = some a ∧ p a := by
  cases o with
  | some a => exact ⟨a, rfl, of_decide_eq_true h⟩
  | none => cases h

theorem got_ok {ε α : Type} {x : Except ε α} {p : α → Prop} [DecidablePred p] (h : gotOk x p = true) :
    ∃ a, x = .ok a ∧ p a := by
  cases x with
  | ok a => exact ⟨a, rfl, of_decide_eq_true h⟩
  | error e => cases h

theorem ok_of {ε α : Type} {x : Except ε α} (h : gotOk x (fun _ => True) = true) : ∃ a, x = .ok a :=
  (got_ok h).imp fun _ p => p.1
theorem some_of {α : Type} {o : Option α} (h : o.isSome = true) : ∃ a, o = some a := Option.isSome_iff_exists.1 h

/-- A block of two spins with 4-bit codes, coupled to each other. -/
def blk : Block :=
  { n := 2, q := 0, fmt := 1, sb := 0, scaled := false, colour := 0, codes := [[0, 3], [3, 0]], scales := [1, 1]
    bias := [[5], [-2]], sparse := [], spdir := [] }

/-- Its only replica-block, on unit 0 of engine 0. -/
def rb : RBlock := State.newRBlock 0 0 0 0 0 blk

/-- A model of that block. -/
def net : Net :=
  { relaxed := false, heatbath := false, replicas := 1, colours := 1, sx := 0, ladder := 0, banks := 1, const := 0
    quantum := 0x0080, blocks := [blk], places := [], offsets := [0], stitches := [], pairs := [], rblocks := [rb]
    kept := [[[0, 0]]], valid := [true], sums := Sums.none, sampled := false, updates := [], biasHeld := [], turnEnds := []
    modelWord := 9, remoteD := [] }

/-- A taken entry of the model table. -/
def mdl (b : Body) : Model :=
  { gen := 1, tag := 0x101, queue := 1, mask := 1, loading := false, unloading := none, gone := false, encrypted := none
    job := 0, links := [], dense := [⟨0, 0, 0, 64, 0⟩], sparse := [], vscale := [], scratch := [], lpddr := [], pairsN := []
    moments := [(0, 29)], history := 0, body := b }

/-- The handle of entry 0. -/
def handle : Nat := (State.handleOf 0 (mdl (.net net))).toNat

/-- A RING store of two bytes an entry, with four slots of which two hold entries that are visible. -/
def ring : Store :=
  { fmt := 0, ring := true, lpddr := false, whole := false, width := 2, capacity := 4, region := 0, n := 2, visible := 2
    ready := [], slots := [(0, [1, 2]), (1, [3, -1])], waiting := [] }

/-- Host memory with a run block at 0x40000: 4 turns, one flip a turn, one replica, and a statistics area. -/
def runMem (stats : Nat) : Mem :=
  Mem.store (Mem.store (Mem.store (Mem.store [] 0x40000 (leBytes 8 4)) 0x40010 (leBytes 4 1)) 0x40020 (leBytes 2 1)) 0x40048
    (leBytes 8 stats)

/-- The module with an entry 0 of the model table, and that host memory. -/
def having (b : Body) (s : State) : State := { s with models := [(0, mdl b)], mgens := [(0, 1)], host := runMem 0 }

/-- The fields of a SOLVE or SAMPLE, and of a SCORE. -/
def runF : List (Nat × Nat × Nat) := [(56, 8, handle), (64, 8, 0x40000), (72, 8, 0x41000), (80, 8, 77)]
def scoreF : List (Nat × Nat × Nat) := [(56, 8, handle), (64, 8, 0x41000), (80, 2, 1)]

/-- The module before a run. -/
def solving : State := having (.net net) (user Op.solve runF)
def sampling : State := { having (.net net) (user Op.sample runF) with host := runMem 0x42000 }
def seeding : State := having (.net net) (user Op.solve (runF ++ [(88, 1, 1)]))
def drawing : State := { having (.net net) (user Op.sample (runF ++ [(88, 1, 1)])) with host := runMem 0x42000 }
def scoring : State := having (.net net) (user Op.score scoreF)

/-- A context whose data space on package 0 has its first page. -/
def paged : Ctx := { ctx1 with pages := [(0, [0])] }

/-- The module with that page, which has a bad burst at its start; and before a run whose inputs lie there. -/
def spoil (s : State) : State :=
  { s with
    cx := { s.cx with ctxs := [(1, paged)] }
    hb := { s.hb with pkgs := s.hb.pkgs.set 0 { Package.reset with state := 0, bad := [⟨0, 5, .page 1 0, true, 0⟩] } } }
def spoilt (op : Nat) (fs : List (Nat × Nat × Nat)) : State := spoil (having (.net net) (user op fs))
def farF : List (Nat × Nat × Nat) := [(56, 8, handle), (64, 8, 2 ^ 61), (72, 8, 0x41000), (80, 8, 77)]
def farScoreF : List (Nat × Nat × Nat) := [(56, 8, handle), (64, 8, 0x41000), (72, 8, 2 ^ 61), (80, 2, 1)]

/-- The module in the first turn of a SOLVE. -/
def turning : State := after (exec (.solve (key 1 0) .clean) solving)

/-! ### Each statement's hypotheses are met -/

theorem witness_NopJoinSignalComplete :
    (∃ (s : State) (k : ReqKey) (r : Request), Starts s k Op.nop r ∧ bitAt (r.fld 56 1) 0 = false) ∧
      (∃ (s : State) (k : ReqKey) (r : Request), Starts s k Op.nop r ∧ bitAt (r.fld 56 1) 0 = true) ∧
    (∃ (s : State) (k : ReqKey) (r : Request), Starts s k Op.join r) ∧
    (∃ (s : State) (k : ReqKey) (r : Request), Starts s k Op.signal r ∧ bitAt (r.fld 58 1) 1 = false ∧
      s.viaPort (if bitAt (r.fld 58 1) 0 then .b else .a) = some .a) ∧
    (∃ (s : State) (k : ReqKey) (r : Request), Starts s k Op.signal r ∧ bitAt (r.fld 58 1) 1 = true ∧ addrLe (r.fld 64 8) = 0 ∧
      s.viaPort (if bitAt (r.fld 58 1) 0 then .b else .a) = some .a) := by
  refine ⟨⟨user Op.nop [], key 1 0, ur Op.nop [], ?_⟩, ⟨user Op.nop [(56, 1, 1)], key 1 0, ur Op.nop [(56, 1, 1)], ?_⟩,
    ⟨user Op.join [], key 1 0, ur Op.join [], ?_⟩, ⟨user Op.signal [(56, 2, 2047)], key 1 0, ur Op.signal [(56, 2, 2047)], ?_⟩,
    ⟨user Op.signal [(58, 1, 3), (64, 8, 0x50000), (72, 8, 9)], key 1 0, ur Op.signal [(58, 1, 3), (64, 8, 0x50000), (72, 8, 9)], ?_⟩⟩ <;>
  · unfold Starts; decide +kernel

theorem witness_PatchFillsOverlay : ∃ (s : State) (k : ReqKey) (r : Request), Starts s k Op.patch r ∧
  ∀ q ∈ s.fe.requests, q.state ≠ .heldPatch :=
  ⟨user Op.patch [], key 1 0, ur Op.patch [], by unfold Starts; decide +kernel⟩

/-- A copy and a fill of 128 bytes in host memory, and a copy of the kernel from common SRAM. -/
def copyF : List (Nat × Nat × Nat) := [(56, 8, 0x40000), (64, 8, 0x50000), (72, 8, 128)]
def sharedF : List (Nat × Nat × Nat) := [(56, 8, 3 * 2 ^ 61), (64, 8, 0x50000), (72, 8, 128)]
def fillF : List (Nat × Nat × Nat) := [(56, 8, 0x50000), (64, 8, 128), (72, 8, 7)]

theorem witness_CopyFillComplete :
    (∃ (s : State) (k : ReqKey) (r : Request), Starts s k Op.copy r ∧ r.fld 72 8 = 0) ∧
    (∃ (s : State) (k : ReqKey) (r : Request), Starts s k Op.copy r ∧ r.fld 72 8 ≠ 0 ∧
      s.reachOk r (r.fld 56 8) (r.fld 72 8) true = .ok () ∧
      (∃ t, s.openWrite r 64 (r.fld 64 8) (r.fld 72 8) = .ok t) ∧ (∃ way, s.copyRoute (r.fld 56 8) (r.fld 64 8) = some way) ∧
      s.transferReady r [r.fld 56 8, r.fld 64 8] = true ∧ (s.sourceMet r [(r.fld 56 8, r.fld 72 8)] .clean).2 = .clean) ∧
    (∃ (s : State) (k : ReqKey) (r : Request), Starts s k Op.copy r ∧ r.fld 72 8 ≠ 0 ∧
      s.reachOk r (r.fld 56 8) (r.fld 72 8) true = .ok () ∧
      (∃ t, s.openWrite r 64 (r.fld 64 8) (r.fld 72 8) = .ok t) ∧ (∃ way, s.copyRoute (r.fld 56 8) (r.fld 64 8) = some way) ∧
      s.transferReady r [r.fld 56 8, r.fld 64 8] = true ∧ (s.sourceMet r [(r.fld 56 8, r.fld 72 8)] (.wordBad 1)).2 ≠ .clean) ∧
    (∃ (s : State) (k : ReqKey) (r : Request), Starts s k Op.copy r ∧ r.fld 72 8 ≠ 0 ∧ addrSpace (r.fld 56 8) = 0 ∧
      addrLe (r.fld 56 8) = 0 ∧
      addrSpace (r.fld 64 8) = 0 ∧ addrLe (r.fld 64 8) = 0 ∧ s.hostUp = true ∧ s.shiftHolds r.tag = false) ∧
    (∃ (s : State) (k : ReqKey) (r : Request), Starts s k Op.fill r ∧ r.fld 64 8 = 0) ∧
    (∃ (s : State) (k : ReqKey) (r : Request), Starts s k Op.fill r ∧ r.fld 64 8 ≠ 0 ∧
      (∃ t, s.openWrite r 56 (r.fld 56 8) (r.fld 64 8) = .ok t) ∧
      s.transferReady r [r.fld 56 8] = true) ∧
    (∃ (s : State) (k : ReqKey) (r : Request), Starts s k Op.fill r ∧ r.fld 64 8 ≠ 0 ∧ addrSpace (r.fld 56 8) = 0 ∧
      addrLe (r.fld 56 8) = 0 ∧ s.hostUp = true ∧
      s.shiftHolds r.tag = false) := by
  unfold Starts
  exact ⟨⟨user Op.copy [], key 1 0, ur Op.copy [], by decide +kernel⟩,
    ⟨user Op.copy copyF, key 1 0, ur Op.copy copyF, by decide +kernel, by decide +kernel, by rfl, ok_of (by decide +kernel),
      some_of (by decide +kernel), by decide +kernel⟩,
    ⟨kern Op.copy sharedF, key 0 0, kr Op.copy sharedF, by decide +kernel, by decide +kernel, by rfl, ok_of (by decide +kernel),
      some_of (by decide +kernel), by decide +kernel⟩,
    ⟨user Op.copy copyF, key 1 0, ur Op.copy copyF, by decide +kernel⟩,
    ⟨user Op.fill [], key 1 0, ur Op.fill [], by decide +kernel⟩,
    ⟨user Op.fill fillF, key 1 0, ur Op.fill fillF, by decide +kernel, by decide +kernel, ok_of (by decide +kernel), by decide +kernel⟩,
    ⟨user Op.fill fillF, key 1 0, ur Op.fill fillF, by decide +kernel⟩⟩

/-- A request 0 under way and a CANCEL of it as request 1; a CANCEL of a name not yet fetched. -/
def cancelDesc : Bytes := desc Op.cancel [(56, 8, (mkName 1 1 0).toNat)]
def lateDesc : Bytes := desc Op.cancel [(56, 8, (mkName 1 1 5).toNat)]

theorem witness_CancelEndsItsTarget :
    (∃ (s : State) (k : ReqKey) (r o : Request), Starts s k Op.cancel r ∧
      s.cancelForeign r (BitVec.ofNat 64 (r.fld 56 8)) = false ∧
      k ≠ ⟨BitVec.ofNat 64 (r.fld 56 8), 0⟩ ∧ s.req? ⟨BitVec.ofNat 64 (r.fld 56 8), 0⟩ = some o ∧ o.state ≠ .ended ∧
      o.state ≠ .heldFailed ∧ o.append = none ∧ o.hold ≠ some .peer ∧ s.runs = []) ∧
    (∃ (s : State) (k : ReqKey) (r : Request) (q : Queue), Starts s k Op.cancel r ∧
      s.cancelForeign r (BitVec.ofNat 64 (r.fld 56 8)) = false ∧
      s.req? ⟨BitVec.ofNat 64 (r.fld 56 8), 0⟩ = none ∧ (∀ c ∈ s.fe.chains, c.name ≠ BitVec.ofNat 64 (r.fld 56 8)) ∧
      s.queueOf (BitVec.ofNat 64 (r.fld 56 8)) = some q) := by
  unfold Starts
  exact ⟨⟨withReqs ready [ur Op.fill fillF, req 1 cancelDesc], key 1 1, req 1 cancelDesc, ur Op.fill fillF, by decide +kernel⟩,
    ⟨withReqs ready [req 0 lateDesc], key 1 0, req 0 lateDesc, que false 0x20000, by decide +kernel⟩⟩

/-- What holds no run of a request back, and what its inputs are found to be. -/
def unheld (s : State) (r : Request) (i : Nat) (m : Model) (n : Net) (clean : Bool) : Prop :=
  r.kernel = false ∧ s.handle? r (r.fld 56 8) = some i ∧ s.model? i = some m ∧ s.net? i = some n ∧ s.runOn i = none ∧
  s.updatesAhead r = false ∧ s.enginesReady m.mask = true ∧ s.runInputsUp r = true ∧
  decide ((s.sourceMet r (s.runReads r m n) .clean).2 = .clean) = clean

/-- What lets a run whose inputs are clean begin. -/
def opens (s : State) (r : Request) (i : Nat) (m : Model) (n : Net) (t : State) : Prop :=
  unheld s r i m n true ∧ t = (s.sourceMet r (s.runReads r m n) .clean).1 ∧ t.unrouted m.mask n.ladder = none ∧
    t.damageOf m = none

theorem witness_RunsBegin :
    (∃ s k r i m n, unheld s r i m n false ∧ s.ready? k Op.solve = some r) ∧
    (∃ s k r i m n, unheld s r i m n false ∧ s.ready? k Op.sample = some r) ∧
    (∃ s k r i m n, unheld s r i m n false ∧ s.ready? k Op.score = some r) ∧
    (∃ s k r i m n t, opens s r i m n t ∧ s.ready? k Op.solve = some r ∧ (∃ w, t.runSpec r m n = .ok w) ∧ r.fld 88 1 = 0) ∧
    (∃ s k r i m n t, opens s r i m n t ∧ s.ready? k Op.solve = some r ∧ (∃ w, t.runSpec r m n = .ok w) ∧ r.fld 88 1 ≠ 0 ∧
      ∃ x, t.drawFw 8 = some x) ∧
    (∃ s k r i m n t, opens s r i m n t ∧ s.ready? k Op.sample = some r ∧ (∃ w, t.runSpec r m n = .ok w) ∧ r.fld 88 1 = 0) ∧
    (∃ s k r i m n t, opens s r i m n t ∧ s.ready? k Op.sample = some r ∧ (∃ w, t.runSpec r m n = .ok w) ∧ r.fld 88 1 ≠ 0 ∧
      ∃ x, t.drawFw 8 = some x) ∧
    (∃ s k r i m n t, opens s r i m n t ∧ s.ready? k Op.score = some r ∧ ∃ w, t.scoreSpec r m n = .ok w) := by
  unfold opens unheld
  exact ⟨⟨spoilt Op.solve farF, key 1 0, ur Op.solve farF, 0, mdl (.net net), net, by decide +kernel⟩,
    ⟨spoilt Op.sample farF, key 1 0, ur Op.sample farF, 0, mdl (.net net), net, by decide +kernel⟩,
    ⟨spoilt Op.score farScoreF, key 1 0, ur Op.score farScoreF, 0, mdl (.net net), net, by decide +kernel⟩,
    ⟨solving, key 1 0, ur Op.solve runF, 0, mdl (.net net), net, _, ⟨by decide +kernel, rfl, by decide +kernel⟩,
      by decide +kernel, ok_of (by decide +kernel), by decide +kernel⟩,
    ⟨seeding, key 1 0, ur Op.solve (runF ++ [(88, 1, 1)]), 0, mdl (.net net), net, _, ⟨by decide +kernel, rfl, by decide +kernel⟩,
      by decide +kernel, ok_of (by decide +kernel), by decide +kernel, some_of (by decide +kernel)⟩,
    ⟨sampling, key 1 0, ur Op.sample runF, 0, mdl (.net net), net, _, ⟨by decide +kernel, rfl, by decide +kernel⟩,
      by decide +kernel, ok_of (by decide +kernel), by decide +kernel⟩,
    ⟨drawing, key 1 0, ur Op.sample (runF ++ [(88, 1, 1)]), 0, mdl (.net net), net, _, ⟨by decide +kernel, rfl, by decide +kernel⟩,
      by decide +kernel, ok_of (by decide +kernel), by decide +kernel, some_of (by decide +kernel)⟩,
    ⟨scoring, key 1 0, ur Op.score scoreF, 0, mdl (.net net), net, _, ⟨by decide +kernel, rfl, by decide +kernel⟩,
      by decide +kernel, ok_of (by decide +kernel)⟩⟩

/-- A model whose two spins stand still: each bias is far above what the coupling can move. -/
def stillNet : Net := { net with blocks := [{ blk with bias := [[30000], [30000]] }] }
def still : State := after (exec (.solve (key 1 0) .clean) (having (.net stillNet) (user Op.solve runF)))

theorem witness_FlipSelectsOrFreezes :
    (got (still.flipping 0 0) fun x => gotOk (x.2.1.applyCol x.2.2) (fun b =>
      totalWeight ((x.2.1.block b.block).weights x.2.1.heatbath (x.1.betas.getD (x.1.rungOf.getD b.replica b.replica) 0)
        b.state b.fields) = 0 ∧ x.1.observes b.replica = false) = true) = true ∧
    (got (turning.flipping 0 0) fun x => gotOk (x.2.1.applyCol x.2.2) (fun b =>
      let ws := (x.2.1.block b.block).weights x.2.1.heatbath (x.1.betas.getD (x.1.rungOf.getD b.replica b.replica) 0) b.state b.fields
      totalWeight ws ≠ 0 ∧ got (selectAt ws (drawOffset (drawAt b.key b.draw) (totalWeight ws))) (fun y =>
        x.1.observes b.replica = false ∧ Net.sumsFit x.2.1.sums = true ∧
        fits64 (b.dE + (x.2.1.block b.block).deltaE b.state b.fields y.1 y.2) = true ∧
        ∀ z ∈ x.2.1.blocks, ∀ d ∈ z.spdir, ¬(d.blk = b.block ∧ d.var = y.1)) = true) = true) = true := by
  decide +kernel

/-- The turn of `turning` flipped and ready for its boundary; the same as part of a job of two nodes, at node 0 and on a
worker. -/
def flipped : State := after (exec (.flip 0 0 .clean) turning)
def shape (node : Nat) : PartShape := { node := node, reps := 1, blocks := [(2, 0)], pairs := 0, hems := [] }
def job2 : Job :=
  { state := .loaded, modules := 2, parts := [shape 0, shape 1], sent := [], reserving := none, jctx := 2, owner := 0x101
    lastNode := 0, model := some 0, common := none, credits := [], sentTurn := 1, doneFrom := [], unloadFrom := [], waiters := []
    cuff := [], granted := [], unloadSent := false }
def jobTurn (s : State) (here there : Nat) : State :=
  { s.updModel 0 fun m => { m with job := 1 } with
    cx := { s.cx with ctxs := [(1, ctx1), (2, ctx1)] }
    pr := { s.pr with
      nodeid := here, jobs := [(1, job2)], jobGens := [(1, 1)]
      cuffs := [{ link := 0, job := 1, turn := 0, words := [pack [(60, 4, 2), (54, 6, there)]] }] } }
def boundaryNode : State := jobTurn flipped 0 1
def boundaryWorker : State := jobTurn (withReqs flipped []) 1 0

/-- A boundary that can be taken. -/
def closes (s : State) (k : ReqKey) (p : Run → Model → Prop) [∀ u, DecidablePred (p u)] : Bool :=
  got (s.run? k) fun u => got (s.model? u.model) (fun m => got (s.net? u.model) (fun n =>
    s.boundaryReady u m n = true ∧
    (let s' := s.applyCuffs u.model u.turn
     got (s'.net? u.model) fun n' => s'.boundaryFault u n' m .clean = none ∧
      gotOk ((s'.boundaryCount u n' m .clean).boundaryPart u n' (State.redone u n' .clean)) (fun _ => p u m) = true) = true) =
        true) = true

theorem witness_TurnBoundaryClosesTurn :
    closes flipped (key 1 0) (fun _ m => m.job = 0) = true ∧
    closes boundaryWorker (key 1 0) (fun _ m => m.job ≠ 0 ∧ (boundaryWorker.applyCuffs 0 0).partNodes m.job ≠ [] ∧
      (boundaryWorker.applyCuffs 0 0).req? (key 1 0) = none) = true ∧
    closes boundaryNode (key 1 0) (fun _ m => m.job ≠ 0 ∧ (boundaryNode.applyCuffs 0 0).partNodes m.job ≠ [] ∧
      (boundaryNode.applyCuffs 0 0).req? (key 1 0) ≠ none) = true := by
  decide +kernel

/-- Link 0 between engines 0 and 1, with lane 0 given to entry 0 of a model. -/
def linkOf (drain : Bool) (l : Lane) : Link :=
  { entries := [some { model := 0, tag := 0x101, drain := drain, fwdOpen := true, backOpen := false }, none, none, none]
    lanes := [l, Lane.reset, Lane.reset, Lane.reset] }
def linked (drain : Bool) (l : Lane) : State :=
  { having (.net net) ready with fb := { Fb.reset with links := linkOf drain l :: List.replicate 55 Link.reset } }
def flipWord : W64 := hemWord 0 0 1 1 1
def stitchWord : W64 := turnEndWord 0 0
def carry (w : W64) : Lane := { Lane.reset with owner := some (0, 0), fwd := { Way.reset with words := [(0, w)] } }
def wordIn (w : W64) (bad : Bool) : LaneWord :=
  { link := 0, dir := .fwd, lane := 0, data := w, side := if bad then sideband 0 false w ^^^ 1 else sideband 0 false w }
/-- Words with a reserved bit that is not 0. -/
def oddFlip : W64 := flipWord ||| BitVec.ofNat 64 (2 ^ 53)
def oddStitch : W64 := stitchWord ||| BitVec.ofNat 64 (2 ^ 53)
def emptyStitch : W64 := 0
def fault16 : Lane := { Lane.reset with stuck := true }
def fault4096 : Lane := { Lane.reset with rated := true }
/-- A transfer of context 1, one of no context, and one of a context that is gone. -/
def transfer (tag : BitVec 24) : Transfer := { link := 3, dir := .back, tag := tag, words := [1, 2], begun := true }
def moving (tag : BitVec 24) : State := { ready with fb := { Fb.reset with service := [transfer tag] } }
def svc (w : W64) : W64 × Byte := (w, sideband 0 true w)

/-- A word that stands on its lane, as it was sent or with a parity that fails, and arrives. -/
def onLane (s : State) (w : LaneWord) (kind : Nat) (good : Bool) : Bool :=
  decide (w.lane < 3) && !(State.way (s.lane w.link w.lane) w.dir).words.isEmpty && (s.lane w.link w.lane).owner == some (0, 0) &&
  !(s.lane w.link w.lane).disabled && decide (wKind w.data = kind) && parityOk w.data w.side == good

/-- The entry of its lane's owner does not drain; and it is the word that was sent, or has reserved bits. -/
def whole (s : State) (w : LaneWord) (bad : Bool) : Bool :=
  got ((s.link w.link).entries.getD 0 none) (fun x => x.drain = false) && wBad w.data == bad &&
  (bad || (State.way (s.lane w.link w.lane) w.dir).words.head?.map (fun y => (y.2, sideband y.1 false y.2)) == some (w.data, w.side))

/-- Words of the transfer on link 3 that arrive. -/
def moves (tag : BitVec 24) (words : List (W64 × Byte)) (left : List W64) : Bool :=
  (moving tag).fb.service.find? (fun y => decide (y.link = 3) && decide (y.dir = .back)) == some (transfer tag) &&
  (transfer tag).begun && !((moving tag).lane 3 3).disabled && !(moving tag).linkDead 3 &&
  (State.takeWords .back [1, 2] words ((moving tag).lane 3 3)).1 == left

theorem witness_FabricWordsAndEvents :
    (onLane (linked false (carry flipWord)) (wordIn flipWord true) 1 false = true ∧
      onLane (linked false (carry stitchWord)) (wordIn stitchWord true) 2 false = true) ∧
    (onLane (linked false (carry flipWord)) (wordIn flipWord false) 1 true = true ∧
      whole (linked false (carry flipWord)) (wordIn flipWord false) false = true) ∧
    (onLane (linked false (carry stitchWord)) (wordIn stitchWord false) 2 true = true ∧
      whole (linked false (carry stitchWord)) (wordIn stitchWord false) false = true) ∧
    (onLane (linked false (carry oddFlip)) (wordIn oddFlip false) 1 true = true ∧
      whole (linked false (carry oddFlip)) (wordIn oddFlip false) true = true) ∧
    (onLane (linked false (carry oddStitch)) (wordIn oddStitch false) 2 true = true ∧
      whole (linked false (carry oddStitch)) (wordIn oddStitch false) true = true) ∧
    (onLane (linked false (carry flipWord)) (wordIn emptyStitch false) 0 true = true ∧
      onLane (linked false (carry flipWord)) (wordIn emptyStitch true) 0 false = true ∧
      (linked false (carry flipWord)).linkDead 0 = false ∧ wBad emptyStitch = false) ∧
    (∃ (s : State) (w : LaneWord) (o : Nat × W64) (rest : List (Nat × W64)) (x : LinkEntry),
      (State.way (s.lane w.link w.lane) w.dir).words = o :: rest ∧ (s.lane w.link w.lane).owner = some (0, 0) ∧
      (s.lane w.link w.lane).disabled = false ∧ wKind w.data = 3 ∧ parityOk w.data w.side = true ∧ State.arrived o w = true ∧
      (s.link w.link).entries.getD 0 none = some x ∧ x.drain = true) ∧
    (moves 0 [svc 1] [2] = true ∧ moves 0 [svc 1, svc 2] [] = true ∧
      (moving 0x101).tagLive 0x101 = true ∧ moves 0x101 [svc 1, svc 2] [] = true ∧
      (moving 0x201).tagLive 0x201 = false ∧ moves 0x201 [svc 1, svc 2] [] = true) ∧
    ∀ byRate : Bool, ∃ (s : State) (l i : Nat), l < 56 ∧ i < 4 ∧ (s.lane l i).disabled = false ∧ s.shiftTouches l = false ∧
      (if byRate then (s.lane l i).rated else (s.lane l i).stuck) = true ∧ (s.lane l i).owner = none ∧
      ∀ e x, (s.link l).entries.getD e none = some x → x.drain = false := by
  refine ⟨by decide +kernel, by decide +kernel, by decide +kernel, by decide +kernel, by decide +kernel, by decide +kernel,
    ⟨linked true (carry drainWord), wordIn drainWord false, _, _, _, rfl, rfl, rfl, by decide +kernel, by decide +kernel,
      by decide +kernel, rfl, rfl⟩, by decide +kernel, fun byRate => ?_⟩
  refine ⟨linked false (if byRate then fault4096 else fault16), 0, 0, by decide, by decide, ?_, ?_, ?_, ?_, ?_⟩
  · cases byRate <;> decide +kernel
  · cases byRate <;> decide +kernel
  · cases byRate <;> decide +kernel
  · cases byRate <;> decide +kernel
  · intro e x h
    match e with
    | 0 => cases h; rfl
    | 1 | 2 | 3 => cases h
    | e + 4 => cases h

/-- An APPEND of two packed entries, of two raw samples of group 0, and of none; and of two in the page that has a bad burst. -/
def appendF (n raw : Nat) : List (Nat × Nat × Nat) := [(56, 8, handle), (64, 8, 0x48000), (72, 8, n), (80, 1, raw)]
def appendFar (raw : Nat) : List (Nat × Nat × Nat) := [(56, 8, handle), (64, 8, 2 ^ 61), (72, 8, 2), (80, 1, raw)]
/-- The inbound group 0 of entry 0: two channels of 16-bit raw values, converted to the 4-bit format of the store. -/
def chan0 : Chan := { qscale := 0x0080, clip := 0, total := 0, share := 0, zrun := 0, move := none }
def grp (o : GroupOwner) : Group :=
  { owner := o, tag := 0x101, homeb := false, le := 0, gbase := 0, outbound := false, raw := 0, mfmt := 1, len := 4, high := 0
    area := 0x60000, vector := 3, block := 0, started := false, seen := 0, completed := 0, events := 0, dropped := 0
    chans := [chan0, chan0], pending := [], policy := none, awaiting := false, stopped := false, areaErr := false }
def stored (s : State) : State := { having (.store ring) s with groups := [grp (.model 0 0)] }
/-- A RING with an entry that waits for its slot. -/
def fullRing (who : Appender) : State :=
  having (.store { ring with n := 5, waiting := [{ who := who, position := 4, elems := [1, 1] }] }) ready

/-- An APPEND that takes its positions from a source that is found clean, or bad: `raw` tells which kind of source it has. -/
def takes (s : State) (r : Request) (raw clean : Bool) : Bool :=
  gotOk (s.storeFor r) fun x =>
    let g := if raw then s.rawGroup x.1 (r.fld 82 2) (if x.2.2.fmt = 1 then 2 else 1) else none
    let len := r.fld 72 8 * (match g with | some y => State.rawSample x.2.2 y | none => x.2.2.stride)
    s.ready? r.key Op.append = some r ∧ bitAt (r.fld 80 1) 0 = raw ∧ g.isSome = raw ∧ r.fld 72 8 ≠ 0 ∧
    State.appendRoom x.2.2 (r.fld 72 8) = none ∧ gotOk (s.reachOk r (r.fld 64 8) len true) (fun _ => True) = true ∧
    s.transferUp (r.fld 64 8) = true ∧ s.enginesReady x.2.1.mask = true ∧
    decide ((s.sourceMet r [(r.fld 64 8, len)] .clean).2 = .clean) = clean ∧
    (clean = true → State.sourceBad x.2.2 g (s.readSpace r (r.fld 64 8) len) (r.fld 72 8) = none ∧
      s.vectorUnrouted x.2.1 g = none)

theorem witness_AppendTakesPositions :
    (gotOk ((stored (user Op.append (appendF 0 0))).storeFor (ur Op.append (appendF 0 0))) (fun _ =>
      let s := stored (user Op.append (appendF 0 0))
      let r := ur Op.append (appendF 0 0)
      s.ready? (key 1 0) Op.append = some r ∧ bitAt (r.fld 80 1) 0 = false ∧ r.fld 72 8 = 0 ∧ s.run? (key 1 0) = none)) = true ∧
    takes (stored (user Op.append (appendF 2 0))) (ur Op.append (appendF 2 0)) false true = true ∧
    takes (stored (user Op.append (appendF 2 1))) (ur Op.append (appendF 2 1)) true true = true ∧
    takes (spoil (stored (user Op.append (appendFar 0)))) (ur Op.append (appendFar 0)) false false = true ∧
    takes (spoil (stored (user Op.append (appendFar 1)))) (ur Op.append (appendFar 1)) true false = true ∧
    (∀ who, who = Appender.request (key 1 0) ∨ who = Appender.stream 63 →
      ∃ (i : Nat) (w : WaitingEntry), ((fullRing who).models.findSome? fun p => match p.2.body with
        | .store h => (h.waiting.find? fun w => decide (w.who = who)).map fun w => (p.1, w)
        | .net _ => none) = some (i, w) ∧
      ((fullRing who).updStore i fun h => { h with waiting := h.waiting.filter fun v => decide (v.position ≠ w.position) }).slotFree i
        w.position = true ∧ ∀ m, (fullRing who).model? i = some m → (fullRing who).enginesReady m.mask = true) := by
  refine ⟨by decide +kernel, by decide +kernel, by decide +kernel, by decide +kernel, by decide +kernel, ?_⟩
  intro who h
  refine ⟨0, { who := who, position := 4, elems := [1, 1] }, ?_⟩
  have hm : ∀ m, (fullRing who).model? 0 = some m → m.mask = 1 := by intro m h; cases h; rfl
  rcases h with rfl | rfl <;> exact ⟨rfl, by decide +kernel, fun m h => by rw [hm m h]; decide +kernel⟩

/-- A RETRIEVE of one packed query over every entry, and over none, and of queries in the page that has a bad burst. -/
def retrieveF (q hi : Nat) : List (Nat × Nat × Nat) :=
  [(56, 8, handle), (64, 8, q), (72, 8, 0x41000), (88, 8, hi), (96, 4, 0), (100, 2, 1), (102, 2, 2)]

/-- A RETRIEVE of packed queries that are found clean, or bad. -/
def searches (s : State) (r : Request) (clean empty : Bool) : Bool :=
  gotOk (s.storeFor r) fun x =>
    let h := x.2.2
    let lo := max (r.fld 80 8) h.lowest
    let hi := max lo (min (r.fld 88 8) h.visible)
    let reads := [(r.fld 64 8, r.fld 100 2 * roundUp h.width 64)]
    s.ready? r.key Op.retrieve = some r ∧ bitAt (r.fld 104 1) 2 = false ∧
    gotOk (s.reachOk r (r.fld 64 8) (r.fld 100 2 * roundUp h.width 64) true) (fun _ => True) = true ∧
    s.outputOk r 72 (State.retrieveBytes h (r.fld 100 2) (r.fld 102 2) (bitAt (r.fld 104 1) 1)) = none ∧
    s.transferUp (r.fld 64 8) = true ∧ s.enginesReady x.2.1.mask = true ∧
    decide ((s.sourceMet r reads .clean).2 = .clean) = clean ∧
    (clean = true →
      (s.sourceMet r reads .clean).1.unrouted x.2.1.mask (((State.enginesOf x.2.1.mask).head?).getD 0) = none ∧
      gotOk (State.parseQueries h (r.fld 100 2) ((s.sourceMet r reads .clean).1.readSpace r (r.fld 64 8)
        (r.fld 100 2 * roundUp h.width 64))) (fun _ => True) = true ∧ decide (hi = lo) = empty ∧
      (let t := ((s.sourceMet r reads .clean).1.startOn x.2.1.mask).updReq r.key fun q =>
        { q with state := .dispatched, hold := none, reads := some (x.1, lo, hi) }
       t.req? r.key = some { r with state := .dispatched, hold := none, reads := some (x.1, lo, hi) } ∧
       t.rangeDamage x.2.1 h lo hi = none ∧ t.rangeBurst x.1 x.2.1 h lo hi = none))

theorem witness_RetrieveWritesRecords :
    searches (stored (user Op.retrieve (retrieveF 0x48000 9))) (ur Op.retrieve (retrieveF 0x48000 9)) true false = true ∧
    searches (stored (user Op.retrieve (retrieveF 0x48000 0))) (ur Op.retrieve (retrieveF 0x48000 0)) true true = true ∧
    searches (spoil (stored (user Op.retrieve (retrieveF (2 ^ 61) 9)))) (ur Op.retrieve (retrieveF (2 ^ 61) 9)) false false = true := by
  decide +kernel

/-- The image of a model of one block of two coupled spins, as part `node` of `modules` modules: header, six sections
(BLOCKS, PLACE, CODES, BIAS, REPLOFF, LINKS) and their bytes (08 Tables 8.1 to 8.4). -/
def sect (i typ len off : Nat) : List (Nat × Nat × Nat) :=
  [(256 + 16 * i, 2, typ), (260 + 16 * i, 4, len), (264 + 16 * i, 8, off)]
def imageFields (modules node : Nat) : List (Nat × Nat × Nat) :=
  [(0, 4, 0x4D49464C), (4, 1, 1), (8, 8, 768), (16, 2, 0x0080), (18, 2, 1), (20, 2, 1), (22, 1, 1), (26, 2, 6),
    (28, 1, modules), (29, 1, node), (32, 4, 1)] ++
  sect 0 1 32 384 ++ sect 1 2 16 448 ++ sect 2 3 64 512 ++ sect 3 5 8 576 ++ sect 4 8 1 640 ++ sect 5 9 56 704 ++
  [(384, 2, 2), (387, 1, 1), (454, 2, 1), (512, 1, 0x30), (544, 1, 0x03), (576, 4, 5), (580, 4, 6)]
def imageMem (base modules node : Nat) : Mem :=
  (imageFields modules node).flatMap fun f =>
    ((List.range f.2.1).map fun i => (base + f.1 + i, BitVec.ofNat 8 (f.2.2 / 256 ^ i))).filter fun c => decide (c.2 ≠ 0)
def loadF (job : Nat) : List (Nat × Nat × Nat) := [(56, 8, 0x100000), (64, 8, 768), (72, 4, job)]
def loading (modules node job : Nat) : State :=
  { user Op.modelLoad (loadF job) with host := imageMem 0x100000 modules node }
/-- The same image in the page that has a bad burst. -/
def loadFar : List (Nat × Nat × Nat) := [(56, 8, 2 ^ 61), (64, 8, 768)]
def loadingFar : State :=
  let s := spoil (user Op.modelLoad loadFar)
  { s with cx := { s.cx with ctxs := [(1, { paged with space := [(0, imageMem 0 1 0)] })] } }

/-- The manager of two nodes, node 1 by link 0. -/
def manager (s : State) : State :=
  { s with pr := { s.pr with
      role := 1, state := 2, nodes := 2
      links := { PeerLink.reset with state := .up, kind := 2, peer := 0 } :: List.replicate 7 PeerLink.reset
      routes := { Route.reset with valid := true, here := true } :: { Route.reset with valid := true } ::
        List.replicate 62 Route.reset } }
def loadD (job : Nat) : Bytes := desc Op.modelLoad (loadF job)

/-- A load whose image is found clean, or bad, and passes order 1. -/
def loads (s : State) (r : Request) (clean : Bool) (p : Bytes → Prop) [DecidablePred p] : Bool :=
  let d := s.readSpace r (r.fld 56 8) (r.fld 64 8)
  s.ready? r.key Op.modelLoad == some r && !r.kernel &&
  gotOk (s.reachOk r (r.fld 56 8) (r.fld 64 8) true) (fun _ => True) && (s.jobRefusal r).isNone &&
  s.transferUp (r.fld 56 8) && (decide (Img.node d ≠ 0) || !s.loadWaits (Img.mask d)) &&
  (Img.order1 d (r.fld 64 8) (r.fld 72 4)).isNone &&
  (decide ((s.sourceMet r [(r.fld 56 8, r.fld 64 8)] .clean).2 = .clean) == clean) && decide (p d)
def loaded : State := loading 1 0 0
def loadR (job : Nat) : Request := req 0 (loadD job)

theorem witness_ModelLoadTakesEntry :
    loads loaded (loadR 0) true (fun d => (loadR 0).fld 72 4 = 0 ∧
      gotOk (loaded.loadImage d (loaded.loadFor (loadR 0) (loadR 0).tag d true none none)).2 (fun i =>
        ((loaded.loadImage d (loaded.loadFor (loadR 0) (loadR 0).tag d true none none)).1.model? i).isSome = true) = true) = true ∧
    loads (manager (loading 2 0 0x10001)) (loadR 0x10001) true (fun d => (loadR 0x10001).fld 72 4 ≠ 0 ∧ Img.node d = 0) = true ∧
    loads (manager (loading 2 1 0x10001)) (loadR 0x10001) true (fun d => (loadR 0x10001).fld 72 4 ≠ 0 ∧ Img.node d ≠ 0 ∧
      (manager (loading 2 1 0x10001)).partRefusal (loadR 0x10001) d ((loadR 0x10001).fld 72 2) = none) = true ∧
    loads loadingFar (req 0 (desc Op.modelLoad loadFar)) false (fun _ => True) = true ∧
    gotOk (loaded.loadImage (loaded.readSpace (loadR 0) 0x100000 768)
      (loaded.loadFor (loadR 0) 0x101 (loaded.readSpace (loadR 0) 0x100000 768) true none none)).2 (fun _ => True) = true := by
  decide +kernel

/-- An update of one bias value, at 0x48000: block 0, variable 1. -/
def updateF : List (Nat × Nat × Nat) := [(56, 8, handle), (64, 8, 0x48000), (72, 8, 0)]
def updateFar : List (Nat × Nat × Nat) := [(56, 8, handle), (64, 8, 2 ^ 61), (72, 8, 64)]
def updating : State := having (.net net) (user Op.modelUpdateRows updateF)

/-- An update whose data is found clean and is accepted, or is found bad. -/
def updates (s : State) (r : Request) (clean : Bool) : Bool :=
  let m := mdl (.net net)
  let s' := (s.sourceMet r [(r.fld 64 8, r.fld 72 8)] .clean).1
  s.ready? r.key Op.modelUpdateRows == some r && !r.kernel && s.handle? r (r.fld 56 8) == some 0 &&
  s.model? 0 == some m && s.net? 0 == some net && gotOk (s.reachOk r (r.fld 64 8) (r.fld 72 8) true) (fun _ => True) &&
  (decide (r.fld 72 8 = 0) || s.transferUp (r.fld 64 8)) && s.enginesReady m.mask &&
  (decide ((s.sourceMet r [(r.fld 64 8, r.fld 72 8)] .clean).2 = .clean) == clean) &&
  (!clean || gotOk (s'.openUpdate m (bitAt (r.fld 96 1) 0) (s'.readSpace r (r.fld 64 8) (r.fld 72 8))) (fun d =>
    State.updateBad net (s'.readUpdate r 0 net d (if bitAt (r.fld 96 1) 0 then 64 else 0)) (r.fld 72 8) = none ∧
    gotOk (s'.queueScales 0 (s'.readUpdate r 0 net d (if bitAt (r.fld 96 1) 0 then 64 else 0)).groups) (fun _ => True) = true))

theorem witness_UpdateRowsPlaced :
    updates updating (ur Op.modelUpdateRows updateF) true = true ∧
    updates (spoilt Op.modelUpdateRows updateFar) (ur Op.modelUpdateRows updateFar) false = true := by
  decide +kernel

/-- The unloading of entry 0, of a model that stands and of one that is gone. -/
def unloading (gone : Bool) : State :=
  { user Op.modelUnload [(56, 8, handle)] with models := [(0, { mdl (.net net) with gone := gone })], mgens := [(0, 1)] }

theorem witness_ModelUnloadBegins : ∀ gone, ∃ (s : State) (k : ReqKey) (r : Request) (m : Model) (i : Nat),
    s.ready? k Op.modelUnload = some r ∧ r.kernel = false ∧ i = r.fld 56 8 % 4096 ∧ s.model? i = some m ∧
    (State.handleOf i m).toNat = r.fld 56 8 ∧ m.tag = r.tag ∧ m.loading = false ∧ m.unloading = none ∧ m.gone = gone ∧
    (gone = true → m.job = 0 ∧ ∀ t, t = (s.holdReq k (some .unload)).updModel i (fun m => { m with unloading := some [k] }) →
      t.modelIdle i = true ∧ t.entriesOf i = []) := by
  intro gone
  refine ⟨unloading gone, key 1 0, ur Op.modelUnload [(56, 8, handle)], { mdl (.net net) with gone := gone }, 0, ?_⟩
  cases gone
  · exact ⟨by decide +kernel, rfl, by decide +kernel, rfl, by decide +kernel, rfl, rfl, rfl, rfl, fun h => by cases h⟩
  · exact ⟨by decide +kernel, rfl, by decide +kernel, rfl, by decide +kernel, rfl, rfl, rfl, rfl,
      fun _ => ⟨rfl, fun t h => by subst h; decide +kernel⟩⟩

/-- A grant for context 1 that holds nothing, with every engine. -/
def grantF : List (Nat × Nat × Nat) := [(56, 3, 0x101), (60, 4, 0xFFFFFFFF), (64, 2, 256), (66, 2, 168)]

/-- A reset of context 1 under way, with nothing left of it. -/
def ending : ResetInfo := { waiters := [], freeing := false, begun := true, noAck := [], tagBefore := 0x101 }
def resetting : State := { ready with cx := { Cx.reset with ctxs := [(1, { ctx1 with state := .resetting, resetting := some ending })] } }
def joining (op : Nat) : State :=
  let s := kern op [(56, 3, 0x101)]
  { s with cx := { s.cx with ctxs := [(1, { ctx1 with state := .resetting, resetting := some ending })] } }

theorem witness_ContextCommandsComplete :
    (∃ (s : State) (k : ReqKey) (r : Request) (i : Nat), Starts s k Op.ctxCreate r ∧ 1 ≤ i ∧ i ≤ 255 ∧ (s.ctx i).state = .free ∧
      ∀ j, 1 ≤ j → j < i → (s.ctx j).state ≠ .free) ∧
    (∃ (s : State) (k : ReqKey) (r : Request) (tag : BitVec 24) (g : Grant), Starts s k Op.ctxGrant r ∧
      tag = State.payloadTag r ∧
      g = State.payloadGrant r ∧ s.tagLive tag = true ∧ (∀ le, le < 32 → bitAt g.mask le = true → s.isLost le = false) ∧
      s.grantBelow tag g = [] ∧ s.chainShort tag g = []) ∧
    (∃ (s : State) (k : ReqKey) (r : Request), s.tagLive (State.payloadTag r) = true ∧ s.ready? k Op.ctxReset = some r) ∧
    (∃ (s : State) (k : ReqKey) (r : Request), s.tagLive (State.payloadTag r) = true ∧ s.ready? k Op.ctxDestroy = some r) ∧
    (∃ (s : State) (k : ReqKey) (r : Request) (x : ResetInfo),
      (s.ctx (State.idOf (State.payloadTag r))).resetting = some x ∧ x.tagBefore = State.payloadTag r ∧
      s.ready? k Op.ctxReset = some r) ∧
    ∃ (s : State) (k : ReqKey) (r : Request) (x : ResetInfo),
      (s.ctx (State.idOf (State.payloadTag r))).resetting = some x ∧ x.tagBefore = State.payloadTag r ∧
      s.ready? k Op.ctxDestroy = some r := by
  unfold Starts
  refine ⟨⟨kern Op.ctxCreate [], key 0 0, kr Op.ctxCreate [], 2, by decide +kernel, by decide, by decide, by decide, ?_⟩,
    ⟨kern Op.ctxGrant grantF, key 0 0, kr Op.ctxGrant grantF, _, _, by decide +kernel, rfl, rfl, by decide +kernel, by decide +kernel,
      by decide +kernel, by decide +kernel⟩,
    ⟨kern Op.ctxReset [(56, 3, 0x101)], key 0 0, kr Op.ctxReset [(56, 3, 0x101)], by decide +kernel⟩,
    ⟨kern Op.ctxDestroy [(56, 3, 0x101)], key 0 0, kr Op.ctxDestroy [(56, 3, 0x101)], by decide +kernel⟩,
    ⟨joining Op.ctxReset, key 0 0, kr Op.ctxReset [(56, 3, 0x101)], ending, by decide +kernel⟩,
    ⟨joining Op.ctxDestroy, key 0 0, kr Op.ctxDestroy [(56, 3, 0x101)], ending, by decide +kernel⟩⟩
  intro j h1 h2
  have : j = 1 := by omega
  subst this
  decide +kernel

theorem witness_ContextResetEnds :
    (∃ (s : State) (id : Nat) (x : ResetInfo), (s.ctx id).resetting = some x ∧ s.resetReady id x = true ∧ (s.ctx id).job = 0) ∧
    ∃ id : Nat, id ≠ 0 :=
  ⟨⟨resetting, 1, ending, by decide +kernel⟩, 255, by decide⟩

/-- A queue record of context 1 and one of the kernel, with rings of 64 (09 Table 9.4). -/
def record (kernel bad : Bool) : Bytes :=
  ([(0, 8, 0x200000), (8, 8, 0x201000), (16, 8, 0x203000), (24, 8, 0x203040), (32, 4, 64), (36, 4, 64),
    (40, 3, if kernel then 0 else 0x101), (44, 1, if kernel then 1 else 0), (45, 1, if bad then 1 else 0)]).foldl putField
      (List.replicate 64 0)
def creating (bad : Bool) : State :=
  { kern Op.queueCreate [(56, 8, 0x48000)] with host := Mem.store [] 0x48000 (record false bad) }
def byRegister (bad : Bool) : State :=
  { ready with host := Mem.store [] 0x48000 (record true bad), fe := { ready.fe with kqAddr := 0x1200 } }

/-- A creation whose record the checks accept, or refuse, as it is by the register. -/
def creates (s : State) (r : Request) (good : Bool) : Bool :=
  s.ready? r.key Op.queueCreate == some r && addrSpace (r.fld 56 8) == 0 && addrLe (r.fld 56 8) == 0 && s.hostUp &&
  (gotOk ((s.touchHost (s.homeOf r.queue)).checkRecord (Mem.bytes s.host (addrOff (r.fld 56 8)) 64) false) (fun _ => True)) == good
def commands (s : State) (good : Bool) : Bool :=
  let u := s.wakeLink .a
  decide (s.regReach .a 0x2008 = .open_) && u.hostUp &&
  (gotOk (u.checkRecord (Mem.bytes u.host (u.fe.kqAddr.toNat * 64) 64) true) (fun _ => True)) == good

theorem witness_QueueCreateCompletes :
    creates (creating false) (kr Op.queueCreate [(56, 8, 0x48000)]) true = true ∧
    creates (creating true) (kr Op.queueCreate [(56, 8, 0x48000)]) false = true ∧
    commands (byRegister false) true = true ∧ commands (byRegister true) false = true := by
  decide +kernel

/-- Queue 1 in DESTROYING with its request waiting and no other left. -/
def destroyF : List (Nat × Nat × Nat) := [(56, 2, 1), (58, 2, 1)]
def leaving : Queue := { que false 0x20000 with state := .destroying, destroys := [key 0 0] }
def withQueue (q : Queue) (s : State) : State := { s with fe := { s.fe with queues := [(0, que true 0x10000), (1, q)] } }

theorem witness_QueueDestroyCompletes :
    (∀ again : Bool, ∃ (s : State) (k : ReqKey) (r : Request) (q : Queue), s.ready? k Op.queueDestroy = some r ∧
      s.queue? (r.fld 56 2) = some q ∧ q.gen = r.fld 58 2 ∧ decide (q.state = .destroying) = again) ∧
    (∃ (s : State) (n : Nat) (q : Queue), s.queue? n = some q ∧ q.state = .destroying ∧ q.destroys ≠ [] ∧ s.remaining n q = [] ∧
      (∀ c ∈ s.fe.chains, c.queue ≠ n) ∧
      (q.kernel = false → ∀ x, (s.ctx (State.idOf q.tag)).resetting = some x → x.tagBefore ≠ q.tag)) := by
  refine ⟨fun again => ?_, ⟨{ ready with fe := { ready.fe with queues := [(1, leaving)] } }, 1, leaving, by decide +kernel,
    by decide +kernel, by decide +kernel, by decide +kernel, by decide +kernel, fun _ x h => by cases h⟩⟩
  cases again
  · exact ⟨kern Op.queueDestroy destroyF, key 0 0, kr Op.queueDestroy destroyF, que false 0x20000, by decide +kernel, rfl, rfl,
      by decide⟩
  · exact ⟨withQueue leaving (kern Op.queueDestroy destroyF), key 0 0, kr Op.queueDestroy destroyF, leaving, by decide +kernel, rfl,
      rfl, by decide⟩

theorem witness_HostStoresAndCacheable :
    (∃ (s : State) (p : Port), s.viaPort p = none) ∧ (∃ (s : State) (p q : Port), s.viaPort p = some q ∧ q = p) ∧
    (∃ (s : State) (p q : Port), s.viaPort p = some q ∧ q ≠ p) ∧ ∃ (s : State) (p : Port), s.linkUp p = true :=
  ⟨⟨State.reset, .b, by decide⟩, ⟨ready, .a, .a, by decide⟩, ⟨ready, .b, .a, by decide⟩, ready, .a, by decide⟩

/-- Queue 1 in slot 0 with nothing to fetch, and with a descriptor published. -/
def slotted (tail fhead : Nat) : State :=
  { ready with fe := { ready.fe with
      queues := [(1, { que false 0x20000 with tail := tail, fhead := fhead, ctail := fhead, chead := fhead })]
      slots := { Slot.reset with queue := some 1 } :: List.replicate 15 Slot.reset } }

theorem witness_SlotsReadAndFetch :
    (∃ (s : State) (i n : Nat) (q : Queue), ((s.fe.slots[i]?).getD Slot.reset).queue = some n ∧ s.queue? n = some q ∧
      ((s.fe.slots[i]?).getD Slot.reset).idle = false ∧ (s.slotFetches i q = false ∨ s.canFetch n q = false)) ∧
    (∀ f ∈ [0, 63], ∃ (s : State) (i n : Nat) (q : Queue), ((s.fe.slots[i]?).getD Slot.reset).queue = some n ∧
      s.queue? n = some q ∧ s.slotFetches i q = true ∧ s.canFetch n q = true ∧ s.hostUp = true ∧ q.fhead = f) := by
  refine ⟨⟨slotted 0 0, 0, 1, _, by decide, rfl, by decide +kernel⟩, ?_⟩
  intro f hf
  simp only [List.mem_cons, List.not_mem_nil, or_false] at hf
  rcases hf with rfl | rfl
  · exact ⟨slotted 1 0, 0, 1, _, by decide, rfl, by decide +kernel⟩
  · exact ⟨slotted 64 63, 0, 1, _, by decide, rfl, by decide +kernel⟩

/-- A request that has ended: of queue 1 with its best state, and a POWER_SET to HIBERNATE or HIBERNATE-M of the kernel. -/
def endedReq (op : Nat) (best : Option (Nat × List (List Nat))) : Request := { ur op [] with state := .ended, best := best }
def endedLink : Request := { endedReq Op.nop none with key := ⟨mkName 1 1 0, 1⟩, status := Status.cancelled }
def endedPower (v : Nat) : Request := { kr Op.powerSet [(57, 1, v)] with state := .ended }

/-- A request that completes. -/
def completes (s : State) (r : Request) : Bool :=
  got (s.queue? r.queue) (fun q => s.req? r.key = some r ∧ r.state = .ended ∧ r.recorded = true ∧
    (if r.chained then s.recordRoom r.queue = true else q.ctail < q.chead + q.compN) ∧ s.behindDestroy r = false)

theorem witness_RequestCompletes :
    (completes (withReqs ready [endedReq Op.solve (some (0, [[0, 1]]))]) (endedReq Op.solve (some (0, [[0, 1]]))) = true ∧
      (endedReq Op.solve (some (0, [[0, 1]]))).good = true ∧
      (withReqs ready [endedReq Op.solve (some (0, [[0, 1]]))]).setpointsWait 0 = false ∧
      State.hibernateOf (endedReq Op.solve (some (0, [[0, 1]]))) = none) ∧
    (completes (withReqs ready [endedLink]) endedLink = true ∧ endedLink.chained = true ∧ State.hibernateOf endedLink = none) ∧
    (∀ keep : Bool, completes (withReqs ready [endedPower (if keep then 3 else 2)]) (endedPower (if keep then 3 else 2)) = true ∧
      State.hibernateOf (endedPower (if keep then 3 else 2)) = some keep) ∧
    (∃ (s : State) (k : ReqKey), s.req? k = none ∧ s.staleName k.name = true) ∧
    (∃ (s : State) (q : Queue), s.hostUp = true ∧ (q.ctail + 1) % 64 ≠ 0) ∧ ∃ s : State, s.hostUp = false :=
  ⟨by decide +kernel, by decide +kernel, by decide +kernel,
    ⟨withQueue { que false 0x20000 with gen := 2 } { ready with fe := { ready.fe with qgens := [(0, 1), (1, 2)] } }, key 1 0, by decide +kernel⟩, ⟨ready, que false 0, by decide +kernel⟩, State.reset,
    by decide +kernel⟩

/-- A chain of context 1 whose next descriptor lies at the last place of its chain memory on engine 31, a NOP or nothing, or
one place beyond it. -/
def chain (ix : Nat) : Chain :=
  { name := mkName 1 1 0, queue := 1, tag := 0x101, kernel := false, next := 1, ptr := some (31, ix), holder := desc Op.nop [] }
def chained (ix : Nat) (d : Mem) : State :=
  { ready with
    fe := { ready.fe with chains := [chain ix] }
    cx := { Cx.reset with ctxs := [(1, { ctx1 with chain := [(31, d)] })] } }
def nopAt (ix : Nat) : Mem := [(128 * ix, 1), (128 * ix + 1, 1)]

theorem witness_ChainGoesOn :
    (∃ (s : State) (name : W64) (c : Chain) (p : Nat × Nat), (s.fe.chains.find? fun c => decide (c.name = name)) = some c ∧
      c.ptr = some p ∧ s.recordRoom c.queue = true ∧ s.fe.fenced = false ∧ s.cx.mpfault = false ∧ s.pw.mstate = .active ∧
      (c.kernel = true ∨ s.served c.tag = true) ∧ s.inChainMemory c p = false) ∧
    (∀ good, ∃ (s : State) (name : W64) (c : Chain) (p : Nat × Nat), (s.fe.chains.find? fun c => decide (c.name = name)) = some c ∧
      c.ptr = some p ∧ s.recordRoom c.queue = true ∧ s.fe.fenced = false ∧ s.cx.mpfault = false ∧ s.pw.mstate = .active ∧
      (c.kernel = true ∨ s.served c.tag = true) ∧ s.inChainMemory c p = true ∧ s.accepts p.1 = true ∧
      s.shiftOver (2 ^ p.1) = false ∧ s.isolates (State.idOf c.tag) (.controller p.1) = false ∧
        (checkDescriptor (s.chainDesc c.tag p.1 p.2) c.kernel true none).isNone = good) := by
  refine ⟨⟨chained 2048 [], mkName 1 1 0, chain 2048, (31, 2048), by decide +kernel⟩, ?_⟩
  intro good
  refine ⟨chained 2047 (if good then nopAt 2047 else []), mkName 1 1 0, chain 2047, (31, 2047), ?_⟩
  cases good <;> decide +kernel

/-- At tick 100, context 1 with runnable work on unit 0 of engine 0 that has not moved since tick 92, twice the window of 4, and
blocked for no reason or by its own words that stand before it; and contexts 1 and 2 whose work awaits each other's. -/
def stuck (kind : Nat) : Progress :=
  { unit := .sweep 0 0, ctx := some 1, count := 5, mirrored := 5, lastRise := 92, tr := 92, since := 8, kind := kind, tag := 0
    link := 0, runnable := true }
def awaiting (id other : Nat) : Progress :=
  { stuck 7 with ctx := some id, tag := BitVec.ofNat 24 (256 + other), tr := 100, runnable := false }
def hanging (auto : Bool) (ps : List Progress) : State :=
  { ready with
    mg := { ready.mg with tick := 100 }
    cx := { ready.cx with auto := auto, progress := ps, ctxs := [(1, ctx1), (2, { ctx1 with hung := true })] } }
def hangs (s : State) (p : Progress) : Bool :=
  !(s.ctx 1).hung && (s.ctx 1).state == .live && s.firmwareRuns && !s.hangOpen 0 && s.progressOf (.sweep 0 0) (some 1) == some p &&
  ((p.runnable && (p.kind == 0 || p.kind == 8) && decide (p.tr + s.cx.k * s.cx.window ≤ s.now)) || (p.kind == 7 && s.inCycle 1))

def dumpF : List (Nat × Nat × Nat) := [(56, 3, 0x101), (64, 8, 0x70000), (72, 8, 256)]
/-- A dump of context 1 under way, while slot 0 is its queue's. -/
def dumping : State := after (exec (.ctxDump (key 0 0)) { kern Op.ctxDump dumpF with fe := { (kern Op.ctxDump dumpF).fe with
  slots := { Slot.reset with queue := some 1 } :: List.replicate 15 Slot.reset } })
def dump : DumpInfo := { req := key 0 0, tick := 0, faultCtx := dumping.regFaultCtx, unreachable := [] }

/-- A CTX_DUMP that comes, or that has waited, of the context while it stands, is being reset, or is being dumped. -/
def dumpReq : Request := kr Op.ctxDump dumpF
def heldDump : Request := { dumpReq with state := .dispatched, hold := some .dump }
def dumpOf (r : Request) (c : Ctx) : State :=
  { withReqs ready [r] with cx := { Cx.reset with ctxs := [(1, c)] } }
def inReset : Ctx := { ctx1 with state := .resetting, resetting := some ending }
def inDump : Ctx := { ctx1 with fenced := true, dump := some dump }
def comes (s : State) (waits : Bool) : Bool :=
  s.ready? (key 0 0) Op.ctxDump == some dumpReq &&
  (s.tagLive 0x101 || got (s.ctx 1).resetting (fun x => x.tagBefore = 0x101)) &&
  (s.holdReq (key 0 0) (some .dump)).dumpWaits 1 == waits
def goesOn (s : State) (waits : Bool) : Bool :=
  (s.ready? (key 0 0) Op.ctxDump).isNone && s.req? (key 0 0) == some heldDump && s.firmwareRuns && s.dumpWaits 1 == waits

theorem witness_RecoveryCommands :
    (∀ auto : Bool, hangs (hanging auto [stuck 0]) (stuck 0) = true ∧ hangs (hanging auto [stuck 8]) (stuck 8) = true ∧
      hangs (hanging auto [awaiting 1 2, awaiting 2 1]) (awaiting 1 2) = true) ∧
    (∃ (s : State) (id site le : Nat) (x : ResetInfo), (s.ctx id).resetting = some x ∧ s.leOf site = some le ∧ site < 40 ∧
      x.noAck.contains site = false) ∧
    (State.payloadTag dumpReq = 0x101 ∧
      comes (dumpOf dumpReq ctx1) false = true ∧ comes (dumpOf dumpReq inDump) true = true ∧
        comes (dumpOf dumpReq inReset) true = true ∧
      goesOn (dumpOf heldDump ctx1) false = true ∧ goesOn (dumpOf heldDump inDump) true = true) ∧
    (∃ (s : State) (id : Nat) (u : HwUnit) (d : DumpInfo), (s.ctx id).dump = some d ∧ (s.unitsWith id).contains u = true ∧
      d.unreachable.contains u = false) ∧
    (∃ (s : State) (id : Nat) (d : DumpInfo), (s.ctx id).dump = some d ∧ (s.req? d.req).isSome = true ∧
      (s.ctx id).resetting = none ∧ s.firmwareRuns = true) ∧
    (∃ (s : State) (k : ReqKey) (r : Request), s.ready? k Op.counterReadAll = some r) :=
  ⟨by decide +kernel, ⟨resetting, 1, 38, 31, ending, by decide +kernel⟩, by decide +kernel,
    ⟨dumping, 1, .slot 0, dump, by decide +kernel⟩, ⟨dumping, 1, dump, by decide +kernel⟩,
    ⟨kern Op.counterReadAll [(56, 8, 0x70000)], key 0 0, kr Op.counterReadAll [(56, 8, 0x70000)], by decide +kernel⟩⟩

theorem witness_TickMirrorsAndGoverns :
    (∃ s : State, s.tickRuns = false) ∧ (∃ s : State, s.tickRuns = true ∧ s.newTick.firmwareRuns = false) ∧
    ∃ s : State, s.tickRuns = true ∧ s.newTick.firmwareRuns = true :=
  ⟨⟨State.reset, by decide +kernel⟩, ⟨{ State.reset with rs := { Rs.reset with phase := 3 } }, by decide +kernel⟩,
    ready, by decide +kernel⟩

/-- A POWER_SET of the kernel in a module state. -/
def powerF (scope v half limit : Nat) : List (Nat × Nat × Nat) := [(56, 1, scope), (57, 1, v), (58, 1, half), (60, 2, limit)]
def power (m : MState) (scope v half limit : Nat) : State :=
  { kern Op.powerSet (powerF scope v half limit) with pw := { ready.pw with mstate := m } }
def entering : State := { power .entering 0 1 0 0 with pw := { ready.pw with mstate := .entering, entry := some (key 0 0) } }

def sets (s : State) (scope v half : Nat) : Bool :=
  got (s.ready? (key 0 0) Op.powerSet) (fun r => r.fld 56 1 = scope ∧ r.fld 57 1 = v ∧ r.fld 58 1 = half ∧ s.shifting = false ∧
    s.pw.entry = none)
/-- A module that no context holds. -/
def vacant (s : State) : State := { s with cx := Cx.reset }

theorem witness_ModuleStates :
    (sets (power .active 0 0 0 0) 0 0 0 = true ∧ (power .active 0 0 0 0).pw.halfReq = []) ∧
    sets (power .standby 0 0 0 0) 0 0 0 = true ∧ sets (power .active 0 1 0 0) 0 1 0 = true ∧
    (sets (power .active 0 3 0 0) 0 3 0 = true ∧ (power .active 0 3 0 0).busyModule = true) ∧
    (sets (vacant (power .active 0 2 0 0)) 0 2 0 = true ∧ (vacant (power .active 0 2 0 0)).busyModule = false) ∧
    (∃ (s : State) (k : ReqKey), s.pw.entry = some k ∧ s.pw.mstate = .entering ∧ s.halfQuiet .west = true ∧
      s.halfQuiet .east = true ∧ s.fabricQuiet = true) ∧
    (∃ s : State, s.pw.mstate = .standby ∧ s.pw.autowake = true ∧ s.waitsInStandby = true) :=
  ⟨by decide +kernel, by decide +kernel, by decide +kernel, by decide +kernel, by decide +kernel,
    ⟨entering, key 0 0, by decide +kernel⟩, { solving with pw := { ready.pw with mstate := .standby } }, by decide +kernel⟩

/-- A POWER_SET of the West half to a state, from a state. -/
def halfPower (v : Nat) (x : HalfState) (en : Bool) : State :=
  { power .active 1 v 0 0 with cx := Cx.reset, pw := { ready.pw with halfW := x, enW := en } }
def hotSite : Site := { onSite with tj := 95 }
def hingeModel : Model := { mdl (.net net) with links := [55] }

/-- The West half set to a state, while a change of the East half is under way. -/
def setsHalf (v : Nat) (x : HalfState) : Bool :=
  let s := { halfPower v x true with pw := { (halfPower v x true).pw with halfReq := [(.east, .on, none)] } }
  sets s 1 v 0 && s.half .west == x && (s.halfRefusal .west v).isNone && s.pw.halfReq.all (fun y => decide (y.1 ≠ .west))
def tripBusy : State :=
  { halfPower 2 .tripped true with pw := { (halfPower 2 .tripped true).pw with halfReq := [(.west, .on, none)] } }

theorem witness_PowerSetHalfAndLimit :
    (sets (halfPower 0 .on false) 1 0 0 = true ∧ ((halfPower 0 .on false).halfRefusal .west 0).isSome = true ∧
      (halfPower 0 .on false).pw.halfReq = []) ∧
    (setsHalf 0 .on = true ∧ setsHalf 0 .ret = true ∧ setsHalf 1 .ret = true ∧ setsHalf 1 .on = true ∧ setsHalf 2 .on = true ∧
      sets tripBusy 1 2 0 = true ∧ tripBusy.half .west = .tripped ∧ tripBusy.halfRefusal .west 2 = none) ∧
    (∃ (s : State) (k : ReqKey) (r : Request), s.ready? k Op.powerSet = some r ∧ r.fld 56 1 = 2 ∧ s.run? k = none) ∧
    (∃ s : State, s.halfEnabled .east = false) ∧
    (∃ s : State, s.halfEnabled .west = true ∧ s.half .west = .tripped ∧ s.tripHot .west = true) ∧
    (∃ s : State, s.halfEnabled .west = true ∧ s.half .west ≠ .on ∧ s.vinGood .west = false) ∧
    (∃ s : State, s.halfEnabled .west = true ∧ s.half .west = .on) ∧
    (∃ s : State, s.halfEnabled .west = true ∧ s.hingeUser = some 55) ∧
    (∃ s : State, s.halfEnabled .west = true ∧ s.hingeUser = none ∧ s.halfAllocated .west = true) := by
  exact ⟨by decide +kernel, by decide +kernel,
    ⟨power .active 2 0 0 650, key 0 0, kr Op.powerSet (powerF 2 0 0 650), by decide +kernel⟩,
    ⟨{ ready with pw := { ready.pw with enE := false } }, by decide +kernel⟩,
    ⟨{ ready with sites := hotSite :: List.replicate 39 onSite, pw := { ready.pw with halfW := .tripped } }, by decide +kernel⟩,
    ⟨{ ready with pw := { ready.pw with halfW := .off, vinW := false } }, by decide +kernel⟩, ⟨ready, by decide +kernel⟩,
    ⟨{ ready with models := [(0, hingeModel)] }, by decide +kernel⟩, ⟨ready, by decide +kernel⟩⟩

theorem witness_PowerAndHeatEvents :
    (∃ (s : State) (i : Nat), i < 40 ∧ (s.site i).dstate = .on ∧ (s.site i).overshoot = false) ∧
    (∃ i : Nat, i < 40) ∧ (∃ (s : State) (h : Half), s.half h ≠ .tripped ∧ s.pw.mstate ≠ .hibernate ∧
      s.pw.mstate ≠ .hibernateM) ∧
    ∀ x, x = MState.hibernate ∨ x = .hibernateM → ∃ s : State, s.pw.mstate = x :=
  ⟨⟨ready, 39, by decide +kernel⟩, ⟨39, by decide⟩, ⟨ready, .east, by decide +kernel⟩,
    fun x _ => ⟨{ ready with pw := { ready.pw with mstate := x } }, rfl⟩⟩

/-- A half-row with a spare shift under way, before and after its pause. -/
def shiftRow (paused : Bool) : State :=
  { ready with fb := { Fb.reset with
      hrows := { HalfRow.reset with shift := some { pos := 1, paused := paused, unreadable := [], req := none } } ::
        List.replicate 7 HalfRow.reset } }
def withSite (x : Site) : State := { ready with sites := x :: List.replicate 39 onSite }
def repair (rows : List HalfRow) (sites : List Site) : State :=
  { kern Op.engineRepair [] with fb := { Fb.reset with hrows := rows ++ List.replicate (8 - rows.length) HalfRow.reset }
                                 sites := sites ++ List.replicate (40 - sites.length) onSite }

theorem witness_SiteChecksAndRepair :
    (∃ (s : State) (site : Nat), site < 40 ∧ (s.site site).dstate = .on) ∧
    (got (turning.leOf 0) (fun le => got ((turning.noteBadWord 0 (.footprint 0) 5).rblock? le 0) (fun x =>
      got ((turning.noteBadWord 0 (.footprint 0) 5).runOn x.1) (fun u => x.2.2.replica < u.reps) = true) = true) = true) ∧
    (∃ (s : State) (site : Nat), State.threeFaults (s.site site).logic = true) ∧
    (∃ (s : State) (site : Nat), State.recurred (s.site site).badWords = true) ∧
    (∃ (s : State) (site : Nat), (s.site site).clearing = true) ∧ (∃ (s : State) (site : Nat), (s.site site).scrub = true) ∧
    (∃ (s : State) (k : ReqKey) (r : Request), s.ready? k Op.engineRetire = some r) ∧
    (∃ (s : State) (k : ReqKey) (r : Request) (x : Shift), s.ready? k Op.engineRepair = some r ∧
      (s.hrow (r.fld 56 1)).shift = some x ∧ x.req = none) ∧
    (∃ (s : State) (k : ReqKey) (r : Request) (p : Nat), s.ready? k Op.engineRepair = some r ∧
      (s.hrow (r.fld 56 1)).shift = none ∧ p < 4 ∧ (s.site (State.siteAt (r.fld 56 1) p)).failed = true ∧
      (∀ j, j < p → (s.site (State.siteAt (r.fld 56 1) j)).failed = false) ∧ (s.hrow (r.fld 56 1)).spareok = true) ∧
    (∃ (s : State) (k : ReqKey) (r : Request), s.ready? k Op.engineRepair = some r ∧ (s.hrow (r.fld 56 1)).shift = none ∧
      (∀ p, p < 4 → (s.site (State.siteAt (r.fld 56 1) p)).failed = false) ∧ s.run? k = none) ∧
    (∃ (s : State) (h : Nat) (x : Shift), (s.hrow h).shift = some x ∧ x.paused = false ∧
      (∀ u ∈ s.runsOnRow h, s.turning u = false) ∧ s.rowQuiet h = true) ∧
    (∃ (s : State) (h : Nat) (x : Shift), (s.hrow h).shift = some x ∧ x.paused = true) :=
  ⟨⟨ready, 39, by decide +kernel⟩, by decide +kernel, ⟨withSite { onSite with logic := [0, 500, 1000] }, 0, by decide +kernel⟩,
    ⟨withSite { onSite with badWords := [(.scratch, 5, true), (.scratch, 5, false)] }, 0, by decide +kernel⟩,
    ⟨withSite { onSite with clearing := true }, 0, by decide +kernel⟩, ⟨withSite { onSite with scrub := true }, 0, by decide +kernel⟩,
    ⟨kern Op.engineRetire [(56, 1, 39)], key 0 0, kr Op.engineRetire [(56, 1, 39)], by decide +kernel⟩,
    ⟨repair [{ HalfRow.reset with shift := some ⟨1, false, [], none⟩ }] [], key 0 0, kr Op.engineRepair [], ⟨1, false, [], none⟩,
      by decide +kernel⟩,
    ⟨repair [] [onSite, onSite, onSite, { onSite with failed := true }], key 0 0, kr Op.engineRepair [], 3, by decide +kernel⟩,
    ⟨repair [] [], key 0 0, kr Op.engineRepair [], by decide +kernel⟩,
    ⟨shiftRow false, 0, ⟨1, false, [], none⟩, by decide +kernel⟩, ⟨shiftRow true, 0, ⟨1, true, [], none⟩, by decide +kernel⟩⟩

/-- A parameter block of an APPEND record: generation 5, 64 samples, two elements of 16 bits, one channel (15 Table 15.3). -/
def paramMem : Mem :=
  [(0x48000, 1), (0x48001, 5), (0x4800C, 64), (0x48010, 2), (0x48040, 0x08), (0x48042, 1), (0x48044, 1), (0x48052, 6), (0x48080, 0x80)]
def bindF : List (Nat × Nat × Nat) := [(56, 3, 0x101), (60, 4, 65535), (64, 8, handle), (72, 8, 0x48000), (80, 1, 15)]
def binding : State := { having (.store ring) (kern Op.siteBind bindF) with host := paramMem }
/-- A record bound by context 1: of kind `kind`, of two 16-bit elements to entry 0, with samples in its buffer. -/
def stream (kind state : Nat) (buf : List Sample) : Stream :=
  { state := state, kind := kind, gen := 5, tag := 0x101, queue := 1
    params := (List.range 192).map fun i => Mem.read paramMem (0x48000 + i), target := 0, home := 0, pages := 1, partialS := none
    buffer := buf, lastSeq := none, logNext := 0, nextSeq := 0, stale := 0, malform := 0, oldseq := 0, incompl := 0, full := 0
    superseded := 0, txfull := 0, lateC := 0, lastOut := none, vars := [] }
def streaming (x : Stream) (s : State) : State :=
  { having (.store ring) s with
    st := { ready.st with streams := [(5, x)] }, groups := [grp (.stream 5)] }
def unbindF (n : Nat) : List (Nat × Nat × Nat) := [(56, 3, 0x101), (59, 1, 1), (60, 4, n)]

/-- A binding whose checks accept, of a free record or of a stopped one of the same owner. -/
def binds (s : State) : Bool :=
  let r := kr Op.siteBind bindF
  let tag := State.payloadTag r
  let len := State.paramLen (s.readSpace r (r.fld 72 8) 128)
  let d := s.readSpace r (r.fld 72 8) len
  let u := (s.bindMet r tag d len .clean).1
  let n := r.fld 60 4
  let t := if (u.stream? n).any (fun x => decide (x.state = 2)) then u.releaseStream n else u
  s.ready? (key 0 0) Op.siteBind == some r && !bitAt (r.fld 59 1) 0 && s.tagLive tag && s.recordFree n tag &&
  gotOk (s.bindTarget tag (r.fld 64 8)) (fun target =>
    gotOk (s.reachOk r (r.fld 72 8) 128 false) (fun _ => True) = true ∧ s.transferUp (r.fld 72 8) = true ∧
    gotOk (s.reachOk r (r.fld 72 8) len false) (fun _ => True) = true ∧
    s.shiftOver (2 ^ r.fld 80 1) = false ∧ s.accepts (r.fld 80 1) = true ∧ (s.bindMet r tag d len .clean).2 = .clean ∧
    State.paramReserved d d.length = none ∧ 1 ≤ field d 0 1 ∧ field d 0 1 ≤ 4 ∧ got (u.paramTarget d target).1 (fun sized =>
      leastOf (u.paramInvalid tag d target (((u.stream? n).map (·.gen)).getD 0) sized (u.paramTarget d target).2) = none) = true ∧
    t.bindRefusal tag d (r.fld 80 1)
      (t.streamEngines (State.boundStream none tag r.queue d (target.getD 0) (r.fld 80 1) [])) = none)

theorem witness_SiteBindAndUnbind :
    binds binding = true ∧
    binds { binding with st := { binding.st with streams := [(65535, { stream 1 2 [] with gen := 4 })] }, groups := [grp (.stream 65535)] } = true ∧
    (∃ (s : State) (k : ReqKey) (r : Request) (x : Stream), s.ready? k Op.siteBind = some r ∧ bitAt (r.fld 59 1) 0 = true ∧
      s.tagLive (State.payloadTag r) = true ∧ s.stream? (r.fld 60 4) = some x ∧ x.state ≠ 0 ∧ x.tag = State.payloadTag r) ∧
    (∃ (s : State) (k : ReqKey) (r : Request), s.ready? k Op.siteBind = some r ∧ bitAt (r.fld 59 1) 0 = true ∧
      s.tagLive (State.payloadTag r) = true ∧ s.stream? (r.fld 60 4) = none) :=
  ⟨by decide +kernel, by decide +kernel,
    ⟨streaming (stream 1 1 []) (kern Op.siteBind (unbindF 5)), key 0 0, kr Op.siteBind (unbindF 5), stream 1 1 [], by decide +kernel⟩,
    ⟨kern Op.siteBind (unbindF 6), key 0 0, kr Op.siteBind (unbindF 6), by decide +kernel⟩⟩

/-- A SCALE_POLICY of group 0 of entry 0, set or cleared, and a group that awaits its policy. -/
def policyF (set : Bool) : List (Nat × Nat × Nat) :=
  [(57, 1, if set then 1 else 0), (64, 8, handle)] ++ if set then [(58, 1, 1), (60, 2, 0x0001), (62, 2, 0x7FFF)] else []
def awaits (stopped : Bool) : Group :=
  { grp (.model 0 0) with awaiting := true, stopped := stopped, policy := some { n := 1, floor := 1, ceil := 0x7FFF } }

theorem witness_ScalePolicyActs :
    (∀ set, ∃ (s : State) (k : ReqKey) (r : Request), s.ready? k Op.scalePolicy = some r ∧
      gotOk (s.policyGroup r) (fun _ => True) = true ∧ bitAt (r.fld 57 1) 0 = set) ∧
    (∀ stopped, ∃ (s : State) (g : Group) (p : Policy),
      (s.groups.find? fun x => decide (x.le = 0) && decide (x.gbase = 0) && x.awaiting) = some g ∧ g.policy = some p ∧
      g.stopped = stopped) := by
  constructor
  · intro set
    refine ⟨stored (kern Op.scalePolicy (policyF set)), key 0 0, kr Op.scalePolicy (policyF set), ?_⟩
    cases set <;> decide +kernel
  · intro stopped
    refine ⟨{ ready with groups := [awaits stopped] }, awaits stopped, { n := 1, floor := 1, ceil := 0x7FFF }, ?_⟩
    cases stopped <;> decide +kernel

/-- Samples of the record and of an APPEND under way; the second block number cannot be opened. -/
def sample (block : Nat) : Sample := { seq := 0, block := block, elems := [some [1, 0], some [2, 0]], stamp := 0 }
def rawAppend : Request :=
  { ur Op.append (appendF 1 1) with
    state := .dispatched, samples := [(0, [1, 0, 2, 0])], append := some { store := 0, first := 2, count := 1, done := 0, elems := [] } }

/-- The front sample of record 5 is converted, or its block cannot be opened. -/
def converts (kind block : Nat) (fits : Bool) : Bool :=
  let x := stream kind 1 [sample block]
  let s := streaming x ready
  s.converts (grp (.stream 5)) && s.stream? 5 == some x && s.group? (.stream 5) == some (grp (.stream 5)) && s.served x.tag &&
  s.vectorRouted (grp (.stream 5)) (s.streamEngines x) &&
  gotOk ((grp (.stream 5)).convert block (sample block).raws x.width) (fun _ => True) == fits

theorem witness_SampleConversionActs :
    converts 1 0 true = true ∧ converts 2 0 true = true ∧ converts 1 9 false = true ∧
    (∃ (s : State) (k : ReqKey) (r : Request) (a : AppendWork) (g : Group) (h : Store), s.converts g = true ∧
      s.req? k = some r ∧
      r.append = some a ∧ r.samples = [(0, [1, 0, 2, 0])] ∧ r.op = Op.append ∧ s.group? (.model a.store (r.fld 82 2)) = some g ∧
      s.store? a.store = some h ∧ r.state = .dispatched ∧ s.served r.tag = true ∧
      s.vectorRouted g (State.enginesOf (((s.model? a.store).map (·.mask)).getD 0)) = true ∧
      gotOk (g.convert 0 [1, 0, 2, 0] h.width) (fun _ => True) = true) :=
  ⟨by decide +kernel, by decide +kernel, by decide +kernel,
    ⟨stored (withReqs ready [rawAppend]), key 1 0, rawAppend, ⟨0, 2, 1, 0, []⟩, grp (.model 0 0), ring, by decide +kernel⟩⟩

/-- A frame for the record of `stream`: its header says kind and generation, and more payload follows (15 Table 15.5). -/
def frame (kind gen count : Nat) (more : Bytes) : SiteFrame :=
  { tagged := false, vlan := 0, port := 0, ipv6 := false, prpSeq := none, now := 800
    payload := [(4, 1, kind), (5, 1, gen), (26, 2, count)].foldl putField (List.replicate 32 0) ++ more }
def stray : SiteFrame := { frame 1 5 1 [] with port := 9 }
def inbound (x : Stream) : State := streaming x ready
/-- A SCALE record whose data record is 5, and one scale record for block 2 of channel 0. -/
def scaleStream : Stream :=
  { stream 3 1 [] with params := [(0, 1, 3), (1, 1, 5), (56, 8, 5)].foldl putField (List.replicate 128 0) }
def scaleRec : Bytes := [2, 0, 0, 0, 0x80, 0, 0, 0, 0, 0, 0, 0, 0, 0, 0, 0]

theorem witness_InboundFrames :
    (∃ (s : State) (l : Nat) (f : SiteFrame), s.laneUp l = true ∧ 9216 < State.frameLength f) ∧
    (∃ (s t : State) (l : Nat) (f : SiteFrame), s.laneUp l = true ∧ (s.atInstant f.now).dedup l f = (t, false) ∧
      State.frameLength f ≤ 9216 ∧ t.matching f = none) ∧
    (∃ (s t : State) (l : Nat) (f : SiteFrame) (n : Nat) (x : Stream), s.laneUp l = true ∧
      (s.atInstant f.now).dedup l f = (t, false) ∧ t.matching f = some (n, x) ∧ x.gen ≠ field f.payload 5 1) ∧
    (∃ (s t : State) (l : Nat) (f : SiteFrame) (n : Nat) (x : Stream), s.laneUp l = true ∧
      (s.atInstant f.now).dedup l f = (t, false) ∧ t.matching f = some (n, x) ∧ x.gen = field f.payload 5 1 ∧
      State.badHeader f.payload 1 = false ∧ x.kind ≤ 2 ∧ field f.payload 12 4 < x.width ∧
      field f.payload 12 4 + field f.payload 26 2 ≤ x.width ∧ 32 + field f.payload 26 2 * x.rawWidth ≤ f.payload.length) ∧
    (∃ (s t : State) (l : Nat) (f : SiteFrame) (n : Nat) (x : Stream) (g : Group), s.laneUp l = true ∧
      (s.atInstant f.now).dedup l f = (t, false) ∧ t.matching f = some (n, x) ∧ x.gen = field f.payload 5 1 ∧
      State.badHeader f.payload 2 = false ∧ x.kind = 3 ∧ field f.payload 12 4 = 0 ∧
      32 + 16 * field f.payload 26 2 ≤ f.payload.length ∧ t.group? (.stream (x.p 56 2)) = some g ∧ g.stopped = false ∧
      (∀ r ∈ State.messageRecords f.payload (field f.payload 26 2), scaleRecordBad g.chans.length r = none) ∧
      gotOk (g.queueRecords ((State.messageRecords f.payload (field f.payload 26 2)).map scaleRecord)) (fun _ => True) = true) :=
  ⟨⟨inbound (stream 1 1 []), 0, { stray with payload := List.replicate 9171 0 }, by decide +kernel⟩,
    ⟨inbound (stream 1 1 []), _, 0, stray, by decide +kernel, rfl, by decide +kernel⟩,
    ⟨inbound (stream 1 1 []), _, 0, frame 1 4 1 [], 5, stream 1 1 [], by decide +kernel, rfl, by decide +kernel⟩,
    ⟨inbound (stream 1 1 []), _, 0, frame 1 5 2 [1, 0, 2, 0], 5, stream 1 1 [], by decide +kernel, rfl, by decide +kernel⟩,
    ⟨inbound scaleStream, _, 0, frame 2 5 1 scaleRec, 5, scaleStream, grp (.stream 5), by decide +kernel, rfl, by decide +kernel⟩⟩

/-- A setpoint of record 5 that may leave on lane 0 at 800 ns. -/
def setpoint : Setpoint :=
  { recNo := 5, seq := 0, launch := 800, block := 0, late := false, raws := [1, 0, 2, 0], lanes := [0], rct := none }
def sending : State :=
  { streaming (stream 4 1 []) ready with st := { (streaming (stream 4 1 []) ready).st with setpoints := [setpoint] } }
def prpBoth : State :=
  { ready with st := { ready.st with lane0 := { SiteLane.reset with state := 2, prp := true }
                                     lane1 := { SiteLane.reset with state := 2, prp := true } } }

theorem witness_SiteLanesAndSetpoints :
    (∃ (s : State) (l : Nat), s.laneUp l = true) ∧ (∃ s : State, s.prpLanes ≠ []) ∧
    (∃ (s : State) (l : Nat), l < 2 ∧ (s.siteLane l).state = 1 ∧ s.rs.clkSite = true) ∧
    (∀ level, ∃ (s : State) (bit : Nat), bit < 8 ∧ bitAt s.st.diLevel.toNat bit = !level) ∧
    (∃ (s : State) (l now : Nat), s.laneUp l = true ∧
      got ([7, 6, 5, 4, 3, 2, 1, 0].findSome? fun q => (s.atInstant now).maySend l q (State.instant now)) (fun _ => True) = true) ∧
    (∃ (s : State) (l now : Nat), l < 2 ∧ ((State.cycleOf (s.siteLane l).gcl).map (·.2)).sum ≠ 0 ∧
      State.entryAt 0 (State.cycleOf (s.siteLane l).gcl) (State.instant now % ((State.cycleOf (s.siteLane l).gcl).map (·.2)).sum) =
        (0, 1000000)) := by
  refine ⟨⟨ready, 0, by decide +kernel⟩, ⟨prpBoth, by decide +kernel⟩,
    ⟨{ ready with st := { ready.st with lane1 := { SiteLane.reset with state := 1 } } }, 1, by decide +kernel⟩,
    fun level => ⟨{ ready with st := { ready.st with diLevel := if level then 0 else 0x80 } }, 7, ?_⟩,
    ⟨sending, 0, 807, by decide +kernel⟩, ⟨ready, 1, 1000007, by decide +kernel⟩⟩
  cases level <;> decide +kernel

/-- The module whose package 31 is in a state. -/
def packages (p : Package) : State := { ready with hb := { ready.hb with pkgs := List.replicate 31 Package.reset ++ [p] } }
def served : Package := { Package.reset with state := 0 }
def halved : Package := { Package.reset with state := 1, failch := 1 }
def readOf (corrected double : Bool) : ScrubRead := { place := .free, corrected := corrected, double := double, atag := addressTag 7 }
def badUnit : Burst := ⟨31, 7, .free, true, 0⟩

theorem witness_HubsAndPackages :
    ((packages served).pkgServed 31 = true ∧ (packages served).scrubs = true ∧ State.packageUnits served = 2 ^ 30 ∧
      (packages halved).pkgServed 31 = true ∧ State.packageUnits halved = 3 * 2 ^ 28) ∧
    ((packages { served with bad := [badUnit] }).stillBad 31 7 (readOf false false).place = some badUnit ∧
      (packages served).stillBad 31 7 (readOf false false).place = none ∧
      burstBad { badUnit with double := true, atag := (readOf false true).atag } = true ∧
      burstBad { badUnit with double := false, atag := (readOf false false).atag } = false) ∧
    ((packages served).pkg 31).state = 0 ∧
    (3 ∈ ((packages { served with recurred := [3] }).pkg 31).recurred ∧
      4 ≤ (((packages { served with bursts := [(3, 0), (3, 1), (3, 2), (3, 3)] }).pkg 31).bursts.filter fun b => decide (b.1 = 3)).length) ∧
    (((packages halved).pkg 31).state = 1 ∧ bitAt ((packages halved).pkg 31).failch.toNat 3 = false ∧
      State.channelFailed ((packages halved).pkg 31) 3 true = true) ∧
    ready.hb.hubW ≠ 3 ∧ ready.hb.hubE ≠ 3 := by
  decide +kernel

/-- Common SRAM whose last region is in a mode. -/
def sram (m : MemMode) : State := { ready with cs := { ready.cs with modes := List.replicate 127 .plain ++ [m] } }
def cleared : State := { ready with cs := { ready.cs with clearing := true } }
def openSram (s : State) : Bool := s.linkUp .a && s.csReach && !(s.wakeLink .a).cs.clearing
/-- The last byte, and the last word, of common SRAM, in each window of module space. -/
def lastByte (w : CsWindow) : Nat := match w with
  | .plain => 0x017FFFFF
  | .setBits => 0x01FFFFFF
  | .clearBits => 0x027FFFFF

theorem witness_CommonSramAccesses :
    (∀ w ∈ [CsWindow.plain, .setBits, .clearBits], State.csFits (lastByte w) 1 = true ∧
      State.csWindow (lastByte w) = some (w, 0x7FFFFF)) ∧
    (openSram (sram .plain) = true ∧ openSram (sram .atomic) = true ∧ openSram (sram .bitalias) = true) ∧
    ((sram .atomic).wakeLink .a).csMode 0x7FFFFF = .atomic ∧
    (((sram .bitalias).wakeLink .a).csMode 0x7FFFFF = .bitalias ∧ ((sram .bitalias).wakeLink .a).csBad 0x7FFFFF 1 .clean = []) ∧
    (∀ size ∈ [4, 8], (0x01800000 - size) % size = 0 ∧ State.csWindow (0x01800000 - size) = some (.plain, 0x800000 - size) ∧
      ((sram .bitalias).wakeLink .a).csMode (0x800000 - size) ≠ .atomic ∧
      ((sram .atomic).wakeLink .a).csMode (0x800000 - size) = .atomic ∧
      ((sram .atomic).wakeLink .a).csBad (0x800000 - size) size .clean = []) ∧
    (State.csFits 0x017FFFC0 64 = true ∧ State.csWindow 0x017FFFC0 = some (.plain, 0x7FFFC0) ∧
      ((sram .plain).wakeLink .a).csBad 0x7FFFC0 64 .clean = []) ∧
    (cleared.linkUp .a = true ∧ cleared.csReach = true ∧ (cleared.wakeLink .a).cs.clearing = true ∧
      State.csFits 0x01000000 1 = true) ∧
    (ready.linkUp .a = true ∧ State.csFits 0x0100003F 2 = false) := by
  decide +kernel

def entropy (f : Rn → Rn) : State := { ready with rn := f ready.rn }
def holding (s : State) : State := { s with hp := { s.hp with hasps := some Port.a :: List.replicate 63 none } }

/-- 1,024 raw bits, alternately 0 and 1. -/
def evenBits : BitVec 1024 := BitVec.ofNat 1024 ((2 ^ 1024 - 1) / 3)

theorem witness_EntropyService :
    (∀ f, ∃ (s : State) (raw : BitVec 1024), s.rn.state = .ok ∧ s.rawFault raw = some f) ∧
    (∃ (s : State) (raw : BitVec 1024), s.rn.state = .ok ∧ s.rawFault raw = none ∧ s.needsSeed = none ∧
      s.rn.queue.length + 2 ≤ 512) ∧
    (∀ n, n = 0 ∨ n = 2 → ∃ (s : State) (raw : BitVec 1024) (i : Fin 3), s.rn.state = .ok ∧ s.rawFault raw = none ∧
      s.needsSeed = some i ∧ s.rn.seedBlocks.length = n) ∧
    (∀ x, x = EntState.startup ∨ x = .failed → ∀ b, ∃ s : State, s.rn.state = x ∧ s.rn.fallen = b ∧ s.rn.latch = false) ∧
    (∃ s : State, s.rn.state = .startup ∧ s.rn.fallen = true ∧ s.rn.latch = true) ∧
    (∃ s : State, s.rn.state = .failed ∧ s.rn.latch = true) ∧
    (∀ w, w ≤ 1 → ∃ (s : State) (p : Port) (x : W64) (rest : List W64), s.regReach p (0x30000 + 0x40 * w) = .open_ ∧
      (s.wakeLink p).rn.state = .ok ∧ (s.wakeLink p).rn.queue = x :: rest) ∧
    (∃ (s : State) (p : Port), s.regReach p 0x30000 = .open_ ∧ (s.wakeLink p).rn.queue = []) ∧
    (∃ (s : State) (p : Port) (d : Drbg), s.regReach p 0x30010 = .open_ ∧ (s.wakeLink p).rn.state = .ok ∧
      (s.wakeLink p).window 0 = some d ∧ d.calls < 65536 ∧ ∃ y, d.generate 8 = y) ∧
    (∃ (s : State) (p : Port) (d : Drbg), s.regReach p 0x30010 = .open_ ∧ (s.wakeLink p).rn.state = .ok ∧
      (s.wakeLink p).window 0 = some d ∧ 65536 ≤ d.calls ∧ 6 ≤ (s.wakeLink p).rn.queue.length) ∧
    (∃ (s : State) (p : Port), s.regReach p 0x30050 = .open_ ∧ (s.wakeLink p).window 1 = none) ∧
    (∃ (s : State) (p : Port), s.regReach p 0x30080 = .open_ ∧ (s.wakeLink p).holdsSetup p = true ∧
      (s.wakeLink p).rn.state = .failed ∧ (s.wakeLink p).rn.testOk = true) ∧
    (∃ (s : State) (p : Port), s.regReach p 0x30080 = .open_ ∧ (s.wakeLink p).holdsSetup p = true ∧
      ¬((s.wakeLink p).rn.state = .failed ∧ (s.wakeLink p).rn.testOk = true)) ∧
    (∃ (s : State) (p : Port), s.regReach p 0x30080 = .open_ ∧ (s.wakeLink p).holdsSetup p = false) := by
  refine ⟨?_, ⟨entropy fun r => { r with win1 := some ⟨5, 6, 0⟩ }, evenBits, by decide +kernel⟩, ?_, ?_,
    ⟨entropy fun r => { r with state := .startup, fallen := true, latch := true }, by decide +kernel⟩,
    ⟨entropy fun r => { r with state := .failed, latch := true }, by decide +kernel⟩, ?_,
    ⟨entropy fun r => { r with queue := [] }, .a, by decide +kernel⟩,
    ⟨entropy fun r => { r with win0 := some ⟨3, 4, 65535⟩ }, .a, ⟨3, 4, 65535⟩, by decide +kernel, rfl, rfl, by decide, _, rfl⟩,
    ⟨entropy fun r => { r with win0 := some ⟨3, 4, 65536⟩ }, .a, ⟨3, 4, 65536⟩, by decide +kernel⟩, ⟨ready, .a, by decide +kernel⟩,
    ⟨holding (entropy fun r => { r with state := .failed, testOk := true, latch := true }), .a, by decide +kernel⟩,
    ⟨holding ready, .a, by decide +kernel⟩, ⟨ready, .a, by decide +kernel⟩⟩
  · rintro (_ | _)
    · exact ⟨ready, BitVec.ofNat 1024 ((2 ^ 1024 - 1) / 3 * 2 ^ 81), by decide +kernel⟩
    · exact ⟨ready, BitVec.ofNat 1024 ((2 ^ 1024 - 1) / (2 ^ 64 - 1) * (2 ^ 63 - 1)), by decide +kernel⟩
  · rintro n (rfl | rfl)
    · exact ⟨ready, evenBits, 2, by decide +kernel⟩
    · exact ⟨entropy fun r => { r with seedBlocks := [1, 2] }, evenBits, 2, by decide +kernel⟩
  · rintro x (rfl | rfl) b
    · exact ⟨entropy fun r => { r with state := .startup, fallen := b }, rfl, rfl, rfl⟩
    · exact ⟨entropy fun r => { r with state := .failed, fallen := b }, rfl, rfl, rfl⟩
  · intro w h
    obtain rfl | rfl : w = 0 ∨ w = 1 := by omega
    · exact ⟨ready, .a, 5, [6, 7, 8, 9, 10, 11], by decide +kernel⟩
    · exact ⟨ready, .a, 5, [6, 7, 8, 9, 10, 11], by decide +kernel⟩

/-- A module whose host port A is in a state, with options and keys: port A encrypted, and a key for it, peer links 1
encrypted. -/
def linkState (x : LinkState) : State := { ready with hp := { ready.hp with portA := { HostPort.reset with state := x } } }
def encrypt (keys : Bool) (s : State) : State :=
  { s with rs := { s.rs with option := List.replicate 6 0 ++ [0x10, 0x01, 0x01] ++ List.replicate 247 0
                             keys := if keys then [(0x140, 1), (0x180, 1)] else [] } }
def sec : LinkSec := { txKey := 1, txSalt := 2, rxKey := 3, rxSalt := 4, epoch := 1 }

theorem witness_HostLinks :
    (∃ (s : State) (p : Port), s.mayTrain (s.port p).state = true ∧ s.hostWidth p ≠ 3 ∧ s.hostEncrypted p = false) ∧
    (∃ (s : State) (p : Port), s.mayTrain (s.port p).state = true ∧ s.hostWidth p ≠ 3 ∧ s.hostEncrypted p = true ∧
      s.hostKey p = none) ∧
    (∃ (s : State) (p : Port), s.mayTrain (s.port p).state = true ∧ s.hostWidth p ≠ 3 ∧ s.hostEncrypted p = true ∧
      (s.hostKey p).isSome = true ∧ (s.drawFw 16).isSome = true) ∧
    (∃ (s : State) (p : Port), s.linkUp p = true ∧ (s.port p).sec ≠ none ∧ s.dw.chalPort ≠ some p) ∧
    (∃ (s : State) (p : Port), s.linkUp p = true ∧ (s.port p).sec = none ∧ s.dw.chalPort = some p) :=
  ⟨⟨linkState .down, .a, by decide +kernel⟩, ⟨encrypt false (linkState .training), .a, by decide +kernel⟩,
    ⟨encrypt true (linkState .training), .a, by decide +kernel⟩,
    ⟨{ ready with hp := { ready.hp with portA := { ready.hp.portA with sec := some sec } } }, .a, by decide +kernel⟩,
    ⟨{ ready with dw := { ready.dw with chalPort := some .a } }, .a, by decide +kernel⟩⟩

/-- Host port A and peer link 0 are up and encrypted, and a flit of each was asked for 8 times. -/
def tired : State :=
  encrypt true { manager ready with
    hp := { ready.hp with portA := { ready.hp.portA with sec := some sec, again := 8 } }
    pr := { (manager ready).pr with
      links := { PeerLink.reset with state := .up, kind := 2, peer := 1, sec := some sec, again := 8 } :: List.replicate 7 PeerLink.reset } }

theorem witness_ReplayRetrainRekey :
    (∃ (s : State) (p : Port) (seq newest : BitVec 10), s.linkUp p = true ∧ (newest - seq).toNat + 1 ≤ 128) ∧
    (∃ (s : State) (l : Nat) (seq newest : BitVec 10), s.peerUp l = true ∧ (newest - seq).toNat + 1 ≤ 128) ∧
    (∃ (s : State) (p : Port), s.linkUp p = true ∧ 8 ≤ (s.port p).again ∧
      (State.hostSession (s.setPort p { s.port p with retrain := satInc 8 (s.port p).retrain, again := 0 }) p 5).isSome = true) ∧
    (∃ (s : State) (l : Nat), s.peerUp l = true ∧ 8 ≤ (s.peer l).again ∧ (s.peerSession l (s.peer l).peer 5).isSome = true) ∧
    (∃ (s : State) (p : Port), s.linkUp p = true ∧ (s.port p).sec = some sec ∧ (s.hostKey p).isSome = true ∧
      (s.drawFw 16).isSome = true) ∧
    (∃ (s : State) (l : Nat), s.peerUp l = true ∧ (s.peer l).sec = some sec ∧ s.peerKey.isSome = true ∧
      (s.drawFw 16).isSome = true) :=
  ⟨⟨tired, .a, 1020, 123, by decide +kernel⟩, ⟨tired, 0, 1020, 123, by decide +kernel⟩, ⟨tired, .a, by decide +kernel⟩,
    ⟨tired, 0, by decide +kernel⟩, ⟨tired, .a, by decide +kernel⟩, ⟨tired, 0, by decide +kernel⟩⟩

def haspHeld (n : Nat) (p : Port) : State := { ready with hp := { ready.hp with hasps := (List.replicate 64 none).set n (some p) } }

theorem witness_HaspAccesses :
    (∃ (s : State) (p : Port) (n : Nat), n < 64 ∧ s.regReach p (0x1100 + 8 * n) = .open_ ∧
      (s.wakeLink p).hp.hasps.getD n none = none) ∧
    (∀ q, ∃ (s : State) (p : Port) (n : Nat), n < 64 ∧ s.regReach p (0x1100 + 8 * n) = .open_ ∧
      (s.wakeLink p).hp.hasps.getD n none = some q) ∧
    (∃ (s : State) (p : Port) (n : Nat), n < 64 ∧ s.regReach p (0x1100 + 8 * n) = .open_ ∧
      (s.wakeLink p).hp.hasps.getD n none = some p) ∧
    (∃ (s : State) (p q : Port) (n : Nat) (v : W64), n < 64 ∧ s.regReach p 0x1310 = .open_ ∧ bitAt v.toNat 6 = true ∧
      v.toNat % 64 = n ∧ (s.wakeLink p).hp.hasps.getD n none = some q ∧ q ≠ p) ∧
    (∃ (s : State) (p : Port) (n : Nat) (v : W64), n < 64 ∧ s.regReach p 0x1310 = .open_ ∧ bitAt v.toNat 6 = true ∧
      v.toNat % 64 = n ∧ (s.wakeLink p).hp.hasps.getD n none = none) := by
  refine ⟨⟨ready, .a, 63, by decide +kernel⟩, fun q => ⟨haspHeld 63 q, .a, 63, ?_⟩, ⟨haspHeld 0 .a, .a, 0, by decide +kernel⟩,
    ⟨haspHeld 63 .b, .a, .b, 63, 0x7F, by decide +kernel⟩, ⟨ready, .a, 0, 0x40, by decide +kernel⟩⟩
  cases q <;> decide +kernel

theorem witness_RegisterAccesses :
    (∀ rwl, ∃ (s : State) (p : Port) (off : Nat), State.haspAt off = none ∧ State.rnAt off = none ∧ off ≠ 0x1310 ∧
      s.regReach p off = .open_ ∧ s.regThere p off = true ∧ State.rwlReg off = rwl ∧ (s.wakeLink p).holdsSetup p = true) ∧
    (∃ (s : State) (p : Port) (off : Nat), State.haspAt off = none ∧ State.rnAt off = none ∧ off ≠ 0x1310 ∧
      s.regReach p off = .open_ ∧ s.regThere p off = true ∧ State.rwlReg off = true ∧ (s.wakeLink p).holdsSetup p = false) ∧
    (∃ (s : State) (p : Port) (off : Nat), State.haspAt off = none ∧ State.rnAt off = none ∧ off ≠ 0x1310 ∧
      s.regReach p off = .open_ ∧ s.regThere p off = false ∧ (s.wakeLink p).regValue (some p) off = none) ∧
    (∃ (s : State) (p : Port) (off : Nat), State.haspAt off = none ∧ State.rnAt off = none ∧ off ≠ 0x1310 ∧
      s.regReach p off = .open_ ∧ ((s.wakeLink p).regValue (some p) off).isSome = true) ∧
    (∃ (s : State) (p : Port) (off : Nat), State.haspAt off = none ∧ State.rnAt off = none ∧ off ≠ 0x1310 ∧
      s.regReach p off = .resetting ∧ State.rwlReg off = false) ∧
    (∃ (s : State) (p : Port) (off : Nat), off % 8 ≠ 0 ∧ s.regReach p off = .open_) := by
  refine ⟨fun rwl => ⟨holding ready, .a, if rwl then 0x2010 else 0x2020, ?_⟩, ⟨ready, .a, 0x2010, by decide +kernel⟩,
    ⟨ready, .a, 0xFFFF8, by decide +kernel⟩, ⟨ready, .a, 0x10, by decide +kernel⟩,
    ⟨{ ready with rs := { ready.rs with core := true } }, .a, 0x2020, by decide +kernel⟩, ⟨ready, .a, 0x2024, by decide +kernel⟩⟩
  cases rwl <;> decide +kernel

def clocks : State := { ready with rs := { ready.rs with clkLink := true, clkSite := true, clkTcxo := true } }

theorem witness_ClocksAndManagementFaults :
    (∃ s : State, s.rs.clkLink = true) ∧ (∃ s : State, s.rs.clkSite = true) ∧
    (∀ low, ∃ s : State, s.rs.clkTcxo = true ∧ decide (s.rs.phase ≤ 2) = low) ∧
    (∃ s : State, s.rs.phase = 10 ∧ s.cx.mpfault = false ∧ s.now % 16 = 0) ∧ (∃ s : State, s.cx.mpfault = true) := by
  refine ⟨⟨ready, by decide +kernel⟩, ⟨ready, by decide +kernel⟩, fun low => ⟨if low then State.reset else ready, ?_⟩,
    ⟨ready, by decide +kernel⟩, ⟨after (exec .watchdogExpiry ready), by decide +kernel⟩⟩
  cases low <;> decide +kernel

theorem witness_SidebandAccesses :
    (∀ off, State.sidebandReads.contains off = true → ∃ s : State, (s.regValue none off).isSome = true) ∧
    (∃ off : Nat, State.sidebandReads.contains off = false) ∧ ∃ off : Nat, off ≠ 0x31020 := by
  refine ⟨fun off h => ⟨ready, ?_⟩, ⟨0x28, by decide⟩, 0x31028, by decide⟩
  have all : State.sidebandReads.all (fun o => (ready.regValue none o).isSome) = true := by decide +kernel
  exact List.all_eq_true.1 all off (by simpa using h)

/-- The manager with option byte 7 that enables peer link 0, which is in a state, and with encryption or a key. -/
def peerLink (x : LinkState) (enc keys : Bool) : State :=
  { manager ready with
    pr := { (manager ready).pr with links := { PeerLink.reset with state := x } :: List.replicate 7 PeerLink.reset }
    rs := { ready.rs with
      option := (List.replicate 256 0).set 7 1 |>.set 8 (if enc then 1 else 0), keys := if keys then [(0x180, 1)] else [] } }

theorem witness_PeerLinksTrainAndFall :
    (∃ (s : State) (l : Nat), s.peerEnabled l = true ∧ s.mayTrain (s.peer l).state = true ∧ s.peerEncrypted l = false) ∧
    (∃ (s : State) (l : Nat), s.peerEnabled l = true ∧ s.mayTrain (s.peer l).state = true ∧ s.peerEncrypted l = true ∧
      s.peerKey.isSome = true ∧ (s.drawFw 16).isSome = true) ∧
    (∃ (s : State) (l : Nat), s.peerEnabled l = true ∧ s.mayTrain (s.peer l).state = true ∧ s.peerEncrypted l = true ∧
      s.peerKey = none) ∧
    (∀ f : Bool, ∃ (s : State) (l : Nat), s.peerUp l = true ∧ (f = true → (s.peer l).sec ≠ none) ∧ s.jobsBy l = [] ∧
      s.pr.jobs = []) := by
  refine ⟨⟨peerLink .training false false, 0, by decide +kernel⟩, ⟨peerLink .down true true, 0, by decide +kernel⟩,
    ⟨peerLink .training true false, 0, by decide +kernel⟩, fun f => ⟨tired, 0, ?_⟩⟩
  cases f <;> decide +kernel

/-- A worker that peer link 0 leads to its parent from. -/
def worker (parent : Nat) (waits : List (Nat × Nat)) : State :=
  { ready with
    mg := { ready.mg with tick := 100 }
    pr := { Pr.reset with
      role := 2, state := 1, nodeid := 1, parent := parent, awaiting := waits
      links := { PeerLink.reset with state := .up } :: { PeerLink.reset with state := .up } :: List.replicate 6 PeerLink.reset } }

theorem witness_EnumerationProceeds :
    (∀ p, p = 15 ∨ p = 0 → ∃ s : State, s.peerUp 0 = true ∧ s.pr.role = 2 ∧ s.pr.parent = p) ∧
    (∀ b : Bool, ∃ (s : State) (l : Nat), s.peerUp l = true ∧ s.pr.role ≠ 0 ∧
      ¬(s.pr.role = 2 ∧ (s.pr.parent = 15 ∨ s.pr.parent = l)) ∧ (s.pr.awaiting.any fun x => decide (x.1 = l)) = b) ∧
    (∃ (s : State) (l : Nat), (∃ x ∈ s.pr.awaiting, x.1 = l) ∧ s.peerUp l = true) ∧
    (∃ (s : State) (l : Nat), (s.peer l).kind = 2 ∧ s.peerUp l = true) ∧
    (∃ (s : State) (l : Nat), ∃ x ∈ s.pr.awaiting, x.1 = l ∧ x.2 + 10 ≤ s.now) ∧
    (∃ (s : State) (l : Nat), s.pr.role = 2 ∧ s.pr.parent = l ∧ s.peerUp l = true) ∧
    (∃ (s : State) (l dst : Nat) (r : Route), s.pr.role = 2 ∧ s.pr.parent = l ∧ s.peerUp l = true ∧ dst ≠ s.pr.nodeid ∧
      s.pr.routes[dst]? = some r ∧ r.valid = true ∧ r.here = false ∧ r.unreach = false) := by
  refine ⟨?_, ?_, ⟨worker 0 [(1, 95)], 1, by decide +kernel⟩,
    ⟨(worker 0 []).updPeer 1 fun x => { x with kind := 2 }, 1, by decide +kernel⟩,
    ⟨worker 0 [(1, 90)], 1, by decide +kernel⟩, ⟨worker 0 [], 0, by decide +kernel⟩,
    ⟨{ worker 0 [] with pr := { (worker 0 []).pr with
        routes := List.replicate 63 Route.reset ++ [{ Route.reset with valid := true, link := 1 }] } }, 0, 63, _,
      by decide +kernel, by decide +kernel, by decide +kernel, by decide +kernel, rfl, rfl, rfl, rfl⟩⟩
  rotate_left
  · rintro (_ | _)
    · exact ⟨worker 0 [], 1, by decide +kernel⟩
    · exact ⟨worker 0 [(1, 95)], 1, by decide +kernel⟩
  rintro p (rfl | rfl)
  · exact ⟨worker 15 [], by decide +kernel⟩
  · exact ⟨worker 0 [], by decide +kernel⟩

/-- A module in HIBERNATE or HIBERNATE-M, and one that nRST holds. -/
def asleep (m : MState) : State := { ready with pw := { ready.pw with mstate := m } }
def held : State := after (exec .nrstAssert ready)

theorem witness_ResetSources :
    (∃ s : State, s.rs.nrstLow = false ∧ s.pw.mstate ≠ .hibernate ∧ s.pw.mstate ≠ .hibernateM) ∧
    (∀ keep : Bool, ∃ s : State, s.rs.nrstLow = false ∧ s.pw.mstate = (if keep then .hibernateM else .hibernate)) ∧
    (∃ s : State, s.rs.nrstLow = true ∧ s.rs.escalated = false) ∧
    (∀ r, ∃ s : State, State.removable s.pw.mstate r = false) ∧ (∃ s : State, s.rs.rails ≠ []) := by
  refine ⟨⟨ready, by decide +kernel⟩, fun keep => ⟨asleep (if keep then .hibernateM else .hibernate), ?_⟩,
    ⟨held, by decide +kernel⟩, fun r => ⟨ready, ?_⟩, ⟨after (exec (.railFail .vm) ready), by decide +kernel⟩⟩
  · cases keep <;> decide +kernel
  · cases r <;> decide +kernel

/-- What a start meets when all goes well. -/
def normal : StartSeen :=
  { flashOk := true, norReadOk := true, hubOk := [true, true], rates := [], selfTest := true, vinWest := true, vinEast := true }

/-- CRC-32 with a register that is a number after every byte; for proofs by evaluation. -/
def strictCrc : Bytes → Nat → Nat
  | [], c => c ^^^ 0xFFFFFFFF
  | b :: bs, 0 => strictCrc bs (crcShift 8 (0 ^^^ b.toNat))
  | b :: bs, c + 1 => strictCrc bs (crcShift 8 ((c + 1) ^^^ b.toNat))

theorem crc32_strict (bs : Bytes) : crc32 bs = strictCrc bs 0xFFFFFFFF := by
  suffices h : ∀ c, strictCrc bs c = (bs.foldl (fun c b => crcShift 8 (c ^^^ b.toNat)) c) ^^^ 0xFFFFFFFF from (h _).symm
  induction bs with
  | nil => intro c; cases c <;> rfl
  | cons b bs ih => intro c; cases c <;> exact ih _

/-- A sealed block is accepted where its CRC and its fields are right. -/
theorem seal_ok (d : Bytes) (n : Nat) (hl : d.length = 256) (hc : strictCrc (d.take 252) 0xFFFFFFFF = n)
    (h : let e := d.take 252 ++ leBytes 4 n
      field e 252 4 = n ∧ field e 0 1 = 1 ∧ optReservedOk e = true ∧ optRangeOk e = true ∧ mapOk (siteMap e) = true) :
    optCheck (sealBlock d) = 0 := by
  have hn : optCrc d = n := (crc32_strict _).trans hc
  have ht : (d.take 252 ++ leBytes 4 n).take 252 = d.take 252 := by
    rw [List.take_append_of_le_length (by simp [hl])]; exact List.take_take.trans (by simp)
  have he : optCrc (d.take 252 ++ leBytes 4 n) = n := by unfold optCrc; rw [ht]; exact hn
  simp only [sealBlock, hn, optCheck, he]
  simp [h.1, h.2.1, h.2.2.1, h.2.2.2.1, h.2.2.2.2]

/-- An option block that its checks accept, with a sequence number and a recovery threshold. -/
def optBytes (sequence threshold : Byte) : Bytes := ((optDefaults.set 0 1).set 2 sequence).set 16 threshold
def optBlock (sequence threshold : Byte) : Bytes := sealBlock (optBytes sequence threshold)

theorem optBlock_ok (threshold : Byte) (h : threshold = 0 ∨ threshold = 3 ∨ threshold = 4) : optCheck (optBlock 1 threshold) = 0 := by
  obtain rfl | rfl | rfl := h
  · exact seal_ok _ 2698186503 (by decide +kernel) (by decide +kernel) (by decide +kernel)
  · exact seal_ok _ 920628493 (by decide +kernel) (by decide +kernel) (by decide +kernel)
  · exact seal_ok _ 90403681 (by decide +kernel) (by decide +kernel) (by decide +kernel)

theorem optBlock_next_ok : optCheck (optBlock 0 0) = 0 :=
  seal_ok _ 1699667876 (by decide +kernel) (by decide +kernel) (by decide +kernel)

/-- Order 3 where copy A alone is valid. -/
def selected (s : State) : State :=
  { s with rs := { s.rs with
      optAok := true, optBok := false, optsel := false, optdef := false, mirror := s.rs.copyA, option := s.rs.copyA
      safeKnown := true } }

theorem selected_eq (s : State) (h : optCheck s.rs.copyA = 0) (hb : s.rs.copyB = []) : s.selectOption = selected s := by
  have e : optValid [] = false := by decide +kernel
  simp [State.selectOption, selected, optValid, h, hb] at *
  simp [e]

theorem order3_eq (s : State) (hr : 2 ≤ s.rs.reach) (h : optCheck s.rs.copyA = 0) (hb : s.rs.copyB = []) (atP : Bool) :
    (selected { s with rs := { s.rs with phase := 3 } }).wardFromOption atP =
      (if 2 ≤ s.rs.reach then ({ s with rs := { s.rs with phase := 3 } } : State).selectOption
        else { s with rs := { s.rs with phase := 3 } }).wardFromOption atP := by
  rw [if_pos hr]
  exact congrArg (State.wardFromOption · atP) (selected_eq { s with rs := { s.rs with phase := 3 } } h hb).symm

/-- A start of reach S or P with a copy, and its key store and its counter. -/
def starting (reach : Nat) (copy : Bytes) (keys : Mem) (count : Nat) : State :=
  { State.reset with
    rs := { Rs.reset with reach := reach, copyA := copy, copyB := [], keys := keys, counter := count }
    mg := { Mg.reset with nor := some [1] } }

theorem witness_StartRunsItsOrders :
    (∃ s : State, s.mayStart = true ∧ s.rs.reach = 3 ∧ s.rs.clkTcxo = false) ∧
    (∀ reach, reach = 2 ∨ reach = 3 → ∃ s a t : State, s.mayStart = true ∧ (s.rs.reach ≠ 3 ∨ s.rs.clkTcxo = true) ∧
      a = ({ s with rs := { s.rs with phase := 3 } } : State) ∧
      t = (if 2 ≤ s.rs.reach then a.selectOption else a).wardFromOption (s.rs.reach == 3) ∧
      t.eraseDue (s.rs.reach == 3) = false ∧ s.rs.reach = reach ∧ t.rs.optdef = true) ∧
    (∀ (back : Bool) (reach : Nat), reach = 1 ∨ reach = 2 ∨ reach = 3 → ∃ s a t : State, s.mayStart = true ∧
      (s.rs.reach ≠ 3 ∨ s.rs.clkTcxo = true) ∧
      a = ({ s with rs := { s.rs with phase := 3 } } : State) ∧
      t = (if 2 ≤ s.rs.reach then a.selectOption else a).wardFromOption (s.rs.reach == 3) ∧
      t.eraseDue (s.rs.reach == 3) = false ∧ s.rs.reach = reach ∧ ¬(2 ≤ s.rs.reach ∧ t.rs.optdef = true) ∧
      ({ t with rs := { t.rs with reach := min 2 t.rs.reach } } : State).counterRule.rs.recovery = back) ∧
    (∃ seen : StartSeen, seen.flashOk = false ∨ seen.norReadOk = false) ∧
    (∃ (s : State) (seen : StartSeen), seen.flashOk = true ∧ seen.norReadOk = true ∧ s.mg.nor = none) ∧
    (∃ (s : State) (seen : StartSeen) (d : Bytes), seen.flashOk = true ∧ seen.norReadOk = true ∧ s.mg.nor = some d ∧
      16777216 < d.length) ∧
    (∃ (s : State) (seen : StartSeen) (d : Bytes), seen.flashOk = true ∧ seen.norReadOk = true ∧ s.mg.nor = some d ∧
      d.length ≤ 16777216) := by
  refine ⟨⟨{ State.reset with rs := { Rs.reset with clkTcxo := false } }, by decide +kernel⟩, ?_, ?_,
    ⟨{ normal with flashOk := false }, .inl rfl⟩, ⟨State.reset, normal, by decide +kernel⟩,
    ⟨{ State.reset with mg := { Mg.reset with nor := some (List.replicate 16777217 0) } }, normal, _, rfl, rfl, rfl,
      by rw [List.length_replicate]; decide⟩,
    ⟨starting 3 [] [] 0, normal, [1], by decide +kernel⟩⟩
  · rintro reach (rfl | rfl)
    · exact ⟨starting 2 [] [] 0, _, _, by decide +kernel, by decide +kernel, rfl, rfl, by decide +kernel⟩
    · exact ⟨starting 3 [] [] 0, _, _, by decide +kernel, by decide +kernel, rfl, rfl, by decide +kernel⟩
  · rintro back reach (rfl | rfl | rfl)
    · refine ⟨{ starting 1 [] [(0, 1)] 3 with rs := { (starting 1 [] [(0, 1)] 3).rs with
          option := optDefaults.set 16 (if back then 3 else 4) } }, _, _, ?_, ?_, rfl, rfl, ?_⟩ <;> cases back <;> decide +kernel
    · refine ⟨starting 2 (optBlock 1 (if back then 3 else 4)) [(0, 1)] 3, _, _, ?_, ?_, rfl,
        order3_eq _ (Nat.le_refl 2) ?_ rfl _, ?_⟩
      · cases back <;> decide +kernel
      · cases back <;> decide +kernel
      · exact optBlock_ok _ (by cases back <;> simp)
      · cases back <;> decide +kernel
    · refine ⟨starting 3 (optBlock 1 (if back then 3 else 0)) [(0, 1)] 3, _, _, ?_, ?_, rfl,
        order3_eq _ (Nat.le_succ 2) ?_ rfl _, ?_⟩
      · cases back <;> decide +kernel
      · cases back <;> decide +kernel
      · exact optBlock_ok _ (by cases back <;> simp)
      · cases back <;> decide +kernel

/-- Hasp 0 is held by port A; a block is staged against a mirrored copy; recovery mode. -/
def staging (stage : Bytes) : State :=
  holding { ready with rs := { ready.rs with mirror := optBytes 255 0, stage := stage } }
def recovering : State := holding { ready with rs := { ready.rs with recovery := true } }

theorem witness_CommitAndRecovery :
    (∃ (s : State) (p : Port), (s.wakeLink p).holdsSetup p = true ∧ s.regReach p 0x33008 = .open_ ∧
      (s.wakeLink p).commitCheck ≠ 0) ∧
    (∃ (s : State) (p : Port), (s.wakeLink p).holdsSetup p = true ∧ s.regReach p 0x33008 = .open_ ∧
      (s.wakeLink p).commitCheck = 0) ∧
    (∃ (s : State) (p : Port), (s.wakeLink p).holdsSetup p = true ∧ s.regReach p 0x33020 = .open_) :=
  ⟨⟨staging [], .a, by decide +kernel⟩, ⟨staging (optBlock 0 0), .a, by decide +kernel, by decide +kernel, by
      show State.commitCheck (staging (optBlock 0 0)) = 0
      have h : optCheck (staging (optBlock 0 0)).rs.stage = 0 := optBlock_next_ok
      unfold State.commitCheck
      simp only [h]
      decide +kernel⟩,
    ⟨recovering, .a, by decide +kernel⟩⟩

def holdsImage (x : Option Bytes) : State := holding { ready with mg := { ready.mg with staged := x } }

theorem witness_FirmwareOperations :
    (∃ (s : State) (p : Port), (s.wakeLink p).holdsSetup p = true ∧ s.regReach p 0x28 = .open_ ∧
      (s.wakeLink p).mg.staged = none) ∧
    (∃ (s : State) (p : Port) (d : Bytes), (s.wakeLink p).holdsSetup p = true ∧ s.regReach p 0x28 = .open_ ∧
      (s.wakeLink p).mg.staged = some d) ∧
    (∀ same, ∃ (s : State) (p : Port) (d : Bytes), (s.wakeLink p).holdsSetup p = true ∧ s.regReach p 0x28 = .open_ ∧
      (s.wakeLink p).mg.staged = some d ∧ decide (Config.fwUcif d = (s.wakeLink p).mg.ucif) = same) := by
  refine ⟨⟨holdsImage none, .a, by decide +kernel⟩, ⟨holdsImage (some [1]), .a, [1], by decide +kernel⟩, fun same => ?_⟩
  generalize hd : Config.fwUcif [1] = v
  refine ⟨{ holdsImage (some [1]) with mg := { (holdsImage (some [1])).mg with ucif := if same then v else v + 1 } }, .a, [1], ?_, ?_,
    rfl, ?_⟩
  · rfl
  · rfl
  · rw [hd]; cases same
    · show decide (v = v + 1) = false
      apply decide_eq_false; bv_omega
    · exact decide_eq_true rfl

/-- The Ward, with Hasp 0 held or free, no context and no job. -/
def ward (hold : Bool) (x : WardState) : State :=
  let s : State := { ready with
    cx := Cx.reset, dw := { Dw.reset with state := x, chal := if x = .challenged then some 1 else none }
    mg := { ready.mg with tick := 10000 } }
  if hold then holding s else s

/-- A bundle of 16,384 bytes in host memory: layout version 1, and data whose CRC-32 is 0xFFFFFFFF, since four bytes of ones
take the register to 0 and bytes of zeros leave it so. -/
def bundleMem : Mem := [(0, 1), (4, 0xFF), (5, 0xFF), (6, 0xFF), (7, 0xFF), (64, 0xFF), (65, 0xFF), (66, 0xFF), (67, 0xFF)]

theorem crc_of_zeros (m : Mem) (a n : Nat) (h : ∀ p ∈ m, p.1 < a) :
    (Mem.bytes m a n).foldl (fun c b => crcShift 8 (c ^^^ b.toNat)) 0 = 0 := by
  have zero : ∀ (m : Mem) (a : Nat), (∀ p ∈ m, p.1 < a) → Mem.read m a = 0 := by
    intro m
    induction m with
    | nil => intros; rfl
    | cons p m ih =>
      intro a h
      rw [Mem.read, if_neg (by have := h p (by simp); omega)]
      exact ih a fun q hq => h q (by simp [hq])
  induction n generalizing a with
  | zero => rfl
  | succ n ih =>
    rw [Mem.bytes, List.foldl_cons, zero m a h]
    exact ih (a + 1) fun p hp => Nat.lt_succ_of_lt (h p hp)

theorem bundle_ok : State.bundleOk (Mem.bytes bundleMem 0 16384) = true := by
  have split : ∀ (m : Mem) (a k n : Nat), Mem.bytes m a (n + k) = Mem.bytes m a k ++ Mem.bytes m (a + k) n := by
    intro m a k n
    induction k generalizing a with
    | zero => rfl
    | succ k ih => rw [Nat.add_succ, Mem.bytes, ih, Mem.bytes, Nat.add_right_comm, Nat.add_assoc]; rfl
  have tail : (Mem.bytes bundleMem 0 16384).drop 64 = Mem.bytes bundleMem 64 4 ++ Mem.bytes bundleMem 68 16316 := by
    rw [show (16384 : Nat) = 16320 + 64 from rfl, split, List.drop_left' (by decide +kernel), show (16320 : Nat) = 16316 + 4 from rfl,
      split]
  have crc : crc32 ((Mem.bytes bundleMem 0 16384).drop 64) = 0xFFFFFFFF := by
    rw [tail, crc32, List.foldl_append,
      show (Mem.bytes bundleMem 64 4).foldl (fun c b => crcShift 8 (c ^^^ b.toNat)) 0xFFFFFFFF = 0 by decide +kernel,
      crc_of_zeros _ _ _ (by decide)]
    rfl
  unfold State.bundleOk
  rw [crc]
  decide +kernel

theorem witness_WardOperations :
    (∃ (s : State) (p : Port), s.regReach p 0x32008 = .open_ ∧ (s.wakeLink p).holdsSetup p = true ∧
      (s.wakeLink p).dw.state = .closed ∧ (s.wakeLink p).dw.fails < 8 ∧ (s.wakeLink p).busyModule = false ∧
      (s.wakeLink p).rn.state = .ok ∧ (s.drawFw 32).isSome = true) ∧
    (∃ (s : State) (p : Port), s.regReach p 0x32008 = .open_ ∧ (s.wakeLink p).holdsSetup p = true ∧
      (s.wakeLink p).dw.state = .challenged ∧ (s.wakeLink p).now ≤ (s.wakeLink p).dw.chalTick + 10000) ∧
    (∃ (s : State) (p : Port), s.regReach p 0x32008 = .open_ ∧ (s.wakeLink p).holdsSetup p = true ∧
      (s.wakeLink p).dw.state = .challenged ∧ (s.wakeLink p).dw.chalTick + 10000 < (s.wakeLink p).now) ∧
    (∃ (s : State) (p : Port), s.regReach p 0x32008 = .open_ ∧ (s.wakeLink p).holdsSetup p = true ∧
      (s.wakeLink p).dw.state = .open ∧ (s.wakeLink p).dw.close = false ∧
      State.bundleOk (Mem.bytes (s.wakeLink p).host ((s.wakeLink p).dw.addr.toNat * 64) 16384) = true) ∧
    (∀ b : Bool, ∃ (s : State) (p : Port), s.regReach p 0x32008 = .open_ ∧ (s.wakeLink p).holdsSetup p = false ∧
      (Mem.bytes (s.wakeLink p).rs.keys 0x40 128).all (· == 0) = b) ∧
    (∃ s : State, s.dw.state = .challenged ∧ s.dw.chalTick + 10000 ≤ s.now) := by
  refine ⟨⟨ward true .closed, .a, by decide +kernel⟩, ⟨ward true .challenged, .a, by decide +kernel⟩,
    ⟨{ ward true .challenged with mg := { ready.mg with tick := 10001 } }, .a, by decide +kernel⟩,
    ⟨{ ward true .open with host := bundleMem }, .a, by decide +kernel, by decide +kernel, by decide +kernel, by decide +kernel,
      bundle_ok⟩, fun b => ⟨{ ward false .closed with rs := { ready.rs with keys := if b then [] else [(0x40, 1)] } }, .a, ?_⟩,
    ⟨ward true .challenged, by decide +kernel⟩⟩
  cases b <;> decide +kernel

theorem witness_JtagInstructions :
    ∃ (s t : State) (code : Byte), State.outsideWard code = false ∧ s.dw.state ≠ .open ∧ t.dw.state = .open :=
  ⟨ward false .closed, ward false .open, 0, by decide +kernel⟩

/-- A state with a command that waits: the step answers, and the state is canonical. -/
theorem witness_EveryStepKeepsCanonical :
    ∃ s t : State, s.pending ≠ [] ∧ s.Canonical ∧ step s = .next t :=
  ⟨{ State.reset with pending := [.idcode] }, _, by decide, by unfold State.Canonical; decide +kernel, rfl⟩

theorem witness_NoCommandChangesTheQueue : ∃ (c : Instr) (s t : State), exec c s = .next t ∧ t.pending = [.bypass] :=
  ⟨.idcode, { State.reset with pending := [.bypass] }, _, rfl, by decide +kernel⟩

/-- PROVISION takes a bundle that is accepted. -/
theorem provisioned (s u : State) (p : Port) (d : Bytes) (hu : u = s.wakeLink p) (ho : s.regReach p 0x32008 = .open_)
    (hh : u.holdsSetup p = true) (h1 : u.dw.state = .open) (hd : Mem.bytes u.host (u.dw.addr.toNat * 64) 16384 = d)
    (hb : State.bundleOk d = true) (hc : u.dw.close = false) : (s.provision p true true).rs.keys = Mem.store [] 0 d := by
  unfold State.provision State.wardOp
  rw [onRwl_eq hu ho hh]
  dsimp only
  rw [if_neg (by simp [h1]), if_neg (by simp), hd, if_neg (by simp [hb]), if_neg (by simp), if_neg (by simp [hc])]
  rfl

theorem witness_KeyStoreWriters : ∃ (c : Instr) (s t : State), exec c s = .next t ∧ t.rs.keys ≠ s.rs.keys := by
  let s : State := { ward true .open with host := bundleMem }
  have k := provisioned s (s.wakeLink .a) .a _ rfl (by decide +kernel) (by decide +kernel) (by decide +kernel)
    (show Mem.bytes (s.wakeLink .a).host ((s.wakeLink .a).dw.addr.toNat * 64) 16384 = Mem.bytes bundleMem 0 16384 by
      rw [show (s.wakeLink .a).host = bundleMem by decide +kernel, show (s.wakeLink .a).dw.addr.toNat * 64 = 0 by decide +kernel])
    bundle_ok (by decide +kernel)
  refine ⟨.provision .a true true, s, _, rfl, fun e => ?_⟩
  have r := Mem.read_store_inside (m := []) rfl (a := 0) (i := 0) (bs := Mem.bytes bundleMem 0 16384) (by decide +kernel)
  rw [← k, e] at r
  exact absurd r (by decide +kernel)

/-- A load whose image no rule refuses writes the generation of its entry. -/
theorem witness_LoadGenerationWriters : ∃ (c : Instr) (s t : State), exec c s = .next t ∧ t.mgens ≠ s.mgens :=
  ⟨.modelLoad (key 1 0) .clean, loading 1 0 0, _, rfl, by decide +kernel⟩

/-- A worker that is READY, with its routes: to itself, and to nodes 0 and 2 by links 0 and 1. -/
def workerReady : State :=
  { ready with pr := { (worker 0 []).pr with
      state := 2
      routes := [{ Route.reset with valid := true }, { Route.reset with valid := true, here := true },
        { Route.reset with valid := true, link := 1 }] ++ List.replicate 61 Route.reset } }
/-- A module with job 1. -/
def withJob (s : State) (j : Job) : State := { s with pr := { s.pr with jobs := [(1, j)], jobGens := [(1, 1)] } }
def managed : State := manager ready

theorem witness_StaleJobMessagesAreDropped :
    (managed.job? 1 = none ∧ managed.pr.nodeid = 0 ∧ (withJob managed job2).job? 1 = some job2 ∧
      (2 : Nat) ≠ (withJob managed job2).jobGen 1) ∧
    (workerReady.pr.nodeid ≠ 0 ∧ workerReady.job? 1 = none ∧ (withJob workerReady job2).job? 1 = some job2 ∧
      (2 : Nat) ≠ (withJob workerReady job2).jobGen 1 ∧ (1 : Nat) = (withJob workerReady job2).jobGen 1) ∧
    got (workerReady.pr.routes[0]?) (fun r => r.valid = true ∧ r.here = false ∧ r.unreach = false) = true := by
  decide +kernel

/-- An image of part `node`, as it arrives at node 1. -/
def partImage (node : Nat) : Bytes := Mem.bytes (imageMem 0x100000 2 node) 0x100000 768
def arrives (s : State) (d : Bytes) (good : Bool) : Bool :=
  let t := { s with pr := { s.pr with jobGens := Tbl.put s.pr.jobGens 1 1 } }
  let ctx := t.highestFree.getD 0
  let w : State.LoadFor :=
    { len := d.length, jobField := 1 + 65536 * 1, charge := t.tagOf ctx, grant := State.fullGrant s.pr.peermask.toNat
      owner := t.tagOf ctx, fabric := t.tagOf ctx, job := 1, nodeZero := false, partOk := Img.node d == s.pr.nodeid
      queue := 0, homeb := false, common := none, short := t.contextShort }
  let x := t.loadImage d w
  decide (s.pr.role = 2) && !d.isEmpty && (s.job? 1).isNone && !s.loadWaits (Img.mask d) &&
  (if good then gotOk x.2 (fun i => (x.1.net? i).isSome = true) else !gotOk x.2 (fun _ => True))

/-- The manager while a load of job 1 waits for node 1, and the two parts that list a source of each other. -/
def waitingLoad : Request :=
  { ur Op.modelLoad (loadF 0x10001) with state := .dispatched, hold := some .peer, reads := some (1, 1, 1) }
def listing (node : Nat) : PartShape := { shape node with hems := [(1, 0)] }
def listed2 : Job := { job2 with parts := [listing 0, listing 1] }
def common1 : JobCommon := State.commonOf (partImage 1)
def loading2 : Job := { job2 with state := .loading, parts := [shape 0], sent := [(1, common1)] }
def reserving (left : List Nat) : Job := { job2 with state := .loading, reserving := some ⟨1, 0, 768, left⟩ }
def atManager (rs : List Request) (j : Job) : State := withJob (manager (withReqs ready rs)) j
/-- Another job holds all of a Cuff region. -/
def cuffFull : State := { workerReady with pr := { workerReady.pr with jobs := [(2, { job2 with cuff := [(0, 4194304)] })] } }

theorem witness_PartsAreLoaded :
    (arrives workerReady (partImage 1) true = true ∧ arrives workerReady (partImage 0) false = true) ∧
    ((atManager [] loading2).job? 1 = some loading2 ∧ (1 : Nat) = (atManager [] loading2).jobGen 1 ∧
      (atManager [] loading2).pr.nodeid = 0 ∧ loading2.state ≠ .aborting ∧ loading2.reserving = none ∧
      (atManager [] loading2).loadOf 1 1 = none) ∧
    ((atManager [waitingLoad] loading2).job? 1 = some loading2 ∧ (1 : Nat) = (atManager [waitingLoad] loading2).jobGen 1 ∧
      (atManager [waitingLoad] loading2).loadOf 1 1 = some waitingLoad ∧
      (((loading2.sent.find? fun x => decide (x.1 = 1)).map (·.2)).bind fun c => leastOf (State.differAt loading2.common c)) = none) ∧
    (∀ left ∈ [[1], [1, 2]], (atManager [waitingLoad] (reserving left)).job? 1 = some (reserving left) ∧
      (atManager [waitingLoad] (reserving left)).loadOf 1 1 = some waitingLoad ∧ 1 ∈ left) ∧
    ([1].filter (fun n => decide (n ≠ 1)) = [] ∧ [1, 2].filter (fun n => decide (n ≠ 1)) ≠ []) ∧
    (workerReady.pr.role = 2 ∧ workerReady.job? 1 = none ∧ workerReady.cuffShort 1 listed2.parts = none) ∧
    (cuffFull.pr.role = 2 ∧ cuffFull.job? 1 = none ∧ (cuffFull.cuffShort 1 listed2.parts).isSome = true) := by
  decide +kernel

/-- A turn of a job at node 0 whose Cuff words are due. -/
def cuffJob : Job := { listed2 with sentTurn := 0, credits := [(0, 0)] }
def cuffDue : State := { boundaryNode with pr := { (manager boundaryNode).pr with jobs := [(1, cuffJob)] } }
def runOf (s : State) : Run := (s.runs.head?).getD (State.newRun (key 1 0) 0 0 (State.partSpec 0 [] [] [] []) 0 0)
/-- A word of a source that node 0 lists, one of another, and one of no KIND of Table 14.3. -/
def cuffOf (v : Nat) : W64 := State.cuffWord 1 0 0 1 1 v

theorem witness_JobRunProceeds :
    (cuffDue.job? 1 = some cuffJob ∧ (1 : Nat) = cuffDue.jobGen 1 ∧ cuffJob.model = some 0 ∧
      cuffDue.runOn 0 = some (runOf cuffDue) ∧
      got (cuffDue.net? 0) (fun n => n.rblocks.all (n.done (runOf cuffDue)) = true) = true ∧
        cuffDue.turning (runOf cuffDue) = true ∧
      (runOf cuffDue).stopped = 0 ∧ cuffJob.sentTurn = (runOf cuffDue).turn ∧ cuffDue.sendLinks cuffJob.parts ≠ [] ∧
      ∀ l ∈ cuffDue.sendLinks cuffJob.parts, (l, (runOf cuffDue).turn) ∈ cuffJob.credits) ∧
    ([cuffOf 0, 0].all State.cuffOk = false ∧ [cuffOf 0].all State.cuffOk = true ∧ [cuffOf 1].all State.cuffOk = true ∧
      State.cuffFor (cuffDue.wanted cuffJob.parts) [cuffOf 0] ≠ [] ∧
        State.cuffFor (cuffDue.wanted cuffJob.parts) [cuffOf 1] = []) ∧
    (boundaryNode.pr.nodeid = 0 ∧ (runOf boundaryNode).landing = none ∧ ∀ p ∈ (runOf boundaryNode).partials, p.1 ≠ 1) ∧
    (boundaryNode.job? 1 = some job2 ∧ boundaryNode.runOn 0 = some (runOf boundaryNode) ∧
      (boundaryNode.req? (runOf boundaryNode).key).isSome = true ∧
      got (boundaryNode.model? 0) (fun m => got (boundaryNode.net? 0) (fun n =>
        (boundaryNode.resultPlace m n (runOf boundaryNode) 1 0).isSome = true) = true) = true) := by
  decide +kernel

/-- A part on a worker before its run, and at its barrier. -/
def part : State := jobTurn (having (.net net) ready) 1 0
def runBlock : Bytes := leBytes 8 4 ++ leBytes 8 0 ++ leBytes 4 1 ++ List.replicate 80 0
def partModel : Model := { mdl (.net net) with job := 1 }
def startsPart (init : Bytes) : Bool :=
  let s := part
  let w := State.partSpec Op.solve runBlock (leBytes 4 0x1000) [] init
  let u := State.newRun (State.partKey 1) 0 Op.solve w 77 9
  let sts := State.startStates net net.imageBytes w.reps w.init
  let n1 := s.startNet partModel net u 9 sts [] w.cont
  let n2 := if w.init.isSome then { n1 with valid := mapIdxFrom (fun r v => if r < w.reps then true else v) 0 n1.valid } else n1
  let v := State.openCuffs (State.startOn (State.clearLanes
    { s with runs := s.runs ++ [{ u with lastState := sts, bestState := sts }] } 0) partModel.mask) 1
  s.job? 1 == some job2 && decide (1 = s.jobGen 1) && s.model? 0 == some partModel && s.net? 0 == some net &&
  decide (s.pr.nodeid ≠ 0) && job2.state == .loaded && partModel.unloading.isNone && (s.runOn 0).isNone && s.enginesReady 1 &&
  (s.damageOf partModel).isNone && decide (w.init.isSome = !init.isEmpty) && gotOk (v.startPart u n2 partModel.mask) (fun _ => True)

def atBarrier : State :=
  (after (exec (.run 1 1 1 Op.solve runBlock 77 9 (leBytes 4 0x1000) [] [] []) part)).updRun (State.partKey 1) fun u =>
    { u with barrier := true }
def boundaryMsg : BoundaryMsg := { turn := 1, rungOf := [0], betas := [0x1000], newBest := [true], stop := false }
/-- The boundary after which the part goes on, or a spare shift holds it. -/
def boundaryNext (s : State) (msg : BoundaryMsg) (h : Option Hold) : Bool :=
  got (s.run? (State.partKey 1)) fun u => got (s.net? 0) (fun n =>
    let b := s.sendForked 0x16 1 1 (some 0) (State.boundaryWords msg.turn msg.stop msg.rungOf msg.betas msg.newBest)
    let v := { u with
      turn := msg.turn, rungOf := msg.rungOf, lastRung := u.rungOf, betas := msg.betas, sums := n.sums
      frozen := State.frozenOf n u.reps, due := some []
      lastState := (List.range u.reps).map n.stateOf
      bestState := (List.range u.reps).map fun r => if msg.newBest.getD r false then n.stateOf r else u.bestState.getD r [] }
    u.model = 0 ∧ u.barrier = true ∧ u.pause = false ∧ msg.rungOf ≠ [] ∧
    ((b.updRun u.key fun _ => v).sendBest 1 v n msg.newBest).boundaryHold v msg.turn false = h) = true
def barrierShift : State :=
  { atBarrier with
    fb := { atBarrier.fb with
      hrows := { HalfRow.reset with shift := some ⟨1, false, [], none⟩ } :: List.replicate 7 HalfRow.reset } }

theorem witness_WorkerRunsItsPart :
    (startsPart [] = true ∧ startsPart (List.replicate 64 0) = true) ∧
    (got (atBarrier.run? (State.partKey 1)) (fun u => u.model = 0) = true ∧ (atBarrier.model? 0).isSome = true ∧
      (atBarrier.job? 1).isSome = true ∧ (1 : Nat) = atBarrier.jobGen 1) ∧
    boundaryNext atBarrier boundaryMsg none = true ∧ boundaryNext barrierShift boundaryMsg (some .spareShift) = true := by
  decide +kernel

def aborting (here : Nat) : State :=
  { boundaryNode with pr := { boundaryNode.pr with nodeid := here, jobs := [(1, { job2 with state := .aborting })] } }
def passing : Job := { job2 with parts := [shape 0, shape 2], model := none }

theorem witness_JobsEnd :
    (∃ (s : State) (id gen : Nat) (j : Job) (i : Nat) (u : Run), s.job? id = some j ∧ gen = s.jobGen id ∧ s.pr.nodeid = 0 ∧
      j.model = some i ∧ s.runOn i = some u ∧ (s.req? u.key).isSome = true) ∧
    (∃ (s : State) (id gen : Nat) (j : Job), s.job? id = some j ∧ gen = s.jobGen id ∧ s.pr.nodeid = 0 ∧ j.state = .aborting) ∧
    (∃ (s : State) (id gen : Nat) (j : Job), s.job? id = some j ∧ gen = s.jobGen id ∧ s.pr.nodeid ≠ 0 ∧ j.state ≠ .aborting ∧
      j.model = some 0) ∧
    (∃ (s : State) (id gen : Nat) (j : Job), s.job? id = some j ∧ gen = s.jobGen id ∧ s.pr.nodeid ≠ 0 ∧ j.state ≠ .aborting ∧
      j.model = none) ∧
    (∃ (s : State) (id gen : Nat) (j : Job), s.job? id = some j ∧ gen = s.jobGen id ∧ s.pr.nodeid = 0 ∧ j.model = some 0) :=
  ⟨⟨boundaryNode, 1, 1, _, 0, runOf boundaryNode, rfl, by decide +kernel⟩, ⟨aborting 0, 1, 1, _, rfl, by decide +kernel⟩,
    ⟨boundaryWorker, 1, 1, _, rfl, by decide +kernel⟩, ⟨withJob workerReady passing, 1, 1, passing, rfl, by decide +kernel⟩,
    ⟨boundaryNode, 1, 1, _, rfl, by decide +kernel⟩⟩

/-! ### Ill-formed commands are refused -/

theorem test_wf_slots : wellFormed (.doorbellRead 15) = true ∧ wellFormed (.doorbellRead 16) = false ∧
    wellFormed (.descriptorFetch 16) = false := by decide
theorem test_wf_queue : wellFormed (.queueDestroyEnd 1023) = true ∧ wellFormed (.queueDestroyEnd 1024) = false := by decide
theorem test_wf_snoop : wellFormed (.snoop .a (2 ^ 56 - 1) [0]) = true ∧
  wellFormed (.snoop .a (2 ^ 56 - 1) [0, 0]) = false := by
  decide
theorem test_wf_flip : wellFormed (.flip 31 922 .clean) = true ∧ wellFormed (.flip 32 0 .clean) = false ∧
    wellFormed (.flip 0 923 .clean) = false ∧ wellFormed (.flip 0 0 (.residueOnce 8192)) = false := by decide
theorem test_wf_links : wellFormed (.hemFlip ⟨55, .fwd, 3, 0, 0⟩) = true ∧ wellFormed (.hemFlip ⟨56, .fwd, 0, 0, 0⟩) = false ∧
    wellFormed (.turnEndStitch ⟨0, .fwd, 4, 0, 0⟩) = false ∧ wellFormed (.drainMarker ⟨56, .back, 0, 0, 0⟩) = false ∧
    wellFormed (.serviceTransfer 56 .fwd []) = false ∧ wellFormed (.laneFault 0 4 false) = false := by decide
theorem test_wf_finds : wellFormed (.turnBoundary (key 1 0) (.auditMismatch 32 0 0)) = false ∧
    wellFormed (.retrieve (key 1 0) .clean (.storeBad 0 8 0)) = false ∧
    wellFormed (.copy (key 1 0) (.burstBad ⟨32, 0, .free, true, 0⟩)) = false ∧
    wellFormed (.copy (key 1 0) (.burstBad ⟨0, 0, .page 1 16, true, 0⟩)) = false ∧
    wellFormed (.modelLoad (key 1 0) (.wordBad 1048576)) = false ∧ wellFormed (.chainNext 0 (.scratchBad 16777216)) = false ∧
    wellFormed (.ringAppendWrite (.stream 65535)) = true ∧ wellFormed (.ringAppendWrite (.stream 65536)) = false ∧
    wellFormed (.sampleConversion (.stream 65536) true) = false ∧ wellFormed (.patrolScrub 0 (.store 8) 0 .clean) = false ∧
    wellFormed (.patrolScrub 0 (.storeCount 4096 true) 0 .clean) = false := by decide
theorem test_wf_sites : wellFormed (.siteFailure 39) = true ∧ wellFormed (.siteFailure 40) = false ∧
    wellFormed (.engineClearEnd 40) = false ∧ wellFormed (.wakeScrubEnd 40 []) = false ∧
      wellFormed (.engineThrottle 40) = false ∧
    wellFormed (.powerOvershoot 40) = false ∧ wellFormed (.thermalTrip (.engine 40)) = false ∧
    wellFormed (.spareShiftPause 8 []) = false ∧ wellFormed (.spareShiftResume 8 0) = false := by decide
theorem test_wf_contexts : wellFormed (.contextResetEnd 255) = true ∧ wellFormed (.contextResetEnd 0) = false ∧
    wellFormed (.dumpWrite 256) = false ∧ wellFormed (.resetAckTimeout 1 40) = false ∧
    wellFormed (.dumpAckTimeout 1 (.peer 8)) = false ∧ wellFormed (.hangDetected 1 (.slot 16)) = false := by decide
theorem test_wf_tick : wellFormed (.managementTick ⟨List.replicate 41 ⟨0, 0, 0⟩, 0, 0, [], [], 0, 0, [], []⟩) = false ∧
    wellFormed (.managementTick ⟨[], 0, 0, [], [], 0, 0, List.replicate 5 ⟨0, []⟩, []⟩) = false := by decide
theorem test_wf_hubs : wellFormed (.hubPatrolScrub 32 0 (readOf false false)) = false ∧
  wellFormed (.channelFailure 0 4 0 true) = false ∧
    wellFormed (.channelFailure 0 0 4 false) = false ∧ wellFormed (.packageFailure 32 false) = false ∧
    wellFormed (.lpddr6ZeroingEnd 32) = false ∧ wellFormed (.scalePolicyDecision 32 0 true) = false := by decide
theorem test_wf_sram : wellFormed (.csramPlainWrite .a 0x017FFFFF [0]) = true ∧
  wellFormed (.csramPlainWrite .a 0x02800000 [0]) = false ∧
    wellFormed (.csramPlainWrite .a 0x0100003F [0, 0]) = false ∧
      wellFormed (.csramAtomic .a .swap 0x01000000 2 0 0 .clean) = false ∧
    wellFormed (.csramRead .a 0x01000000 0 .clean) = false ∧ wellFormed (.csramAliasWrite .a 0 [0] .clean) = false ∧
    wellFormed (.csramRead .a 0x01000000 8 (.bad 1048576)) = false := by decide
theorem test_wf_ports : wellFormed (.hpHaspRead .a 63) = true ∧ wellFormed (.hpHaspRead .a 64) = false ∧
    wellFormed (.hpHaspWrite .a 64 0) = false ∧ wellFormed (.registerWrite .a 0x100000 8 0) = false ∧
    wellFormed (.rcRead .a 0x100000 8) = false ∧ wellFormed (.rcRead .a 0 0) = false ∧
    wellFormed (.hostLinkTraining .a (.trained 3 0 0 0)) = false ∧
    wellFormed (.linkRetrain (.peer 8) .failed 0) = false ∧ wellFormed (.linkRekey (.peer 8) 0) = false ∧
    wellFormed (.flitReplayRequest (.peer 8) 0 0) = false ∧ wellFormed (.rnDataRead .a 2) = false ∧
    wellFormed (.rnDrbgRead .a 2) = false ∧ wellFormed (.sidebandRead 0x100000 true) = false ∧
    wellFormed (.sidebandWrite 0x100000 0 true) = false := by decide
theorem test_wf_peers : wellFormed (.peerLinkTraining 8 .failed 0) = false ∧ wellFormed (.peerLinkDown 8 false) = false ∧
    wellFormed (.enumReplyTimeout 8) = false ∧ wellFormed (.enum 0 256) = false ∧
      wellFormed (.enumReply 0 [⟨64, 1, 0⟩]) = false ∧
    wellFormed (.route 0 1 [⟨64, none⟩]) = false ∧ wellFormed (.route 0 64 []) = false ∧
      wellFormed (.abort 0 64 1 1) = false := by decide
theorem test_wf_jobs : wellFormed (.image 1 0 1 [] []) = false ∧ wellFormed (.image 1 1 65536 [] []) = false ∧
    wellFormed (.image 64 1 1 [] []) = false ∧ wellFormed (.image 1 1 1 [] [shape 64]) = false ∧
    wellFormed (.loaded 64 1 1 0 0 0 none) = false ∧ wellFormed (.loaded 1 1 1 0 0 0 (some (shape 64))) = false ∧
    wellFormed (.run 1 1 1 256 [] 0 0 [] [] [] []) = false ∧
    wellFormed (.credit 8 1 1 0) = false ∧ wellFormed (.cuffSend 0) = false ∧ wellFormed (.cuff 8 1 1 []) = false ∧
    wellFormed (.partialEnergy 64 1 1 0 [] false) = false ∧ wellFormed (.boundary 8 1 1 ⟨0, false, [], [], []⟩) = false ∧
    wellFormed (.result 64 1 1 0 []) = false ∧ wellFormed (.fault 0 1 1 256 0) = false ∧
      wellFormed (.abortDone 64 1 1) = false ∧
    wellFormed (.unload 1 65536 1) = false ∧ wellFormed (.unloaded 64 1 1) = false := by decide
theorem test_wf_site_port : wellFormed (.frameDiscard 1) = true ∧ wellFormed (.frameDiscard 2) = false ∧
    wellFormed (.sampleSegment 0 { tagged := true, vlan := 4096, port := 0, ipv6 := false, prpSeq := none, payload := [], now := 0 })
      = false ∧
    wellFormed (.scaleRecords 0 { tagged := false, vlan := 0, port := 65536, ipv6 := false, prpSeq := none, payload := [], now := 0 })
      = false ∧
    wellFormed (.responderFrame 2 .arp []) = false ∧ wellFormed (.ptpMessage 2 true 0) = false ∧
    wellFormed (.setpointSend 2 0) = false ∧ wellFormed (.gateListEntry 2 0) = false ∧
      wellFormed (.siteDiEdge 8 true 0) = false ∧
    wellFormed (.siteLaneDown 2) = false ∧ wellFormed (.siteLaneUp 2) = false := by decide
theorem test_wf_starts : wellFormed (.startSequence normal) = true ∧
    wellFormed (.startSequence { normal with rates := [[4]] }) = false ∧
    wellFormed (.loadRun .a true { normal with rates := List.replicate 33 [] }) = false ∧
    wellFormed (.openWard .a { normal with hubOk := [true, true, true] }) = false := by decide

/-! ### The spec's worked examples -/

/-- The six-variable model of 02, with the codes of Table 2.9 in both triangles. -/
def six : Block :=
  { n := 6, q := 0, fmt := 1, sb := 1, scaled := true, colour := 0
    codes := [[0, 3, -2, 0, 0, 0], [3, 0, 5, -1, 0, 0], [-2, 5, 0, 0, 4, 0], [0, -1, 0, 0, -3, 7], [0, 0, 4, -3, 0, -8],
      [0, 0, 0, 7, -8, 0]]
    scales := [1, 2, 1, 3, 2, 1], bias := [[2], [-3], [0], [5], [-4], [1]], sparse := [], spdir := [] }
def sixState : List Nat := [0, 1, 0, 0, 1, 0]
def sixFields : Fields := [[-16], [10], [-40], [30], [-26], [74]]

/-- 02 Table 2.10: the fields of the state. -/
theorem test_fields : gotOk (six.fullFields 0 sixState []) (fun f => f = sixFields) = true := by decide +kernel
/-- 02: E = −85, from Σ s·d·A = 140 and Σ b·s = 15. -/
theorem test_energy : six.pairSum sixState sixFields = 140 ∧ six.biasSum sixState = 15 ∧
  energyOf 140 15 0 = -85 := by decide +kernel
/-- 02 Table 2.10: the energy changes. -/
theorem test_energy_changes :
    (List.range 6).map (fun i => six.deltaE sixState sixFields i (1 - sixState.getD i 0)) = [-28, -34, -80, 190, 112, 150] := by
  decide +kernel
/-- 03 Table 3.6: the weights at β₂ = 0.0625, and their sum. -/
theorem test_weights : (six.weights false 0x1000 sixState sixFields).map (·.2.2) = [8388608, 8388608, 8388608, 2233, 65536, 12634] ∧
    totalWeight (six.weights false 0x1000 sixState sixFields) = 25246227 := by decide +kernel
/-- 03, worked selection: u = 13/16 of 2^64 gives r = 20,512,559, variable 2 and the dwell 8,165. -/
theorem test_selection : drawOffset 0xD000000000000000 25246227 = 20512559 ∧
    selectAt (six.weights false 0x1000 sixState sixFields) 20512559 = some (2, 1) ∧
      dwellOf 6 25246227 = 8165 := by decide +kernel
/-- 03 Table 3.6: T(0.875) and T(0.375); 04 Table 4.3: T(0.5). -/
theorem test_table_T : tableT 57344 = 4573921 ∧ tableT 24576 = 6468501 ∧ tableT 32768 = 5931642 := by decide +kernel
/-- 04 Table 4.3: two exchanges are accepted and one is not. -/
theorem test_exchanges : exchangeAccepts 0x4000 0x8000 (-120) (-126) 0x4000000000000000 = true ∧
    exchangeAccepts 0x10000 0x20000 (-140) (-139) 0xF000000000000000 = true ∧
    exchangeAccepts 0x8000 0x10000 (-127) (-141) 0x0300000000000000 = false := by decide +kernel
/-- 04: S(250) = 0x0000_E000, and the rung at 0.5 runs at 0x0000_7000. -/
theorem test_schedule : scheduleAt [(0, 0x8000), (1000, 0x20000)] 250 = 0xE000 ∧
  rungBeta 0xE000 0x8000 = 0x7000 := by decide +kernel
/-- 05 Table 5.6: overlaps, weights, the top two, and E_r. -/
theorem test_retrieval : State.search
    [(0, [1, -1, 0, 0, 0, 0, 1, 0]), (1, [1, -2, 1, 0, 0, 1, 0, 0]), (2, [0, 0, 2, 3, 1, -1, 1, 7]), (3, [-3, 1, 0, 0, 0, 0, -1, 0])]
    [10, -20, 5, 0, 3, -7, 12, 1] 2 0x8000 true =
      ⟨9807912, 9437184, -0x1839BB, false, 48, [(1, 48, 8388608), (0, 42, 1048576)]⟩ := by decide +kernel
/-- 06 Table 6.2: nine inbound conversions to K8 at 0xFD05. -/
theorem test_conversions : [convertIn 0 0xFD05 (rawValue 0 40), convertIn 0 0xFD05 (rawValue 0 0xFFFD),
    convertIn 0 0xFD05 (rawValue 2 0x3EA00000), convertIn 0 0xFD05 (rawValue 2 0x3F700000), convertIn 0 0xFD05 (rawValue 2 0xC2A0A000),
    convertIn 0 0xFD05 (rawValue 2 0x42A00000), convertIn 0 0xFD05 (rawValue 0 100), convertIn 0 0xFD05 (rawValue 2 0x7FC00000),
    convertIn 0 0xFD05 (rawValue 2 0xFF800000)] =
      [(64, false), (-5, false), (0, false), (2, false), (-128, false), (127, true), (127, true), (0, true), (-128, true)] := by
  decide +kernel
/-- 06: −13 at the same scale converts to −8. -/
theorem test_conversion_out : convertOut 0 0xFD05 (-13) = (0xFFF8, false) := by decide +kernel
/-- 06: the share of the block is 4 of 9. -/
theorem test_share : Group.shareOf { chan0 with total := 9, clip := 4 } = 0x71C7 := by decide
/-- 08 Table 8.13: the report of the model that does not fit, and the footprint of its ninth block. -/
theorem test_report : Refuse.report 0x03 true false 6 7 0 = 0xE60103 ∧ footprint true 1640 0 = 7168 ∧
  footprint true 8192 0 = 34048 :=
  by decide +kernel
/-- 10 Table 10.7: the handle of the load, the targets of its patch and of the two PATCHes. -/
theorem test_patch_order : State.handleOf 5 { mdl (.net net) with gen := 3, tag := 0x207 } = 0x0000002070003005 ∧
    (dPatches 12 100 (desc Op.modelLoad [(2, 2, 8), (120, 8, 0x70003)])).map (fun o => (o.target, o.word)) = [(103, 7)] ∧
    (dPatches 12 101 (desc Op.patch [(48, 2, 0xA002)])).map (fun o => (o.target, o.word)) = [(103, 10)] := by decide +kernel
/-- The flag word of 12 Table 12.8. -/
def flag : State :=
  { ready with cs := { ready.cs with modes := List.replicate 5 .plain ++ [.bitalias] ++ List.replicate 122 .plain, mem := [(0x50100, 0xF0)] } }
/-- 12 Table 12.8: a set and a clear alias write in either order leave 0xC3. -/
theorem test_aliases :
    let set := fun s => after (exec (.csramAliasWrite .a 0x01850100 [0x03] .clean) s)
    let clear := fun s => after (exec (.csramAliasWrite .a 0x02050100 [0x30] .clean) s)
    (set flag).cs.mem = [(0x50100, 0xF3)] ∧ (clear (set flag)).cs.mem = [(0x50100, 0xC3)] ∧
    (clear flag).cs.mem = [(0x50100, 0xC0)] ∧ (set (clear flag)).cs.mem = [(0x50100, 0xC3)] := by decide +kernel
/-- Port A holds Hasp 0, and both links are up. -/
def twoPorts : State := { haspHeld 0 .a with hp := { (haspHeld 0 .a).hp with portB := { HostPort.reset with state := .up } } }
/-- 13 Table 13.6: B's write without Hasp 0 is dropped, A's link falls, B takes Hasp 0, and then its write acts. -/
theorem test_hasp_across_loss :
    let s1 := after (exec (.registerWrite .b 0x4000 8 0x203E8) twoPorts)
    let s2 := after (exec (.hostLinkDown .a false 0) s1)
    let s3 := after (exec (.hpHaspRead .b 0) s2)
    s1.hp.rwldrop = true ∧ s1.hp.rwlPort = some .b ∧ s1.hp.rwlOff = 0x1000 ∧ s1.cx = twoPorts.cx ∧
    s2.hp.downA = true ∧ s2.hp.freedA = true ∧ s2.hp.hasps.getD 0 none = none ∧ s3.hp.hasps.getD 0 none = some .b ∧
    (after (exec (.registerWrite .b 0x4000 8 0x203E8) s3)).cx.window = 1000 := by decide +kernel
/-- A setpoint in a frame of 1,000 bytes, on a lane with the gate cycle of 15 Table 15.6 (here for queue 0). -/
def gated (launch : Nat) : State :=
  after (exec (.gateListEntry 0 5000200000) { streaming (stream 4 1 []) ready with st := { (streaming (stream 4 1 []) ready).st with
    setpoints := [{ setpoint with launch := launch, raws := List.replicate 922 0 }]
    lane0 := { SiteLane.reset with state := 2, gcl := [(0x40, false, 200000), (0x01, false, 100000), (0x40, true, 700000)] } } })
/-- 15 Table 15.6: a frame that ends before the close leaves at L; one that would not waits until the gate opens. -/
theorem test_gate : (gated 5000299600).st.lane0.gclAt = 1 ∧ (gated 5000299600).st.lane0.gclNext = 5000300000 ∧
    (after (exec (.setpointSend 0 5000299600) (gated 5000299600))).st.setpoints = [] ∧
    (after (exec (.setpointSend 0 5000299800) (gated 5000299800))).st.setpoints ≠ [] ∧
    (after (exec (.setpointSend 0 5001200000) (after (exec (.gateListEntry 0 5001200000) (gated 5000299800))))).st.setpoints = [] := by
  decide +kernel
/-- 17 Table 17.10: a start counts up below the threshold, and at it goes into recovery mode. -/
theorem test_start_counter :
    let s := starting 2 [] [] 0
    (State.counterRule { s with rs := { s.rs with option := optDefaults.set 16 3 } }).rs.counter = 1 ∧
    (State.counterRule { s with rs := { s.rs with option := optDefaults.set 16 3, counter := 3 } }).rs.phase = 0xF := by
  decide +kernel
/-- 17 Table 17.10: an image that is missing halts a start with HALT 0x2. -/
theorem test_no_image : (State.startFrom4 State.reset normal true).rs.halt = 2 := by decide +kernel
/-- An engine that uses 6.3 W at 0.70 V, capped at 0.90 V. -/
def measured : Site := { onSite with vcap := 6, power := 6300, point := 3 }
/-- 18, worked example: 177 W for 24 busy engines is 7.375 W each, which runs 0.398 of the tick (101 of 256) above 0.70 V. -/
theorem test_budget : State.divide 41 177000 ((List.range 24).map fun i => (i, 17500)) = ((List.range 24).map fun i => (i, 7375)) ∧
    State.lowPoint measured 7375 6 = 3 ∧ State.highShare measured 7375 3 6 = 101 := by decide +kernel
/-- 20 Table 20.9: LE13 lies at site 17 of a half-row whose position 0 is retired. -/
theorem test_site_of_engine : State.siteOf { ready with fb := { Fb.reset with
    hrows := List.replicate 3 HalfRow.reset ++ [{ HalfRow.reset with failpos := 0, spareok := false }] ++ List.replicate 4 HalfRow.reset } }
    13 = 17 := by decide +kernel

/-! ### The standards that the spec names (log entry 12) -/

/-- AES-128, the example of FIPS 197. -/
theorem test_aes : aes ((List.range 16).map (BitVec.ofNat 8)) ((List.range 16).map fun i => BitVec.ofNat 8 (17 * i)) =
    [0x69, 0xC4, 0xE0, 0xD8, 0x6A, 0x7B, 0x04, 0x30, 0xD8, 0xCD, 0xB7, 0x80, 0x70, 0xB4, 0xC5, 0x5A] := by decide +kernel
/-- CRC-32 of the digits 1 to 9. -/
theorem test_crc : crc32 [0x31, 0x32, 0x33, 0x34, 0x35, 0x36, 0x37, 0x38, 0x39] = 0xCBF43926 := by decide +kernel

/-! ### One command at a time -/

/-- 19: IDCODE shifts out 0x03240D97, and EXTEST alone drives the pins. -/
theorem test_idcode : (after (exec .idcode ready)).dw.jtagOut = .value 0x03240D97 := by decide +kernel
theorem test_extest : (after (exec (.extest 5) ready)).st.doExtest = some 5 ∧
    (after (exec .bypass (after (exec (.extest 5) ready)))).st.doExtest = none := by decide +kernel
/-- 13 R369: a read of a free Hasp takes it and returns 0. -/
theorem test_hasp_read : (after (exec (.hpHaspRead .a 5) ready)).hp.ansA = .value 0 ∧
    (after (exec (.hpHaspRead .a 5) ready)).hp.hasps.getD 5 none = some .a := by decide +kernel
/-- 12 R345: fetch-and-add in an ATOMIC region returns the old value. -/
theorem test_atomic : (after (exec (.csramAtomic .a .fetchAdd 0x017FFFF8 8 2 0 .clean) (sram .atomic))).hp.ansA = .value 0 ∧
    (after (exec (.csramAtomic .a .fetchAdd 0x017FFFF8 8 2 0 .clean) (sram .atomic))).cs.mem = [(0x7FFFF8, 2)] := by decide +kernel
/-- 17 R445: PULSE is the length in microseconds, and NRSTC is set at the release. -/
theorem test_pulse : (after (exec (.nrstRelease 20000) held)).mg.pulse = 20000 ∧
  (after (exec (.nrstRelease 20000) held)).mg.nrstc = true := by
  decide +kernel
/-- 17 R443: the rails that failed are named together. -/
theorem test_rails : (after (exec (.railFail .vser) (after (exec (.railFail .vmgr) ready)))).mg.monrail = 10 := by decide +kernel
/-- 10 R291: a COPY moves its bytes and returns how many. -/
theorem test_copy : ((after (exec (.copy (key 1 0) .clean) { user Op.copy copyF with host := [(0x40005, 9)] })).host,
    ((after (exec (.copy (key 1 0) .clean) (user Op.copy copyF))).req? (key 1 0)).map (·.word0)) =
      ([(0x40005, 9), (0x50005, 9)], some 128) := by decide +kernel
/-- 10 R290: FILL repeats its pattern. -/
theorem test_fill : (after (exec (.fill (key 1 0)) (user Op.fill fillF))).host =
    (List.range 16).map fun i => (0x50000 + 8 * i, 7) := by decide +kernel
/-- 09 R245, Table 9.5: a store to the line of an armed watch fires it. -/
theorem test_watch : ((after (exec (.snoop .a 0x22000 [1]) ready)).queue? 1).map (·.fired) = some true := by decide +kernel
/-- 18 R476: a trip of an engine junction turns its own half off. -/
theorem test_trip : (after (exec (.thermalTrip (.engine 0)) ready)).pw.halfW = .tripped ∧
    (after (exec (.thermalTrip (.engine 0)) ready)).pw.halfE = .on := by decide +kernel
/-- 16 R427: a failure of a health test leaves no instance. -/
theorem test_health : (after (exec (.healthTestFailure false) ready)).rn.fw = none ∧
    (after (exec (.healthTestFailure false) ready)).rn.rctFail = 1 := by decide +kernel

/-- 16 R424: 80 equal bits at the end of one block and one more at the start of the next fail the repetition count. -/
theorem test_repetition : State.rawFault { ready with rn := { ready.rn with runBit := true, run := 80 } } evenBits = some false ∧
    State.rawFault { ready with rn := { ready.rn with runBit := false, run := 80 } } evenBits = none := by decide +kernel
/-- 11 R324: a watchdog expiry is cause 1. -/
theorem test_watchdog : (after (exec .watchdogExpiry ready)).cx.mpcause = 1 ∧
  (after (exec .watchdogExpiry ready)).rs.alert = true := by
  decide +kernel

end Sys2Proof.Tests
end

section
/-! The Hasps (13 R369-R373): what a read, a write and a break of a Hasp do while its register answers, one lemma per case
of the holder, and from these the statement of their accesses. -/

namespace Sys2Proof.Machine

section OpenRegister

variable {s u : State} {p : Port}

/-- A write of a register that answers runs its effect on the woken state. -/
theorem State.onWrite_open {off : Nat} (hu : u = s.wakeLink p) (ho : s.regReach p off = .open_) (f : State → State) :
    s.onWrite p off f = f u := by
  rw [hu]; simp only [State.onWrite, ho]

/-- A read of a register that answers runs its effect on the woken state. -/
theorem State.onRead_open {off : Nat} (hu : u = s.wakeLink p) (ho : s.regReach p off = .open_) (f : State → State) :
    s.onRead p off f = f u := by
  rw [hu]; simp only [State.onRead, ho]

end OpenRegister

section HaspRegister

variable {s u : State} {p q : Port} {n : Nat} {v : W64}
  (hu : u = s.wakeLink p) (hn : n < 64) (ho : s.regReach p (0x1100 + 8 * n) = .open_)

include hu hn ho

/-- R369, the first case: the reader acquires a free Hasp. -/
theorem State.haspRead_free (hfree : u.hp.hasps.getD n none = none) : s.haspRead p n =
    State.answer { u with hp := { u.hp with hasps := u.hp.hasps.set n (some p) } } p (.value 0) := by
  rw [State.haspRead, if_neg (Nat.not_le.2 hn), State.onRead_open hu ho, hfree]

/-- R369, the second case: the reader is told who holds the Hasp, and the bank stays. -/
theorem State.haspRead_held (hheld : u.hp.hasps.getD n none = some q) : s.haspRead p n =
    u.answer p (.value (pack [(0, 1, 1), (1, 1, State.portNo q), (2, 1, b2n (q = p))])) := by
  rw [State.haspRead, if_neg (Nat.not_le.2 hn), State.onRead_open hu ho, hheld]

/-- R370: the holder's write of 0 frees the Hasp. -/
theorem State.haspWrite_frees (hheld : u.hp.hasps.getD n none = some p) : s.haspWrite p n 0 =
    { u with hp := { u.hp with hasps := u.hp.hasps.set n none } } := by
  rw [State.haspWrite, if_neg (Nat.not_le.2 hn), State.onWrite_open hu ho, if_pos ⟨hheld, rfl⟩]

/-- R370: a write by a port that does not hold the Hasp, or of another value than 0, only counts. -/
theorem State.haspWrite_ignored (hbad : u.hp.hasps.getD n none ≠ some p ∨ v ≠ 0) :
    s.haspWrite p n v = u.haspError := by
  rw [State.haspWrite, if_neg (Nat.not_le.2 hn), State.onWrite_open hu ho, if_neg (not_and_or.2 hbad)]

end HaspRegister

section BreakRegister

variable {s u : State} {p q : Port} {v : W64}
  (hu : u = s.wakeLink p) (ho : s.regReach p 0x1310 = .open_) (hgo : bitAt v.toNat 6 = true)

include hu ho hgo

/-- R373: a break of a Hasp that the other port holds frees it, shows its number and signals both ports. -/
theorem State.haspBreak_other (hheld : u.hp.hasps.getD (v.toNat % 64) none = some q) (hq : q ≠ p) :
    s.haspBreak p v = State.eventBoth { u with hp := { u.hp with
      hasps := u.hp.hasps.set (v.toNat % 64) none, broke := true, lastbrk := v.toNat % 64 } } := by
  rw [State.haspBreak, State.onWrite_open hu ho]
  dsimp only
  rw [if_neg (by simp [hgo]), hheld]
  exact if_neg hq

/-- A break of a Hasp that is free, or that the breaking port holds itself, only counts. -/
theorem State.haspBreak_ignored (hown : u.hp.hasps.getD (v.toNat % 64) none = none ∨
    u.hp.hasps.getD (v.toNat % 64) none = some p) : s.haspBreak p v = u.haspError := by
  rw [State.haspBreak, State.onWrite_open hu ho]
  dsimp only
  rw [if_neg (by simp [hgo])]
  rcases hown with hfree | hheld
  · rw [hfree]
  · rw [hheld]
    exact if_pos rfl

end BreakRegister

/-- Settles O45: each access of a Hasp that answers falls under the lemma for what the bank holds. -/
theorem haspAccesses : Obligations.HaspAccesses := by
  intro s u p n hu hn
  refine ⟨fun ho => ⟨?free, ?held, ?frees, ?ignored⟩, fun ho v hgo hvn => ⟨?breaks, ?counts⟩⟩
  case free => exact fun hfree => congrArg Host.Outcome.next (State.haspRead_free hu hn ho hfree)
  case held => exact fun _ hheld => congrArg Host.Outcome.next (State.haspRead_held hu hn ho hheld)
  case frees => exact fun hheld => congrArg Host.Outcome.next (State.haspWrite_frees hu hn ho hheld)
  case ignored => exact fun _ hbad => congrArg Host.Outcome.next (State.haspWrite_ignored hu hn ho hbad)
  case breaks =>
    subst hvn
    exact fun _ hheld hq => congrArg Host.Outcome.next (State.haspBreak_other hu ho hgo hheld hq)
  case counts =>
    subst hvn
    exact fun hown => congrArg Host.Outcome.next (State.haspBreak_ignored hu ho hgo hown)

end Sys2Proof.Machine
end

section
/-! The entropy service (16 R423-R434): what a conditioned block, a failed health test, a passed startup test, a read of an
entropy window and the release of a latched source do, one lemma per case of the source, and from these the statement of
the service. -/

namespace Sys2Proof.Machine

section ConditionedBlock

variable {s : State} {raw : BitVec 1024}

/-- R432: no instance waits and the queue has room, so both words of the block go to its end, the low one first. -/
theorem State.conditioned_queued {b : BitVec 128} (hn : s.needsSeed = none) (hroom : s.rn.queue.length + 2 ≤ 512) :
    s.conditioned b = { s with rn := { s.rn with
      queue := s.rn.queue ++ [BitVec.ofNat 64 (b.toNat % 2 ^ 64), BitVec.ofNat 64 (b.toNat / 2 ^ 64)] } } := by
  rw [State.conditioned, hn]
  exact if_pos hroom

/-- R429: an instance waits and fewer than two blocks are held for it, so this one is held too. -/
theorem State.conditioned_collected {b : BitVec 128} {i : Fin 3} (hi : s.needsSeed = some i)
    (hfew : s.rn.seedBlocks.length < 2) :
    s.conditioned b = { s with rn := { s.rn with seedBlocks := s.rn.seedBlocks ++ [b] } } := by
  have hlen : (s.rn.seedBlocks ++ [b]).length < 3 := by
    rw [List.length_append]; exact Nat.succ_lt_succ hfew
  rw [State.conditioned, hi]
  exact if_pos hlen

/-- R429: the third block completes the seed material of the instance that waits. -/
theorem State.conditioned_seeds {b : BitVec 128} {i : Fin 3} (hi : s.needsSeed = some i)
    (htwo : s.rn.seedBlocks.length = 2) : s.conditioned b = s.instantiate i (s.rn.seedBlocks ++ [b]) := by
  have hlen : ¬(s.rn.seedBlocks ++ [b]).length < 3 := by simp [htwo]
  rw [State.conditioned, hi]
  exact if_neg hlen

/-- R424: raw bits that a health test rejects are not conditioned; the failure of that test is all that happens. -/
theorem State.conditionerBlock_faulty {f : Bool} (hok : s.rn.state = .ok) (hf : s.rawFault raw = some f) :
    s.conditionerBlock raw = s.healthFailure f := by
  rw [State.conditionerBlock, if_pos hok, hf]

/-- R423, R424: raw bits that pass are conditioned, and the repetition count goes on from them. -/
theorem State.conditionerBlock_healthy (hok : s.rn.state = .ok) (hf : s.rawFault raw = none) :
    s.conditionerBlock raw = State.conditioned
      { s with rn := { s.rn with runBit := (s.runScan raw).1, run := (s.runScan raw).2.1 } } (State.condition raw) := by
  rw [State.conditionerBlock, if_pos hok, hf]

/-- The repetition count has no part in which instance waits for seed material. -/
theorem State.needsSeed_run (s : State) (bit : Bool) (n : Nat) :
    State.needsSeed { s with rn := { s.rn with runBit := bit, run := n } } = s.needsSeed := rfl

end ConditionedBlock

section HealthTests

variable {s : State}

/-- R427: a health test fails in state OK. -/
theorem State.healthFailure_ok (hs : s.rn.state = .ok) (f : Bool) :
    s.healthFailure f = State.eventSignal { s with rn := { s.rn with
      queue := [], seedBlocks := [], fw := none, win0 := none, win1 := none, run := 0, state := .startup, fallen := true
      testOk := false
      rctFail := if f then s.rn.rctFail else satInc 16 s.rn.rctFail
      aptFail := if f then satInc 16 s.rn.aptFail else s.rn.aptFail } } := by
  rw [State.healthFailure, hs]; rfl

/-- R425: a startup test fails; it is counted and repeats. -/
theorem State.healthFailure_startup (hs : s.rn.state = .startup) (f : Bool) :
    s.healthFailure f = { s with rn := { s.rn with testOk := false, startFail := satInc 16 s.rn.startFail } } := by
  rw [State.healthFailure, hs]

/-- Log entry 106: the test of a latched source fails, which puts it back in its startup test. -/
theorem State.healthFailure_failed (hs : s.rn.state = .failed) (f : Bool) :
    s.healthFailure f = { s with rn := { s.rn with
      state := .startup, fallen := true, testOk := false, startFail := satInc 16 s.rn.startFail } } := by
  rw [State.healthFailure, hs]

/-- R425: the startup test of a source that has not failed leads to OK. -/
theorem State.startupPass_fresh (hs : s.rn.state = .startup) (hf : s.rn.fallen = false) :
    s.startupPass = { s with rn := { s.rn with state := .ok, testOk := false, fallen := false } } := by
  rw [State.startupPass, hs, hf]; rfl

/-- R428: under LATCH a source that failed stays FAILED though its test passes. -/
theorem State.startupPass_latches (hs : s.rn.state = .startup) (hf : s.rn.fallen = true) (hl : s.rn.latch = true) :
    s.startupPass = { s with rn := { s.rn with state := .failed, testOk := true } } := by
  rw [State.startupPass, hs, hf, hl]; rfl

/-- R428: under LATCH a pass in FAILED is only noted, for RELEASE. -/
theorem State.startupPass_latched (hs : s.rn.state = .failed) (hl : s.rn.latch = true) :
    s.startupPass = { s with rn := { s.rn with testOk := true } } := by
  rw [State.startupPass, hs, hl]; rfl

/-- R428: without LATCH a source that failed returns to OK, and the return is counted. -/
theorem State.startupPass_returns (hs : s.rn.state = .startup ∧ s.rn.fallen = true ∨ s.rn.state = .failed)
    (hl : s.rn.latch = false) : s.startupPass = s.entropyOk true := by
  rcases hs with ⟨hs, hf⟩ | hs
  · rw [State.startupPass, hs, hf, hl]; rfl
  · rw [State.startupPass, hs, hl]; rfl

end HealthTests

section DataWindow

variable {s u : State} {p : Port} {w : Nat}
  (hu : u = s.wakeLink p) (hw : w ≤ 1) (ho : s.regReach p (0x30000 + 0x40 * w) = .open_)

include hu hw ho

/-- R433: a read of RN_DATA takes the oldest word of the queue. -/
theorem State.rnData_gives {x : W64} {rest : List W64} (hok : u.rn.state = .ok) (hq : u.rn.queue = x :: rest) :
    s.rnData p w = State.answer { u with rn := { u.rn with queue := rest } } p (.value x) := by
  rw [State.rnData, if_neg (Nat.not_lt.2 hw), State.onRead_open hu ho, hok, hq]

/-- R433: where the source gives no word, the read gives 0 and sets ERR. -/
theorem State.rnData_empty (hno : u.rn.state ≠ .ok ∨ u.rn.queue = []) :
    s.rnData p w = (u.setErr w).answer p (.value 0) := by
  rw [State.rnData, if_neg (Nat.not_lt.2 hw), State.onRead_open hu ho]
  split
  · next hok hq => simp [hok, hq] at hno
  · rfl

end DataWindow

section DrbgWindow

variable {s u : State} {p : Port} {w : Nat} {d d' : Drbg} {out : Bytes}
  (hu : u = s.wakeLink p) (hw : w ≤ 1) (ho : s.regReach p (0x30010 + 0x40 * w) = .open_)

include hu hw ho

/-- R434: a read of RN_DRBG gives one generate call of the window's instance. -/
theorem State.rnDrbg_generates (hok : u.rn.state = .ok) (hd : u.window w = some d) (hc : d.calls < 65536)
    (hg : d.generate 8 = (out, d')) :
    s.rnDrbg p w = (u.setWindow w d').answer p (.value (BitVec.ofNat 64 (leNat out))) := by
  rw [State.rnDrbg, if_neg (Nat.not_lt.2 hw), State.onRead_open hu ho]
  dsimp only
  rw [hok, hd]
  dsimp only
  rw [if_pos hc, hg]

/-- R434: an instance with 65,536 calls behind it is first reseeded from six words of the queue. -/
theorem State.rnDrbg_reseeds (hok : u.rn.state = .ok) (hd : u.window w = some d) (hc : 65536 ≤ d.calls)
    (hq : 6 ≤ u.rn.queue.length)
    (hg : (d.reseed ((u.rn.queue.take 6).flatMap fun x => leBytes 8 x.toNat)).generate 8 = (out, d')) :
    s.rnDrbg p w = (State.setWindow { u with rn := { u.rn with queue := u.rn.queue.drop 6 } } w d').answer p
      (.value (BitVec.ofNat 64 (leNat out))) := by
  rw [State.rnDrbg, if_neg (Nat.not_lt.2 hw), State.onRead_open hu ho]
  dsimp only
  rw [hok, hd]
  dsimp only
  rw [if_neg (Nat.not_lt.2 hc), if_neg (Nat.not_lt.2 hq), hg]

/-- R434: a window whose instance is not there gives 0 and sets ERR. -/
theorem State.rnDrbg_empty (hno : u.rn.state ≠ .ok ∨ u.window w = none) :
    s.rnDrbg p w = (u.setErr w).answer p (.value 0) := by
  rw [State.rnDrbg, if_neg (Nat.not_lt.2 hw), State.onRead_open hu ho]
  dsimp only
  split
  · next hok hd => simp [hok, hd] at hno
  · rfl

end DrbgWindow

section Release

variable {s u : State} {p : Port}

/-- R371: a write of an open register with an RWL field, by a port that does not hold Hasp 0, is dropped and recorded. -/
theorem State.onRwl_dropped {off : Nat} (hu : u = s.wakeLink p) (ho : s.regReach p off = .open_)
    (hh : u.holdsSetup p = false) (f : State → State) :
    s.onRwl p off f = { u with hp := { u.hp with rwldrop := true, rwlPort := some p, rwlOff := off / 4 } } := by
  rw [State.onRwl, State.onWrite_open hu ho]
  exact if_neg (by simp [hh])

/-- R428: RELEASE acts on a source that is FAILED though its last startup test passed. -/
theorem State.releaseEntropy_returns (hs : u.rn.state = .failed) (ht : u.rn.testOk = true) :
    u.releaseEntropy = u.entropyOk true :=
  if_pos ⟨hs, ht⟩

/-- R428: any other RELEASE is ignored. -/
theorem State.releaseEntropy_ignored (h : ¬(u.rn.state = .failed ∧ u.rn.testOk = true)) : u.releaseEntropy = u :=
  if_neg h

end Release

/-- Settles O42: each step of the source and each access of its windows falls under the lemma for the state it meets. -/
theorem entropyService : Obligations.EntropyService := by
  refine ⟨fun s => ⟨?faulty, fun raw r hok hf hr => ⟨?queued, ?collected, ?seeds⟩, ?failOk, ?failStartup, ?failFailed,
      ?passFresh, ?passLatches, ?passReturns, ?passLatched⟩,
    fun s u p hu => ⟨fun w hw ho => ⟨?dataGives, ?dataEmpty⟩, fun w hw ho => ⟨?generates, ?reseeds, ?drbgEmpty⟩,
      fun ho => ⟨?releases, ?releaseIgnored, ?releaseDropped⟩⟩⟩
  case faulty => exact fun raw f hok hf => congrArg Host.Outcome.next (State.conditionerBlock_faulty hok hf)
  case queued =>
    intro hn hroom b hb
    subst hr hb
    exact congrArg Host.Outcome.next ((State.conditionerBlock_healthy hok hf).trans
      (State.conditioned_queued ((State.needsSeed_run s _ _).trans hn) hroom))
  case collected =>
    intro i hi hfew
    subst hr
    exact congrArg Host.Outcome.next ((State.conditionerBlock_healthy hok hf).trans
      (State.conditioned_collected ((State.needsSeed_run s _ _).trans hi) hfew))
  case seeds =>
    intro i hi htwo
    subst hr
    exact congrArg Host.Outcome.next ((State.conditionerBlock_healthy hok hf).trans
      (State.conditioned_seeds ((State.needsSeed_run s _ _).trans hi) htwo))
  case failOk => exact fun hs f => congrArg Host.Outcome.next (State.healthFailure_ok hs f)
  case failStartup => exact fun hs f => congrArg Host.Outcome.next (State.healthFailure_startup hs f)
  case failFailed => exact fun hs f => congrArg Host.Outcome.next (State.healthFailure_failed hs f)
  case passFresh => exact fun hs hf => congrArg Host.Outcome.next (State.startupPass_fresh hs hf)
  case passLatches => exact fun hs hf hl => congrArg Host.Outcome.next (State.startupPass_latches hs hf hl)
  case passReturns => exact fun hs hl => congrArg Host.Outcome.next (State.startupPass_returns hs hl)
  case passLatched => exact fun hs hl => congrArg Host.Outcome.next (State.startupPass_latched hs hl)
  case dataGives => exact fun x rest hok hq => congrArg Host.Outcome.next (State.rnData_gives hu hw ho hok hq)
  case dataEmpty => exact fun hno => congrArg Host.Outcome.next (State.rnData_empty hu hw ho hno)
  case generates =>
    exact fun d out d' hok hd hc hg => congrArg Host.Outcome.next (State.rnDrbg_generates hu hw ho hok hd hc hg)
  case reseeds =>
    exact fun d out d' hok hd hc hq hg => congrArg Host.Outcome.next (State.rnDrbg_reseeds hu hw ho hok hd hc hq hg)
  case drbgEmpty => exact fun hno => congrArg Host.Outcome.next (State.rnDrbg_empty hu hw ho hno)
  case releases =>
    exact fun hh hs ht => congrArg Host.Outcome.next
      ((onRwl_eq hu ho hh State.releaseEntropy).trans (State.releaseEntropy_returns hs ht))
  case releaseIgnored =>
    exact fun hh hno => congrArg Host.Outcome.next
      ((onRwl_eq hu ho hh State.releaseEntropy).trans (State.releaseEntropy_ignored hno))
  case releaseDropped =>
    exact fun hh => congrArg Host.Outcome.next (State.onRwl_dropped hu ho hh State.releaseEntropy)

end Sys2Proof.Machine
end

section
/-! The JTAG port (19 R484, R485; 21 R518): what each instruction of Table 19.1 answers, what a code outside the table answers
while the Ward is OPEN and while it is not (log entry 91), and from these the statement of the instructions. -/

namespace Sys2Proof.Machine

section JtagPort

variable {s : State}

/-- BYPASS shifts nothing of the module out. -/
theorem exec_bypass : exec .bypass s = .next (s.jtag 0xFF .silent) := rfl

/-- R518: IDCODE shifts out the identity of the module. -/
theorem exec_idcode : exec .idcode s = .next (s.jtag 1 (.value 0x03240D97)) := rfl

/-- SAMPLE/PRELOAD shifts out the levels that the boundary cells took. -/
theorem exec_samplePreload (pins : Byte) : exec (.samplePreload pins) s = .next (s.jtag 2 (.data [pins])) := rfl

/-- WARDSTAT shifts out DW_STAT as it stands, whatever the Ward's state. -/
theorem exec_wardstat : exec .wardstat s = .next (s.jtag 0x10 (.value s.regWard)) := rfl

/-- R485: under EXTEST the boundary cells drive the SITE_DO pins. -/
theorem exec_extest (cells : Byte) : exec (.extest cells) s = .next (s.extestPins cells) := rfl

variable {code : Byte}

/-- R484: while the Ward is not OPEN, a code outside Table 19.1 acts as BYPASS and is counted. -/
theorem exec_internalDebug_denied (hc : State.outsideWard code = false) (hw : s.dw.state ≠ .open) :
    exec (.internalDebug code) s = .next (s.deniedDebug code) := by
  change execInternalDebug code s = _
  rw [execInternalDebug, if_neg (by simp [hc]), if_neg hw]

/-- Log entry 91: while the Ward is OPEN, no rule says what a code outside Table 19.1 does. -/
theorem exec_internalDebug_open (hc : State.outsideWard code = false) (hw : s.dw.state = .open) :
    exec (.internalDebug code) s = .refused .internalDebugUnstated := by
  change execInternalDebug code s = _
  rw [execInternalDebug, if_neg (by simp [hc]), if_pos hw]

end JtagPort

/-- Settles O60: the state `t` of the statement is `State.jtag`, and each instruction falls under its own lemma, a code outside
the table under the lemma for the Ward's state. -/
theorem jtagInstructions : Obligations.JtagInstructions := by
  intro s t ht
  obtain rfl : t = s.jtag := funext fun code => funext fun out => ht code out
  exact ⟨exec_bypass, exec_idcode, exec_samplePreload, exec_wardstat, exec_extest,
    fun code hc => ⟨exec_internalDebug_denied hc, exec_internalDebug_open hc⟩⟩

end Sys2Proof.Machine
end

section
/-! What a command leaves alone, whichever it is: the queue of waiting commands always, the key store and the load generations
but for the commands that write them, and the canonical form of the memories. From this one lemma follow the invariant of
every step and the statements of who writes what. -/

namespace Sys2Proof.Machine

/-- The commands that can write the key store: a start and an OPEN erase it, PROVISION fills it (19 R491, R493, R495). -/
def Instr.writesKeys : Instr → Bool
  | .provision .. | .openWard .. | .startSequence _ => true
  | _ => false

/-- The commands that can change a load generation: a load, here or as a part of a job, and the resets of reach S or P with
the entry to HIBERNATE, which follows a request's record (08 R214; 17 R447). -/
def Instr.writesGens : Instr → Bool
  | .modelLoad .. | .image .. | .requestComplete .. | .nrstAssert | .nrstEscalation | .railFail _ => true
  | _ => false

/-- Every command keeps the queue and the canonical form, and what it is not said to write. -/
theorem exec_keeps {c : Instr} {s t : State} (e : exec c s = .next t) :
    Keeps (!Instr.writesKeys c) (!Instr.writesGens c) s t := by
  cases c with
  | nop => exact execNop_keeps e (.refl ..)
  | solve => exact execSolve_keeps e (.refl ..)
  | sample => exact execSample_keeps e (.refl ..)
  | score => exact execScore_keeps e (.refl ..)
  | retrieve => exact execRetrieve_keeps e (.refl ..)
  | append => exact execAppend_keeps e (.refl ..)
  | modelLoad => exact execModelLoad_keeps e (.refl ..)
  | modelUpdateRows => exact execModelUpdateRows_keeps e (.refl ..)
  | modelUnload => exact execModelUnload_keeps e (.refl ..)
  | copy => exact execCopy_keeps e (.refl ..)
  | fill => exact execFill_keeps e (.refl ..)
  | patch => exact execPatch_keeps e (.refl ..)
  | join => exact execJoin_keeps e (.refl ..)
  | signal => exact execSignal_keeps e (.refl ..)
  | cancel => exact execCancel_keeps e (.refl ..)
  | ctxCreate => exact execCtxCreate_keeps e (.refl ..)
  | ctxDestroy => exact execCtxDestroy_keeps e (.refl ..)
  | ctxGrant => exact execCtxGrant_keeps e (.refl ..)
  | ctxReset => exact execCtxReset_keeps e (.refl ..)
  | ctxDump => exact execCtxDump_keeps e (.refl ..)
  | queueCreate => exact execQueueCreate_keeps e (.refl ..)
  | queueDestroy => exact execQueueDestroy_keeps e (.refl ..)
  | powerSetModuleState => exact execPowerSetModuleState_keeps e (.refl ..)
  | powerSetEngineHalf => exact execPowerSetEngineHalf_keeps e (.refl ..)
  | powerSetPowerLimit => exact execPowerSetPowerLimit_keeps e (.refl ..)
  | siteBind => exact execSiteBind_keeps e (.refl ..)
  | siteUnbind => exact execSiteUnbind_keeps e (.refl ..)
  | engineRetire => exact execEngineRetire_keeps e (.refl ..)
  | engineRepair => exact execEngineRepair_keeps e (.refl ..)
  | counterReadAll => exact execCounterReadAll_keeps e (.refl ..)
  | scalePolicy => exact execScalePolicy_keeps e (.refl ..)
  | feKqcmdGo => exact execFeKqcmdGo_keeps e (.refl ..)
  | snoop => exact execSnoop_keeps e (.refl ..)
  | doorbellRead => exact execDoorbellRead_keeps e (.refl ..)
  | descriptorFetch => exact execDescriptorFetch_keeps e (.refl ..)
  | sliceEnd => exact execSliceEnd_keeps e (.refl ..)
  | requestComplete => exact execRequestComplete_keeps e (.refl ..)
  | chainNext => exact execChainNext_keeps e (.refl ..)
  | queueDestroyEnd => exact execQueueDestroyEnd_keeps e (.refl ..)
  | cacheableRequest => exact execCacheableRequest_keeps e (.refl ..)
  | flip => exact execFlip_keeps e (.refl ..)
  | hemFlip => exact execHemFlip_keeps e (.refl ..)
  | turnEndStitch => exact execTurnEndStitch_keeps e (.refl ..)
  | drainMarker => exact execDrainMarker_keeps e (.refl ..)
  | serviceTransfer => exact execServiceTransfer_keeps e (.refl ..)
  | laneFault => exact execLaneFault_keeps e (.refl ..)
  | turnBoundary => exact execTurnBoundary_keeps e (.refl ..)
  | ringAppendWrite => exact execRingAppendWrite_keeps e (.refl ..)
  | patrolScrub => exact execPatrolScrub_keeps e (.refl ..)
  | siteFailure => exact execSiteFailure_keeps e (.refl ..)
  | spareShiftPause => exact execSpareShiftPause_keeps e (.refl ..)
  | spareShiftResume => exact execSpareShiftResume_keeps e (.refl ..)
  | engineClearEnd => exact execEngineClearEnd_keeps e (.refl ..)
  | wakeScrubEnd => exact execWakeScrubEnd_keeps e (.refl ..)
  | sampleConversion => exact execSampleConversion_keeps e (.refl ..)
  | scalePolicyDecision => exact execScalePolicyDecision_keeps e (.refl ..)
  | managementTick => exact execManagementTick_keeps e (.refl ..)
  | hangDetected => exact execHangDetected_keeps e (.refl ..)
  | contextResetEnd => exact execContextResetEnd_keeps e (.refl ..)
  | resetAckTimeout => exact execResetAckTimeout_keeps e (.refl ..)
  | dumpAckTimeout => exact execDumpAckTimeout_keeps e (.refl ..)
  | dumpWrite => exact execDumpWrite_keeps e (.refl ..)
  | watchdogExpiry => exact execWatchdogExpiry_keeps e (.refl ..)
  | coreCrossCheck => exact execCoreCrossCheck_keeps e (.refl ..)
  | hubPatrolScrub => exact execHubPatrolScrub_keeps e (.refl ..)
  | channelFailure => exact execChannelFailure_keeps e (.refl ..)
  | packageFailure => exact execPackageFailure_keeps e (.refl ..)
  | hubFailure => exact execHubFailure_keeps e (.refl ..)
  | csramPlainWrite => exact execCsramPlainWrite_keeps e (.refl ..)
  | csramAliasWrite => exact execCsramAliasWrite_keeps e (.refl ..)
  | csramAtomic => exact execCsramAtomic_keeps e (.refl ..)
  | csramRead => exact execCsramRead_keeps e (.refl ..)
  | csramClearEnd => exact execCsramClearEnd_keeps e (.refl ..)
  | hostLinkTraining => exact execHostLinkTraining_keeps e (.refl ..)
  | hostLinkDown => exact execHostLinkDown_keeps e (.refl ..)
  | flitReplayRequest => exact execFlitReplayRequest_keeps e (.refl ..)
  | linkRetrain => exact execLinkRetrain_keeps e (.refl ..)
  | linkRekey => exact execLinkRekey_keeps e (.refl ..)
  | hpHaspRead => exact execHpHaspRead_keeps e (.refl ..)
  | hpHaspWrite => exact execHpHaspWrite_keeps e (.refl ..)
  | haspBreak => exact execHaspBreak_keeps e (.refl ..)
  | registerWrite => exact execRegisterWrite_keeps e (.refl ..)
  | rcRead => exact execRcRead_keeps e (.refl ..)
  | peerLinkTraining => exact execPeerLinkTraining_keeps e (.refl ..)
  | peerLinkDown => exact execPeerLinkDown_keeps e (.refl ..)
  | enum => exact execEnum_keeps e (.refl ..)
  | enumReply => exact execEnumReply_keeps e (.refl ..)
  | enumReplyTimeout => exact execEnumReplyTimeout_keeps e (.refl ..)
  | route => exact execRoute_keeps e (.refl ..)
  | image => exact execImage_keeps e (.refl ..)
  | loaded => exact execLoaded_keeps e (.refl ..)
  | run => exact execRun_keeps e (.refl ..)
  | credit => exact execCredit_keeps e (.refl ..)
  | cuffSend => exact execCuffSend_keeps e (.refl ..)
  | cuff => exact execCuff_keeps e (.refl ..)
  | partialEnergy => exact execPartialEnergy_keeps e (.refl ..)
  | boundary => exact execBoundary_keeps e (.refl ..)
  | result => exact execResult_keeps e (.refl ..)
  | fault => exact execFault_keeps e (.refl ..)
  | abort => exact execAbort_keeps e (.refl ..)
  | abortDone => exact execAbortDone_keeps e (.refl ..)
  | unload => exact execUnload_keeps e (.refl ..)
  | unloaded => exact execUnloaded_keeps e (.refl ..)
  | sampleSegment => exact execSampleSegment_keeps e (.refl ..)
  | scaleRecords => exact execScaleRecords_keeps e (.refl ..)
  | responderFrame => exact execResponderFrame_keeps e (.refl ..)
  | frameDiscard => exact execFrameDiscard_keeps e (.refl ..)
  | ptpMessage => exact execPtpMessage_keeps e (.refl ..)
  | prpSupervision => exact execPrpSupervision_keeps e (.refl ..)
  | setpointSend => exact execSetpointSend_keeps e (.refl ..)
  | gateListEntry => exact execGateListEntry_keeps e (.refl ..)
  | siteDiEdge => exact execSiteDiEdge_keeps e (.refl ..)
  | conditionerBlock => exact execConditionerBlock_keeps e (.refl ..)
  | healthTestFailure => exact execHealthTestFailure_keeps e (.refl ..)
  | startupTestPass => exact execStartupTestPass_keeps e (.refl ..)
  | rnDataRead => exact execRnDataRead_keeps e (.refl ..)
  | rnDrbgRead => exact execRnDrbgRead_keeps e (.refl ..)
  | release => exact execRelease_keeps e (.refl ..)
  | nrstAssert => exact execNrstAssert_keeps e (.refl ..)
  | nrstEscalation => exact execNrstEscalation_keeps e (.refl ..)
  | nrstRelease => exact execNrstRelease_keeps e (.refl ..)
  | railFail => exact execRailFail_keeps e (.refl ..)
  | pRelease => exact execPRelease_keeps e (.refl ..)
  | startSequence => exact execStartSequence_keeps e (.refl ..)
  | commit => exact execCommit_keeps e (.refl ..)
  | loadRun => exact execLoadRun_keeps e (.refl ..)
  | rcvWriteNor => exact execRcvWriteNor_keeps e (.refl ..)
  | clearCnt => exact execClearCnt_keeps e (.refl ..)
  | engineThrottle => exact execEngineThrottle_keeps e (.refl ..)
  | powerOvershoot => exact execPowerOvershoot_keeps e (.refl ..)
  | thermalTrip => exact execThermalTrip_keeps e (.refl ..)
  | vinEngLoss => exact execVinEngLoss_keeps e (.refl ..)
  | standbyEntry => exact execStandbyEntry_keeps e (.refl ..)
  | autowake => exact execAutowake_keeps e (.refl ..)
  | verify => exact execVerify_keeps e (.refl ..)
  | fwWriteNor => exact execFwWriteNor_keeps e (.refl ..)
  | activate => exact execActivate_keeps e (.refl ..)
  | chal => exact execChal_keeps e (.refl ..)
  | openWard => exact execOpenWard_keeps e (.refl ..)
  | challengeLapse => exact execChallengeLapse_keeps e (.refl ..)
  | provision => exact execProvision_keeps e (.refl ..)
  | attest => exact execAttest_keeps e (.refl ..)
  | bypass => exact execBypass_keeps e (.refl ..)
  | idcode => exact execIdcode_keeps e (.refl ..)
  | samplePreload => exact execSamplePreload_keeps e (.refl ..)
  | extest => exact execExtest_keeps e (.refl ..)
  | wardstat => exact execWardstat_keeps e (.refl ..)
  | internalDebug => exact execInternalDebug_keeps e (.refl ..)
  | refclkLinkLoss => exact execRefclkLinkLoss_keeps e (.refl ..)
  | refclkSiteLoss => exact execRefclkSiteLoss_keeps e (.refl ..)
  | tcxoAonLoss => exact execTcxoAonLoss_keeps e (.refl ..)
  | clockReturn => exact execClockReturn_keeps e (.refl ..)
  | sidebandWrite => exact execSidebandWrite_keeps e (.refl ..)
  | sidebandRead => exact execSidebandRead_keeps e (.refl ..)
  | lpddr6ZeroingEnd => exact execLpddr6ZeroingEnd_keeps e (.refl ..)
  | siteLaneDown => exact execSiteLaneDown_keeps e (.refl ..)
  | siteLaneUp => exact execSiteLaneUp_keeps e (.refl ..)

/-- A command that is not one of the key store's writers leaves it. -/
theorem exec_keys {c : Instr} {s t : State} (e : exec c s = .next t) (hc : Instr.writesKeys c = false) :
    t.rs.keys = s.rs.keys :=
  (exec_keeps e).keys (by rw [hc]; rfl)

/-- A command that is not one of the load generations' writers leaves them. -/
theorem exec_mgens {c : Instr} {s t : State} (e : exec c s = .next t) (hc : Instr.writesGens c = false) :
    t.mgens = s.mgens :=
  (exec_keeps e).gens (by rw [hc]; rfl)

/-- Taking a command from the queue leaves the memories, so a canonical state stays canonical. -/
theorem State.Canonical.withPending {s : State} (h : s.Canonical) (l : List Instr) :
    State.Canonical { s with pending := l } := h

/-- The three commands that write the key store. -/
theorem Instr.writesKeys_iff {c : Instr} : Instr.writesKeys c = true ↔
    (∃ p hostOk mramOk, c = .provision p hostOk mramOk) ∨ (∃ p seen, c = .openWard p seen) ∨
      ∃ seen, c = .startSequence seen := by
  cases c <;> simp [Instr.writesKeys]

/-- The six commands that write load generations. -/
theorem Instr.writesGens_iff {c : Instr} : Instr.writesGens c = true ↔
    (∃ k source, c = .modelLoad k source) ∨ (∃ dst job gen bytes table, c = .image dst job gen bytes table) ∨
      (∃ k now formed areaOk, c = .requestComplete k now formed areaOk) ∨
      c = .nrstAssert ∨ c = .nrstEscalation ∨ ∃ r, c = .railFail r := by
  cases c <;> simp [Instr.writesGens]

/-- Settles O3: an idle step answers the state itself, and any other step is its front command, which keeps the form. -/
theorem everyStepKeepsCanonical : Obligations.EveryStepKeepsCanonical := by
  intro s t hs e
  unfold step at e
  split at e
  · cases e; exact hs
  · exact (exec_keeps e).canonical (hs.withPending _)

/-- Settles O4: every arm keeps the queue (`exec_keeps`), and only the step takes from it (log entry 1). -/
theorem noCommandChangesTheQueue : Obligations.NoCommandChangesTheQueue :=
  fun _ _ _ e => (exec_keeps e).pending

/-- Settles O5: a command that is none of the three writers leaves the key store. -/
theorem keyStoreWriters : Obligations.KeyStoreWriters := by
  intro c s t e hne
  cases hc : Instr.writesKeys c with
  | true => exact Instr.writesKeys_iff.1 hc
  | false => exact absurd (exec_keys e hc) hne

/-- Settles O6: a command that is none of the six writers leaves the load generations. -/
theorem loadGenerationWriters : Obligations.LoadGenerationWriters := by
  intro c s t e hne
  cases hc : Instr.writesGens c with
  | true => exact Instr.writesGens_iff.1 hc
  | false => exact absurd (exec_mgens e hc) hne

/-- Every command but INTERNAL_DEBUG answers a next state, whatever the state. -/
theorem exec_next_of_ne_internalDebug {c : Instr} (hc : ∀ code, c ≠ .internalDebug code) (s : State) :
    ∃ t, exec c s = .next t := by
  cases c
  case internalDebug code => exact absurd rfl (hc code)
  all_goals exact ⟨_, rfl⟩

/-- Settles O7: INTERNAL_DEBUG stops only for a code outside Table 19.1 while the Ward is OPEN (log entry 91), and a command
whose condition does not hold answers its own state (log entry 3). -/
theorem commandsComplete : Obligations.CommandsComplete := by
  intro c s
  by_cases hc : ∃ code, c = .internalDebug code
  · obtain ⟨code, rfl⟩ := hc
    cases ho : State.outsideWard code with
    | true => exact .inl ⟨s, if_pos ho⟩
    | false =>
      by_cases hw : s.dw.state = .open
      · exact .inr ⟨code, rfl, ho, hw, exec_internalDebug_open ho hw⟩
      · exact .inl ⟨_, exec_internalDebug_denied ho hw⟩
  · exact .inl (exec_next_of_ne_internalDebug (fun code h => hc ⟨code, h⟩) s)

end Sys2Proof.Machine
end

section
/-! The requests that move or change no model (10 R275, R291-R295): what NOP, JOIN, SIGNAL, PATCH, COPY, FILL and CANCEL do
once their request is ready, each from the case its definition takes, and from these the statements of these requests. -/

namespace Sys2Proof.Machine

/-- Which run stands under a key is said by the runs alone. -/
theorem State.run?_congr {s t : State} (h : t.runs = s.runs) (k : ReqKey) : t.run? k = s.run? k := by
  unfold State.run?; rw [h]

/-- A request without a run that completes OK on a state known in another form holds its record there. -/
theorem State.okReq_eq_ended {t u : State} {k : ReqKey} (e : t = u) (h : u.run? k = none) (a b : W64) :
    t.okReq k a b = ended u k Status.ok a b :=
  e ▸ State.okReq_ended h a b

/-- A request that is ready stands in the table. -/
theorem State.ready?_req? {s : State} {k : ReqKey} {op : Nat} {r : Request} (h : s.ready? k op = some r) :
    s.req? k = some r := by
  unfold State.ready? at h
  split at h
  · next o ho =>
    split at h
    · rw [ho, h]
    · cases h
  · cases h

section Small

variable {s : State} {k : ReqKey} {r : Request} {p : Port}

/-- R295: a NOP without its flag changes nothing. -/
theorem State.nop_plain (h : Starts s k Op.nop r) (hf : bitAt (r.fld 56 1) 0 = false) :
    s.nop k = ended s k Status.ok 0 0 := by
  rw [State.nop, h.1]
  exact (if_neg (by simp [hf])).trans (State.okReq_ended h.2 0 0)

/-- R295: a NOP with its flag drops the failed names that it lists. -/
theorem State.nop_drops (h : Starts s k Op.nop r) (hf : bitAt (r.fld 56 1) 0 = true) :
    s.nop k = ended { s with fe := { s.fe with
      requests := s.fe.requests.filter fun o => !(s.nopDrops r).contains o.key } } k Status.ok
      (BitVec.ofNat 64 (s.nopDrops r).length) 0 := by
  rw [State.nop, h.1]
  exact (if_pos hf).trans (State.okReq_eq_ended (State.foldl_dropReq _ s) h.2 _ _)

/-- R293: a JOIN waits for its predecessors alone. -/
theorem State.join_ended (h : Starts s k Op.join r) : s.join k = ended s k Status.ok 0 0 := by
  rw [State.join, h.1]
  exact State.okReq_ended h.2 0 0

/-- A signal write goes out by the port that a transaction takes, whose link it wakes. -/
theorem State.sendSignal_via {q : Port} (hp : s.viaPort q = some p) (v : Nat) :
    s.sendSignal q v = { s.wakeLink p with signals := s.signals ++ [⟨p, v⟩] } := by
  rw [State.sendSignal, hp]

/-- Waking a link and a change of host memory do not depend on each other. -/
theorem State.wakeLink_host_with (s : State) (p : Port) (m : Mem) :
    State.wakeLink { s with host := m } p = { s.wakeLink p with host := m } := by
  unfold State.wakeLink State.setPort
  rw [show State.port { s with host := m } p = s.port p by cases p <;> rfl]
  split <;> cases p <;> rfl

/-- R292: a SIGNAL without a store sends its signal write. -/
theorem State.signalReq_plain (h : Starts s k Op.signal r) (hf : bitAt (r.fld 58 1) 1 = false)
    (hp : s.viaPort (if bitAt (r.fld 58 1) 0 then .b else .a) = some p) :
    s.signalReq k = ended { s.wakeLink p with signals := s.signals ++ [⟨p, r.fld 56 2⟩] } k Status.ok 0 0 := by
  simp only [State.signalReq, h.1, hf, Bool.false_eq_true, false_and, if_false, State.viaPort_up hp,
    State.sendSignal_via hp, Bool.true_eq_false]
  refine State.okReq_ended ?_ 0 0
  exact (State.run?_congr (State.wakeLink_runs s p) k).trans h.2

/-- A store to the host and a signal write after it: the links of both are awake, the bytes stand and the signal is out. -/
theorem State.sendSignal_writeFor {q : Port} (hp : s.viaPort q = some p) (n a v : Nat) (bs : Bytes) :
    (s.writeFor n a bs).sendSignal q v = { (s.touchHost (s.homeOf n)).wakeLink p with
      host := Mem.store s.host a bs, signals := s.signals ++ [⟨p, v⟩] } := by
  have hv := (State.touchHost_viaPort { s with host := Mem.store s.host a bs } (s.homeOf n) q).trans hp
  rw [State.writeFor_eq (State.viaPort_up hp), ← State.touchHost_host_with, State.sendSignal_via hv,
    State.touchHost_signals, State.touchHost_host_with, State.wakeLink_host_with]

/-- R292: a SIGNAL with a store writes its value first. -/
theorem State.signalReq_stores (h : Starts s k Op.signal r) (hf : bitAt (r.fld 58 1) 1 = true)
    (ha : addrLe (r.fld 64 8) = 0) (hp : s.viaPort (if bitAt (r.fld 58 1) 0 then .b else .a) = some p) :
    s.signalReq k = ended
      { (s.touchHost (s.homeOf r.queue)).wakeLink p with
        host := Mem.store s.host (addrOff (r.fld 64 8)) (leBytes 8 (r.fld 72 8))
        signals := s.signals ++ [⟨p, r.fld 56 2⟩] } k Status.ok 0 0 := by
  simp only [State.signalReq, h.1, hf, ha, ne_eq, not_true_eq_false, and_false, if_false, if_true, State.viaPort_up hp,
    Bool.true_eq_false]
  refine State.okReq_eq_ended (State.sendSignal_writeFor hp _ _ _ _) ?_ 0 0
  simp only [State.run?, State.wakeLink_runs, State.touchHost_runs]
  exact h.2

end Small

/-- Settles O8: each request takes the lemma of its kind and flag. -/
theorem nopJoinSignalComplete : Obligations.NopJoinSignalComplete := by
  refine fun s k r => ⟨?nop, ?nopDrops, ?join, ?signal, ?signalStores⟩
  case nop => exact fun h hf => congrArg Host.Outcome.next (State.nop_plain h hf)
  case nopDrops => exact fun h hf => congrArg Host.Outcome.next (State.nop_drops h hf)
  case join => exact fun h => congrArg Host.Outcome.next (State.join_ended h)
  case signal => exact fun h hf _ hp => congrArg Host.Outcome.next (State.signalReq_plain h hf hp)
  case signalStores => exact fun h hf ha _ hp => congrArg Host.Outcome.next (State.signalReq_stores h hf ha hp)

section Patch

variable {s : State} {k : ReqKey} {r : Request}

/-- R275: the overlay entries of a source take the values that it gives; its own are the only ones that change. -/
theorem State.settlePatches_values (s : State) (r : Request) :
    s.settlePatches r.queue r.seq (fun o => some { o with value := State.patchValue r o.target o.word }) =
      { s with fe := { s.fe with
        overlay := s.fe.overlay.map fun o =>
          if o.queue = r.queue ∧ o.source = r.seq then { o with value := State.patchValue r o.target o.word } else o
        requests := s.fe.requests.map fun q => { q with patches := q.patches.map fun o =>
          if o.queue = r.queue ∧ o.source = r.seq then { o with value := State.patchValue r o.target o.word } else o } } } := by
  simp only [State.settlePatches, filterMap_some_if]

/-- The end of a request holds no request for a patch. -/
theorem ended_state_ne_heldPatch {st : Nat} {a b : W64} (h : ∀ q ∈ s.fe.requests, q.state ≠ .heldPatch) :
    ∀ q ∈ (ended s k st a b).fe.requests, q.state ≠ .heldPatch := by
  intro q hq
  obtain ⟨o, ho, rfl⟩ := List.mem_map.1 hq
  split
  · exact nofun
  · exact h o ho

end Patch

/-- Settles O9: with no request held for a patch, the end of the PATCH releases none (R276). -/
theorem patchFillsOverlay : Obligations.PatchFillsOverlay := by
  intro s k r h hq
  refine congrArg Host.Outcome.next ?_
  simp only [State.patch, h.1, State.takeFree, State.settlePatches_values]
  rw [State.okReq_ended (by exact h.2)]
  refine State.releasePatched_id (ended_state_ne_heldPatch fun q hm => ?_)
  obtain ⟨o, ho, rfl⟩ := List.mem_map.1 hm
  exact hq o ho

end Sys2Proof.Machine
end

section
/-! COPY, FILL and CANCEL (10 R291, R294, R301, R302): what they do once their request is ready, each from the case its
definition takes, and from these the statements of these requests. -/

namespace Sys2Proof.Machine

section Transfers

variable {s : State} {k : ReqKey} {r : Request}

/-- A read of host memory alone meets nothing in the module's own memories; its link is awake. -/
theorem State.sourceMet_host {a n : Nat} (ha : addrSpace a = 0) (hl : addrLe a = 0) (hn : n ≠ 0) (find : SourceFind) :
    s.sourceMet r [(a, n)] find = (s.touchHost (s.homeOf r.queue), .clean) := by
  have hb : ∀ c b, State.burstIn c b (a, n) = false := by simp [State.burstIn, ha]
  have hw : ∀ w, State.wordIn w (a, n) = false := by simp [State.wordIn, ha]
  have hf : ∀ l : List Nat, l.find? (fun w => [(a, n)].any (State.wordIn w)) = none := by simp [hw]
  have hk : ∀ t : State, t.knownBad r [(a, n)] = .clean := fun t => by
    rw [State.knownBad, hf]; simp [hb]
  have h0 : State.spaceIn 0 0 (a, n) = true := by simp [State.spaceIn, ha, hl, hn]
  have h1 : ∀ m l, m ≠ 0 → State.spaceIn m l (a, n) = false := by
    intro m l hm; simp [State.spaceIn, ha, Ne.symm hm]
  cases find <;> simp [State.sourceMet, hk, h0, h1, hb, hw]

/-- Two operands in host memory are on no two engines, so the copy uses no route. -/
theorem State.copyRoute_host {a b : Nat} (ha : addrSpace a = 0) : s.copyRoute a b = some [] := by
  simp [State.copyRoute, ha]

/-- Host memory takes no pages. -/
theorem State.takePages_host {a n : Nat} (ha : addrSpace a = 0) : s.takePages r a n = s := by
  simp [State.takePages, State.freshPages, ha]

/-- A transfer between host addresses is ready when a link is up and no spare shift holds its context. -/
theorem State.transferReady_host {as : List Nat} (has : ∀ a ∈ as, addrSpace a = 0) (hm : State.maskOf as = 0)
    (hup : s.hostUp = true) (hs : s.shiftHolds r.tag = false) : s.transferReady r as = true := by
  have hall : as.all s.transferUp = true := List.all_eq_true.2 fun a ha => by
    rw [State.transferUp, if_pos (has a ha), hup]
  rw [State.transferReady, hall, hm, State.enginesReady_zero, hs]; rfl

/-- A store of bytes to host memory for a queue. -/
theorem State.writeSpace_host {a : Nat} {bs : Bytes} (ha : addrSpace a = 0) (hb : bs ≠ []) (hup : s.hostUp = true) :
    s.writeSpace r a bs = { s.touchHost (s.homeOf r.queue) with host := Mem.store s.host (addrOff a) bs } := by
  have he : bs.isEmpty = false := by simpa using hb
  rw [State.writeSpace]
  simp only [he, Bool.false_eq_true, if_false, ha, if_true]
  exact State.writeFor_eq hup _ _ _

/-- R302: a transfer of no bytes ends at once. -/
theorem State.copy_empty (h : Starts s k Op.copy r) (hn : r.fld 72 8 = 0) (find : SourceFind) :
    s.copy k find = ended s k Status.ok 0 0 := by
  rw [State.copy, h.1]
  exact (if_pos hn).trans (State.okReq_ended h.2 0 0)

/-- A COPY whose checks pass and whose transfer is ready goes by what it meets at its source. -/
theorem State.copy_ready (h : s.ready? k Op.copy = some r) (hn : r.fld 72 8 ≠ 0)
    (hr : s.reachOk r (r.fld 56 8) (r.fld 72 8) true = .ok ()) {t : State} {way : List (Nat × Dir)}
    (ho : s.openWrite r 64 (r.fld 64 8) (r.fld 72 8) = .ok t) (hw : s.copyRoute (r.fld 56 8) (r.fld 64 8) = some way)
    (hy : s.transferReady r [r.fld 56 8, r.fld 64 8] = true) (find : SourceFind) {u : State} {met : State.Met}
    (hm : s.sourceMet r [(r.fld 56 8, r.fld 72 8)] find = (u, met)) :
    s.copy k find = if met = .clean then State.okReq
      ((((u.takePages r (r.fld 64 8) (r.fld 72 8)).startOn (State.maskOf [r.fld 56 8, r.fld 64 8])).queueTransfer way r.tag
          (s.readSpace r (r.fld 56 8) (r.fld 72 8))).writeSpace r (r.fld 64 8) (s.readSpace r (r.fld 56 8) (r.fld 72 8)))
      k (BitVec.ofNat 64 (r.fld 72 8)) 0 else u.failMet k met := by
  simp only [State.copy, h, if_neg hn, hr, ho, hw, hy, Bool.true_eq_false, if_false, hm]
  cases met <;> rfl

/-- A COPY within host memory. -/
theorem State.copy_host (h : Starts s k Op.copy r) (hn : r.fld 72 8 ≠ 0) (hs : addrSpace (r.fld 56 8) = 0)
    (hsl : addrLe (r.fld 56 8) = 0) (hd : addrSpace (r.fld 64 8) = 0) (hdl : addrLe (r.fld 64 8) = 0)
    (hup : s.hostUp = true) (hf : s.shiftHolds r.tag = false) (find : SourceFind) :
    s.copy k find = ended { s.touchHost (s.homeOf r.queue) with
      host := Mem.store s.host (addrOff (r.fld 64 8)) (Mem.bytes s.host (addrOff (r.fld 56 8)) (r.fld 72 8)) }
      k Status.ok (BitVec.ofNat 64 (r.fld 72 8)) 0 := by
  have hr : s.reachOk r (r.fld 56 8) (r.fld 72 8) true = .ok () := by
    simp only [State.reachOk, hs, hsl, if_true]
  have hm := State.maskOf_two hs hd
  have hy : s.transferReady r [r.fld 56 8, r.fld 64 8] = true := State.transferReady_host (by simp [hs, hd]) hm hup hf
  have hb : s.readSpace r (r.fld 56 8) (r.fld 72 8) = Mem.bytes s.host (addrOff (r.fld 56 8)) (r.fld 72 8) := by
    simp only [State.readSpace, hs, if_true]
  have hne : Mem.bytes s.host (addrOff (r.fld 56 8)) (r.fld 72 8) ≠ [] :=
    List.ne_nil_of_length_pos (by rw [Mem.bytes_length]; omega)
  rw [State.copy_ready h.1 hn hr (State.openWrite_host hd hdl) (State.copyRoute_host hs) hy find
    (State.sourceMet_host hs hsl hn find), if_pos rfl, State.takePages_host hd, hm, State.startOn_zero, hb]
  refine State.okReq_eq_ended ((State.writeSpace_host hd hne ((State.touchHost_hostUp _ _).trans hup)).trans ?_) ?_ _ 0
  · rw [State.touchHost_host, State.touchHost_homeOf, State.touchHost_idem]
  · simp only [State.run?, State.touchHost_runs]
    exact h.2

/-- R301: a pattern fills its range in whole words of 8 bytes. -/
theorem State.fillBytes_length (pattern n : Nat) : (State.fillBytes pattern n).length = 8 * (n / 8) := by
  simp [State.fillBytes, leBytes_length, Nat.mul_comm]

/-- R302: a fill of no bytes ends at once. -/
theorem State.fill_empty (h : Starts s k Op.fill r) (hn : r.fld 64 8 = 0) : s.fill k = ended s k Status.ok 0 0 := by
  rw [State.fill, h.1]
  exact (if_pos hn).trans (State.okReq_ended h.2 0 0)

/-- A FILL whose destination is open and whose transfer is ready writes its pattern. -/
theorem State.fill_ready (h : s.ready? k Op.fill = some r) (hn : r.fld 64 8 ≠ 0) {t : State}
    (ho : s.openWrite r 56 (r.fld 56 8) (r.fld 64 8) = .ok t) (hy : s.transferReady r [r.fld 56 8] = true) :
    s.fill k = State.okReq
      ((t.startOn (State.maskOf [r.fld 56 8])).writeSpace r (r.fld 56 8) (State.fillBytes (r.fld 72 8) (r.fld 64 8)))
      k (BitVec.ofNat 64 (r.fld 64 8)) 0 := by
  simp only [State.fill, h, if_neg hn, ho, hy, Bool.true_eq_false, if_false]

/-- A FILL of host memory; one that is shorter than its pattern stores nothing and wakes no link. -/
theorem State.fill_host (h : Starts s k Op.fill r) (hn : r.fld 64 8 ≠ 0) (hd : addrSpace (r.fld 56 8) = 0)
    (hdl : addrLe (r.fld 56 8) = 0) (hup : s.hostUp = true) (hf : s.shiftHolds r.tag = false) :
    s.fill k = ended { (if r.fld 64 8 < 8 then s else s.touchHost (s.homeOf r.queue)) with
      host := Mem.store s.host (addrOff (r.fld 56 8)) (State.fillBytes (r.fld 72 8) (r.fld 64 8)) }
      k Status.ok (BitVec.ofNat 64 (r.fld 64 8)) 0 := by
  have hm := State.maskOf_one hd
  have hlen := State.fillBytes_length (r.fld 72 8) (r.fld 64 8)
  rw [State.fill_ready h.1 hn (State.openWrite_host hd hdl) (State.transferReady_host (by simp [hd]) hm hup hf), hm,
    State.startOn_zero]
  by_cases hlt : r.fld 64 8 < 8
  · have hnil : State.fillBytes (r.fld 72 8) (r.fld 64 8) = [] := List.eq_nil_of_length_eq_zero (by omega)
    rw [hnil, if_pos hlt]
    exact State.okReq_ended h.2 _ 0
  · rw [if_neg hlt]
    refine State.okReq_eq_ended (State.writeSpace_host hd (List.ne_nil_of_length_pos (by omega)) hup) ?_ _ 0
    simp only [State.run?, State.touchHost_runs]
    exact h.2

end Transfers

/-- Settles O10: a transfer of no bytes, one within host memory, and one that is ready each take their lemma. -/
theorem copyFillComplete : Obligations.CopyFillComplete := by
  refine fun s k r => ⟨?copyEmpty, ?copyReady, ?copyHost, ?fillEmpty, ?fillReady, ?fillHost⟩
  case copyEmpty => exact fun h hn find => congrArg Host.Outcome.next (State.copy_empty h hn find)
  case copyReady =>
    intro h hn hr t way ho hw hy find u met hm
    have e := State.copy_ready h.1 hn hr ho hw hy find hm
    exact ⟨fun hc => congrArg Host.Outcome.next (e.trans (if_pos hc)),
      fun hc => congrArg Host.Outcome.next (e.trans (if_neg hc))⟩
  case copyHost =>
    exact fun h hn hs hsl hd hdl hup hf find => congrArg Host.Outcome.next (State.copy_host h hn hs hsl hd hdl hup hf find)
  case fillEmpty => exact fun h hn => congrArg Host.Outcome.next (State.fill_empty h hn)
  case fillReady => exact fun h hn t ho hy => congrArg Host.Outcome.next (State.fill_ready h.1 hn ho hy)
  case fillHost => exact fun h hn hd hdl hup hf => congrArg Host.Outcome.next (State.fill_host h hn hd hdl hup hf)

section Cancel

variable {s : State} {k : ReqKey} {r : Request} {name : W64}

/-- R294: CANCEL of a request that stands and has not ended stops it and returns 1. -/
theorem State.cancelReq_stands (h : s.ready? k Op.cancel = some r) (hname : name = BitVec.ofNat 64 (r.fld 56 8))
    (hown : s.cancelForeign r name = false) {o : Request} (ho : s.req? ⟨name, 0⟩ = some o) (he : o.state ≠ .ended)
    (hf : o.state ≠ .heldFailed) :
    s.cancelReq k = (s.stopReq ⟨name, 0⟩ Status.cancelled none).okReq k 1 0 := by
  subst hname
  simp only [State.cancelReq, h, hown, ho, he, hf, or_self, Bool.false_eq_true, if_false]

/-- R294: CANCEL of a name of an open queue that stands nowhere says whether it was fetched. -/
theorem State.cancelReq_gone (h : s.ready? k Op.cancel = some r) (hname : name = BitVec.ofNat 64 (r.fld 56 8))
    (hown : s.cancelForeign r name = false) (ho : s.req? ⟨name, 0⟩ = none) (hc : ∀ c ∈ s.fe.chains, c.name ≠ name)
    {q : Queue} (hq : s.queueOf name = some q) :
    s.cancelReq k = s.okReq k (if nameSeq name < q.fhead % 2 ^ 40 then 2 else 3) 0 := by
  subst hname
  have hany : s.fe.chains.any (fun c => decide (c.name = BitVec.ofNat 64 (r.fld 56 8))) = false := by
    simpa using hc
  simp only [State.cancelReq, h, hown, ho, hany, hq, Bool.false_eq_true, if_false]

/-- With no run under way there is none to resume. -/
theorem State.resumeRuns_of_no_runs (h : s.runs = []) : s.resumeRuns = s := by
  rw [State.resumeRuns, h]; rfl

/-- A request that is no APPEND under way leaves no positions to fill. -/
theorem State.fillRest_of_append_none {keep : Bool} (h : ∀ o, s.req? k = some o → o.append = none) :
    s.fillRest k keep = s := by
  rw [State.fillRest]
  split
  · rfl
  · next o ho => rw [h o ho]

/-- A request that waits for no peer has no part of a job to recall. -/
theorem State.recallPart_of_hold_ne (h : r.hold ≠ some .peer) : s.recallPart r = s := by
  rw [State.recallPart]
  split
  · exact if_neg fun hc => h hc.2
  · rfl

/-- With no run under way, stopping a request that neither appends nor loads a part of a job withdraws and ends it. -/
theorem State.stopReq_of_no_runs (hr : s.runs = []) {o : Request} (ho : s.req? k = some o) (he : o.state ≠ .ended)
    (hf : o.state ≠ .heldFailed) (ha : o.append = none) (hp : o.hold ≠ some .peer) (status : Nat) :
    s.stopReq k status none = (s.withdraw k).endReq k status
      (if status = Status.cancelled && turnBased o.op then Stop.cancel else Stop.none) (BitVec.ofNat 64 o.turns) 0
      0xFFFF := by
  have hwr : (s.withdraw k).runs = [] := hr
  have hrun : (s.withdraw k).run? k = none := by rw [State.run?, hwr]; rfl
  have hfill : (s.withdraw k).fillRest k false = s.withdraw k :=
    State.fillRest_of_append_none fun o' ho' => by cases ho.symm.trans ho'; exact ha
  have hend : ∀ st stop w, ((s.withdraw k).endReq k st stop w 0 0xFFFF).runs = [] := fun st stop w => by
    rw [State.endReq, State.dropRun_none hrun]; exact hwr
  simp only [State.stopReq, ho, he, hf, or_self, if_false, hrun, Option.isSome_none, Bool.false_eq_true, hfill, ite_self,
    State.recallPart_of_hold_ne hp]
  exact State.resumeRuns_of_no_runs (hend _ _ _)

/-- Dropping a run leaves the request table. -/
theorem State.dropRun_fe (s : State) (k : ReqKey) : (s.dropRun k).fe = s.fe := by
  unfold State.dropRun State.closeCuffs
  repeat' split
  all_goals rfl

/-- A request that ends is found with what it ends with. -/
theorem State.endReq_req?_same {o : Request} (ho : s.req? k = some o) (st stop : Nat) (a b : W64) (le : Nat) :
    ∃ o', (s.endReq k st stop a b le).req? k = some o' ∧ o'.state = .ended ∧ o'.status = st ∧ o'.word0 = a := by
  have hk : o.key = k := by simpa using List.find?_some ho
  have e : ∀ f : Request → Request, (∀ q, (f q).key = q.key) → ((s.dropRun k).updReq k f).req? k = some (f o) := by
    intro f hf
    refine (find?_map_key _ k (fun q => if q.key = k then f q else q) fun q => by split <;> simp [hf]).trans ?_
    rw [State.dropRun_fe, show (s.fe.requests.find? fun q => decide (q.key = k)) = some o from ho]
    simp [hk]
  exact ⟨_, e _ fun _ => rfl, rfl, rfl, rfl⟩

/-- A request that ends leaves every other as it was. -/
theorem State.endReq_req?_other {k' : ReqKey} (hne : k' ≠ k) (st stop : Nat) (a b : W64) (le : Nat) :
    (s.endReq k st stop a b le).req? k' = s.req? k' := by
  have e : ∀ f : Request → Request, (∀ q, (f q).key = q.key) → ((s.dropRun k).updReq k f).req? k' = s.req? k' := by
    intro f hf
    refine (find?_map_key _ k' (fun q => if q.key = k then f q else q) fun q => by split <;> simp [hf]).trans ?_
    rw [State.dropRun_fe, show (s.fe.requests.find? fun q => decide (q.key = k')) = s.req? k' from rfl]
    cases ho : s.req? k' with
    | none => rfl
    | some o =>
      have hk : o.key = k' := by simpa using List.find?_some ho
      simp [hk, hne]
  exact e _ fun _ => rfl

end Cancel

/-- Settles O11: the target stands, or it is gone; where it stands and no run is under way, CANCEL ends first it and then
itself. -/
theorem cancelEndsItsTarget : Obligations.CancelEndsItsTarget := by
  refine fun s k r h hown => ⟨?stands, ?ends, ?gone⟩
  case stands =>
    exact fun o _ ho he hf => congrArg Host.Outcome.next (State.cancelReq_stands h.1 rfl hown ho he hf)
  case ends =>
    intro o hne ho he hf ha hp hr
    have e := State.stopReq_of_no_runs hr ho he hf ha hp Status.cancelled
    obtain ⟨o', ho', hst, hstatus, -⟩ := State.endReq_req?_same
      (s := s.withdraw ⟨BitVec.ofNat 64 (r.fld 56 8), 0⟩) ho Status.cancelled
      (if Status.cancelled = Status.cancelled && State.turnBased o.op then Stop.cancel else Stop.none)
      (BitVec.ofNat 64 o.turns) 0 0xFFFF
    rw [← e] at ho'
    have hk : (s.stopReq ⟨BitVec.ofNat 64 (r.fld 56 8), 0⟩ Status.cancelled none).req? k = some r := by
      have hs := State.ready?_req? h.1
      rw [e]; exact (State.endReq_req?_other hne _ _ _ _ _).trans hs
    obtain ⟨r', hr', hst', hstatus', hw'⟩ := State.endReq_req?_same hk Status.ok Stop.none 1 0 0xFFFF
    exact ⟨_, o', r', congrArg Host.Outcome.next (State.cancelReq_stands h.1 rfl hown ho he hf),
      (State.endReq_req?_other (Ne.symm hne) _ _ _ _ _).trans ho', hst, hstatus, hr', hst', hstatus', hw'⟩
  case gone =>
    exact fun ho hc q hq => congrArg Host.Outcome.next
      ((State.cancelReq_gone h.1 rfl hown ho hc hq).trans (State.okReq_ended h.2 _ 0))


end Sys2Proof.Machine
end

section
/-! Flips and turn boundaries (03 R42, R56-R62; 04 Table 4.2): what a clean flip and a boundary lead to, case by case of their
definitions. -/

namespace Sys2Proof.Machine

section Flips

variable {s : State} {u : Run} {n : Net} {b : RBlock} {le rblk : Nat}

/-- A clean flip applies the column that the last one left and evaluates the block (log entry 15). -/
theorem State.flip_clean {b0 : RBlock} (h : s.flipping le rblk = some (u, n, b0)) (hc : n.applyCol b0 = .ok b) :
    s.flip le rblk .clean = s.evaluate u n b .clean := by
  simp only [State.flip, h, hc, State.afterUpdate]

/-- R61: where every weight is 0 the block is frozen for this turn and counts it. -/
theorem State.evaluate_frozen (hw : totalWeight ((n.block b.block).weights n.heatbath
      (u.betas.getD (u.rungOf.getD b.replica b.replica) 0) b.state b.fields) = 0) (ho : u.observes b.replica = false) :
    s.evaluate u n b .clean = (s.updNet u.model fun x => x.updRBlock b.le b.rblk fun _ =>
      { b with
        frozen := true, frozenTurns := b.frozenTurns + 1
        dwell := dwellOf ((n.block b.block).weights n.heatbath (u.betas.getD (u.rungOf.getD b.replica b.replica) 0)
          b.state b.fields).length 0 }).presentTurnEnds u.key := by
  unfold State.evaluate
  simp only [if_pos hw, ho, Bool.false_eq_true, if_false, reduceCtorEq]

/-- R56-R62: else the draw selects a variable and a new state; a variable that no hem coupling names sends no word. -/
theorem State.evaluate_selects {ws : List (Nat × Nat × Nat)} {j new : Nat}
    (hws : ws = (n.block b.block).weights n.heatbath (u.betas.getD (u.rungOf.getD b.replica b.replica) 0) b.state b.fields)
    (hw : totalWeight ws ≠ 0) (hsel : selectAt ws (drawOffset (drawAt b.key b.draw) (totalWeight ws)) = some (j, new))
    (ho : u.observes b.replica = false) (hsum : Net.sumsFit n.sums = true)
    (hfit : fits64 (b.dE + (n.block b.block).deltaE b.state b.fields j new) = true)
    (hhem : ∀ x ∈ n.blocks, ∀ d ∈ x.spdir, ¬(d.blk = b.block ∧ d.var = j)) :
    s.evaluate u n b .clean =
      ((((s.updNet u.model fun x => x.updRBlock b.le b.rblk fun _ =>
          { b with
            state := b.state.set j new, dE := b.dE + (n.block b.block).deltaE b.state b.fields j new
            flips := b.flips + 1, audit := b.audit + 1, draw := b.draw + 1, dwell := dwellOf ws.length (totalWeight ws)
            col := some (j, b.state.getD j 0, new) }).updNet u.model fun x => { x with sums := n.sums }).bump
        (.sweep b.le b.su) ((s.model? u.model).map fun m => State.idOf m.tag)
        (issueInterval (n.block b.block).fmt (n.block b.block).n (n.block b.block).q (n.block b.block).spin)).presentTurnEnds
          u.key) := by
  subst hws
  have hno : (n.blocks.any fun x => x.spdir.any fun d => decide (d.blk = b.block) && decide (d.var = j)) = false := by
    simpa using hhem
  unfold State.evaluate
  simp only [if_neg hw, hsel, ho, hsum, hfit, hno, Bool.false_eq_true, Bool.true_eq_false, or_self, if_false,
    reduceCtorEq]

end Flips

/-- Settles O13: the block that a clean flip evaluates freezes or selects. -/
theorem flipSelectsOrFreezes : Obligations.FlipSelectsOrFreezes := by
  refine fun s le rblk u n b0 b h hc => ⟨?freezes, ?selects⟩
  case freezes =>
    exact fun hw ho => congrArg Host.Outcome.next ((State.flip_clean h hc).trans (State.evaluate_frozen hw ho))
  case selects =>
    exact fun ws j new hws hw hsel ho hsum hfit hhem => congrArg Host.Outcome.next
      ((State.flip_clean h hc).trans (State.evaluate_selects hws hw hsel ho hsum hfit hhem))

section Boundary

variable {s s' t : State} {k : ReqKey} {u : Run} {m : Model} {n n' : Net} {find : BoundaryFind} {part : List Int} {moved : Bool}

/-- A boundary that can be taken, with no fault found, gives the energies of this part to its place: the ladder engine, node 0
of the job, or the barrier at node 0 (04 Table 4.2; 14 R393). -/
theorem State.turnBoundary_closes (hu : s.run? k = some u) (hm : s.model? u.model = some m) (hn : s.net? u.model = some n)
    (hr : s.boundaryReady u m n = true) (hs : s' = s.applyCuffs u.model u.turn) (hn' : s'.net? u.model = some n')
    (hf : s'.boundaryFault u n' m find = none)
    (hp : (s'.boundaryCount u n' m find).boundaryPart u n' (State.redone u n' find) = .ok (t, part, moved)) :
    s.turnBoundary k find =
      if (m.job ≠ 0 ∧ s'.partNodes m.job ≠ []) ∧ (s'.req? k).isNone then
        (t.updRun k fun v => { v with barrier := true }).sendPeer 0x15 0 m.job (Tbl.getD s'.pr.jobGens m.job 1)
          ([u.turn, if moved then 1 else 0] ++ part.map (ofSigned 64)) []
      else if m.job ≠ 0 ∧ s'.partNodes m.job ≠ [] then
        (t.updRun k fun v =>
          { v with barrier := true, partials := v.partials ++ [(s'.pr.nodeid, part, moved)] }).ladderReady k
      else t.ladder k (State.turnEnergies n' u [part]) (u.turn + 1) false moved := by
  subst hs
  simp only [State.turnBoundary, hu, hm, hn, hr, Bool.true_eq_false, if_false, hn', Option.getD_some, hf, hp]
  rfl

end Boundary

/-- Settles O14: the place of the energies is said by the job of the model and by whether this node holds its request. -/
theorem turnBoundaryClosesTurn : Obligations.TurnBoundaryClosesTurn := by
  intro s k u m n n' find s' t part moved hu hm hn hr hs hn' hf hp
  have e := State.turnBoundary_closes hu hm hn hr hs hn' hf hp
  have done : ∀ v, s.turnBoundary k find = v → exec (.turnBoundary k find) s = .next v.settleRet :=
    fun v hv => congrArg (fun x : State => Host.Outcome.next x.settleRet) hv
  refine ⟨fun hj => done _ ?here, fun hj hw hq => done _ ?worker, fun hj hw r hq => done _ ?node0⟩
  case here =>
    have hno : ¬(m.job ≠ 0 ∧ s'.partNodes m.job ≠ []) := fun ⟨h0, hl⟩ => hj.elim h0 hl
    rw [e, if_neg fun h => hno h.1, if_neg hno]
  case worker => rw [e, if_pos ⟨⟨hj, hw⟩, by rw [hq]; rfl⟩]
  case node0 => rw [e, if_neg (by simp [hq]), if_pos ⟨hj, hw⟩]

end Sys2Proof.Machine
end

section
/-! APPEND and RETRIEVE (05 R136-R150): what they do once their request is ready, each from the case its definition takes, and
the write of an entry that waits for its slot. -/

namespace Sys2Proof.Machine

section Append

variable {s : State} {k : ReqKey} {r : Request} {i : Nat} {m : Model} {h : Store} {find : SourceFind}

/-- An APPEND of no packed entries ends at once. -/
theorem State.dispatchAppend_empty (hq : s.ready? k Op.append = some r) (hs : s.storeFor r = .ok (i, m, h))
    (hraw : bitAt (r.fld 80 1) 0 = false) (hn : r.fld 72 8 = 0) (hrun : s.run? k = none) :
    s.dispatchAppend k find = ended s k Status.ok (BitVec.ofNat 64 h.n) 0 := by
  simp only [State.dispatchAppend, hq, hs, hraw, Bool.false_and, Bool.false_eq_true, if_false, hn, if_true]
  exact State.okReq_ended hrun _ 0

/-- The group by which an APPEND converts its samples, where they are raw: none for packed entries. -/
def State.AppendsBy (s : State) (r : Request) (i : Nat) (h : Store) (g : Option Group) (len : Nat) : Prop :=
  bitAt (r.fld 80 1) 0 = false ∧ g = none ∧ len = r.fld 72 8 * h.stride ∨
    ∃ x, bitAt (r.fld 80 1) 0 = true ∧ s.rawGroup i (r.fld 82 2) (if h.fmt = 1 then 2 else 1) = some x ∧ g = some x ∧
      len = r.fld 72 8 * State.rawSample h x

/-- An APPEND that has room, reaches its source and whose engines are ready goes by what it meets at its source. -/
theorem State.dispatchAppend_ready (hq : s.ready? k Op.append = some r) (hs : s.storeFor r = .ok (i, m, h))
    (hn : r.fld 72 8 ≠ 0) (hroom : State.appendRoom h (r.fld 72 8) = none) {g : Option Group} {len : Nat}
    (hg : s.AppendsBy r i h g len) (hreach : s.reachOk r (r.fld 64 8) len true = .ok ())
    (hup : s.transferUp (r.fld 64 8) = true) (he : s.enginesReady m.mask = true) {t : State} {met : State.Met}
    (hmet : s.sourceMet r [(r.fld 64 8, len)] find = (t, met)) :
    (met ≠ .clean → s.dispatchAppend k find =
      (((t.startOn m.mask).takePositions k i h (r.fld 72 8) []).fillRest k false).failMet k met) ∧
    (met = .clean → State.sourceBad h g (s.readSpace r (r.fld 64 8) len) (r.fld 72 8) = none → s.vectorUnrouted m g = none →
      s.dispatchAppend k find = (t.startOn m.mask).startAppend k i h g (s.readSpace r (r.fld 64 8) len) (r.fld 72 8)) := by
  obtain ⟨hraw, rfl, rfl⟩ | ⟨x, hraw, hx, rfl, rfl⟩ := hg
  · simp only [State.dispatchAppend, hq, hs, hraw, Bool.false_and, Bool.false_eq_true, if_false, if_neg hn, hroom, hreach, hup,
      he, Bool.not_true, Bool.or_self, hmet]
    refine ⟨fun hc => ?_, fun hc hb hr => ?_⟩
    · cases met
      case clean => exact absurd rfl hc
      all_goals rfl
    · simp only [hc, hb, hr]
  · simp only [State.dispatchAppend, hq, hs, hraw, hx, Bool.true_and, Option.isNone_some, Bool.false_eq_true, if_false, if_true,
      if_neg hn, hroom, hreach, hup, he, Bool.not_true, Bool.or_self, hmet]
    refine ⟨fun hc => ?_, fun hc hb hr => ?_⟩
    · cases met
      case clean => exact absurd rfl hc
      all_goals rfl
    · simp only [hc, hb, hr]

end Append

section Waiting

variable {s t : State} {who : Appender} {i : Nat} {w : WaitingEntry}

/-- The first entry that an appender has waiting, and its store. -/
def State.waitingOf (s : State) (who : Appender) : Option (Nat × WaitingEntry) :=
  s.models.findSome? fun p => match p.2.body with
    | .store h => (h.waiting.find? fun w => decide (w.who = who)).map fun w => (p.1, w)
    | .net _ => none

/-- The write of a waiting entry goes by the entry that the appender has waiting. -/
theorem State.ringAppendWrite_eq (s : State) (who : Appender) :
    s.ringAppendWrite who = match s.waitingOf who with
      | none => s
      | some (i, w) =>
        let t := s.updStore i fun h => { h with waiting := h.waiting.filter fun v => decide (v.position ≠ w.position) }
        if t.slotFree i w.position && s.enginesReady (((s.model? i).map (·.mask)).getD 0) then
          let u := t.putEntry i w.position w.elems
          match who with
          | .request k => u.appendDone k
          | .stream _ => u
        else s := by
  cases who <;> rfl

/-- R139: the write of a waiting entry once its slot is free and its engines work. -/
theorem State.ringAppendWrite_waiting (hw : s.waitingOf who = some (i, w))
    (ht : t = s.updStore i fun h => { h with waiting := h.waiting.filter fun v => decide (v.position ≠ w.position) })
    (hfree : t.slotFree i w.position = true) (he : ∀ m, s.model? i = some m → s.enginesReady m.mask = true) :
    (∀ k, who = .request k → s.ringAppendWrite who = (t.putEntry i w.position w.elems).appendDone k) ∧
    (∀ n, who = .stream n → s.ringAppendWrite who = t.putEntry i w.position w.elems) := by
  have hready : s.enginesReady (((s.model? i).map (·.mask)).getD 0) = true := by
    cases hm : s.model? i with
    | none => exact State.enginesReady_zero s
    | some m => exact he m hm
  subst ht
  constructor <;> rintro _ rfl <;> simp only [State.ringAppendWrite_eq, hw, hfree, hready, Bool.and_self, if_true]

end Waiting

/-- Settles O16: an APPEND is empty, or it meets something at its source, or it takes its positions; and a waiting entry is
written. -/
theorem appendTakesPositions : Obligations.AppendTakesPositions := by
  refine ⟨fun s k r i m h find hq hs => ⟨?empty, ?ready⟩, ?waiting⟩
  case empty =>
    exact fun hraw hn hrun => congrArg Host.Outcome.next (State.dispatchAppend_empty hq hs hraw hn hrun)
  case ready =>
    intro g len hn hroom hg hreach hup he t met hmet
    obtain ⟨hbad, hclean⟩ := State.dispatchAppend_ready hq hs hn hroom hg hreach hup he hmet
    refine ⟨fun hc => congrArg Host.Outcome.next (hbad hc), fun hc bs hbs hb hr => ?_⟩
    subst hbs
    refine ⟨fun hnone => ?_, fun x hx => ?_⟩
    · subst hnone; exact congrArg Host.Outcome.next (hclean hc hb hr)
    · subst hx; exact congrArg Host.Outcome.next (hclean hc hb hr)
  case waiting =>
    intro s who i w t hw ht hfree he
    obtain ⟨hreq, hstream⟩ := State.ringAppendWrite_waiting hw ht hfree he
    exact ⟨fun k hk => congrArg Host.Outcome.next (hreq k hk), fun n hn => congrArg Host.Outcome.next (hstream n hn)⟩

section Retrieve

variable {s t u : State} {k : ReqKey} {r : Request} {i lo hi : Nat} {m : Model} {h : Store} {find : RetrieveFind}

/-- A RETRIEVE whose queries are packed, with room for its output, goes by what it meets at its source. -/
theorem State.retrieve_ready (hq : s.ready? k Op.retrieve = some r) (hs : s.storeFor r = .ok (i, m, h))
    (hraw : bitAt (r.fld 104 1) 2 = false)
    (hreach : s.reachOk r (r.fld 64 8) (r.fld 100 2 * roundUp h.width 64) true = .ok ())
    (hout : s.outputOk r 72 (State.retrieveBytes h (r.fld 100 2) (r.fld 102 2) (bitAt (r.fld 104 1) 1)) = none)
    (hup : s.transferUp (r.fld 64 8) = true) (he : s.enginesReady m.mask = true) {source : SourceFind} {met : State.Met}
    (hmet : s.sourceMet r [(r.fld 64 8, r.fld 100 2 * roundUp h.width 64)] source = (t, met)) :
    (met ≠ .clean → s.retrieve k source find = t.failMet k met) ∧
    (met = .clean → s.retrieve k source find =
      t.openRetrieve k r i m h none (r.fld 100 2 * roundUp h.width 64) find) := by
  simp only [State.retrieve, hq, State.startRetrieve, hs, hraw, Bool.false_and, Bool.false_eq_true, if_false, hreach, hout,
    hup, he, Bool.not_true, Bool.or_self, hmet]
  refine ⟨fun hc => ?_, fun hc => ?_⟩
  · cases met
    case clean => exact absurd rfl hc
    all_goals rfl
  · simp only [hc]

/-- Packed queries that the checks accept are searched in what the store still holds of the positions asked for. -/
theorem State.openRetrieve_packed {len : Nat} {qs : List (List Int)}
    (hr : s.unrouted m.mask (((State.enginesOf m.mask).head?).getD 0) = none)
    (hp : State.parseQueries h (r.fld 100 2) (s.readSpace r (r.fld 64 8) len) = .ok qs)
    (hlo : lo = max (r.fld 80 8) h.lowest) (hhi : hi = max lo (min (r.fld 88 8) h.visible)) :
    s.openRetrieve k r i m h none len find =
      ((s.startOn m.mask).updReq k fun q => { q with state := .dispatched, hold := none, reads := some (i, lo, hi) }).runRetrieve
        k i m h lo hi qs find := by
  subst hhi hlo
  simp only [State.openRetrieve, hr, State.vectorUnrouted, Option.bind_none, hp]

/-- What the search of a range finds for each query (R141-R147). -/
def State.foundIn (h : Store) (r : Request) (lo hi : Nat) (qs : List (List Int)) : List Found :=
  qs.map fun q => State.search ((List.range (hi - lo)).map fun j => (lo + j, h.entry (lo + j))) q
    (r.fld 102 2) (r.fld 96 4) (bitAt (r.fld 104 1) 0)

/-- Table 5.4: the header of the records over a range. -/
def State.retrieveHead (r : Request) (lo hi : Nat) (qs : List (List Int)) (fs : List Found) : Bytes :=
  leBytes 8 lo ++ leBytes 8 hi ++ leBytes 4 qs.length ++ leBytes 4 (r.fld 102 2) ++
    leBytes 4 (if bitAt (r.fld 104 1) 0 then 2 else 1) ++
    leBytes 2 ((if fs.any (·.sat) then 1 else 0) + 2 * (if hi ≤ lo then 1 else 0)) ++ List.replicate 34 0

/-- A search that meets nothing, or that has no position to read (R148), counts its pass and writes its records. -/
theorem State.runRetrieve_writes (hreq : s.req? k = some r) (hle : lo ≤ hi) {qs : List (List Int)}
    (hd : s.rangeDamage m h lo hi = none) (hb : s.rangeBurst i m h lo hi = none) (hf : find = .clean ∨ hi = lo)
    (hu : u = (m.dense.filter fun _ => decide (lo < hi)).foldl
      (fun t a => t.bump (.sweep a.le a.su) (some (State.idOf m.tag)) 1) s)
    {fs : List Found} (hfs : fs = State.foundIn h r lo hi qs) :
    s.runRetrieve k i m h lo hi qs find =
      ((u.writeSpace r (r.fld 72 8) (State.retrieveHead r lo hi qs fs ++
        (fs.map fun f => State.foundRecord h f (r.fld 102 2) (bitAt (r.fld 104 1) 1)).flatten)).okReq k
        (BitVec.ofNat 64 (hi - lo)) 0) := by
  have hempty : ((List.range (hi - lo)).map fun j => (lo + j, h.entry (lo + j))).isEmpty = decide (hi ≤ lo) := by
    rw [Bool.eq_iff_iff, List.isEmpty_iff, List.map_eq_nil_iff, List.range_eq_nil, decide_eq_true_iff]
    omega
  have hbit : ∀ b : Bool, b2n b = if b = true then 1 else 0 := fun b => by cases b <;> rfl
  subst hu hfs
  unfold State.runRetrieve
  simp only [hreq, hd, hb, hempty, hbit, decide_eq_true_eq]
  obtain rfl | rfl := hf
  · exact ite_self _
  · exact if_pos rfl

end Retrieve

/-- Settles O17: queries that read clean are searched, and the request as it is then finds its records. -/
theorem retrieveWritesRecords : Obligations.RetrieveWritesRecords := by
  intro s s' k r i m h qs t u lo hi source find hq hs hraw hreach hout hup he
  refine ⟨fun met hmet hc => ?bad, ?clean⟩
  case bad => exact congrArg Host.Outcome.next ((State.retrieve_ready hq hs hraw hreach hout hup he hmet).1 hc)
  case clean =>
    intro hmet hr hp hlo hhi ht hreq hd hb hf hu fs hfs
    refine congrArg Host.Outcome.next (((State.retrieve_ready hq hs hraw hreach hout hup he hmet).2 rfl).trans ?_)
    rw [State.openRetrieve_packed hr hp hlo hhi, ← ht]
    exact State.runRetrieve_writes hreq (hhi ▸ Nat.le_max_left _ _) hd hb hf hu hfs

end Sys2Proof.Machine
end

section
/-! Loads, updates and unloads of models (04 R124; 08 R214-R216, R228, R229; 10 R288, R289): what each leads to once its request
is ready, and what an accepted image takes of the model table. -/

namespace Sys2Proof.Machine

section Load

variable {s t u : State} {k : ReqKey} {r : Request} {d : Bytes}

/-- A MODEL_LOAD that reaches its image, which no half keeps waiting, goes by what it meets there. -/
theorem State.modelLoad_ready (hq : s.ready? k Op.modelLoad = some r) (hk : r.kernel = false)
    (hr : s.reachOk r (r.fld 56 8) (r.fld 64 8) true = .ok ()) (hj : s.jobRefusal r = none)
    (hup : s.transferUp (r.fld 56 8) = true) (hd : d = s.readSpace r (r.fld 56 8) (r.fld 64 8))
    (hw : Img.node d = 0 → s.loadWaits (Img.mask d) = false) {find : SourceFind} {met : State.Met}
    (hmet : s.sourceMet r [(r.fld 56 8, r.fld 64 8)] find = (u, met)) :
    (met ≠ .clean → s.modelLoad k find = u.failMet k met) ∧ (met = .clean → s.modelLoad k find = u.openLoad k r d) := by
  have hno : ∀ b : Bool, (b && decide (Img.node d = 0) && s.loadWaits (Img.mask d)) = false := fun b => by
    by_cases h0 : Img.node d = 0 <;> simp [h0, hw]
  subst hd
  simp only [State.modelLoad, hq, hk, Bool.false_eq_true, if_false, hr, hj, hup, Bool.true_eq_false, hno, hmet]
  refine ⟨fun hc => ?_, fun hc => ?_⟩
  · cases met
    case clean => exact absurd rfl hc
    all_goals rfl
  · simp only [hc]

variable (ho : Img.order1 d (r.fld 64 8) (r.fld 72 4) = none)

include ho

/-- R216: an image that the load sequence accepts gives its handle and its length. -/
theorem State.openLoad_plain (hj : r.fld 72 4 = 0) {i : Nat} {m : Model}
    (hl : u.loadImage d (u.loadFor r r.tag d true none none) = (t, .ok i)) (hm : t.model? i = some m) :
    u.openLoad k r d = t.okReq k (State.handleOf i m) (BitVec.ofNat 64 d.length) := by
  unfold State.openLoad
  simp only [ho, if_pos hj, State.loadPlain, hl, hm]

/-- 14 R391: the part of node 0 is loaded here. -/
theorem State.openLoad_here (hj : r.fld 72 4 ≠ 0) (hn : Img.node d = 0) :
    u.openLoad k r d = (u.loadPartHere k r d).dropEmptyJob (r.fld 72 2) := by
  unfold State.openLoad
  simp only [ho, if_neg hj, if_pos hn]

/-- 14 R391: a part of another node that nothing refuses is sent there. -/
theorem State.openLoad_sends (hj : r.fld 72 4 ≠ 0) (hn : Img.node d ≠ 0) (hp : u.partRefusal r d (r.fld 72 2) = none)
    (ht : t = u.putJob (r.fld 72 2) { u.jobFor (r.fld 72 2) r.tag d with
      sent := (u.jobFor (r.fld 72 2) r.tag d).sent ++ [(Img.node d, State.commonOf d)] }) :
    u.openLoad k r d = State.dropEmptyJob (((t.holdReq k (some .peer)).updReq k fun q =>
      { q with reads := some (r.fld 72 2, Img.node d, Img.blocks d) }).sendPeer 0x10 (Img.node d) (r.fld 72 2)
        (u.jobGen (r.fld 72 2)) [] d) (r.fld 72 2) := by
  subst ht
  unfold State.openLoad
  simp only [ho, if_neg hj, if_neg hn, State.sendPart, hp]

end Load

/-- 08 R214: the model of an image, as it enters its entry. -/
theorem State.newModel_entry (s : State) (d : Bytes) (w : State.LoadFor) (i : Nat) (key : Option Nat) :
    (s.newModel d w i key).gen = State.nextModelGen (Tbl.getD s.mgens i 0) ∧ (s.newModel d w i key).tag = w.owner ∧
      (s.newModel d w i key).loading = true := ⟨rfl, rfl, rfl⟩

/-- 08 R214: what an image takes of the model table where it is installed. -/
theorem State.install_takes (s : State) (d : Bytes) (w : State.LoadFor) (i : Nat) :
    Tbl.getD (s.install d w i).mgens i 0 = State.nextModelGen (Tbl.getD s.mgens i 0) ∧
    ∃ m, (s.install d w i).model? i = some m ∧ m.gen = State.nextModelGen (Tbl.getD s.mgens i 0) ∧ m.tag = w.owner ∧
      m.loading = true := by
  obtain ⟨hg, ht, hl⟩ := State.newModel_entry (s.makeRoom d) d w i (if Img.enc d then some (keyIndex d 64) else none)
  rw [State.makeRoom_mgens] at hg
  unfold State.install State.model? Tbl.getD
  rw [(State.rewriteModel_frame _ _).1, (State.rewriteModel_frame _ _).2, (State.bindLinks_mgens _ _ _ _).1,
    (State.bindLinks_mgens _ _ _ _).2]
  dsimp only
  rw [Tbl.get?_put, Tbl.get?_put]
  exact ⟨hg, _, rfl, hg, ht, hl⟩

/-- 08 R214: an accepted image takes the lowest free entry, and is installed as it reads once it is decrypted. -/
theorem State.loadImage_ok {s t : State} {d : Bytes} {w : State.LoadFor} {i : Nat} (h : s.loadImage d w = (t, .ok i)) :
    Tbl.get? s.models i = none ∧ i < 4096 ∧ ∃ img, t = s.install img w i := by
  unfold State.loadImage at h
  split at h
  · cases h
  · split at h
    · cases h
    · next j hj =>
      split at h
      · cases h
      · cases h
        obtain ⟨hfree, hlt⟩ := Tbl.lowestFree_spec _ _ _ _ hj
        exact ⟨hfree, by omega, _, rfl⟩

/-- Settles O18: the load goes by what it meets and by whose part the image is, and an accepted image is installed. -/
theorem modelLoadTakesEntry : Obligations.ModelLoadTakesEntry := by
  refine ⟨fun s u k r d find met hq hk hr hj hup hd hw ho hmet => ?loads, fun s t d w i h => ?takes⟩
  case loads =>
    obtain ⟨hbad, hclean⟩ := State.modelLoad_ready hq hk hr hj hup hd hw hmet
    refine ⟨fun hc => congrArg Host.Outcome.next (hbad hc), fun hc => ⟨?plain, ?here, ?sends⟩⟩
    case plain =>
      exact fun t i m h0 hl hm => congrArg Host.Outcome.next ((hclean hc).trans (State.openLoad_plain ho h0 hl hm))
    case here => exact fun h0 hn => congrArg Host.Outcome.next ((hclean hc).trans (State.openLoad_here ho h0 hn))
    case sends =>
      intro h0 hn hp j t hjob ht
      subst hjob
      exact congrArg Host.Outcome.next ((hclean hc).trans (State.openLoad_sends ho h0 hn hp ht))
  case takes =>
    obtain ⟨hfree, hlt, img, rfl⟩ := State.loadImage_ok h
    obtain ⟨hgen, m, hm, hmg, htag, hload⟩ := State.install_takes s img w i
    exact ⟨hfree, hlt, hgen, m, hm, hmg.trans hgen.symm, htag, hload⟩

section Update

variable {s t : State} {k : ReqKey} {r : Request} {i : Nat} {m : Model} {n : Net}

/-- A MODEL_UPDATE_ROWS that reaches its data, with its engines ready, goes by what it meets there. -/
theorem State.updateRows_ready (hq : s.ready? k Op.modelUpdateRows = some r) (hk : r.kernel = false)
    (hh : s.handle? r (r.fld 56 8) = some i) (hm : s.model? i = some m) (hn : s.net? i = some n)
    (hr : s.reachOk r (r.fld 64 8) (r.fld 72 8) true = .ok ()) (hup : r.fld 72 8 = 0 ∨ s.transferUp (r.fld 64 8) = true)
    (he : s.enginesReady m.mask = true) {find : SourceFind} {met : State.Met}
    (hmet : s.sourceMet r [(r.fld 64 8, r.fld 72 8)] find = (t, met)) :
    (met ≠ .clean → s.updateRows k find = t.failMet k met) ∧ (met = .clean → s.updateRows k find = t.openRows k r i m n) := by
  have hno : (r.fld 72 8 ≠ 0 && !s.transferUp (r.fld 64 8)) = false := by
    rcases hup with h | h <;> simp [h]
  simp only [State.updateRows, hq, hk, Bool.false_eq_true, if_false, hh, hm, hn, hr, hno, he, Bool.not_true, Bool.or_self, hmet]
  refine ⟨fun hc => ?_, fun hc => ?_⟩
  · cases met
    case clean => exact absurd rfl hc
    all_goals rfl
  · simp only [hc]

/-- R289: data that the checks accept queues its scales and places its update. -/
theorem State.openRows_accepted {d : Bytes} {u : UpdData}
    (hd : s.openUpdate m (bitAt (r.fld 96 1) 0) (s.readSpace r (r.fld 64 8) (r.fld 72 8)) = .ok d)
    (hu : u = s.readUpdate r i n d (if bitAt (r.fld 96 1) 0 then 64 else 0)) (hb : State.updateBad n u (r.fld 72 8) = none)
    (hs : s.queueScales i u.groups = .ok t) :
    s.openRows k r i m n = (t.startOn m.mask).placeUpdate k i
      { req := some k, stream := none, rows := u.rows.map fun x => (x.1, x.2.1, x.2.2.2), biases := u.biases
        scales := u.scales, release := false } := by
  subst hu
  simp only [State.openRows, hd, hb, hs]

end Update

/-- Settles O19: data read bad fails the update, and data read clean places it now or at the next boundary. -/
theorem updateRowsPlaced : Obligations.UpdateRowsPlaced := by
  intro s s' k r i m n d t find met hq hk hh hm hn hr hup he hmet
  obtain ⟨hbad, hclean⟩ := State.updateRows_ready hq hk hh hm hn hr hup he hmet
  exact ⟨fun hc => congrArg Host.Outcome.next (hbad hc), fun hc hd u hu hb hs =>
    congrArg Host.Outcome.next ((hclean hc).trans (State.openRows_accepted hd hu hb hs))⟩

section Unload

variable {s t : State} {k : ReqKey} {r : Request} {m : Model} {i : Nat}

/-- R228: MODEL_UNLOAD of a model that its context has loaded, by whether the module has already unloaded it. -/
theorem State.modelUnload_own (hq : s.ready? k Op.modelUnload = some r) (hk : r.kernel = false) (hi : i = r.fld 56 8 % 4096)
    (hm : s.model? i = some m) (hh : (State.handleOf i m).toNat = r.fld 56 8) (ht : m.tag = r.tag) (hl : m.loading = false)
    (hu : m.unloading = none) :
    s.modelUnload k = if m.gone then
        ((s.holdReq k (some .unload)).updModel i fun m => { m with unloading := some [k] }).finishUnload i
      else (s.holdReq k (some .unload)).beginUnload i [k] (bitAt (r.fld 64 1) 0) := by
  subst hi
  simp only [State.modelUnload, hq, hk, Bool.false_eq_true, if_false, hm]
  exact if_pos ⟨hh, ht, hl, hu⟩

/-- What an update of a model leaves in its entry. -/
theorem State.model?_updModel (s : State) (i : Nat) (f : Model → Model) :
    (s.updModel i f).model? i = (s.model? i).map f := Tbl.get?_upd s.models i f

/-- R229: a model of no job whose users are gone and whose links have drained leaves its entry. -/
theorem State.finishUnload_idle (hm : t.model? i = some m) (hu : m.unloading = some [k]) (hj : m.job = 0)
    (hi : t.modelIdle i = true) (he : t.entriesOf i = []) :
    t.finishUnload i =
      (State.pruneProgress { t.releaseData i with models := Tbl.erase (t.releaseData i).models i }).okReq k 0 0 := by
  simp [State.finishUnload, hm, hu, hj, hi, he]

end Unload

/-- Settles O20: the model is still loaded, or the module has already unloaded it. -/
theorem modelUnloadBegins : Obligations.ModelUnloadBegins := by
  intro s k r m i hq hk hi hm hh ht hl hu
  have e := State.modelUnload_own hq hk hi hm hh ht hl hu
  refine ⟨fun hg => ?loaded, fun t hg ht => ?gone⟩
  case loaded => exact congrArg Host.Outcome.next (e.trans (if_neg (by simp [hg])))
  case gone =>
    subst ht
    have hgone := e.trans (if_pos hg)
    refine ⟨congrArg Host.Outcome.next hgone, fun hj hidle hent => congrArg Host.Outcome.next (hgone.trans ?_)⟩
    have hm' := (State.model?_updModel (s.holdReq k (some .unload)) i fun m => { m with unloading := some [k] }).trans
      (congrArg (Option.map _) hm)
    exact State.finishUnload_idle hm' rfl hj hidle hent

end Sys2Proof.Machine
end

section
/-! Contexts (10 R296, R297; 11 R304, R312, R313): the requests that make, grant, reset and destroy them, the end of a reset, and
what the revival of a context leaves of it. -/

namespace Sys2Proof.Machine

section Commands

variable {s : State} {k : ReqKey} {r : Request} {i : Nat}

/-- R296: the lowest free context is taken. -/
theorem State.ctxCreate_lowest (h : Starts s k Op.ctxCreate r) (h1 : 1 ≤ i) (h255 : i ≤ 255) (hfree : (s.ctx i).state = .free)
    (hlow : ∀ j, 1 ≤ j → j < i → (s.ctx j).state ≠ .free) {t : State}
    (ht : t = s.updCtx i fun c =>
      { c with state := .live, grant := Grant.empty, hung := false, fenced := false, isolated := [] }) :
    s.ctxCreate k = ended t k Status.ok (BitVec.ofNat 64 (t.tagOf i).toNat) 0 := by
  have hfind : ((List.range 255).map (· + 1)).find? (fun i => (s.ctx i).state == .free) = some i :=
    range_find 255 i h1 h255 (by simp [hfree]) fun j hj hji => by simp [hlow j hj hji]
  subst ht
  simp only [State.ctxCreate, h.1, hfind]
  exact State.okReq_ended ((State.run?_congr (State.updCtx_runs_eq _ _ _) k).trans h.2) _ 0

/-- R297: a grant that holds what the context holds, of engines that stand and with their chain memory free, is taken. -/
theorem State.ctxGrant_takes (h : Starts s k Op.ctxGrant r) {tag : BitVec 24} {g : Grant} (htag : tag = State.payloadTag r)
    (hg : g = State.payloadGrant r) (hl : s.tagLive tag = true)
    (hm : ∀ le, le < 32 → bitAt g.mask le = true → s.isLost le = false) (hb : s.grantBelow tag g = [])
    (hc : s.chainShort tag g = []) :
    s.ctxGrant k = ended
      (s.updCtx (State.idOf tag) fun c => { c with grant := g, chain := State.trimChain g c.chain }) k Status.ok 0 0 := by
  subst htag hg
  have hfind : (List.range 32).find? (fun le => bitAt (State.payloadGrant r).mask le && s.isLost le) = none := by
    rw [List.find?_eq_none]
    intro le hle
    cases hbit : bitAt (State.payloadGrant r).mask le with
    | false => simp
    | true => simp [hm le (List.mem_range.1 hle) hbit]
  simp only [State.ctxGrant, h.1, hl, Bool.true_eq_false, if_false, hfind, hb, hc]
  exact State.okReq_ended ((State.run?_congr (State.updCtx_runs_eq _ _ _) k).trans h.2) 0 0

/-- R296, Table 11.6: a request for a live context, or for one whose reset it joins, is held for the reset. -/
theorem State.resetFor_takes {freeing : Bool} (h : s.tagLive (State.payloadTag r) = true ∨
      ∃ x, (s.ctx (State.idOf (State.payloadTag r))).resetting = some x ∧ x.tagBefore = State.payloadTag r) :
    s.resetFor k r freeing =
      (s.holdReq k (some .destroy)).resetContext (State.idOf (State.payloadTag r)) (some k) freeing := by
  refine if_pos ?_
  obtain hl | ⟨x, hx, ht⟩ := h
  · rw [hl]; rfl
  · simp [hx, ht]

end Commands

/-- Settles O21: each command takes the lemma of its operation; a second reset joins the one under way. -/
theorem contextCommandsComplete : Obligations.ContextCommandsComplete := by
  refine ⟨fun s k r => ⟨?create, ?grant⟩, fun s k r h => ⟨?reset, ?destroy⟩⟩
  case create =>
    exact fun hs i h1 h255 hfree hlow t ht =>
      congrArg Host.Outcome.next (State.ctxCreate_lowest hs h1 h255 hfree hlow ht)
  case grant =>
    exact fun hs tag g htag hg hl hm hb hc =>
      congrArg Host.Outcome.next (State.ctxGrant_takes hs htag hg hl hm hb hc)
  case reset =>
    intro hq
    refine congrArg Host.Outcome.next ?_
    rw [State.ctxReset, hq]
    exact State.resetFor_takes h
  case destroy =>
    intro hq
    refine congrArg Host.Outcome.next ?_
    rw [State.ctxDestroy, hq]
    exact State.resetFor_takes h

section ResetEnd

variable {s : State} {id : Nat}

/-- R313 orders 8 to 11: the end of a reset of a context that takes part in no job. -/
theorem State.contextResetEnd_ends {x : ResetInfo} (hx : (s.ctx id).resetting = some x) (hr : s.resetReady id x = true)
    (hj : (s.ctx id).job = 0) {t : State}
    (ht : t = (((s.releaseContext id).queuesOf x.tagBefore).foldl State.closeQueue (s.releaseContext id)).reviveContext id
      x.freeing) :
    s.contextResetEnd id = State.pruneProgress (x.waiters.foldl (fun u k => u.okReq k
      (if (s.req? k).any (fun r => r.op == Op.ctxReset) then BitVec.ofNat 64 (t.tagOf id).toNat else 0) 0) t) := by
  subst ht
  simp only [State.contextResetEnd, hx, hr, Bool.true_eq_false, if_false, hj, if_true]

/-- A context other than the kernel reads as it was written. -/
theorem State.ctx_updCtx (hid : id ≠ 0) (f : Ctx → Ctx) : (s.updCtx id f).ctx id = f (s.ctx id) := by
  simp only [State.updCtx, if_neg hid, State.ctx, Tbl.getD, Tbl.get?_put, Option.getD_some]

/-- The ticks of progress have no part in a context. -/
theorem State.ctx_withProgress (s : State) (id : Nat) (l : List Progress) :
    State.ctx { s with cx := { s.cx with progress := l } } id = s.ctx id := rfl

end ResetEnd

/-- Settles O22: a revived context is what its update leaves. -/
theorem contextResetEnds : Obligations.ContextResetEnds := by
  refine ⟨fun s id x hx hr hj t ht => congrArg Host.Outcome.next (State.contextResetEnd_ends hx hr hj ht),
    fun s id freeing hid c hc => ?_⟩
  rw [State.reviveContext, State.ctx_withProgress, State.ctx_updCtx hid] at hc
  subst hc
  exact ⟨rfl, rfl, rfl, rfl, rfl, rfl, rfl⟩

end Sys2Proof.Machine
end

section
/-! Queues, doorbells and slots (09 R234-R262; 13 R361, R362): the creation and destruction of a queue, host stores, and what a
slot does. -/

namespace Sys2Proof.Machine

section Create

variable {s u : State} {k : ReqKey} {r : Request} {p : Port} {n : Nat}

/-- R234: QUEUE_CREATE reads its record from host memory and goes by what the checks say of it. -/
theorem State.queueCreate_reads (hq : s.ready? k Op.queueCreate = some r) (ha : addrSpace (r.fld 56 8) = 0)
    (hl : addrLe (r.fld 56 8) = 0) (hup : s.hostUp = true) (hu : u = s.touchHost (s.homeOf r.queue)) :
    (u.checkRecord (Mem.bytes s.host (addrOff (r.fld 56 8)) 64) false = .ok n →
      s.queueCreate k = (u.createQueue (Mem.bytes s.host (addrOff (r.fld 56 8)) 64) n).assignSlots.okReq k (BitVec.ofNat 64 n)
        (BitVec.ofNat 64 (Tbl.getD (u.createQueue (Mem.bytes s.host (addrOff (r.fld 56 8)) 64) n).fe.qgens n 0))) ∧
    (∀ x, u.checkRecord (Mem.bytes s.host (addrOff (r.fld 56 8)) 64) false = .error x → s.queueCreate k = u.refuse k x) := by
  subst hu
  simp only [State.queueCreate, hq, ha, hl, hup, ne_eq, not_true_eq_false, or_self, if_false, Bool.true_eq_false]
  exact ⟨fun h => by simp only [h], fun x h => by simp only [h]⟩

/-- R236: GO creates a kernel queue from the record that FE_KQADDR names, once a host link is up. -/
theorem State.feKqcmdGo_reads (ho : s.regReach p 0x2008 = .open_) (hu : u = s.wakeLink p) (hup : u.hostUp = true) :
    s.feKqcmdGo p = u.kqcmdGo.assignSlots := by
  rw [State.feKqcmdGo, State.onWrite_open hu ho]
  exact if_pos hup

/-- R237: a kernel queue's record goes by what the checks say of it. -/
theorem State.kqcmdGo_cases :
    (u.checkRecord (Mem.bytes u.host (u.fe.kqAddr.toNat * 64) 64) true = .ok n → ∀ t,
      t = u.createQueue (Mem.bytes u.host (u.fe.kqAddr.toNat * 64) 64) n →
      u.kqcmdGo = { t with fe := { t.fe with kqStatus := 0, kqQueue := n, kqGen := Tbl.getD t.fe.qgens n 0 } }) ∧
    (∀ x, u.checkRecord (Mem.bytes u.host (u.fe.kqAddr.toNat * 64) 64) true = .error x →
      u.kqcmdGo = { u with fe := { u.fe with kqStatus := BitVec.ofNat 8 x.status } }) := by
  refine ⟨fun h t ht => ?_, fun x h => ?_⟩
  · subst ht; simp only [State.kqcmdGo, h]
  · simp only [State.kqcmdGo, h]

/-- R238: a creation enters the new queue under the next generation of its number, then writes its state line and reads its
doorbell line. -/
theorem State.createQueue_enters (s : State) (d : Bytes) (n : Nat) : ∃ t : State,
    s.createQueue d n = (t.writeLine n).readDoorbell n ∧
    t.queue? n = some (State.newQueue d (nextQueueGen (Tbl.getD s.fe.qgens n 0))) ∧
    Tbl.getD t.fe.qgens n 0 = nextQueueGen (Tbl.getD s.fe.qgens n 0) ∧ t.host = s.host :=
  ⟨_, rfl, Tbl.get?_put _ _ _, congrArg (Option.getD · 0) (Tbl.get?_put _ _ _), rfl⟩

end Create

/-- Settles O23: GO acts whether or not its port holds Hasp 0, and a refused creation leaves QUEUE and GEN (log entry 30). -/
theorem queueCreateCompletes : Obligations.QueueCreateCompletes := by
  refine ⟨⟨fun s u k r hq ha hl hup hu => ⟨?creates, ?refuses⟩, fun s u p ho hu hup => ⟨?kernelCreates, ?kernelRefuses⟩⟩,
    State.createQueue_enters⟩
  case creates =>
    intro n hok t ht
    subst ht
    exact congrArg Host.Outcome.next ((State.queueCreate_reads hq ha hl hup hu).1 hok)
  case refuses =>
    exact fun x hx => congrArg Host.Outcome.next ((State.queueCreate_reads (n := 0) hq ha hl hup hu).2 x hx)
  case kernelCreates =>
    intro n t hok ht
    refine congrArg Host.Outcome.next ((State.feKqcmdGo_reads ho hu hup).trans ?_)
    rw [(State.kqcmdGo_cases).1 hok t ht]
  case kernelRefuses =>
    intro x hx
    refine congrArg Host.Outcome.next ((State.feKqcmdGo_reads ho hu hup).trans ?_)
    rw [(State.kqcmdGo_cases (n := 0)).2 x hx]

section Destroy

variable {s : State} {k : ReqKey} {r : Request} {q : Queue} {n : Nat}

/-- R258: QUEUE_DESTROY of a queue by its generation takes it down and waits. -/
theorem State.queueDestroy_takes (hq : s.ready? k Op.queueDestroy = some r) (hn : n = r.fld 56 2) (hs : s.queue? n = some q)
    (hg : q.gen = r.fld 58 2) {t u : State}
    (ht : t = (s.holdReq k (some .destroy)).updQueue n fun q =>
      { q with state := .destroying, cause := 0, destroys := q.destroys ++ [k] })
    (hu : u = ((if q.state = .destroying then t else t.writeLine n).keepWatch n).dropSlotOf n) :
    s.queueDestroy k = if bitAt (r.fld 60 1) 0 then u.abortQueue n else u := by
  subst hn hu ht
  simp only [State.queueDestroy, hq, hs, hg, ne_eq, not_true_eq_false, if_false]

/-- R258, R262: the destruction ends once nothing of the queue is left and no reset of its context drains. -/
theorem State.queueDestroyEnd_ends (hs : s.queue? n = some q) (hd : q.state = .destroying) (hw : q.destroys ≠ [])
    (hr : s.remaining n q = []) (hc : ∀ c ∈ s.fe.chains, c.queue ≠ n)
    (hx : q.kernel = false → ∀ x, (s.ctx (State.idOf q.tag)).resetting = some x → x.tagBefore ≠ q.tag) :
    s.queueDestroyEnd n = q.destroys.foldl (fun t k => t.okReq k 0 0) (s.freeQueue n) := by
  have hno : (!q.kernel && (s.ctx (State.idOf q.tag)).resetting.any fun x => x.tagBefore == q.tag) = false := by
    cases hk : q.kernel with
    | true => rfl
    | false =>
      cases hres : (s.ctx (State.idOf q.tag)).resetting with
      | none => rfl
      | some x => simp [hx hk x hres]
  have hall : (s.fe.chains.all fun c => decide (c.queue ≠ n)) = true := by simpa using hc
  rw [State.queueDestroyEnd, hs]
  exact if_pos ⟨hd, hw, hr, hno, hall⟩

end Destroy

/-- Settles O24: the queue goes into DESTROYING, and is freed once nothing of it is left. -/
theorem queueDestroyCompletes : Obligations.QueueDestroyCompletes :=
  ⟨fun _ _ _ _ _ hq hn hs hg _ _ ht hu => congrArg Host.Outcome.next (State.queueDestroy_takes hq hn hs hg ht hu),
    fun _ _ _ hs hd hw hr hc hx => congrArg Host.Outcome.next (State.queueDestroyEnd_ends hs hd hw hr hc hx)⟩

section Stores

variable {s : State} {p q : Port} {addr : Nat} {data : Bytes}

/-- R253: a host store with both links down reaches host memory alone. -/
theorem State.snooped_down (h : s.viaPort p = none) :
    s.snooped p addr data = { s with host := Mem.store s.host addr data } := by
  rw [State.snooped, h]

/-- R244, 13 R361: a host store by a link fires the watches that it touches. -/
theorem State.snooped_via (h : s.viaPort p = some q) :
    s.snooped p addr data =
      (((s.fe.queues.filter fun x => decide (x.2.door < addr + data.length) && decide (addr < x.2.door + 64)).map
        (·.1)).foldl State.fireWatch (State.wakeLink { s with host := Mem.store s.host addr data } q)).answer q .invalidAck := by
  rw [State.snooped, h]

/-- 13 R362: a cacheable request is refused and counted. -/
theorem State.cacheable_refused (h : s.linkUp p = true) :
    s.cacheable p = State.answer
      { s.wakeLink p with hp := { (s.wakeLink p).hp with cachereq := satInc 8 s.hp.cachereq } } p .nocache :=
  if_pos h

end Stores

/-- Settles O25: a store reaches host memory whatever the links do (log entry 5); what it fires goes by the link that is
up. -/
theorem hostStoresAndCacheable : Obligations.HostStoresAndCacheable :=
  fun _ _ => ⟨fun _ _ h => congrArg Host.Outcome.next (State.snooped_down h),
    fun _ _ _ h => congrArg Host.Outcome.next (State.snooped_via h),
    fun h => congrArg Host.Outcome.next (State.cacheable_refused h)⟩

section Slots

variable {s : State} {i n : Nat} {q : Queue}

/-- R246: a slot that has nothing more to fetch reads its doorbell line. -/
theorem State.doorbellRead_reads (hn : ((s.fe.slots[i]?).getD Slot.reset).queue = some n) (hq : s.queue? n = some q)
    (hi : ((s.fe.slots[i]?).getD Slot.reset).idle = false) (hf : s.slotFetches i q = false ∨ s.canFetch n q = false) :
    s.doorbellRead i = (s.readDoorbell n).afterRead i n q.tail := by
  have hno : (s.slotFetches i q && s.canFetch n q) = false := by
    rcases hf with h | h <;> simp [h]
  simp only [State.doorbellRead, hn, hq, hi, hno, Bool.or_self, Bool.false_eq_true, if_false]

/-- R256: what the end of a slice counts of each queue. -/
theorem State.countSlice_eq (s : State) : s.countSlice = { s with
    fe := { s.fe with
      queues := Tbl.mapVals s.fe.queues fun n q =>
        if (s.slotOf n).isSome then { q with unserved := 0, readyRun := 0 }
        else if s.queueReady n q = false then { q with unserved := q.unserved + 1, readyRun := 0 }
        else if s.fe.age ≠ 0 ∧ s.fe.age ≤ q.readyRun then { q with unserved := q.unserved + 1, readyRun := 1 }
        else { q with unserved := q.unserved + 1, readyRun := q.readyRun + 1 } } } := by
  refine congrArg (fun f : Nat → Queue → Queue =>
    { s with fe := { s.fe with queues := Tbl.mapVals s.fe.queues f } }) (funext fun n => funext fun q => ?_)
  cases (s.slotOf n).isSome with
  | true => rfl
  | false =>
    cases s.queueReady n q with
    | false => rfl
    | true =>
      by_cases ha : s.fe.age ≠ 0 ∧ s.fe.age ≤ q.readyRun <;> simp [ha]

/-- R242: the descriptor that a slot fetches enters the table under the next name of its queue. -/
theorem State.fetchedRequest_desc (v : State) (n : Nat) (q : Queue) :
    (v.fetchedRequest n q).key.name = mkName q.gen n q.fhead ∧
    (v.fetchedRequest n q).desc = Mem.bytes v.host (q.ring + 128 * (q.fhead % q.ringN)) 128 := ⟨rfl, rfl⟩

/-- R243, 10 R276: a fetch enters the descriptor and reserves the overlay entries that it asks for. -/
theorem State.descriptorFetch_fetches (hn : ((s.fe.slots[i]?).getD Slot.reset).queue = some n) (hq : s.queue? n = some q)
    (hf : s.slotFetches i q = true) (hc : s.canFetch n q = true) (hup : s.hostUp = true) {v u : State}
    (hv : v = { s.touchHost q.home with free := s.free + 1 }) {r : Request} (hr : r = v.fetchedRequest n q)
    (hu : u = ((v.insertFetched n q r).updQueue n fun q => { q with fhead := q.fhead + 1 }).updSlot i
      fun t => { t with idle := false, cwait := false, fetched := t.fetched + 1 }) :
    s.descriptorFetch i =
      ((u.reserveOverlay r).releasePatched (Config.lostStatus s.free).toNat).lineAt64 n (q.fhead + 1) := by
  subst hu hr hv
  simp only [State.descriptorFetch, hn, hq, hf, hc, hup, Bool.and_self, Bool.true_eq_false, if_false, State.takeFree,
    State.touchHost_free]

end Slots

/-- Settles O26: after a fetch the state line is written at every 64th descriptor, which is `State.lineAt64`. -/
theorem slotsReadAndFetch : Obligations.SlotsReadAndFetch := by
  refine ⟨⟨?reads, ?slice⟩, ?fetches⟩
  case reads => exact fun s i n q hn hq hi hf => congrArg Host.Outcome.next (State.doorbellRead_reads hn hq hi hf)
  case slice =>
    intro s t ht
    rw [← State.countSlice_eq] at ht
    subst ht
    rfl
  case fetches =>
    intro s v i n q hn hq hf hc hup hv r u hr hu
    obtain ⟨hname, hdesc⟩ := State.fetchedRequest_desc v n q
    have hhost : v.host = s.host := hv ▸ State.touchHost_host s q.home
    exact ⟨hr ▸ hname, hr ▸ hhost ▸ hdesc,
      congrArg Host.Outcome.next (State.descriptorFetch_fetches hn hq hf hc hup hv hr hu)⟩

section Complete

variable {s : State} {k : ReqKey} {r : Request} {q : Queue} {n now formed : Nat} {areaOk : Bool}

/-- R261: a name of an older generation of its queue is counted. -/
theorem State.complete_stale (hr : s.req? k = none) (hs : s.staleName k.name = true) :
    s.complete k now formed areaOk = { s with fe := { s.fe with qerrStale := satInc 16 s.fe.qerrStale } } := by
  rw [State.complete, hr]
  exact if_pos hs

/-- R248, R259; 10 R270-R280: a request whose record has room, and which nothing makes wait, completes. -/
theorem State.complete_record (hr : s.req? k = some r) (hq : s.queue? r.queue = some q) (he : r.state = .ended)
    (hroom : r.recorded = true → if r.chained then s.recordRoom r.queue = true else q.ctail < q.chead + q.compN)
    (hd : s.behindDestroy r = false)
    (hp : r.good = true → (r.op = Op.solve ∨ r.op = Op.score) → ∀ b, r.best = some b → s.setpointsWait b.1 = false)
    {t u : State} (ht : t = (if r.recorded then (s.putRecord r.queue q r).recordSignal q r else s))
    (hu : u = ((((State.retire ((t.openLoaded r).formSetpoints r now formed areaOk) r).release r).followChain
      r).unloadAll).settleUpdates.settleRet.settleOn) :
    s.complete k now formed areaOk = match State.hibernateOf r with
      | some keep => u.enterHibernate keep
      | none => u := by
  have hno1 : (r.recorded && !(if r.chained then s.recordRoom r.queue else decide (q.ctail < q.chead + q.compN))) = false := by
    cases hrec : r.recorded with
    | false => rfl
    | true =>
      have h := hroom hrec
      cases hch : r.chained <;> simp only [hch, Bool.false_eq_true, if_false, if_true] at h ⊢ <;> simp [h]
  have hno2 : ((r.good && (r.op == Op.solve || r.op == Op.score)) && (r.best.any fun b => s.setpointsWait b.1)) = false := by
    by_cases hg : r.good = true ∧ (r.op = Op.solve ∨ r.op = Op.score)
    · cases hb : r.best with
      | none => simp
      | some b => simp [hp hg.1 hg.2 b hb]
    · have : (r.good && (r.op == Op.solve || r.op == Op.score)) = false := by
        rw [Bool.eq_false_iff]; simpa using hg
      rw [this]; rfl
  unfold State.complete
  cases hh : State.hibernateOf r <;>
    simp only [hr, hq, he, ne_eq, not_true_eq_false, hno1, hd, hno2, Bool.false_eq_true, or_self, if_false, ← ht, ← hu, hh]

/-- Table 9.7: a record is of 32 bytes. -/
theorem State.recordBytes_length (q : Queue) (r : Request) : (recordBytes q r).length = 32 := by
  simp [recordBytes, leBytes_length]

/-- R250: the phase flag of a record is set in every even pass over the ring. -/
theorem State.recordFlags_phase (q : Queue) (r : Request) :
    recordFlags q r % 2 = if q.ctail / q.compN % 2 = 0 then 1 else 0 := by
  have hphase : b2n (decide (q.ctail / q.compN % 2 = 0)) = if q.ctail / q.compN % 2 = 0 then 1 else 0 := by
    by_cases h : q.ctail / q.compN % 2 = 0 <;> simp [b2n, h]
  unfold recordFlags
  rw [hphase]
  split <;> omega

/-- R250: a record goes to the next place of its ring; the state line follows at every 64th. -/
theorem State.putRecord_up (hup : s.hostUp = true) (hl : (q.ctail + 1) % 64 ≠ 0) :
    s.putRecord n q r = (s.writeHost q.home (q.comp + 32 * (q.ctail % q.compN)) (recordBytes q r)).updQueue n
      fun q => { q with ctail := q.ctail + 1 } := by
  unfold State.putRecord
  exact (if_pos hup).trans (if_neg hl)

/-- R253: with both host links down a record is lost and counted, and its queue enters ERROR. -/
theorem State.putRecord_down (hup : s.hostUp = false) :
    s.putRecord n q r = State.queueError { s with fe := { s.fe with qerrLost := satInc 16 s.fe.qerrLost } } n 5 := by
  unfold State.putRecord
  exact if_neg (by simp [hup])

end Complete

/-- Settles O27: nothing holds the record back, so the request completes and the completion ring takes its record. -/
theorem requestCompletes : Obligations.RequestCompletes := by
  refine ⟨fun s k now formed areaOk => ⟨?completes, ?stale⟩, fun s n q r => ⟨State.recordFlags_phase q r,
    State.recordBytes_length q r, fun hup hl => State.putRecord_up hup hl, fun hup => State.putRecord_down hup⟩⟩
  case completes =>
    intro r q hr hq he hroom hd hp t u ht hu
    have e := State.complete_record (now := now) (areaOk := areaOk) hr hq he hroom hd hp ht hu
    refine ⟨fun hh => congrArg Host.Outcome.next ?_, fun keep hh => congrArg Host.Outcome.next ?_⟩ <;> rw [e, hh]
  case stale => exact fun hr hs => congrArg Host.Outcome.next (State.complete_stale hr hs)

end Sys2Proof.Machine
end

section
/-! Chains and recovery (10 R278-R280; 11 R309-R321): the next descriptor of a chain, contexts found hung, units that do not
answer, dumps and the readout of the counters. -/

namespace Sys2Proof.Machine

section ChainNext

variable {s : State} {name : W64} {c : Chain} {p : Nat × Nat} {find : ChainFind}
  (hc : (s.fe.chains.find? fun c => decide (c.name = name)) = some c) (hp : c.ptr = some p)
  (hroom : s.recordRoom c.queue = true) (hf : s.fe.fenced = false) (hm : s.cx.mpfault = false) (ha : s.pw.mstate = .active)
  (hk : c.kernel = true ∨ s.served c.tag = true)

include hc hp hroom hf hm ha hk

/-- R280: a pointer outside the chain memory of its context fails the descriptor that holds it. -/
theorem State.chainNext_outside (ho : s.inChainMemory c p = false) : s.chainNext name find =
    (s.enterLink c (State.chainRequest c c.holder none)).refuse ⟨c.name, c.next⟩ (Refuse.field 48 0) := by
  have hno : (!c.kernel && !s.served c.tag) = false := by rcases hk with h | h <;> simp [h]
  simp only [State.chainNext, hc, hp, hroom, hf, hm, ha, hno, ho, Bool.true_eq_false, Bool.false_eq_true, Bool.or_self, ne_eq,
    not_true_eq_false, or_self, if_false, if_true, State.chainRequest]

variable (hi : s.inChainMemory c p = true) (hacc : s.accepts p.1 = true) (hs : s.shiftOver (2 ^ p.1) = false)
  (hiso : s.isolates (State.idOf c.tag) (.controller p.1) = false)

include hi hacc hs hiso

/-- R279, R280: the next link enters the table and counts as progress of its controller; then what its read meets decides. -/
theorem State.chainNext_enters {d : Bytes} (hd : d = s.chainDesc c.tag p.1 p.2) {t : State}
    (ht : t = (s.enterLink c (State.chainRequest c d (some p))).bump (.controller p.1) none 1) :
    s.chainNext name find = match find with
      | .scratchBad addr =>
        (t.noteBadWord (t.siteOf p.1) (.chain (State.idOf c.tag)) addr).faultData ⟨c.name, c.next⟩ p.1 2 0 addr 0 0
      | .clean => t.checkLink c (State.chainRequest c d (some p))
      | .sramCorrected => (t.countSramCorr (t.siteOf p.1)).checkLink c (State.chainRequest c d (some p)) := by
  have hno : (!c.kernel && !s.served c.tag) = false := by rcases hk with h | h <;> simp [h]
  subst ht hd
  cases find <;>
    simp only [State.chainNext, hc, hp, hroom, hf, hm, ha, hno, hi, hacc, hs, hiso, Bool.true_eq_false, Bool.false_eq_true,
      Bool.or_self, ne_eq, not_true_eq_false, or_self, if_false]
  case scratchBad => rfl

end ChainNext

/-- A link goes by what the checks say of its descriptor. -/
theorem State.checkLink_cases (t : State) (c : Chain) (d : Bytes) (p : Option (Nat × Nat)) :
    (checkDescriptor d c.kernel true none = none → t.checkLink c (State.chainRequest c d p) = t) ∧
    (∀ x, checkDescriptor d c.kernel true none = some x →
      t.checkLink c (State.chainRequest c d p) = t.refuse ⟨c.name, c.next⟩ x) := by
  constructor
  · intro h; simp only [State.checkLink, State.chainRequest, h]
  · intro x h; simp only [State.checkLink, State.chainRequest, h]

/-- Settles O28: a pointer outside the chain memory fails its descriptor; any other link enters the table. -/
theorem chainGoesOn : Obligations.ChainGoesOn := by
  intro s name c p hc hp hroom hf hm ha hk
  refine ⟨fun ho find r hr => ?outside, fun hi hacc hs hiso d t hd ht => ?inside⟩
  case outside =>
    subst hr
    exact congrArg Host.Outcome.next (State.chainNext_outside hc hp hroom hf hm ha hk ho)
  case inside =>
    have e := fun find => State.chainNext_enters (find := find) hc hp hroom hf hm ha hk hi hacc hs hiso hd ht
    have hchk := fun v => State.checkLink_cases v c d (some p)
    exact ⟨fun addr => congrArg Host.Outcome.next (e (.scratchBad addr)),
      fun h => ⟨congrArg Host.Outcome.next ((e .clean).trans ((hchk _).1 h)),
        congrArg Host.Outcome.next ((e .sramCorrected).trans ((hchk _).1 h))⟩,
      fun x h => ⟨congrArg Host.Outcome.next ((e .clean).trans ((hchk _).2 x h)),
        congrArg Host.Outcome.next ((e .sramCorrected).trans ((hchk _).2 x h))⟩⟩

section Hangs

variable {s : State} {id : Nat} {u : HwUnit}

/-- R309, R310: a context is found hung on a unit by work that stands there for K windows, or in a cycle of contexts. -/
theorem State.foundHung_of_progress {p : Progress} (hp : s.progressOf u (some id) = some p)
    (h : p.runnable = true ∧ (p.kind = 0 ∨ p.kind = 8) ∧ p.tr + s.cx.k * s.cx.window ≤ s.now ∨
      p.kind = 7 ∧ s.inCycle id = true) : s.foundHung id u = true := by
  obtain ⟨hr, hk, ht⟩ | ⟨hk, hc⟩ := h
  · simp [State.foundHung, State.isHung, hp, hr, hk, ht]
  · simp [State.foundHung, hp, hk, hc]

/-- R311: the first context found hung at a tick is marked, recorded and signalled; with AUTO it is reset. -/
theorem State.hangDetected_first (h1 : 1 ≤ id) (h256 : id < 256) (hh : (s.ctx id).hung = false) (hl : (s.ctx id).state = .live)
    (hfw : s.firmwareRuns = true) (hlow : ∀ j, j < id → s.hangOpen j = false) (hf : s.foundHung id u = true) {v t : State}
    (hv : v = s.updCtx id fun c => { c with hung := true })
    (ht : t = (State.noteContext { v with cx := { v.cx with hungSet := v.cx.hungSet ||| BitVec.ofNat 256 (2 ^ id) } }
      (s.tagOf id) (State.hangCause u) (State.unitFields u).1 (State.unitFields u).2.1 (State.unitFields u).2.2).eventSignal) :
    s.hangDetected id u = if s.cx.auto then
      State.resetContext { t with cx := { t.cx with autorst := satInc 16 t.cx.autorst } } id none false else t := by
  have hno : (List.range id).any s.hangOpen = false := by
    rw [List.any_eq_false]
    intro j hj
    simp [hlow j (List.mem_range.1 hj)]
  have hid : ¬(id = 0 ∨ 256 ≤ id ∨ (s.ctx id).hung = true ∨ (s.ctx id).state ≠ .live ∨ s.firmwareRuns = false ∨
      s.foundHung id u = false ∨ (List.range id).any s.hangOpen = true) := by
    simp only [hh, hl, hfw, hf, hno, Bool.false_eq_true, Bool.true_eq_false, ne_eq, not_true_eq_false, or_false]
    omega
  rw [ht, hv]
  exact if_neg hid

/-- R317: a unit that does not acknowledge a reset has its site declared failed. -/
theorem State.ackTimeout_declares {site le : Nat} {x : ResetInfo} (hx : (s.ctx id).resetting = some x)
    (hle : s.leOf site = some le) (hs : site < 40) (hn : x.noAck.contains site = false) :
    s.ackTimeout id site = (State.noteContext
      (s.updCtx id fun c => { c with resetting := some { x with noAck := x.noAck ++ [site] } })
        x.tagBefore 0xA le 0 site).declareFailed site := by
  have hno : ¬(x.noAck.contains site = true ∨ 40 ≤ site) := by
    rw [hn]; simpa using hs
  simp only [State.ackTimeout, hx, hle, if_neg hno]

end Hangs

section Dumps

variable {s t : State} {k : ReqKey} {r : Request} {id : Nat}

/-- R318: a dump waits behind a reset, another dump and the pause of a spare shift, and else fences its context. -/
theorem State.startDump_cases :
    (s.dumpWaits id = true → s.startDump k id = s) ∧
    (s.dumpWaits id = false → s.startDump k id = s.updCtx id fun c =>
      { c with fenced := true, dump := some { req := k, tick := s.mg.tick, faultCtx := s.regFaultCtx, unreachable := [] } }) :=
  ⟨fun h => if_pos h, fun h => if_neg (by simp [h])⟩

/-- R318: CTX_DUMP of a live context, or of one that is being reset, is held and starts its dump where it can. -/
theorem State.ctxDump_new (hq : s.ready? k Op.ctxDump = some r) (h : s.tagLive (State.payloadTag r) = true ∨
      ∃ x, (s.ctx (State.idOf (State.payloadTag r))).resetting = some x ∧ x.tagBefore = State.payloadTag r) :
    s.ctxDump k = (s.holdReq k (some .dump)).startDump k (State.idOf (State.payloadTag r)) := by
  have hno : ¬(s.tagLive (State.payloadTag r) = false ∧ ((s.ctx (State.idOf (State.payloadTag r))).resetting.any fun x =>
      x.tagBefore == State.payloadTag r) = false) := by
    obtain hl | ⟨x, hx, ht⟩ := h
    · simp [hl]
    · simp [hx, ht]
  simp only [State.ctxDump, hq, if_neg hno]

/-- Log entry 101: a CTX_DUMP that waits starts its dump once it can. -/
theorem State.ctxDump_waiting (hq : s.ready? k Op.ctxDump = none) (hr : s.req? k = some r) (ho : r.op = Op.ctxDump)
    (hd : r.state = .dispatched) (hh : r.hold = some .dump) (hf : s.firmwareRuns = true) :
    s.ctxDump k = s.startDump k (State.idOf (State.payloadTag r)) := by
  simp only [State.ctxDump, hq, hr]
  exact if_pos ⟨ho, hd, hh, hf⟩

/-- R321: a unit that has not paused in time is listed. -/
theorem State.dumpTimeout_lists {u : HwUnit} {d : DumpInfo} (hd : (s.ctx id).dump = some d)
    (hu : (s.unitsWith id).contains u = true) (hn : d.unreachable.contains u = false) :
    s.dumpTimeout id u = s.updCtx id fun c => { c with dump := some { d with unreachable := d.unreachable ++ [u] } } := by
  rw [State.dumpTimeout, hd]
  exact if_pos ⟨hu, hn⟩

/-- R321: the dump goes where its request asked for it, and the request ends. -/
theorem State.dumpWrite_writes {d : DumpInfo} (hd : (s.ctx id).dump = some d) (hr : s.req? d.req = some r)
    (hx : (s.ctx id).resetting = none) (hf : s.firmwareRuns = true) {out : Bytes} (ho : out = s.dumpBytes id d (r.fld 72 8))
    (ht : t = (s.writeFor r.queue (addrOff (r.fld 64 8)) out).updCtx id fun c =>
      { c with dump := none, fenced := c.resetting.isSome, isolated := d.unreachable }) :
    s.dumpWrite id = t.okReq d.req (BitVec.ofNat 64 out.length) (BitVec.ofNat 64 d.unreachable.length) := by
  subst ht ho
  simp only [State.dumpWrite, hd, hr, hx, hf, Option.isSome_none, Bool.false_eq_true, Bool.true_eq_false, or_self, if_false]

end Dumps

/-- Settles O29: each recovery command takes its lemma; what CTX_DUMP waits for and dumps is log entries 99, 101 and 124. -/
theorem recoveryCommands : Obligations.RecoveryCommands := by
  refine ⟨⟨?hang, ?timeout⟩, ?dump, ?unreachable, ?write, ?counters⟩
  case hang =>
    intro s id u p h1 h256 hh hl hfw hlow hp hstands v t hv ht
    have e := State.hangDetected_first h1 h256 hh hl hfw hlow (State.foundHung_of_progress hp hstands) hv ht
    exact ⟨fun h => congrArg Host.Outcome.next (e.trans (if_neg (by simp [h]))),
      fun h => congrArg Host.Outcome.next (e.trans (if_pos h))⟩
  case timeout =>
    exact fun s id site le x hx hle hs hn => congrArg Host.Outcome.next (State.ackTimeout_declares hx hle hs hn)
  case dump =>
    intro s k r id t hid h
    have e : s.ctxDump k = t.startDump k id := by
      subst hid
      obtain ⟨hq, rfl, hlive⟩ | ⟨hq, hr, ho, hd, hh, hf, rfl⟩ := h
      · exact State.ctxDump_new hq hlive
      · exact State.ctxDump_waiting hq hr ho hd hh hf
    exact ⟨fun hw => congrArg Host.Outcome.next (e.trans (State.startDump_cases.1 hw)),
      fun hw => congrArg Host.Outcome.next (e.trans (State.startDump_cases.2 hw))⟩
  case unreachable =>
    exact fun s id u d hd hu hn => congrArg Host.Outcome.next (State.dumpTimeout_lists hd hu hn)
  case write =>
    exact fun s id d r hd hr hx hf out t ho ht => congrArg Host.Outcome.next (State.dumpWrite_writes hd hr hx hf ho ht)
  case counters =>
    intro s k r hq
    refine congrArg Host.Outcome.next ?_
    rw [State.counterReadAll, hq]

end Sys2Proof.Machine
end

section
/-! The management tick, the power states and their events (18 R465-R479): what POWER_SET of each scope, the entry to and exit from
STANDBY, a throttle, a trip and a loss of supply do. -/

namespace Sys2Proof.Machine

/-- Settles O30: a tick that runs counts (`State.newTick`), and firmware that runs goes on from there in its order. -/
theorem tickMirrorsAndGoverns : Obligations.TickMirrorsAndGoverns := by
  intro s x
  refine ⟨fun h => ?stopped, fun h hf => ?idle, fun h hf => ?governs⟩
  case stopped => exact congrArg Host.Outcome.next (if_pos h)
  case idle =>
    have e : s.managementTick x = s.newTick := by
      rw [State.managementTick, if_neg (by simp [h])]
      exact if_pos hf
    exact ⟨s.newTick, congrArg Host.Outcome.next e, rfl, rfl, rfl, rfl⟩
  case governs =>
    refine congrArg Host.Outcome.next ?_
    rw [State.managementTick, if_neg (by simp [h])]
    exact if_neg (by simp [hf])

section ModuleState

variable {s : State} {k : ReqKey} {r : Request}

/-- POWER_SET of scope 0, with no spare shift, transition of the module or change of a half under way. -/
theorem State.powerModule_open (hq : s.ready? k Op.powerSet = some r) (h0 : r.fld 56 1 = 0) (hs : s.shifting = false)
    (he : s.pw.entry = none) (hr : s.pw.halfReq = []) :
    s.powerModule k =
      if r.fld 57 1 = 0 then
        if s.pw.mstate = .standby then (s.holdReq k (some .powerOn)).leaveStandby (some k) else s.okReq k 0 0
      else if r.fld 57 1 = 1 then
        if s.pw.mstate = .standby then s.okReq k 0 0
        else { s.holdReq k (some .standby) with
          pw := { (s.holdReq k (some .standby)).pw with mstate := .entering, entry := some k } }
      else if s.busyModule then s.refuse k (Refuse.field 57 0)
      else s.okReq k 0 0 := by
  simp only [State.powerModule, hq, h0, hs, he, hr, ne_eq, not_true_eq_false, Bool.false_eq_true, Option.isSome_none, or_self,
    if_false]

/-- R467: once every run holds and the fabric is quiet, the module enters STANDBY. -/
theorem State.standbyEntry_enters (he : s.pw.entry = some k) (hm : s.pw.mstate = .entering) (hw : s.halfQuiet .west = true)
    (hea : s.halfQuiet .east = true) (hf : s.fabricQuiet = true) {t : State}
    (ht : t = { s with pw := { s.pw with
      mstate := .standby, entry := none, stbyW := s.pw.halfW == HalfState.on, stbyE := s.pw.halfE == HalfState.on } }) :
    s.standbyEntry =
      ((((t.enterStandbyHalf .west).enterStandbyHalf .east).parkHinges).mapLinks State.sleepLink).okReq k 0 0 := by
  subst ht
  simp only [State.standbyEntry, he, hm, hw, hea, hf, ne_eq, not_true_eq_false, Bool.true_eq_false, or_self, if_false]

/-- R467: a half that is ON or in RET enters RET, or OFF where STBYOFF allows it; any other stays as it is (log entry 69). -/
theorem State.standbyHalf_eq (s : State) (h : Half) :
    s.standbyHalf h = if s.half h = .on ∨ s.half h = .ret then
      (if s.pw.stbyoff = true ∧ s.halfAllocated h = false then .off else .ret) else s.half h := by
  unfold State.standbyHalf
  cases s.half h <;> cases s.pw.stbyoff <;> cases s.halfAllocated h <;> rfl

end ModuleState

/-- Settles O31: the target of the POWER_SET decides; a half that was OFF or tripped stays so in STANDBY (log entry 69). -/
theorem moduleStates : Obligations.ModuleStates := by
  refine ⟨fun s k r hq h0 hs he hr => ?_, fun s => ⟨?entry, ?wakes, State.standbyHalf_eq s⟩⟩
  · have e := State.powerModule_open hq h0 hs he hr
    refine ⟨fun hv hm => ?active, fun hv hm => ?leaves, fun hv hm t ht => ?standby, fun hv => ?hibernate⟩
    all_goals refine congrArg Host.Outcome.next (e.trans ?_)
    case active => rw [if_pos hv, if_neg hm]
    case leaves => rw [if_pos hv, if_pos hm]
    case standby => rw [if_neg (by omega), if_pos hv, if_neg hm, ht]
    case hibernate => rw [if_neg (by omega), if_neg (by omega)]
  case entry =>
    exact fun k he hm hw hea hf t ht => congrArg Host.Outcome.next (State.standbyEntry_enters he hm hw hea hf ht)
  case wakes => exact fun hm ha hw => congrArg Host.Outcome.next (if_pos ⟨hm, ha, hw⟩)

section HalfState

variable {s : State} {k : ReqKey} {r : Request} {h : Half}

/-- POWER_SET of scope 1, once no change of the half is under way or it has tripped: the half refuses it or changes. -/
theorem State.powerHalf_open (hq : s.ready? k Op.powerSet = some r) (h1 : r.fld 56 1 = 1) (hs : s.shifting = false)
    (he : s.pw.entry = none) (hh : h = if bitAt (r.fld 58 1) 0 then Half.east else Half.west)
    (hno : s.half h = .tripped ∨ ∀ x ∈ s.pw.halfReq, x.1 ≠ h) :
    s.powerHalf k = match s.halfRefusal h (r.fld 57 1) with
      | some x => s.refuse k x
      | none => s.changeHalf k h (r.fld 57 1) := by
  have hw : ((s.pw.halfReq.any fun x => x.1 == h) && s.half h != .tripped) = false := by
    rcases hno with ht | hx
    · simp [ht]
    · have : (s.pw.halfReq.any fun x => x.1 == h) = false := by
        rw [List.any_eq_false]; intro x hm; simpa using hx x hm
      rw [this]; rfl
  unfold State.powerHalf
  cases hx : s.halfRefusal h (r.fld 57 1) <;>
    simp only [hq, h1, hs, he, ← hh, hw, hx, ne_eq, not_true_eq_false, Bool.false_eq_true, Option.isSome_none, or_self, if_false]

/-- R473: the power limit takes effect at once, at most at 500 W while the cold plate is hot. -/
theorem State.powerLimit_sets (hq : s.ready? k Op.powerSet = some r) (h2 : r.fld 56 1 = 2) (hrun : s.run? k = none) :
    s.powerLimit k = ended { s with pw := { s.pw with
      limit := r.fld 60 2, efflim := if s.pw.cphot then min 500 (r.fld 60 2) else r.fld 60 2 } } k Status.ok 0 0 := by
  simp only [State.powerLimit, hq, h2, ne_eq, not_true_eq_false, if_false]
  refine State.okReq_ended ?_ 0 0
  exact hrun

/-- R469, R477; log entry 46: what a half may refuse, in its order. -/
theorem State.halfRefusal_cases (s : State) (h : Half) (v : Nat) :
    (s.halfEnabled h = false → s.halfRefusal h v = some (Refuse.field 58 0)) ∧
    (s.halfEnabled h = true → v = 0 → s.half h = .tripped → s.tripHot h = true → s.halfRefusal h v = some (Refuse.field 57 0)) ∧
    (s.halfEnabled h = true → v = 0 → s.half h ≠ .on → s.vinGood h = false → s.halfRefusal h v = some (Refuse.field 57 0)) ∧
    (s.halfEnabled h = true → v = 0 → s.half h = .on → s.halfRefusal h v = none) ∧
    (s.halfEnabled h = true → v ≠ 0 → ∀ l, s.hingeUser = some l →
      s.halfRefusal h v = some (Refuse.placement (Refuse.report 0x0D false false 0 0 l))) ∧
    (s.halfEnabled h = true → v = 2 → s.hingeUser = none → s.halfAllocated h = true →
      s.halfRefusal h v = some (Refuse.placement (Refuse.report 0x01 false false (if h = .west then 0 else 16) 0 0))) := by
  unfold State.halfRefusal
  refine ⟨fun he => if_pos he, fun he hv ht hh => ?_, fun he hv hon hvin => ?_, fun he hv hon => ?_, fun he hv l hl => ?_,
    fun he hv hl ha => ?_⟩ <;> rw [if_neg (by simp [he])]
  · rw [if_pos hv, if_pos ⟨ht, hh⟩]
  · rw [if_pos hv, if_pos (c := s.half h ≠ .on ∧ s.vinGood h = false) ⟨hon, hvin⟩, ite_self]
  · rw [if_pos hv, if_neg (by simp [hon]), if_neg (by simp [hon])]
  · rw [if_neg hv, hl]
  · rw [if_neg (by omega), hl]
    exact if_pos ⟨hv, ha⟩

end HalfState

/-- Settles O32: what the half refuses comes first, in the order of log entry 46; a tripped half does not wait (log entry
80). -/
theorem powerSetHalfAndLimit : Obligations.PowerSetHalfAndLimit := by
  refine ⟨fun s k r hq => ⟨fun h1 hs he h hh hno => ?half, ?limit⟩, State.halfRefusal_cases⟩
  case limit => exact fun h2 hrun => congrArg Host.Outcome.next (State.powerLimit_sets hq h2 hrun)
  case half =>
    have e := State.powerHalf_open hq h1 hs he hh hno
    have change : s.halfRefusal h (r.fld 57 1) = none → s.powerHalf k = s.changeHalf k h (r.fld 57 1) := fun hn => by
      rw [e, hn]
    refine ⟨fun x hx => ?refuses, fun hn hv hon => ?isOn, fun hn hv hon t ht => ?turnsOn, fun hn hv hret => ?isRet,
      fun hn hv hret t ht => ?turnsRet, fun hn hv => ?turnsOff⟩
    case refuses => exact congrArg Host.Outcome.next (by rw [e, hx])
    all_goals
      refine congrArg Host.Outcome.next ((change hn).trans ?_)
      unfold State.changeHalf
    case isOn => rw [if_pos hv, if_pos hon]
    case turnsOn => rw [if_pos hv, if_neg hon, ht]
    case isRet => rw [if_neg (by omega), if_pos hv, if_pos hret]
    case turnsRet => rw [if_neg (by omega), if_pos hv, if_neg hret, ht]
    case turnsOff => rw [if_neg (by omega), if_neg (by omega)]

section Events

variable {s : State} {i : Nat} {h : Half}

/-- R475: a hot engine goes down one operating point and is throttled. -/
theorem State.throttle_on (hi : i < 40) (hd : (s.site i).dstate = .on) :
    s.throttle i = s.updSite i fun x => { x with point := x.point - 1, throttled := true } :=
  if_neg (by simp [hd]; omega)

/-- R476: an overshooting engine is held, once, at a share that the spec leaves open. -/
theorem State.overshoot_on (hi : i < 40) (hd : (s.site i).dstate = .on) (ho : (s.site i).overshoot = false) :
    s.overshoot i = State.updSite { s with free := s.free + 1 } i fun x =>
      { x with overshoot := true, frac := (Config.overshootFrac s.free).toNat } :=
  if_neg (by simp [hd, ho]; omega)

/-- R477: PW_EVT shows the half that has tripped. -/
def State.showTrip (t : State) : Half → State
  | .west => { t with pw := { t.pw with evTripW := true } }
  | .east => { t with pw := { t.pw with evTripE := true } }

/-- R478: the supply of a half falls, which PW_EVT shows where it is an event. -/
def State.supplyFalls (t : State) (event : Bool) : Half → State
  | .west => { t with pw := { t.pw with vinW := false, evVinW := t.pw.evVinW || event } }
  | .east => { t with pw := { t.pw with vinE := false, evVinE := t.pw.evVinE || event } }

/-- R477: a half that trips loses its contents, and shows it. -/
theorem State.tripHalf_trips (hh : s.half h ≠ .tripped) {t : State} (ht : t = (s.setHalf h .tripped).losePower h) :
    s.tripHalf h = t.showTrip h := by
  simp only [State.tripHalf, if_neg hh, ← ht]
  cases h <;> rfl

/-- R478: a half whose supply falls loses its contents; one that has tripped stays tripped (log entry 70). -/
theorem State.vinLoss_loses (hm : s.pw.mstate ≠ .hibernate) (hm' : s.pw.mstate ≠ .hibernateM) {t : State}
    (ht : t = ((if s.half h = .tripped then s else s.setHalf h .off).losePower h).parkHinges) :
    s.vinLoss h = t.supplyFalls true h := by
  simp only [State.vinLoss, if_neg (not_or.2 ⟨hm, hm'⟩), ← ht]
  cases h <;> rfl

/-- 21 R512: in HIBERNATE and HIBERNATE-M the board may remove the supply of a half. -/
theorem State.vinLoss_hibernating (hm : s.pw.mstate = .hibernate ∨ s.pw.mstate = .hibernateM) :
    s.vinLoss h = s.supplyFalls false h := by
  simp only [State.vinLoss, if_pos hm]
  cases h <;> rfl

end Events

/-- Settles O33: a half that loses its supply is OFF, but a tripped one stays tripped (log entry 70). -/
theorem powerAndHeatEvents : Obligations.PowerAndHeatEvents := by
  refine fun s => ⟨?throttle, ?overshoot, fun x t ht => ⟨?engine, ?hub⟩, ?trips, ?loses, ?hibernating⟩
  case throttle => exact fun i hi hd => congrArg Host.Outcome.next (State.throttle_on hi hd)
  case overshoot => exact fun i hi hd ho => ⟨_, congrArg Host.Outcome.next (State.overshoot_on hi hd ho)⟩
  case engine =>
    rintro i rfl hi
    subst ht
    exact congrArg Host.Outcome.next (if_pos hi)
  case hub =>
    rintro rfl
    subst ht
    rfl
  case trips =>
    intro h hh t ht
    rw [State.tripHalf_trips hh ht]
    cases h <;> rfl
  case loses =>
    intro hm hm' h t ht
    refine congrArg Host.Outcome.next ((State.vinLoss_loses hm hm' ht).trans ?_)
    cases h <;> simp only [State.supplyFalls, Bool.or_true]
  case hibernating =>
    intro hm h
    refine congrArg Host.Outcome.next ((State.vinLoss_hibernating hm).trans ?_)
    cases h <;> simp only [State.supplyFalls, Bool.or_false]

end Sys2Proof.Machine
end

section
/-! The checks of the engine sites, retirement, repair and the spare shift (03 R83-R87; 07 R190, R198-R202; 12 R350). -/

namespace Sys2Proof.Machine

section Words

variable {s : State} {site addr : Nat} {place : ScrubPlace}

/-- 03 R84: the patrol scrubber of a site that is ON acts on what it reads. -/
theorem State.patrolScrub_on (hs : site < 40) (hd : (s.site site).dstate = .on) :
    s.patrolScrub site place addr .corrected = s.countSramCorr site ∧
    s.patrolScrub site place addr .uncorrectable = s.badWord site place addr := by
  have hno : ¬(40 ≤ site ∨ (s.site site).dstate ≠ .on) := by simp [hd]; omega
  exact ⟨if_neg hno, if_neg hno⟩

/-- 03 R83, R86: a word of a slice, of VSCALE, of chain memory or one that nothing holds is recorded. -/
theorem State.badWord_recorded
    (h : (∃ su, place = .store su) ∨ place = .vscale ∨ place = .scratch ∨ (∃ c, place = .chain c)) :
    s.badWord site place addr = s.noteBadWord site place addr := by
  obtain ⟨su, rfl⟩ | rfl | rfl | ⟨c, rfl⟩ := h <;> cases s.leOf site <;> simp only [State.badWord]

/-- 03 R83: a word of the footprint of a replica-block that runs fails its request. -/
theorem State.badWord_footprint {rblk le i : Nat} {n : Net} {b : RBlock} {t : State} {u : Run} (hle : s.leOf site = some le)
    (ht : t = s.noteBadWord site (.footprint rblk) addr) (hb : t.rblock? le rblk = some (i, n, b)) (hu : t.runOn i = some u)
    (hr : b.replica < u.reps) : s.badWord site (.footprint rblk) addr = t.failRun u le 2 b.su addr 0 rblk := by
  subst ht
  simp only [State.badWord, hle, hb, hu, decide_eq_true hr, if_true]

/-- 03 R83: an engine-wide record that is bad in both copies has its site declared failed. -/
theorem State.badWord_engineRecord : s.badWord site (.engineRecord true) addr =
    (s.noteBadWord site (.engineRecord true) addr).declareFailed site := by
  cases s.leOf site <;> simp only [State.badWord, if_true]

/-- 03 R87: three logic faults within 1,000 ticks, or a word that recurs, make firmware declare the site failed. -/
theorem State.siteFailure_declares
    (h : State.threeFaults (s.site site).logic = true ∨ State.recurred (s.site site).badWords = true) :
    s.siteFailure site = s.declareFailed site :=
  if_pos (by simpa using h)

end Words

section Repair

variable {s : State} {k : ReqKey} {r : Request}

/-- R198: ENGINE_REPAIR takes up the shift that runs in its half-row. -/
theorem State.engineRepair_joins {x : Shift} (hq : s.ready? k Op.engineRepair = some r)
    (hx : (s.hrow (r.fld 56 1)).shift = some x) (hn : x.req = none) : s.engineRepair k =
      (s.holdReq k (some .spareShift)).updHrow (r.fld 56 1) fun h => { h with shift := some { x with req := some k } } := by
  simp only [State.engineRepair, hq, hx, hn, Option.isNone_none, if_true]

/-- R198: ENGINE_REPAIR starts the shift that is pending, from the lowest failed position. -/
theorem State.engineRepair_starts {p : Nat} (hq : s.ready? k Op.engineRepair = some r)
    (hx : (s.hrow (r.fld 56 1)).shift = none) (hp : p < 4) (hf : (s.site (State.siteAt (r.fld 56 1) p)).failed = true)
    (hlow : ∀ j, j < p → (s.site (State.siteAt (r.fld 56 1) j)).failed = false)
    (hs : (s.hrow (r.fld 56 1)).spareok = true) :
    s.engineRepair k = (s.startShift (r.fld 56 1) p (some k)).holdReq k (some .spareShift) := by
  have hfind := find_first 4 p (fun p => (s.site (State.siteAt (r.fld 56 1) p)).failed) hp hf hlow
  simp only [State.engineRepair, hq, hx, hfind, hs, if_true]

/-- Log entry 23: ENGINE_REPAIR of a half-row with no failed site ends OK and changes nothing else. -/
theorem State.engineRepair_none (hq : s.ready? k Op.engineRepair = some r) (hx : (s.hrow (r.fld 56 1)).shift = none)
    (hno : ∀ p, p < 4 → (s.site (State.siteAt (r.fld 56 1) p)).failed = false) (hrun : s.run? k = none) :
    s.engineRepair k = ended s k Status.ok 0 0 := by
  have hfind : (List.range 4).find? (fun p => (s.site (State.siteAt (r.fld 56 1) p)).failed) = none := by
    rw [List.find?_eq_none]
    intro p hp
    simp [hno p (List.mem_range.1 hp)]
  simp only [State.engineRepair, hq, hx, hfind]
  exact State.okReq_ended hrun 0 0

end Repair

section Shift

variable {s : State} {h : Nat} {x : Shift}

/-- R200: the shift pauses once the runs of its half-row hold and its lanes are empty. -/
theorem State.shiftPause_pauses (hx : (s.hrow h).shift = some x) (hp : x.paused = false)
    (hr : ∀ u ∈ s.runsOnRow h, s.turning u = false) (hq : s.rowQuiet h = true) (bad : List Nat) :
    s.shiftPause h bad =
      (s.updHrow h fun r => { r with shift := some { x with paused := true, unreadable := bad } }).startMigration h := by
  have hall : (s.runsOnRow h).all (fun u => !s.turning u) = true := by simpa using hr
  simp only [State.shiftPause, hx, hp, hall, hq, Bool.not_true, Bool.or_self, Bool.false_eq_true, if_false]

/-- R201: what stays to do of a shift whose failed site is retired: the request of it ends, migration control leaves, and runs
and resets that waited go on. -/
def State.afterShift (t : State) (x : Shift) (pause : Nat) : State :=
  (State.endMigration (match x.req with
    | some k => t.okReq k (BitVec.ofNat 64 (pause % 65536)) 0
    | none => t)).resumeRuns.carryResets

/-- R201, R202: the shift resumes with the failed site retired and the spare in use. -/
theorem State.shiftResume_resumes (hx : (s.hrow h).shift = some x) (hp : x.paused = true) (pause : Nat) {cols t : State}
    (hcols : cols = ((List.range 5).filter fun p => decide (x.pos ≤ p)).foldl
      (fun t p => t.updSite (State.siteAt h p) fun y => { y with badWords := [] }) s)
    (ht : t = (cols.updSite (State.siteAt h x.pos) State.retireSite).updHrow h fun r =>
      { r with
        failpos := x.pos, spareok := false, pauses := satInc 8 r.pauses, lastpause := pause % 65536, shift := none }) :
    s.shiftResume h pause = State.nextFailed
      ((sortBy (fun a b => decide (a ≤ b)) (x.unreadable ++ s.badOwners h x.pos).eraseDups).foldl
        (fun t id => t.moduleReset id 0x8 (4 * h) 0 (State.siteAt h x.pos)) (t.afterShift x pause)) h := by
  unfold State.shiftResume
  simp only [hx, hp, Bool.true_eq_false, if_false, ← hcols, ← ht]
  rfl

end Shift

/-- Settles O34: what each check finds says its effect; ENGINE_REPAIR with no failed site ends OK (log entry 23). -/
theorem siteChecksAndRepair : Obligations.SiteChecksAndRepair := by
  refine ⟨fun s site => ⟨?scrub, ?recorded, ?footprint, fun addr => State.badWord_engineRecord, ?failure, ?clear, ?wake⟩,
    fun s k r => ⟨?retire, fun hq => ⟨?joins, ?starts, ?none⟩⟩, fun s h x hx => ⟨?pauses, ?resumes⟩⟩
  case scrub =>
    intro place addr hs hd
    obtain ⟨hc, hu⟩ := State.patrolScrub_on (place := place) (addr := addr) hs hd
    exact ⟨congrArg Host.Outcome.next hc, congrArg Host.Outcome.next hu⟩
  case recorded => exact fun place addr hp => State.badWord_recorded hp
  case footprint => exact fun rblk addr le t i n b u hle ht hb hu hr => State.badWord_footprint hle ht hb hu hr
  case failure => exact fun hf => congrArg Host.Outcome.next (State.siteFailure_declares hf)
  case clear => exact fun hc => congrArg Host.Outcome.next (if_pos hc)
  case wake => exact fun hw bad => congrArg Host.Outcome.next (if_pos hw)
  case retire =>
    intro hq
    refine congrArg Host.Outcome.next ?_
    rw [State.engineRetire, hq]
  case joins => exact fun x hx hn => congrArg Host.Outcome.next (State.engineRepair_joins hq hx hn)
  case starts =>
    exact fun hx p hp hf hlow hs => congrArg Host.Outcome.next (State.engineRepair_starts hq hx hp hf hlow hs)
  case none => exact fun hx hno hrun => congrArg Host.Outcome.next (State.engineRepair_none hq hx hno hrun)
  case pauses => exact fun hp hr hq bad => congrArg Host.Outcome.next (State.shiftPause_pauses hx hp hr hq bad)
  case resumes =>
    intro hp pause cols t hcols ht
    refine congrArg Host.Outcome.next ((State.shiftResume_resumes hx hp pause hcols ht).trans ?_)
    unfold State.afterShift
    cases x.req <;> rfl

end Sys2Proof.Machine
end

section
/-! SITE_BIND, SCALE_POLICY and the conversion of samples (10 R296; 06 R158, R165, R170-R173; 15 R409, R410, R414-R416). -/

namespace Sys2Proof.Machine

section Bind

variable {s u t : State} {k : ReqKey} {r : Request} {tag : BitVec 24} {rec_ : Nat} {target : Option Nat} {d : Bytes}
  {sized : Nat → Bool} {mfmt : Nat}

/-- R409, R410: a block with no reserved bit, no field of wrong value and no refusal of its home binds the record. -/
theorem State.bindBlock_binds (hres : State.paramReserved d d.length = none) (h1 : 1 ≤ field d 0 1) (h4 : field d 0 1 ≤ 4)
    (htarget : u.paramTarget d target = (some sized, mfmt))
    (hvalid : leastOf (u.paramInvalid tag d target (((u.stream? rec_).map (·.gen)).getD 0) sized mfmt) = none)
    (ht : t = (if (u.stream? rec_).any fun x => decide (x.state = 2) then u.releaseStream rec_ else u))
    (hhome : t.bindRefusal tag d (r.fld 80 1)
      (t.streamEngines (State.boundStream none tag r.queue d (target.getD 0) (r.fld 80 1) [])) = none) :
    u.bindBlock k r tag rec_ target d = (t.bindStream rec_ tag r.queue (((u.queue? r.queue).map (·.homeb)).getD false) d
      (target.getD 0) (r.fld 80 1)).okReq k (BitVec.ofNat 64 rec_) 0 := by
  have hkind : ¬(field d 0 1 = 0 ∨ 4 < field d 0 1) := by omega
  unfold State.bindBlock
  simp only [hres, if_neg hkind, htarget, hvalid, ← ht, hhome]

end Bind

section SiteBind

variable {s u : State} {k : ReqKey} {r : Request} {source : SourceFind} {tag : BitVec 24} {rec_ len : Nat}
  {target : Option Nat} {d : Bytes}

/-- R409: SITE_BIND of a free record and a target, whose block can be read and reads clean, goes by its block. -/
theorem State.siteBind_reads (hq : s.ready? k Op.siteBind = some r) (htag : tag = State.payloadTag r) (hrec : rec_ = r.fld 60 4)
    (hbind : bitAt (r.fld 59 1) 0 = false) (hlive : s.tagLive tag = true) (hfree : s.recordFree rec_ tag = true)
    (htarget : s.bindTarget tag (r.fld 64 8) = .ok target) (hhead : s.reachOk r (r.fld 72 8) 128 false = .ok ())
    (hup : s.transferUp (r.fld 72 8) = true) (hlen : len = State.paramLen (s.readSpace r (r.fld 72 8) 128))
    (hall : s.reachOk r (r.fld 72 8) len false = .ok ()) (hd : d = s.readSpace r (r.fld 72 8) len)
    (hs : s.shiftOver (2 ^ r.fld 80 1) = false) (hacc : s.accepts (r.fld 80 1) = true)
    (hmet : s.bindMet r tag d len source = (u, .clean)) :
    s.siteBind k source = u.bindBlock k r tag rec_ target d := by
  subst htag hrec hlen hd
  unfold State.siteBind
  simp only [hq, hbind, hlive, hfree, htarget, hhead, hup, hall, hs, hacc, hmet, Bool.false_eq_true, Bool.true_eq_false,
    if_false, and_false, or_self]

end SiteBind

section Unbind

variable {s : State} {k : ReqKey} {r : Request} (hq : s.ready? k Op.siteBind = some r) (hun : bitAt (r.fld 59 1) 0 = true)
  (hlive : s.tagLive (State.payloadTag r) = true)
include hq hun hlive

/-- R410: the owner of a record releases it. -/
theorem State.siteUnbind_releases {x : Stream} (hx : s.stream? (r.fld 60 4) = some x) (hst : x.state ≠ 0)
    (htag : x.tag = State.payloadTag r) :
    s.siteUnbind k = (s.releaseStream (r.fld 60 4)).okReq k (BitVec.ofNat 64 (r.fld 60 4)) 0 := by
  have hown : (s.stream? (r.fld 60 4)).any (fun x => decide (x.state ≠ 0) && x.tag == State.payloadTag r) = true := by
    simp [hx, hst, htag]
  simp only [State.siteUnbind, hq, hun, hlive, hown, Bool.true_eq_false, if_false, if_true]

/-- R410: a number that names no record is refused at byte 60. -/
theorem State.siteUnbind_none (hx : s.stream? (r.fld 60 4) = none) : s.siteUnbind k = s.refuse k (Refuse.field 60 0) := by
  simp only [State.siteUnbind, hq, hun, hlive, hx, Option.any_none, Bool.false_eq_true, Bool.true_eq_false, if_false]

end Unbind

/-- Settles O35: once its checks have passed in the order of log entry 26, the block that is read clean binds the record. -/
theorem siteBindAndUnbind : Obligations.SiteBindAndUnbind := by
  rintro s k r source hq _ _ rfl rfl
  refine ⟨?binds, fun hun hlive x hx hst htag => congrArg Host.Outcome.next (State.siteUnbind_releases hq hun hlive hx hst htag),
    fun hun hlive hx => congrArg Host.Outcome.next (State.siteUnbind_none hq hun hlive hx)⟩
  case binds =>
    intro hbind hlive hfree target d htarget hhead hup hall hd hs hacc u hmet hres h1 h4 sized mfmt hsized hvalid t ht hhome
    refine congrArg Host.Outcome.next (Eq.trans
      (State.siteBind_reads hq rfl rfl hbind hlive hfree htarget hhead hup rfl hall hd hs hacc hmet) ?_)
    exact State.bindBlock_binds hres h1 h4 hsized hvalid ht hhome

section Policy

variable {s : State} {k : ReqKey} {r : Request} {o : GroupOwner}

/-- R171: SCALE_POLICY sets the policy of the group that it names, or clears it. -/
theorem State.scalePolicy_sets (hq : s.ready? k Op.scalePolicy = some r) (ho : s.policyGroup r = .ok o) (areaOk : Bool) :
    (bitAt (r.fld 57 1) 0 = false → s.scalePolicy k areaOk = (s.setPolicy o none areaOk).okReq k 0 0) ∧
    (bitAt (r.fld 57 1) 0 = true → s.scalePolicy k areaOk = (s.setPolicy o (some
      { n := r.fld 58 1, floor := BitVec.ofNat 16 (r.fld 60 2), ceil := BitVec.ofNat 16 (r.fld 62 2) }) areaOk).okReq k 0 0) := by
  constructor <;> intro hset <;> simp only [State.scalePolicy, hq, ho, hset, Bool.false_eq_true, if_true, if_false]

/-- R165, R172, R173: a decision closes the block of its group with the scales that it leaves. -/
theorem State.policyDecision_closes {le base : Nat} {g : Group} {p : Policy} {rs : List (Nat × Chan × Nat)}
    (hg : (s.groups.find? fun g => decide (g.le = le) && decide (g.gbase = base) && g.awaiting) = some g)
    (hp : g.policy = some p) (hstop : g.stopped = true → rs = g.chans.map fun c => (0, c, 0))
    (hrun : g.stopped = false → rs = mapIdxFrom (g.decide1 p) 0 g.chans) (areaOk : Bool) :
    s.policyDecision le base areaOk = (s.updGroup g.owner fun _ =>
      { g with
        awaiting := false, chans := rs.map (·.2.1)
        dropped := g.dropped + (rs.map (·.2.2)).sum }).closeBlock g.owner (rs.map (·.1)) areaOk := by
  have hrs : (if g.stopped then g.chans.map fun c => (0, c, 0) else mapIdxFrom (g.decide1 p) 0 g.chans) = rs := by
    cases h : g.stopped with
    | true => exact (hstop h).symm
    | false => exact (hrun h).symm
  simp only [State.policyDecision, hg, hp, hrs]

end Policy

/-- Settles O36: a SCALE_POLICY of a group that it may name, and a decision that the group awaits. -/
theorem scalePolicyActs : Obligations.ScalePolicyActs := by
  refine ⟨fun s k r areaOk o hq ho => ⟨?clears, ?sets⟩, ?decides⟩
  case clears => exact fun h => congrArg Host.Outcome.next ((State.scalePolicy_sets hq ho areaOk).1 h)
  case sets => exact fun h => congrArg Host.Outcome.next ((State.scalePolicy_sets hq ho areaOk).2 h)
  case decides =>
    exact fun s le base areaOk g p hg hp rs hstop hrun =>
      congrArg Host.Outcome.next (State.policyDecision_closes hg hp hstop hrun areaOk)

section Stream

variable {s t : State} {g g' : Group} {n : Nat} {x : Stream} {y : Sample} {rest : List Sample} {les : List Nat}
  (hg : s.converts g = true) (hx : s.stream? n = some x) (hgrp : s.group? (.stream n) = some g) (hbuf : x.buffer = y :: rest)
  (hst : x.state = 1) (hkind : x.kind = 1 ∨ x.kind = 2) (hserved : s.served x.tag = true) (hles : les = s.streamEngines x)
  (hroute : s.vectorRouted g les = true) (ht : t = s.updStream n (fun z => { z with buffer := rest }))
include hg hx hgrp hbuf hst hkind hserved hles hroute ht

/-- R414-R416: the front sample of a bound record is converted and goes to the store or waits at the model. -/
theorem State.convertStream_ok {vs : List Int} (hconv : g.convert y.block y.raws x.width = .ok (vs, g')) {areaOk : Bool}
    {u : State} (hu : u = ((t.putGroup g' g.block areaOk).bump (.controller g.le) none 1).sendVector x.target g les
      (State.vectorBytes (State.elemBytes g) vs)) :
    s.convertStream n areaOk = if x.kind = 1 then u.streamAppend n x g vs y.stamp else u.streamBias n x vs := by
  have hkind2 : ¬2 < x.kind := by omega
  simp only [State.convertStream, hx, hgrp, hbuf, hst, hkind2, hserved, hg, ← hles, hroute, ← ht, hconv, ← hu, ne_eq,
    not_true_eq_false, Bool.true_eq_false, or_self, if_false]

/-- R416: a sample whose block the group cannot take stops the record. -/
theorem State.convertStream_error {e : TagMiss} (hconv : g.convert y.block y.raws x.width = .error (e, g')) (areaOk : Bool) :
    s.convertStream n areaOk = (t.updGroup g.owner fun _ => g').stopStream n := by
  have hkind2 : ¬2 < x.kind := by omega
  simp only [State.convertStream, hx, hgrp, hbuf, hst, hkind2, hserved, hg, ← hles, hroute, ← ht, hconv, ne_eq,
    not_true_eq_false, Bool.true_eq_false, or_self, if_false]

end Stream

/-- R416: a record that stops drops and counts the samples that it has still buffered. -/
theorem State.stopStream_stream? (s : State) (n : Nat) : (s.stopStream n).stream? n = (s.stream? n).map fun x =>
    { x with state := 2, full := satAdd 8 x.full x.buffer.length, buffer := [] } :=
  stream?_updStream (s.updGroup (.stream n) fun g => { g with stopped := true }) n _

/-- R170: the next raw sample of an APPEND is converted for its request. -/
theorem State.convertRequest_append {s : State} {g g' : Group} {vs : List Int} {k : ReqKey} {r : Request} {a : AppendWork}
    {number : Nat} {raws : Bytes} {rest : List (Nat × Bytes)} {h : Store} {les : List Nat}
    (hg : s.converts g = true) (hr : s.req? k = some r) (ha : r.append = some a) (hsam : r.samples = (number, raws) :: rest)
    (hop : r.op = Op.append) (hgrp : s.group? (.model a.store (r.fld 82 2)) = some g) (hst : s.store? a.store = some h)
    (hdis : r.state = .dispatched) (hserved : s.served r.tag = true)
    (hles : les = State.enginesOf (((s.model? a.store).map (·.mask)).getD 0)) (hroute : s.vectorRouted g les = true)
    (hconv : g.convert number raws h.width = .ok (vs, g')) (areaOk : Bool) :
    s.convertRequest k areaOk = ((((s.putGroup g' g.block areaOk).bump (.controller g.le) none 1).sendVector a.store g les
      (State.vectorBytes (State.elemBytes g) vs)).updReq k fun r => { r with samples := rest }).appendNext k vs := by
  simp only [State.convertRequest, hr, ha, hsam, hop, if_true, hgrp, hst, hdis, hserved, hg, ← hles, hroute, hconv, ne_eq,
    not_true_eq_false, Bool.true_eq_false, or_self, if_false]

/-- Settles O37: the group takes the block of the sample or it does not; an APPEND's sample goes on for its request. -/
theorem sampleConversionActs : Obligations.SampleConversionActs := by
  refine fun s g g' vs areaOk hg => ⟨?stream, s.stopStream_stream?, ?request⟩
  case stream =>
    intro n x y rest t les hx hgrp hbuf hst hkind hserved hles hroute ht
    refine ⟨fun hconv u hu => ?_, fun e hconv => congrArg Host.Outcome.next
      (State.convertStream_error hg hx hgrp hbuf hst hkind hserved hles hroute ht hconv areaOk)⟩
    have h := State.convertStream_ok hg hx hgrp hbuf hst hkind hserved hles hroute ht hconv hu
    exact ⟨fun h1 => congrArg Host.Outcome.next (h.trans (if_pos h1)),
      fun h2 => congrArg Host.Outcome.next (h.trans (if_neg (by omega)))⟩
  case request =>
    exact fun k r a number raws rest h les hr ha hsam hop hgrp hst hdis hserved hles hroute hconv => congrArg Host.Outcome.next
      (State.convertRequest_append hg hr ha hsam hop hgrp hst hdis hserved hles hroute hconv areaOk)

end Sys2Proof.Machine
end

section
/-! Frames and lanes of the site port (15 R406-R408, R411-R413, R417-R422; Table 15.15). -/

namespace Sys2Proof.Machine

section Arrival

variable {s t : State} {l : Nat} {f : SiteFrame} {n : Nat} {x : Stream}

/-- R406: a frame of more than 9,216 bytes is discarded and counted. -/
theorem State.arrive_long (hup : s.laneUp l = true) (hlen : 9216 < State.frameLength f) :
    s.arrive l f = ((s.atInstant f.now).discard l, none) := by
  simp only [State.arrive, hup, hlen, Bool.true_eq_false, if_false, if_true]

variable (hup : s.laneUp l = true) (hlen : State.frameLength f ≤ 9216) (hded : (s.atInstant f.now).dedup l f = (t, false))
include hup hlen hded

/-- R407: a frame that matches no record is discarded and counted. -/
theorem State.arrive_unmatched (hm : t.matching f = none) : s.arrive l f = (t.discard l, none) := by
  simp only [State.arrive, hup, Nat.not_lt.2 hlen, hded, hm, Bool.true_eq_false, Bool.false_eq_true, if_false]

/-- R411: a frame of another generation of its record is counted STALE. -/
theorem State.arrive_stale (hm : t.matching f = some (n, x)) (hgen : x.gen ≠ field f.payload 5 1) :
    s.arrive l f = (t.updStream n fun y => { y with stale := satInc 8 y.stale }, none) := by
  simp only [State.arrive, hup, Nat.not_lt.2 hlen, hded, hm, hgen, ne_eq, not_false_eq_true, Bool.true_eq_false,
    Bool.false_eq_true, if_false, if_true]

/-- R407: a frame of the record's generation is for the record. -/
theorem State.arrive_matched (hm : t.matching f = some (n, x)) (hgen : x.gen = field f.payload 5 1) :
    s.arrive l f = (t, some (n, x)) := by
  simp only [State.arrive, hup, Nat.not_lt.2 hlen, hded, hm, hgen, ne_eq, not_true_eq_false, Bool.true_eq_false,
    Bool.false_eq_true, if_false]

end Arrival

section Frames

variable {s t : State} {l : Nat} {f : SiteFrame} {n : Nat} {x : Stream}

/-- A frame that is for no record leaves what its arrival leaves. -/
theorem State.inbound_none (h : s.arrive l f = (t, none)) : s.sampleSegment l f = t ∧ s.scaleRecords l f = t := by
  constructor
  · simp only [State.sampleSegment, h]
  · simp only [State.scaleRecords, h]

variable (h : s.arrive l f = (t, some (n, x)))
include h

/-- R412, R413: a segment whose header and range are right joins the sample under way. -/
theorem State.sampleSegment_joins (hhead : State.badHeader f.payload 1 = false) (hkind : x.kind ≤ 2)
    (hfirst : field f.payload 12 4 < x.width) (hrange : field f.payload 12 4 + field f.payload 26 2 ≤ x.width)
    (hlong : 32 + field f.payload 26 2 * x.rawWidth ≤ f.payload.length) :
    s.sampleSegment l f = t.updStream n fun y => y.segment (field f.payload 8 4) (field f.payload 6 2)
      (field f.payload 12 4) (field f.payload 26 2) (f.payload.drop 32) f.now (t.heldSamples n x) := by
  simp only [State.sampleSegment, h, hhead, decide_eq_false (Nat.not_lt.2 hkind), decide_eq_false (Nat.not_le.2 hfirst),
    decide_eq_false (Nat.not_lt.2 hrange), decide_eq_false (Nat.not_lt.2 hlong), Bool.or_self, Bool.false_eq_true, if_false]

/-- R417: scale records that are all right enter the queue of the data record's group together. -/
theorem State.scaleRecords_enter {g g' : Group} (hhead : State.badHeader f.payload 2 = false) (hkind : x.kind = 3)
    (hzero : field f.payload 12 4 = 0) (hlong : 32 + 16 * field f.payload 26 2 ≤ f.payload.length)
    (hg : t.group? (.stream (x.p 56 2)) = some g) (hstop : g.stopped = false)
    (hok : ∀ r ∈ State.messageRecords f.payload (field f.payload 26 2), scaleRecordBad g.chans.length r = none)
    (hq : g.queueRecords ((State.messageRecords f.payload (field f.payload 26 2)).map scaleRecord) = .ok g') :
    s.scaleRecords l f = t.updGroup (.stream (x.p 56 2)) fun _ => g' := by
  have hnone : ((State.messageRecords f.payload (field f.payload 26 2)).any fun r =>
      (scaleRecordBad g.chans.length r).isSome) = false := by
    rw [List.any_eq_false]
    intro r hr
    simp [hok r hr]
  simp only [State.scaleRecords, h, hhead, hkind, hzero, decide_eq_false (Nat.not_lt.2 hlong), ne_eq, not_true_eq_false,
    decide_false, Bool.or_self, Bool.false_eq_true, if_false, hg, hstop, hnone, hq]

end Frames

/-- Settles O38: where a frame is for is said by its arrival, and its header and range say what it does (log entry 33). -/
theorem inboundFrames : Obligations.InboundFrames := by
  refine fun s l f hup => ⟨?long, fun hlen t hded => ⟨?unmatched, ?stale, ?segment, ?records⟩⟩
  case long =>
    intro hlen
    obtain ⟨hs, hr⟩ := State.inbound_none (State.arrive_long hup hlen)
    exact ⟨congrArg Host.Outcome.next hs, congrArg Host.Outcome.next hr⟩
  case unmatched =>
    intro hm
    obtain ⟨hs, hr⟩ := State.inbound_none (State.arrive_unmatched hup hlen hded hm)
    exact ⟨congrArg Host.Outcome.next hs, congrArg Host.Outcome.next hr⟩
  case stale =>
    intro n x hm hgen
    obtain ⟨hs, hr⟩ := State.inbound_none (State.arrive_stale hup hlen hded hm hgen)
    exact ⟨congrArg Host.Outcome.next hs, congrArg Host.Outcome.next hr⟩
  case segment =>
    exact fun n x hm hgen hhead hkind hfirst hrange hlong => congrArg Host.Outcome.next
      (State.sampleSegment_joins (State.arrive_matched hup hlen hded hm hgen) hhead hkind hfirst hrange hlong)
  case records =>
    exact fun n x g g' hm hgen hhead hkind hzero hlong hg hstop hok hq => congrArg Host.Outcome.next
      (State.scaleRecords_enter (State.arrive_matched hup hlen hded hm hgen) hhead hkind hzero hlong hg hstop hok hq)

section Lanes

variable {s t : State} {l : Nat}

/-- R406: what a responder of a lane that is up sends. -/
theorem State.respond_up (hup : s.laneUp l = true) (kind : Responder) (request : List Byte) : s.respond l kind request =
    { s with st := { s.st with out := s.st.out ++ [⟨l, State.responderKind kind, s.st.time, none, request⟩] } } :=
  if_pos hup

/-- R408: a gPTP message steers the timebase, which takes its time from the lane that it follows. -/
theorem State.ptpMessage_up (hup : s.laneUp l = true) (slave : Bool) (time : Nat)
    (ht : t = (s.updSiteLane l fun n => { n with slave := slave }).steer) : s.ptpMessage l slave time =
      if t.st.tstate = l + 1 then { t with st := { t.st with time := time / 8 * 8 } } else t := by
  subst ht
  exact if_pos hup

/-- R407: PRP supervision leaves on both LANs under one sequence number. -/
theorem State.prpSupervision_sends (h : s.prpLanes ≠ []) : s.prpSupervision = { s with st := { s.st with
    prpSeq := (s.st.prpSeq + 1) % 65536
    out := s.st.out ++ s.prpLanes.map fun l => ⟨l, 1, s.st.time, some s.st.prpSeq, slice s.rs.option (24 + 6 * l) 6⟩ } } :=
  if_neg (by simpa using h)

/-- A lane of a site port that is down and has its clock comes up. -/
theorem State.siteLaneUp_up (hl : l < 2) (hdown : (s.siteLane l).state = 1) (hclk : s.rs.clkSite = true) :
    s.siteLaneUp l = s.updSiteLane l fun n => { n with state := 2 } :=
  if_pos (by simp [hl, hdown, hclk])

/-- R422: an edge of a discrete input is recorded with its instant, and signalled where it is enabled. -/
theorem State.siteDiEdge_records {bit : Nat} {level : Bool} {now : Nat} (hb : bit < 8)
    (hedge : bitAt s.st.diLevel.toNat bit = !level)
    (ht : t = { s with st := { s.st with
      time := now / 8 * 8
      diLevel := if level then s.st.diLevel ||| BitVec.ofNat 8 (2 ^ bit) else s.st.diLevel &&& ~~~(BitVec.ofNat 8 (2 ^ bit))
      diLast := bit, diEdge := true, diTs := BitVec.ofNat 44 (now / 8) } }) :
    s.siteDiEdge bit level now = if bitAt s.st.diEdgeEn.toNat bit then t.eventSignal else t := by
  subst ht
  exact if_neg (by simp [hedge]; omega)

/-- R418-R420: the setpoint that may leave goes out on its lane, and is gone once it has left on each of its lanes. -/
theorem State.setpointSend_sends {now : Nat} {y : Setpoint} {x : Stream} {done : Nat} (hup : s.laneUp l = true)
    (h : [7, 6, 5, 4, 3, 2, 1, 0].findSome? (fun q => (s.atInstant now).maySend l q (State.instant now)) = some (y, x, done)) :
    s.setpointSend l now = ((State.updSiteLane
      { s with st := { s.st with
        time := State.instant now
        out := s.st.out ++ [⟨l, 0, State.instant now, y.rct,
          State.setpointPayload x y (State.instant now) (decide (s.st.tstate = 3))⟩]
        setpoints := s.st.setpoints.filterMap fun z =>
          if z = y then
            (if (y.lanes.filter fun m => decide (m ≠ l)).isEmpty then none
             else some { z with lanes := y.lanes.filter fun m => decide (m ≠ l) })
          else some z } } l fun n => { n with busyTill := done }).updStream y.recNo fun z =>
        { z with lastOut := some (State.firstRaw x y) }) := by
  unfold State.setpointSend
  simp only [hup, h, Bool.true_eq_false, if_false]
  rfl

/-- Table 15.15: the entry of the lane's cycle at the end of an interval comes into force. -/
theorem State.gateListEntry_enters {now total k left : Nat} {cycle : List (Nat × Nat)} (hl : l < 2)
    (hc : cycle = State.cycleOf (s.siteLane l).gcl) (htot : total = (cycle.map (·.2)).sum) (h0 : total ≠ 0)
    (hat : State.entryAt 0 cycle (State.instant now % total) = (k, left)) :
    s.gateListEntry l now = (s.atInstant now).updSiteLane l fun n =>
      { n with gclAt := k, gclNext := State.instant now + left } := by
  subst hc htot
  simp only [State.gateListEntry, Nat.not_le.2 hl, h0, hat, if_false]

end Lanes

/-- Settles O39: each event of a lane takes its lemma; of several queues the highest number sends first (log entry 33). -/
theorem siteLanesAndSetpoints : Obligations.SiteLanesAndSetpoints := by
  refine ⟨fun s l => ⟨?respond, ?discard, ?ptp, ?prp, ?down, ?up, ?edge⟩, fun s l now => ⟨?sends, ?gate⟩⟩
  case respond => exact fun hup kind request => congrArg Host.Outcome.next (State.respond_up hup kind request)
  case discard => exact fun hup => congrArg Host.Outcome.next (if_pos hup)
  case ptp => exact fun hup slave time t ht => congrArg Host.Outcome.next (State.ptpMessage_up hup slave time ht)
  case prp => exact fun h => congrArg Host.Outcome.next (State.prpSupervision_sends h)
  case down => exact fun hup => congrArg Host.Outcome.next (if_pos hup)
  case up => exact fun hl hdown hclk => congrArg Host.Outcome.next (State.siteLaneUp_up hl hdown hclk)
  case edge => exact fun bit level now t hb hedge ht => congrArg Host.Outcome.next (State.siteDiEdge_records hb hedge ht)
  case sends => exact fun y x done hup h => congrArg Host.Outcome.next (State.setpointSend_sends hup h)
  case gate =>
    exact fun cycle total k left hl hc htot h0 hat => congrArg Host.Outcome.next (State.gateListEntry_enters hl hc htot h0 hat)

end Sys2Proof.Machine
end

section
/-! The memory hubs, and the accesses of common SRAM (12 R330-R348, R352; 13 R367). -/

namespace Sys2Proof.Machine

section Hubs

variable {s t u : State} {k : Nat}

/-- R332: a patrol read counts the pass at the last unit of its package. -/
theorem State.hubScrub_reads (hs : s.pkgServed k = true) (hon : s.scrubs = true) {unit : Nat} {read : ScrubRead}
    (hu : unit < State.packageUnits (s.pkg k)) (ht : t = s.scrubUnit k unit read) :
    s.hubScrub k unit read = if unit + 1 = State.packageUnits (s.pkg k) then
      t.updPkg k fun p => { p with passes := satInc 16 p.passes } else t := by
  subst ht
  exact if_neg (by simp [hs, hon, hu])

/-- R330, R331: a unit still bad from before is noted again. -/
theorem State.scrubUnit_stillBad {unit : Nat} {read : ScrubRead} {b : Burst} (h : s.stillBad k unit read.place = some b) :
    s.scrubUnit k unit read = s.noteBurst b 0 := by
  simp only [State.scrubUnit, h]

/-- R330, R331: a unit that is not bad from before is rewritten; a bad read is noted, a corrected one counted. -/
theorem State.scrubUnit_fresh {unit : Nat} {read : ScrubRead} {b : Burst} (h : s.stillBad k unit read.place = none)
    (ht : t = s.updPkg k (Package.rewriteUnit unit))
    (hb : b = { pkg := k, unit := unit, place := read.place, double := read.double, atag := read.atag }) :
    s.scrubUnit k unit read =
      if burstBad b then t.noteBurst b 0 else if read.corrected then t.countBurstCorr k else t := by
  subst ht hb
  simp only [State.scrubUnit, h]

/-- R337: a channel found failed of a package that is served is one that the package can bear, or fails it. -/
theorem State.channelFailure_found {ch rate : Nat} {parity : Bool} (hk : k < 32) (hch : ch < 4)
    (hst : (s.pkg k).state = 0 ∨ (s.pkg k).state = 1) (hok : bitAt (s.pkg k).failch.toNat ch = false)
    (hfail : State.channelFailed (s.pkg k) ch parity = true) : s.channelFailure k ch rate parity =
      if (s.pkg k).state = 1 ∨ 3 ≤ rate then
        State.packageLost (s.updPkg k fun p => { p with failch := p.failch ||| BitVec.ofNat 4 (2 ^ ch) }) k
      else
        ((s.ctxsIn k).foldl (fun t id => t.noteContext (t.tagOf id) 0x6 k 0 0)
          (((((s.runs.filter (State.writesInto k)).foldl (State.failTransfer k) s).modelsIn k).foldl (State.loseModel 0 k)
            ((s.runs.filter (State.writesInto k)).foldl (State.failTransfer k) s)).releasePages k)).eventSignal.resumeRuns.updPkg k
              (State.degrade ch (s.cappedRate rate)) :=
  if_neg (by simp [hok, hfail]; omega)

/-- R337-R339: the first channel found failed costs the contexts of the package their work and retrains it. -/
theorem State.channelFailure_first {ch rate : Nat} {parity : Bool} (hk : k < 32) (hch : ch < 4) (hst : (s.pkg k).state = 0)
    (hok : bitAt (s.pkg k).failch.toNat ch = false) (hrate : rate < 3)
    (hfail : parity = true ∨ ch ∈ (s.pkg k).recurred ∨ 4 ≤ ((s.pkg k).bursts.filter fun b => decide (b.1 = ch)).length)
    (ht : t = (s.runs.filter (State.writesInto k)).foldl (State.failTransfer k) s)
    (hu : u = (t.modelsIn k).foldl (State.loseModel 0 k) t) :
    s.channelFailure k ch rate parity = ((s.ctxsIn k).foldl (fun t id => t.noteContext (t.tagOf id) 6 k 0 0)
      (u.releasePages k)).eventSignal.resumeRuns.updPkg k fun p =>
        { p with
          state := 1, failch := p.failch ||| BitVec.ofNat 4 (2 ^ ch), rate := max rate (field s.rs.option 17 1)
          unclean := true, zeroing := 0, bad := [], rewritten := [], bursts := [], recurred := [] } := by
  have hfailed : State.channelFailed (s.pkg k) ch parity = true := by
    simpa [State.channelFailed, or_assoc] using hfail
  have hone : ¬((s.pkg k).state = 1 ∨ 3 ≤ rate) := by omega
  subst ht hu
  exact (State.channelFailure_found hk hch (.inl hst) hok hfailed).trans (if_neg hone)

/-- R340: a second failed channel fails its package. -/
theorem State.channelFailure_second {ch rate : Nat} {parity : Bool} (hk : k < 32) (hch : ch < 4) (hst : (s.pkg k).state = 1)
    (hok : bitAt (s.pkg k).failch.toNat ch = false) (hfail : State.channelFailed (s.pkg k) ch parity = true) :
    s.channelFailure k ch rate parity =
      State.packageLost (s.updPkg k fun p => { p with failch := p.failch ||| BitVec.ofNat 4 (2 ^ ch) }) k :=
  (State.channelFailure_found hk hch (.inr hst) hok hfail).trans (if_pos (.inl hst))

/-- R341: a hub that fails loses the engines of its half. -/
theorem State.hubFailed_loses :
    (s.hb.hubW ≠ 3 → s.hubFailed .west =
      (List.range 16).foldl (fun t i => t.loseEngine (0 + i)) { s with hb := { s.hb with hubW := 3 } }) ∧
    (s.hb.hubE ≠ 3 → s.hubFailed .east =
      (List.range 16).foldl (fun t i => t.loseEngine (16 + i)) { s with hb := { s.hb with hubE := 3 } }) :=
  ⟨fun h => if_neg h, fun h => if_neg h⟩

end Hubs

/-- Settles O40: a patrol read, the first and the second failed channel, and the failures of packages and hubs. -/
theorem hubsAndPackages : Obligations.HubsAndPackages := by
  refine fun s k => ⟨?patrol, fun unit read => ⟨fun b hb => State.scrubUnit_stillBad hb, ?fresh⟩, ?first, ?second, rfl, rfl,
    ?lost, fun h => congrArg Host.Outcome.next (State.hubFailed_loses.1 h),
    fun h => congrArg Host.Outcome.next (State.hubFailed_loses.2 h), fun h => congrArg Host.Outcome.next (if_pos h)⟩
  case patrol =>
    intro hs hon unit read hu t ht
    have h := State.hubScrub_reads hs hon hu ht
    exact ⟨fun hn => congrArg Host.Outcome.next (h.trans (if_neg hn)),
      fun hl => congrArg Host.Outcome.next (h.trans (if_pos hl))⟩
  case fresh =>
    intro h t b ht hb
    have hf := State.scrubUnit_fresh h ht hb
    exact ⟨fun hbad => by rw [hf, if_pos hbad], fun hgood hc => by simp only [hf, hgood, hc, Bool.false_eq_true, if_true, if_false],
      fun hgood hc => by simp only [hf, hgood, hc, Bool.false_eq_true, if_false]⟩
  case first =>
    exact fun ch rate parity hk hch hst hok hrate hfail t u ht hu =>
      congrArg Host.Outcome.next (State.channelFailure_first hk hch hst hok hrate hfail ht hu)
  case second =>
    exact fun ch rate parity hk hch hst hok hfail =>
      congrArg Host.Outcome.next (State.channelFailure_second hk hch hst hok hfail)
  case lost => exact fun hk hst => if_neg (by omega)

section Windows

/-- R344: the three windows of module space show the same bytes. -/
theorem State.csWindow_windows {o : Nat} (ho : o < 8388608) :
    State.csWindow (0x01000000 + o) = some (.plain, o) ∧ State.csWindow (0x01800000 + o) = some (.setBits, o) ∧
    State.csWindow (0x02000000 + o) = some (.clearBits, o) := by
  refine ⟨?_, ?_, ?_⟩ <;> unfold State.csWindow State.csBytes
  · rw [if_neg (by omega), if_pos (by omega)]
    exact congrArg (fun x => some (CsWindow.plain, x)) (by omega)
  · rw [if_neg (by omega), if_neg (by omega), if_pos (by omega)]
    exact congrArg (fun x => some (CsWindow.setBits, x)) (by omega)
  · rw [if_neg (by omega), if_neg (by omega), if_neg (by omega)]
    exact congrArg (fun x => some (CsWindow.clearBits, x)) (by omega)

end Windows

section Accesses

variable {s u : State} {p : Port} {addr : Nat} {c : Instr}

/-- R347: an access that common SRAM takes while it is not being cleared proceeds at once, under its region's mode. -/
theorem State.csHold_open (hcl : u.cs.clearing = false) : u.csHold addr c = u.csAtBank c (u.csMode (State.csOffset addr)) :=
  if_neg (by simp [hcl])

/-- R352: while common SRAM is cleared an access is held with the mode that its region has now. -/
theorem State.csHold_held (hcl : u.cs.clearing = true) : u.csHold addr c =
    { u with cs := { u.cs with held := u.cs.held ++ [{ cmd := c, mode := u.csMode (State.csOffset addr) }] } } :=
  if_pos hcl

/-- R367: a write by a link that is up is taken where it fits its line, and else dropped. -/
theorem State.csWriteBy_up (hup : s.linkUp p = true) :
    (s.csReach = true → s.csWriteBy p addr true c = (s.wakeLink p).csHold addr c) ∧
    s.csWriteBy p addr false c = (s.wakeLink p).dropAccess := by
  refine ⟨fun hr => ?_, ?_⟩ <;> simp only [State.csWriteBy, hup, Bool.true_eq_false, if_false]
  · exact if_pos (by simp [hr])
  · exact if_neg (by simp)

/-- R367: a read or an atomic by a link that is up is taken where it fits its line, and else answered with an error. -/
theorem State.csReadBy_up (hup : s.linkUp p = true) :
    (s.csReach = true → s.csReadBy p addr true c = (s.wakeLink p).csHold addr c) ∧
    s.csReadBy p addr false c = (s.wakeLink p).badAccess p := by
  refine ⟨fun hr => ?_, ?_⟩ <;> simp only [State.csReadBy, hup, Bool.true_eq_false, if_false]
  · exact if_pos (by simp [hr])
  · exact if_neg (by simp)

end Accesses

section Banks

variable {u : State} {p : Port} {addr off : Nat} {data : Bytes}

/-- R344: a write in the plain window stores its bytes, and a word that it covers is good again. -/
theorem State.csWriteAt_plain (hw : State.csWindow addr = some (.plain, off)) (find : WordFind) (mode : MemMode) :
    u.csWriteAt p addr data find mode = u.csPlainWrite off data := by
  simp only [State.csWriteAt, hw]

/-- R345: a write in an aliasing window is one of the bits that it sets or clears. -/
theorem State.csWriteAt_aliased {set : Bool} (hw : State.csWindow addr = some (if set then .setBits else .clearBits, off))
    (find : WordFind) (mode : MemMode) : u.csWriteAt p addr data find mode = u.csAliasWrite p set off data find mode := by
  cases set <;> simp only [State.csWriteAt, hw, Bool.false_eq_true, if_false, if_true]

/-- R345: outside a BITALIAS region an aliasing write is dropped and counted. -/
theorem State.csAliasWrite_drops {mode : MemMode} (hm : mode ≠ .bitalias) (set : Bool) (find : WordFind) :
    u.csAliasWrite p set off data find mode = { u with cs := { u.cs with aliasdrop := satInc 8 u.cs.aliasdrop } } :=
  if_pos hm

/-- R346: outside an ATOMIC region an atomic is answered with an error and counted. -/
theorem State.csAtomic_rejects {mode : MemMode} (hm : mode ≠ .atomic) (op : AtomicOp) (size : Nat) (value compare : W64)
    (find : WordFind) : u.csAtomic p op off size value compare find mode =
      State.answer { u with cs := { u.cs with atomrej := satInc 8 u.cs.atomrej } } p .error :=
  if_pos hm

/-- R346: an atomic over good words answers the old value and leaves the new one. -/
theorem State.csAtomic_clean {size : Nat} (hbad : u.csBad off size .clean = []) (op : AtomicOp) (value compare : W64) {old : Nat}
    (hold : old = leNat (Mem.bytes u.cs.mem off size)) : u.csAtomic p op off size value compare .clean .atomic =
      (u.csStore off (leBytes size (State.atomicNew op size old value.toNat compare.toNat))).answer p
        (.value (BitVec.ofNat 64 old)) := by
  subst hold
  have hfit : ¬(MemMode.atomic ≠ .atomic) := not_not.2 rfl
  simp only [State.csAtomic, if_neg hfit, hbad]
  rfl

/-- R344: a read over good words answers their bytes. -/
theorem State.csRead_clean {len : Nat} (hbad : u.csBad off len .clean = []) :
    u.csRead p off len .clean = u.answer p (.data (Mem.bytes u.cs.mem off len)) := by
  simp only [State.csRead, hbad]
  rfl

/-- R345: in a BITALIAS region an aliasing write over good words sets or clears the bits that are set in its data. -/
theorem State.csAliasWrite_writes (hbad : u.csBad off data.length .clean = []) (set : Bool) :
    u.csAliasWrite p set off data .clean .bitalias = { u with cs := { u.cs with
      mem := (List.range data.length).foldl (fun m i => Mem.put m (off + i)
        (if set then Mem.read m (off + i) ||| data.getD i 0 else Mem.read m (off + i) &&& ~~~(data.getD i 0))) u.cs.mem } } := by
  have hmode : ¬(MemMode.bitalias ≠ .bitalias) := not_not.2 rfl
  simp only [State.csAliasWrite, if_neg hmode, hbad, List.contains_nil, Bool.false_eq_true, if_false]
  rfl

end Banks

/-- Settles O41: an access that fits goes to its bank at once, or is held with its region's mode while common SRAM is
cleared. -/
theorem commonSramAccesses : Obligations.CommonSramAccesses := by
  refine ⟨⟨fun o ho => State.csWindow_windows ho, fun s u p hup hr hu hcl => ⟨?plain, ?aliased, ?atomic, ?read⟩⟩,
    fun s => ⟨?held, fun hcl => congrArg Host.Outcome.next (if_pos hcl), ?drops, ?answers⟩⟩
  case plain =>
    intro addr off data hfit hw
    refine congrArg Host.Outcome.next ?_
    rw [hfit, (State.csWriteBy_up hup).1 hr, ← hu, State.csHold_open hcl]
    exact State.csWriteAt_plain hw _ _
  case aliased =>
    intro set addr off data hfit hw
    have hat : ∀ find, s.csWriteBy p addr (State.csFits addr data.length) (.csramAliasWrite p addr data find) =
        u.csAliasWrite p set off data find (u.csMode off) := fun find => by
      rw [hfit, (State.csWriteBy_up hup).1 hr, ← hu, State.csHold_open hcl, State.csOffset_of hw]
      exact State.csWriteAt_aliased hw _ _
    refine ⟨fun hm find => congrArg Host.Outcome.next ((hat find).trans (State.csAliasWrite_drops hm set find)), fun hm hbad =>
      congrArg Host.Outcome.next ((hat .clean).trans ?_)⟩
    rw [hm]
    exact State.csAliasWrite_writes hbad set
  case atomic =>
    intro op addr off size value compare hsize hal hw
    have hfit : State.csAtomicFits addr size = true := by
      rcases hsize with rfl | rfl <;> simp [State.csAtomicFits, hal, hw]
    have hat : ∀ find, s.csReadBy p addr (State.csAtomicFits addr size) (.csramAtomic p op addr size value compare find) =
        u.csAtomic p op off size value compare find (u.csMode off) := fun find => by
      rw [hfit, (State.csReadBy_up hup).1 hr, ← hu, State.csHold_open hcl, ← State.csOffset_of hw]
      rfl
    refine ⟨fun hm find => congrArg Host.Outcome.next ((hat find).trans (State.csAtomic_rejects hm op size value compare find)),
      fun hm hbad old hold => congrArg Host.Outcome.next ((hat .clean).trans ?_)⟩
    rw [hm, State.csAtomic_clean hbad op value compare hold]
    cases op <;> rfl
  case read =>
    intro addr w off len hfit hw hbad
    refine congrArg Host.Outcome.next ?_
    rw [hfit, (State.csReadBy_up hup).1 hr, ← hu, State.csHold_open hcl]
    have h := State.csRead_clean (p := p) hbad
    rw [← State.csOffset_of hw] at h ⊢
    exact h
  case held =>
    intro p addr data hup hr hcl hfit
    refine congrArg Host.Outcome.next ?_
    rw [hfit, (State.csWriteBy_up hup).1 hr, State.csHold_held hcl]
  case drops =>
    intro p addr data hup hfit
    refine congrArg Host.Outcome.next ?_
    rw [hfit, (State.csWriteBy_up hup).2]
  case answers =>
    intro p addr len find hup hfit
    refine congrArg Host.Outcome.next ?_
    rw [hfit, (State.csReadBy_up hup).2]

end Sys2Proof.Machine
end

section
/-! Host and peer links: training, falling, replay, retraining and new keys (13 R353-R359, R364, R365, R372; 14 R379, R380). -/

namespace Sys2Proof.Machine

section Sessions

variable {s t : State} {p : Port} {far : BitVec 128} {key n : Bytes}

/-- R365: a link without encryption has no session. -/
theorem State.hostSession_plain (he : s.hostEncrypted p = false) : s.hostSession p far = some (none, s) := by
  simp only [State.hostSession, he]

/-- R365: the session of an encrypted host port comes of the far nonce and one of the generator. -/
theorem State.hostSession_keyed (he : s.hostEncrypted p = true) (hkey : s.hostKey p = some key)
    (hn : s.drawFw 16 = some (n, t)) : s.hostSession p far =
      some (some (State.session key far (BitVec.ofNat 128 (beNat n)) false 1), t) := by
  simp only [State.hostSession, he, hkey, hn, Option.map_some]

variable {l peer : Nat}

/-- R380: a peer link without encryption has no session. -/
theorem State.peerSession_plain (he : s.peerEncrypted l = false) : s.peerSession l peer far = some (none, s) := by
  simp only [State.peerSession, he]

/-- R380; log entry 12: the session of an encrypted peer link comes of both nonces, the lower node ID's first. -/
theorem State.peerSession_keyed (he : s.peerEncrypted l = true) (hkey : s.peerKey = some key)
    (hn : s.drawFw 16 = some (n, t)) : s.peerSession l peer far =
      some (some (if s.pr.nodeid < peer then State.session key (BitVec.ofNat 128 (beNat n)) far true 1
        else State.session key far (BitVec.ofNat 128 (beNat n)) false 1), t) := by
  simp only [State.peerSession, he, hkey, hn, Option.map_some]

end Sessions

section Training

variable {s t : State} {p : Port} (hmay : s.mayTrain (s.port p).state = true) (hw : s.hostWidth p ≠ 3)
include hmay hw

/-- R353, R354: a host port that may train and has what encryption needs goes by what its training met. -/
theorem State.hostTraining_trains (hkey : s.hostEncrypted p = true → s.hostKey p ≠ none) :
    s.hostTraining p .failed = s.hostTrainFailed p ∧
    ∀ width version base far sec, s.hostSession p far = some (sec, t) →
      s.hostTraining p (.trained width version base far) = t.hostUpWith p width version base sec := by
  have hno : (s.hostEncrypted p && (s.hostKey p).isNone) = false := by
    cases he : s.hostEncrypted p with
    | false => rfl
    | true => simpa [Option.isNone_eq_false_iff, Option.isSome_iff_ne_none] using hkey he
  refine ⟨?_, fun width version base far sec hsec => ?_⟩
  · simp only [State.hostTraining, hmay, hw, hno, Bool.true_eq_false, Bool.false_eq_true, or_self, if_false]
  · simp only [State.hostTraining, hmay, hw, hno, hsec, Bool.true_eq_false, Bool.false_eq_true, or_self, if_false]

/-- R365: an encrypted port without its key does not train. -/
theorem State.hostTraining_keyless (he : s.hostEncrypted p = true) (hkey : s.hostKey p = none) (tr : Training) :
    s.hostTraining p tr = s.setPort p { s.port p with state := .keyless } := by
  simp only [State.hostTraining, hmay, hw, he, hkey, Option.isNone_none, Bool.and_self, Bool.true_eq_false, or_self, if_false,
    if_true]

end Training

/-- R354, 09 R254: what a trained host port shows, and the watches that are installed again. -/
theorem State.hostUpWith_eq (s : State) (p : Port) (width version base : Nat) (sec : Option LinkSec) :
    s.hostUpWith p width version base sec = (s.fe.queues.map (·.1)).foldl State.keepWatch (s.setPort p { s.port p with
      state := .up, width := max (s.hostWidth p) (min width 2), ver := min version 1, base := base / 2 ^ 26 * 2 ^ 26
      attempts := 0, sec := sec, asked := 0, again := 0 }) := by
  cases p <;> rfl

section Down

variable {s t u : State} {p : Port}

/-- A count of failed tags of a port changes nothing that its fall looks at. -/
theorem State.setPort_tagfail (s : State) (p : Port) (n : Nat) (unacked : Nat) :
    (s.setPort p { s.port p with tagfail := n }).watchedBy p = s.watchedBy p ∧
    (s.setPort p { s.port p with tagfail := n }).lastSignals p unacked = s.lastSignals p unacked := by
  have hlink : ∀ q, (s.setPort p { s.port p with tagfail := n }).linkUp q = s.linkUp q := fun q => by cases p <;> cases q <;> rfl
  have hvia : ∀ q, (s.setPort p { s.port p with tagfail := n }).viaPort q = s.viaPort q := fun q => by
    simp only [State.viaPort, hlink]
  refine ⟨?_, by cases p <;> rfl⟩
  simp only [State.watchedBy, hvia, State.setPort_fe]

/-- R358, R359, R365, R372: a host link that is up and goes down. -/
theorem State.hostLinkDown_falls {tagFail : Bool} {unacked : Nat} (hup : s.linkUp p = true)
    (htag : tagFail = true → (s.port p).sec ≠ none)
    (ht : t = (s.setPort p { s.port p with
       tagfail := if tagFail then satInc 8 (s.port p).tagfail else (s.port p).tagfail
       state := .down, downs := satInc 8 (s.port p).downs, attempts := 0, asked := 0, again := 0 }).freeHasps p)
    (hother : s.dw.chalPort ≠ some p → u = t) (hown : s.dw.chalPort = some p → u = t.lapseChallenge) :
    s.hostLinkDown p tagFail unacked = State.eventSignal ((s.watchedBy p).foldl State.rewatch
      ((s.lastSignals p unacked).foldl (fun t v => t.sendSignal p v) u)) := by
  have hno : ¬(s.linkUp p = false ∨ (tagFail = true ∧ (s.port p).sec = none)) := by
    simp only [hup, Bool.true_eq_false, false_or, not_and]
    exact htag
  have hu : (if t.dw.chalPort = some p then t.lapseChallenge else t) = u := by
    have hdw : t.dw = s.dw := by subst ht; cases p <;> rfl
    rw [hdw]
    by_cases h : s.dw.chalPort = some p
    · rw [if_pos h, hown h]
    · rw [if_neg h, hother h]
  obtain ⟨hwatch, hsig⟩ := s.setPort_tagfail p (if tagFail then satInc 8 (s.port p).tagfail else (s.port p).tagfail) unacked
  have hport : ((s.setPort p { s.port p with
      tagfail := if tagFail then satInc 8 (s.port p).tagfail else (s.port p).tagfail }).setPort p
        { (s.setPort p { s.port p with
            tagfail := if tagFail then satInc 8 (s.port p).tagfail else (s.port p).tagfail }).port p with
          state := .down, attempts := 0
          downs := satInc 8 ((s.setPort p { s.port p with
            tagfail := if tagFail then satInc 8 (s.port p).tagfail else (s.port p).tagfail }).port p).downs
          asked := 0, again := 0 }).freeHasps p = t := by
    subst ht; cases p <;> rfl
  refine (if_neg hno).trans ?_
  unfold State.hostLost State.hostDown State.resend
  simp only [hwatch, hsig, hport, hu]

/-- R372: no Hasp is held by a port whose Hasps were freed. -/
theorem State.freeHasps_free (s : State) (p : Port) (n : Nat) : (s.freeHasps p).hp.hasps.getD n none ≠ some p := by
  have hh : (s.freeHasps p).hp.hasps = s.hp.hasps.map fun h => if h = some p then none else h := by cases p <;> rfl
  rw [hh, List.getD_eq_getElem?_getD, List.getElem?_map]
  cases s.hp.hasps[n]? with
  | none => simp
  | some h =>
    by_cases hp : h = some p <;> simp [hp]

end Down

/-- Settles O43: a training ends by what it met and by the key that the port has, and a link that falls gives up what it
held. -/
theorem hostLinks : Obligations.HostLinks := by
  refine ⟨fun s p hmay hw => ⟨?plain, fun he hkey t => congrArg Host.Outcome.next (State.hostTraining_keyless hmay hw he hkey t),
    ?keyed, ?fails⟩, fun s p tagFail unacked t hup htag ht => ⟨?down, ?free⟩⟩
  case plain =>
    intro he width version base n
    refine congrArg Host.Outcome.next (((State.hostTraining_trains hmay hw (by simp [he])).2 width version base n none
      (State.hostSession_plain he)).trans ?_)
    exact s.hostUpWith_eq p width version base none
  case keyed =>
    intro he key n t hkey hn width version base far
    exact congrArg Host.Outcome.next ((State.hostTraining_trains hmay hw (by simp [hkey])).2 width version base far _
      (State.hostSession_keyed he hkey hn))
  case fails =>
    exact fun he => congrArg Host.Outcome.next (State.hostTraining_trains (t := s) hmay hw (by simp [he])).1
  case down =>
    exact fun u hother hown => congrArg Host.Outcome.next (State.hostLinkDown_falls hup htag ht hother hown)
  case free =>
    intro n
    rw [ht]
    exact State.freeHasps_free _ p n

section Replay

variable {s t u : State} {p : Port} {l unacked : Nat}

/-- R356: flits of a host link that are asked for again are counted. -/
theorem State.flitReplay_host {seq newest : BitVec 10} (hup : s.linkUp p = true) (hn : (newest - seq).toNat + 1 ≤ 128) :
    s.flitReplay (.host p) seq newest = s.setPort p { s.port p with
      replay := satAdd 16 (s.port p).replay ((newest - seq).toNat + 1), asked := seq
      again := if (s.port p).asked = seq then (s.port p).again + 1 else 1 } := by
  have hno : ¬128 < State.replayed seq newest := Nat.not_lt.2 hn
  simp only [State.flitReplay, if_neg hno, if_pos hup]
  rfl

/-- R356: flits of a peer link that are asked for again are counted. -/
theorem State.flitReplay_peer {seq newest : BitVec 10} (hup : s.peerUp l = true) (hn : (newest - seq).toNat + 1 ≤ 128) :
    s.flitReplay (.peer l) seq newest = s.updPeer l fun x =>
      { x with
        replay := satAdd 16 x.replay ((newest - seq).toNat + 1), asked := seq
        again := if x.asked = seq then x.again + 1 else 1 } := by
  have hno : ¬128 < State.replayed seq newest := Nat.not_lt.2 hn
  simp only [State.flitReplay, if_neg hno, if_pos hup]
  rfl

/-- R357, R358: a host link that retrains counts it, and stays up with what both ends settle or goes down. -/
theorem State.retrain_host (hup : s.linkUp p = true) (ha : 8 ≤ (s.port p).again)
    (ht : t = s.setPort p { s.port p with retrain := satInc 8 (s.port p).retrain, again := 0 }) :
    (∀ width version base far sec, t.hostSession p far = some (sec, u) →
      s.retrain (.host p) (.trained width version base far) unacked = u.setPort p (u.trainedPort p width version sec)) ∧
    s.retrain (.host p) .failed unacked = t.hostLost p unacked := by
  subst ht
  have hgo : (s.linkUp p && decide (8 ≤ (s.port p).again)) = true := by simp [hup, ha]
  refine ⟨fun width version base far sec hsec => ?_, ?_⟩
  · simp only [State.retrain, hgo, if_true, hsec]
  · simp only [State.retrain, hgo, if_true]

/-- R357, R358: a peer link that retrains stays up with its new session or goes down. -/
theorem State.retrain_peer (hup : s.peerUp l = true) (ha : 8 ≤ (s.peer l).again) :
    (∀ width version base far sec, s.peerSession l (s.peer l).peer far = some (sec, u) →
      s.retrain (.peer l) (.trained width version base far) unacked =
        u.updPeer l fun x => { x with again := 0, asked := 0, sec := sec }) ∧
    s.retrain (.peer l) .failed unacked = s.peerLost l := by
  have hgo : (s.peerUp l && decide (8 ≤ (s.peer l).again)) = true := by simp [hup, ha]
  refine ⟨fun width version base far sec hsec => ?_, ?_⟩
  · simp only [State.retrain, hgo, if_true, hsec]
  · simp only [State.retrain, hgo, if_true]

variable {sec : LinkSec} {key n : Bytes} {far : BitVec 128}

/-- R365: an encrypted host link takes new keys from new nonces, in the next epoch. -/
theorem State.rekey_host (hup : s.linkUp p = true) (hsec : (s.port p).sec = some sec) (hkey : s.hostKey p = some key)
    (hn : s.drawFw 16 = some (n, t)) : s.rekey (.host p) far = t.setPort p { t.port p with
      sec := some (State.session key far (BitVec.ofNat 128 (beNat n)) false (sec.epoch + 1)) } := by
  simp only [State.rekey, hsec, hkey, hn, hup, if_true]

/-- R365, R380; log entry 12: an encrypted peer link takes new keys, the nonce of the lower node ID first. -/
theorem State.rekey_peer (hup : s.peerUp l = true) (hsec : (s.peer l).sec = some sec) (hkey : s.peerKey = some key)
    (hn : s.drawFw 16 = some (n, t)) : s.rekey (.peer l) far = t.updPeer l fun x => { x with
      sec := some (if s.pr.nodeid < (s.peer l).peer then
        State.session key (BitVec.ofNat 128 (beNat n)) far true (sec.epoch + 1)
      else State.session key far (BitVec.ofNat 128 (beNat n)) false (sec.epoch + 1)) } := by
  simp only [State.rekey, hsec, hkey, hn, hup, if_true, decide_eq_true_eq]

end Replay

/-- Settles O44: host and peer links go by their own lemmas, with the session that both ends settle. -/
theorem replayRetrainRekey : Obligations.ReplayRetrainRekey := by
  refine fun s => ⟨fun p seq newest hup hn => congrArg Host.Outcome.next (State.flitReplay_host hup hn),
    fun l seq newest hup hn => congrArg Host.Outcome.next (State.flitReplay_peer hup hn), ?host, ?peer,
    fun p sec key n t far hup hsec hkey hn => congrArg Host.Outcome.next (State.rekey_host hup hsec hkey hn),
    fun l sec key n t far hup hsec hkey hn => congrArg Host.Outcome.next (State.rekey_peer hup hsec hkey hn)⟩
  case host =>
    intro p unacked hup ha t ht
    exact ⟨fun width version base far sec u hsec => congrArg Host.Outcome.next
        ((State.retrain_host hup ha ht).1 width version base far sec hsec),
      congrArg Host.Outcome.next (State.retrain_host (u := s) hup ha ht).2⟩
  case peer =>
    intro l unacked hup ha
    exact ⟨fun width version base far sec u hsec => congrArg Host.Outcome.next
        ((State.retrain_peer hup ha).1 width version base far sec hsec),
      congrArg Host.Outcome.next (State.retrain_peer (u := s) hup ha).2⟩

end Sys2Proof.Machine
end

section
/-! Registers, the sideband, the clocks and the checks of the management plane (13 R366-R371, R376; 20 R499, R505; 21 R514, R517;
11 R324). -/

namespace Sys2Proof.Machine

section Registers

variable {s u : State} {p : Port} {off : Nat}

/-- R367: an access of other than 64 aligned bits is dropped, or answered with an error. -/
theorem State.register_unfit {size : Nat} (hu : u = s.wakeLink p) (hbad : size ≠ 8 ∨ off % 8 ≠ 0)
    (ho : s.regReach p off = .open_) :
    (∀ v, s.registerWrite p off size v = u.dropAccess) ∧ s.registerRead p off size = u.badAccess p := by
  have hfit : State.regFits off size = false := by
    rcases hbad with h | h <;> simp [State.regFits, h]
  refine ⟨fun v => ?_, ?_⟩
  · rw [State.registerWrite, if_pos hfit, State.onWrite_open hu ho]
  · rw [State.registerRead, if_pos hfit, State.onRead_open hu ho]

variable (ha : off % 8 = 0) (hh : State.haspAt off = none)
include ha hh

/-- R366-R371: where no Hasp and no break stands, a write is of a register with its effect, or is dropped. -/
theorem State.registerWrite_eq (hb : off ≠ 0x1310) (v : W64) : s.registerWrite p off 8 v =
    if s.regThere p off = false then s.onWrite p off State.dropAccess
    else if State.rwlReg off then s.onRwl p off fun t => t.regWritten p off v.toNat
    else s.onWrite p off fun t => t.regWritten p off v.toNat := by
  have hfit : ¬State.regFits off 8 = false := by simp [State.regFits, ha]
  unfold State.registerWrite
  rw [if_neg hfit, hh]
  exact if_neg hb

variable (hr : State.rnAt off = none)
include hr

/-- R368, R499: where no Hasp and no window of the generator stands, a read gives the whole value and clears the RC fields. -/
theorem State.registerRead_value (hu : u = s.wakeLink p) (ho : s.regReach p off = .open_) :
    (∀ v, u.regValue (some p) off = some v → s.registerRead p off 8 = (u.regCleared (some p) off).answer p (.value v)) ∧
    (u.regValue (some p) off = none → s.registerRead p off 8 = u.badAccess p) := by
  have hfit : ¬State.regFits off 8 = false := by simp [State.regFits, ha]
  refine ⟨fun v hv => ?_, fun hv => ?_⟩ <;>
  · unfold State.registerRead
    simp only [if_neg hfit, hh, hr, State.onRead_open hu ho, hv]

/-- R376: during a core reset a read is answered RESETTING. -/
theorem State.registerRead_resetting (ho : s.regReach p off = .resetting) :
    s.registerRead p off 8 = (s.wakeLink p).answer p .resetting := by
  have hfit : ¬State.regFits off 8 = false := by simp [State.regFits, ha]
  unfold State.registerRead State.onRead
  simp only [if_neg hfit, hh, hr, ho]

end Registers

/-- R376: a write of a register during a core reset changes nothing but the link. -/
theorem State.onWrite_resetting {s : State} {p : Port} {off : Nat} (ho : s.regReach p off = .resetting) (f : State → State) :
    s.onWrite p off f = s.wakeLink p := by
  simp only [State.onWrite, ho]

/-- Settles O46: where no Hasp, break or window of the generator stands, a register stands at the offset or none does. -/
theorem registerAccesses : Obligations.RegisterAccesses := by
  refine fun s u p off hu ha hh hr hb => ⟨?free, ?held, ?locked, ?nowhere, ?value, ?novalue, ?resetting, ?unfit⟩
  case free =>
    intro v ho ht hl
    refine congrArg Host.Outcome.next ?_
    simp only [State.registerWrite_eq ha hh hb, ht, hl, Bool.true_eq_false, Bool.false_eq_true, if_false,
      State.onWrite_open hu ho]
  case held =>
    intro v ho ht hl hs
    refine congrArg Host.Outcome.next ?_
    simp only [State.registerWrite_eq ha hh hb, ht, hl, Bool.true_eq_false, if_false, if_true,
      onRwl_eq hu ho hs]
  case locked =>
    intro v ho ht hl hs
    refine congrArg Host.Outcome.next ?_
    simp only [State.registerWrite_eq ha hh hb, ht, hl, Bool.true_eq_false, if_false, if_true,
      State.onRwl_dropped hu ho hs]
  case nowhere =>
    intro v ho ht
    refine congrArg Host.Outcome.next ?_
    simp only [State.registerWrite_eq ha hh hb, ht, if_true, State.onWrite_open hu ho]
    rfl
  case value => exact fun v ho hv => congrArg Host.Outcome.next ((State.registerRead_value ha hh hr hu ho).1 v hv)
  case novalue => exact fun ho hv => congrArg Host.Outcome.next ((State.registerRead_value ha hh hr hu ho).2 hv)
  case resetting =>
    intro ho
    refine ⟨congrArg Host.Outcome.next ?_, fun v hl => congrArg Host.Outcome.next ?_⟩
    · rw [State.registerRead_resetting ha hh hr ho, hu]
    · rw [State.registerWrite_eq ha hh hb, hl, State.onWrite_resetting ho, State.onWrite_resetting ho, ← hu]
      simp
  case unfit =>
    intro at_ size hbad ho
    obtain ⟨hw, hrd⟩ := State.register_unfit hu hbad ho
    exact ⟨fun v => congrArg Host.Outcome.next (hw v), congrArg Host.Outcome.next hrd⟩

section Planes

variable {s : State}

/-- R324: the first management-plane fault stands in CX_GSTAT and drives nALERT; a later one changes nothing. -/
theorem State.managementFault_eq (s : State) (cause : Nat) :
    (s.cx.mpfault = false → s.managementFault cause =
      { s with cx := { s.cx with mpfault := true, mpcause := cause }, rs := { s.rs with alert := true } }) ∧
    (s.cx.mpfault = true → s.managementFault cause = s) :=
  ⟨fun h => if_neg (by simp [h]), fun h => if_pos h⟩

/-- R324: what the watchdog and the checks of a firmware that runs find is a management-plane fault. -/
theorem State.planeFinds (hp : s.rs.phase = 10) (hm : s.cx.mpfault = false) :
    s.watchdogExpired = s.managementFault 1 ∧ (s.now % 16 = 0 → s.crossCheck .coresDiffer = s.managementFault 2) ∧
    s.crossCheck .memoryBad = s.managementFault 3 := by
  have hf : s.firmwareRuns = true := by simp [State.firmwareRuns, hp, hm]
  have hno : ¬s.firmwareRuns = false := by simp [hf]
  exact ⟨if_pos hf, fun h => (if_neg hno).trans (if_pos h), if_neg hno⟩

/-- R514: the loss of TCXO_AON past order 2 of a start is a management-plane fault, and costs the hubs that run. -/
theorem State.tcxoLost_running {t : State} (hc : s.rs.clkTcxo = true)
    (ht : t = { s with rs := { s.rs with clkTcxo := false } }) :
    s.tcxoLost = if s.rs.phase ≤ 2 then t else ((t.managementFault 1).dropHub .west).dropHub .east := by
  subst ht
  exact if_neg (by simp [hc])

end Planes

/-- Settles O47: a clock that is lost drops what it drives (log entry 94), and what firmware finds (log entry 98) is a
management-plane fault. -/
theorem clocksAndManagementFaults : Obligations.ClocksAndManagementFaults := by
  refine fun s => ⟨fun hc => congrArg Host.Outcome.next (if_neg (by simp [hc])), ?site,
    fun hc t ht => congrArg Host.Outcome.next (State.tcxoLost_running hc ht), rfl, rfl, rfl, ?plane,
    fun cause => (s.managementFault_eq cause).2⟩
  case site =>
    rintro hc t rfl
    exact congrArg Host.Outcome.next (if_neg (by simp [hc]))
  case plane =>
    intro hp hm
    obtain ⟨hdog, hcores, hmem⟩ := State.planeFinds hp hm
    exact ⟨congrArg Host.Outcome.next (hdog.trans ((s.managementFault_eq 1).1 hm)),
      fun hn => congrArg Host.Outcome.next ((hcores hn).trans ((s.managementFault_eq 2).1 hm)),
      congrArg Host.Outcome.next (hmem.trans ((s.managementFault_eq 3).1 hm))⟩

section Sideband

variable {s : State} {off : Nat} {v : W64}

/-- R505: the sideband reads its own registers, and is refused all others. -/
theorem State.sidebandRead_checked :
    (State.sidebandReads.contains off = true → s.regValue none off = some v →
      s.sidebandRead off true = { s.regCleared none off with sideband := .status 0 v }) ∧
    (State.sidebandReads.contains off = false → s.sidebandRead off true = { s with sideband := .status 1 0 }) := by
  refine ⟨fun hin hv => ?_, fun hout => ?_⟩
  · simp only [State.sidebandRead, Bool.true_eq_false, if_false, hin, if_true, hv]
    rfl
  · simp only [State.sidebandRead, Bool.true_eq_false, Bool.false_eq_true, if_false, hout]
    rfl

end Sideband

/-- Settles O48: the check of the access comes first, then whether the sideband may make it. -/
theorem sidebandAccesses : Obligations.SidebandAccesses := by
  refine fun s off v => ⟨?reads, ?refused, rfl, rfl, ?other, rfl⟩
  case reads => exact fun hin hv => congrArg Host.Outcome.next (State.sidebandRead_checked.1 hin hv)
  case refused => exact fun hout => congrArg Host.Outcome.next ((State.sidebandRead_checked (v := v)).2 hout)
  case other => exact fun hne => congrArg Host.Outcome.next (if_neg hne)

end Sys2Proof.Machine
end

section
/-! Peer links, enumeration, and the messages of jobs that are dropped or passed on (14 R379-R387, R401; Table 14.1). -/

namespace Sys2Proof.Machine

section PeerLinks

variable {s t : State} {l peer : Nat}

section Training

variable (hen : s.peerEnabled l = true) (hmay : s.mayTrain (s.peer l).state = true)
include hen hmay

/-- R379, R380: a peer link that is enabled, may train and has what encryption needs goes by what its training met. -/
theorem State.peerTraining_trains (hkey : s.peerEncrypted l = true → s.peerKey ≠ none) :
    (s.peerTraining l .failed peer = s.updPeer l fun x =>
      { x with attempts := x.attempts + 1, state := if 3 ≤ x.attempts + 1 then .failed else .training }) ∧
    ∀ width version base far sec, s.peerSession l peer far = some (sec, t) →
      s.peerTraining l (.trained width version base far) peer = (t.updPeer l fun x =>
        { x with state := .up, peer := peer % 64, attempts := 0, sec := sec, asked := 0, again := 0 }).enumBeyond l := by
  have hno : (s.peerEncrypted l && s.peerKey.isNone) = false := by
    cases he : s.peerEncrypted l with
    | false => rfl
    | true => simpa [Option.isNone_eq_false_iff, Option.isSome_iff_ne_none] using hkey he
  refine ⟨?_, fun width version base far sec hsec => ?_⟩
  · simp only [State.peerTraining, hen, hmay, hno, Bool.true_eq_false, Bool.false_eq_true, or_self, if_false]
  · simp only [State.peerTraining, hen, hmay, hno, hsec, Bool.true_eq_false, Bool.false_eq_true, or_self, if_false]

/-- R380: an encrypted peer link without its key is KEYLESS. -/
theorem State.peerTraining_keyless (he : s.peerEncrypted l = true) (hkey : s.peerKey = none) (tr : Training) :
    s.peerTraining l tr peer = s.updPeer l fun x => { x with state := .keyless } := by
  simp only [State.peerTraining, hen, hmay, he, hkey, Option.isNone_none, Bool.and_self, Bool.true_eq_false, or_self, if_false,
    if_true]

end Training

/-- R385: a peer link that falls makes the routes through it UNREACH; where no job uses it, nothing else changes. -/
theorem State.peerLinkDown_jobless (hup : s.peerUp l = true) {f : Bool} (hf : f = true → (s.peer l).sec ≠ none)
    (hby : s.jobsBy l = []) (hjobs : s.pr.jobs = []) :
    s.peerLinkDown l f = { s with pr := { s.pr with
      links := updAt s.pr.links l fun x => { x with state := .down, attempts := 0, asked := 0, again := 0 }
      routes := mapIdxFrom (fun n (r : Route) => if (s.nodesBy l).contains n then { r with unreach := true } else r) 0
        s.pr.routes } } := by
  have hno : ¬(s.peerUp l = false ∨ (f = true ∧ (s.peer l).sec = none)) := by
    simp only [hup, Bool.true_eq_false, false_or, not_and]
    exact hf
  refine (if_neg hno).trans ?_
  simp only [State.peerLost, State.updPeer, hby, hjobs, List.foldl_nil, List.map_nil]

end PeerLinks

/-- Settles O49: a training ends by what it met and by the key of the link, and a link without jobs falls alone. -/
theorem peerLinksTrainAndFall : Obligations.PeerLinksTrainAndFall := by
  refine fun s l peer => ⟨fun hen hmay => ⟨?plain, ?keyed,
    fun he hkey t => congrArg Host.Outcome.next (State.peerTraining_keyless hen hmay he hkey t), ?fails⟩,
    fun hup f hf hby hjobs => congrArg Host.Outcome.next (State.peerLinkDown_jobless hup hf hby hjobs)⟩
  case plain =>
    exact fun he width version base far => congrArg Host.Outcome.next
      ((State.peerTraining_trains hen hmay (by simp [he])).2 width version base far none (State.peerSession_plain he))
  case keyed =>
    exact fun he key n t width version base far hkey hn => congrArg Host.Outcome.next
      ((State.peerTraining_trains hen hmay (by simp [hkey])).2 width version base far _ (State.peerSession_keyed he hkey hn))
  case fails =>
    exact fun he => congrArg Host.Outcome.next (State.peerTraining_trains (t := s) hen hmay (by simp [he])).1

section Enumeration

variable {s t : State} {l : Nat}

/-- Table 14.1 order 2: the first ENUM makes its link the parent and goes out on every other link. -/
theorem State.enumArrives_parent {depth : Nat} (hup : s.peerUp l = true) (hrole : s.pr.role = 2)
    (hpar : s.pr.parent = 15 ∨ s.pr.parent = l)
    (ht : t = { s.markLink l 1 with pr := { (s.markLink l 1).pr with
      parent := l, depth := depth + 1, state := 1, awaiting := [], replies := [] } }) :
    s.enumArrives l depth = (((List.range 8).filter fun i =>
      t.peerUp i && decide (i ≠ l) && (t.peer i).kind != 3).foldl (State.sendEnum (depth + 1)) t).finishEnum := by
  have hno : ¬(s.peerUp l = false ∨ s.pr.role = 0) := by simp [hup, hrole]
  subst ht
  exact (if_neg hno).trans (if_pos ⟨hrole, hpar⟩)

/-- Table 14.1 order 2, R382: an ENUM on another link than the parent's marks it REDUNDANT, and its reply is no longer awaited. -/
theorem State.enumArrives_other {depth : Nat} (hup : s.peerUp l = true) (hrole : s.pr.role ≠ 0)
    (hpar : ¬(s.pr.role = 2 ∧ (s.pr.parent = 15 ∨ s.pr.parent = l))) :
    s.enumArrives l depth = if ∃ x ∈ s.pr.awaiting, x.1 = l then (s.markLink l 3).finishEnum else s.markLink l 3 := by
  have hno : ¬(s.peerUp l = false ∨ s.pr.role = 0) := by simp [hup, hrole]
  simp only [State.enumArrives, if_neg hno, if_neg hpar, List.any_eq_true, decide_eq_true_eq]

/-- Table 14.1 order 3: a reply that is awaited, or that a child gives again, is kept. -/
theorem State.enumReply_takes {nodes : List EnumNode} (hw : (∃ x ∈ s.pr.awaiting, x.1 = l) ∨ (s.peer l).kind = 2)
    (hup : s.peerUp l = true) : s.enumReply l nodes = State.finishEnum { s.markLink l 2 with
      pr := { (s.markLink l 2).pr with replies := Tbl.put (s.markLink l 2).pr.replies l nodes } } := by
  have hgo : ((s.pr.awaiting.any (fun x => decide (x.1 = l)) || (s.peer l).kind == 2) && s.peerUp l) = true := by
    rw [hup, Bool.and_true, Bool.or_eq_true, List.any_eq_true, beq_iff_eq]
    exact hw.imp_left fun ⟨x, hx, hl⟩ => ⟨x, hx, decide_eq_true hl⟩
  exact if_pos hgo

/-- Table 14.1 order 3: a link whose reply has not come in 10 ticks is UNUSED. -/
theorem State.enumTimeout_unused (hw : ∃ x ∈ s.pr.awaiting, x.1 = l ∧ x.2 + 10 ≤ s.now) :
    s.enumTimeout l = State.finishEnum { s.markLink l 0 with
      pr := { (s.markLink l 0).pr with replies := Tbl.erase (s.markLink l 0).pr.replies l } } := by
  have hgo : (s.pr.awaiting.any fun x => decide (x.1 = l) && decide (x.2 + 10 ≤ s.now)) = true := by
    rw [List.any_eq_true]
    obtain ⟨x, hx, hl, hn⟩ := hw
    exact ⟨x, hx, by simp [hl, hn]⟩
  exact if_pos hgo

/-- R384: a message for another node goes on by the link of its route. -/
theorem State.passOn_route {node : Nat} {r : Route} (hr : s.pr.routes[node]? = some r) (hv : r.valid = true)
    (hh : r.here = false) (hu : r.unreach = false) (cls src job gen : Nat) (words : List Nat) (bytes : Bytes) :
    s.passOn cls src node job gen words bytes = { s with pr := { s.pr with out := s.pr.out ++
      [{ cls := cls, link := r.link, src := src, node := node, job := job, gen := gen, words := words, bytes := bytes }] } } := by
  simp only [State.passOn, hr, Option.getD_some, hv, hh, hu, Bool.not_false, Bool.and_self, if_true]

/-- R384: ROUTE makes its worker READY, or is passed on to the worker that it is for. -/
theorem State.routeArrives_parent {dst : Nat} {items : List RouteItem} (hrole : s.pr.role = 2) (hpar : s.pr.parent = l)
    (hup : s.peerUp l = true) : s.routeArrives l dst items = if dst = s.pr.nodeid then
      { s with pr := { s.pr with
        routes := State.routesOf s.pr.routes s.pr.nodeid ((items.map fun x => (x.node, x.child.getD l)) ++ [(0, l)]), state := 2 } }
      else s.passOn 0x01 0 dst 0 0 (State.routeWords items) [] :=
  if_pos ⟨hrole, hpar, hup⟩

end Enumeration

/-- Settles O50: each message of the enumeration takes its lemma; a reply given again is kept too (log entry 108). -/
theorem enumerationProceeds : Obligations.EnumerationProceeds := by
  refine fun s l => ⟨?parent, ?other, ?reply, fun hw => congrArg Host.Outcome.next (State.enumTimeout_unused hw), ?here, ?on⟩
  case parent =>
    exact fun depth t hup hrole hpar ht => congrArg Host.Outcome.next (State.enumArrives_parent hup hrole hpar ht)
  case other =>
    intro depth hup hrole hpar
    have h := State.enumArrives_other (depth := depth) hup hrole hpar
    exact ⟨fun hw => congrArg Host.Outcome.next (h.trans (if_pos hw)),
      fun hw => congrArg Host.Outcome.next (h.trans (if_neg hw))⟩
  case reply => exact fun nodes hw hup => congrArg Host.Outcome.next (State.enumReply_takes hw hup)
  case here =>
    exact fun items hrole hpar hup => congrArg Host.Outcome.next
      ((State.routeArrives_parent hrole hpar hup).trans (if_pos rfl))
  case on =>
    exact fun items dst r hrole hpar hup hdst hr hv hh hu => congrArg Host.Outcome.next
      (((State.routeArrives_parent hrole hpar hup).trans (if_neg hdst)).trans (State.passOn_route hr hv hh hu _ _ _ _ _ _))

section Stale

variable {s : State} {id gen : Nat}

/-- R387: a message of a job that this module has no part in, or of another generation, is dropped and counted. -/
theorem State.onJob_stale (h : s.job? id = none ∨ gen ≠ s.jobGen id) (f : Job → State) : s.onJob id gen f = s.dropPeer := by
  unfold State.onJob
  cases hj : s.job? id with
  | none => rfl
  | some j => exact if_neg (h.resolve_left (by simp [hj]))

/-- R387: a message for another node, of a job that this module has at another generation, is dropped and counted. -/
theorem State.past_stale (hj : ∃ j, s.job? id = some j) (hg : gen ≠ s.jobGen id) (cls src node : Nat) (words : List Nat)
    (bytes : Bytes) : s.past cls src node id gen words bytes = s.dropPeer := by
  obtain ⟨j, hj⟩ := hj
  exact if_pos (by simp [hj, hg])

/-- R384: any other message for another node is passed on. -/
theorem State.past_current (h : s.job? id = none ∨ gen = s.jobGen id) (cls src node : Nat) (words : List Nat)
    (bytes : Bytes) : s.past cls src node id gen words bytes = s.passOn cls src node id gen words bytes :=
  if_neg (by rcases h with h | h <;> simp [h])

end Stale

/-- Settles O51: the job and its generation say whether a message has its effect, is dropped or is passed on. -/
theorem staleJobMessagesAreDropped : Obligations.StaleJobMessagesAreDropped := by
  rintro s _ id gen rfl
  refine ⟨fun h => ?stale, fun hn hj hg => ?another, fun r hn h hr hv hh hun u hu => ?passed⟩
  case stale =>
    have hdrop : ∀ f, s.onJob id gen f = s.dropPeer := State.onJob_stale h
    refine ⟨fun l turn => congrArg Host.Outcome.next (hdrop _), fun l words => congrArg Host.Outcome.next (hdrop _),
      fun l msg => congrArg Host.Outcome.next (hdrop _),
      congrArg Host.Outcome.next ((if_neg (not_not.2 rfl)).trans (hdrop _)), fun h0 => ?_⟩
    have hnode : ¬s.pr.nodeid ≠ 0 := not_not.2 h0
    exact ⟨fun node turn values moved => congrArg Host.Outcome.next ((if_neg hnode).trans (hdrop _)),
      fun node item bytes => congrArg Host.Outcome.next ((if_neg hnode).trans (hdrop _)),
      fun node status loc => congrArg Host.Outcome.next ((if_neg hnode).trans (hdrop _)),
      fun node => congrArg Host.Outcome.next ((if_neg hnode).trans (hdrop _)),
      fun node => congrArg Host.Outcome.next ((if_neg hnode).trans (hdrop _)),
      fun node status w0 w1 shape => congrArg Host.Outcome.next ((if_neg hnode).trans (hdrop _))⟩
  case another =>
    exact ⟨fun node item bytes => congrArg Host.Outcome.next ((if_pos hn).trans (State.past_stale hj hg _ _ _ _ _)),
      fun node => congrArg Host.Outcome.next ((if_pos hn).trans (State.past_stale hj hg _ _ _ _ _))⟩
  case passed =>
    have hpass : ∀ cls node words bytes, s.past cls node 0 id gen (node :: words) bytes = u cls (node :: words) bytes :=
      fun cls node words bytes => by
        rw [State.past_current h, State.passOn_route hr hv hh hun, hu]
        rfl
    exact ⟨fun node item bytes => congrArg Host.Outcome.next ((if_pos hn).trans (hpass _ node _ bytes)),
      fun node status loc => congrArg Host.Outcome.next ((if_pos hn).trans (hpass _ node _ [])),
      fun node => congrArg Host.Outcome.next ((if_pos hn).trans (hpass _ node _ [])),
      fun node => congrArg Host.Outcome.next ((if_pos hn).trans (hpass _ node _ []))⟩

end Sys2Proof.Machine
end

section
/-! The parts of a job are loaded (14 R390, R391, R396). -/

namespace Sys2Proof.Machine

section Image

variable {s t u : State} {id gen ctx : Nat} {d : Bytes} {table : List PartShape} {w : State.LoadFor}

/-- R390: an image for this worker is of a part, or carries the table of a job's parts. -/
theorem State.imageArrives_here (hrole : s.pr.role = 2) (hid : id ≠ 0) (hgen : gen ≠ 0) :
    s.imageArrives s.pr.nodeid id gen d table = if d.isEmpty then s.tableArrives id gen table else s.partArrives id gen d := by
  have hno : ¬(s.pr.role ≠ 2 ∨ id = 0 ∨ gen = 0) := by simp [hrole, hid, hgen]
  simp only [State.imageArrives, ne_eq, not_true_eq_false, if_false]
  exact if_neg hno

section Part

variable (hjob : s.job? id = none) (hwait : s.loadWaits (Img.mask d) = false)
  (ht : t = { s with pr := { s.pr with jobGens := Tbl.put s.pr.jobGens id gen } }) (hctx : ctx = t.highestFree.getD 0)
  (hw : w = { len := d.length, jobField := id + 65536 * gen, charge := t.tagOf ctx, grant := State.fullGrant s.pr.peermask.toNat
              owner := t.tagOf ctx, fabric := t.tagOf ctx, job := id, nodeZero := false, partOk := Img.node d == s.pr.nodeid
              queue := 0, homeb := false, common := none, short := t.contextShort })
include hjob hwait ht hctx hw

/-- R391: a part whose load is refused answers LOADED with what refused it. -/
theorem State.partArrives_refused {x : Refuse} (hload : t.loadImage d w = (u, .error x)) :
    s.partArrives id gen d = u.sendLoaded id gen x.status x.w0 x.w1 none := by
  subst ht hctx hw
  simp only [State.partArrives, hjob, hwait, Bool.false_eq_true, if_false, hload]

/-- R390, R391: a part that is loaded stands in a job context, and LOADED answers with its shape. -/
theorem State.partArrives_loaded {i : Nat} {n : Net} (hload : t.loadImage d w = (u, .ok i)) (hn : u.net? i = some n) :
    s.partArrives id gen d = ((u.takeJobContext ctx id w.grant).putJob id
      { State.withPart (State.newJob 0 (Img.modules d)) (State.partShape s.pr.nodeid n) none with
        jctx := ctx, model := some i }).sendLoaded id gen Status.ok 0 (BitVec.ofNat 64 d.length)
          (some (State.partShape s.pr.nodeid n)) := by
  subst ht hctx hw
  simp only [State.partArrives, hjob, hwait, Bool.false_eq_true, if_false, hload, hn]

end Part

/-- R396; log entry 120: the table of a job's parts has this module reserve its Cuff regions, or answer that they do not fit. -/
theorem State.tableArrives_current (htab : table ≠ []) (hjob : s.job? id = none ∨ gen = s.jobGen id) :
    (∀ x, s.cuffShort id table = some x →
      s.tableArrives id gen table = s.sendLoaded id gen x.status x.w0 x.w1 none) ∧
    (s.cuffShort id table = none → s.tableArrives id gen table = State.sendLoaded
      (State.putJob { s with pr := { s.pr with jobGens := Tbl.put s.pr.jobGens id gen } } id
        { (s.job? id).getD (State.newJob 0 table.length) with
          parts := table, cuff := s.cuffNeed table, state := .loaded }) id gen Status.ok 0 0 none) := by
  have hcur : ¬((s.job? id).isSome && decide (gen ≠ s.jobGen id)) = true := by
    rcases hjob with h | h <;> simp [h]
  have hne : ¬table.isEmpty = true := by simpa using htab
  refine ⟨fun x hx => ?_, fun hx => ?_⟩ <;>
  simp only [State.tableArrives, if_neg hcur, if_neg hne, hx]

end Image

section Loaded

variable {s : State} {id gen node : Nat} {j : Job} {w0 w1 : W64} {shape : Option PartShape} (hjob : s.job? id = some j)
  (hg : gen = s.jobGen id) (hn : s.pr.nodeid = 0) (hst : j.state ≠ .aborting)
include hjob hg hn hst

section Awaited

variable (hres : j.reserving = none)
include hres

/-- R391: LOADED of a part that no load waits for has no effect. -/
theorem State.loaded_unawaited (hload : s.loadOf id node = none) (status : Nat) :
    s.loaded node id gen status w0 w1 shape = s := by
  simp only [State.loaded, hn, ne_eq, not_true_eq_false, if_false, State.onJob_current hjob hg, hst, hres, hload]

/-- R391: LOADED of a part that failed ends its load with the worker's status and words. -/
theorem State.loaded_failed {r : Request} (hload : s.loadOf id node = some r) {status : Nat} (hbad : status ≠ Status.ok) :
    s.loaded node id gen status w0 w1 shape = ((s.updJob id fun j =>
      { j with sent := j.sent.filter fun x => decide (x.1 ≠ node) }).endReq r.key status Stop.none w0 w1
        0xFFFF).dropEmptyJob id := by
  simp only [State.loaded, hn, ne_eq, not_true_eq_false, if_false, State.onJob_current hjob hg, hst, hres, hload, hbad,
    not_false_eq_true, if_true]

/-- R391: LOADED of a part whose shape agrees with the job lets it join. -/
theorem State.loaded_joins {r : Request} {p : PartShape} {c : Option JobCommon} (hload : s.loadOf id node = some r)
    (hc : c = (j.sent.find? fun x => decide (x.1 = node)).map (·.2))
    (hsame : (c.bind fun c => leastOf (State.differAt j.common c)) = none) :
    s.loaded node id gen Status.ok w0 w1 (some p) =
      (s.putJob id (State.withPart j { p with node := node } c)).partLoaded r.key id node 0 w1 := by
  subst hc
  simp only [State.loaded, hn, ne_eq, not_true_eq_false, if_false, State.onJob_current hjob hg, hst, hres, hload, hsame]

end Awaited

variable {v : Reserving} {r : Request} (hres : j.reserving = some v) (hload : s.loadOf id v.node = some r) (hleft : node ∈ v.left)
include hres hload hleft

/-- R396: a module that cannot reserve the regions of the table ends the last load with its refusal. -/
theorem State.loaded_unreserved {status : Nat} (hbad : status ≠ Status.ok) : s.loaded node id gen status w0 w1 shape =
    ((s.undoPart id v.node).endReq r.key status Stop.none w0 w1 0xFFFF).dropEmptyJob id := by
  have hin : v.left.contains node = true := by simpa using hleft
  simp only [State.loaded, hn, ne_eq, not_true_eq_false, if_false, State.onJob_current hjob hg, hst, hres, State.reserved, hload,
    hin, Bool.not_true, Bool.false_eq_true, hbad, not_false_eq_true, if_true]

/-- R396: the last load ends once every module has reserved its regions. -/
theorem State.loaded_reserved : s.loaded node id gen Status.ok w0 w1 shape =
    if (v.left.filter fun n => decide (n ≠ node)) = [] then
      (s.updJob id fun j => { j with reserving := none, state := .loaded }).okReq r.key v.word0 v.word1
    else s.updJob id fun j => { j with reserving := some { v with left := v.left.filter fun n => decide (n ≠ node) } } := by
  have hin : v.left.contains node = true := by simpa using hleft
  simp only [State.loaded, hn, ne_eq, not_true_eq_false, if_false, State.onJob_current hjob hg, hst, hres, State.reserved, hload,
    hin, Bool.not_true, Bool.false_eq_true, List.isEmpty_iff]

end Loaded

/-- Settles O52: a part is loaded or refused; LOADED goes by the load that waits; the table reserves or is refused (log
entry 120). -/
theorem partsAreLoaded : Obligations.PartsAreLoaded := by
  refine ⟨fun s t id gen ctx d table w hrole hid hgen hd hjob hwait ht hctx hw => ⟨?refused, ?loaded⟩,
    fun s id gen node j w0 w1 shape hjob hg hn hst => ⟨fun hres => ⟨?unawaited, ?failed, ?joins⟩, ?reserving⟩,
    fun s id gen table hrole hid hgen htab hjob => ?table⟩
  case refused =>
    intro u x hload
    refine congrArg Host.Outcome.next ((State.imageArrives_here hrole hid hgen).trans ((if_neg (by simpa using hd)).trans ?_))
    exact State.partArrives_refused hjob hwait ht hctx hw hload
  case loaded =>
    rintro u i n _ hload hnet rfl
    refine congrArg Host.Outcome.next ((State.imageArrives_here hrole hid hgen).trans ((if_neg (by simpa using hd)).trans ?_))
    exact State.partArrives_loaded hjob hwait ht hctx hw hload hnet
  case unawaited =>
    exact fun hload status => congrArg Host.Outcome.next (State.loaded_unawaited hjob hg hn hst hres hload status)
  case failed =>
    exact fun r status hload hbad => congrArg Host.Outcome.next (State.loaded_failed hjob hg hn hst hres hload hbad)
  case joins =>
    rintro r p c hload rfl hc hsame
    exact congrArg Host.Outcome.next (State.loaded_joins hjob hg hn hst hres hload hc hsame)
  case reserving =>
    intro v r hres hload hleft
    refine ⟨fun status hbad => congrArg Host.Outcome.next (State.loaded_unreserved hjob hg hn hst hres hload hleft hbad), ?_⟩
    rintro _ rfl
    have h := State.loaded_reserved (w0 := w0) (w1 := w1) (shape := shape) hjob hg hn hst hres hload hleft
    exact ⟨fun hne => congrArg Host.Outcome.next (h.trans (if_neg hne)),
      fun he => congrArg Host.Outcome.next (h.trans (if_pos he))⟩
  case table =>
    obtain ⟨hshort, hfits⟩ := State.tableArrives_current htab hjob
    have h := State.imageArrives_here (d := []) (table := table) hrole hid hgen
    exact ⟨fun x hx => congrArg Host.Outcome.next (h.trans (hshort x hx)),
      fun hx => congrArg Host.Outcome.next (h.trans (hfits hx))⟩

end Sys2Proof.Machine
end

section
/-! The run of a job, and the end of a job (14 R393, R394, R396-R402; 04 R95, Table 4.2 order 7; 11 R311). -/

namespace Sys2Proof.Machine

section Cuffs

variable {s t : State} {id gen : Nat} {j : Job} {i : Nat} {u : Run} (hjob : s.job? id = some j) (hg : gen = s.jobGen id)
include hjob

/-- R399: credit is held, and goes on to the links whose words wait for it. -/
theorem State.creditArrives_current (hg : gen = s.jobGen id) (l turn : Nat) : s.creditArrives l id gen turn =
    State.grantCredit (s.updJob id fun x =>
      { x with credits := if x.credits.contains (l, turn) then x.credits else x.credits ++ [(l, turn)] }) id turn := by
  unfold State.creditArrives
  rw [State.onJob_current hjob hg]

variable (hm : j.model = some i) (hrun : s.runOn i = some u)
include hm hrun

/-- R398, R399: a module whose units have passed order 1 sends its words once it holds credit on every link. -/
theorem State.cuffSend_sends {n : Net} (hn : s.net? i = some n) (hturn : s.turning u = true) (hstop : u.stopped = 0)
    (hdone : n.rblocks.all (n.done u) = true) (hsent : j.sentTurn = u.turn) (hlinks : s.sendLinks j.parts ≠ [])
    (hcred : ∀ l ∈ s.sendLinks j.parts, (l, u.turn) ∈ j.credits) :
    s.cuffSend id = ((s.sendLinks j.parts).foldl (fun t l => t.sendCuff id s.pr.nodeid l
        (State.cuffFor (s.outward j.parts l) (s.cuffWordsOf u n j.parts))) s).updJob id fun x =>
      { x with
        sentTurn := u.turn + 1, credits := x.credits.filter fun c => decide (u.turn ≤ c.2)
        granted := x.granted.filter fun c => decide (u.turn ≤ c.2) } := by
  have hdue : (s.cuffDue j u n && s.credited j u) = true := by
    simp only [State.cuffDue, State.credited, hturn, hstop, hdone, hsent, decide_true, Bool.true_and, Bool.and_eq_true,
      Bool.not_eq_true', List.isEmpty_eq_false_iff, List.all_eq_true, List.contains_iff_mem]
    exact ⟨hlinks, hcred⟩
  simp only [State.cuffSend, hjob, hm, Option.bind_some, hrun, hn, hdue, if_true]

include hg

/-- R397, R398: words that arrive are held where this part lists them and copied on; a message with a bad word has no effect. -/
theorem State.cuffArrives_current (l : Nat) (words : List W64) :
    (words.all State.cuffOk = false → s.cuffArrives l id gen words = s) ∧
    (words.all State.cuffOk = true → ∀ held, held = State.cuffFor (s.wanted j.parts) words → (held = [] → t = s) →
      (held ≠ [] → t = { s with pr := { s.pr with cuffs := State.joinCuff l id (State.cuffTurn u) held s.pr.cuffs } }) →
      s.cuffArrives l id gen words = ((List.range 8).filter fun o => decide (o ≠ l)).foldl (fun t o =>
        t.sendCuff id ((words.head?.map State.cuffNode).getD 0) o
          (State.cuffFor ((s.outward j.parts o).filter fun x => s.beyondLink l x.1) words)) t) := by
  refine ⟨fun hbad => ?_, fun hok held hheld hnone hsome => ?_⟩
  · simp only [State.cuffArrives, State.onJob_current hjob hg, hbad, Bool.not_false, if_true]
  · have ht : (if held.isEmpty then s
        else { s with pr := { s.pr with cuffs := State.joinCuff l id (State.cuffTurn u) held s.pr.cuffs } }) = t := by
      by_cases h : held = []
      · rw [hnone h, if_pos (List.isEmpty_iff.2 h)]
      · rw [hsome h, if_neg (fun he => h (List.isEmpty_iff.1 he))]
    simp only [State.cuffArrives, State.onJob_current hjob hg, hok, Bool.not_true, Bool.false_eq_true, if_false, hm,
      Option.bind_some, hrun, ← hheld, ht]

variable (hn : s.pr.nodeid = 0)
include hn

/-- R393: node 0 keeps a part's partial, and goes on when every part has sent one. -/
theorem State.partialArrives_kept (hland : u.landing = none) (hstop : u.stopped = 0) {node : Nat} (values : List Int)
    (moved : Bool) (hnew : ∀ p ∈ u.partials, p.1 ≠ node) : s.partialArrives node id gen u.turn values moved =
      State.ladderReady (s.updRun u.key fun v => { v with partials := v.partials ++ [(node, values, moved)] }) u.key := by
  have hno : u.partials.any (fun p => decide (p.1 = node)) = false := by simpa using hnew
  simp only [State.partialArrives, hn, ne_eq, not_true_eq_false, if_false, State.onJob_current hjob hg, hm, Option.bind_some,
    hrun, hland, hstop, hno, Option.isSome_none, Bool.false_eq_true, or_self]

/-- R394: a closing RESULT counts its part's results as in; any other is written to its place. -/
theorem State.resultArrives_current {m : Model} {n : Net} {r : Request} (hmod : s.model? u.model = some m)
    (hnet : s.net? u.model = some n) (hr : s.req? u.key = some r) (node : Nat) (bytes : Bytes) :
    (s.resultArrives node id gen 0x1FFFF bytes = State.closeRun (s.updRun u.key fun v =>
      { v with partials := v.partials ++ [(node, [], false)] }) u.key) ∧
    (∀ item region off, item ≠ 0x1FFFF → item ≠ 0x10003 → s.resultPlace m n u node item = some (region, off) →
      s.resultArrives node id gen item bytes = s.putOut r region off bytes) := by
  refine ⟨?_, fun item region off h1 h2 hplace => ?_⟩
  · simp only [State.resultArrives, hn, ne_eq, not_true_eq_false, if_false, State.onJob_current hjob hg, hm, Option.bind_some,
      hrun, hmod, hnet, hr, if_true]
  · simp only [State.resultArrives, hn, ne_eq, not_true_eq_false, if_false, State.onJob_current hjob hg, hm, Option.bind_some,
      hrun, hmod, hnet, hr, h1, h2, hplace]

/-- R393, 11 R311: a FAULT of a part fails the run's request with the part's status and locator, and stops the other parts. -/
theorem State.faultArrives_fails {r : Request} (hr : s.req? u.key = some r) (node status : Nat) (loc : W64) :
    s.faultArrives node id gen status loc = State.resumeRuns (State.endReq
      ((((s.stopParts u).invalidateKept u.model).noteContext r.tag 6 0 0 0).updJob id fun x => { x with lastNode := node })
      u.key status Stop.none loc 0 0xFFFF) := by
  simp only [State.faultArrives, hn, ne_eq, not_true_eq_false, if_false, State.onJob_current hjob hg, hm, Option.bind_some,
    hrun, hr]

end Cuffs

section PartRun

variable {s t : State} {id gen i : Nat} {j : Job} {m : Model} {n : Net} (hjob : s.job? id = some j) (hg : gen = s.jobGen id)

section Begin

variable (hm : j.model = some i) (hmod : s.model? i = some m) (hnet : s.net? i = some n)
include hjob hg hm hmod hnet

/-- R393: RUN begins the part's run on a worker, and the partials of its start boundary go to node 0. -/
theorem State.runArrives_begins {op : Nat} {block : Bytes} {seed model : W64} {ladder sched init : Bytes}
    {hems : List (Nat × Nat × Nat)} {w : RunSpec} {u : Run} {sts : List (List (List Nat))} {tw : List Int} {n1 n2 : Net}
    {v : State} (hnode : s.pr.nodeid ≠ 0)
    (hst : j.state = .loaded) (hun : m.unloading = none) (hrun : s.runOn i = none) (he : s.enginesReady m.mask = true)
    (hw : w = State.partSpec op block ladder sched init) (hu : u = State.newRun (State.partKey id) i op w seed model)
    (hsts : sts = State.startStates n n.imageBytes w.reps w.init) (hdam : s.damageOf m = none)
    (hn1 : n1 = s.startNet m n u model sts hems w.cont)
    (hn2 : n2 = (if w.init.isSome then { n1 with valid := mapIdxFrom (fun r v => if r < w.reps then true else v) 0 n1.valid }
      else n1))
    (hv : v = State.openCuffs (State.startOn (State.clearLanes
      { s with runs := s.runs ++ [{ u with lastState := sts, bestState := sts }] } i) m.mask) id)
    (hstart : v.startPart u n2 m.mask = .ok (t, tw)) :
    s.runArrives s.pr.nodeid id gen op block seed model ladder sched init hems =
      (t.updRun u.key fun x => { x with barrier := true }).sendPartial id 0 false tw := by
  subst hw hu hsts hn1 hn2 hv
  have hno : ¬(s.pr.nodeid = 0 ∨ j.state ≠ .loaded ∨ m.unloading.isSome = true ∨ (s.runOn i).isSome = true ∨
      s.enginesReady m.mask = false) := by simp [hnode, hst, hun, hrun, he]
  unfold State.runArrives State.runHere
  simp only [if_true, State.onJob_current hjob hg, hm, Option.bind_some, hmod, hnet, Option.getD_some, if_neg hno, hdam,
    hstart]

end Begin

section Boundary

variable {b : State} {l : Nat} {msg : BoundaryMsg} {u : Run} (hnet : s.net? u.model = some n)
  (hrun : s.run? (State.partKey id) = some u)
  (hb : b = s.sendForked 0x16 id gen (some l) (State.boundaryWords msg.turn msg.stop msg.rungOf msg.betas msg.newBest))
include hb

/-- What is sent on changes neither runs nor models. -/
theorem State.boundaryForked_looks : b.runs = s.runs ∧ b.models = s.models := by
  obtain ⟨o, ho⟩ := State.sendForked_out s 0x16 id gen (some l)
    (State.boundaryWords msg.turn msg.stop msg.rungOf msg.betas msg.newBest)
  rw [hb, ho]
  exact ⟨rfl, rfl⟩

include hjob hg

/-- R393: BOUNDARY is copied on toward the parts beyond this module, and reaches the part here. -/
theorem State.boundaryArrives_current : s.boundaryArrives l id gen msg = b.boundaryHere id msg := by
  subst hb
  unfold State.boundaryArrives
  rw [State.onJob_current hjob hg]

include hrun hnet

/-- R393, 04 R111: a stop without a map ends the part's run with the states of its last boundary. -/
theorem State.boundaryArrives_stops (hstop : msg.stop = true) (hmap : msg.rungOf = []) :
    s.boundaryArrives l id gen msg = b.endPart id u u.sums := by
  obtain ⟨hruns, hmodels⟩ := State.boundaryForked_looks hb
  have hbr : b.run? (State.partKey id) = some u := by rw [← hrun]; unfold State.run?; rw [hruns]
  have hbn : b.net? u.model = some n := by rw [← hnet]; unfold State.net? State.model?; rw [hmodels]
  rw [State.boundaryArrives_current hjob hg hb]
  simp only [State.boundaryHere, hbr, hbn, hstop, hmap, List.isEmpty_nil, Bool.and_self, if_true]

/-- 04 R95, Table 4.2 order 7: a part at its barrier takes the rungs and schedules of the next turn; then it ends, waits or
begins the turn. -/
theorem State.boundaryArrives_turns {v : Run} (hbar : u.barrier = true) (hpause : u.pause = false) (hmap : msg.rungOf ≠ [])
    (hv : v = { u with
      turn := msg.turn, rungOf := msg.rungOf, lastRung := u.rungOf, betas := msg.betas, sums := n.sums
      frozen := State.frozenOf n u.reps, due := some []
      lastState := (List.range u.reps).map n.stateOf
      bestState := (List.range u.reps).map fun r =>
        if msg.newBest.getD r false then n.stateOf r else u.bestState.getD r [] })
    (ht : t = (b.updRun u.key fun _ => v).sendBest id v n msg.newBest) :
    s.boundaryArrives l id gen msg = if msg.stop then t.endPart id v n.sums
      else if (t.boundaryHold v msg.turn false).isSome then t.updRun u.key fun x => { x with pause := true }
      else t.goOn u.key := by
  obtain ⟨hruns, hmodels⟩ := State.boundaryForked_looks hb
  have hbr : b.run? (State.partKey id) = some u := by rw [← hrun]; unfold State.run?; rw [hruns]
  have hbn : b.net? u.model = some n := by rw [← hnet]; unfold State.net? State.model?; rw [hmodels]
  have hno : (msg.stop && msg.rungOf.isEmpty) = false := by simp [hmap]
  have hgo : ¬(u.barrier = false ∨ u.pause = true) := by simp [hbar, hpause]
  rw [State.boundaryArrives_current hjob hg hb]
  simp only [State.boundaryHere, hbr, hbn, hno, if_neg hgo, Bool.false_eq_true, if_false, ← hv, ← ht]

end Boundary

end PartRun

/-- Settles O53: every message reaches its job (`State.onJob_current`) and goes by the run of its model (log entries 25
and 117). -/
theorem jobRunProceeds : Obligations.JobRunProceeds := by
  refine ⟨fun s id gen j i u hjob hg hm hrun => ⟨?credit, ?send, ?cuff, ?partial_, ?result⟩,
    fun s id gen i j m n hjob hg hm hmod hnet => ⟨?begins, ?boundary⟩⟩
  case credit => exact fun l turn => congrArg Host.Outcome.next (State.creditArrives_current hjob hg l turn)
  case send =>
    exact fun n hn hturn hstop hdone hsent hlinks hcred => congrArg Host.Outcome.next
      (State.cuffSend_sends hjob hm hrun hn hturn hstop hdone hsent hlinks hcred)
  case cuff =>
    intro l words
    exact ⟨fun hbad => congrArg Host.Outcome.next ((State.cuffArrives_current (t := s) hjob hg hm hrun l words).1 hbad),
      fun hok held t hheld hnone hsome => congrArg Host.Outcome.next
        ((State.cuffArrives_current hjob hg hm hrun l words).2 hok held hheld hnone hsome)⟩
  case partial_ =>
    exact fun hn hland hstop node values moved hnew => congrArg Host.Outcome.next
      (State.partialArrives_kept hjob hg hm hrun hn hland hstop values moved hnew)
  case result =>
    intro hn m n r hmod hnet hr node bytes
    obtain ⟨hclose, hput⟩ := State.resultArrives_current hjob hg hm hrun hn hmod hnet hr node bytes
    exact ⟨congrArg Host.Outcome.next hclose,
      fun item region off h1 h2 hplace => congrArg Host.Outcome.next (hput item region off h1 h2 hplace)⟩
  case begins =>
    intro op block seed model ladder sched init hems w u sts t tw hnode hst hun hrun he hw hu hsts hdam n1 n2 v hn1 hn2 hv hstart
    exact congrArg Host.Outcome.next
      (State.runArrives_begins hjob hg hm hmod hnet hnode hst hun hrun he hw hu hsts hdam hn1 hn2 hv hstart)
  case boundary =>
    rintro l msg u hrun rfl b hb
    refine ⟨fun hstop hmap => congrArg Host.Outcome.next
      (State.boundaryArrives_stops hjob hg hnet hrun hb hstop hmap), fun hbar hpause hmap v hv t ht => ?_⟩
    have h := State.boundaryArrives_turns hjob hg hnet hrun hb hbar hpause hmap hv ht
    refine ⟨fun hstop => congrArg Host.Outcome.next (h.trans (if_pos hstop)), fun hgo hh => congrArg Host.Outcome.next ?_,
      fun hd hgo hh => congrArg Host.Outcome.next ?_⟩ <;>
    simp only [h, hgo, hh, Option.isSome_none, Option.isSome_some, Bool.false_eq_true, if_false, if_true]

/-- Settles O54: every message reaches its job (`State.onJob_current`), whose state says the rest. -/
theorem jobsEnd : Obligations.JobsEnd := by
  refine fun s id gen j hjob hg => ⟨?fault, ?abort, ?done, ?unload, ?unloaded⟩
  case fault =>
    exact fun i u r node status loc hn hm hrun hr => congrArg Host.Outcome.next
      (State.faultArrives_fails hjob hg hm hrun hn hr node status loc)
  case abort =>
    intro l origin
    refine congrArg Host.Outcome.next ?_
    simp only [State.abortArrives, hjob, hg, if_true]
  case done =>
    intro hn hst node
    refine congrArg Host.Outcome.next ?_
    simp only [State.abortDone, hn, ne_eq, not_true_eq_false, if_false, State.onJob_current hjob hg, hst, if_true]
  case unload =>
    intro hn hst
    refine ⟨fun i hm => congrArg Host.Outcome.next ?_, fun hm => congrArg Host.Outcome.next ?_⟩ <;>
    simp only [State.unloadArrives, ne_eq, not_true_eq_false, if_false, State.onJob_current hjob hg, hn, hst, hm, or_self]
  case unloaded =>
    intro hn i node hm
    refine congrArg Host.Outcome.next ?_
    simp only [State.unloadedArrives, hn, ne_eq, not_true_eq_false, if_false, State.onJob_current hjob hg, hm]

end Sys2Proof.Machine
end

section
/-! The sources of reset, and the start (17 R443-R460; Tables 17.11, 17.12). -/

namespace Sys2Proof.Machine

section Nrst

variable {s : State}

/-- R445: nRST asserts reach C while the module does not hibernate. -/
theorem State.nrstAssert_awake (hlow : s.rs.nrstLow = false) (hh : s.pw.mstate ≠ .hibernate) (hm : s.pw.mstate ≠ .hibernateM) :
    s.nrstAssert = { s.clearC with rs := { s.clearC.rs with
      nrstLow := true, escalated := false, wakeFrom := s.rs.wakeFrom, reach := max s.clearC.rs.reach 1 } } := by
  unfold State.nrstAssert
  rw [if_neg (by simp [hlow])]
  cases hst : s.pw.mstate with
  | hibernate => exact absurd hst hh
  | hibernateM => exact absurd hst hm
  | active | standby | entering => rfl

/-- R445, R446: from HIBERNATE it asserts reach S, from HIBERNATE-M a wake. -/
theorem State.nrstAssert_hibernating (hlow : s.rs.nrstLow = false) {keep : Bool}
    (hst : s.pw.mstate = if keep then .hibernateM else .hibernate) :
    s.nrstAssert = { s.clearS with rs := { s.clearS.rs with
      nrstLow := true, escalated := false, wakeFrom := some keep, reach := max s.clearS.rs.reach 2 } } := by
  unfold State.nrstAssert
  rw [if_neg (by simp [hlow])]
  cases keep <;> simp only [hst, Bool.false_eq_true, if_false, if_true] <;> rfl

/-- R445: nRST held for the escalation time asserts reach S. -/
theorem State.nrstEscalation_reachS (hlow : s.rs.nrstLow = true) (hesc : s.rs.escalated = false) :
    s.nrstEscalation = { s.clearS with
      mg := { s.clearS.mg with nrsts := true }
      rs := { s.clearS.rs with
        reach := max s.clearS.rs.reach 2, escalated := true
        wakeFrom := if s.rs.wakeFrom = some true then none else s.rs.wakeFrom } } :=
  if_neg (by simp [hlow, hesc])

/-- R443, R448: a rail that may not be removed asserts reach P, and joins the rails seen to have failed. -/
theorem State.railFail_asserts {r : Rail} (hr : State.removable s.pw.mstate r = false) :
    s.railFail r = { s.clearP with
      mg := { s.clearP.mg with
        mon := true, nrsts := s.rs.nrstLow && s.rs.escalated
        monrail := (if s.rs.rails = [] then 0 else s.mg.monrail) ||| State.railBit r }
      rs := { s.clearP.rs with
        reach := 3, wakeFrom := none, rails := if s.rs.rails.contains r then s.rs.rails else s.rs.rails ++ [r] } } :=
  if_neg (by simp [hr])

end Nrst

section Reaches

/-- What reaches C and S keep alike and what they leave nothing of (R447, Table 17.11). -/
def State.KeptByReset (s t : State) : Prop :=
  t.rs.copyA = s.rs.copyA ∧ t.rs.copyB = s.rs.copyB ∧ t.rs.keys = s.rs.keys ∧ t.mg.tick = s.mg.tick ∧ t.mg.nor = s.mg.nor ∧
  t.mg.por = s.mg.por ∧ t.rs.retired = s.rs.retired ∧ t.models = [] ∧ t.runs = [] ∧ t.groups = [] ∧ t.fe.requests = [] ∧
  t.fe.queues = [] ∧ t.mg.running = none ∧ t.host = s.host

/-- R447: reach C. -/
theorem State.clearC_kept (s : State) : s.KeptByReset s.clearC := by
  obtain ⟨x, y, h⟩ := clearC_eq s
  rw [h]
  exact ⟨rfl, rfl, rfl, rfl, rfl, rfl, rfl, rfl, rfl, rfl, rfl, rfl, rfl, rfl⟩

/-- R447: reach S. -/
theorem State.clearS_kept (s : State) : s.KeptByReset s.clearS :=
  ⟨rfl, rfl, rfl, rfl, rfl, rfl, rfl, rfl, rfl, rfl, rfl, rfl, rfl, rfl⟩

/-- R447, 13 R376: reach C keeps the Hasps and the links as well, and gives the watched lines back. -/
theorem State.clearC_links (s : State) : s.clearC.hp.hasps = s.hp.hasps ∧ s.clearC.hp.portA = s.hp.portA ∧
    s.clearC.hp.portB = s.hp.portB ∧ s.clearC.cs = s.cs ∧ s.clearC.hb.hubW = s.hb.hubW ∧ s.clearC.rs.phase = 1 ∧
    s.clearC.rs.ready = false ∧ s.clearC.hp.evicts = s.hp.evicts ++ s.evictions := by
  obtain ⟨x, y, h⟩ := clearC_eq s
  rw [h]
  exact ⟨rfl, rfl, rfl, rfl, rfl, rfl, rfl, rfl⟩

end Reaches

/-- Settles O55: what reaches C and S keep is one predicate, `State.KeptByReset`; the causes of a wake are log entry 71. -/
theorem resetSources : Obligations.ResetSources := by
  refine ⟨fun s => ⟨?awake, ?hibernating, ?escalates, fun hlow us => congrArg Host.Outcome.next (if_neg (by simp [hlow])), ?rail,
    fun hr dbg strap => congrArg Host.Outcome.next (if_pos (.inl hr))⟩, fun s t ht => ?reaches⟩
  case awake => exact fun hlow hh hm => congrArg Host.Outcome.next (State.nrstAssert_awake hlow hh hm)
  case hibernating => exact fun hlow keep hst => congrArg Host.Outcome.next (State.nrstAssert_hibernating hlow hst)
  case escalates => exact fun hlow hesc => congrArg Host.Outcome.next (State.nrstEscalation_reachS hlow hesc)
  case rail =>
    intro r hr
    have hin : r ∈ if s.rs.rails.contains r then s.rs.rails else s.rs.rails ++ [r] := by
      by_cases h : r ∈ s.rs.rails <;> simp [h]
    exact ⟨_, congrArg Host.Outcome.next (State.railFail_asserts hr), rfl, rfl, rfl, hin, rfl, rfl, rfl, rfl, rfl, rfl, rfl⟩
  case reaches =>
    have hkept : s.KeptByReset t := by
      rcases ht with rfl | rfl
      · exact s.clearC_kept
      · exact s.clearS_kept
    obtain ⟨hA, hB, hkeys, htick, hnor, hpor, hret, hmodels, hruns, hgroups, hreqs, hqueues, hrunning, hhost⟩ := hkept
    refine ⟨hA, hB, hkeys, htick, hnor, hpor, hret, hmodels, hruns, hgroups, hreqs, hqueues, hrunning, hhost, fun hC => ?_⟩
    rw [hC]
    exact s.clearC_links

section Order3

variable {s a t u : State} {seen : StartSeen}

/-- R448, R514: a start after P without TCXO_AON holds at order 2; any other goes on with order 3. -/
theorem State.startSequence_starts (hs : s.mayStart = true) : s.startSequence seen =
    if s.rs.reach = 3 ∧ s.rs.clkTcxo = false then { s with rs := { s.rs with phase := 2 } }
    else State.startFrom3 { s with rs := { s.rs with phase := 3 } } seen :=
  if_neg (by simp [hs])

/-- R452, R454, R460: order 3 of a start with no erase due goes into recovery mode or on with order 4. -/
theorem State.startFrom3_noErase
    (ht : t = (if 2 ≤ a.rs.reach then a.selectOption else a).wardFromOption (a.rs.reach == 3))
    (her : t.eraseDue (a.rs.reach == 3) = false) (hu : u = { t with rs := { t.rs with reach := min 2 t.rs.reach } }) :
    a.startFrom3 seen = if 2 ≤ a.rs.reach ∧ t.rs.optdef = true then u.enterRecovery 1
      else if u.counterRule.rs.recovery then u.counterRule
      else u.counterRule.startFrom4 seen (decide (2 ≤ a.rs.reach)) := by
  unfold State.startFrom3
  simp only [decide_eq_true_eq, ← ht, her, Bool.false_eq_true, if_false, ← hu]

end Order3

section Order4

variable {s t : State} {seen : StartSeen} {whole : Bool}

/-- Order 4 does not touch the firmware. -/
theorem State.startRom_mg (s : State) : s.startRom.mg = s.mg := by
  unfold State.startRom
  split <;> rfl

/-- A start halts in phase 0xE with its cause. -/
theorem State.haltStart_phase (s : State) (cause : Nat) :
    (s.haltStart cause).rs.phase = 0xE ∧ (s.haltStart cause).rs.halt = cause := ⟨rfl, rfl⟩

/-- R455: order 4 halts on flash that fails; else what order 5 meets halts the start or lets it go on with order 6. -/
theorem State.startFrom4_eq : s.startFrom4 seen whole =
    if seen.flashOk = false then s.startRom.haltStart 3
    else match s.startRom.startFirmware seen.norReadOk with
      | .error cause => s.startRom.haltStart cause
      | .ok u => u.startFrom6 seen whole := by
  cases h : s.startRom.startFirmware seen.norReadOk <;> simp only [State.startFrom4, h]

/-- R455: a halt at order 5. -/
theorem State.startFrom4_halts {cause : Nat} (hf : seen.flashOk = true)
    (h : s.startRom.startFirmware seen.norReadOk = .error cause) :
    s.startFrom4 seen whole = s.startRom.haltStart cause := by
  simp only [State.startFrom4_eq, hf, Bool.true_eq_false, if_false, h]

/-- R454, R455: what order 5 finds in NOR. -/
theorem State.startFirmware_cases (s : State) :
    s.startFirmware false = .error 3 ∧ (s.mg.nor = none → s.startFirmware true = .error 2) ∧
    (∀ d, s.mg.nor = some d → 16777216 < d.length → s.startFirmware true = .error 4) ∧
    (∀ d, s.mg.nor = some d → d.length ≤ 16777216 → Config.fwVerifies d = false → s.startFirmware true = .error 2) ∧
    (∀ d, s.mg.nor = some d → d.length ≤ 16777216 → Config.fwVerifies d = true →
      s.startFirmware true = .ok (s.runFirmware d)) := by
  refine ⟨rfl, fun hn => ?_, fun d hn hl => ?_, fun d hn hl hv => ?_, fun d hn hl hv => ?_⟩
  · simp only [State.startFirmware, Bool.true_eq_false, if_false, hn]
  · simp only [State.startFirmware, Bool.true_eq_false, if_false, hn, State.imageMax, hl, if_true]
  · simp only [State.startFirmware, Bool.true_eq_false, Bool.false_eq_true, if_false, hn, State.imageMax, Nat.not_lt.2 hl, hv]
  · simp only [State.startFirmware, Bool.true_eq_false, if_false, hn, State.imageMax, Nat.not_lt.2 hl, hv, if_true]

/-- R455, R457: order 9 halts on a self-test that fails, and is else READY. -/
theorem State.startReady_cases (s : State) :
    (seen.selfTest = false → s.startReady seen = s.haltStart 5) ∧
    (seen.selfTest = true → s.startReady seen = { s with rs := { s.rs with
      phase := 0xA, counter := 0, alert := false, ready := true, core := false, reach := 0, wakeFrom := none } }) :=
  ⟨fun h => if_pos h, fun h => if_neg (by simp [h])⟩

end Order4

/-- Settles O56: order 3 sets the copy and the Ward (log entry 36), and the first failure of orders 4 to 9 halts the
start. -/
theorem startRunsItsOrders : Obligations.StartRunsItsOrders := by
  refine ⟨fun s seen hs => ⟨?holds, ?order3⟩, ?order4⟩
  case holds =>
    exact fun hr hc => congrArg Host.Outcome.next ((State.startSequence_starts hs).trans (if_pos ⟨hr, hc⟩))
  case order3 =>
    rintro hgo a t u rfl ht her hu
    have h : s.startSequence seen = State.startFrom3 { s with rs := { s.rs with phase := 3 } } seen :=
      (State.startSequence_starts hs).trans (if_neg (by simpa [imp_iff_not_or] using hgo))
    have h3 := h.trans (State.startFrom3_noErase ht her hu)
    refine ⟨fun h2 hdef => congrArg Host.Outcome.next (h3.trans (if_pos ⟨h2, hdef⟩)),
      fun hno hrec => congrArg Host.Outcome.next (h3.trans ((if_neg hno).trans (if_pos hrec))),
      fun hno hrec => congrArg Host.Outcome.next (h3.trans ((if_neg hno).trans (if_neg (by simp [hrec]))))⟩
  case order4 =>
    rintro s _ seen whole rfl
    obtain ⟨hread, hnone, hlong, hbad, hgood⟩ := s.startRom.startFirmware_cases
    rw [State.startRom_mg] at hnone hlong hbad hgood
    refine ⟨fun hf => ?_, fun hf hr hn => ?_, fun d hf hr hn hl => ?_, fun d hf hr hn hl => ?_⟩
    · by_cases hflash : seen.flashOk = false
      · rw [State.startFrom4_eq, if_pos hflash]
        exact State.haltStart_phase _ _
      · have hr := hf.resolve_left hflash
        rw [State.startFrom4_halts (by simpa using hflash) (by rw [hr]; exact hread)]
        exact State.haltStart_phase _ _
    · rw [State.startFrom4_halts hf (by rw [hr]; exact hnone hn)]
      exact State.haltStart_phase _ _
    · rw [State.startFrom4_halts hf (by rw [hr]; exact hlong d hn hl)]
      exact State.haltStart_phase _ _
    · by_cases hv : Config.fwVerifies d = false
      · rw [if_pos hv, State.startFrom4_halts hf (by rw [hr]; exact hbad d hn hl hv)]
        exact State.haltStart_phase _ _
      · have hrun := hgood d hn hl (by simpa using hv)
        have h4 : s.startFrom4 seen whole = (s.startRom.runFirmware d).startFrom6 seen whole := by
          simp only [State.startFrom4_eq, hf, hr, Bool.true_eq_false, if_false, hrun]
        rw [if_neg hv, h4]
        by_cases hself : seen.selfTest = false
        · rw [if_pos hself, State.startFrom6, (State.startReady_cases _).1 hself]
          exact State.haltStart_phase _ _
        · rw [if_neg hself, State.startFrom6, (State.startReady_cases _).2 (by simpa using hself)]
          exact ⟨rfl, rfl, rfl, rfl, rfl⟩

end Sys2Proof.Machine
end

section
/-! COMMIT, recovery mode, the firmware operations and the Ward (17 R453, R462; 18 R481-R483; 19 R486-R496). -/

namespace Sys2Proof.Machine

section Holder

variable {s u t : State} {p : Port} (hu : u = s.wakeLink p) (hh : u.holdsSetup p = true)
include hu hh

/-- R462: an operation of recovery mode, written by the holder of Hasp 0. -/
theorem State.recover_holder (ho : s.regReach p 0x33020 = .open_) {op : BitVec 4}
    (ht : t = { u with rs := { u.rs with rcvOp := op } }) (f : State → State) : s.recover p op f = f t := by
  subst ht
  exact onRwl_eq hu ho hh _

/-- 18 R481: a firmware operation, written by the holder of Hasp 0. -/
theorem State.fwOp_holder (ho : s.regReach p 0x28 = .open_) {op : BitVec 4}
    (ht : t = { u with mg := { u.mg with fwOp := op } }) (f : State → State) : s.fwOp p op f = f t := by
  subst ht
  exact onRwl_eq hu ho hh _

/-- 19 R488: a Ward operation, written by the holder of Hasp 0. -/
theorem State.wardOp_holder (ho : s.regReach p 0x32008 = .open_) {op : BitVec 4}
    (ht : t = { u with dw := { u.dw with op := op } }) (f : State → State) : s.wardOp p op f = f t := by
  subst ht
  exact onRwl_eq hu ho hh _

/-- R453: COMMIT shows what its checks found, or writes the copy that is not selected. -/
theorem State.commit_holder (ho : s.regReach p 0x33008 = .open_) :
    (u.commitCheck ≠ 0 → ∀ ok, s.commit p ok = { u with rs := { u.rs with optStatus := u.commitCheck } }) ∧
    (u.commitCheck = 0 → s.commit p true = { u.writeOther u.rs.stage with
      rs := { (u.writeOther u.rs.stage).rs with optStatus := 0, optCopy := !u.rs.optsel } }) :=
  ⟨fun hc _ => (onRwl_eq hu ho hh _).trans (if_pos hc), fun hc => (onRwl_eq hu ho hh _).trans (if_neg (not_not.2 hc))⟩

end Holder

/-- Settles O57: an operation of the holder of Hasp 0 goes by the image that the host offers. -/
theorem commitAndRecovery : Obligations.CommitAndRecovery := by
  refine fun s u p hu hh => ⟨fun ho => ?commit, fun ho op t ht => ⟨?clear, ?load, ?nor⟩⟩
  case commit =>
    obtain ⟨hbad, hgood⟩ := State.commit_holder hu hh ho
    exact ⟨fun hc ok => congrArg Host.Outcome.next (hbad hc ok), fun hc => congrArg Host.Outcome.next (hgood hc)⟩
  case clear =>
    rintro rfl
    exact congrArg Host.Outcome.next (State.recover_holder hu hh ho ht _)
  case load =>
    rintro rfl hostOk seen
    refine congrArg Host.Outcome.next ((State.recover_holder hu hh ho ht _).trans ?_)
    cases t.offered t.rs.rcvAddr t.rs.rcvLen hostOk <;> rfl
  case nor =>
    rintro rfl hostOk
    refine congrArg Host.Outcome.next ((State.recover_holder hu hh ho ht _).trans ?_)
    cases t.offered t.rs.rcvAddr t.rs.rcvLen hostOk <;> rfl

section Firmware

variable {s u t : State} {p : Port} (hu : u = s.wakeLink p) (hh : u.holdsSetup p = true) (ho : s.regReach p 0x28 = .open_)
include hu hh ho

/-- R481: VERIFY stages a good image, keeps what is staged where the length is too great, and else discards it. -/
theorem State.verify_holder (ht : t = { u with mg := { u.mg with fwOp := 1 } }) (hostOk : Bool) :
    (∀ d, t.offered t.mg.fwAddr t.mg.fwLen hostOk = .ok d → s.verify p hostOk =
      { t with mg := { t.mg with staged := some d, fwSver := Config.fwVersion d, fwStatus := 0 } }) ∧
    (t.offered t.mg.fwAddr t.mg.fwLen hostOk = .error 4 → s.verify p hostOk = { t with mg := { t.mg with fwStatus := 4 } }) ∧
    (∀ b, b ≠ 4 → t.offered t.mg.fwAddr t.mg.fwLen hostOk = .error b → s.verify p hostOk =
      { t with mg := { t.mg with staged := none, fwSver := 0, fwStatus := b } }) := by
  have h := State.fwOp_holder hu hh ho ht
  refine ⟨fun d hd => (h _).trans ?_, fun hd => (h _).trans ?_, fun b hb hd => (h _).trans ?_⟩
  · simp only [hd]
    rfl
  · simp only [hd]
    rfl
  · simp only [hd]
    split
    · rename_i heq
      exact absurd (Except.error.inj heq) hb
    · rename_i heq
      cases heq
      rfl
    · rename_i heq
      cases heq

/-- R482, R483: WRITE_NOR and ACTIVATE of the image that is staged. -/
theorem State.staged_holder {d : Bytes} (hd : u.mg.staged = some d) :
    (t = { u with mg := { u.mg with fwOp := 2 } } → s.writeNor p true = (t.setNor (some d)).fwStatus 0) ∧
    (t = { u with mg := { u.mg with fwOp := 3 } } → ∀ ok, s.activate p ok =
      if Config.fwUcif d ≠ t.mg.ucif then t.fwStatus 7
      else if ok = false then t.fwStatus 8
      else (State.restartPairs { t with mg := { t.mg with
        running := some d, fwRun := Config.fwVersion d, nordiff := decide (t.mg.nor ≠ some d) } }).fwStatus 0) := by
  refine ⟨fun ht => (State.fwOp_holder hu hh ho ht _).trans ?_, fun ht ok => (State.fwOp_holder hu hh ho ht _).trans ?_⟩
  all_goals
    have hs : t.mg.staged = some d := by rw [ht]; exact hd
    simp only [hs, if_true]

/-- R482, R483: without a staged image both show 0x06. -/
theorem State.unstaged_holder (hd : u.mg.staged = none) (ok : Bool) :
    (t = { u with mg := { u.mg with fwOp := 2 } } → s.writeNor p ok = t.fwStatus 6) ∧
    (t = { u with mg := { u.mg with fwOp := 3 } } → s.activate p ok = t.fwStatus 6) := by
  refine ⟨fun ht => (State.fwOp_holder hu hh ho ht _).trans ?_, fun ht => (State.fwOp_holder hu hh ho ht _).trans ?_⟩
  all_goals
    have hs : t.mg.staged = none := by rw [ht]; exact hd
    simp only [hs]

end Firmware

/-- Settles O58: VERIFY goes by the image that the host offers (log entry 86), the others by the one that is staged. -/
theorem firmwareOperations : Obligations.FirmwareOperations := by
  refine fun s u p hu hh ho op t ht => ⟨?verify, ?norNone, ?nor, ?runNone, ?run⟩
  case verify =>
    rintro rfl hostOk
    obtain ⟨hok, hlong, hbad⟩ := State.verify_holder hu hh ho ht hostOk
    refine congrArg Host.Outcome.next ?_
    cases h : t.offered t.mg.fwAddr t.mg.fwLen hostOk with
    | ok d => exact hok d h
    | error b =>
      by_cases hb : b = 4
      · subst hb
        exact hlong h
      · rw [hbad b hb h]
        split
        · rename_i heq
          cases heq
        · rename_i heq
          exact absurd (Except.error.inj heq) hb
        · rename_i heq
          cases heq
          rfl
  case norNone =>
    rintro rfl hd ok
    exact congrArg Host.Outcome.next ((State.unstaged_holder hu hh ho (by rw [ht] at hd; exact hd) ok).1 ht)
  case nor =>
    rintro rfl d hd
    exact congrArg Host.Outcome.next ((State.staged_holder hu hh ho (by rw [ht] at hd; exact hd)).1 ht)
  case runNone =>
    rintro rfl hd ok
    exact congrArg Host.Outcome.next ((State.unstaged_holder hu hh ho (by rw [ht] at hd; exact hd) ok).2 ht)
  case run =>
    rintro rfl d hd
    have h := (State.staged_holder hu hh ho (by rw [ht] at hd; exact hd)).2 ht
    refine ⟨fun hne ok => congrArg Host.Outcome.next ((h ok).trans (if_pos hne)),
      fun he => congrArg Host.Outcome.next ((h false).trans ((if_neg (not_not.2 he)).trans (if_pos rfl))),
      fun he => congrArg Host.Outcome.next ((h true).trans ((if_neg (not_not.2 he)).trans (if_neg (by decide))))⟩

end Sys2Proof.Machine
end

section
/-! The operations of the Ward (19 R486-R496). -/

namespace Sys2Proof.Machine

/-- R488: a challenge that lapses leaves the Ward CLOSED. -/
theorem State.lapseChallenge_challenged {t : State} (h : t.dw.state = .challenged) :
    t.lapseChallenge = { t with dw := { t.dw with state := .closed, chal := none, chalPort := none } } := if_pos h

section Holder

variable {s u t : State} {p : Port} (hu : u = s.wakeLink p) (ho : s.regReach p 0x32008 = .open_) (hh : u.holdsSetup p = true)
include hu ho hh

/-- R488: CHAL of a CLOSED Ward with nothing in its way gives a challenge of the firmware generator. -/
theorem State.chal_challenges (ht : t = { u with dw := { u.dw with op := 1 } }) {c : Bytes} {v : State}
    (hst : t.dw.state = .closed) (hfails : t.dw.fails < 8) (hbusy : t.busyModule = false) (hrn : t.rn.state = .ok)
    (hdraw : t.drawFw 32 = some (c, v)) : s.chal p = { v with dw := { v.dw with
      state := .challenged, chal := some (BitVec.ofNat 256 (leNat c)), chalTick := v.now, chalPort := some p, status := 0 } } := by
  have hno : t.chalRefusal = none := by
    simp only [State.chalRefusal, hst, hbusy, hrn, Nat.not_le.2 hfails, ne_eq, not_true_eq_false, Bool.false_eq_true, if_false]
  refine (State.wardOp_holder hu hh ho ht _).trans ?_
  simp only [hno, hdraw]
  rfl

/-- Log entry 89: CHAL of a Ward that is not CLOSED shows 0x08. -/
theorem State.chal_refused (ht : t = { u with dw := { u.dw with op := 1 } }) (hst : t.dw.state ≠ .closed) :
    s.chal p = t.wardStatus 8 := by
  have hno : t.chalRefusal = some 8 := if_pos hst
  refine (State.wardOp_holder hu hh ho ht _).trans ?_
  simp only [hno]

/-- R488, R491: what OPEN does by the state of the Ward, the age of the challenge and the signature. -/
theorem State.openWard_eq (ht : t = { u with dw := { u.dw with op := 2 } }) (seen : StartSeen) : s.openWard p seen =
    if t.dw.state ≠ .challenged then t.wardStatus 8
    else if t.dw.chalTick + 10000 < t.now then t.lapseChallenge.wardStatus 8
    else if t.wardOpens then (t.eraseAll seen).wardStatus 0
    else (State.lapseChallenge { t with dw := { t.dw with fails := min 8 (t.dw.fails + 1) } }).wardStatus 1 :=
  State.wardOp_holder hu hh ho ht _

variable (ht : t = { u with dw := { u.dw with op := 3 } })
include ht

/-- Log entry 89: PROVISION of a Ward that is not OPEN shows 0x08. -/
theorem State.provision_refused (hst : t.dw.state ≠ .open) (a b : Bool) : s.provision p a b = t.wardStatus 8 :=
  (State.wardOp_holder hu hh ho ht _).trans (if_pos hst)

/-- R495: PROVISION of an OPEN Ward takes a good bundle into the key store. -/
theorem State.provision_takes (hst : t.dw.state = .open) {d : Bytes} (hd : d = Mem.bytes t.host (t.dw.addr.toNat * 64) 16384)
    (hok : State.bundleOk d = true) (hclose : t.dw.close = false) :
    s.provision p true true = State.wardStatus { t with rs := { t.rs with keys := Mem.store [] 0 d } } 0 := by
  refine (State.wardOp_holder hu hh ho ht _).trans ?_
  simp only [hst, ne_eq, not_true_eq_false, Bool.true_eq_false, if_false, ← hd, hok, hclose, Bool.false_eq_true]

end Holder

section Attest

variable {s u : State} {p : Port} (hu : u = s.wakeLink p) (ho : s.regReach p 0x32008 = .open_) (hh : u.holdsSetup p = false)
include hu ho hh

/-- R496: ATTEST without an attestation key shows 0x06. -/
theorem State.attest_keyless (hk : (Mem.bytes u.rs.keys 0x40 128).all (· == 0) = true) : s.attest p = u.wardStatus 6 := by
  refine (State.onWrite_open hu ho _).trans ?_
  simp only [hh, Bool.false_eq_true, if_false, hk, if_true]

/-- R496: ATTEST signs DW_RESP, the identity and the firmware version; the signature nonce is free (log entry 13). -/
theorem State.attest_signs (hk : (Mem.bytes u.rs.keys 0x40 128).all (· == 0) = false) :
    s.attest p = { u with
      free := u.free + 1
      dw := { u.dw with
        resp := State.respOf (ecdsaSign (beNat ((Mem.bytes u.rs.keys 0x40 128).take 48)) (sha384 (u.respBytes.take 32 ++
          u.identBytes ++ leBytes 8 u.regFwVer.toNat)) (1 + (Config.signNonce u.free).toNat % (p384N - 1)))
        status := 0 } } := by
  refine (State.onWrite_open hu ho _).trans ?_
  simp only [hh, Bool.false_eq_true, if_false, hk]
  rfl

end Attest

/-- Settles O59: an operation of the holder of Hasp 0 goes by the state of the Ward (log entry 89); ATTEST goes by its
key slot. -/
theorem wardOperations : Obligations.WardOperations := by
  refine fun s u p hu ho => ⟨fun hh op t ht => ⟨?chal, ?chalNo, ?openNo, ?openLate, ?opens, ?provNo, ?provides⟩,
    fun hh hk => congrArg Host.Outcome.next (State.attest_keyless hu ho hh hk),
    fun hh hk => ⟨_, congrArg Host.Outcome.next (State.attest_signs hu ho hh hk)⟩, ?lapse⟩
  case chal =>
    rintro rfl c v hst hfails hbusy hrn hdraw
    exact congrArg Host.Outcome.next (State.chal_challenges hu ho hh ht hst hfails hbusy hrn hdraw)
  case chalNo =>
    rintro rfl hst
    exact congrArg Host.Outcome.next (State.chal_refused hu ho hh ht hst)
  case openNo =>
    rintro rfl hst seen
    exact congrArg Host.Outcome.next ((State.openWard_eq hu ho hh ht seen).trans (if_pos hst))
  case openLate =>
    rintro rfl hst hlate seen
    refine congrArg Host.Outcome.next ((State.openWard_eq hu ho hh ht seen).trans ((if_neg (not_not.2 hst)).trans
      ((if_pos hlate).trans ?_)))
    rw [State.lapseChallenge_challenged hst]
    rfl
  case opens =>
    rintro rfl hst hage seen
    refine congrArg Host.Outcome.next ((State.openWard_eq hu ho hh ht seen).trans ((if_neg (not_not.2 hst)).trans
      ((if_neg (Nat.not_lt.2 hage)).trans ?_)))
    refine if_congr Iff.rfl rfl ?_
    have hst' : ({ t with dw := { t.dw with fails := min 8 (t.dw.fails + 1) } } : State).dw.state = .challenged := hst
    rw [State.lapseChallenge_challenged hst']
    rfl
  case provNo =>
    rintro rfl hst a b
    exact congrArg Host.Outcome.next (State.provision_refused hu ho hh ht hst a b)
  case provides =>
    rintro rfl hst d hd hok hclose
    exact congrArg Host.Outcome.next (State.provision_takes hu ho hh ht hst hd hok hclose)
  case lapse =>
    intro hst hage
    exact congrArg Host.Outcome.next ((if_pos ⟨hst, hage⟩).trans (State.lapseChallenge_challenged hst))

end Sys2Proof.Machine
end

section
/-! What reset leaves, the front of the queue, the beginning of runs, and the words and events of the stitch fabric (17 R443, R447;
10 R281-R285; 07 R183-R192). -/

namespace Sys2Proof.Machine

/-- Settles O1: a step takes the command at the front of the queue. -/
theorem stepRunsFrontCommand : Obligations.StepRunsFrontCommand := fun _ _ _ => rfl

/-- 11 R304: at reset every context is FREE at generation 1. -/
theorem State.reset_ctx {id : Nat} (h : 1 ≤ id) : (State.reset.ctx id).state = .free ∧ (State.reset.ctx id).gen = 1 := by
  have hctx : State.reset.ctx id = Ctx.reset := if_neg (by omega)
  rw [hctx]
  exact ⟨rfl, rfl⟩

/-- At reset no peer link is up. -/
theorem State.reset_peerUp (l : Nat) : State.reset.peerUp l = false := by
  have h : State.reset.peer l = PeerLink.reset := by
    unfold State.peer
    rw [show State.reset.pr.links = List.replicate 8 PeerLink.reset from rfl, List.getElem?_replicate]
    split <;> rfl
  simp only [State.peerUp, h]
  rfl

/-- Settles O2: the state of reset is written out, so each of its fields is read off. -/
theorem resetState : Obligations.ResetState := by
  refine ⟨⟨rfl, rfl, rfl, fun c hc => absurd hc (List.not_mem_nil), fun p hp => absurd hp (List.not_mem_nil)⟩, rfl, rfl, rfl, rfl,
    rfl, rfl, rfl, rfl, rfl, rfl, rfl, rfl, rfl, rfl, rfl, rfl, State.reset_peerUp, rfl, rfl, fun _ h => State.reset_ctx h, rfl,
    rfl, rfl, rfl, rfl, rfl⟩

section Runs

variable {s t : State} {k : ReqKey} {r : Request} {i : Nat} {m : Model} {n : Net} {find : SourceFind} {op : Nat}

section Dispatch

variable (hk : r.kernel = false) (hh : s.handle? r (r.fld 56 8) = some i) (hm : s.model? i = some m) (hn : s.net? i = some n)
  (hrun : s.runOn i = none) (hup : s.updatesAhead r = false) (he : s.enginesReady m.mask = true)
  (hin : s.runInputsUp r = true) (hq : s.ready? k op = some r)
include hk hh hm hn hrun hup he hin hq

/-- 07 R192, 12 R331: inputs that read bad fail the request with what was met. -/
theorem State.dispatchRun_met {met : Met} (hmet : s.sourceMet r (s.runReads r m n) find = (t, met)) (hbad : met ≠ .clean) :
    s.dispatchRun k op find = t.failMet k met := by
  cases met
  case clean => exact absurd rfl hbad
  all_goals
    simp only [State.dispatchRun, hq, hk, hh, hm, hn, hrun, hup, he, hin, hmet, Option.isSome_none, Bool.not_true, Bool.or_self,
      Bool.false_eq_true, if_false]

/-- 10 R281-R285: with its inputs read clean the request opens its run. -/
theorem State.dispatchRun_clean (hmet : s.sourceMet r (s.runReads r m n) find = (t, .clean)) :
    s.dispatchRun k op find = t.openRun k r i m n op := by
  simp only [State.dispatchRun, hq, hk, hh, hm, hn, hrun, hup, he, hin, hmet, Option.isSome_none, Bool.not_true, Bool.or_self,
    Bool.false_eq_true, if_false]

end Dispatch

variable {w : RunSpec} (hroute : t.unrouted m.mask n.ladder = none) (hdam : t.damageOf m = none)
include hroute hdam

/-- 10 R281-R284: a SOLVE or SAMPLE whose parameters are accepted begins with the descriptor's seed or one of the generator. -/
theorem State.openRun_spec (hop : op ≠ Op.score) (hw : t.runSpec r m n = .ok w) :
    (r.fld 88 1 = 0 → t.openRun k r i m n op =
      t.beginRun k i m n op w (BitVec.ofNat 64 (r.fld 80 8)) (t.readSpace r (r.fld 64 8) 128)) ∧
    (r.fld 88 1 ≠ 0 → ∀ bs u, t.drawFw 8 = some (bs, u) → t.openRun k r i m n op =
      u.beginRun k i m n op w (BitVec.ofNat 64 (leNat bs)) (t.readSpace r (r.fld 64 8) 128)) := by
  refine ⟨fun h0 => ?_, fun h0 bs u hu => ?_⟩
  · simp only [State.openRun, if_neg hop, hw, hroute, hdam, if_pos h0]
  · simp only [State.openRun, if_neg hop, hw, hroute, hdam, if_neg h0, hu]

/-- 10 R285: a SCORE draws nothing and has seed 0. -/
theorem State.openRun_score (hw : t.scoreSpec r m n = .ok w) :
    t.openRun k r i m n Op.score = t.beginRun k i m n Op.score w 0 [] := by
  simp only [State.openRun, if_true, hw, hroute, hdam]

end Runs

/-- Settles O12: inputs that read bad fail the request; else its parameters and its seed begin the run. -/
theorem runsBegin : Obligations.RunsBegin := by
  intro s t k r i m n w find hk hh hm hn hrun hup he hin
  refine ⟨fun met hmet hbad => ⟨?solveMet, ?sampleMet, ?scoreMet⟩, fun hmet hroute hdam =>
    ⟨?solve, ?solveDraw, ?sample, ?sampleDraw, ?score⟩⟩
  case solveMet => exact fun hq => congrArg Host.Outcome.next (State.dispatchRun_met hk hh hm hn hrun hup he hin hq hmet hbad)
  case sampleMet => exact fun hq => congrArg Host.Outcome.next (State.dispatchRun_met hk hh hm hn hrun hup he hin hq hmet hbad)
  case scoreMet => exact fun hq => congrArg Host.Outcome.next (State.dispatchRun_met hk hh hm hn hrun hup he hin hq hmet hbad)
  case solve =>
    exact fun hq hw h0 => congrArg Host.Outcome.next ((State.dispatchRun_clean hk hh hm hn hrun hup he hin hq hmet).trans
      ((State.openRun_spec hroute hdam (by decide) hw).1 h0))
  case solveDraw =>
    exact fun hq hw h0 bs u hu => congrArg Host.Outcome.next ((State.dispatchRun_clean hk hh hm hn hrun hup he hin hq hmet).trans
      ((State.openRun_spec hroute hdam (by decide) hw).2 h0 bs u hu))
  case sample =>
    exact fun hq hw h0 => congrArg Host.Outcome.next ((State.dispatchRun_clean hk hh hm hn hrun hup he hin hq hmet).trans
      ((State.openRun_spec hroute hdam (by decide) hw).1 h0))
  case sampleDraw =>
    exact fun hq hw h0 bs u hu => congrArg Host.Outcome.next ((State.dispatchRun_clean hk hh hm hn hrun hup he hin hq hmet).trans
      ((State.openRun_spec hroute hdam (by decide) hw).2 h0 bs u hu))
  case score =>
    exact fun hq hw => congrArg Host.Outcome.next ((State.dispatchRun_clean hk hh hm hn hrun hup he hin hq hmet).trans
      (State.openRun_score hroute hdam hw))

end Sys2Proof.Machine
end

section
/-! The words of the stitch fabric, its markers, its service position and its faulty lanes (07 R183-R192). -/

namespace Sys2Proof.Machine

/-- A change of a lane leaves the entries of every link. -/
theorem State.updLane_entries (s : State) (l i l' : Nat) (f : Lane → Lane) :
    ((s.updLane l i f).link l').entries = (s.link l').entries := by
  simp only [State.link, State.updLane, updAt, List.getElem?_modify]
  cases s.fb.links[l']? with
  | none => rfl
  | some k => by_cases h : l = l' <;> simp [h]

section Hem

variable {s t : State} {w : LaneWord} {y : Nat × W64} {rest : List (Nat × W64)} {e v : Nat}
  (hwords : (State.way (s.lane w.link w.lane) w.dir).words = y :: rest)
  (howner : (s.lane w.link w.lane).owner = some (e, v)) (hdis : (s.lane w.link w.lane).disabled = false)
include hwords howner hdis

/-- R191: a word whose parity fails is asked for again. -/
theorem State.receive_parity (hpar : parityOk w.data w.side = false) :
    s.receive w = (s.updLane w.link w.lane fun n => State.noteReplay n w.dir, none) := by
  simp only [State.receive, hwords, howner, hdis, hpar, Bool.false_eq_true, if_false, if_true]

/-- R184: the oldest word under way leaves its lane, which moves on. -/
theorem State.receive_arrived {x : LinkEntry} (hpar : parityOk w.data w.side = true) (harr : State.arrived y w = true)
    (hx : (s.link w.link).entries.getD e none = some x) (hdrain : x.drain = false)
    (ht : t = (s.updLane w.link w.lane fun n => State.popWord n w.dir).moveLane w.link w.lane w.dir) :
    s.receive w = (t, some (e, v, x)) := by
  subst ht
  simp only [State.receive, hwords, howner, hdis, hpar, harr, hx, hdrain, Bool.false_eq_true, Bool.true_eq_false, if_false]

omit hwords

/-- R188, R191: an empty stitch leaves nothing behind; its parity is checked like any other's. -/
theorem State.emptyStitch_passes {x : LinkEntry} (hx : (s.link w.link).entries.getD e none = some x)
    (hdead : s.linkDead w.link = false) (hbad : wBad w.data = false) :
    s.emptyStitch w = s.updLane w.link w.lane fun n =>
      if parityOk w.data w.side then State.setWay n w.dir { State.way n w.dir with consec := 0 } else State.noteReplay n w.dir := by
  cases hpar : parityOk w.data w.side <;>
  simp only [State.emptyStitch, howner, Option.bind_some, hx, hdis, hdead, hbad, hpar, Bool.or_self, Bool.false_and,
    Bool.false_eq_true, Bool.true_eq_false, if_false, if_true]

end Hem

section Kinds

variable {s t : State} {w : LaneWord} {e v : Nat} {x : LinkEntry} (hl : w.lane < 3)
include hl

/-- R185, 04 R96: a word of KIND 1 is a hem change, which enters the pending copies and is passed on unless it is bad. -/
theorem State.hemFlip_received (hk : wKind w.data = 1) (hr : s.receive w = (t, some (e, v, x))) : s.hemFlip w =
    if wBad w.data then t.wordFault x.model (State.recvEnd w.link w.dir)
    else (t.setPending x.model (State.recvEnd w.link w.dir) (wBlock w.data) (wRepl w.data) (wVar w.data)
      (wState w.data)).sendFrom x.model (State.recvEnd w.link w.dir) (.inr (w.link, v)) w.data := by
  have h0 : ¬(w.lane < 3 ∧ wKind w.data = 0) := by omega
  have h1 : w.lane < 3 ∧ wKind w.data ≠ 0 ∧ wKind w.data ≠ 2 ∧ wKind w.data ≠ 3 := by omega
  simp only [State.hemFlip, if_neg h0, if_pos h1, hr]

/-- R187: a word of KIND 2 is a turn end, which is held for the boundary and passed on unless it is bad. -/
theorem State.turnEndStitch_received (hk : wKind w.data = 2) (hr : s.receive w = (t, some (e, v, x))) : s.turnEndStitch w =
    if wBad w.data then t.wordFault x.model (State.recvEnd w.link w.dir)
    else (t.updNet x.model fun n => { n with turnEnds := n.turnEnds ++
      [{ le := State.recvEnd w.link w.dir, link := w.link, vlane := v, blk := wBlock w.data, turn := wVar w.data }] }).sendFrom
        x.model (State.recvEnd w.link w.dir) (.inr (w.link, v)) w.data := by
  simp only [State.turnEndStitch, if_pos (And.intro hl hk), hr]

/-- A word that does not go on leaves what its receipt leaves. -/
theorem State.received_none (hr : s.receive w = (t, none)) :
    (wKind w.data = 1 → s.hemFlip w = t) ∧ (wKind w.data = 2 → s.turnEndStitch w = t) := by
  refine ⟨fun hk => ?_, fun hk => ?_⟩
  · have h0 : ¬(w.lane < 3 ∧ wKind w.data = 0) := by omega
    have h1 : w.lane < 3 ∧ wKind w.data ≠ 0 ∧ wKind w.data ≠ 2 ∧ wKind w.data ≠ 3 := by omega
    simp only [State.hemFlip, if_neg h0, if_pos h1, hr]
  · simp only [State.turnEndStitch, if_pos (And.intro hl hk), hr]

end Kinds

/-- R183: a drain marker closes its direction; the second one frees the entry and its lanes. -/
theorem State.drainMarker_closes {s t : State} {w : LaneWord} {o : Nat × W64} {rest : List (Nat × W64)} {x y : LinkEntry} {e : Nat}
    (hwords : (State.way (s.lane w.link w.lane) w.dir).words = o :: rest)
    (he : e = (((s.lane w.link w.lane).owner.map (·.1)).getD o.1)) (hdis : (s.lane w.link w.lane).disabled = false)
    (hk : wKind w.data = 3) (hpar : parityOk w.data w.side = true) (harr : State.arrived o w = true)
    (hx : (s.link w.link).entries.getD e none = some x) (hdrain : x.drain = true)
    (ht : t = (s.updLane w.link w.lane fun n => State.popWord n w.dir).moveLane w.link w.lane w.dir)
    (hfwd : w.dir = .fwd → y = { x with fwdOpen := false }) (hback : w.dir = .back → y = { x with backOpen := false }) :
    s.drainMarker w = if y.fwdOpen = true ∨ y.backOpen = true then
        { t with fb := { t.fb with links := updAt t.fb.links w.link fun k => { k with entries := k.entries.set e (some y) } } }
      else (State.freeOne { t with fb := { t.fb with links := updAt t.fb.links w.link fun k =>
        { k with entries := k.entries.set e (some y) } } } w.link e).finishUnload x.model := by
  have hno : ¬((s.lane w.link w.lane).disabled = true ∨ wKind w.data ≠ 3) := by simp [hdis, hk]
  unfold State.drainMarker
  cases hd : w.dir with
  | fwd =>
    rw [hd] at hwords ht
    rw [hfwd hd]
    simp only [hwords, if_neg hno, hpar, harr, Bool.true_eq_false, if_false, ← he, hx, hdrain, ← ht, Bool.or_eq_true]
  | back =>
    rw [hd] at hwords ht
    rw [hback hd]
    simp only [hwords, if_neg hno, hpar, harr, Bool.true_eq_false, if_false, ← he, hx, hdrain, ← ht, Bool.or_eq_true]

/-- R190, R191: words of a transfer take it on; received whole it leaves its queue, and a stale tag is counted. -/
theorem State.serviceTransfer_takes {s : State} {x : Transfer} {words : List (W64 × Byte)} {left : List W64} {n : Lane}
    {q : List Transfer}
    (hx : (s.fb.service.find? fun y => decide (y.link = x.link) && decide (y.dir = x.dir)) = some x) (hbegun : x.begun = true)
    (hdis : (s.lane x.link 3).disabled = false) (hdead : s.linkDead x.link = false)
    (htake : State.takeWords x.dir x.words words (s.lane x.link 3) = (left, n))
    (hq : q = (if left = [] then (if s.shiftTouches x.link then s.fb.service.erase x
        else State.beginNext x.link x.dir (s.fb.service.erase x))
      else s.fb.service.map fun y => if y = x then { x with words := left } else y)) :
    s.serviceTransfer x.link x.dir words = { s with
      cx := { s.cx with stale := if left = [] ∧ x.tag ≠ 0 ∧ s.tagLive x.tag = false then satInc 16 s.cx.stale else s.cx.stale }
      fb := { s.fb with
        links := updAt s.fb.links x.link fun k => { k with lanes := updAt k.lanes 3 fun _ => n }
        service := q } } := by
  have hrecv : (s.updLane x.link 3 fun _ => n).receiveTransfer x.link x.dir x left = { s with fb := { s.fb with
      links := updAt s.fb.links x.link fun k => { k with lanes := updAt k.lanes 3 fun _ => n }, service := q } } := by
    subst hq
    cases left <;> rfl
  have hkept : (!left.isEmpty || x.tag == 0#24 || s.tagLive x.tag) = true ↔
      ¬(left = [] ∧ x.tag ≠ 0 ∧ s.tagLive x.tag = false) := by
    simp only [Bool.or_eq_true, Bool.not_eq_true', List.isEmpty_eq_false_iff, beq_iff_eq, not_and_or, ne_eq, not_not,
      Bool.not_eq_false, or_assoc]
    exact Iff.rfl
  unfold State.serviceTransfer
  simp only [hx, hdis, hdead, hbegun, Bool.not_true, Bool.or_self, Bool.false_eq_true, if_false, htake, hrecv]
  by_cases h : left = [] ∧ x.tag ≠ 0 ∧ s.tagLive x.tag = false
  · rw [if_neg (fun hc => hkept.1 hc h)]
    simp only [if_pos h]
    rfl
  · rw [if_pos (hkept.2 h)]
    simp only [if_neg h]

/-- Where no entry of a link drains, no entry is freed with a lane. -/
theorem State.freeStuck_noop {s : State} {l : Nat} (h : ∀ e x, (s.link l).entries.getD e none = some x → x.drain = false)
    (i : Nat) : s.freeStuck l i = s := by
  refine foldl_noop _ _ (fun e _ t => ?_) s
  cases hx : (s.link l).entries.getD e none with
  | none => rfl
  | some x => exact if_neg (by simp [h e x hx])

/-- R192: a lane that no model owns, on a link where no entry drains, is recorded and disabled. -/
theorem State.laneFault_disables {s : State} {l i : Nat} {byRate : Bool} (hl : l < 56) (hi : i < 4)
    (hdis : (s.lane l i).disabled = false) (hshift : s.shiftTouches l = false)
    (hbad : (if byRate then (s.lane l i).rated else (s.lane l i).stuck) = true) (howner : (s.lane l i).owner = none)
    (hdrain : ∀ e x, (s.link l).entries.getD e none = some x → x.drain = false) :
    s.laneFault l i byRate = s.disableLane l i byRate false := by
  have howners : s.laneOwners l i = [] := by simp only [State.laneOwners, howner]
  have hentries : ((s.disableLane l i byRate false).link l).entries = (s.link l).entries := State.updLane_entries s l i l _
  unfold State.laneFault
  rw [if_pos ⟨hl, hi, hdis, hshift, hbad⟩, howners]
  exact State.freeStuck_noop (s := s.disableLane l i byRate false) (by rw [hentries]; exact hdrain) i

/-- Settles O15: a word goes on or not by its receipt; markers, transfers and faulty lanes take their lemmas. -/
theorem fabricWordsAndEvents : Obligations.FabricWordsAndEvents := by
  refine ⟨fun s t w y rest e v hl hwords howner hdis => ⟨?parity, ?arrives, ?empty⟩, ?marker, ?service, ?fault⟩
  case parity =>
    intro hpar
    obtain ⟨hone, htwo⟩ := State.received_none hl (State.receive_parity hwords howner hdis hpar)
    exact ⟨fun hk => congrArg Host.Outcome.next (hone hk), fun hk => congrArg Host.Outcome.next (htwo hk)⟩
  case arrives =>
    intro x hpar hx hdrain ht
    refine ⟨fun hdata hside hgood => ?_, fun hbad => ?_⟩
    · have hr := State.receive_arrived hwords howner hdis hpar (by simp [State.arrived, ← hdata, hside]) hx hdrain ht
      have hno : ¬wBad w.data = true := by simp [hgood]
      exact ⟨fun hk => congrArg Host.Outcome.next ((State.hemFlip_received hl hk hr).trans (if_neg hno)),
        fun hk => congrArg Host.Outcome.next ((State.turnEndStitch_received hl hk hr).trans (if_neg hno))⟩
    · have hr := State.receive_arrived hwords howner hdis hpar (by simp [State.arrived, hbad]) hx hdrain ht
      exact ⟨fun hk => congrArg Host.Outcome.next ((State.hemFlip_received hl hk hr).trans (if_pos hbad)),
        fun hk => congrArg Host.Outcome.next ((State.turnEndStitch_received hl hk hr).trans (if_pos hbad))⟩
  case empty =>
    exact fun x hk hx hdead hbad => congrArg Host.Outcome.next
      ((if_pos ⟨hl, hk⟩).trans (State.emptyStitch_passes howner hdis hx hdead hbad))
  case marker =>
    rintro s t w o rest x e hwords he hdis hk hpar harr hx hdrain ht _ rfl
    exact congrArg Host.Outcome.next (State.drainMarker_closes hwords he hdis hk hpar harr hx hdrain ht
      (fun h => by rw [h]) (fun h => by rw [h]))
  case service =>
    exact fun s x words left n q hx hbegun hdis hdead htake hq => congrArg Host.Outcome.next
      (State.serviceTransfer_takes hx hbegun hdis hdead htake hq)
  case fault =>
    exact fun s l i byRate hl hi hdis hshift hbad howner hdrain => congrArg Host.Outcome.next
      ((State.laneFault_disables hl hi hdis hshift hbad howner hdrain).trans
        (by cases byRate <;> rfl))

end Sys2Proof.Machine
end
